-- ==== Sys2Proof/Word.lean ====
section
/-! DEFINITION. The word types of the SRK-940 (R6, R7, R14) and their plainest arithmetic. -/

namespace Sys2Proof

/-- A byte of memory (R6). -/
abbrev Byte := BitVec 8
/-- A 32-bit register or word (R14). -/
abbrev Word := BitVec 32
/-- A 64-bit value: a register pair, an address operand, a program counter (R7). -/
abbrev DWord := BitVec 64

/-- The 64-bit value of an even-odd pair: the even register holds bits [31:0] (R7). -/
def pairOf (lo hi : Word) : DWord := BitVec.ofNat 64 (hi.toNat * 2 ^ 32 + lo.toNat)

/-- Bits [31:0] of a 64-bit value (R7). -/
def loWord (x : DWord) : Word := BitVec.ofNat 32 x.toNat

/-- Bits [63:32] of a 64-bit value (R7). -/
def hiWord (x : DWord) : Word := BitVec.ofNat 32 (x.toNat / 2 ^ 32)

@[simp] theorem pairOf_toNat (lo hi : Word) : (pairOf lo hi).toNat = hi.toNat * 2 ^ 32 + lo.toNat := by
  have h1 := lo.isLt; have h2 := hi.isLt
  simp only [pairOf, BitVec.toNat_ofNat]; omega

@[simp] theorem loWord_pairOf (lo hi : Word) : loWord (pairOf lo hi) = lo := by
  have h1 := lo.isLt; have h2 := hi.isLt
  apply BitVec.eq_of_toNat_eq
  simp only [loWord, pairOf_toNat, BitVec.toNat_ofNat]; omega

@[simp] theorem hiWord_pairOf (lo hi : Word) : hiWord (pairOf lo hi) = hi := by
  have h1 := lo.isLt; have h2 := hi.isLt
  apply BitVec.eq_of_toNat_eq
  simp only [hiWord, pairOf_toNat, BitVec.toNat_ofNat]; omega

end Sys2Proof
end

