-- ==== Sys2Proof/Config.lean ====
section
/-! DEFINITION. What an implementation of the SRK-940 fixes or leaves unspecified. Every constant here has NO body:
it is a free value, and a statement about the machine holds for every value of it (log 1, 5, 6, 7, 70). -/

namespace Sys2Proof.Config

/-- Word i of undefined contents number `seed` (R3, R68): the registers of a new frame, unwritten pronouns, unclaimed tiles. -/
opaque undefWord : Nat → Nat → Word
/-- Byte i of undefined contents number `seed` (R3, R67): local memory of a new frame, segment contents seen by a plain load. -/
opaque undefByte : Nat → Nat → Byte
/-- RSEQ that SCRUBQ reads on a core that no scrub has covered (R309), by device core index. -/
opaque noScrubSeq : Nat → Nat
/-- ADDRESS of PAGE cause 8, which the spec does not state (R422), by delivery number. -/
opaque cellPartAddress : Nat → DWord
/-- The result of a custom far operation whose sentence breaks R156 after it passed its check (R467), by access number. -/
opaque customResult : Nat → DWord
/-- The number the device assigns a fibre that is no future's fibre; the model takes its low 31 bits (R66, R90). -/
opaque fibreId : Nat → Nat
/-- How many pips beyond 1 an access raises its agent's stamp (R140), by access number. -/
opaque extraPips : Nat → Nat
/-- The length of a lease beyond the stamp of the access that obtained it; the model caps it at 256 (R141). -/
opaque leasePips : Nat → Nat
/-- How many core cycles beyond 1 a step takes (R13, R47), by step number. -/
opaque extraCycles : Nat → Nat
/-- Which of the agents that can act takes the next step, by step number; the model reduces it modulo their count (log 6). -/
opaque pickTurn : Nat → Nat
/-- Where HomeOf begins in a run of as many consecutive lines as there are slices (R19), by run number: each run takes every slice once. -/
opaque homeSpread : Nat → Nat
/-- Which line a full cache evicts, and which way with room takes a new line (R65, R72, R118, R160), by access number. -/
opaque evictPick : Nat → Nat
/-- The keyed 64-bit check of a continuation block over its bits [447:4] (R80). -/
opaque blockCheck : List Byte → DWord
/-- The fresh private key of a report's key pair (R414), by report number. -/
opaque deviceKey : Nat → Nat
/-- The device's serial number (R414). -/
opaque serialNumber : BitVec 64
/-- The certificate chain of the identity key, read through the management endpoint (R415). -/
opaque identityChain : List Byte
/-- The one-time signature of a report or receipt (R415), by key index. -/
opaque signature : Nat → List Byte → List Byte

end Sys2Proof.Config
end

