-- ==== Sys2Proof/Syntax.lean ====
section
/-! DEFINITION. The syntax: one constructor of `Instr` per row of spec/opcode_table.json (269 rows): the 154 opcodes of R203,
the 25 Dyzil operations of R346 and the 90 events, each with the operands or the outside data its rule gives it. -/

namespace Sys2Proof

/-- A guard (R195, R197): `en` is GE, `q` is G, `neg` is GN. -/
structure Guard where
  en : Bool
  q : BitVec 3
  neg : Bool
  deriving DecidableEq, Repr

/-- A destination by its kind DK (R195). Where an entry gives D another meaning, kind 0 carries the number (R243, R273). -/
inductive Dst where
  | v (n : BitVec 11)
  | p (n : BitVec 4)
  | q (n : BitVec 3)
  | none
  deriving DecidableEq, Repr

/-- A source by its kind (R196). Where an entry gives the field another meaning, kind 0 carries the number. -/
inductive Src where
  | v (n : BitVec 11) (wait : Bool)
  | p (n : BitVec 4)
  | c (n : BitVec 11)
  | imm
  | lit (slot : BitVec 3) (word : BitVec 2) (next : Bool)
  deriving DecidableEq, Repr

/-- The fields of format G other than OP (R195). -/
structure GOp where
  guard : Guard
  mod : BitVec 6
  dst : Dst
  a : Src
  b : Src
  c : Src
  imm : BitVec 20
  deriving DecidableEq, Repr

/-- The fields of format J other than OP (R201). -/
structure JOp where
  guard : Guard
  mod : BitVec 6
  dst : Dst
  a : Src
  tslot : BitVec 3
  off : BitVec 26
  imm : BitVec 20
  deriving DecidableEq, Repr

/-- The awaits of STOP, format S (R202): D, A, B, C, each a v register or none. -/
structure SOp where
  d : Option (BitVec 11)
  a : Option (BitVec 11)
  b : Option (BitVec 11)
  c : Option (BitVec 11)
  deriving DecidableEq, Repr

/-- An indivisible read-modify-write as it is sent to where it is performed (R154, R158). -/
inductive Rmw where
  /-- ATOM (`wide` = false) or ATOM64: MOD[2:0], MOD[3], operands B and C (R285). -/
  | atom (op : BitVec 3) (uns wide : Bool) (b c : DWord)
  /-- CAS2 (R286). -/
  | cas2 (b c : BitVec 128)
  /-- RED with its operator tag (R158). -/
  | red (tag : BitVec 4) (v : DWord)
  /-- ATOMX: the custom far operation whose sentence stands at `entry`, with four operand words (R156, R287). -/
  | custom (entry : BitVec 64) (ops : List Word)
  deriving DecidableEq, Repr

/-- One access sent to the owner of a LOC 3 page (R371). -/
inductive PeerAcc where
  | load (n : Nat)
  | store (data : List Byte)
  | rmw (r : Rmw)
  /-- The stored bytes of the element or block of a view page at the address (R135, R282, R284). -/
  | viewStore (data : List Byte)
  /-- A line of instructions (R189). -/
  | fetch
  /-- An engine's or a sequencer's read, a view page in stored form (R135); a channel's names the key of its own claims (R151). -/
  | rawLoad (key : Option Nat) (n : Nat)
  /-- An engine's or a sequencer's write of stretches of one line, each as its offset and bytes (R461), made under the claim of the key, if it has
  one, and whether that claim then ends (R151). -/
  | rawStore (key : Option Nat) (last : Bool) (data : List (Nat × List Byte))
  /-- The 8 bytes of a completion write (R304, R503). -/
  | completion (data : List Byte)
  /-- An engine's claim of the line of n bytes that it will write, and the release of a key's claims (R151, R464). -/
  | claim (key n : Nat)
  | release (key : Nat)
  /-- The owner's checks of an access alone (R372). -/
  | probe (a : PeerAcc)
  deriving DecidableEq, Repr

/-- The owner's answer to a peer access (R372). -/
inductive PeerReply where
  | done (data : List Byte)
  | fault (tag : BitVec 16) (cause : BitVec 8) (argx : BitVec 16)
  /-- The checks of an access to a view page passed: the page's format, geometry, pitch and size (R132, R133). -/
  | view (fmt : Nat) (geo : Bool) (g size : Nat)
  deriving DecidableEq, Repr

/-- What another device sends with the stamp that its work reached in the order (R137): for a link command, the traffic class of its messages (R369). -/
structure Stamped (α : Type) where
  val : α
  ts : Nat
  deriving DecidableEq, Repr

/-- One access of the host through CXL.mem (R362), with its requester id (R417). -/
inductive HostAcc where
  | load (req : BitVec 25) (n : Nat)
  | store (req : BitVec 25) (data : List Byte)
  deriving DecidableEq, Repr

/-- A posted write of the host through CXL.io (R150), with its requester id (R417). -/
structure HostWrite where
  req : BitVec 25
  data : List Byte
  deriving DecidableEq, Repr

/-- One turn of a turn schedule (R358): CTXk, LENk, Vk. -/
structure Turn where
  ctx : BitVec 16
  len : BitVec 15
  valid : Bool
  deriving DecidableEq, Repr

/-- A firmware image as the management controller judges it (R420): whether its HSS signature verifies, its security version, its measurement. -/
structure Firmware where
  sigOk : Bool
  secVer : Nat
  measurement : BitVec 256
  deriving DecidableEq, Repr

/-- A granule of a checkpoint stream (R23, R413, R497): its number; its 512 lines as their stored ciphertext and tag; the lines that were poisoned (0)
or whose ECC does not hold, by the kind of their error; and the CMAC over the ciphertext. -/
structure SavedGranule where
  gran : Nat
  lines : List (List Byte × List Byte)
  marks : List (Nat × Nat)
  cmac : List Byte
  deriving DecidableEq, Repr

/-- A hardware error as it arises (R453, R457, R492): where it is. -/
inductive HwError where
  | corrected (hbm : Bool)
  /-- An uncorrectable error (or a tag mismatch) in a stored line of device memory, found when the line is read (R453, R500). -/
  | memLine (pa : Nat) (tagMismatch : Bool)
  /-- An uncorrectable error in a second-level copy of a line at its home, found when the line is read (R454). -/
  | secondLevel (pa : Nat)
  /-- A dirty first-level line, or core c's partial or slot, of a line (R457, R458). -/
  | partialLine (pa core : Nat)
  /-- The scrub of a core's storage during a destroy reports an error in a unit of a KIND (R416, R454, R494). -/
  | scrub (core kind : Nat)
  | regCache (fibre : Nat)
  | bank (core bank : Nat)
  | slot (core i : Nat)
  | tile (core i : Nat)
  /-- An internal check failure in a core, sequencer or converter: class Unit (R492). -/
  | unit (core : Nat)
  /-- Uncorrectable state in a cluster block: class Shared. -/
  | shared (cluster : Nat)
  | homeSlice (i : Nat)
  /-- An HBM pseudo-channel reaches its limit or fails training (R494): the granules that leave the table. -/
  | hbm (pch first count : Nat)
  /-- A turn-state save or restore fails (R436). -/
  | save (ctx : Nat)
  | restore (ctx : Nat)
  deriving DecidableEq, Repr

/-- One row of spec/opcode_table.json each. -/
inductive Instr where
  -- Group 0: integer and address (R217)
  | iadd (o : GOp)
  | isub (o : GOp)
  | imul (o : GOp)
  | imulh (o : GOp)
  | imad (o : GOp)
  | imad64 (o : GOp)
  | iadd64 (o : GOp)
  | lea (o : GOp)
  | ineg (o : GOp)
  | iabs (o : GOp)
  | imin (o : GOp)
  | imax (o : GOp)
  | andb (o : GOp)
  | orb (o : GOp)
  | xorb (o : GOp)
  | andn (o : GOp)
  | notb (o : GOp)
  | shl (o : GOp)
  | shr (o : GOp)
  | sar (o : GOp)
  | funshf (o : GOp)
  | bfe (o : GOp)
  | bfi (o : GOp)
  | popc (o : GOp)
  | clz (o : GOp)
  | brev (o : GOp)
  | isetp (o : GOp)
  | isel (o : GOp)
  | mov (o : GOp)
  | movi (o : GOp)
  | movs (o : GOp)
  | idivq (o : GOp)
  -- Group 1: floating point (R228 to R235)
  | fadd (o : GOp)
  | fsub (o : GOp)
  | fmul (o : GOp)
  | ffma (o : GOp)
  | fmin (o : GOp)
  | fmax (o : GOp)
  | fminnum (o : GOp)
  | fmaxnum (o : GOp)
  | fsetp (o : GOp)
  | fclass (o : GOp)
  | frnd (o : GOp)
  | fscale (o : GOp)
  | fcpysgn (o : GOp)
  | dadd (o : GOp)
  | dmul (o : GOp)
  | dfma (o : GOp)
  | dsetp (o : GOp)
  | hadd2 (o : GOp)
  | hmul2 (o : GOp)
  | hfma2 (o : GOp)
  | badd2 (o : GOp)
  | bmul2 (o : GOp)
  | bfma2 (o : GOp)
  | fstatw (o : GOp)
  -- Group 2: special functions and conversions (R236 to R240)
  | rcp (o : GOp)
  | rsq (o : GOp)
  | sqrt (o : GOp)
  | ex2 (o : GOp)
  | lg2 (o : GOp)
  | tanh (o : GOp)
  | sinpi (o : GOp)
  | cospi (o : GOp)
  | ftoi (o : GOp)
  | itof (o : GOp)
  | fcvt (o : GOp)
  -- Group 3: cross-lane and masks (R247 to R257)
  | shfl (o : GOp)
  | qswap (o : GOp)
  | qbcast (o : GOp)
  | vote (o : GOp)
  | redux (o : GOp)
  | fredux (o : GOp)
  | matchl (o : GOp)
  | cfence (o : GOp)
  | join (o : GOp)
  | leave (o : GOp)
  | waitm (o : GOp)
  | mand (o : GOp)
  | mor (o : GOp)
  | mxor (o : GOp)
  | mnot (o : GOp)
  | mrd (o : GOp)
  | mwr (o : GOp)
  | mact (o : GOp)
  -- Group 4: control, effects, futures (R259 to R266)
  | bra (o : JOp)
  | brc (o : JOp)
  | brx (o : GOp)
  | call (o : JOp)
  | callx (o : GOp)
  | ret (o : GOp)
  | stop (o : SOp)
  | nop (o : GOp)
  | exit (o : GOp)
  | hinst (o : JOp)
  | hrem (o : GOp)
  | perform (o : GOp)
  | resume (o : GOp)
  | drop (o : GOp)
  | cstat (o : GOp)
  | spawn (o : JOp)
  | fget (o : GOp)
  | fpark (o : GOp)
  | fref (o : GOp)
  | funref (o : GOp)
  | fxfer (o : GOp)
  | fpin (o : GOp)
  | funpin (o : GOp)
  | fcancel (o : GOp)
  -- Group 5: memory (R273 to R291)
  | ld (o : GOp)
  | st (o : GOp)
  | ldFrame (o : GOp)
  | stFrame (o : GOp)
  | ldc (o : GOp)
  | atom (o : GOp)
  | atom64 (o : GOp)
  | cas2 (o : GOp)
  | red (o : GOp)
  | fenceSys (o : GOp)
  | fifow (o : GOp)
  | fifor (o : GOp)
  | bankcfg (o : GOp)
  | wptr (o : GOp)
  | wpwait (o : GOp)
  -- Group 6: synchronisation and engines (R293 to R309)
  | barinit (o : GOp)
  | bara (o : GOp)
  | barw (o : GOp)
  | baraw (o : GOp)
  | rwait (o : GOp)
  | rpost (o : GOp)
  | push (o : GOp)
  | timew (o : GOp)
  | srdcnt (o : GOp)
  | movsw (o : GOp)
  | scrubq (o : GOp)
  | atomx (o : GOp)
  -- Group 7: matrix sequencer (R316)
  | xclaim (slots : BitVec 16) (tiles : BitVec 8)
  | xrel (slots : BitVec 16) (tiles : BitVec 8)
  | xload (fmt : BitVec 4) (cols : Bool) (slot : BitVec 4) (ga : BitVec 3) (off : BitVec 20) (gb : BitVec 3)
  | xmma (tile : BitVec 3) (sa : BitVec 4) (sb : BitVec 4)
  | xmmaz (tile : BitVec 3) (sa : BitVec 4) (sb : BitVec 4)
  | xdrain (fmt : BitVec 4) (rnd : BitVec 2) (sat : Bool) (tile : BitVec 3) (ga : BitVec 3) (off : BitVec 20) (gb : BitVec 3)
  | xdraina (fmt : BitVec 4) (part : BitVec 2) (slot : BitVec 4) (tile : BitVec 3)
  | xsub (fmt : BitVec 4) (st : BitVec 3) (base : BitVec 4) (count : BitVec 5) (window : BitVec 5)
  | xunsub (st : BitVec 3)
  | xbara (bar : BitVec 4)
  | xbarw (bar : BitVec 4)
  | xloop (ctr : BitVec 2) (tslot : BitVec 3) (off : BitVec 17)
  | xjmp (tslot : BitVec 3) (off : BitVec 17)
  | xset (d : BitVec 4) (a : Src) (imm : BitVec 20)
  | xaddg (d : BitVec 3) (ga : BitVec 3) (b : Src) (imm : BitVec 20)
  | xwaits (st : BitVec 3)
  -- Dyzil operations (R346)
  | dyzilLdp (a : BitVec 4) (w : BitVec 16)
  | dyzilLds (a : BitVec 4) (w : BitVec 16)
  | dyzilSts (w : BitVec 16) (b : BitVec 4)
  | dyzilLdq (a : BitVec 4) (f : BitVec 16)
  | dyzilMovi (a : BitVec 4) (x : BitVec 16)
  | dyzilAdd (a : BitVec 4) (b : BitVec 4)
  | dyzilAddi (a : BitVec 4) (x : BitVec 16)
  | dyzilSub (a : BitVec 4) (b : BitVec 4)
  | dyzilAnd (a : BitVec 4) (b : BitVec 4)
  | dyzilOr (a : BitVec 4) (b : BitVec 4)
  | dyzilShl (a : BitVec 4) (n : BitVec 6)
  | dyzilShr (a : BitVec 4) (n : BitVec 6)
  | dyzilExt (a : BitVec 4) (b : BitVec 4) (pos : BitVec 6) (len : BitVec 7)
  | dyzilJmp (k : BitVec 16)
  | dyzilBeq (a : BitVec 4) (b : BitVec 4) (k : BitVec 16)
  | dyzilBne (a : BitVec 4) (b : BitVec 4) (k : BitVec 16)
  | dyzilBltu (a : BitVec 4) (b : BitVec 4) (k : BitVec 16)
  | dyzilLoop (c : BitVec 7) (n : BitVec 9)
  | dyzilLaunch (a : BitVec 4) (t : BitVec 16)
  | dyzilRec (t : BitVec 16)
  | dyzilSignal (a : BitVec 4) (b : BitVec 4) (m : BitVec 16)
  | dyzilWaitv (a : BitVec 4) (b : BitVec 4) (cc : BitVec 16)
  | dyzilCancel (a : BitVec 4)
  | dyzilErr (code : BitVec 16)
  -- Events of the device and of outside agents (f95)
  | dyzilBudget (q : Nat)
  | packetStart (q : Nat)
  | monitorWake (q : Nat)
  | deferredSignalWrite (q : Nat)
  | queueCreate (q : Nat) (mgmt : Bool)
  | queueDestroy (q : Nat)
  | taskSubmit (cluster : Nat)
  | gatherTimerLapse (cluster : Nat) (entry : BitVec 64) (ctx : Nat)
  | placeCrew (cluster : Nat)
  | placeTeam (ctx : Nat)
  | issueSelect (core : Nat) (port : Nat)
  | crewPromote (crew : Nat)
  | registerFill (k : Nat)
  | timewExpire (fibre : Nat)
  | fibreReclaim (fibre : Nat)
  | asyncFaultDelivery (fibre : Nat)
  | sequencerFaultDelivery (core : Nat) (n : Nat)
  | copyLinear (cluster : Nat) (ch : Nat)
  | copy2d (cluster : Nat) (ch : Nat)
  | copyGather (cluster : Nat) (ch : Nat)
  | copyScatter (cluster : Nat) (ch : Nat)
  | copyFill (cluster : Nat) (ch : Nat)
  | tileStream (cluster : Nat) (st : Nat)
  | streamTileDeliver (cluster : Nat) (st : Nat)
  | commandComplete (cluster : Nat) (queue : Nat) (index : Nat) (answer : Stamped (BitVec 8))
  | continuationTransfer (answer : Option (Nat × BitVec 8))
  | sendArrival (src : Nat) (ctx : Nat) (key : BitVec 16) (data : List Byte) (ts : Stamped (BitVec 2))
  | remoteRedArrival (src : Nat) (ctx : Nat) (op : BitVec 4) (addr : BitVec 64) (value : BitVec 64) (ts : Stamped (BitVec 2))
  | remoteCallArrival (src : Nat) (ctx : Nat) (cluster : Nat) (launch : Nat) (entry : BitVec 64) (args : List Word) (ts : Stamped (BitVec 2))
  | transferCommitArrival (id : Nat)
  | transferFilingAck (id : Nat)
  | transferCommitTimeout (id : Nat)
  | peerAccessRequest (src : Nat) (id : Nat) (ctx : Nat) (va : BitVec 64) (acc : PeerAcc) (ts : Nat) (hops : Nat)
  | peerAccessReply (id : Nat) (reply : PeerReply) (ts : Nat)
  | ownershipHandover (ctx : Nat) (va : BitVec 64) (peer : Nat)
  | handoverData (src : Nat) (ctx : Nat) (va : BitVec 64) (data : Stamped (List Byte)) (poison : List (Nat × Nat))
  | handoverReceipt (ctx : Nat) (va : BitVec 64) (peer : Nat)
  | handoverCommit (ctx : Nat) (va : BitVec 64)
  | handoverReceiptTimeout (ctx : Nat) (va : BitVec 64)
  | handoverCommitTimeout (ctx : Nat) (va : BitVec 64)
  | destinationUnreachable (dev : Nat)
  | linkPortDown (port : Nat)
  | ptpMessage (offset : Int)
  | turnSwitch (part : Nat)
  | turnScheduleWrite (part : Nat) (epoch : BitVec 64) (turns : List Turn)
  | partitionLayoutWrite (word : BitVec 64)
  | bankerRequest (cluster : Nat)
  | homeMerge (line : Nat)
  | hardwareError (err : HwError)
  | hostCxlMemAccess (pa : Nat) (acc : HostAcc)
  | hostCxlIoWrite (pa : Nat) (data : HostWrite)
  | pageMove (ctx : Nat) (va : BitVec 64)
  | logRingConfigure (kslot : Nat) (loggr : BitVec 24) (logn : BitVec 24)
  | registerWrite (bar : Nat) (off : Nat) (data : List Byte)
  | attestationReportRequest (nonce : BitVec 256)
  | hostPublicKey (key : List Byte)
  | wrappedKeyImport (kslot : Nat) (wrapped : List Byte)
  | firmwareBoot (image : Firmware)
  | firmwareRecoveryImage (image : Firmware)
  | checkpointRestore (granules : List SavedGranule)
  | xloadComplete (core : Nat) (n : Nat)
  | xdrainComplete (core : Nat) (n : Nat)
  | xmmaComplete (core : Nat) (n : Nat)
  | hostSnoop (pa : Nat)
  | routeReturn (dev : Nat)
  | xdrainaComplete (core : Nat) (n : Nat)
  | bankRoleChangeComplete (core : Nat) (bank : Nat)
  | zeroLengthReadComplete (fibre : Nat)
  -- Those without fields
  | xstop
  | xnop
  | dyzilDone
  | linkSend
  | linkReceivePost
  | linkRemoteRed
  | linkRemoteCall
  | ptpUnlock
  | ptpRelock
  | thermalTrip
  | migrationCounterClear
  | hostLinkDown
  | hostLinkUp
  | dirtyHoldExpire
  | contextCreate
  | contextDestroy
  | debugHalt
  | debugRelease
  | debugRead
  | debugWrite
  | debugReadWhenFull
  | debugWriteWhenFull
  | debugTimeout
  | moduleReset
  | checkpoint
  deriving DecidableEq, Repr

end Sys2Proof
end

