-- ==== Sys2Proof/Machine/State.lean ====
section
/-! DEFINITION. The state of the SRK-940 as plain data: everything spec/ gives the device (INVENTORY.md lists each piece with its
rule), the reasons a step stops, and the state after module reset. Sparse storage is a `Tab`, a list of number and value pairs. -/

namespace Sys2Proof.Machine

/-- Sparse data by number. -/
abbrev Tab (α : Type) := List (Nat × α)

/-- Where an address lies once translated (R109 to R115): device memory, host memory, or core SRAM at core · 2 MiB + offset. -/
inductive Space where
  | dev | host | sram
  deriving DecidableEq, Repr

/-- A translated address (R113, R114). -/
structure PA where
  sp : Space
  a : Nat
  deriving DecidableEq, Repr

/-! ### Frames, continuations, futures (f03, f04) -/

/-- A link node (R92): its address and ITEM; NEXT is the next node of the list that holds it. -/
structure Node where
  addr : Nat
  item : DWord
  deriving DecidableEq, Repr

/-- A segment (R62, R65): address, CLASS, OWNER, AGE; NEXT and PREV are its neighbours in the list that holds it. -/
structure Seg where
  addr : Nat
  cls : Nat
  owner : Word
  age : Word
  deriving DecidableEq, Repr

/-- A frame (R67, R69). Registers and local bytes never written since the frame was made read from the undefined contents `seed` (R68).
`entry` marks the entry frame of a future's fibre (R98), `bottom` the bottom captured frame of a RESUME, whose return clears the
delimiter's mark (R75, R82). `owed` lists the empty registers for which no fill is pending, a RESUME's vD (R82 step 7, log 29). -/
structure Frame where
  addr : Nat
  seed : Nat
  retpc : DWord
  f : Nat
  l : Nat
  handler : Bool
  pinned : Bool
  delim : Bool
  bottom : Bool
  entry : Bool
  htag : BitVec 16
  hmask : BitVec 16
  hslot : BitVec 3
  hline : DWord
  hbase : BitVec 11
  owned : List Node
  regs : Tab Word
  empties : List Nat
  owed : List Nat
  locals : Tab Byte
  deriving DecidableEq, Repr

/-- An effect record (R79). -/
structure EffRec where
  tag : BitVec 16
  fault : Bool
  psaved : Bool
  arg : Word
  pc : DWord
  issue : Word
  performed : Word
  frag : Word
  fid : Word
  address : DWord
  stamp : Nat
  core : Nat
  device : Nat
  detail : Word
  deriving DecidableEq, Repr

/-- A continuation block (R80): the words software can read, and the captured chain. `state`: 0 LIVE, 1 CONSUMED, 2 DAMAGED.
`check` is the
word the capture wrote; `patch` holds bytes that an agent outside the device has stored over the block since; `marked` is R104's mark for reclamation. -/
structure Block where
  state : Nat
  gen : BitVec 7
  nsegs : Nat
  ctxid : Nat
  homecore : Nat
  homedev : Nat
  top : Nat
  bottom : Nat
  resumepc : DWord
  eff : EffRec
  prons : Tab Word
  segs : List Seg
  frames : List Frame
  launch : Nat
  check : DWord
  patch : Tab Byte
  marked : Bool
  deriving DecidableEq, Repr

/-- A future cell (R90). `state`: 0 PENDING, 1 READY, 2 RECLAIMED, 3 FAILED. `live` is false on the free list. -/
structure Cell where
  state : Nat
  gen : BitVec 7
  ctxid : Nat
  reach : Nat
  fid : Word
  ownercore : Nat
  failtag : BitVec 16
  parent : DWord
  waiters : List Node
  cont : DWord
  parkedon : DWord
  result : List Word
  stamp : Nat
  live : Bool
  deriving DecidableEq, Repr

/-- The frame heap and future-cell allocators of a context (R61 to R63, R88, R92). `freed` gives by address
the size of each segment or node that was freed and the number of the contents it was left with, `spoilt` the addresses of bytes that an agent outside
the device has stored over since the device last wrote them (R64). -/
structure Heap where
  carve : Nat
  free0 : List Nat
  free1 : List Nat
  free2 : List Nat
  freeBlocks : List Nat
  freeNodes : List Nat
  nodeCur : Nat
  nodeEnd : Nat
  blkCur : Nat
  blkEnd : Nat
  blockPieces : List Nat
  blocks : Tab Block
  freed : Tab (Nat × Nat)
  spoilt : List Nat
  cellCarve : Tab Nat
  cellFree : Tab (List Nat)
  cells : Tab Cell
  deriving DecidableEq, Repr

/-! ### Fibres, crews, teams, tasks (f02, f11, f12) -/

/-- The instruction that a condition comes from, for the effect that a lane performs when it is not met (R79, R130, R299): its program counter, its
bits [31:0], its issue mask, and the FRAG of the lanes that have performed already. Of one crew, lanes that still wait with the same program counter
and mask come from the same issue, for a later issue's mask has none of them. -/
structure Origin where
  pc : DWord
  word : Word
  issue : Word
  frag : Option Word
  deriving DecidableEq, Repr

/-- A condition on a lane's trailer (R57, R126, R130, R292, R296). `fault`: a forwarded fault is due at this trailer and the fibre's
fills have not all arrived (R76, R463). -/
inductive Cond where
  | fault
  | waitm (m : Nat)
  | ring (r slot : Nat) (phase : Bool)
  | wptr (ch : Nat) (v : DWord) (o : Origin)
  | time (t : Nat)
  | bar (n : Nat) (tok : Word) (o : Origin)
  deriving DecidableEq, Repr

/-- A fault of one lane, as R422 describes it: tag, CAUSE, ARGX, ADDRESS. -/
structure FaultInfo where
  tag : BitVec 16
  cause : Nat
  argx : Nat
  address : DWord
  deriving DecidableEq, Repr

/-- A fault waiting for its fibre's next trailer (R269, R339, R463): its record, and the channel or stream queue it halted. -/
structure Pending where
  rec_ : EffRec
  halts : Option (Nat × Nat)
  deriving DecidableEq, Repr

/-- A reference instruction (R100) that waits behind an access of its fibre that is not yet placed (R94): its operation, its handle, the
node it has taken, its word and its program counter. -/
structure RefOp where
  op : Nat
  h : DWord
  node : Option Nat
  word : Word
  pc : DWord
  deriving DecidableEq, Repr

/-- A fibre (R28, R66) that holds a lane. `chain` and `segs` list frames and segments from the top down to the root. `found` is an
EMPTY fault found at issue that waits for the fibres' fills (R76). `awaits` are its STOP awaits, shared by the group `awaitGrp` (R52). -/
structure Fibre where
  key : Nat
  fid : Word
  helper : Bool
  ctx : Nat
  launch : Nat
  crew : Nat
  lane : Nat
  core : Nat
  chain : List Frame
  segs : List Seg
  stamp : Nat
  fstat : Word
  qbits : BitVec 8
  pc : DWord
  savedpc : DWord
  prons : Tab Word
  conds : List Cond
  awaits : List Nat
  awaitGrp : Nat
  since : Nat
  halted : Bool
  reclaim : Bool
  found : Option FaultInfo
  late : Option FaultInfo
  latePc : DWord
  lateArg : Word
  asyncs : List Pending
  task : Nat
  loc2 : Nat
  refs : List RefOp
  deriving DecidableEq, Repr

/-- A value on its way to registers (R50, R71). `vals` is empty while a FIFOR's reservation is unfed (R124). `loc2` marks what a LOC 2
access returns (R149). -/
structure Fill where
  fibre : Nat
  frame : Nat
  reg : Nat
  n : Nat
  vals : List Word
  producer : Nat
  loc2 : Bool
  deriving DecidableEq, Repr

/-- A sentence cut at a turn switch (R434): the lanes of its group, the held instruction, and the lanes that had completed it. -/
structure Cut where
  fibres : List Nat
  pc : DWord
  count : Nat
  done : List Nat
  deriving DecidableEq, Repr

/-- A crew (R28, R56, R44): 32 lanes of fibre keys, twelve masks. `role`: 0 computer, 1 loader, 2 storer, 3 task crew. -/
structure Crew where
  ctx : Nat
  launch : Nat
  core : Nat
  slot : Nat
  lanes : List (Option Nat)
  masks : List Word
  team : Option Nat
  number : Nat
  role : Nat
  placed : Nat
  readySince : Nat
  promoted : Bool
  aside : Bool
  cut : Option Cut
  deriving DecidableEq, Repr

/-- A team barrier (R293). `joins` holds the largest arrival stamp of each completed phase by its number, `cur` that of the current
one (R145). -/
structure Barrier where
  expect : Nat
  count : Nat
  phase : Word
  broken : Bool
  init : Bool
  crews : BitVec 16
  flags : List Nat
  joins : Tab Nat
  cur : Nat
  deriving DecidableEq, Repr

/-- Work a sequencer has begun (R314). -/
inductive SeqJob where
  | xload (slot : Nat)
  | xmma (tile sa sb : Nat)
  | xdrain (tile : Nat)
  | xdraina (slot tile : Nat)
  deriving DecidableEq, Repr

/-- A team's matrix sequencer (R313): SPC, l0 to l3, g0 to g7, SSTAMP, TOKENS, SUBS, HALT; claims stand in the slots and tiles. `code`
holds the lines fetched from their owners, as in `PortRun`; `entry`: its stream's entry has not been judged yet (R190, R312). `reqs` are the
requests out to owners for the instruction at SPC, `probed`: its checks there have passed (R323), `mem` how many of its accesses are
made, with the bytes it has read or has still to write. `line` is the line that its last instruction came from. -/
structure Seqr where
  spc : DWord
  l : List Word
  g : List DWord
  sstamp : Nat
  tokens : List Word
  halt : Bool
  claimSince : Option (Nat × BitVec 16 × BitVec 8)
  xbaraPhase : Tab Word
  jobs : List SeqJob
  reqs : List (Nat × Option (PeerReply × Nat))
  fault : Option EffRec
  code : List (Nat × Nat × Option PeerReply)
  entry : Bool
  probed : Bool
  mem : Option (Nat × List Byte)
  line : Nat
  deriving DecidableEq, Repr

/-- A stage ring of a team (R125, R350): offset and slot size in bytes, slot count. -/
structure Ring where
  off : Nat
  size : Nat
  count : Nat
  deriving DecidableEq, Repr

/-- A resident team (R34 to R36). `band` is its band's number, `index` its number in the band, `seqNo` its sequencer's number. -/
structure Team where
  ctx : Nat
  launch : Nat
  core : Nat
  band : Nat
  index : Nat
  ofBand : Bool
  crews : List Nat
  seqNo : Nat
  seqr : Seqr
  barriers : Tab Barrier
  rings : List Ring
  phases : List (Nat × Nat)
  phaseStamp : Nat
  deriving DecidableEq, Repr

/-- What a task carries (R37): a new task's segments, shape and record, or a continuation with its resume value and fibre id. -/
inductive TaskBody where
  | fresh (root entry : Seg) (f l : Nat) (args : List Word)
  | resume (handle : DWord) (b : Word) (root : Seg)
  deriving DecidableEq, Repr

/-- A task (R37, R38). -/
structure Task where
  id : Nat
  pc : DWord
  ctx : Nat
  launch : Nat
  fid : Word
  stamp : Nat
  timer : Nat
  body : TaskBody
  deriving DecidableEq, Repr

/-- A task whose segments could not be taken (R62, R98): it waits with its shape and record, or its continuation. -/
structure WaitTask where
  id : Nat
  pc : DWord
  ctx : Nat
  launch : Nat
  fid : Word
  stamp : Nat
  timer : Nat
  f : Nat
  l : Nat
  args : List Word
  handle : Option (DWord × Word)
  deriving DecidableEq, Repr

/-- A gather bin (R38, R39). -/
structure Bin where
  pc : DWord
  ctx : Nat
  start : Nat
  timer : Nat
  tasks : List Task
  deriving DecidableEq, Repr

/-- A formed crew in a dealer's placement list (R40), with the moment it began to wait (R499). -/
structure Formed where
  ctx : Nat
  launch : Nat
  tasks : List Task
  since : Nat
  deriving DecidableEq, Repr

/-- A band or plain team in its context's placement order (R351). -/
structure TeamUnit where
  launch : Nat
  band : Nat
  since : Nat
  deriving DecidableEq, Repr

/-- A live launch (R28, R107, R350): its descriptor's fields, its constant bank, its custom operations' check (R467). -/
structure Launch where
  num : Nat
  ctx : Nat
  node : Bool
  cancel : Bool
  queue : Nat
  desc : List Word
  cbank : List Word
  args : List Word
  stamp : Nat
  nextCluster : Nat
  xopState : Tab Bool
  deriving DecidableEq, Repr

/-! ### Memory, engines, cores, clusters (f05, f06, f11, f12) -/

/-- A first-level copy of a line with the pair it was granted (R139), and the bank whose way holds it (R118). -/
structure Copy where
  core : Nat
  bank : Nat
  wts : Nat
  rts : Nat
  data : List Byte
  deriving DecidableEq, Repr

/-- One core's partial of a U line (R160), in its first-level cache (in a way's bank) or in the merge logic's slot. `mask` has a bit for
each element that has been updated (R161). -/
structure Partial where
  core : Nat
  inSlot : Bool
  bank : Nat
  mask : BitVec 32
  elems : List DWord
  deriving DecidableEq, Repr

/-- The coherence state of a line at its home (R139, R159, R456, R500): stamps, copies, exclusive holder, update state,
the copy that the host's caches hold, exclusive or not (R362), `hidden` error not yet read (its KIND in the error log, 0 none), poison with its sector mask, lost partials (KIND, R458) with the
core of the unit that failed (0x1FF none), data newer than host memory (R469). `slotAge` is the access at which the line first took a
slot of the merge logic (R160). -/
structure Line where
  wts : Nat
  rts : Nat
  copies : List Copy
  excl : Option Nat
  hostCopy : Option Bool
  upd : Option (BitVec 4 × List Partial)
  slotAge : Nat
  lostPart : Nat
  hidden : Nat
  errCore : Nat
  poison : Bool
  sectors : BitVec 8
  dirtyHost : Option (List Byte)
  deriving DecidableEq, Repr

/-- A line of a register-cache slice (R70): registers v8j to v8j+7 of the frame at an address of a fibre, newer than their homes when
`dirty`, chosen first for eviction when `evictable` (R72). The values stand in the frame: the line is a cache of those homes. -/
structure RegLine where
  fibre : Nat
  frame : Nat
  j : Nat
  dirty : Bool
  evictable : Bool
  deriving DecidableEq, Repr

/-- A line of a segment in a first-level cache (R65): its context, its virtual line address, and the bank whose way holds it. -/
structure SegLine where
  ctx : Nat
  addr : Nat
  bank : Nat
  deriving DecidableEq, Repr

/-- A view page's geometry (R132, R133). -/
structure View where
  fmt : Nat
  geo : Bool
  g : Nat
  deriving DecidableEq, Repr
/-- Where an access goes. A view's address stays virtual until its place is computed. -/
inductive Place where
  | mem (p : PA) (loc : Nat)
  | view (v : View) (base size off : Nat) (loc : Nat)
  | const (off : Nat)
  /-- A place of the frame heap or future-cell region, read as R64 and R91 state; `p` is the memory under it. -/
  | region (va : Nat) (p : PA)
  /-- A LOC 3 page; once its owner has answered that it is a view page, the view and the offset in it. -/
  | peer (owner : Nat) (v : Option (View × Nat))
  deriving DecidableEq, Repr

/-- One place an access touches: where, its virtual address, its length. -/
structure Spot where
  place : Place
  va : Nat
  n : Nat
  deriving DecidableEq, Repr

/-- One lane's checked access: the registers it takes, its places, and what is asked of each place's owner; the frame and the registers that its
result goes to (R71), its issue (the model's own number, log 85), and the generator's state as it stood there (R179). -/
structure MemLane where
  key : Nat
  lane : Nat
  words : List Word
  va : DWord
  spots : List Spot
  acc : PeerAcc
  frame : Nat
  reg : Nat
  cnt : Nat
  grp : Nat
  gen : Nat
  deriving DecidableEq, Repr

/-- A far atomic on its way to the banker (R155, R466): its lane, its issue and its instruction (R276, R366). -/
structure FarReq where
  fibre : Nat
  lane : Nat
  grp : Nat
  task : Nat
  instr : Instr
  frame : Nat
  reg : Nat
  n : Nat
  pa : PA
  va : Nat
  rmw : Rmw
  ctx : Nat
  launch : Nat
  core : Nat
  stamp : Nat
  deriving DecidableEq, Repr

/-- How far the claim of a line has come (R151): placed in the order; waiting at its home behind an earlier claim; asked of the line's
owner in a request, on a LOC 3 page (R371). -/
inductive Claim where
  | placed
  | queued
  | asked (id : Nat)
  deriving DecidableEq, Repr

/-- What an engine command's output has in one line, written as one access (R461) and translated when it was claimed (R151, R459): its place
(LOC 4 for core SRAM; for LOC 3 the owner stands in the address), its virtual address and its length in the output; the stretches of the line that
the bytes go to, in the order of the output, as virtual address and length; its claim, and whether the line's claim ends with it (R131). -/
structure Tgt where
  pa : PA
  loc : Nat
  va : Nat
  n : Nat
  parts : List (Nat × Nat)
  claim : Claim
  last : Bool
  deriving DecidableEq, Repr

/-- An accepted engine command (R301 to R306) with its issuer. `record` is a remote call's argument record
(R374). `due`: its claims have still to be taken (R151); `done` counts output bytes or tiles; `moved` is true once all output is written; `bad` is a fault found at a
claim or at the record's read (R461); `tgts` are the claimed pieces still to be written; `buf`, `part` and `idx` hold what has been read and not yet
written; `req` is a request to the owner of a LOC 3 page (R371); `dests` are the subscribers of a tile being delivered (R331);
`fail` is the reason of a link command that has failed (R472); `arrived`: its bound arrival has been made (R298). -/
structure Cmd where
  words : List Word
  fibre : Nat
  fid : Word
  ctx : Nat
  launch : Nat
  core : Nat
  team : Option Nat
  pc : DWord
  arg : Word
  issue : Word
  lane : Nat
  stamp : Nat
  record : List Word
  began : Bool
  due : Bool
  done : Nat
  moved : Bool
  bad : Option FaultInfo
  tgts : List Tgt
  buf : List Byte
  part : List Byte
  idx : Option Nat
  req : Option (Nat × Option (PeerReply × Nat))
  dests : List Nat
  fail : Option Nat
  arrived : Bool
  deriving DecidableEq, Repr

/-- A copy channel (R128, R129): commands, write pointer, the continuation whose end reopens it (R464), none while its fault is
undelivered; `begun` counts the commands begun. -/
structure Chan where
  cmds : List Cmd
  bytes : Nat
  seq : Nat
  stamp : Nat
  ptrStamp : Nat
  halted : Bool
  haltBlk : Option DWord
  dropped : Nat
  begun : Nat
  deriving DecidableEq, Repr

/-- A subscription of a sequencer (R330), with counts of tiles delivered and retired; `id` tells it from a later one of its team. -/
structure Sub where
  id : Nat
  team : Nat
  fmt : BitVec 4
  base : Nat
  count : Nat
  window : Nat
  delivered : Nat
  retired : Nat
  current : Bool
  deriving DecidableEq, Repr

/-- An operand slot (R318 to R320). -/
structure OpSlot where
  owner : Option Nat
  fmt : Option (BitVec 4)
  seed : Nat
  data : Tab Byte
  filling : Bool
  deriving DecidableEq, Repr

/-- An accumulator tile (R318, R321): words by 64 r + n. -/
structure Tile where
  owner : Option Nat
  seed : Nat
  data : Tab Word
  deriving DecidableEq, Repr

/-- A reservation of a FIFOR (R124): the stream bytes it takes and the registers it fills. -/
structure Resv where
  start : Nat
  len : Nat
  fibre : Nat
  frame : Nat
  reg : Nat
  stamp : Nat
  deriving DecidableEq, Repr

/-- A FIFO bank's ring (R122): `stamp` is the stamp of its last FIFOW, `read` that of the FIFORs that have been fed (R137). -/
structure Fifo where
  head : Nat
  tail : Nat
  stamp : Nat
  read : Nat
  resv : List Resv
  deriving DecidableEq, Repr

/-- What a core keeps for one context (R17, R118, R121, R180, R307, R318): saved and restored whole at a turn switch (R360).
`seeds` numbers the undefined contents of a bank that entered the scratchpad role (R119). -/
structure CoreCtx where
  roles : Tab Nat
  seeds : Tab Nat
  fifos : Tab Fifo
  changing : Option (Nat × Nat)
  gens : List Word
  counts : List Nat
  slots : Tab OpSlot
  tiles : Tab Tile
  deriving DecidableEq, Repr

/-- What a cluster keeps for one context (R128, R131, R330). -/
structure ClusterCtx where
  chans : Tab Chan
  streams : Tab (List Cmd × List Sub)
  halted : List (Nat × Option DWord)
  deriving DecidableEq, Repr

/-- A port's request to the owner of a LOC 3 page (R371, R372): its number, the fibre and the virtual address, and the answer with the
stamp at which the owner placed the access. -/
structure PeerReq where
  id : Nat
  fibre : Nat
  va : Nat
  answer : Option (PeerReply × Nat)
  deriving DecidableEq, Repr

/-- Why a port waits for an answer from outside its core (R119, R149, R371). -/
inductive PortWait where
  | none
  /-- The instruction at the port cannot proceed yet (R51). -/
  | held
  /-- It waits for an empty register to be filled (R51). -/
  | empty
  /-- FENCE.SYS: the lanes whose zero-length read has not returned (R149). -/
  | fence (left : List Nat)
  | role (bank : Nat)
  /-- Accesses to LOC 3 pages: whether the owners' checks are asked for first, and the requests. -/
  | peer (probing : Bool) (reqs : List PeerReq)
  /-- A lane of the instruction of an issue finds no entry of the far-request buffer (R466). -/
  | room (grp : Nat)
  deriving DecidableEq, Repr

/-- The accesses of one issue that are still to be made after its checks have passed (R275, R276): the port does not wait for them. `acts` are all the
lanes' accesses; `todo` those not made, in lane order, and `left` those for which the port waits for room (R466); `nth`, `part` and `reqs` say how far
the first has come with the owners of LOC 3 pages (R371); `fs` are the lanes' fibres as they issued it, and the instruction's word and program
counter are those that a late fault names. -/
structure MemJob where
  grp : Nat
  instr : Instr
  word : Word
  fs : List Fibre
  acts : List MemLane
  todo : List MemLane
  left : List MemLane
  nth : Nat
  part : List Byte
  reqs : List PeerReq
  deriving DecidableEq, Repr

/-- What an agent without a port has asked the owner of a LOC 3 page for (R371): a queue's engine, the dealer of cluster c (as 256 + c), the link
engine (264) or the banker of cluster c (as 272 + c); a line of instructions (`len` 0), or `len` bytes of a structure that the front end reads
(R341). `ts` is the stamp at which the owner placed the read. -/
structure CodeAsk where
  agent : Nat
  ctx : Nat
  line : Nat
  len : Nat
  id : Nat
  reply : Option PeerReply
  ts : Nat
  deriving DecidableEq, Repr

/-- A busy issue port (R43): the issue group's fibres in lane order, instructions issued, lanes that have completed a held instruction,
and the lines that the sentence has fetched from the owners of LOC 3 pages (R371): line address, request number, the owner's answer.
`know` holds what owners answered to the checks of the instruction's accesses (fibre, address, answer, R372); `nth` and `part` how many
places of the access in progress have been done and the bytes they gave (R276); `queued` the banks for which the instruction waits (32 + bank
for a FIFOW's room) and the step at which it reached them (R120, R123); `line` the line of instructions that the last one came from. -/
structure PortRun where
  crew : Nat
  fibres : List Nat
  count : Nat
  done : List Nat
  wait : PortWait
  word : Word
  code : List (Nat × Nat × Option PeerReply)
  know : List (Nat × Nat × PeerReply)
  nth : Nat
  part : List Byte
  queued : Option (List Nat × Nat)
  line : Nat
  deriving DecidableEq, Repr

/-- The blocks of a cluster (R18, R38, R40, R155, R466). -/
structure Cluster where
  bins : List Bin
  placement : List Formed
  waiting : List WaitTask
  banker : List FarReq
  farBuf : List FarReq
  deriving DecidableEq, Repr

/-! ### Front end (f13, f23) -/

/-- A deferred signal (R353) and the launches and tasks it waits for. -/
structure Deferred where
  addr : Nat
  value : DWord
  launches : List Nat
  tasks : List Nat
  deriving DecidableEq, Repr

/-- What the second monitor entry of a queue serves (R344, R490), and what an engine waits for: `access`, an access of its instruction that
cannot be made yet (a claimed line, R151; a line asked of the owner of a LOC 3 page, R371); `resume`, a free engine, the wait being satisfied (R345). -/
inductive QWait where
  | none
  | access
  | resume
  | stale
  | word (addr : Nat)
  | signals
  | launchNumber
  deriving DecidableEq, Repr

/-- A created queue context (R340, R345, R348): copies of what creation read, registers, scratch, indices, deferred signals. `errorInfo` holds ETAG
and ECAUSE while the status line of an error is still to be written (R349). -/
structure Queue where
  ctx : Nat
  mgmt : Bool
  ring : Nat
  log2n : Nat
  widx : Nat
  status : Nat
  prog : List Word
  winBase : Nat
  winSize : Nat
  grants : List (Option (List Word))
  params : List DWord
  d : List DWord
  scratch : List DWord
  ridx : Nat
  stamp : Nat
  pkt : Option (List DWord)
  pc : Nat
  steps : Nat
  loop : Option (Nat × Nat × Nat)
  wait : QWait
  woken : Bool
  watch : List Nat
  deferred : List Deferred
  launches : List Nat
  tasks : List Nat
  stopping : Bool
  errorInfo : Option (Nat × Nat)
  deriving DecidableEq, Repr

/-- The registers of queue context q in BAR 2 (R340, R489): descriptor words, control word fields, creation report. -/
structure QRegs where
  desc : Tab Byte
  create : Bool
  destroy : Bool
  state : Nat
  ecode : Nat
  epc : Nat
  report : DWord
  deriving DecidableEq, Repr

/-! ### Contexts and tenancy (f14, f18, f19) -/

/-- A migration range (R363) with its pages' counters for the host and for peers (R365, R373), the pages that a hand-over left with no
serving owner, each with where its leaf stands (R473), and the peer whose access reached the threshold. -/
structure MigRange where
  vbase : Nat
  pages : Nat
  thresh : Nat
  dback : Nat
  hback : Nat
  counters : Tab Nat
  peers : Tab Nat
  pending : Tab PA
  reached : Tab Nat
  due : List Nat
  deriving DecidableEq, Repr

/-- A context descriptor's fields (R406). -/
structure CtxDesc where
  ctxid : Nat
  kslot : Nat
  pfirst : Nat
  psize : Nat
  hostmem : Bool
  tloc : Nat
  srseed : Word
  troot : Nat
  fhbase : Nat
  fhsize : Nat
  fcbase : Nat
  fcsize : Nat
  hdmbase : Nat
  hdmsize : Nat
  savegr : Nat
  deriving DecidableEq, Repr

/-- A live context (R406): its team units in placement order (R351), the cores it has been placed on, whether it is lost (R436);
`areaWritten`: its save area has been written since its state was last saved there (R407). -/
structure Ctx where
  d : CtxDesc
  heap : Heap
  migr : List MigRange
  nextLaunch : Nat
  order : List TeamUnit
  placedCores : List Nat
  lost : Bool
  areaWritten : Bool
  deriving DecidableEq, Repr

/-- A range monitor (R419). -/
structure Monitor where
  mbase : Nat
  mlast : Nat
  kinds : BitVec 6
  deriving DecidableEq, Repr

/-- The log ring of a key slot (R417, R419). -/
structure LogRing where
  gr : Nat
  n : Nat
  widx : Nat
  ridx : Nat
  drops : Nat
  since : Nat
  chain : BitVec 256
  deriving DecidableEq, Repr

/-- A fault summary (R428). -/
structure Summary where
  ucount : Nat
  dcount : Nat
  reflost : Nat
  lost : Bool
  lcause : Nat
  stopped : Bool
  sclass : Nat
  first : Option EffRec
  last : Option EffRec
  deriving DecidableEq, Repr

/-- One key slot (R406, R413, R414, R419, R428): its keys K1, K2 and KM once imported, its context, monitors, log ring and fault summary. -/
structure KeySlot where
  imported : Bool
  k1 : BitVec 256
  k2 : BitVec 256
  km : BitVec 256
  ctx : Option Nat
  monitors : Tab Monitor
  log : LogRing
  summary : Summary
  deriving DecidableEq, Repr

/-- A partition (R358): its schedule, a schedule written and not yet in effect with the moment it takes effect, its current context,
a switch begun. -/
structure Part where
  epoch : Nat
  turns : List Turn
  pend : Option (Nat × Nat × List Turn)
  cur : Option Nat
  switching : Bool
  deriving DecidableEq, Repr

/-- The debug command block (R411), and the cycle at which the running command began. -/
structure Debug where
  ctx : BitVec 16
  op : BitVec 3
  go : Bool
  status : Nat
  fid : Word
  frame : DWord
  reg : BitVec 11
  full : Bool
  value : Word
  since : Nat
  deriving DecidableEq, Repr

/-! ### Links (f14, f21) -/

/-- A message to another device (R369 to R376, R471 to R474); `ack` and `answer` tell a link command's source what came of it (R472). -/
inductive MsgBody where
  | send (key : BitVec 16) (data : List Byte)
  | rred (src : Nat) (op : BitVec 4) (addr value : BitVec 64)
  | rcall (cluster launch : Nat) (entry : BitVec 64) (args : List Word)
  | xfer (id cluster launch : Nat) (b : Word) (blk : Block)
  | xferCommit (id : Nat)
  | xferFiled (id : Nat)
  | access (src id : Nat) (va : BitVec 64) (acc : PeerAcc) (hops : Nat)
  | reply (id : Nat) (r : PeerReply)
  | handData (va : BitVec 64) (data : List Byte) (poison : List (Nat × Nat))
  | handReceipt (va : BitVec 64)
  | handCommit (va : BitVec 64)
  | handAsk (va : BitVec 64)
  | ckptTable (grans : List (Nat × Nat × Nat))
  | ckpt (g : SavedGranule)
  | ack (reason : Nat)
  | answer (id reason : Nat)
  deriving DecidableEq, Repr

/-- A message with its destination, class, context and stamp. -/
structure Msg where
  dst : Nat
  tc : Nat
  ctx : Nat
  stamp : Nat
  body : MsgBody
  deriving DecidableEq, Repr

/-- A receive-post (R306). -/
structure Post where
  cmd : Cmd
  ctx : Nat
  dev : Nat
  key : BitVec 16
  len : Nat
  addr : Nat
  deriving DecidableEq, Repr

/-- A continuation transfer in progress at its source (R376, R474). -/
structure Xfer where
  id : Nat
  cmd : Cmd
  handle : DWord
  committed : Bool
  deriving DecidableEq, Repr

/-- A continuation transfer's copies at the destination (R376, R474), and the cycle at which they came. -/
structure XferIn where
  id : Nat
  src : Nat
  ctx : Nat
  cluster : Nat
  launch : Nat
  b : Word
  handle : DWord
  tc : Nat
  since : Nat
  deriving DecidableEq, Repr

/-- An ownership hand-over at the old owner, or (`pending`) at the new one (R373, R473), and the cycle from which it waits. -/
structure Hand where
  ctx : Nat
  va : Nat
  peer : Nat
  pending : Bool
  since : Nat
  deriving DecidableEq, Repr

/-- An attestation report (R414). -/
structure Report where
  nonce : BitVec 256
  serial : BitVec 64
  measurement : BitVec 256
  secVer : Nat
  pubKey : List Byte
  signature : List Byte
  deriving DecidableEq, Repr

/-- Registers of the security block and the management controller (R406 to R421, R435, R454, R496). `destroy` is set while
a destroy runs, the host's or a lost context's; `losses` are contexts lost meanwhile, with the class of the loss, destroyed after it (R410, R436). -/
structure Mgmt where
  desc : Tab Byte
  create : Bool
  destroy : Bool
  fail : Bool
  ffield : Nat
  dctx : Nat
  rpieces : Nat
  rpiece : Nat
  layout : BitVec 64
  receipt : List Byte
  rseq : Nat
  tstart : Nat
  scrubFails : List Nat
  losses : List (Nat × Nat)
  grans : List (Nat × Nat × Nat)
  scrubbing : List (Nat × Nat)
  dbg : Debug
  trace : Tab (List Byte)
  traceN : Nat
  errs : Tab (List Byte)
  errN : Nat
  msix : List Nat
  replace : Bool
  gangsync : Bool
  recovery : Bool
  ckpt : Bool
  rcause : BitVec 4
  retcl : List Nat
  pendcl : List Nat
  retcores : List Nat
  unitErrs : Tab Nat
  bankErrs : List (Nat × Nat × Nat)
  retpch : List Nat
  retslices : List Nat
  pendslices : List Nat
  corr : Nat
  hbmCorr : List Nat
  nonce : Option (BitVec 256)
  kek : Option (BitVec 256)
  report : Option Report
  reports : Nat
  keyIndex : Nat
  booted : Bool
  secVer : Nat
  fuseVer : Nat
  measurement : BitVec 256
  lostDirty : Nat
  ckptGrans : List (Nat × Nat × Nat)
  ckptSlots : List (Nat × Nat)
  deriving DecidableEq, Repr

/-- The link engine and the gang (R22, R368 to R376, R471): `noRoute` holds the devices to which there is no route, with the cycle from which
there has been none, `unreach` those that are unreachable. -/
structure Link where
  queue : List Cmd
  sent : List (Cmd × Option DWord)
  posts : List Post
  out : List Msg
  xfers : List Xfer
  xfersIn : List XferIn
  hands : List Hand
  nextId : Nat
  failed : Nat
  unreach : List Nat
  noRoute : Tab Nat
  downPorts : List Nat
  stamp : Nat
  deriving DecidableEq, Repr

/-! ### The device -/

/-- Whose instruction is being executed (the model's own field, log 6). -/
inductive Actor where
  | none
  | port (core p : Nat)
  | seqr (core n : Nat)
  | dyzil (q : Nat)
  | inbox (n : Nat)
  deriving DecidableEq, Repr

/-- Which agent takes the next step (the model's own field, log 6): an agent of the device, an event of the table, one that waits in the
inbox, the next access of an issue (R276), or the
management controller's and the host's acts that no row names (a granule assignment, R406; a store of the host to its own
memory; the copies of a peer's continuation transfer, R376; the device's index in the gang, R368; the loss of the last route to a device, R471; the
features that a host offers when its link comes up, R361; the management controller's own context 0, R308). -/
inductive Act where
  | port (core p : Nat)
  | seqr (core n : Nat)
  | dyzil (q : Nat)
  | event (i : Instr)
  | inbox (n : Nat)
  | granules (first count ctx : Nat)
  | hostStore (pa : Nat) (data : List Byte)
  | job (i : Nat)
  | xferIn (src id ctx cluster launch : Nat) (b : Word) (blk : Block) (tc : Nat)
  | deviceIndex (n : Nat)
  | routeLost (dev : Nat)
  | hostCaps (cache : Bool) (atomics : List Nat)
  | mgmtCtx (v : Nat)
  deriving DecidableEq, Repr

/-- The state of the device. -/
structure State where
  /-- The outside inputs and agents' turns not yet taken, the acting agent, steps taken, free-value counters (log 1, 6). -/
  agenda : List Act
  actor : Actor
  ticks : Nat
  seeds : Nat
  accesses : Nat
  nextKey : Nat
  frag : Nat
  /-- CYCLE since module reset (R224); PTP base in ns and offset estimate (R359, R435). -/
  cycle : Nat
  ptpBase : Int
  ptpOff : Int
  ptpLast : Nat
  ptpGood : Nat
  /-- DEVICE (R12). -/
  device : Nat
  /-- Memories as sparse bytes in canonical form (R14, R118): device, host, core SRAM by context. An SRAM byte that is not listed
  has not been written since its bank entered its role, and holds undefined contents (R119, log 2). -/
  dev : List Host.Cell
  host : List Host.Cell
  sram : List Host.Cell
  /-- Lines at their homes, by line key (R139); claimed lines (R151). -/
  lines : Tab Line
  claims : List (Nat × Nat)
  /-- The register-cache slices by core · 32 + lane (R70) and the segment lines of the first-level caches by core (R65). -/
  rcache : Tab (List RegLine)
  segLines : Tab (List SegLine)
  codeAsks : List CodeAsk
  ports : Tab PortRun
  fibres : Tab Fibre
  crews : Tab Crew
  teams : Tab Team
  fills : List Fill
  jobs : List MemJob
  coreCtx : Tab CoreCtx
  clusterCtx : Tab ClusterCtx
  clusters : Tab Cluster
  scrub : Tab (Bool × Nat)
  ctxs : Tab Ctx
  launches : List Launch
  queues : Tab Queue
  qregs : Tab QRegs
  lastQueue : Nat
  keys : Tab KeySlot
  parts : Tab Part
  mgmt : Mgmt
  link : Link
  hostUp : Bool
  hostCache : Bool
  /-- The widths in bytes for which the root complex reports AtomicOp completer support (R148). -/
  hostAtomics : List Nat
  hostStamp : Nat
  /-- Stores of the host to its own memory that wait for a claimed line (R151). -/
  hostStores : List (Nat × List Byte)
  /-- What the host's last read of device memory gave it, and whether with the poison indication (R362, R455). -/
  hostData : List Byte
  hostPoison : Bool
  /-- The cycle at which the host link went down (R470). -/
  hostDownAt : Nat
  /-- What has reached the device and waits there (for a claimed line, R150, R151; for a line of its owner's, R371), oldest first, numbered. -/
  inbox : List (Nat × Instr)
  /-- Contexts to be stopped once their crews are at trailers, with the class of the error (R492, R493); 5 a destroy (R416), 6 a
  checkpoint (R497), 7 and 8 a loss in a restore or a save (R436). -/
  stops : List (Nat × Nat)
  deriving DecidableEq, Repr

/-- Reasons a step stops with a fault. -/
inductive Fault where
  /-- Raised by an event that names a part the device does not have (a core of 384 or more, a cluster of 8 or more, a queue
  context of 256 or more, a key slot of 64 or more, R11, R340, R406). Safe: no such happening exists. -/
  | noSuchPart
  deriving DecidableEq, Repr

/-- Reasons an instruction has no meaning where it stands. -/
inductive Refusal where
  /-- An arm of `exec` that has no meaning yet. Safe. -/
  | notModelled (mnemonic : String)
  /-- Raised by an instruction of groups 0 to 6 that no issue port holds: only an issue group executes it (R43). Safe. -/
  | noIssueGroup
  /-- Raised by a group 7 instruction that no team sequencer issues (R204, R312). Safe. -/
  | noSequencer
  /-- Raised by a Dyzil operation that no engine runs (R345). Safe. -/
  | noEngine
  deriving DecidableEq, Repr

/-- The state of a heap with nothing carved (R62, R63, R88). -/
def Heap.empty : Heap :=
  { carve := 0, free0 := [], free1 := [], free2 := [], freeBlocks := [], freeNodes := [], nodeCur := 0, nodeEnd := 0, blkCur := 0, blkEnd := 0, blockPieces := [], blocks := [], freed := [], spoilt := [],
    cellCarve := [], cellFree := [], cells := [] }

/-- The debug block after reset (R411): every field 0. -/
def Debug.reset : Debug :=
  { ctx := 0, op := 0, go := false, status := 0, fid := 0, frame := 0, reg := 0, full := false, value := 0, since := 0 }

/-- The management and security registers after module reset (R406 to R421, R496). Values the spec gives no reset are log 12 and 13. -/
def Mgmt.reset : Mgmt :=
  { desc := [], create := false, destroy := false, fail := false, ffield := 0, dctx := 0, rpieces := 0, rpiece := 0,
    layout := 0xFFFFFFF3#64, receipt := [], rseq := 0, tstart := 0, scrubFails := [], losses := [], grans := [], scrubbing := [], dbg := Debug.reset,
    trace := [], traceN := 0, errs := [], errN := 0, msix := [], replace := false, gangsync := false, recovery := false,
    ckpt := false, rcause := 0, retcl := [], pendcl := [], retcores := [], unitErrs := [], bankErrs := [], retpch := [], retslices := [], pendslices := [],
    corr := 0, hbmCorr := [], nonce := none, kek := none, report := none, reports := 0, keyIndex := 0, booted := true, secVer := 0, fuseVer := 0,
    measurement := 0, lostDirty := 0, ckptGrans := [], ckptSlots := [] }

/-- The link engine after module reset: queues empty, ports up (log 14). -/
def Link.reset : Link :=
  { queue := [], sent := [], posts := [], out := [], xfers := [], xfersIn := [], hands := [], nextId := 0, failed := 0,
    unreach := [], noRoute := [], downPorts := [], stamp := 0 }

/-- The device right after module reset: nothing created, no context, registers at their reset values (R8, R17, R409, R496). -/
def State.reset : State :=
  { agenda := [], actor := .none, ticks := 0, seeds := 0, accesses := 0, nextKey := 0, frag := 0,
    cycle := 0, ptpBase := 0, ptpOff := 0, ptpLast := 0, ptpGood := 0, device := 0, dev := [], host := [], sram := [],
    lines := [], claims := [], rcache := [], segLines := [], codeAsks := [], ports := [], fibres := [], crews := [], teams := [], fills := [], jobs := [], coreCtx := [],
    clusterCtx := [], clusters := [], scrub := [], ctxs := [], launches := [], queues := [], qregs := [], lastQueue := 255,
    keys := [], parts := [], mgmt := Mgmt.reset, link := Link.reset, hostUp := true, hostCache := true, hostAtomics := [4, 8, 16],
    hostStamp := 0, hostStores := [], hostData := [], hostPoison := false, hostDownAt := 0, inbox := [], stops := [] }

end Sys2Proof.Machine
end

