-- ==== Sys2Proof/Machine/Bits.lean ====
section
/-! DEFINITION. Bit fields, sign extension, byte order (R6) and sparse tables. -/

namespace Sys2Proof.Machine

/-- The value stored under k. -/
def Tab.get {α : Type} : Tab α → Nat → Option α
  | [], _ => none
  | (i, a) :: r, k => if i = k then some a else Tab.get r k

/-- Stores a under k, keeping rising order. -/
def Tab.set {α : Type} : Tab α → Nat → α → Tab α
  | [], k, a => [(k, a)]
  | (i, b) :: r, k, a =>
    if i = k then (k, a) :: r else if k < i then (k, a) :: (i, b) :: r else (i, b) :: Tab.set r k a

/-- Removes k. -/
def Tab.erase {α : Type} (t : Tab α) (k : Nat) : Tab α := t.filter (fun x => x.1 != k)

/-- The byte at a: what an unlisted address reads as is 0 (log 2). -/
def cellRead (m : List Host.Cell) (a : Nat) : Byte := (Tab.get m a).getD 0

/-- Writes one byte, keeping the canonical form: no entry holds 0. -/
def cellWrite (m : List Host.Cell) (a : Nat) (b : Byte) : List Host.Cell :=
  if b = 0 then Tab.erase m a else Tab.set m a b

/-- Whether every listed address lies above lo and addresses rise strictly. -/
def risingFrom : Nat → List Host.Cell → Bool
  | _, [] => true
  | lo, (a, b) :: r => decide (lo ≤ a) && decide (b ≠ 0) && risingFrom (a + 1) r

/-- The canonical form: addresses strictly rising, no entry equal to what an unlisted address reads as. -/
def Memory.wf (m : List Host.Cell) : Bool := risingFrom 0 m

/-- Bits [lo + n - 1 : lo] of x. -/
def bitsOf (x lo n : Nat) : Nat := x / 2 ^ lo % 2 ^ n

/-- Bit i of x. -/
def bitOf (x i : Nat) : Bool := x / 2 ^ i % 2 == 1

/-- x's low n bits read as a signed number. -/
def signed (n x : Nat) : Int :=
  if x % 2 ^ n < 2 ^ (n - 1) then (x % 2 ^ n : Nat) else (x % 2 ^ n : Nat) - (2 ^ n : Nat)

/-- An integer modulo 2^n. -/
def wrap (n : Nat) (x : Int) : Nat := (x % (2 ^ n : Nat)).toNat

/-- The 32-bit word of an integer, modulo 2^32. -/
def wordOf (x : Int) : Word := BitVec.ofNat 32 (wrap 32 x)

/-- The 64-bit word of an integer, modulo 2^64. -/
def dwordOf (x : Int) : DWord := BitVec.ofNat 64 (wrap 64 x)

/-- n little-endian bytes of x (R6). -/
def leBytes : Nat → Nat → List Byte
  | 0, _ => []
  | n + 1, x => BitVec.ofNat 8 x :: leBytes n (x / 256)

/-- The number of little-endian bytes (R6). -/
def ofBytes : List Byte → Nat
  | [] => 0
  | b :: r => b.toNat + 256 * ofBytes r

/-- 32-bit words of a byte list, lowest address first. -/
def wordsOf : List Byte → List Word
  | a :: b :: c :: d :: r => BitVec.ofNat 32 (ofBytes [a, b, c, d]) :: wordsOf r
  | [] => []
  | r => [BitVec.ofNat 32 (ofBytes r)]

/-- The bytes of words, lowest address first. -/
def bytesOfWords (ws : List Word) : List Byte := ws.flatMap (fun w => leBytes 4 w.toNat)

/-- 64-bit words of a byte list. -/
def dwordsOf (bs : List Byte) : List DWord :=
  (List.range (bs.length / 8)).map (fun i => BitVec.ofNat 64 (ofBytes ((bs.drop (8 * i)).take 8)))

/-- Rounds x up to a multiple of n. -/
def ceilDiv (x n : Nat) : Nat := (x + n - 1) / n

/-- The largest of a list of numbers. -/
def maxOf (l : List Nat) : Nat := l.foldl max 0

/-- The number formed from fields of the given widths, lowest first. -/
def packNat : List (Nat × Nat) → Nat
  | [] => 0
  | (w, v) :: r => v % 2 ^ w + 2 ^ w * packNat r

/-- Removes the first element that meets p. -/
def removeFirst {α : Type} (p : α → Bool) : List α → List α
  | [] => []
  | a :: r => if p a then r else a :: removeFirst p r

/-- Replaces element i. -/
def setAt {α : Type} : List α → Nat → α → List α
  | [], _, _ => []
  | _ :: r, 0, a => a :: r
  | b :: r, n + 1, a => b :: setAt r n a

/-- The mask of bit numbers. -/
def maskOf (l : List Nat) : Nat := l.foldl (fun m i => m ||| 2 ^ i) 0

end Sys2Proof.Machine
end

