-- ==== Sys2Proof/Machine/Float.lean ====
section
/-! DEFINITION. Number formats and rounding (R167 to R185): decoding to exact values, rounding once with the flags of R170 to R172,
the store-path converter with its stochastic mode (R175, R179, R181), shared-exponent blocks (R176 to R178), the steps of the
reduction operators (R158, R504), and the group sums of the matrix array (R184, R185). -/

namespace Sys2Proof.Machine

/-- A binary format: exponent bits, fraction bits (R167). -/
structure FloatFmt where
  eb : Nat
  fb : Nat
  deriving DecidableEq, Repr

def fp32 : FloatFmt := ⟨8, 23⟩
def fp64 : FloatFmt := ⟨11, 52⟩
def fp16 : FloatFmt := ⟨5, 10⟩
def bf16 : FloatFmt := ⟨8, 7⟩

def FloatFmt.bias (f : FloatFmt) : Nat := 2 ^ (f.eb - 1) - 1
/-- The exponent of the least normal value. -/
def FloatFmt.emin (f : FloatFmt) : Int := 1 - (f.bias : Int)
def FloatFmt.width (f : FloatFmt) : Nat := 1 + f.eb + f.fb
/-- Bits of +infinity. -/
def FloatFmt.infBits (f : FloatFmt) : Nat := (2 ^ f.eb - 1) * 2 ^ f.fb
/-- The default NaN (R167). -/
def FloatFmt.nanBits (f : FloatFmt) : Nat := f.infBits + 2 ^ (f.fb - 1)

/-- A decoded operand: a NaN (signalling or not), an infinity, or the exact value (-1)^neg · m · 2^e. -/
inductive FVal where
  | nan (sig : Bool)
  | inf (neg : Bool)
  | fin (neg : Bool) (m : Nat) (e : Int)
  deriving DecidableEq, Repr

/-- Decodes a word of a format (R167). -/
def FloatFmt.decode (f : FloatFmt) (x : Nat) : FVal :=
  let frac := x % 2 ^ f.fb
  let ex := x / 2 ^ f.fb % 2 ^ f.eb
  let neg := x / 2 ^ (f.fb + f.eb) % 2 == 1
  if ex = 2 ^ f.eb - 1 then
    if frac = 0 then .inf neg else .nan (decide (frac < 2 ^ (f.fb - 1)))
  else if ex = 0 then .fin neg frac (f.emin - f.fb)
  else .fin neg (2 ^ f.fb + frac) ((ex : Int) - f.bias - f.fb)

/-- Rounding modes by their field (R205): 0 RNE, 1 RZ, 2 RU, 3 RD. Whether a magnitude of quotient q and remainder r of 2^sh rounds up. -/
def roundsUp (mode : Nat) (neg : Bool) (q r sh : Nat) : Bool :=
  match mode with
  | 0 => decide (2 ^ sh < 2 * r) || (decide (2 * r = 2 ^ sh) && decide (q % 2 = 1))
  | 1 => false
  | 2 => decide (r ≠ 0) && !neg
  | _ => decide (r ≠ 0) && neg

/-- The number of units 2^q nearest to m · 2^e in a mode, and whether the rounding was inexact. -/
def roundUnits (mode : Nat) (neg : Bool) (m : Nat) (e q : Int) : Nat × Bool :=
  if q ≤ e then (m * 2 ^ (e - q).toNat, false)
  else
    let sh := (q - e).toNat
    let k := m / 2 ^ sh
    let r := m % 2 ^ sh
    (if roundsUp mode neg k r sh then k + 1 else k, decide (r ≠ 0))

/-- Flags NV 1, DZ 2, OF 4, UF 8, NX 16, in FSTAT bit order (R172). -/
def flagNV : Nat := 1
def flagDZ : Nat := 2
def flagOF : Nat := 4
def flagUF : Nat := 8
def flagNX : Nat := 16

/-- A result with its raised flags. -/
structure FRes where
  bits : Nat
  flags : Nat
  deriving DecidableEq, Repr

/-- Rounds the exact nonzero value (-1)^neg · m · 2^e once (R170), with OF, UF (tiny after rounding and inexact) and NX (R172). -/
def FloatFmt.roundExact (f : FloatFmt) (mode : Nat) (neg : Bool) (m : Nat) (e : Int) : FRes :=
  let sgn := if neg then 2 ^ (f.fb + f.eb) else 0
  if m = 0 then ⟨sgn, 0⟩ else
  let top : Int := e + (Nat.log2 m : Int)
  let q : Int := max top f.emin - f.fb
  let (k, inex) := roundUnits mode neg m e q
  let bits := (q - (f.emin - f.fb)).toNat * 2 ^ f.fb + k
  if f.infBits ≤ bits then
    let toInf := mode == 0 || (mode == 2 && !neg) || (mode == 3 && neg)
    ⟨sgn + (if toInf then f.infBits else f.infBits - 1), flagOF + flagNX⟩
  else
    let q' : Int := top - f.fb
    let tiny := decide (top < f.emin) && decide (((roundUnits mode neg m e q').1 : Int) < 2 ^ (f.emin - q').toNat)
    ⟨sgn + bits, if inex then (if tiny then flagUF + flagNX else flagNX) else 0⟩

def FloatFmt.nan (f : FloatFmt) (nv : Bool) : FRes := ⟨f.nanBits, if nv then flagNV else 0⟩
def FloatFmt.inf (f : FloatFmt) (neg : Bool) : FRes := ⟨(if neg then 2 ^ (f.fb + f.eb) else 0) + f.infBits, 0⟩
def FVal.isNan : FVal → Bool
  | .nan _ => true
  | _ => false
def FVal.isSig : FVal → Bool
  | .nan s => s
  | _ => false
/-- The sign modifiers change no NaN into a number (R227). -/
def FVal.negate : FVal → FVal
  | .nan s => .nan s
  | .inf n => .inf !n
  | .fin n m e => .fin (!n) m e
def FVal.abs : FVal → FVal
  | .nan s => .nan s
  | .inf _ => .inf false
  | .fin _ m e => .fin false m e

/-- The sign of an exact zero sum (R170). -/
def zeroSign (mode : Nat) (na nb za zb : Bool) : Bool := if za && zb && na == nb then na else mode == 3

/-- The exact sum of two finite values as a signed mantissa and exponent. -/
def sumExact (na : Bool) (ma : Nat) (ea : Int) (nb : Bool) (mb : Nat) (eb : Int) : Int × Int :=
  let e := min ea eb
  let x : Int := ma * 2 ^ (ea - e).toNat
  let y : Int := mb * 2 ^ (eb - e).toNat
  ((if na then -x else x) + (if nb then -y else y), e)

/-- a + b rounded once (R170, R171). -/
def FloatFmt.add (f : FloatFmt) (mode : Nat) (a b : FVal) : FRes :=
  match a, b with
  | .nan _, _ => f.nan (a.isSig || b.isSig)
  | _, .nan _ => f.nan (a.isSig || b.isSig)
  | .inf na, .inf nb => if na == nb then f.inf na else f.nan true
  | .inf na, _ => f.inf na
  | _, .inf nb => f.inf nb
  | .fin na ma ea, .fin nb mb eb =>
    let (x, e) := sumExact na ma ea nb mb eb
    if x = 0 then ⟨if zeroSign mode na nb (ma == 0) (mb == 0) then 2 ^ (f.fb + f.eb) else 0, 0⟩
    else f.roundExact mode (decide (x < 0)) x.natAbs e

/-- The exact product, NaN when invalid; the flag says whether NV is raised. -/
def FVal.mul (a b : FVal) : FVal × Bool :=
  match a, b with
  | .nan _, _ => (.nan false, a.isSig || b.isSig)
  | _, .nan _ => (.nan false, a.isSig || b.isSig)
  | .inf na, .inf nb => (.inf (na != nb), false)
  | .inf na, .fin nb m _ => if m = 0 then (.nan false, true) else (.inf (na != nb), false)
  | .fin na m _, .inf nb => if m = 0 then (.nan false, true) else (.inf (na != nb), false)
  | .fin na ma ea, .fin nb mb eb => (.fin (na != nb) (ma * mb) (ea + eb), false)

/-- a × b rounded once. -/
def FloatFmt.mul (f : FloatFmt) (mode : Nat) (a b : FVal) : FRes :=
  match a.mul b with
  | (.nan _, nv) => f.nan nv
  | (.inf n, _) => f.inf n
  | (.fin n m e, _) => f.roundExact mode n m e

/-- a × b + c rounded once. A quiet NaN addend leaves an invalid product's NV raised. -/
def FloatFmt.fma (f : FloatFmt) (mode : Nat) (a b c : FVal) : FRes :=
  match a.mul b with
  | (.nan _, nv) => f.nan (nv || c.isSig)
  | (p, _) => f.add mode p c

/-- The order of two values, −0 equal to +0; none when a NaN is among them. -/
def FVal.cmp (a b : FVal) : Option Ordering :=
  match a, b with
  | .nan _, _ => none
  | _, .nan _ => none
  | .inf na, .inf nb => some (if na == nb then .eq else if na then .lt else .gt)
  | .inf na, _ => some (if na then .lt else .gt)
  | _, .inf nb => some (if nb then .gt else .lt)
  | .fin na ma ea, .fin nb mb eb =>
    let x := (sumExact na ma ea (!nb) mb eb).1
    some (if x < 0 then .lt else if x = 0 then .eq else .gt)

/-- Whether a value carries a minus sign. -/
def FVal.neg : FVal → Bool
  | .nan _ => false
  | .inf n => n
  | .fin n _ _ => n
/-- Order with −0.0 below +0.0 (R158, R229). -/
def FVal.below (a b : FVal) : Bool :=
  match a.cmp b with
  | some .lt => true
  | some .eq => a.neg && !b.neg
  | _ => false

/-! ### Reduction operators (R158, R504) -/

/-- The minimum or maximum of two binary32 words, a NaN ignored (tags 6 and 9). -/
def redMinMax (isMax : Bool) (a b : Nat) : Nat :=
  let x := fp32.decode a
  let y := fp32.decode b
  if x.isNan && y.isNan then fp32.nanBits
  else if x.isNan then b else if y.isNan then a
  else if isMax then (if x.below y then b else a) else (if y.below x then b else a)

/-- Bytes of an operator's element (R158): 8 for ADD.S64, else 4. -/
def redBytes (tag : Nat) : Nat := if tag = 1 then 8 else 4

/-- One step of an operator on an element (R158). -/
def redStep (tag a b : Nat) : Nat :=
  match tag with
  | 0 => (a + b) % 2 ^ 32
  | 1 => (a + b) % 2 ^ 64
  | 2 => (fp32.add 0 (fp32.decode a) (fp32.decode b)).bits
  | 3 =>
    let h (i : Nat) : Nat := (bf16.add 0 (bf16.decode (bitsOf a (16 * i) 16)) (bf16.decode (bitsOf b (16 * i) 16))).bits
    h 0 + 2 ^ 16 * h 1
  | 4 => if signed 32 b < signed 32 a then b else a
  | 5 => min a b
  | 6 => redMinMax false a b
  | 7 => if signed 32 a < signed 32 b then b else a
  | 8 => max a b
  | 9 => redMinMax true a b
  | 10 => a &&& b
  | 11 => a ||| b
  | 12 => a ^^^ b
  | _ => b

/-- An operator's identity (R158). -/
def redIdentity (tag : Nat) : Nat :=
  match tag with
  | 2 => 0x80000000
  | 3 => 0x80008000
  | 4 => 0x7FFFFFFF
  | 5 => 0xFFFFFFFF
  | 6 => 0x7F800000
  | 7 => 0x80000000
  | 9 => 0xFF800000
  | 10 => 0xFFFFFFFF
  | _ => 0

/-! ### The store-path converter (R175 to R181) -/

/-- Rotation of a 32-bit word left (R206). -/
def rotL (g n : Nat) : Nat := (g * 2 ^ (n % 32)) % 2 ^ 32 + g / 2 ^ (32 - n % 32)
/-- One step of a converter's generator (R179). -/
def genStep (g : Word) : Word :=
  let b := ((bitOf g.toNat 31 != bitOf g.toNat 21) != (bitOf g.toNat 1 != bitOf g.toNat 0))
  BitVec.ofNat 32 (g.toNat * 2 + b.toNat)

/-- Where a stochastic rounding draws from: the generator state, the lane, the element (R181). -/
structure StoRand where
  g : Nat
  lane : Nat
  j : Nat
  deriving DecidableEq, Repr

/-- Rounds m · 2^e to units of 2^q: RNE, RZ, or (mode 2) stochastically (R181). -/
def convUnits (mode : Nat) (sr : StoRand) (m : Nat) (e q : Int) : Nat :=
  if mode = 2 then
    if q ≤ e then m * 2 ^ (e - q).toNat
    else
      let sh := (q - e).toNat
      let d := min sh 32
      let low := m % 2 ^ sh / 2 ^ (sh - d)
      let w := rotL sr.g ((sr.lane + 8 * sr.j) % 32)
      m / 2 ^ sh + (if 2 ^ d ≤ low + w / 2 ^ (32 - d) then 1 else 0)
  else (roundUnits mode false m e q).1

/-- Element formats of the converter by code (R282): exponent bits, fraction bits, bias, largest finite, whether it has infinities. -/
structure ElemFmt where
  eb : Nat
  fb : Nat
  bias : Nat
  maxFin : Nat
  inf : Bool
  nan : Nat
  deriving DecidableEq, Repr

def elemFmt (fmt : Nat) : ElemFmt :=
  match fmt with
  | 2 => ⟨8, 7, 127, 0x7F7F, true, 0x7FC0⟩
  | 3 => ⟨5, 10, 15, 0x7BFF, true, 0x7E00⟩
  | 4 => ⟨4, 3, 7, 0x7E, false, 0x7F⟩
  | 5 => ⟨5, 2, 15, 0x7B, true, 0x7F⟩
  | _ => ⟨8, 23, 127, 0x7F7FFFFF, true, 0x7FC00000⟩

/-- ConvertStore for the element formats 1 to 5 (R175): FP32 word x to the stored element. -/
def convertElem (x : Nat) (fmt mode : Nat) (sat : Bool) (sr : StoRand) : Nat :=
  let f := elemFmt fmt
  let sgn (neg : Bool) : Nat := if neg then 2 ^ (f.eb + f.fb) else 0
  match fp32.decode x with
  | .nan _ => f.nan
  | .inf neg => if fmt = 1 then x % 2 ^ 32
      else if sat then sgn neg + f.maxFin else if f.inf then sgn neg + f.maxFin + 1 else f.nan
  | .fin neg m e =>
    if fmt = 1 then x % 2 ^ 32
    else if m = 0 then sgn neg
    else
      let emin : Int := 1 - (f.bias : Int)
      let q : Int := max (e + (Nat.log2 m : Int)) emin - f.fb
      let bits := (q - (emin - f.fb)).toNat * 2 ^ f.fb + convUnits mode sr m e q
      if f.maxFin < bits then
        if sat || mode == 1 then sgn neg + f.maxFin else if f.inf then sgn neg + f.maxFin + 1 else f.nan
      else sgn neg + bits

/-- Mantissa width k of an SX format (6 SX4, 7 SX6, 8 SX9) and its block size in bytes (R176). -/
def sxK (fmt : Nat) : Nat := if fmt = 6 then 2 else if fmt = 7 then 4 else 7
def sxBytes (fmt : Nat) : Nat := 2 + 2 * (sxK fmt + 1)
/-- Floor of log2 of m · 2^e for m not 0. -/
def flog2 (m : Nat) (e : Int) : Int := e + (Nat.log2 m : Int)
/-- Magnitudes of finite FP32 words as (m, e). -/
def magOf (x : Nat) : Nat × Int := match fp32.decode x with
  | .fin _ m e => (m, e)
  | _ => (0, 0)
/-- The largest floor(log2) of the nonzero magnitudes, if any. -/
def topLog (xs : List Nat) : Option Int :=
  xs.foldl (fun b x => let (m, e) := magOf x; if m = 0 then b else match b with
    | none => some (flog2 m e)
    | some v => some (max v (flog2 m e))) none
/-- The encoder of an SX block from its 16 sources, each with its draw (R178): the block as a number of 8 · sxBytes bits. -/
def sxEncode (fmt mode : Nat) (xs : List (Nat × StoRand)) : Nat :=
  let k := sxK fmt
  let vals := xs.map Prod.fst
  if vals.any (fun x => match fp32.decode x with
    | .fin _ _ _ => false
    | _ => true) then 255
  else match topLog vals with
    | none => packNat ([(8, 0), (8, 0)] ++ xs.flatMap (fun x => [(k, 0), (1, x.1 / 2 ^ 31)]))
    | some eb =>
      let ex : Nat := (max 0 (eb + 127)).toNat
      let mx (q : Nat) : Nat := match topLog ((vals.drop (4 * q)).take 4) with
        | none => 0
        | some t => min (((ex : Int) - 127 - t).toNat) 3
      packNat ([(8, ex), (2, mx 0), (2, mx 1), (2, mx 2), (2, mx 3)] ++
        (List.range 16).flatMap (fun i =>
          let x := xs.getD i (0, ⟨0, 0, 0⟩)
          let (m, e) := magOf x.1
          [(k, min (convUnits mode x.2 m e ((ex : Int) - 127 - mx (i / 4) - (k - 1))) (2 ^ k - 1)), (1, x.1 / 2 ^ 31)]))
/-- Element i of an SX block (R177); every element of a block with E 255 is a NaN. -/
def sxElem (fmt blk i : Nat) : FVal :=
  let k := sxK fmt
  let ex := bitsOf blk 0 8
  if ex = 255 then .nan false
  else .fin (bitOf blk (16 + (k + 1) * i + k)) (bitsOf blk (16 + (k + 1) * i) k)
    ((ex : Int) - 127 - bitsOf blk (8 + 2 * (i / 4)) 2 - (k - 1))

/-- A stored element of format 2 to 5 decoded exactly (R167, R174). -/
def elemVal (fmt x : Nat) : FVal :=
  match fmt with
  | 2 => bf16.decode x
  | 3 => fp16.decode x
  | 4 =>
    if x % 128 = 127 then .nan false
    else if x / 8 % 16 = 0 then .fin (bitOf x 7) (x % 8) (-9) else .fin (bitOf x 7) (8 + x % 8) (((x / 8 % 16 : Nat) : Int) - 10)
  | _ => FloatFmt.decode ⟨5, 2⟩ x
/-- The FP32 word of an exactly representable value; every NaN gives 0x7FC0_0000 (R134). -/
def f32Of (v : FVal) : Nat := match v with
  | .nan _ => fp32.nanBits
  | .inf n => (fp32.inf n).bits
  | .fin n m e => (fp32.roundExact 0 n m e).bits

/-! ### The matrix array (R184, R185) -/

/-- Sum of one group's exact products, as R170 and R185 round it to G. -/
def groupSum (ps : List (FVal × FVal)) : Nat :=
  let prods := ps.map (fun p => (p.1.mul p.2).1)
  let anyNan := prods.any FVal.isNan
  let posInf := prods.any (fun p => p == .inf false)
  let negInf := prods.any (fun p => p == .inf true)
  if anyNan || (posInf && negInf) then fp32.nanBits
  else if posInf then (fp32.inf false).bits
  else if negInf then (fp32.inf true).bits
  else
    let e0 := prods.foldl (fun b p => match p with
      | .fin _ m e => if m = 0 then b else min b e
      | _ => b) 0
    let sum : Int := prods.foldl (fun a p => match p with
      | .fin n m e => if m = 0 then a else a + (if n then -1 else 1) * (m * 2 ^ (e - e0).toNat : Nat)
      | _ => a) 0
    if sum = 0 then
      (if prods.all (fun p => match p with
        | .fin n m _ => n && m == 0
        | _ => false) then 2 ^ 31 else 0)
    else (fp32.roundExact 0 (decide (sum < 0)) sum.natAbs e0).bits

/-- One accumulator element: groups of 16 products in ascending order, overwriting (XMMAZ) or accumulating (XMMA). -/
def accumulate (acc : Option Nat) : List (List (FVal × FVal)) → Nat
  | [] => acc.getD 0
  | g :: r =>
    let x := groupSum g
    accumulate (some (match acc with
      | none => x
      | some c => (fp32.add 0 (fp32.decode c) (fp32.decode x)).bits)) r

end Sys2Proof.Machine
end

