-- ==== Sys2Proof/Machine/Encoding.lean ====
section
/-! DEFINITION. Fields of the instruction formats (R195 to R202), the operand rules of every entry as one table, and the
ENCODING checks made at issue before any source is read (R197, R213, R242, R272, R311, R316, R441). -/

namespace Sys2Proof


/-- An ENCODING defect: its CAUSE and ARGX (R422, R441). -/
structure EncErr where
  cause : Nat
  argx : Nat
  deriving DecidableEq, Repr

/-- Values laid side by side, the first in the lowest bits: (width, value) pairs. -/
def packFields : List (Nat × Nat) → Nat
  | [] => 0
  | (w, v) :: r => v + 2 ^ w * packFields r

/-- The values of fields of the given widths, the first from the lowest bits. -/
def unpackFields : List Nat → Nat → List Nat
  | [], _ => []
  | w :: r, x => x % 2 ^ w :: unpackFields r (x / 2 ^ w)

/-- Widths of the fields of format G from bit 0 (R195): OP MOD D DK A AK B BK C CK WB G GN GE IMM. -/
def gWidths : List Nat := [10, 6, 11, 2, 11, 2, 11, 2, 11, 2, 3, 3, 1, 1, 20]
/-- Widths of the fields of format J from bit 0 (R201): OP MOD D DK A AK TSLOT OFFSET G GN GE IMM. -/
def jWidths : List Nat := [10, 6, 11, 2, 11, 2, 3, 26, 3, 1, 1, 20]

/-- Unit class by opcode (R191): 0 integer/float, 1 special function, 2 cross-lane, 3 control, 4 memory, 5 sequencer. -/
def unitClass (op : Nat) : Nat :=
  if op < 0x100 then 0 else if op < 0x108 then 1 else if op < 0x180 then 0 else if op < 0x200 then 2
  else if op < 0x280 then 3 else if op < 0x380 then 4 else 5

/-- The trailers of a sentence (R46) by opcode. -/
def isTrailerOp (op : Nat) : Bool :=
  decide (op ∈ [0x206, 0x200, 0x201, 0x202, 0x203, 0x204, 0x205, 0x208, 0x18A, 0x20B, 0x20C, 0x20D, 0x210])

/-! ### Source and destination fields (R195, R196) -/

/-- The (number, kind) fields of a destination. -/
def Dst.fields : Dst → Nat × Nat
  | .v n => (n.toNat, 0)
  | .p n => (n.toNat, 1)
  | .q n => (n.toNat, 2)
  | .none => (0, 3)

/-- A destination from its fields; upper bits of a pronoun or predicate number, and D under kind 3, are zero fields (R197). -/
def Dst.ofFields (d dk : Nat) : Option Dst :=
  match dk with
  | 0 => some (.v (BitVec.ofNat 11 d))
  | 1 => if d < 16 then some (.p (BitVec.ofNat 4 d)) else Option.none
  | 2 => if d < 8 then some (.q (BitVec.ofNat 3 d)) else Option.none
  | _ => if d = 0 then some .none else Option.none

/-- The (field, kind, wait bit) of a source. -/
def Src.fields : Src → Nat × Nat × Nat
  | .v n w => (n.toNat, 0, w.toNat)
  | .p n => (n.toNat, 1, 0)
  | .c n => (n.toNat, 2, 0)
  | .imm => (0, 3, 0)
  | .lit s w nx => (1024 + packFields [(3, s.toNat), (2, w.toNat), (1, nx.toNat)], 3, 0)

/-- A source from its fields; unlisted bits are zero fields, and a wait bit needs kind 0 (R196, R197). -/
def Src.ofFields (f k w : Nat) : Option Src :=
  match k with
  | 0 => some (.v (BitVec.ofNat 11 f) (w == 1))
  | 1 => if f < 16 ∧ w = 0 then some (.p (BitVec.ofNat 4 f)) else none
  | 2 => if w = 0 then some (.c (BitVec.ofNat 11 f)) else none
  | _ =>
    if w ≠ 0 then none
    else if f < 1024 then (if f = 0 then some .imm else none)
    else if f < 1088 then
      match unpackFields [3, 2, 1] (f - 1024) with
      | [s, wd, nx] => some (.lit (BitVec.ofNat 3 s) (BitVec.ofNat 2 wd) (nx == 1))
      | _ => none
    else none

/-- The guard fields G, GN, GE. -/
def Guard.fields (g : Guard) : Nat × Nat × Nat := (g.q.toNat, g.neg.toNat, g.en.toNat)

/-- A guard from its fields: G and GN are zero when GE is 0 (R197). -/
def Guard.ofFields (q neg en : Nat) : Option Guard :=
  if en = 0 ∧ (q ≠ 0 ∨ neg ≠ 0) then none
  else some ⟨en == 1, BitVec.ofNat 3 q, neg == 1⟩

/-- The guard that is not enabled. -/
def Guard.always : Guard := ⟨false, 0, false⟩

/-- Whether a guard's fields are as R197 requires. -/
def Guard.wf (g : Guard) : Bool := g.en || (g.q == 0 && !g.neg)

def Src.isKind3 : Src → Bool
  | .imm => true
  | .lit .. => true
  | _ => false

def Src.isImm : Src → Bool
  | .imm => true
  | _ => false

/-- At most one source has kind 3 (R197, R443). -/
def GOp.oneKind3 (o : GOp) : Bool :=
  decide (o.a.isKind3.toNat + o.b.isKind3.toNat + o.c.isKind3.toNat ≤ 1)

/-- Whether some source reads the IMM field. -/
def GOp.readsImm (o : GOp) : Bool := o.a.isImm || o.b.isImm || o.c.isImm

/-- The bits of a format G instruction (R195). -/
def GOp.encode (op : Nat) (o : GOp) : Nat :=
  packFields [(10, op), (6, o.mod.toNat), (11, (Dst.fields o.dst).1), (2, (Dst.fields o.dst).2),
    (11, (Src.fields o.a).1), (2, (Src.fields o.a).2.1), (11, (Src.fields o.b).1), (2, (Src.fields o.b).2.1),
    (11, (Src.fields o.c).1), (2, (Src.fields o.c).2.1),
    (3, (Src.fields o.a).2.2 + 2 * (Src.fields o.b).2.2 + 4 * (Src.fields o.c).2.2),
    (3, (Guard.fields o.guard).1), (1, (Guard.fields o.guard).2.1), (1, (Guard.fields o.guard).2.2), (20, o.imm.toNat)]

/-- Format G fields, or none when a zero field of R196 or R197 is not zero. -/
def GOp.ofBits (x : Nat) : Option GOp :=
  match unpackFields gWidths x with
  | [_, m, d, dk, a, ak, b, bk, c, ck, wb, g, gn, ge, imm] =>
    match Dst.ofFields d dk, Src.ofFields a ak (wb % 2), Src.ofFields b bk (wb / 2 % 2), Src.ofFields c ck (wb / 4),
        Guard.ofFields g gn ge with
    | some dst, some sa, some sb, some sc, some gd =>
      some ⟨gd, BitVec.ofNat 6 m, dst, sa, sb, sc, BitVec.ofNat 20 imm⟩
    | _, _, _, _, _ => none
  | _ => none

/-- The bits of a format J instruction (R201). -/
def JOp.encode (op : Nat) (o : JOp) : Nat :=
  packFields [(10, op), (6, o.mod.toNat), (11, (Dst.fields o.dst).1), (2, (Dst.fields o.dst).2),
    (11, (Src.fields o.a).1), (2, (Src.fields o.a).2.1), (3, o.tslot.toNat), (26, o.off.toNat),
    (3, (Guard.fields o.guard).1), (1, (Guard.fields o.guard).2.1), (1, (Guard.fields o.guard).2.2), (20, o.imm.toNat)]

/-- Format J fields, or none when a zero field is not zero. -/
def JOp.ofBits (x : Nat) : Option JOp :=
  match unpackFields jWidths x with
  | [_, m, d, dk, a, ak, ts, off, g, gn, ge, imm] =>
    match Dst.ofFields d dk, Src.ofFields a ak 0, Guard.ofFields g gn ge with
    | some dst, some sa, some gd =>
      some ⟨gd, BitVec.ofNat 6 m, dst, sa, BitVec.ofNat 3 ts, BitVec.ofNat 26 off, BitVec.ofNat 20 imm⟩
    | _, _, _ => none
  | _ => none

/-- Fields of one await of STOP: kind 0 names a register, kind 3 with the field zero names none (R202). -/
def awaitFields : Option (BitVec 11) → Nat × Nat
  | some n => (n.toNat, 0)
  | none => (0, 3)

/-- An await from its fields: `none` is a breach of R202. -/
def awaitOfFields (f k : Nat) : Option (Option (BitVec 11)) :=
  if k = 0 then some (some (BitVec.ofNat 11 f)) else if k = 3 ∧ f = 0 then some none else none

/-- The bits of STOP (R202). -/
def SOp.encode (o : SOp) : Nat :=
  packFields [(10, 0x206), (6, 0), (11, (awaitFields o.d).1), (2, (awaitFields o.d).2), (11, (awaitFields o.a).1), (2, (awaitFields o.a).2),
    (11, (awaitFields o.b).1), (2, (awaitFields o.b).2), (11, (awaitFields o.c).1), (2, (awaitFields o.c).2), (28, 0)]

/-- STOP from its bits: a kind 1 or 2 is cause 2, any other breach cause 3 (R202, R441). -/
def SOp.ofBits (x : Nat) : Except EncErr SOp :=
  match unpackFields gWidths x with
  | [_, m, d, dk, a, ak, b, bk, c, ck, wb, g, gn, ge, imm] =>
    if dk = 1 ∨ dk = 2 ∨ ak = 1 ∨ ak = 2 ∨ bk = 1 ∨ bk = 2 ∨ ck = 1 ∨ ck = 2 then .error ⟨2, 0x206⟩
    else if m ≠ 0 ∨ wb ≠ 0 ∨ g ≠ 0 ∨ gn ≠ 0 ∨ ge ≠ 0 ∨ imm ≠ 0 then .error ⟨3, 0x206⟩
    else match awaitOfFields d dk, awaitOfFields a ak, awaitOfFields b bk, awaitOfFields c ck with
      | some wd, some wa, some wb', some wc => .ok ⟨wd, wa, wb', wc⟩
      | _, _, _, _ => .error ⟨3, 0x206⟩
  | _ => .error ⟨3, 0x206⟩

/-! ### The entries as a table -/

/-- What an entry lets its destination be (R213, R243, R273, and each entry). -/
inductive DstUse where
  | vp | v | vn | vpn | v2 | v2n | v4 | q | n
  | z      -- every field zero: kind 0, number 0 (CFENCE, NOP, EXIT, FENCE.SYS)
  | vw     -- a multiple of 2^MOD[1:0] (FGET, LDC, FIFOR)
  | ld     -- aligned to its width MOD[2:0] (R277)
  | movD | movsD | ftoiD | itofD | fcvtD | voteD
  deriving DecidableEq, Repr

/-- What an entry lets a source field be. -/
inductive SrcUse where
  | unused
  | s32 | s32n          -- 32-bit source; n: the IMM field is not allowed
  | s64 | s64n          -- 64-bit source (R214)
  | pk                  -- packed source (R198)
  | vreg                -- kind 0 only (R247)
  | pair                -- even pair of kind 0 (R244, R274)
  | v4                  -- kind 0, a multiple of 4
  | maskNo              -- C of SHFL, QSWAP, QBCAST (R247)
  | callArg             -- A of CALL, CALLX, RET (R260, R261)
  | tag                 -- C of PERFORM (R264)
  | st | stCtl          -- B and C of ST (R281)
  | cas32 | cas64       -- C of ATOM and ATOM64 (R285)
  | red                 -- B of RED (R288)
  | fifoGrp             -- B of FIFOW (R291)
  | movA | fclassA | ftoiA | itofA | fcvtA | fcvtB | matchA | movswA
  deriving DecidableEq, Repr

/-- What values an IMM of the instruction's own takes. -/
inductive ImmVal where
  | any | mask1 | mask2 | mask3 | bank | push | movsw | movs
  deriving DecidableEq, Repr

/-- Who uses IMM: a source (else it is zero, R198), the entry itself in its low `bits` bits, or FCVT (R239). -/
inductive ImmUse where
  | src
  | own (bits : Nat) (val : ImmVal)
  | fcvtI
  deriving DecidableEq, Repr

/-- One entry of the opcode tables of format G. -/
structure GRow where
  dst : DstUse
  a : SrcUse
  b : SrcUse
  c : SrcUse
  mod : BitVec 6 → Nat     -- 0 when the MOD value is allowed, else the cause
  imm : ImmUse

def modBits (m : BitVec 6) (lo n : Nat) : Nat := m.toNat / 2 ^ lo % 2 ^ n
/-- A reserved MOD value is cause 2; a set bit of a zero field is cause 3 (R441). -/
def modZero (m : BitVec 6) : Nat := if m = 0 then 0 else 2
def modLe (n : Nat) (m : BitVec 6) : Nat := if m.toNat ≤ n then 0 else 2
def modHigh (k : Nat) (m : BitVec 6) : Nat := if m.toNat < 2 ^ k then 0 else 3
def modIsetp (m : BitVec 6) : Nat := if modBits m 0 3 ≤ 5 ∧ modBits m 4 2 = 0 then 0 else 2
def modSign2 (m : BitVec 6) : Nat := if m.toNat < 32 then 0 else 2
def modSign3 (_ : BitVec 6) : Nat := 0
def modFcc (m : BitVec 6) : Nat := if modBits m 0 2 = 0 ∧ modBits m 2 4 ≠ 7 ∧ modBits m 2 4 ≠ 15 then 0 else 2
def modFclass (m : BitVec 6) : Nat := if m.toNat = 0 ∨ m.toNat = 4 then 0 else 2
def modFcvt (m : BitVec 6) : Nat := if modBits m 2 2 = modBits m 4 2 then 2 else 0
def modQswap (m : BitVec 6) : Nat := if modBits m 0 2 = 3 then 2 else if modBits m 2 2 = 0 ∧ modBits m 5 1 = 0 then 0 else 3
def modQbcast (m : BitVec 6) : Nat := if modBits m 2 2 = 0 ∧ modBits m 5 1 = 0 then 0 else 3
def modVote (m : BitVec 6) : Nat := if modBits m 0 2 = 3 then 2 else 0
def modLe2High (m : BitVec 6) : Nat := if modBits m 0 2 = 3 then 2 else if m.toNat < 4 then 0 else 3
def modLd (m : BitVec 6) : Nat :=
  if 4 < modBits m 0 3 then 2 else if modBits m 3 1 = 1 ∧ 2 ≤ modBits m 0 3 then 2 else if m.toNat < 16 then 0 else 3
def modSt (m : BitVec 6) : Nat := if 4 < modBits m 0 3 then 2 else if m.toNat < 8 then 0 else 3
def modAtom (m : BitVec 6) : Nat :=
  if modBits m 3 1 = 1 ∧ modBits m 0 3 ≠ 1 ∧ modBits m 0 3 ≠ 2 then 2 else if m.toNat < 16 then 0 else 3
def modRed (m : BitVec 6) : Nat := if 12 < modBits m 0 4 then 2 else if m.toNat < 16 then 0 else 3

/-- The entries of groups 0 to 6 that have format G (R203, R217, R228 to R240, R247 to R257, R259 to R266, R277 to R309). -/
def gRow (op : Nat) : Option GRow :=
  match op with
  | 0x000 => some ⟨.vp, .s32, .s32, .unused, modLe 2, .src⟩
  | 0x001 => some ⟨.vp, .s32, .s32, .unused, modLe 2, .src⟩
  | 0x002 => some ⟨.vp, .s32, .s32, .unused, modZero, .src⟩
  | 0x003 => some ⟨.vp, .s32, .s32, .unused, modLe 1, .src⟩
  | 0x004 => some ⟨.vp, .s32, .s32, .s32, modLe 2, .src⟩
  | 0x005 => some ⟨.v2, .s32, .s32, .s64, modLe 1, .src⟩
  | 0x006 => some ⟨.v2, .s64, .s64, .unused, modLe 1, .src⟩
  | 0x007 => some ⟨.v2, .s64n, .s32n, .unused, modLe 15, .own 0 .any⟩
  | 0x008 => some ⟨.vp, .s32, .unused, .unused, modLe 1, .src⟩
  | 0x009 => some ⟨.vp, .s32, .unused, .unused, modLe 1, .src⟩
  | 0x00A => some ⟨.vp, .s32, .s32, .unused, modLe 1, .src⟩
  | 0x00B => some ⟨.vp, .s32, .s32, .unused, modLe 1, .src⟩
  | 0x00C => some ⟨.vp, .s32, .s32, .unused, modZero, .src⟩
  | 0x00D => some ⟨.vp, .s32, .s32, .unused, modZero, .src⟩
  | 0x00E => some ⟨.vp, .s32, .s32, .unused, modZero, .src⟩
  | 0x00F => some ⟨.vp, .s32, .s32, .unused, modZero, .src⟩
  | 0x010 => some ⟨.vp, .s32, .unused, .unused, modZero, .src⟩
  | 0x011 => some ⟨.vp, .s32, .s32, .unused, modZero, .src⟩
  | 0x012 => some ⟨.vp, .s32, .s32, .unused, modZero, .src⟩
  | 0x013 => some ⟨.vp, .s32, .s32, .unused, modZero, .src⟩
  | 0x014 => some ⟨.vp, .s32, .s32, .s32, modLe 1, .src⟩
  | 0x015 => some ⟨.vp, .s32, .s32, .unused, modLe 1, .src⟩
  | 0x016 => some ⟨.vp, .s32, .s32, .s32, modZero, .src⟩
  | 0x017 => some ⟨.vp, .s32, .unused, .unused, modZero, .src⟩
  | 0x018 => some ⟨.vp, .s32, .unused, .unused, modZero, .src⟩
  | 0x019 => some ⟨.vp, .s32, .unused, .unused, modZero, .src⟩
  | 0x01A => some ⟨.q, .s32, .s32, .unused, modIsetp, .src⟩
  | 0x01B => some ⟨.vp, .s32, .s32, .unused, modLe 15, .src⟩
  | 0x01C => some ⟨.movD, .movA, .unused, .unused, modLe 1, .src⟩
  | 0x01D => some ⟨.vp, .unused, .unused, .unused, modZero, .own 0 .any⟩
  | 0x01E => some ⟨.movsD, .unused, .unused, .unused, modZero, .own 5 .movs⟩
  | 0x01F => some ⟨.v2, .s32, .s32, .unused, modLe 1, .src⟩
  | 0x080 => some ⟨.vp, .s32, .s32, .unused, modSign2, .src⟩
  | 0x081 => some ⟨.vp, .s32, .s32, .unused, modSign2, .src⟩
  | 0x082 => some ⟨.vp, .s32, .s32, .unused, modSign2, .src⟩
  | 0x083 => some ⟨.vp, .s32, .s32, .s32, modSign3, .src⟩
  | 0x084 => some ⟨.vp, .s32, .s32, .unused, modZero, .src⟩
  | 0x085 => some ⟨.vp, .s32, .s32, .unused, modZero, .src⟩
  | 0x086 => some ⟨.vp, .s32, .s32, .unused, modZero, .src⟩
  | 0x087 => some ⟨.vp, .s32, .s32, .unused, modZero, .src⟩
  | 0x088 => some ⟨.q, .s32, .s32, .unused, modFcc, .src⟩
  | 0x089 => some ⟨.vp, .fclassA, .unused, .unused, modFclass, .src⟩
  | 0x08A => some ⟨.vp, .s32, .unused, .unused, modLe 7, .src⟩
  | 0x08B => some ⟨.vp, .s32, .s32, .unused, modLe 3, .src⟩
  | 0x08C => some ⟨.vp, .s32, .s32, .unused, modZero, .src⟩
  | 0x08D => some ⟨.v2, .s64, .s64, .unused, modSign2, .src⟩
  | 0x08E => some ⟨.v2, .s64, .s64, .unused, modSign2, .src⟩
  | 0x08F => some ⟨.v2, .s64, .s64, .s64, modSign3, .src⟩
  | 0x090 => some ⟨.q, .s64, .s64, .unused, modFcc, .src⟩
  | 0x091 => some ⟨.vp, .pk, .pk, .unused, modSign2, .src⟩
  | 0x092 => some ⟨.vp, .pk, .pk, .unused, modSign2, .src⟩
  | 0x093 => some ⟨.vp, .pk, .pk, .pk, modSign3, .src⟩
  | 0x094 => some ⟨.vp, .pk, .pk, .unused, modSign2, .src⟩
  | 0x095 => some ⟨.vp, .pk, .pk, .unused, modSign2, .src⟩
  | 0x096 => some ⟨.vp, .pk, .pk, .pk, modSign3, .src⟩
  | 0x097 => some ⟨.vpn, .s32, .s32, .unused, modZero, .src⟩
  | 0x100 => some ⟨.vp, .s32, .unused, .unused, modZero, .src⟩
  | 0x101 => some ⟨.vp, .s32, .unused, .unused, modZero, .src⟩
  | 0x102 => some ⟨.vp, .s32, .unused, .unused, modZero, .src⟩
  | 0x103 => some ⟨.vp, .s32, .unused, .unused, modZero, .src⟩
  | 0x104 => some ⟨.vp, .s32, .unused, .unused, modZero, .src⟩
  | 0x105 => some ⟨.vp, .s32, .unused, .unused, modZero, .src⟩
  | 0x106 => some ⟨.vp, .s32, .unused, .unused, modZero, .src⟩
  | 0x107 => some ⟨.vp, .s32, .unused, .unused, modZero, .src⟩
  | 0x108 => some ⟨.ftoiD, .ftoiA, .unused, .unused, modLe 31, .src⟩
  | 0x109 => some ⟨.itofD, .itofA, .unused, .unused, modLe 31, .src⟩
  | 0x10A => some ⟨.fcvtD, .fcvtA, .fcvtB, .unused, modFcvt, .fcvtI⟩
  | 0x180 => some ⟨.vp, .vreg, .s32, .maskNo, modHigh 5, .src⟩
  | 0x181 => some ⟨.vp, .vreg, .unused, .maskNo, modQswap, .src⟩
  | 0x182 => some ⟨.vp, .vreg, .unused, .maskNo, modQbcast, .src⟩
  | 0x183 => some ⟨.voteD, .unused, .unused, .unused, modVote, .src⟩
  | 0x184 => some ⟨.vp, .s32, .unused, .unused, modHigh 3, .src⟩
  | 0x185 => some ⟨.vp, .s32, .unused, .unused, modHigh 0, .src⟩
  | 0x186 => some ⟨.vp, .matchA, .unused, .unused, modHigh 1, .src⟩
  | 0x187 => some ⟨.z, .unused, .unused, .unused, modHigh 0, .src⟩
  | 0x188 => some ⟨.n, .unused, .unused, .unused, modHigh 0, .own 4 .mask1⟩
  | 0x189 => some ⟨.n, .unused, .unused, .unused, modHigh 0, .own 4 .mask1⟩
  | 0x18A => some ⟨.n, .unused, .unused, .unused, modHigh 0, .own 4 .mask1⟩
  | 0x18B => some ⟨.n, .unused, .unused, .unused, modHigh 0, .own 12 .mask3⟩
  | 0x18C => some ⟨.n, .unused, .unused, .unused, modHigh 0, .own 12 .mask3⟩
  | 0x18D => some ⟨.n, .unused, .unused, .unused, modHigh 0, .own 12 .mask3⟩
  | 0x18E => some ⟨.n, .unused, .unused, .unused, modHigh 0, .own 8 .mask2⟩
  | 0x18F => some ⟨.vp, .unused, .unused, .unused, modHigh 0, .own 4 .mask1⟩
  | 0x190 => some ⟨.n, .s32n, .unused, .unused, modHigh 0, .own 4 .mask1⟩
  | 0x191 => some ⟨.vp, .unused, .unused, .unused, modHigh 0, .src⟩
  | 0x202 => some ⟨.n, .s64n, .unused, .unused, modHigh 0, .src⟩
  | 0x204 => some ⟨.v, .callArg, .s64n, .unused, modLe 32, .own 16 .any⟩
  | 0x205 => some ⟨.n, .callArg, .unused, .unused, modLe 32, .src⟩
  | 0x207 => some ⟨.z, .unused, .unused, .unused, modHigh 0, .src⟩
  | 0x208 => some ⟨.z, .unused, .unused, .unused, modHigh 0, .src⟩
  | 0x20A => some ⟨.n, .unused, .unused, .unused, modHigh 0, .src⟩
  | 0x20B => some ⟨.vn, .s32, .unused, .tag, modHigh 5, .src⟩
  | 0x20C => some ⟨.vn, .pair, .s32, .unused, modHigh 0, .src⟩
  | 0x20D => some ⟨.n, .pair, .unused, .unused, modHigh 0, .src⟩
  | 0x20E => some ⟨.vp, .pair, .unused, .unused, modHigh 0, .src⟩
  | 0x210 => some ⟨.vw, .pair, .unused, .unused, modLe2High, .src⟩
  | 0x211 => some ⟨.q, .pair, .pair, .unused, modHigh 0, .src⟩
  | 0x212 => some ⟨.n, .pair, .unused, .unused, modHigh 1, .src⟩
  | 0x213 => some ⟨.n, .pair, .unused, .unused, modHigh 0, .src⟩
  | 0x214 => some ⟨.n, .pair, .unused, .unused, modLe2High, .src⟩
  | 0x215 => some ⟨.n, .unused, .unused, .unused, modHigh 0, .src⟩
  | 0x216 => some ⟨.n, .unused, .unused, .unused, modHigh 0, .src⟩
  | 0x217 => some ⟨.n, .unused, .unused, .unused, modHigh 0, .src⟩
  | 0x280 => some ⟨.ld, .pair, .unused, .unused, modLd, .own 0 .any⟩
  | 0x281 => some ⟨.n, .pair, .st, .stCtl, modSt, .own 0 .any⟩
  | 0x282 => some ⟨.ld, .unused, .unused, .unused, modLd, .own 0 .any⟩
  | 0x283 => some ⟨.n, .unused, .st, .stCtl, modSt, .own 0 .any⟩
  | 0x284 => some ⟨.vw, .s32n, .unused, .unused, modLe2High, .own 0 .any⟩
  | 0x285 => some ⟨.vn, .pair, .s32n, .cas32, modAtom, .own 0 .any⟩
  | 0x286 => some ⟨.v2n, .pair, .s64n, .cas64, modAtom, .own 0 .any⟩
  | 0x287 => some ⟨.v4, .pair, .v4, .v4, modHigh 0, .own 0 .any⟩
  | 0x288 => some ⟨.n, .pair, .red, .unused, modRed, .own 0 .any⟩
  | 0x289 => some ⟨.z, .unused, .unused, .unused, modHigh 0, .src⟩
  | 0x28A => some ⟨.n, .pair, .fifoGrp, .unused, modLe2High, .src⟩
  | 0x28B => some ⟨.vw, .pair, .unused, .unused, modLe2High, .src⟩
  | 0x28C => some ⟨.q, .unused, .unused, .unused, modHigh 0, .own 7 .bank⟩
  | 0x28D => some ⟨.v2, .unused, .unused, .unused, modHigh 0, .own 4 .any⟩
  | 0x28E => some ⟨.n, .pair, .unused, .unused, modHigh 0, .own 4 .any⟩
  | 0x300 => some ⟨.n, .s32n, .unused, .unused, modHigh 0, .own 0 .any⟩
  | 0x301 => some ⟨.vpn, .unused, .unused, .unused, modHigh 0, .own 4 .any⟩
  | 0x302 => some ⟨.n, .s32n, .unused, .unused, modHigh 0, .own 4 .any⟩
  | 0x303 => some ⟨.n, .unused, .unused, .unused, modHigh 0, .own 4 .any⟩
  | 0x304 => some ⟨.n, .s32, .unused, .unused, modHigh 4, .src⟩
  | 0x305 => some ⟨.n, .s32, .unused, .unused, modHigh 3, .src⟩
  | 0x306 => some ⟨.q, .v4, .unused, .unused, modHigh 0, .own 5 .push⟩
  | 0x307 => some ⟨.n, .pair, .unused, .unused, modHigh 0, .src⟩
  | 0x308 => some ⟨.v2, .unused, .unused, .unused, modHigh 0, .own 3 .any⟩
  | 0x309 => some ⟨.n, .movswA, .unused, .unused, modHigh 0, .own 5 .movsw⟩
  | 0x30A => some ⟨.vp, .unused, .unused, .unused, modHigh 0, .src⟩
  | 0x30B => some ⟨.v2, .pair, .v4, .unused, modHigh 3, .own 0 .any⟩
  | _ => none

/-- The register number of a v source, and 0 otherwise. -/
def Src.num : Src → Nat
  | .v n _ => n.toNat
  | .p n => n.toNat
  | .c n => n.toNat
  | _ => 0

def Dst.num : Dst → Nat
  | .v n => n.toNat
  | .p n => n.toNat
  | .q n => n.toNat
  | .none => 0

/-- A source the instruction does not use has kind 0, field 0 and wait bit 0 (R197). -/
def Src.isZero (x : Src) : Bool := x == .v 0 false

/-- Kind 0 with no wait bit: a field that is not a register (R243, R273). -/
def Src.isPlainV : Src → Bool
  | .v _ w => !w
  | _ => false

def Src.isV : Src → Bool
  | .v .. => true
  | _ => false

def causeIf (op : Nat) (c : Nat) (b : Bool) : Option EncErr := if b then some ⟨c, op⟩ else none
/-- CAUSE 5 carries the register number (R441). -/
def regIf (n : Nat) (b : Bool) : Option EncErr := if b then some ⟨5, n⟩ else none

/-- A 32-bit source: any kind. -/
def chk32 (_op : Nat) (_x : Src) : Option EncErr := none
/-- A source that may not read IMM (R274, R441 cause 4). -/
def chkNoImm (op : Nat) (x : Src) : Option EncErr := causeIf op 4 x.isImm
/-- A 64-bit source (R214): a pronoun is cause 2, an odd register or constant word cause 5, a literal word 2 cause 7 (R199). -/
def chk64 (op : Nat) (x : Src) : Option EncErr :=
  match x with
  | .p _ => some ⟨2, op⟩
  | .v n _ => regIf n.toNat (n.toNat % 2 == 1)
  | .c n => regIf n.toNat (n.toNat % 2 == 1)
  | .imm => none
  | .lit _ w _ => causeIf op 7 (w == 2)
/-- A pair of v registers of kind 0 named by an even register (R244, R274). -/
def chkPair (op : Nat) (x : Src) : Option EncErr :=
  match x with
  | .v n _ => regIf n.toNat (n.toNat % 2 == 1)
  | _ => some ⟨2, op⟩
/-- A group of kind 0 aligned to k registers. -/
def chkGrp (op k : Nat) (x : Src) : Option EncErr :=
  match x with
  | .v n _ => regIf n.toNat (n.toNat % k != 0)
  | _ => some ⟨2, op⟩
def chkZero (op : Nat) (x : Src) : Option EncErr := causeIf op 3 (!x.isZero)

/-- Store widths in bytes by MOD[2:0] (R277). -/
def widthBytes (m : BitVec 6) : Nat := 2 ^ modBits m 0 3
/-- Store control FMT, RND, SAT (R281). -/
def stFmt (c : Src) : Nat := c.num % 16
def stRnd (c : Src) : Nat := c.num / 16 % 4
def stSat (c : Src) : Bool := c.num / 64 % 2 == 1
/-- The registers a store takes on a page without VIEW (R282). -/
def stRegs (m : BitVec 6) (fmt : Nat) : Nat :=
  if fmt = 2 ∨ fmt = 3 then max 1 (widthBytes m / 2)
  else if fmt = 4 ∨ fmt = 5 then widthBytes m
  else max 1 (widthBytes m / 4)

/-- The registers a store takes whatever the page (R282): a view page takes one per four bytes of width. -/
def stLeast (op : Nat) (m : BitVec 6) (fmt : Nat) : Nat := if op = 0x283 then stRegs m fmt else max 1 (widthBytes m / 4)
/-- B of ST (R281): one register may be of any kind but IMM; more need kind 0 and the alignment of R277. -/
def chkSt (op : Nat) (o : GOp) (x : Src) : Option EncErr :=
  match x with
  | .imm => some ⟨4, op⟩
  | .v n _ => regIf n.toNat (n.toNat % max 1 (widthBytes o.mod / 4) != 0)
  | _ => causeIf op 2 (decide (1 < stLeast op o.mod (stFmt o.c)))

/-- C of ST (R281, R282): FMT 0 to 8, RND 0 to 2, the widths R282 allows, no block format in the frame-relative form. -/
def chkStCtl (op : Nat) (o : GOp) (x : Src) : Option EncErr :=
  if !x.isPlainV then some ⟨2, op⟩
  else if 128 ≤ x.num then some ⟨3, op⟩
  else if 8 < stFmt x ∨ stRnd x = 3 then some ⟨2, op⟩
  else if (stFmt x = 1 ∨ 6 ≤ stFmt x) ∧ modBits o.mod 0 3 < 2 then some ⟨2, op⟩
  else if (stFmt x = 2 ∨ stFmt x = 3) ∧ modBits o.mod 0 3 < 1 then some ⟨2, op⟩
  else if op = 0x283 ∧ 6 ≤ stFmt x then some ⟨2, op⟩
  else none

/-- Whether FCVT's source, or destination, is one of the 16-bit formats (R239). -/
def fcvtSrc (m : BitVec 6) : Nat := modBits m 2 2
def fcvtDst (m : BitVec 6) : Nat := modBits m 4 2

def chkSrc (op : Nat) (o : GOp) (u : SrcUse) (x : Src) : Option EncErr :=
  match u with
  | .unused => chkZero op x
  | .s32 => chk32 op x
  | .s32n => chkNoImm op x
  | .s64 => chk64 op x
  | .s64n => (chkNoImm op x).or (chk64 op x)
  | .pk => causeIf op 3 (x.isImm && decide (0x10000 ≤ o.imm.toNat))
  | .vreg => causeIf op 2 (!x.isV)
  | .pair => chkPair op x
  | .v4 => chkGrp op 4 x
  | .maskNo =>
    if modBits o.mod 4 1 = 0 then chkZero op x
    else if !x.isPlainV then some ⟨2, op⟩
    else if 16 ≤ x.num then some ⟨3, op⟩
    else causeIf op 2 (decide (11 < x.num))
  | .callArg =>
    if o.mod = 0 then chkZero op x else causeIf op 2 (!x.isV)
  | .tag =>
    let t := x.num + 2048 * modBits o.mod 0 5
    if !x.isPlainV then some ⟨2, op⟩ else causeIf op 2 (!((1 ≤ t && t ≤ 4) || 0x100 ≤ t))
  | .st => chkSt op o x
  | .stCtl => chkStCtl op o x
  | .cas32 => if modBits o.mod 0 3 = 7 then chkNoImm op x else chkZero op x
  | .cas64 => if modBits o.mod 0 3 = 7 then (chkNoImm op x).or (chk64 op x) else chkZero op x
  | .red => if modBits o.mod 0 4 = 1 then (chkNoImm op x).or (chk64 op x) else chkNoImm op x
  | .fifoGrp => chkGrp op (2 ^ modBits o.mod 0 2) x
  | .movA => if modBits o.mod 0 1 = 1 then chk64 op x else chk32 op x
  | .fclassA => if modBits o.mod 2 1 = 1 then chk64 op x else chk32 op x
  | .ftoiA => if modBits o.mod 3 1 = 1 then chk64 op x else chk32 op x
  | .itofA => if modBits o.mod 4 1 = 1 then chk64 op x else chk32 op x
  | .fcvtA =>
    if fcvtSrc o.mod = 1 then chk64 op x
    else if 2 ≤ fcvtSrc o.mod then chkNoImm op x
    else chk32 op x
  | .fcvtB =>
    if fcvtSrc o.mod < 2 ∧ 2 ≤ fcvtDst o.mod then
      (if fcvtSrc o.mod = 1 then chk64 op x else chk32 op x)
    else chkZero op x
  | .matchA => if modBits o.mod 0 1 = 1 then chk64 op x else chk32 op x
  | .movswA => if o.imm.toNat % 32 = 10 then (chkNoImm op x).or (chk64 op x) else chkNoImm op x

/-- Whether an instruction's IMM holds an offset or a field of its own (R197). -/
def ImmUse.isOwn : ImmUse → Bool
  | .own _ _ => true
  | _ => false
/-- Sources that take registers or a number alone, as far as the instruction uses them. -/
def SrcUse.kind0 (o : GOp) : SrcUse → Bool
  | .pair => true
  | .v4 => true
  | .fifoGrp => true
  | .vreg => true
  | .stCtl => true
  | .tag => true
  | .maskNo => modBits o.mod 4 1 != 0
  | .callArg => o.mod != 0
  | _ => false
/-- A source where the entry's IMM is known: a kind-3 IMM source is CAUSE 4 where IMM holds an offset or a field, and a kind not allowed, CAUSE 2,
where it holds nothing (R441). -/
def chkSrcIn (iu : ImmUse) (op : Nat) (o : GOp) (u : SrcUse) (x : Src) : Option EncErr :=
  if iu.isOwn && x.isImm && u.kind0 o then some ⟨4, op⟩ else chkSrc op o u x
/-- A v destination aligned to k registers. -/
def chkDstGrp (op k : Nat) (d : Dst) : Option EncErr :=
  match d with
  | .v n => regIf n.toNat (n.toNat % k != 0)
  | _ => some ⟨2, op⟩

def chkDstVP (op : Nat) (d : Dst) : Option EncErr :=
  match d with
  | .v _ => none
  | .p _ => none
  | _ => some ⟨2, op⟩

def chkDst (op : Nat) (o : GOp) (u : DstUse) : Option EncErr :=
  match u with
  | .vp => chkDstVP op o.dst
  | .v => chkDstGrp op 1 o.dst
  | .vn => if o.dst = .none then none else chkDstGrp op 1 o.dst
  | .vpn => if o.dst = .none then none else chkDstVP op o.dst
  | .v2 => chkDstGrp op 2 o.dst
  | .v2n => if o.dst = .none then none else chkDstGrp op 2 o.dst
  | .v4 => chkDstGrp op 4 o.dst
  | .q => match o.dst with
    | .q _ => none
    | _ => some ⟨2, op⟩
  | .n => if o.dst = .none then none else some ⟨2, op⟩
  | .z => if o.dst = .v 0 then none else some ⟨3, op⟩
  | .vw => chkDstGrp op (2 ^ modBits o.mod 0 2) o.dst
  | .ld => chkDstGrp op (max 1 (widthBytes o.mod / 4)) o.dst
  | .movD => if modBits o.mod 0 1 = 1 then chkDstGrp op 2 o.dst else chkDstVP op o.dst
  | .movsD =>
    let k := o.imm.toNat % 32
    if k = 9 ∨ k = 10 ∨ k = 13 ∨ k = 14 then chkDstGrp op 2 o.dst else chkDstVP op o.dst
  | .ftoiD => if modBits o.mod 4 1 = 1 then chkDstGrp op 2 o.dst else chkDstVP op o.dst
  | .itofD => if modBits o.mod 3 1 = 1 then chkDstGrp op 2 o.dst else chkDstVP op o.dst
  | .fcvtD => if fcvtDst o.mod = 1 then chkDstGrp op 2 o.dst else chkDstVP op o.dst
  | .voteD => if modBits o.mod 0 2 = 2 then chkDstVP op o.dst else match o.dst with
    | .q _ => none
    | _ => some ⟨2, op⟩

/-- Whether an own IMM value is one its entry gives (R224, R257, R291, R301, R308). -/
def immValOk (v : ImmVal) (x : Nat) : Bool :=
  match v with
  | .any => true
  | .mask1 => decide (x % 16 ≤ 11)
  | .mask2 => decide (x % 16 ≤ 11) && decide (x / 16 % 16 ≤ 11)
  | .mask3 => decide (x % 16 ≤ 11) && decide (x / 16 % 16 ≤ 11) && decide (x / 256 % 16 ≤ 11)
  | .bank => decide (x / 32 % 4 ≠ 3)
  | .push => decide (x % 32 ≤ 24)
  | .movsw => decide (x % 32 = 10 ∨ x % 32 = 16 ∨ x % 32 = 17)
  | .movs => decide (x % 32 ≤ 14)

def chkImm (op : Nat) (o : GOp) (u : ImmUse) : Option EncErr :=
  match u with
  | .src => causeIf op 3 (!o.readsImm && decide (o.imm ≠ 0))
  | .own bits v =>
    if o.readsImm then some ⟨4, op⟩
    else if bits ≠ 0 ∧ 2 ^ bits ≤ o.imm.toNat then some ⟨3, op⟩
    else causeIf op 2 (!immValOk v o.imm.toNat)
  | .fcvtI =>
    if 2 ≤ fcvtSrc o.mod ∧ fcvtDst o.mod < 2 then causeIf op 3 (decide (2 ≤ o.imm.toNat))
    else causeIf op 3 (!o.readsImm && decide (o.imm ≠ 0))

/-- The first ENCODING defect of a format G instruction that its fields alone show. FCVT from a 32- or 64-bit source to a 16-bit format may
read a kind-3 IMM (log 74), SCRUBQ may name a pronoun (log 75); the spec orders no two of them (log 15). -/
def chkG (op : Nat) (o : GOp) : Option EncErr :=
  match gRow op with
  | none => some ⟨1, op⟩
  | some r =>
    if !o.guard.wf then some ⟨3, op⟩
    else if !o.oneKind3 then some ⟨4, op⟩
    else
      let m := r.mod o.mod
      if m ≠ 0 then some ⟨m, op⟩
      else (chkDst op o r.dst).or <| (chkSrcIn r.imm op o r.a o.a).or <| (chkSrcIn r.imm op o r.b o.b).or <|
        (chkSrcIn r.imm op o r.c o.c).or (chkImm op o r.imm)

/-- A register source of a format J instruction whose IMM holds a field (R441 cause 4). -/
def chkField (op : Nat) (x : Src) (e : Option EncErr) : Option EncErr := if x.isImm then some ⟨4, op⟩ else e
/-- The field checks of the format J entries (R259, R260, R264, R266). SPAWN with F below 16 is a reserved value, cause 2 (log 76). -/
def chkJ (op : Nat) (o : JOp) : Option EncErr :=
  if !o.guard.wf then some ⟨3, op⟩ else
  match op with
  | 0x200 =>
    if o.dst ≠ .none then some ⟨2, op⟩ else if o.mod ≠ 0 ∨ o.imm ≠ 0 ∨ !o.a.isZero then some ⟨3, op⟩ else none
  | 0x201 =>
    if o.dst ≠ .none then some ⟨2, op⟩
    else if modBits o.mod 3 3 ≠ 0 then some ⟨3, op⟩
    else if 5 < modBits o.mod 0 3 then some ⟨2, op⟩
    else causeIf op 3 (!o.a.isImm && decide (o.imm ≠ 0))
  | 0x203 =>
    (chkDstGrp op 1 o.dst).or <| (causeIf op 2 (decide (32 < o.mod.toNat))).or <|
      (causeIf op 3 (decide (0x10000 ≤ o.imm.toNat))).or <|
      if o.mod = 0 then chkZero op o.a else chkField op o.a (causeIf op 2 (!o.a.isPlainV))
  | 0x209 =>
    (chkDstGrp op 2 o.dst).or <| (chkField op o.a (causeIf op 2 (!o.a.isPlainV))).or <|
      causeIf op 3 (decide (32 ≤ o.mod.toNat) || decide (0x10000 ≤ o.imm.toNat))
  | 0x20F =>
    (chkDstGrp op 2 o.dst).or <| (chkField op o.a (chkPair op o.a)).or <| (causeIf op 3 (decide (8 ≤ o.mod.toNat))).or <|
      causeIf op 2 (decide (o.imm.toNat % 2048 < 15))
  | _ => some ⟨1, op⟩

/-- Fields that group 7 and J sources cannot carry: a wait bit (R201, R316). -/
def Src.noWait : Src → Bool
  | .v _ w => !w
  | _ => true

/-! ### Constructors and opcodes -/

/-- The format G instruction with an opcode (R203). -/
def gInstr (op : Nat) (o : GOp) : Option Instr :=
  match op with
  | 0x000 => some (.iadd o)
  | 0x001 => some (.isub o)
  | 0x002 => some (.imul o)
  | 0x003 => some (.imulh o)
  | 0x004 => some (.imad o)
  | 0x005 => some (.imad64 o)
  | 0x006 => some (.iadd64 o)
  | 0x007 => some (.lea o)
  | 0x008 => some (.ineg o)
  | 0x009 => some (.iabs o)
  | 0x00A => some (.imin o)
  | 0x00B => some (.imax o)
  | 0x00C => some (.andb o)
  | 0x00D => some (.orb o)
  | 0x00E => some (.xorb o)
  | 0x00F => some (.andn o)
  | 0x010 => some (.notb o)
  | 0x011 => some (.shl o)
  | 0x012 => some (.shr o)
  | 0x013 => some (.sar o)
  | 0x014 => some (.funshf o)
  | 0x015 => some (.bfe o)
  | 0x016 => some (.bfi o)
  | 0x017 => some (.popc o)
  | 0x018 => some (.clz o)
  | 0x019 => some (.brev o)
  | 0x01A => some (.isetp o)
  | 0x01B => some (.isel o)
  | 0x01C => some (.mov o)
  | 0x01D => some (.movi o)
  | 0x01E => some (.movs o)
  | 0x01F => some (.idivq o)
  | 0x080 => some (.fadd o)
  | 0x081 => some (.fsub o)
  | 0x082 => some (.fmul o)
  | 0x083 => some (.ffma o)
  | 0x084 => some (.fmin o)
  | 0x085 => some (.fmax o)
  | 0x086 => some (.fminnum o)
  | 0x087 => some (.fmaxnum o)
  | 0x088 => some (.fsetp o)
  | 0x089 => some (.fclass o)
  | 0x08A => some (.frnd o)
  | 0x08B => some (.fscale o)
  | 0x08C => some (.fcpysgn o)
  | 0x08D => some (.dadd o)
  | 0x08E => some (.dmul o)
  | 0x08F => some (.dfma o)
  | 0x090 => some (.dsetp o)
  | 0x091 => some (.hadd2 o)
  | 0x092 => some (.hmul2 o)
  | 0x093 => some (.hfma2 o)
  | 0x094 => some (.badd2 o)
  | 0x095 => some (.bmul2 o)
  | 0x096 => some (.bfma2 o)
  | 0x097 => some (.fstatw o)
  | 0x100 => some (.rcp o)
  | 0x101 => some (.rsq o)
  | 0x102 => some (.sqrt o)
  | 0x103 => some (.ex2 o)
  | 0x104 => some (.lg2 o)
  | 0x105 => some (.tanh o)
  | 0x106 => some (.sinpi o)
  | 0x107 => some (.cospi o)
  | 0x108 => some (.ftoi o)
  | 0x109 => some (.itof o)
  | 0x10A => some (.fcvt o)
  | 0x180 => some (.shfl o)
  | 0x181 => some (.qswap o)
  | 0x182 => some (.qbcast o)
  | 0x183 => some (.vote o)
  | 0x184 => some (.redux o)
  | 0x185 => some (.fredux o)
  | 0x186 => some (.matchl o)
  | 0x187 => some (.cfence o)
  | 0x188 => some (.join o)
  | 0x189 => some (.leave o)
  | 0x18A => some (.waitm o)
  | 0x18B => some (.mand o)
  | 0x18C => some (.mor o)
  | 0x18D => some (.mxor o)
  | 0x18E => some (.mnot o)
  | 0x18F => some (.mrd o)
  | 0x190 => some (.mwr o)
  | 0x191 => some (.mact o)
  | 0x202 => some (.brx o)
  | 0x204 => some (.callx o)
  | 0x205 => some (.ret o)
  | 0x207 => some (.nop o)
  | 0x208 => some (.exit o)
  | 0x20A => some (.hrem o)
  | 0x20B => some (.perform o)
  | 0x20C => some (.resume o)
  | 0x20D => some (.drop o)
  | 0x20E => some (.cstat o)
  | 0x210 => some (.fget o)
  | 0x211 => some (.fpark o)
  | 0x212 => some (.fref o)
  | 0x213 => some (.funref o)
  | 0x214 => some (.fxfer o)
  | 0x215 => some (.fpin o)
  | 0x216 => some (.funpin o)
  | 0x217 => some (.fcancel o)
  | 0x280 => some (.ld o)
  | 0x281 => some (.st o)
  | 0x282 => some (.ldFrame o)
  | 0x283 => some (.stFrame o)
  | 0x284 => some (.ldc o)
  | 0x285 => some (.atom o)
  | 0x286 => some (.atom64 o)
  | 0x287 => some (.cas2 o)
  | 0x288 => some (.red o)
  | 0x289 => some (.fenceSys o)
  | 0x28A => some (.fifow o)
  | 0x28B => some (.fifor o)
  | 0x28C => some (.bankcfg o)
  | 0x28D => some (.wptr o)
  | 0x28E => some (.wpwait o)
  | 0x300 => some (.barinit o)
  | 0x301 => some (.bara o)
  | 0x302 => some (.barw o)
  | 0x303 => some (.baraw o)
  | 0x304 => some (.rwait o)
  | 0x305 => some (.rpost o)
  | 0x306 => some (.push o)
  | 0x307 => some (.timew o)
  | 0x308 => some (.srdcnt o)
  | 0x309 => some (.movsw o)
  | 0x30A => some (.scrubq o)
  | 0x30B => some (.atomx o)
  | _ => none

/-- The opcode and fields of a format G instruction. -/
def gParts (i : Instr) : Option (Nat × GOp) :=
  match i with
  | .iadd o => some (0x000, o)
  | .isub o => some (0x001, o)
  | .imul o => some (0x002, o)
  | .imulh o => some (0x003, o)
  | .imad o => some (0x004, o)
  | .imad64 o => some (0x005, o)
  | .iadd64 o => some (0x006, o)
  | .lea o => some (0x007, o)
  | .ineg o => some (0x008, o)
  | .iabs o => some (0x009, o)
  | .imin o => some (0x00A, o)
  | .imax o => some (0x00B, o)
  | .andb o => some (0x00C, o)
  | .orb o => some (0x00D, o)
  | .xorb o => some (0x00E, o)
  | .andn o => some (0x00F, o)
  | .notb o => some (0x010, o)
  | .shl o => some (0x011, o)
  | .shr o => some (0x012, o)
  | .sar o => some (0x013, o)
  | .funshf o => some (0x014, o)
  | .bfe o => some (0x015, o)
  | .bfi o => some (0x016, o)
  | .popc o => some (0x017, o)
  | .clz o => some (0x018, o)
  | .brev o => some (0x019, o)
  | .isetp o => some (0x01A, o)
  | .isel o => some (0x01B, o)
  | .mov o => some (0x01C, o)
  | .movi o => some (0x01D, o)
  | .movs o => some (0x01E, o)
  | .idivq o => some (0x01F, o)
  | .fadd o => some (0x080, o)
  | .fsub o => some (0x081, o)
  | .fmul o => some (0x082, o)
  | .ffma o => some (0x083, o)
  | .fmin o => some (0x084, o)
  | .fmax o => some (0x085, o)
  | .fminnum o => some (0x086, o)
  | .fmaxnum o => some (0x087, o)
  | .fsetp o => some (0x088, o)
  | .fclass o => some (0x089, o)
  | .frnd o => some (0x08A, o)
  | .fscale o => some (0x08B, o)
  | .fcpysgn o => some (0x08C, o)
  | .dadd o => some (0x08D, o)
  | .dmul o => some (0x08E, o)
  | .dfma o => some (0x08F, o)
  | .dsetp o => some (0x090, o)
  | .hadd2 o => some (0x091, o)
  | .hmul2 o => some (0x092, o)
  | .hfma2 o => some (0x093, o)
  | .badd2 o => some (0x094, o)
  | .bmul2 o => some (0x095, o)
  | .bfma2 o => some (0x096, o)
  | .fstatw o => some (0x097, o)
  | .rcp o => some (0x100, o)
  | .rsq o => some (0x101, o)
  | .sqrt o => some (0x102, o)
  | .ex2 o => some (0x103, o)
  | .lg2 o => some (0x104, o)
  | .tanh o => some (0x105, o)
  | .sinpi o => some (0x106, o)
  | .cospi o => some (0x107, o)
  | .ftoi o => some (0x108, o)
  | .itof o => some (0x109, o)
  | .fcvt o => some (0x10A, o)
  | .shfl o => some (0x180, o)
  | .qswap o => some (0x181, o)
  | .qbcast o => some (0x182, o)
  | .vote o => some (0x183, o)
  | .redux o => some (0x184, o)
  | .fredux o => some (0x185, o)
  | .matchl o => some (0x186, o)
  | .cfence o => some (0x187, o)
  | .join o => some (0x188, o)
  | .leave o => some (0x189, o)
  | .waitm o => some (0x18A, o)
  | .mand o => some (0x18B, o)
  | .mor o => some (0x18C, o)
  | .mxor o => some (0x18D, o)
  | .mnot o => some (0x18E, o)
  | .mrd o => some (0x18F, o)
  | .mwr o => some (0x190, o)
  | .mact o => some (0x191, o)
  | .brx o => some (0x202, o)
  | .callx o => some (0x204, o)
  | .ret o => some (0x205, o)
  | .nop o => some (0x207, o)
  | .exit o => some (0x208, o)
  | .hrem o => some (0x20A, o)
  | .perform o => some (0x20B, o)
  | .resume o => some (0x20C, o)
  | .drop o => some (0x20D, o)
  | .cstat o => some (0x20E, o)
  | .fget o => some (0x210, o)
  | .fpark o => some (0x211, o)
  | .fref o => some (0x212, o)
  | .funref o => some (0x213, o)
  | .fxfer o => some (0x214, o)
  | .fpin o => some (0x215, o)
  | .funpin o => some (0x216, o)
  | .fcancel o => some (0x217, o)
  | .ld o => some (0x280, o)
  | .st o => some (0x281, o)
  | .ldFrame o => some (0x282, o)
  | .stFrame o => some (0x283, o)
  | .ldc o => some (0x284, o)
  | .atom o => some (0x285, o)
  | .atom64 o => some (0x286, o)
  | .cas2 o => some (0x287, o)
  | .red o => some (0x288, o)
  | .fenceSys o => some (0x289, o)
  | .fifow o => some (0x28A, o)
  | .fifor o => some (0x28B, o)
  | .bankcfg o => some (0x28C, o)
  | .wptr o => some (0x28D, o)
  | .wpwait o => some (0x28E, o)
  | .barinit o => some (0x300, o)
  | .bara o => some (0x301, o)
  | .barw o => some (0x302, o)
  | .baraw o => some (0x303, o)
  | .rwait o => some (0x304, o)
  | .rpost o => some (0x305, o)
  | .push o => some (0x306, o)
  | .timew o => some (0x307, o)
  | .srdcnt o => some (0x308, o)
  | .movsw o => some (0x309, o)
  | .scrubq o => some (0x30A, o)
  | .atomx o => some (0x30B, o)
  | _ => none

/-- The format J instruction with an opcode (R203). -/
def jInstr (op : Nat) (o : JOp) : Option Instr :=
  match op with
  | 0x200 => some (.bra o)
  | 0x201 => some (.brc o)
  | 0x203 => some (.call o)
  | 0x209 => some (.hinst o)
  | 0x20F => some (.spawn o)
  | _ => none

/-- The opcode and fields of a format J instruction. -/
def jParts (i : Instr) : Option (Nat × JOp) :=
  match i with
  | .bra o => some (0x200, o)
  | .brc o => some (0x201, o)
  | .call o => some (0x203, o)
  | .hinst o => some (0x209, o)
  | .spawn o => some (0x20F, o)
  | _ => none

/-- The raw format G fields of a group 7 instruction (R316): OP, MOD, D, A field, B field, kinds of A and B, IMM. -/
structure XFields where
  op : Nat
  mod : Nat := 0
  d : Nat := 0
  a : Nat := 0
  ak : Nat := 0
  b : Nat := 0
  bk : Nat := 0
  imm : Nat := 0
  deriving DecidableEq, Repr

/-- The bits of a group 7 instruction: C, CK, DK, WB and the guard are zero (R316). -/
def XFields.encode (f : XFields) : Nat :=
  packFields [(10, f.op), (6, f.mod), (11, f.d), (2, 0), (11, f.a), (2, f.ak), (11, f.b), (2, f.bk), (11, 0), (2, 0),
    (3, 0), (3, 0), (1, 0), (1, 0), (20, f.imm)]

/-- The fields of a group 7 instruction (R316, the encodings table). XDRAIN's B holds the pitch register and its C the SAT bit;
SAT is carried here in bit 11 of `b`. -/
def xParts (i : Instr) : Option XFields :=
  match i with
  | .xclaim sl ti => some { op := 0x380, d := ti.toNat, imm := sl.toNat }
  | .xrel sl ti => some { op := 0x381, d := ti.toNat, imm := sl.toNat }
  | .xload f c s ga off gb => some { op := 0x382, mod := f.toNat + 16 * c.toNat, d := s.toNat, a := ga.toNat, b := gb.toNat, imm := off.toNat }
  | .xmma t sa sb => some { op := 0x383, d := t.toNat, a := sa.toNat, b := sb.toNat }
  | .xmmaz t sa sb => some { op := 0x384, d := t.toNat, a := sa.toNat, b := sb.toNat }
  | .xdrain f r _ t ga off gb => some { op := 0x385, mod := f.toNat + 16 * r.toNat, d := t.toNat, a := ga.toNat, b := gb.toNat, imm := off.toNat }
  | .xdraina f q s t => some { op := 0x386, mod := f.toNat + 16 * q.toNat, d := t.toNat, a := s.toNat }
  | .xsub f st b c w => some { op := 0x387, mod := f.toNat, imm := packFields [(3, st.toNat), (4, b.toNat), (5, c.toNat), (5, w.toNat)] }
  | .xunsub st => some { op := 0x388, imm := st.toNat }
  | .xbara n => some { op := 0x389, imm := n.toNat }
  | .xbarw n => some { op := 0x38A, imm := n.toNat }
  | .xloop l ts off => some { op := 0x38B, d := l.toNat, imm := ts.toNat + 8 * off.toNat }
  | .xjmp ts off => some { op := 0x38C, imm := ts.toNat + 8 * off.toNat }
  | .xset d a imm => some { op := 0x38D, d := d.toNat, a := (Src.fields a).1, ak := (Src.fields a).2.1, imm := imm.toNat }
  | .xaddg d ga b imm => some { op := 0x38E, d := d.toNat, a := ga.toNat, b := (Src.fields b).1, bk := (Src.fields b).2.1, imm := imm.toNat }
  | .xstop => some { op := 0x38F }
  | .xnop => some { op := 0x390 }
  | .xwaits st => some { op := 0x391, imm := st.toNat }
  | _ => none

/-- XDRAIN's SAT bit, the C field (R316). -/
def xSat (i : Instr) : Nat :=
  match i with
  | .xdrain _ _ sat _ _ _ _ => sat.toNat
  | _ => 0

/-- A reserved value of a group 7 field (cause 2) (R316, R328, R339). -/
def chkX (i : Instr) : Option EncErr :=
  let fmt28 (f : BitVec 4) (op : Nat) := causeIf op 2 (decide (f.toNat < 2 ∨ 8 < f.toNat))
  match i with
  | .xload f _ _ _ _ _ => fmt28 f 0x382
  | .xdrain f r sat _ _ _ _ =>
    causeIf 0x385 2 (decide (f.toNat < 1 ∨ 8 < f.toNat ∨ r.toNat = 3) || (sat && f == 1))
  | .xdraina f _ _ _ => fmt28 f 0x386
  | .xsub f _ _ c w => (fmt28 f 0x387).or (causeIf 0x387 2 (decide (c.toNat = 0 ∨ 16 < c.toNat ∨ w.toNat = 0 ∨ 16 < w.toNat)))
  | .xset d a imm =>
    (causeIf 0x38D 2 (decide (4 ≤ d.toNat ∧ d.toNat < 8))).or <| (causeIf 0x38D 2 (a.isV || match a with | .p _ => true | _ => false)).or <|
      (if 8 ≤ d.toNat then chk64 0x38D a else none).or (causeIf 0x38D 3 (!a.isImm && decide (imm ≠ 0)))
  | .xaddg _ _ b imm =>
    (causeIf 0x38E 2 (b.isV || match b with | .p _ => true | _ => false)).or <|
      (chk64 0x38E b).or (causeIf 0x38E 3 (!b.isImm && decide (imm ≠ 0)))
  | _ => none

/-! ### Dyzil words (R346) -/

/-- OP, A, B, IMM of a Dyzil word. -/
def dyWidths : List Nat := [8, 4, 4, 16]

/-- OP, A, B and IMM of a Dyzil instruction (R346, the operations table). -/
def dyParts (i : Instr) : Option (Nat × Nat × Nat × Nat) :=
  match i with
  | .dyzilLdp a w => some (0x01, a.toNat, 0, w.toNat)
  | .dyzilLds a w => some (0x02, a.toNat, 0, w.toNat)
  | .dyzilSts w b => some (0x03, 0, b.toNat, w.toNat)
  | .dyzilLdq a f => some (0x04, a.toNat, 0, f.toNat)
  | .dyzilMovi a x => some (0x05, a.toNat, 0, x.toNat)
  | .dyzilAdd a b => some (0x06, a.toNat, b.toNat, 0)
  | .dyzilAddi a x => some (0x07, a.toNat, 0, x.toNat)
  | .dyzilSub a b => some (0x08, a.toNat, b.toNat, 0)
  | .dyzilAnd a b => some (0x09, a.toNat, b.toNat, 0)
  | .dyzilOr a b => some (0x0A, a.toNat, b.toNat, 0)
  | .dyzilShl a n => some (0x0B, a.toNat, 0, n.toNat)
  | .dyzilShr a n => some (0x0C, a.toNat, 0, n.toNat)
  | .dyzilExt a b p l => some (0x0D, a.toNat, b.toNat, p.toNat + 64 * l.toNat)
  | .dyzilJmp k => some (0x10, 0, 0, k.toNat)
  | .dyzilBeq a b k => some (0x11, a.toNat, b.toNat, k.toNat)
  | .dyzilBne a b k => some (0x12, a.toNat, b.toNat, k.toNat)
  | .dyzilBltu a b k => some (0x13, a.toNat, b.toNat, k.toNat)
  | .dyzilLoop c n => some (0x14, 0, 0, c.toNat + 128 * n.toNat)
  | .dyzilLaunch a t => some (0x20, a.toNat, 0, t.toNat)
  | .dyzilRec t => some (0x21, 0, 0, t.toNat)
  | .dyzilSignal a b m => some (0x22, a.toNat, b.toNat, m.toNat)
  | .dyzilWaitv a b c => some (0x23, a.toNat, b.toNat, c.toNat)
  | .dyzilCancel a => some (0x24, a.toNat, 0, 0)
  | .dyzilErr c => some (0x25, 0, 0, c.toNat)
  | .dyzilDone => some (0x26, 0, 0, 0)
  | _ => none

/-- The ranges of immediates that R346 gives and R347 requires of an accepted program. -/
def dyInRange (i : Instr) : Bool :=
  match i with
  | .dyzilLdp _ w => decide (w.toNat ≤ 7)
  | .dyzilLds _ w => decide (w.toNat ≤ 31)
  | .dyzilSts w _ => decide (w.toNat ≤ 31)
  | .dyzilLdq _ f => decide (f.toNat ≤ 7)
  | .dyzilExt _ _ _ l => decide (1 ≤ l.toNat ∧ l.toNat ≤ 64)
  | .dyzilLoop c n => decide (1 ≤ c.toNat ∧ c.toNat ≤ 64 ∧ 1 ≤ n.toNat)
  | .dyzilLaunch _ t => decide (t.toNat ≤ 15)
  | .dyzilRec t => decide (t.toNat ≤ 15)
  | .dyzilSignal _ _ m => decide (m.toNat ≤ 1)
  | .dyzilWaitv _ _ c => decide (c.toNat ≤ 3)
  | .dyzilErr c => decide (1 ≤ c.toNat ∧ c.toNat ≤ 0x7FFF)
  | _ => true

end Sys2Proof
end

