-- ==== Sys2Proof/WellFormed.lean ====
section
/-! DEFINITION. Which instructions are well formed: every field check that an encoding alone can break (R197, R242, R272, R311,
R316), and for Dyzil the ranges that R347 requires of an accepted program. An event carries no encoding and is always well formed. -/

namespace Sys2Proof

/-- The field checks of the spec hold of an instruction. -/
def Instr.wellFormed (i : Instr) : Bool :=
  match gParts i with
  | some (op, o) => (chkG op o).isNone
  | none =>
    match jParts i with
    | some (op, o) => (chkJ op o).isNone && o.a.noWait
    | none => (chkX i).isNone && dyInRange i

end Sys2Proof
end

