-- ==== Sys2Proof/Decode.lean ====
section
/-! DEFINITION. The decoder, total on any bits, and after it the encoder, both from the encoding tables of the spec:
a 96-bit slot of Yilore (R186, R195, R201, R202, R203, R316) and a 32-bit Dyzil word (R346). -/

namespace Sys2Proof

/-! ### Group 7 (R316) -/

/-- The group 7 instruction that a slot's fields name, before the zero fields are checked. -/
def xCandidate (x : Nat) : Option Instr :=
  match unpackFields gWidths x with
  | [op, m, d, _, a, ak, b, bk, c, _, _, _, _, _, imm] =>
    let f4 := BitVec.ofNat 4 m
    match op with
    | 0x380 => some (.xclaim (BitVec.ofNat 16 imm) (BitVec.ofNat 8 d))
    | 0x381 => some (.xrel (BitVec.ofNat 16 imm) (BitVec.ofNat 8 d))
    | 0x382 => some (.xload f4 (m / 16 % 2 == 1) (BitVec.ofNat 4 d) (BitVec.ofNat 3 a) (BitVec.ofNat 20 imm) (BitVec.ofNat 3 b))
    | 0x383 => some (.xmma (BitVec.ofNat 3 d) (BitVec.ofNat 4 a) (BitVec.ofNat 4 b))
    | 0x384 => some (.xmmaz (BitVec.ofNat 3 d) (BitVec.ofNat 4 a) (BitVec.ofNat 4 b))
    | 0x385 => some (.xdrain f4 (BitVec.ofNat 2 (m / 16)) (c % 2 == 1) (BitVec.ofNat 3 d) (BitVec.ofNat 3 a) (BitVec.ofNat 20 imm) (BitVec.ofNat 3 b))
    | 0x386 => some (.xdraina f4 (BitVec.ofNat 2 (m / 16)) (BitVec.ofNat 4 a) (BitVec.ofNat 3 d))
    | 0x387 => some (.xsub f4 (BitVec.ofNat 3 imm) (BitVec.ofNat 4 (imm / 8)) (BitVec.ofNat 5 (imm / 128)) (BitVec.ofNat 5 (imm / 4096)))
    | 0x388 => some (.xunsub (BitVec.ofNat 3 imm))
    | 0x389 => some (.xbara (BitVec.ofNat 4 imm))
    | 0x38A => some (.xbarw (BitVec.ofNat 4 imm))
    | 0x38B => some (.xloop (BitVec.ofNat 2 d) (BitVec.ofNat 3 imm) (BitVec.ofNat 17 (imm / 8)))
    | 0x38C => some (.xjmp (BitVec.ofNat 3 imm) (BitVec.ofNat 17 (imm / 8)))
    | 0x38D => (Src.ofFields a ak 0).map fun s => .xset (BitVec.ofNat 4 d) s (BitVec.ofNat 20 imm)
    | 0x38E => (Src.ofFields b bk 0).map fun s => .xaddg (BitVec.ofNat 3 d) (BitVec.ofNat 3 a) s (BitVec.ofNat 20 imm)
    | 0x38F => some .xstop
    | 0x390 => some .xnop
    | 0x391 => some (.xwaits (BitVec.ofNat 3 imm))
    | _ => none
  | _ => none

/-- The bits of a group 7 instruction (R316). -/
def encodeX (i : Instr) : Option Nat :=
  (xParts i).map fun f =>
    packFields [(10, f.op), (6, f.mod), (11, f.d), (2, 0), (11, f.a), (2, f.ak), (11, f.b), (2, f.bk), (11, xSat i), (2, 0),
      (3, 0), (3, 0), (1, 0), (1, 0), (20, f.imm)]

/-- Decoding of a group 7 slot: unassigned code cause 1, a nonzero zero field cause 3, a reserved value cause 2 (R339). -/
def decodeX (x : Nat) : Except EncErr Instr :=
  let op := x % 1024
  if op < 0x380 ∨ 0x391 < op then .error ⟨1, op⟩
  else match xCandidate x with
    | none => .error ⟨3, op⟩
    | some i =>
      if encodeX i ≠ some x then .error ⟨3, op⟩
      else match chkX i with
        | some e => .error e
        | none => .ok i

/-! ### Yilore slots -/

/-- Decoding of the 96 bits of an instruction slot, numbered from bit 0 (R186, R195). Register numbers are checked against the
frame at issue (R200), literal references against their line (R199). -/
def decodeSlot (x : Nat) : Except EncErr Instr :=
  let op := x % 1024
  if op = 0x206 then (SOp.ofBits x).map .stop
  else if op ∈ [0x200, 0x201, 0x203, 0x209, 0x20F] then
    match JOp.ofBits x with
    | none => .error ⟨3, op⟩
    | some o =>
      match chkJ op o with
      | some e => .error e
      | none => match jInstr op o with
        | some i => .ok i
        | none => .error ⟨1, op⟩
  else if 0x380 ≤ op then decodeX x
  else if (gRow op).isNone then .error ⟨1, op⟩
  else
    match GOp.ofBits x with
    | none => .error ⟨3, op⟩
    | some o =>
      match chkG op o with
      | some e => .error e
      | none => match gInstr op o with
        | some i => .ok i
        | none => .error ⟨1, op⟩

/-- The 96 bits of a Yilore instruction; none for a Dyzil operation or an event. -/
def encodeSlot (i : Instr) : Option Nat :=
  match gParts i with
  | some (op, o) => some (GOp.encode op o)
  | none =>
    match jParts i with
    | some (op, o) => some (JOp.encode op o)
    | none =>
      match i with
      | .stop o => some (SOp.encode o)
      | _ => encodeX i

/-! ### Dyzil words -/

/-- The Dyzil operation that a word's fields name, before the zero fields are checked (R346). -/
def dyCandidate (w : Nat) : Option Instr :=
  match unpackFields dyWidths w with
  | [op, a, b, imm] =>
    let ra := BitVec.ofNat 4 a
    let rb := BitVec.ofNat 4 b
    let x := BitVec.ofNat 16 imm
    match op with
    | 0x01 => some (.dyzilLdp ra x)
    | 0x02 => some (.dyzilLds ra x)
    | 0x03 => some (.dyzilSts x rb)
    | 0x04 => some (.dyzilLdq ra x)
    | 0x05 => some (.dyzilMovi ra x)
    | 0x06 => some (.dyzilAdd ra rb)
    | 0x07 => some (.dyzilAddi ra x)
    | 0x08 => some (.dyzilSub ra rb)
    | 0x09 => some (.dyzilAnd ra rb)
    | 0x0A => some (.dyzilOr ra rb)
    | 0x0B => some (.dyzilShl ra (BitVec.ofNat 6 imm))
    | 0x0C => some (.dyzilShr ra (BitVec.ofNat 6 imm))
    | 0x0D => some (.dyzilExt ra rb (BitVec.ofNat 6 imm) (BitVec.ofNat 7 (imm / 64)))
    | 0x10 => some (.dyzilJmp x)
    | 0x11 => some (.dyzilBeq ra rb x)
    | 0x12 => some (.dyzilBne ra rb x)
    | 0x13 => some (.dyzilBltu ra rb x)
    | 0x14 => some (.dyzilLoop (BitVec.ofNat 7 imm) (BitVec.ofNat 9 (imm / 128)))
    | 0x20 => some (.dyzilLaunch ra x)
    | 0x21 => some (.dyzilRec x)
    | 0x22 => some (.dyzilSignal ra rb x)
    | 0x23 => some (.dyzilWaitv ra rb x)
    | 0x24 => some (.dyzilCancel ra)
    | 0x25 => some (.dyzilErr x)
    | 0x26 => some .dyzilDone
    | _ => none
  | _ => none

/-- The 32-bit word of a Dyzil operation (R346). -/
def encodeDyzil (i : Instr) : Option Nat :=
  (dyParts i).map fun (op, a, b, imm) => packFields [(8, op), (4, a), (4, b), (16, imm)]

/-- Decoding of a Dyzil word: OP must be in the table and every unused field zero (R346, R347). -/
def decodeDyzil (w : Nat) : Option Instr :=
  match dyCandidate w with
  | none => none
  | some i => if encodeDyzil i = some w then some i else none

/-- The word or slot of an instruction: 32 bits for Dyzil, 96 for Yilore; none for an event. -/
def encode (i : Instr) : Option Nat := (encodeDyzil i).or (encodeSlot i)

/-- The instruction an opcode-table row's bits decode to: a Dyzil word of 32 bits, or a Yilore slot of up to 96 bits. -/
def decodeTableWord (nbits w : Nat) : Option Instr :=
  if nbits ≤ 32 then decodeDyzil w
  else if nbits ≤ 96 then (decodeSlot w).toOption
  else none

end Sys2Proof
end

