-- ==== Sys2Proof/Machine/Crypto.lean ====
section
/-! DEFINITION. The algorithms that the memory keys, the access log and attestation name (R413, R414, R417, R418), as their standards define them
(log 64): SHA-256, AES-256 with XTS, CMAC and key wrapping. Byte strings are lists, first byte first. -/

namespace Sys2Proof.Machine

/-- The bytes of a list taken n at a time. -/
def chunks {α : Type} (n : Nat) : Nat → List α → List (List α)
  | 0, _ => []
  | k + 1, l => l.take n :: chunks n k (l.drop n)
/-- A number as n bytes, most significant first, and back. -/
def beBytes (n v : Nat) : List Byte := (List.range n).map (fun i => BitVec.ofNat 8 (v / 256 ^ (n - 1 - i)))
def ofBeBytes (l : List Byte) : Nat := l.foldl (fun v b => v * 256 + b.toNat) 0
/-- Bytes combined by exclusive or. -/
def xorBytes (a b : List Byte) : List Byte := List.zipWith (· ^^^ ·) a b

/-! ### SHA-256 (R417, R418) -/

def shaK : List Word :=
  [0x428a2f98, 0x71374491, 0xb5c0fbcf, 0xe9b5dba5, 0x3956c25b, 0x59f111f1, 0x923f82a4, 0xab1c5ed5,
   0xd807aa98, 0x12835b01, 0x243185be, 0x550c7dc3, 0x72be5d74, 0x80deb1fe, 0x9bdc06a7, 0xc19bf174,
   0xe49b69c1, 0xefbe4786, 0x0fc19dc6, 0x240ca1cc, 0x2de92c6f, 0x4a7484aa, 0x5cb0a9dc, 0x76f988da] ++
  [0x983e5152, 0xa831c66d, 0xb00327c8, 0xbf597fc7, 0xc6e00bf3, 0xd5a79147, 0x06ca6351, 0x14292967,
   0x27b70a85, 0x2e1b2138, 0x4d2c6dfc, 0x53380d13, 0x650a7354, 0x766a0abb, 0x81c2c92e, 0x92722c85] ++
  [0xa2bfe8a1, 0xa81a664b, 0xc24b8b70, 0xc76c51a3, 0xd192e819, 0xd6990624, 0xf40e3585, 0x106aa070,
   0x19a4c116, 0x1e376c08, 0x2748774c, 0x34b0bcb5, 0x391c0cb3, 0x4ed8aa4a, 0x5b9cca4f, 0x682e6ff3,
   0x748f82ee, 0x78a5636f, 0x84c87814, 0x8cc70208, 0x90befffa, 0xa4506ceb, 0xbef9a3f7, 0xc67178f2]
def shaInit : List Word := [0x6a09e667, 0xbb67ae85, 0x3c6ef372, 0xa54ff53a, 0x510e527f, 0x9b05688c, 0x1f83d9ab, 0x5be0cd19]
/-- The message schedule from its last sixteen words on, newest last. -/
def shaNext (w : List Word) : Word :=
  let x (i : Nat) : Word := w.getD i 0
  let s0 := (x 1).rotateRight 7 ^^^ (x 1).rotateRight 18 ^^^ (x 1 >>> 3)
  let s1 := (x 14).rotateRight 17 ^^^ (x 14).rotateRight 19 ^^^ (x 14 >>> 10)
  x 0 + s0 + x 9 + s1
/-- One round on the eight working words. -/
def shaRound (v : List Word) (k w : Word) : List Word :=
  let x (i : Nat) : Word := v.getD i 0
  let t1 := x 7 + ((x 4).rotateRight 6 ^^^ (x 4).rotateRight 11 ^^^ (x 4).rotateRight 25) + ((x 4 &&& x 5) ^^^ (~~~(x 4) &&& x 6)) + k + w
  let t2 := ((x 0).rotateRight 2 ^^^ (x 0).rotateRight 13 ^^^ (x 0).rotateRight 22) + ((x 0 &&& x 1) ^^^ (x 0 &&& x 2) ^^^ (x 1 &&& x 2))
  [t1 + t2, x 0, x 1, x 2, x 3 + t1, x 4, x 5, x 6]
/-- The rounds of one block, with the sixteen words of the schedule that come next. -/
def shaRounds : List Word → List Word → List Word → List Word
  | [], _, v => v
  | k :: r, w, v => shaRounds r (w.drop 1 ++ [shaNext w]) (shaRound v k (w.getD 0 0))
def shaBlock (h : List Word) (b : List Byte) : List Word :=
  List.zipWith (· + ·) h (shaRounds shaK ((chunks 4 16 b).map (fun x => BitVec.ofNat 32 (ofBeBytes x))) h)
/-- The 32 bytes of the digest. -/
def shaDigest (m : List Byte) : List Byte :=
  let p := m ++ [0x80#8] ++ List.replicate ((119 - m.length % 64) % 64) 0#8 ++ beBytes 8 (8 * m.length)
  ((chunks 64 (p.length / 64) p).foldl shaBlock shaInit).flatMap (fun x => beBytes 4 x.toNat)
/-- The digest as a field, its first byte lowest (log 64). -/
def sha256 (m : List Byte) : BitVec 256 := BitVec.ofNat 256 (ofBeBytes (shaDigest m).reverse)

/-! ### AES-256 (R413, R414) -/

/-- The product in the field of AES. -/
def gfMul (a b : Byte) : Byte := ((List.range 8).foldl (fun (x : Byte × Byte) i =>
  (if b.getLsbD i then x.1 ^^^ x.2 else x.1, if x.2.getLsbD 7 then (x.2 <<< 1) ^^^ 0x1B#8 else x.2 <<< 1)) (0#8, a)).1
/-- The inverse in the field of AES, 0 for 0. -/
def gfInv (a : Byte) : Byte := ((List.range 7).foldl (fun (x : Byte × Byte) _ => let y := gfMul x.2 x.2; (gfMul x.1 y, y)) (1#8, a)).1
def aesSub (a : Byte) : Byte :=
  let b := gfInv a
  b ^^^ b.rotateLeft 1 ^^^ b.rotateLeft 2 ^^^ b.rotateLeft 3 ^^^ b.rotateLeft 4 ^^^ 0x63#8
def aesUnsub (a : Byte) : Byte := gfInv (a.rotateLeft 1 ^^^ a.rotateLeft 3 ^^^ a.rotateLeft 6 ^^^ 0x05#8)
/-- The words of the key schedule from the last eight on: the next one is word i. -/
def aesWords : Nat → Nat → List (List Byte) → List (List Byte)
  | 0, _, _ => []
  | k + 1, i, w =>
    let t := w.getD 7 []
    let u := if i % 8 = 0 then
        xorBytes ((t.drop 1 ++ t.take 1).map aesSub) [(List.range (i / 8 - 1)).foldl (fun (x : Byte) _ => gfMul x 2) 1, 0, 0, 0]
      else if i % 8 = 4 then t.map aesSub else t
    let n := xorBytes (w.getD 0 []) u
    n :: aesWords k (i + 1) (w.drop 1 ++ [n])
/-- The fifteen round keys of a 32-byte key. -/
def aesKeys (key : List Byte) : List (List Byte) :=
  let w := chunks 4 8 key
  (chunks 4 15 (w ++ aesWords 52 8 w)).map List.flatten
/-- Rows shifted: byte 4c + r comes from column c + m · r. -/
def aesShift (m : Nat) (x : List Byte) : List Byte := (List.range 16).map (fun i => x.getD (4 * ((i / 4 + m * (i % 4)) % 4) + i % 4) 0)
/-- Columns multiplied by a circulant of four bytes. -/
def aesMix (c : List Byte) (x : List Byte) : List Byte := (List.range 16).map (fun i =>
  (List.range 4).foldl (fun (t : Byte) j => t ^^^ gfMul (c.getD ((j + 4 - i % 4) % 4) 0) (x.getD (4 * (i / 4) + j) 0)) 0)
/-- One block enciphered, and deciphered. -/
def aesEncrypt (key x : List Byte) : List Byte :=
  let ks := aesKeys key
  let y := ((ks.drop 1).take 13).foldl (fun (y : List Byte) k => xorBytes (aesMix [2, 3, 1, 1] (aesShift 1 (y.map aesSub))) k) (xorBytes x (ks.getD 0 []))
  xorBytes (aesShift 1 (y.map aesSub)) (ks.getD 14 [])
def aesDecrypt (key x : List Byte) : List Byte :=
  let ks := aesKeys key
  let y := ((ks.drop 1).take 13).reverse.foldl (fun (y : List Byte) k => aesMix [14, 11, 13, 9] (xorBytes ((aesShift 3 y).map aesUnsub) k))
    (xorBytes x (ks.getD 14 []))
  xorBytes ((aesShift 3 y).map aesUnsub) (ks.getD 0 [])
/-- A key of 256 bits as its bytes. -/
def keyBytes (k : BitVec 256) : List Byte := (List.range 32).map (fun i => k.extractLsb' (8 * i) 8)
/-- A block multiplied by α as XTS counts bits (the first byte lowest), and as CMAC does (the first byte highest). -/
def xtsNext (t : List Byte) : List Byte :=
  let v := ofBeBytes t.reverse
  (beBytes 16 (if v < 2 ^ 127 then 2 * v else (2 * v % 2 ^ 128) ^^^ 0x87)).reverse
def cmacNext (t : List Byte) : List Byte :=
  let v := ofBeBytes t
  beBytes 16 (if v < 2 ^ 127 then 2 * v else (2 * v % 2 ^ 128) ^^^ 0x87)
/-- The blocks of a data unit, each with its tweak. -/
def xtsBlocks (f : List Byte → List Byte) : List (List Byte) → List Byte → List Byte
  | [], _ => []
  | b :: r, t => xorBytes (f (xorBytes b t)) t ++ xtsBlocks f r (xtsNext t)
/-- AES-256-XTS of a 128-byte line whose address has bits [51:7] = n (R413). -/
def xtsEncrypt (k1 k2 : BitVec 256) (n : Nat) (line : List Byte) : List Byte :=
  xtsBlocks (aesEncrypt (keyBytes k1)) (chunks 16 8 line) (aesEncrypt (keyBytes k2) (beBytes 16 n).reverse)
def xtsDecrypt (k1 k2 : BitVec 256) (n : Nat) (line : List Byte) : List Byte :=
  xtsBlocks (aesDecrypt (keyBytes k1)) (chunks 16 8 line) (aesEncrypt (keyBytes k2) (beBytes 16 n).reverse)
/-- AES-CMAC of a message that is not empty. -/
def cmac (key : BitVec 256) (m : List Byte) : List Byte :=
  let k := keyBytes key
  let k1 := cmacNext (aesEncrypt k (List.replicate 16 0))
  let bs := chunks 16 ((m.length + 15) / 16) m
  let x := bs.dropLast.foldl (fun (x b : List Byte) => aesEncrypt k (xorBytes x b)) (List.replicate 16 0)
  let z := bs.getLastD []
  aesEncrypt k (xorBytes x (if z.length = 16 then xorBytes z k1 else xorBytes (z ++ 0x80#8 :: List.replicate (15 - z.length) 0#8) (cmacNext k1)))
/-- One step of the unwrapping of twelve 64-bit blocks (AES-KW): step t, from 72 down. -/
def kwStep (key : List Byte) (x : List Byte × List (List Byte)) (t : Nat) : List Byte × List (List Byte) :=
  let i := (t - 1) % 12
  let b := aesDecrypt key (xorBytes x.1 (beBytes 8 t) ++ x.2.getD i [])
  (b.take 8, x.2.set i (b.drop 8))
/-- The 96 bytes that 104 wrapped bytes hold under a key-encryption key, when its integrity check holds (R414). -/
def unwrapKeys (kek : BitVec 256) (w : List Byte) : Option (List Byte) :=
  let r := ((List.range 72).map (fun i => 72 - i)).foldl (kwStep (keyBytes kek)) (w.take 8, chunks 8 12 (w.drop 8))
  if w.length = 104 ∧ r.1 = List.replicate 8 0xA6#8 then some r.2.flatten else none
/-- 32 bytes as a key, the first lowest. -/
def keyOf (b : List Byte) : BitVec 256 := BitVec.ofNat 256 (ofBeBytes b.reverse)
/-- The one-step key derivation over a shared secret and a nonce (R414): SHA-256 of the counter 1, the secret and the nonce. -/
def deriveKek (secret : List Byte) (nonce : BitVec 256) : BitVec 256 := keyOf (shaDigest (beBytes 4 1 ++ secret ++ keyBytes nonce))

/-! ### ECDH on P-384 (R414) -/

def p384 : Nat := 2 ^ 384 - 2 ^ 128 - 2 ^ 96 + 2 ^ 32 - 1
/-- a to the power e modulo the prime, by the n low bits of e. -/
def powP : Nat → Nat → Nat → Nat
  | 0, _, _ => 1
  | n + 1, a, e => let r := powP n (a * a % p384) (e / 2); if e % 2 = 1 then a * r % p384 else r
/-- A sum of points in affine form, none for the point at infinity. -/
def ecAdd (x y : Option (Nat × Nat)) : Option (Nat × Nat) :=
  match x, y with
  | none, q => q
  | q, none => q
  | some (a, b), some (c, d) =>
    if a = c ∧ (b + d) % p384 = 0 then none
    else
      let l := if a = c then (3 * a * a + (p384 - 3)) * powP 384 (2 * b) (p384 - 2) % p384 else (d + p384 - b) * powP 384 (c + p384 - a) (p384 - 2) % p384
      let e := (l * l + 2 * p384 - a - c) % p384
      some (e, (l * (a + p384 - e) + p384 - b) % p384)
/-- A multiple of a point, by the n low bits of k. -/
def ecMul : Nat → Nat → Option (Nat × Nat) → Option (Nat × Nat)
  | 0, _, _ => none
  | n + 1, k, q => let r := ecMul n (k / 2) (ecAdd q q); if k % 2 = 1 then ecAdd q r else r
/-- The base point. -/
def ecBase : Option (Nat × Nat) :=
  some (0xaa87ca22be8b05378eb1c71ef320ad746e1d3b628ba79b9859f741e082542a385502f25dbf55296c3a545e3872760ab7,
    0x3617de4a96262c6f5d9e98bf9292dc29f8f41dbd289a147ce9da3113b5f0b8c00a60b1ce1d7e819d7a431d7c90ea0e5f)
/-- Whether 96 bytes (x and y, most significant first) are a point of the curve, and which. -/
def ecPoint (b : List Byte) : Option (Nat × Nat) :=
  let x := ofBeBytes (b.take 48)
  let y := ofBeBytes (b.drop 48)
  if b.length = 96 ∧ x < p384 ∧ y < p384 ∧ (y * y) % p384 =
      (x * x * x + (p384 - 3) * x + 0xb3312fa7e23ee7e4988e056be3f82d19181d9c6efe8141120314088f5013875ac656398d8a2ed19d2a85c8edd3ec2aef) % p384
    then some (x, y) else none
/-- The public key of a private one, as 96 bytes. -/
def ecPublic (k : Nat) : List Byte := match ecMul 384 k ecBase with
  | some (x, y) => beBytes 48 x ++ beBytes 48 y
  | none => []
/-- The shared secret of a private key and a peer's public key, if that is a point of the curve. -/
def ecShared (k : Nat) (pub : List Byte) : Option (List Byte) := (ecMul 384 k (ecPoint pub)).map (fun q => beBytes 48 q.1)

end Sys2Proof.Machine
end

