-- ==== Sys2Proof/Machine/Regs.lean ====
section
/-! DEFINITION. Registers, fibres, crews and the other tables of the state: the one place each is read and written. -/

namespace Sys2Proof.Machine

/-! ### Frames (R67, R68, R71) -/

/-- A frame of no fibre, for totality. -/
def Frame.none : Frame :=
  { addr := 0, seed := 0, retpc := 0, f := 1, l := 0, handler := false, pinned := false, delim := false, bottom := false, entry := false, htag := 0,
    hmask := 0, hslot := 0, hline := 0, hbase := 0, owned := [], regs := [], empties := [], owed := [], locals := [] }

/-- v_n of a frame; one never written holds undefined contents (R68). -/
def Frame.reg (fr : Frame) (n : Nat) : Word := (Tab.get fr.regs n).getD (Config.undefWord fr.seed n)
/-- The full bit of v_n (R67). -/
def Frame.full (fr : Frame) (n : Nat) : Bool := !fr.empties.contains n
/-- Writes v_n and sets its full bit, indivisibly (R71). -/
def Frame.setReg (fr : Frame) (n : Nat) (x : Word) : Frame :=
  { fr with regs := Tab.set fr.regs n x, empties := fr.empties.filter (· != n), owed := fr.owed.filter (· != n) }
/-- Clears the full bit of v_n, for a fill that comes. -/
def Frame.markEmpty (fr : Frame) (n : Nat) : Frame :=
  { fr with empties := n :: fr.empties.filter (· != n), owed := fr.owed.filter (· != n) }
/-- Clears the full bit of a RESUME's vD: no fill is pending there, and the return of the resumed frame writes it (R82 step 7). -/
def Frame.markOwed (fr : Frame) (n : Nat) : Frame :=
  { fr with empties := n :: fr.empties.filter (· != n), owed := n :: fr.owed }
/-- Whether v_n is empty and its fill pending: what a write of v_n waits for (R51). -/
def Frame.pending (fr : Frame) (n : Nat) : Bool := fr.empties.contains n && !fr.owed.contains n
/-- Writes consecutive registers. -/
def Frame.setRegs (fr : Frame) (n : Nat) : List Word → Frame
  | [] => fr
  | x :: r => Frame.setRegs (fr.setReg n x) (n + 1) r
/-- Local byte i; one never written holds undefined contents (R67). -/
def Frame.byte (fr : Frame) (i : Nat) : Byte := (Tab.get fr.locals i).getD (Config.undefByte fr.seed i)
def Frame.setBytes (fr : Frame) (i : Nat) : List Byte → Frame
  | [] => fr
  | b :: r => Frame.setBytes { fr with locals := Tab.set fr.locals i b } (i + 1) r
/-- Total size of a frame of F registers and L · 32 local bytes (R67). -/
def frameSize (f l : Nat) : Nat := 64 + 32 * ceilDiv f 256 + 32 * ceilDiv f 8 + 32 * l
/-- SEGEND: HANDLER, or the delimiter of a RESUME (R69). -/
def Frame.segend (fr : Frame) : Bool := fr.handler || fr.delim
/-- A new frame: bitmap all ones, registers undefined contents, header fields 0 (R68, R69). -/
def Frame.fresh (addr seed f l : Nat) (retpc : DWord) : Frame :=
  { Frame.none with addr := addr, seed := seed, f := f, l := l, retpc := retpc }

/-! ### Fibres -/

/-- The top frame (TOPFRAME, R66). -/
def Fibre.top (f : Fibre) : Frame := f.chain.headD Frame.none
def Fibre.setTop (f : Fibre) (fr : Frame) : Fibre := { f with chain := fr :: f.chain.drop 1 }
def Fibre.reg (f : Fibre) (n : Nat) : Word := f.top.reg n
def Fibre.full (f : Fibre) (n : Nat) : Bool := f.top.full n
/-- Writes v_n of the top frame, full. -/
def Fibre.setReg (f : Fibre) (n : Nat) (x : Word) : Fibre := f.setTop (f.top.setReg n x)
def Fibre.setRegs (f : Fibre) (n : Nat) (xs : List Word) : Fibre := f.setTop (f.top.setRegs n xs)
/-- Marks k registers from v_n empty. -/
def Fibre.markEmpty (f : Fibre) (n : Nat) : Nat → Fibre
  | 0 => f
  | k + 1 => (Fibre.markEmpty f n k).setTop ((Fibre.markEmpty f n k).top.markEmpty (n + k))
/-- q_n (R7, R66). -/
def Fibre.pred (f : Fibre) (n : BitVec 3) : Bool := f.qbits.getLsbD n.toNat
def Fibre.setPred (f : Fibre) (n : BitVec 3) (b : Bool) : Fibre :=
  { f with qbits := if b then f.qbits ||| (1#8 <<< n.toNat) else f.qbits &&& ~~~(1#8 <<< n.toNat) }
/-- p_n; one not written in this sentence reads 0 (R442). -/
def Fibre.pron (f : Fibre) (n : BitVec 4) : Word := (Tab.get f.prons n.toNat).getD 0
def Fibre.setPron (f : Fibre) (n : BitVec 4) (x : Word) : Fibre := { f with prons := Tab.set f.prons n.toNat x }
/-- Whether a guard passes (R197). -/
def Fibre.guard (f : Fibre) (g : Guard) : Bool := !g.en || (f.pred g.q != g.neg)
/-- SetReg (R206): writes a 32-bit result to the destination by its kind; a predicate takes bit 0. -/
def Fibre.setDst (f : Fibre) (d : Dst) (x : Word) : Fibre :=
  match d with
  | .v n => f.setReg n.toNat x
  | .p n => f.setPron n x
  | .q n => f.setPred n (x.getLsbD 0)
  | .none => f
/-- Writes a 64-bit result to an even pair (R7). -/
def Fibre.setPair (f : Fibre) (n : Nat) (x : DWord) : Fibre := f.setRegs n [loWord x, hiWord x]
/-- The frame at an address of the chain. -/
def Fibre.frameAt (f : Fibre) (a : Nat) : Option Frame := f.chain.find? (·.addr == a)
/-- Replaces the frame at its address. -/
def Fibre.putFrame (f : Fibre) (fr : Frame) : Fibre :=
  { f with chain := f.chain.map (fun x => if x.addr == fr.addr then fr else x) }
/-- The future's fibre of a cell (R90): FID of 0x8000_0000 or above, not a helper lane. -/
def Fibre.isFuture (f : Fibre) : Bool := !f.helper && decide (0x80000000 ≤ f.fid.toNat)

/-! ### Tables -/

def State.fibre (s : State) (k : Nat) : Option Fibre := Tab.get s.fibres k
def State.putFibre (s : State) (f : Fibre) : State := { s with fibres := Tab.set s.fibres f.key f }
def State.putFibres (s : State) : List Fibre → State
  | [] => s
  | f :: r => State.putFibres (s.putFibre f) r
def State.modFibre (s : State) (k : Nat) (g : Fibre → Fibre) : State :=
  match s.fibre k with
  | some f => s.putFibre (g f)
  | none => s
def State.crew (s : State) (k : Nat) : Option Crew := Tab.get s.crews k
def State.putCrew (s : State) (k : Nat) (c : Crew) : State := { s with crews := Tab.set s.crews k c }
def State.team (s : State) (k : Nat) : Option Team := Tab.get s.teams k
def State.putTeam (s : State) (k : Nat) (t : Team) : State := { s with teams := Tab.set s.teams k t }
def State.ctx (s : State) (c : Nat) : Option Ctx := Tab.get s.ctxs c
def State.putCtx (s : State) (c : Nat) (x : Ctx) : State := { s with ctxs := Tab.set s.ctxs c x }
def State.launch (s : State) (ctx num : Nat) : Option Launch := s.launches.find? (fun l => l.ctx == ctx && l.num == num)
def State.putLaunch (s : State) (l : Launch) : State :=
  { s with launches := s.launches.map (fun x => if x.ctx == l.ctx && x.num == l.num then l else x) }
/-- The heap of a context. -/
def State.heap (s : State) (ctx : Nat) : Heap := match s.ctx ctx with
  | some c => c.heap
  | none => Heap.empty
def State.putHeap (s : State) (ctx : Nat) (h : Heap) : State := match s.ctx ctx with
  | some c => s.putCtx ctx { c with heap := h }
  | none => s
/-- A number no fibre, crew, team or task has had. -/
def State.newKey (s : State) : Nat × State := (s.nextKey, { s with nextKey := s.nextKey + 1 })
/-- A port's run at the start of a sentence: it has come from no line yet. -/
def PortRun.fresh (crew : Nat) (fibres : List Nat) : PortRun :=
  { crew := crew, fibres := fibres, count := 0, done := [], wait := .none, word := 0, code := [], know := [], nth := 0, part := [], queued := none,
    line := 2 ^ 64 }
/-- A seed of undefined contents not used before (log 1). -/
def State.newSeed (s : State) : Nat × State := (s.seeds, { s with seeds := s.seeds + 1 })

/-- Banks 0 to 23 are cache ways and 24 to 31 scratchpad when a context is first placed on a core (R17); converters start
at SRSEED XOR (4c + n) (R180); counters at 0 (R307). -/
def CoreCtx.fresh (seed : Word) (core : Nat) : CoreCtx :=
  { roles := [], seeds := [], fifos := [], changing := none,
    gens := (List.range 4).map (fun n =>
      let g := seed ^^^ BitVec.ofNat 32 (4 * core + n)
      if g = 0 then 1 else g),
    counts := List.replicate 8 0, slots := [], tiles := [] }
/-- What a core keeps for a context. -/
def State.cc (s : State) (ctx core : Nat) : CoreCtx :=
  (Tab.get s.coreCtx (ctx * 384 + core)).getD
    (CoreCtx.fresh (match s.ctx ctx with
      | some c => c.d.srseed
      | none => 1) core)
def State.putCC (s : State) (ctx core : Nat) (c : CoreCtx) : State :=
  { s with coreCtx := Tab.set s.coreCtx (ctx * 384 + core) c }
/-- The role of a bank (R118): 0 cache way, 1 scratchpad, 2 FIFO. -/
def CoreCtx.role (c : CoreCtx) (b : Nat) : Nat := (Tab.get c.roles b).getD (if b < 24 then 0 else 1)
def CoreCtx.fifo (c : CoreCtx) (b : Nat) : Fifo := (Tab.get c.fifos b).getD { head := 0, tail := 0, stamp := 0, read := 0, resv := [] }
/-- A free operand slot or tile (R318). -/
def OpSlot.free : OpSlot := { owner := none, fmt := none, seed := 0, data := [], filling := false }
def Tile.free : Tile := { owner := none, seed := 0, data := [] }
def CoreCtx.slot (c : CoreCtx) (i : Nat) : OpSlot := (Tab.get c.slots i).getD OpSlot.free
def CoreCtx.tile (c : CoreCtx) (i : Nat) : Tile := (Tab.get c.tiles i).getD Tile.free
/-- Raises SRDCNT counter i (R307). -/
def State.bump (s : State) (ctx core i n : Nat) : State :=
  let c := s.cc ctx core
  s.putCC ctx core { c with counts := setAt c.counts i (c.counts.getD i 0 + n) }

/-- What a cluster keeps for a context. -/
def State.clc (s : State) (ctx cl : Nat) : ClusterCtx :=
  (Tab.get s.clusterCtx (ctx * 8 + cl)).getD { chans := [], streams := [], halted := [] }
def State.putCLC (s : State) (ctx cl : Nat) (c : ClusterCtx) : State :=
  { s with clusterCtx := Tab.set s.clusterCtx (ctx * 8 + cl) c }
/-- A channel at creation of its context: pointer 0 (R129). -/
def Chan.fresh : Chan := { cmds := [], bytes := 0, seq := 0, stamp := 0, ptrStamp := 0, halted := false, haltBlk := none, dropped := 0, begun := 0 }
def State.chan (s : State) (ctx cl ch : Nat) : Chan := (Tab.get (s.clc ctx cl).chans ch).getD Chan.fresh
def State.putChan (s : State) (ctx cl ch : Nat) (c : Chan) : State :=
  let x := s.clc ctx cl
  s.putCLC ctx cl { x with chans := Tab.set x.chans ch c }
/-- The write pointer of a channel (R129). -/
def Chan.pointer (c : Chan) : DWord := BitVec.ofNat 64 (c.bytes % 2 ^ 40 + 2 ^ 40 * (c.seq % 2 ^ 24))
def State.cluster (s : State) (cl : Nat) : Cluster :=
  (Tab.get s.clusters cl).getD { bins := [], placement := [], waiting := [], banker := [], farBuf := [] }
def State.putCluster (s : State) (cl : Nat) (c : Cluster) : State := { s with clusters := Tab.set s.clusters cl c }
def State.port (s : State) (core p : Nat) : Option PortRun := Tab.get s.ports (4 * core + p)
def State.putPort (s : State) (core p : Nat) (r : PortRun) : State := { s with ports := Tab.set s.ports (4 * core + p) r }
def State.freePort (s : State) (core p : Nat) : State := { s with ports := Tab.erase s.ports (4 * core + p) }
/-- A team barrier when its team is placed (R293). -/
def Barrier.fresh : Barrier :=
  { expect := 0, count := 0, phase := 0, broken := false, init := false, crews := 0, flags := [], joins := [], cur := 0 }
def Team.bar (t : Team) (n : Nat) : Barrier := (Tab.get t.barriers n).getD Barrier.fresh
def Team.putBar (t : Team) (n : Nat) (b : Barrier) : Team := { t with barriers := Tab.set t.barriers n b }
/-- A key slot with no key (R406). -/
def LogRing.empty : LogRing := { gr := 0, n := 0, widx := 0, ridx := 0, drops := 0, since := 0, chain := 0 }
def Summary.empty : Summary :=
  { ucount := 0, dcount := 0, reflost := 0, lost := false, lcause := 0, stopped := false, sclass := 0, first := none, last := none }
def State.key (s : State) (k : Nat) : KeySlot :=
  (Tab.get s.keys k).getD { imported := false, k1 := 0, k2 := 0, km := 0, ctx := none, monitors := [], log := LogRing.empty, summary := Summary.empty }
def State.putKey (s : State) (k : Nat) (x : KeySlot) : State := { s with keys := Tab.set s.keys k x }
def State.part (s : State) (p : Nat) : Part :=
  (Tab.get s.parts p).getD { epoch := 0, turns := [], pend := none, cur := none, switching := false }
def State.putPart (s : State) (p : Nat) (x : Part) : State := { s with parts := Tab.set s.parts p x }
def State.queue (s : State) (q : Nat) : Option Queue := Tab.get s.queues q
def State.putQueue (s : State) (q : Nat) (x : Queue) : State := { s with queues := Tab.set s.queues q x }
def State.qreg (s : State) (q : Nat) : QRegs :=
  (Tab.get s.qregs q).getD { desc := [], create := false, destroy := false, state := 0, ecode := 0, epc := 0, report := 0 }
def State.putQreg (s : State) (q : Nat) (x : QRegs) : State := { s with qregs := Tab.set s.qregs q x }
/-- Core cycles of 1.25 ns in a second. -/
def cyclesPerSecond : Nat := 800000000
/-- TIME in ns (R13, R224, R359) and CYCLE. -/
def State.time (s : State) : Nat := (s.ptpBase + (s.cycle * 5 / 4 : Nat)).toNat
/-- Raises an MSI-X vector (R361). -/
def State.msix (s : State) (v : Nat) : State := { s with mgmt := { s.mgmt with msix := s.mgmt.msix ++ [v] } }
/-- Changes the fault summary of a context's key slot (R428). -/
def State.modSummary (s : State) (ctx : Nat) (g : Summary → Summary) : State :=
  match s.ctx ctx with
  | some c => let k := s.key c.d.kslot; s.putKey c.d.kslot { k with summary := g k.summary }
  | none => s

/-- The cluster of a core, and the key of a core's index in its cluster (R12). -/
def clusterOf (core : Nat) : Nat := core / 48

/-! ### Fields of launch descriptors (R350) -/

/-- Bits [lo + n - 1 : lo] of a list of 32-bit words. -/
def wordsField : List Word → Nat → Nat → Nat
  | ws, lo, n => bitsOf ((List.range (n / 32 + 2)).foldl (fun acc i => acc + (ws.getD (lo / 32 + i) 0).toNat * 2 ^ (32 * i)) 0) (lo % 32) n

def Launch.field (l : Launch) (lo n : Nat) : Nat := wordsField l.desc lo n
def Launch.entry (l : Launch) : DWord := BitVec.ofNat 64 (l.field 0 64)
def Launch.root (l : Launch) : DWord := BitVec.ofNat 64 (l.field 64 64)
def Launch.ef (l : Launch) : Nat := l.field 128 11 + 1
def Launch.el (l : Launch) : Nat := l.field 139 16
def Launch.isTeam (l : Launch) : Bool := l.field 155 1 == 1
def Launch.cwait (l : Launch) : Bool := l.field 156 1 == 1
def Launch.priv (l : Launch) : Bool := l.field 157 1 == 1
def Launch.rf (l : Launch) : Nat := l.field 160 11 + 1
def Launch.rl (l : Launch) : Nat := l.field 171 16
def Launch.crewsPer (l : Launch) : Nat := l.field 192 4 + 1
def Launch.tpb (l : Launch) : Nat := l.field 196 6
def Launch.bands (l : Launch) : Nat := l.field 208 16
def Launch.role (l : Launch) (i : Nat) : Nat := l.field (224 + 2 * i) 2
def Launch.mstream (l : Launch) : DWord := BitVec.ofNat 64 (l.field 256 64)
/-- The gather timer: 0 selects 1,600 cycles (R350). -/
def Launch.gather (l : Launch) : Nat := if l.field 400 16 = 0 then 1600 else l.field 400 16
def Launch.xop (l : Launch) (k : Nat) : Bool := l.field (416 + k) 1 == 1
def Launch.xopEntry (l : Launch) (k : Nat) : DWord := BitVec.ofNat 64 (l.field (768 + 64 * k) 64)
def Launch.home (l : Launch) : Nat := l.field 424 3
def Launch.spread (l : Launch) : Bool := l.field 427 1 == 1
def Launch.ring (l : Launch) (j : Nat) : Ring :=
  { off := 32 * l.field (512 + 32 * j) 16, count := l.field (528 + 32 * j) 7, size := 32 * l.field (535 + 32 * j) 9 }
/-- Constant-bank word i: 0 beyond the words copied (R350). -/
def State.constWord (s : State) (ctx num i : Nat) : Word := match s.launch ctx num with
  | some l => l.cbank.getD i 0
  | none => 0

end Sys2Proof.Machine
end

