-- ==== Sys2Proof/Machine/Heap.lean ====
section
/-! DEFINITION. The frame heap and the future-cell region: taking and freeing segments, continuation blocks, link nodes and
cells (R61 to R63, R66, R69, R80, R88 to R92), and the words a plain load finds there (R64, R65, R80, R90, R91). -/

namespace Sys2Proof.Machine

/-- Size in bytes of a segment class (R62). -/
def segSize (c : Nat) : Nat := if c = 0 then 2048 else if c = 1 then 8192 else 32768
/-- The smallest class that holds n bytes, header included (R62, R69). -/
def segClass (n : Nat) : Option Nat := if n ≤ 2048 then some 0 else if n ≤ 8192 then some 1 else if n ≤ 32768 then some 2 else none
/-- The class of a root segment (R66: header, fibre block, root frame) and of a segment begun by a frame (R69). -/
def rootClass (f l : Nat) : Nat := (segClass (96 + frameSize f l)).getD 2
def entryClass (f l : Nat) : Nat := (segClass (32 + frameSize f l)).getD 2

def Heap.freeList (h : Heap) (c : Nat) : List Nat := if c = 0 then h.free0 else if c = 1 then h.free1 else h.free2
def Heap.setFree (h : Heap) (c : Nat) (l : List Nat) : Heap :=
  if c = 0 then { h with free0 := l } else if c = 1 then { h with free1 := l } else { h with free2 := l }

/-- Carves a 32 KiB piece from the low end of the region of `d` (R62). -/
def Heap.carvePiece (h : Heap) (d : CtxDesc) : Option (Nat × Heap) :=
  if h.carve + 32768 ≤ d.fhsize * 0x200000 then some (d.fhbase + h.carve, { h with carve := h.carve + 32768 }) else none

/-- The device writes n bytes at a: what was stored over them is gone. -/
def Heap.clearOver (h : Heap) (a n : Nat) : Heap := { h with spoilt := h.spoilt.filter (fun v => decide (v < a) || decide (a + n ≤ v)) }
/-- Takes a segment: the head of its class's free list, or a carved piece, whose other segments follow on the list (R62). -/
def Heap.takeSeg (h : Heap) (d : CtxDesc) (c : Nat) : Option (Nat × Heap) :=
  match h.freeList c with
  | a :: r => some (a, (h.setFree c r).clearOver a (segSize c))
  | [] => match h.carvePiece d with
    | none => none
    | some (p, h') =>
      let n := 32768 / segSize c
      some (p, (h'.setFree c ((List.range (n - 1)).map (fun i => p + (i + 1) * segSize c))).clearOver p (segSize c))
/-- Notes that the contents of n bytes at a stand as their last owner left them (R64). -/
def Heap.noteFreed (h : Heap) (a n : Nat) : Heap :=
  { h with freed := Tab.set h.freed a (n, match Tab.get h.freed a with
    | some x => x.2 + 1
    | none => 0) }
/-- A freed segment goes to the head of its class's free list (R62). -/
def Heap.freeSeg (h : Heap) (s : Seg) : Heap := (h.setFree s.cls (s.addr :: h.freeList s.cls)).noteFreed s.addr (segSize s.cls)
/-- Frees segments in the order given. For the captured segments of one continuation (R83) the model's order is top segment first, which
the spec leaves open (log 69). -/
def Heap.freeSegs (h : Heap) (l : List Seg) : Heap := l.foldl Heap.freeSeg h
/-- Whether a segment holds an address. -/
def Seg.holds (g : Seg) (a : Nat) : Bool := decide (g.addr ≤ a) && decide (a < g.addr + segSize g.cls)

/-- A CONSUMED continuation of generation g: what carving writes (R63). -/
def EffRec.none : EffRec :=
  { tag := 0, fault := false, psaved := false, arg := 0, pc := 0, issue := 0, performed := 0, frag := 0, fid := 0, address := 0,
    stamp := 0, core := 0, device := 0, detail := 0 }
def Block.consumed (g : BitVec 7) : Block :=
  { state := 1, gen := g, nsegs := 0, ctxid := 0, homecore := 0, homedev := 0, top := 0, bottom := 0, resumepc := 0,
    eff := EffRec.none, prons := [], segs := [], frames := [], launch := 0, check := 0, patch := [], marked := false }
/-- Whether an address lies in a piece carved for continuation blocks (R63, R80). -/
def Heap.isBlockAddr (h : Heap) (a : Nat) : Bool := h.blockPieces.any (fun p => decide (p ≤ a) && decide (a < p + 32768))
def Heap.block (h : Heap) (a : Nat) : Block := (Tab.get h.blocks a).getD (Block.consumed 0)
def Heap.putBlock (h : Heap) (a : Nat) (b : Block) : Heap := { h with blocks := Tab.set h.blocks a b }
/-- Takes a continuation block (R63): carving writes the first word of each block of its piece. -/
def Heap.takeBlock (h : Heap) (d : CtxDesc) : Option (Nat × Heap) :=
  match h.freeBlocks with
  | a :: r => some (a, { h with freeBlocks := r }.clearOver a 128)
  | [] =>
    if h.blkCur < h.blkEnd then some (h.blkCur, { h with blkCur := h.blkCur + 256 }.clearOver h.blkCur 128)
    else match h.carvePiece d with
      | none => none
      | some (p, h') =>
        let left := h'.spoilt.filter (fun v => !(decide (p ≤ v) && decide (v < p + 32768) && decide (v % 256 < 4)))
        some (p, ({ h' with blockPieces := p :: h'.blockPieces, blkCur := p + 256, blkEnd := p + 32768, spoilt := left } : Heap).clearOver p 128)
/-- Frees a continuation block: STATE CONSUMED, GEN advanced by one modulo 128, head of the free list (R63, R82). Its first word alone is written. -/
def Heap.freeBlock (h : Heap) (a : Nat) : Heap :=
  let b := h.block a
  { (h.putBlock a { b with state := 1, gen := b.gen + 1, segs := [], frames := [], patch := b.patch.filter (fun x => decide (4 ≤ x.1)), marked := false }) with freeBlocks := a :: h.freeBlocks }
/-- The handle of a block or cell: address and generation (R80, R89). -/
def handleOf (a : Nat) (g : BitVec 7) : DWord := BitVec.ofNat 64 (a + g.toNat * 2 ^ 57)
def handleAddr (h : DWord) : Nat := h.toNat % 2 ^ 57
def handleGen (h : DWord) : BitVec 7 := BitVec.ofNat 7 (h.toNat / 2 ^ 57)

/-- Takes a link node (R92). -/
def Heap.takeNode (h : Heap) (d : CtxDesc) : Option (Nat × Heap) :=
  match h.freeNodes with
  | a :: r => some (a, { h with freeNodes := r }.clearOver a 16)
  | [] =>
    if h.nodeCur < h.nodeEnd then some (h.nodeCur, { h with nodeCur := h.nodeCur + 16 }.clearOver h.nodeCur 16)
    else match h.carvePiece d with
      | none => none
      | some (p, h') => some (p, { h' with nodeCur := p + 16, nodeEnd := p + 32768 }.clearOver p 16)
def Heap.freeNode (h : Heap) (a : Nat) : Heap := { h with freeNodes := a :: h.freeNodes }.noteFreed a 16

/-! ### Cells (R88 to R90) -/

/-- Bytes of one part of the future-cell region. -/
def CtxDesc.cellPart (d : CtxDesc) : Nat := d.fcsize * 0x200000 / 8
/-- Whether a handle has the form of R89: 64-byte aligned, inside the region. -/
def CtxDesc.cellFormOk (d : CtxDesc) (h : DWord) : Bool :=
  decide (handleAddr h % 64 = 0) && decide (d.fcbase ≤ handleAddr h) && decide (handleAddr h < d.fcbase + d.fcsize * 0x200000)
def CtxDesc.cellIndex (d : CtxDesc) (h : DWord) : Nat := (handleAddr h - d.fcbase) / 64
/-- A cell that has never been taken. Its GEN of 0 is the model's choice: R90 gives no reset value (log 12). -/
def Cell.free : Cell :=
  { state := 2, gen := 0, ctxid := 0, reach := 0, fid := 0, ownercore := 0x1FF, failtag := 0, parent := 0, waiters := [], cont := 0,
    parkedon := 0, result := [], stamp := 0, live := false }
def Heap.cell (h : Heap) (i : Nat) : Cell := (Tab.get h.cells i).getD Cell.free
def Heap.putCell (h : Heap) (i : Nat) (c : Cell) : Heap := { h with cells := Tab.set h.cells i c }
/-- Takes a cell of cluster cl's part: its free list, or the low end of the part (R88). No cell has index 0x7FFF_FFFF (R90). -/
def Heap.takeCell (h : Heap) (d : CtxDesc) (cl : Nat) : Option (Nat × Heap) :=
  match (Tab.get h.cellFree cl).getD [] with
  | i :: r => some (i, { h with cellFree := Tab.set h.cellFree cl r })
  | [] =>
    let n := (Tab.get h.cellCarve cl).getD 0
    let i := cl * (d.cellPart / 64) + n
    if (n + 1) * 64 ≤ d.cellPart ∧ i ≠ 0x7FFFFFFF then some (i, { h with cellCarve := Tab.set h.cellCarve cl (n + 1) }) else none
/-- Frees a cell and advances GEN (R90, R102). -/
def Heap.freeCell (h : Heap) (d : CtxDesc) (i : Nat) : Heap :=
  let c := h.cell i
  let cl := i / (d.cellPart / 64)
  { (h.putCell i { c with gen := c.gen + 1, live := false }) with
    cellFree := Tab.set h.cellFree cl (i :: (Tab.get h.cellFree cl).getD []) }
/-- The cell a fibre id names (R90). -/
def cellOfFid (fid : Word) : Option Nat :=
  if 0x80000000 ≤ fid.toNat ∧ fid.toNat ≠ 0xFFFFFFFF then some (fid.toNat - 0x80000000) else none
/-- A handle's cell: none when the handle is stale, which names a RECLAIMED cell (R89). -/
def Heap.cellOf (h : Heap) (d : CtxDesc) (hd : DWord) : Option (Nat × Cell) :=
  let i := d.cellIndex hd
  let c := h.cell i
  if c.live && c.gen == handleGen hd then some (i, c) else none
def CtxDesc.cellHandle (d : CtxDesc) (i : Nat) (c : Cell) : DWord := handleOf (d.fcbase + 64 * i) c.gen

/-! ### The words of blocks, records and cells in memory -/

/-- The 16 words of an effect record (R79). -/
def EffRec.words (r : EffRec) : List Word :=
  [BitVec.ofNat 32 (r.tag.toNat + r.fault.toNat * 2 ^ 16 + r.psaved.toNat * 2 ^ 17), r.arg, loWord r.pc, hiWord r.pc, r.issue,
    r.performed, r.frag, r.fid, loWord r.address, hiWord r.address, BitVec.ofNat 32 r.stamp, BitVec.ofNat 32 (r.stamp / 2 ^ 32),
    BitVec.ofNat 32 (r.core + r.device * 2 ^ 9), r.detail, 0, 0]
/-- Bits [447:0] of a continuation object (R80). -/
def Block.headWords (b : Block) (addr : Nat) : List Word :=
  let w (x : Nat) : List Word := [BitVec.ofNat 32 x, BitVec.ofNat 32 (x / 2 ^ 32)]
  [BitVec.ofNat 32 (packNat [(2, b.state), (1, b.eff.psaved.toNat), (1, b.eff.fault.toNat), (7, b.gen.toNat), (5, 0), (16, b.nsegs)]),
    BitVec.ofNat 32 (packNat [(16, b.ctxid), (9, b.homecore), (7, b.homedev)])]
    ++ w b.top ++ w b.bottom ++ [loWord b.resumepc, hiWord b.resumepc] ++ w (addr + 64)
    ++ w (if b.eff.psaved then addr + 128 else 0) ++ [0, 0]
/-- CHECK over bits [447:4] as they stand (R80): the four bits below them are left out. -/
def Block.checkWord (b : Block) (addr : Nat) : DWord :=
  Config.blockCheck (match bytesOfWords (b.headWords addr) with
    | x :: r => (x &&& 0xF0#8) :: r
    | [] => [])
/-- A captured block with its CHECK. -/
def Block.sealed (b : Block) (addr : Nat) : Block := { b with check := b.checkWord addr }
/-- The 64 words of a continuation block at addr (R79, R80): object, record, pronoun save, zeros. With
PSAVED 0 the pronoun save reads as zeros (DESIGN CHOICE, log 92). -/
def Block.words (b : Block) (addr : Nat) : List Word :=
  b.headWords addr ++ [loWord b.check, hiWord b.check] ++ b.eff.words ++ (List.range 16).map (fun i => (Tab.get b.prons i).getD 0) ++ List.replicate 16 0
/-- Byte off of a continuation block as memory holds it: what was stored over it stands, but for the low four bits of the object,
which the device keeps. -/
def Block.byte (b : Block) (addr off : Nat) : Byte :=
  let v : Byte := BitVec.ofNat 8 (((b.words addr).getD (off / 4) 0).toNat / 2 ^ (8 * (off % 4)))
  match Tab.get b.patch off with
  | some x => if off = 0 then x / 16 * 16 + v % 16 else x
  | none => v
/-- Whether CHECK verifies (R80): the object's bits [511:4] are those the device wrote. -/
def Block.checkOk (b : Block) (addr : Nat) : Bool := b.patch.all (fun x => decide (64 ≤ x.1) || b.byte addr x.1 == { b with patch := [] }.byte addr x.1)
/-- GEN as memory holds it. -/
def Block.genNow (b : Block) (addr : Nat) : BitVec 7 := BitVec.ofNat 7 ((b.byte addr 0).toNat / 16 + 16 * (b.byte addr 1).toNat)
/-- The block after bytes were stored over it from offset off on; STATE is the new word's. -/
def Block.overwrite (b : Block) (off : Nat) (bs : List Byte) : Block :=
  let b := { b with patch := bs.zipIdx.foldl (fun p x => Tab.set p (off + x.2) x.1) b.patch }
  if off = 0 then match bs with
    | x :: _ => { b with state := x.toNat % 4 }
    | [] => b
  else b
/-- The 16 words of a future cell (R90). -/
def Cell.words (c : Cell) : List Word :=
  [BitVec.ofNat 32 (packNat [(2, c.state), (7, c.gen.toNat), (7, 0), (16, c.ctxid)]), BitVec.ofNat 32 c.reach, c.fid,
    BitVec.ofNat 32 (packNat [(9, c.ownercore), (7, 0), (16, c.failtag.toNat)]), loWord c.parent, hiWord c.parent,
    BitVec.ofNat 32 ((c.waiters.map Node.addr).headD 0), BitVec.ofNat 32 ((c.waiters.map Node.addr).headD 0 / 2 ^ 32),
    loWord c.cont, hiWord c.cont, loWord c.parkedon, hiWord c.parkedon]
    ++ (List.range 4).map (fun i => c.result.getD i 0)
/-- The four words of a link node and the address of the next (R92). -/
def nodeWords (n : Node) (next : Nat) : List Word :=
  [loWord n.item, hiWord n.item, BitVec.ofNat 32 next, BitVec.ofNat 32 (next / 2 ^ 32)]
/-- The words of the node at an address in a list of nodes. -/
def nodeAt (a : Nat) : List Node → Option (List Word)
  | [] => none
  | n :: r => if n.addr = a then some (nodeWords n ((r.map Node.addr).headD 0)) else nodeAt a r

/-- Whether a segment of a live frame, a captured frame or a task holds an address (R64). -/
def State.liveSeg (s : State) (ctx va : Nat) : Bool :=
  s.fibres.any (fun f => f.2.ctx == ctx && f.2.segs.any (fun g => g.holds va))
    || (s.heap ctx).blocks.any (fun b => b.2.segs.any (fun g => g.holds va))
    || s.clusters.any (fun c => (c.2.bins.flatMap Bin.tasks ++ c.2.placement.flatMap Formed.tasks).any (fun t => t.ctx == ctx && (match t.body with
      | .fresh r e _ _ _ => r.holds va || e.holds va
      | .resume _ _ r => r.holds va)))
/-- What a freed segment or node was left with, by its number (R64). -/
def Heap.freedAt (h : Heap) (va : Nat) : Option Nat :=
  [va / 16 * 16, va / 2048 * 2048, va / 8192 * 8192, va / 32768 * 32768].findSome? (fun a => match Tab.get h.freed a with
    | some (n, k) => if va < a + n then some k else none
    | none => none)
/-- What bytes stored by an agent outside the device at an address of the frame heap region do (R64, R80): a continuation block, and a block never
taken whose first word they reach, keeps them as its own; elsewhere memory holds them. -/
def Heap.storeOver (h : Heap) (va : Nat) (bs : List Byte) : Heap :=
  bs.zipIdx.foldl (fun (h : Heap) x =>
    let v := va + x.2
    let a := v / 256 * 256
    if h.isBlockAddr v then match Tab.get h.blocks a with
      | some b => h.putBlock a (b.overwrite (v - a) [x.1])
      | none => if v - a < 4 then
          { h.putBlock a ((Block.consumed 0).overwrite (v - a) [x.1]) with spoilt := (List.range 252).map (fun i => a + 4 + i) ++ h.spoilt }
        else { h with spoilt := v :: h.spoilt }
    else { h with spoilt := v :: h.spoilt }) h
/-- A byte of the frame heap region or the future-cell region as a plain load of its context sees it (R63, R64, R91, R92): cells,
continuation blocks and link nodes are exact, of a block never taken the first word; segments of live or captured frames are unspecified
values; a freed segment or node keeps what it was left with. None where memory itself tells, as it does of what was stored from outside the device. -/
def State.regionByte (s : State) (ctx va : Nat) : Option Byte :=
  match s.ctx ctx with
  | none => none
  | some c =>
    let wordByte (ws : List Word) (off : Nat) : Byte := BitVec.ofNat 8 ((ws.getD (off / 4) 0).toNat / 2 ^ (8 * (off % 4)))
    if c.d.fcbase ≤ va ∧ va < c.d.fcbase + c.d.fcsize * 0x200000 then
      match Tab.get c.heap.cells ((va - c.d.fcbase) / 64) with
      | some x => some (wordByte x.words ((va - c.d.fcbase) % 64))
      | none => none
    else if c.d.fhbase ≤ va ∧ va < c.d.fhbase + c.d.fhsize * 0x200000 then
      if c.heap.spoilt.contains va then none else
      let a := va / 256 * 256
      let lists := (s.fibres.flatMap (fun f => if f.2.ctx = ctx then f.2.chain.map Frame.owned else []))
        ++ c.heap.blocks.flatMap (fun b => b.2.frames.map Frame.owned) ++ c.heap.cells.map (fun x => x.2.waiters)
      if c.heap.isBlockAddr a then (match Tab.get c.heap.blocks a with
        | some b => some (b.byte a (va - a))
        | none => if va < a + 4 then some (wordByte ((Block.consumed 0).words a) (va - a)) else none)
      else match lists.findSome? (nodeAt (va / 16 * 16)) with
        | some ws => some (wordByte ws (va % 16))
        | none =>
          if s.liveSeg ctx va then some (Config.undefByte (s.accesses + 2 ^ 32) va)
          else (c.heap.freedAt va).map (fun k => Config.undefByte (k + 2 ^ 48) va)
    else none

end Sys2Proof.Machine
end

