-- ==== Sys2Proof/Machine/Access.lean ====
section
/-! DEFINITION. Memory: translation and its checks (R109 to R115, R371, R408), lines at their homes with stamps, leases and copies
(R136 to R141), the update state and its merges (R158 to R162, R458), poison (R454, R456, R500), access logs (R417) and migration
counters (R365, R373). -/

namespace Sys2Proof.Machine

/-- Every access raises its agent's stamp by at least 1 (R140); by how much more is a free value (log 5). -/
def State.pip (s : State) (ts : Nat) : Nat := ts + 1 + Config.extraPips s.accesses

/-! ### Lines -/

/-- The key of the line that holds an address. -/
def PA.line (p : PA) : Nat := p.a / 128 * 3 + (match p.sp with
  | .dev => 0
  | .host => 1
  | .sram => 2)
/-- The first address of a line key. -/
def lineBase (lk : Nat) : PA := ⟨if lk % 3 = 0 then .dev else if lk % 3 = 1 then .host else .sram, lk / 3 * 128⟩
/-- A line nobody has touched (log 5). -/
def Line.fresh : Line :=
  { wts := 0, rts := 0, copies := [], excl := none, hostCopy := none, upd := none, slotAge := 0, lostPart := 0, hidden := 0, errCore := 0x1FF, poison := false,
    sectors := 0, dirtyHost := none }
def State.lineOf (s : State) (lk : Nat) : Line := (Tab.get s.lines lk).getD Line.fresh
def State.putLine (s : State) (lk : Nat) (l : Line) : State := { s with lines := Tab.set s.lines lk l }

/-- A byte of core SRAM: one never written since its bank entered its role is undefined contents (R119). -/
def State.sramByte (s : State) (a : Nat) : Byte :=
  (Tab.get s.sram a).getD (Config.undefByte (match Tab.get s.coreCtx (a / 2 ^ 21) with
    | some c => (Tab.get c.seeds (a % 2 ^ 21 / 65536)).getD (a / 65536 + 2 ^ 64)
    | none => a / 65536 + 2 ^ 64) (a % 65536))
/-- Stores bytes under rising numbers. -/
def tabWrite {α : Type} (m : Tab α) (a : Nat) : List α → Tab α
  | [] => m
  | b :: r => tabWrite (Tab.set m a b) (a + 1) r
/-- A byte as memory holds it, a LOC 1 line's newer data included (R469). -/
def State.rawByte (s : State) (p : PA) : Byte :=
  match p.sp with
  | .dev => cellRead s.dev p.a
  | .host => match (s.lineOf p.line).dirtyHost with
    | some d => d.getD (p.a % 128) 0
    | none => cellRead s.host p.a
  | .sram => s.sramByte p.a
def State.rawRead (s : State) (p : PA) (n : Nat) : List Byte := (List.range n).map (fun i => s.rawByte { p with a := p.a + i })
/-- Writes bytes to a sparse memory. -/
def cellsWrite (m : List Host.Cell) (a : Nat) : List Byte → List Host.Cell
  | [] => m
  | b :: r => cellsWrite (cellWrite m a b) (a + 1) r
/-- Writes bytes within one line; a LOC 1 line is held dirty in its home slice (R469). -/
def State.rawWrite (s : State) (p : PA) (bs : List Byte) : State :=
  match p.sp with
  | .dev => { s with dev := cellsWrite s.dev p.a bs }
  | .sram => { s with sram := tabWrite s.sram p.a bs }
  | .host =>
    let base : PA := ⟨.host, p.a / 128 * 128⟩
    let old := s.rawRead base 128
    let off := p.a % 128
    s.putLine p.line { s.lineOf p.line with dirtyHost := some (old.take off ++ bs ++ old.drop (off + bs.length)) }

/-! ### The update state (R159 to R162) -/

/-- Elements of a line under an operator (R158). -/
def elemsOf (op : Nat) (bs : List Byte) : List Nat :=
  (List.range (128 / redBytes op)).map (fun i => ofBytes ((bs.drop (redBytes op * i)).take (redBytes op)))
/-- The elements of a partial or of a line, each with whether it holds a value to fold: one that no update reached keeps what it is
folded onto (R161). -/
abbrev Fold := List (Bool × Nat)
def Partial.fold (p : Partial) : Fold := p.elems.zipIdx.map (fun x => (p.mask.getLsbD x.2, x.1.toNat))
/-- One fold by an operator's step, elementwise (R161). -/
def foldStep (op : Nat) (a b : Fold) : Fold :=
  a.zipWith (fun x y => if !y.1 then x else if !x.1 then y else (true, redStep op x.2 y.2)) b
/-- Folds a list of values from its first on; none of an empty list. -/
def foldAll (op : Nat) : List Fold → Option Fold
  | [] => none
  | x :: r => some (r.foldl (foldStep op) x)
/-- Core c's partial: its slot's updates first, then its first-level partial's (R160). -/
def corePartial (op : Nat) (ps : List Partial) (c : Nat) : Option Fold :=
  let mine := ps.filter (fun p => p.core == c)
  foldAll op ((mine.filter Partial.inSlot ++ mine.filter (fun p => !p.inSlot)).map Partial.fold)
/-- A cluster's result: its cores' partials in ascending core index (R161). -/
def foldCluster (op : Nat) (ps : List Partial) (cl : Nat) : Option Fold :=
  foldAll op ((List.range 48).filterMap (fun c => corePartial op ps (48 * cl + c)))
/-- The merged line (R161): the value in memory, then C0 to C7. -/
def foldLine (op : Nat) (raw : List Byte) (ps : List Partial) : List Byte :=
  (((List.range 8).filterMap (foldCluster op ps)).foldl (foldStep op) ((elemsOf op raw).map (fun x => (true, x)))).flatMap
    (fun x => leBytes (redBytes op) x.2)
/-- What a merging access would read, without merging. -/
def State.peek (s : State) (p : PA) (n : Nat) : List Byte :=
  match (s.lineOf p.line).upd with
  | none => s.rawRead p n
  | some (op, ps) => ((foldLine op.toNat (s.rawRead (lineBase p.line) 128) ps).drop (p.a % 128)).take n

/-! ### Errors in stored lines (R454 to R458, R500) -/

/-- Appends a record to the memory error log and raises MSI-X vector 3 (R454). -/
def State.logError (s : State) (kind found ctx pa core : Nat) : State :=
  let n := s.mgmt.errN
  let r := leBytes 32 (packNat [(8, kind), (8, found), (16, ctx), (52, pa), (12, 0), (9, core), (23, 0), (64, s.time), (64, n)])
  { s with mgmt := { s.mgmt with errs := Tab.set s.mgmt.errs (n % 256) r, errN := n + 1 } }.msix 3
/-- The owner of a granule, if any (R406). -/
def State.granOwner (s : State) (g : Nat) : Option Nat :=
  (s.mgmt.grans.find? (fun r => decide (r.1 ≤ g) && decide (g < r.1 + r.2.1))).map (fun r => r.2.2)
/-- Whether the granules of n bytes of device memory at an offset are all the context's (R406, R408): n is at most a granule. -/
def State.owns (s : State) (ctx a n : Nat) : Bool :=
  s.granOwner (a / 65536) == some ctx && s.granOwner ((a + n - 1) / 65536) == some ctx
def State.ownerOf (s : State) (p : PA) : Nat := match p.sp with
  | .dev => (s.granOwner (p.a / 65536)).getD 0
  | _ => 0
/-- Sectors of 16 bytes that n bytes at an address touch, and those they cover wholly (R456). -/
def sectorsTouched (a n : Nat) : List Nat := (List.range 8).filter (fun i => decide (16 * i < a % 128 + n) && decide (a % 128 < 16 * i + 16))
def sectorsCovered (a n : Nat) : List Nat := (List.range 8).filter (fun i => decide (a % 128 ≤ 16 * i) && decide (16 * i + 16 ≤ a % 128 + n))
/-- A poisoned line after a write of n bytes at a (R456): the sectors wholly written, and no poison once all eight are. -/
def Line.written (l : Line) (a n : Nat) : Line :=
  let secs := if l.poison then l.sectors ||| BitVec.ofNat 8 (maskOf (sectorsCovered a n)) else 0
  { l with poison := l.poison && secs != 0xFF, sectors := if secs = 0xFF then 0 else secs }
/-- The read of n bytes at p: whether it is an uncorrectable read, the line poisoned and logged when the error is first found (R454, R456). -/
def State.readCheck (s : State) (p : PA) (n found : Nat) : Bool × State :=
  let l := s.lineOf p.line
  if l.hidden ≠ 0 then
    (true, (s.putLine p.line { l with hidden := 0, errCore := 0x1FF, poison := true, sectors := 0 }).logError l.hidden found (s.ownerOf p) (lineBase p.line).a l.errCore)
  else if l.poison then ((sectorsTouched p.a n).any (fun i => !l.sectors.getLsbD i), s)
  else (false, s)
/-- Stops a context at the end of the step for one of the reasons of R493 (its class); a stop that is due already is not noted twice. -/
def State.addStop (s : State) (ctx cls : Nat) : State :=
  if s.stops.contains (ctx, cls) then s else { s with stops := s.stops ++ [(ctx, cls)] }
/-- An agent of a context meets an uncorrectable read: the context is stopped at the end of the step, and the access never completes (R455). -/
def State.stopFor (s : State) (ctx : Nat) : State := s.addStop ctx 1
/-- Merges a U line: its value is written and it leaves U; with an error anywhere the merge is abandoned, the line
poisoned, and the context that owns it stopped (R161, R458). -/
def State.merge (s : State) (lk found : Nat) : State :=
  let l := s.lineOf lk
  match l.upd with
  | none => s
  | some (op, ps) =>
    if l.lostPart ≠ 0 ∨ l.hidden ≠ 0 then
      let own := s.ownerOf (lineBase lk)
      let s := (s.putLine lk { l with upd := none, lostPart := 0, hidden := 0, errCore := 0x1FF, poison := true, sectors := 0 }).logError
        (if l.lostPart ≠ 0 then l.lostPart else l.hidden) found own (lineBase lk).a l.errCore
      if own = 0 then s else s.stopFor own
    else
      let bs := foldLine op.toNat (s.rawRead (lineBase lk) 128) ps
      (s.putLine lk { l with upd := none }).rawWrite (lineBase lk) bs

/-! ### Agents and notes of accesses (R27, R365, R373, R417) -/

/-- Who makes an access: its stamp, its core's first-level cache if it has one, its context, KIND and REQ of the access log
(R417), FOUND of the error log (R454), whether it comes from the host's side (R365), and the stretches of virtual
addresses it touches where they are not those of the bytes accessed (a view's, or several of one line, R417). -/
structure Agent where
  ts : Nat
  core : Option Nat
  ctx : Nat
  kind : Nat
  req : Nat
  found : Nat
  host : Bool
  peer : Option Nat
  touch : List (Nat × Nat)
  deriving DecidableEq, Repr

/-- An access's answer: the state after it, the stamp it leaves, the bytes, and whether it was an uncorrectable read. -/
structure Acc where
  s : State
  ts : Nat
  data : List Byte
  err : Bool

/-- Writes one record to the context's log ring, or counts it in DROPS when the ring is full (R417, R419). A poisoned line of the ring has the
sectors that it covers written (R456). -/
def State.logRecord (s : State) (ks : Nat) (ts va kind mon req : Nat) : State :=
  let k := s.key ks
  let g := k.log
  if g.n = 0 then s
  else if 1024 * g.n ≤ g.widx - g.ridx then
    s.putKey ks { k with log := { g with drops := min (g.drops + 1) (2 ^ 32 - 1), since := g.since + 1 } }
  else
    let r := leBytes 64 (packNat [(64, ts), (57, va), (7, 0), (3, kind), (4, mon), (25, req), (32, g.since), (64, s.time), (256, g.chain.toNat)])
    let a := 65536 * g.gr + 64 * (g.widx % (1024 * g.n))
    let s := { s with dev := cellsWrite s.dev a r }
    let lk := PA.line ⟨.dev, a⟩
    let s := if (s.lineOf lk).poison then s.putLine lk ((s.lineOf lk).written a 64) else s
    s.putKey ks { k with log := { g with widx := g.widx + 1, since := 0, chain := sha256 r } }
/-- Whether a monitor watches an access of n bytes at va: its kind, and a byte that it touches. -/
def Monitor.watches (m : Monitor) (ag : Agent) (va n : Nat) : Bool :=
  m.kinds.getLsbD ag.kind && (if ag.touch.isEmpty then [(va, n)] else ag.touch).any (fun x => decide (m.mbase < x.1 + x.2) && decide (x.1 ≤ m.mlast))
/-- Logs an access once when a monitor of its context watches its kind and touches its range (R417); MON is the lowest of those (log 86). -/
def State.logAccess (s : State) (ag : Agent) (ts va n : Nat) : State :=
  match s.ctx ag.ctx with
  | none => s
  | some c => match ((s.key c.d.kslot).monitors).find? (fun m => m.2.watches ag va n) with
    | some m => s.logRecord c.d.kslot ts va ag.kind m.1 ag.req
    | none => s
/-- Counts an access to a migratable page: +1 from the side that does not hold the data, −1 from the side that does (R365); accesses
of peers count likewise against the owner's own (R373). -/
def State.countAccess (s : State) (ag : Agent) (va : Nat) (p : PA) : State :=
  match s.ctx ag.ctx with
  | none => s
  | some c =>
    if c.migr.isEmpty || p.sp == .sram then s else
    s.putCtx ag.ctx { c with migr := c.migr.map (fun r =>
      if r.vbase ≤ va ∧ va < r.vbase + 65536 * r.pages then
        let i := (va - r.vbase) / 65536
        let bump (t : Tab Nat) (up : Bool) : Tab Nat := Tab.set t i (if up then (Tab.get t i).getD 0 + 1 else (Tab.get t i).getD 0 - 1)
        match ag.peer with
        | some d =>
          let up := bump r.peers true
          { r with peers := up, reached := if (Tab.get up i).getD 0 = r.thresh then Tab.set r.reached i d else r.reached }
        | none =>
          let cs := bump r.counters ((p.sp == .host) != ag.host)
          let r := { r with counters := cs, due := if decide (r.thresh ≤ (Tab.get cs i).getD 0) && !r.due.contains i then i :: r.due else r.due }
          if p.sp == .dev && !ag.host then { r with peers := bump r.peers false } else r
      else r) }
/-- A store to a watched line wakes its holder (R344). -/
def State.wake (s : State) (lk : Nat) : State :=
  if s.queues.any (fun q => q.2.watch.contains lk) then
    { s with queues := s.queues.map (fun q => (q.1, if q.2.watch.contains lk then { q.2 with woken := true } else q.2)) }
  else s

/-! ### First-level caches and the slots of the merge logic (R18, R65, R118, R121, R160) -/

/-- The banks of a core that are cache ways of a context (R118); one whose role is changing is skipped from the start (R119). -/
def State.ways (s : State) (ctx core : Nat) : List Nat := (List.range 32).filter (fun b =>
  (s.cc ctx core).role b == 0 && ((s.cc ctx core).changing.map Prod.fst) != some b)
/-- Lines of a way: 512 of 128 bytes (R119). -/
def wayLines : Nat := 512
/-- The banks that hold a line in a core's first-level cache, with the line's key. -/
def State.held1 (s : State) (core : Nat) : List (Nat × Nat) :=
  s.lines.flatMap (fun (l : Nat × Line) => (l.2.copies.filter (fun c => c.core == core)).map (fun c => (l.1, c.bank))
    ++ (match l.2.upd with
      | some (_, ps) => (ps.filter (fun p => p.core == core && !p.inSlot)).map (fun p => (l.1, p.bank))
      | none => []))
def State.segsOf (s : State) (core : Nat) : List SegLine := (Tab.get s.segLines core).getD []
/-- AGE of the segment that a segment line belongs to, of a fibre's chain or captured in a continuation (R65); a freed segment is oldest. -/
def State.segAge (s : State) (x : SegLine) : Nat :=
  ((s.fibres.flatMap (fun f => if f.2.ctx = x.ctx then f.2.segs else []) ++ (s.heap x.ctx).blocks.flatMap (fun b => b.2.segs)).find?
    (fun g => g.holds x.addr)).elim 0 (fun g => g.age.toNat + 1)
/-- Bits of slots in use by the merge logic of a cluster, and its limit (R160). -/
def State.slotsUsed (s : State) (cl : Nat) : Nat :=
  s.lines.foldl (fun n (l : Nat × Line) => n + (match l.2.upd with
    | some (_, ps) => (ps.filter (fun p => p.inSlot && decide (p.core / 48 = cl))).length
    | none => 0)) 0
def slotLimit : Nat := 8192
/-- The line whose slots are oldest among those that hold a slot of a cluster (R160). -/
def State.oldestSlots (s : State) (cl : Nat) : Option Nat :=
  ((s.lines.filter (fun (l : Nat × Line) => match l.2.upd with
      | some (_, ps) => ps.any (fun p => p.inSlot && decide (p.core / 48 = cl))
      | none => false)).foldl (fun (m : Option (Nat × Nat)) l => match m with
    | none => some (l.1, l.2.slotAge)
    | some x => if l.2.slotAge < x.2 then some (l.1, l.2.slotAge) else m) none).map Prod.fst
/-- A core's slot of a line takes in its first-level partial: the slot's updates first (R160). -/
def toSlot (op : Nat) (core : Nat) (ps : List Partial) : List Partial :=
  match ps.find? (fun p => p.core == core && !p.inSlot) with
  | none => ps
  | some p => match ps.find? (fun q => q.core == core && q.inSlot) with
    | none => ps.map (fun q => if q.core == core then { q with inSlot := true } else q)
    | some _ => (ps.filter (fun q => !(q.core == core && !q.inSlot))).map (fun q => if q.core == core then
        { q with mask := q.mask ||| p.mask, elems := (foldStep op q.fold p.fold).map (fun x => BitVec.ofNat 64 x.2) } else q)
/-- A partial leaves a first-level cache for its cluster's merge logic, which has the line with the oldest slots merged when it has no slot
free (R160, R163). -/
def State.evictPartial (s : State) (lk core : Nat) : State :=
  let cl := core / 48
  let has := match (s.lineOf lk).upd with
    | some (_, ps) => ps.any (fun p => p.core == core && p.inSlot)
    | none => false
  let s := if has || decide (s.slotsUsed cl < slotLimit) then s else match s.oldestSlots cl with
    | some x => s.merge x 6
    | none => s
  let l := s.lineOf lk
  match l.upd with
  | some (op, ps) => s.putLine lk { l with
      upd := some (op, toSlot op.toNat core ps), slotAge := if ps.any Partial.inSlot then l.slotAge else s.accesses }
  | none => s
/-- A line leaves a core's first-level cache; what was written in it stands at its home already. -/
def State.evictLine (s : State) (lk core : Nat) : State :=
  let s := s.evictPartial lk core
  let l := s.lineOf lk
  s.putLine lk { l with copies := l.copies.filter (fun c => c.core != core), excl := if l.excl = some core then none else l.excl }
/-- Evicts one line of a full first-level cache: which one is open, but of segment lines the one whose segment is oldest (R65). -/
def State.evictOne (s : State) (core : Nat) : State :=
  let h := s.held1 core
  let g := s.segsOf core
  match h[Config.evictPick s.accesses % (h.length + g.length)]? with
  | some x => s.evictLine x.1 core
  | none =>
    let age := g.foldl (fun m x => min m (s.segAge x)) (2 ^ 33)
    { s with segLines := Tab.set s.segLines core (removeFirst (fun x => s.segAge x == age) g) }
/-- Makes room for a line in a core's first-level cache and names the way that takes it. -/
def State.makeRoom (s : State) (ctx core : Nat) : Nat × State :=
  let ways := s.ways ctx core
  let s := if wayLines * ways.length ≤ (s.held1 core).length + (s.segsOf core).length then s.evictOne core else s
  let used (b : Nat) : Nat := ((s.held1 core).filter (fun x => x.2 == b)).length + ((s.segsOf core).filter (fun x => x.bank == b)).length
  let free := ways.filter (fun b => decide (used b < wayLines))
  (free.getD (Config.evictPick (s.accesses + 1) % free.length) 0, s)
/-- Everything that a first-level cache holds in the banks of a set leaves it: the lines of ways that change their role, or of all ways at a
turn switch (R119, R121, R160). -/
def State.flushWays (s : State) (core : Nat) (banks : Nat → Bool) : State :=
  let s := ((s.held1 core).filter (fun x => banks x.2)).foldl (fun s x => s.evictLine x.1 core) s
  let s := if (s.segsOf core).any (fun x => banks x.bank) then
    { s with segLines := Tab.set s.segLines core ((s.segsOf core).filter (fun x => !banks x.bank)) } else s
  if s.lines.any (fun (l : Nat × Line) => l.2.excl == some core) then
    { s with lines := s.lines.map (fun (l : Nat × Line) => (l.1, if l.2.excl = some core then { l.2 with excl := none } else l.2)) } else s
/-- A segment's line is fetched through the first-level cache of a core (R65, R70): a miss is counted (R307). -/
def State.segTouch (s : State) (ctx core va : Nat) : State :=
  let a := va / 128 * 128
  if (s.segsOf core).any (fun x => x.ctx == ctx && x.addr == a) then s
  else
    let (b, s) := s.makeRoom ctx core
    { s with segLines := Tab.set s.segLines core ({ ctx := ctx, addr := a, bank := b } :: s.segsOf core) }.bump ctx core 3 1

/-! ### Register caches (R70 to R72) -/

/-- Lines of a register-cache slice. -/
def sliceLines : Nat := 768
def State.slice (s : State) (core lane : Nat) : List RegLine := (Tab.get s.rcache (32 * core + lane)).getD []
/-- The line that a full slice evicts: an evictable one first (R72), otherwise one of them, which is open. -/
def regVictim (n : Nat) (l : List RegLine) : Option RegLine :=
  (l.find? RegLine.evictable).or (l[n % l.length]?)
/-- A register of a fibre in its lane's slice: a miss fetches the line from its home through the first-level cache, making room (R70). A line left
evictable is fetched again (R72). A write fetches the line too (log 70). -/
def State.regTouch (s : State) (f : Fibre) (write : Bool) (r : Nat) : State :=
  let key := 32 * f.core + f.lane
  let l := s.slice f.core f.lane
  let mine (x : RegLine) : Bool := x.fibre == f.key && x.frame == f.top.addr && x.j == r / 8
  if l.any (fun x => mine x && !x.evictable) then
    { s with rcache := Tab.set s.rcache key (l.map (fun x => if mine x then { x with dirty := x.dirty || write } else x)) }
  else
    let l := l.filter (fun x => !mine x)
    let l := if l.length < sliceLines then l else match regVictim (Config.evictPick s.accesses) l with
      | some v => removeFirst (fun x => x == v) l
      | none => l
    ({ s with rcache := Tab.set s.rcache key ({ fibre := f.key, frame := f.top.addr, j := r / 8, dirty := write, evictable := false } :: l) }).segTouch
      f.ctx f.core (f.top.addr + 64 + 32 * ceilDiv f.top.f 256 + 32 * (r / 8))
/-- The lines of fibres that are set aside or moved become evictable (R72); those of a fibre that has ended leave the slice. -/
def State.regEvictable (s : State) (ks : List Nat) : State :=
  if s.rcache.any (fun x => x.2.any (fun l => ks.contains l.fibre)) then
    { s with rcache := s.rcache.map (fun x => (x.1, x.2.map (fun l => if ks.contains l.fibre then { l with evictable := true } else l))) } else s
def State.regGone (s : State) (k : Nat) : State :=
  if s.rcache.any (fun x => x.2.any (fun l => l.fibre == k)) then
    { s with rcache := s.rcache.map (fun x => (x.1, x.2.filter (fun l => l.fibre != k))) } else s

/-! ### Single accesses within one line (R139) -/

/-- A line that missed in a core's first-level cache: the miss is counted, and the line is installed with a lease to `till`. -/
def State.install (s : State) (ctx core lk till : Nat) (ok counts : Bool) : State :=
  let s := if counts then s.bump ctx core 3 1 else s
  if !ok then s
  else
    let l := s.lineOf lk
    let s := s.putLine lk { l with copies := l.copies.filter (fun (x : Copy) => x.core != core) }
    let (b, s) := s.makeRoom ctx core
    let l := s.lineOf lk
    s.putLine lk { l with
      rts := max l.rts till
      copies := { core := core, bank := b, wts := l.wts, rts := till, data := s.rawRead (lineBase lk) 128 } :: l.copies }
/-- The copy of a line in the host's caches once an agent has read or written it at the home (R362): a device access that conflicts with it recalls
it with a back-invalidate snoop, and the host's own leaves it one. -/
def Line.recalled (l : Line) (ag : Agent) (wr : Bool) : Option Bool :=
  if ag.host then some (wr || l.hostCopy == some true) else if wr || l.hostCopy == some true then none else l.hostCopy
/-- The home grants a read at stamp ts: the line's reads reach it, another core's exclusive hold ends, a copy that the host holds for itself is
recalled (R362), and a core's first-level cache that missed gets a lease of at most 256 pips beyond the access (R139, R141). -/
def State.grant (s : State) (ag : Agent) (p : PA) (ts : Nat) (ok miss : Bool) : State :=
  let l := s.lineOf p.line
  let s := s.putLine p.line { l with rts := max l.rts ts, excl := if l.excl == ag.core then l.excl else none, hostCopy := l.recalled ag false }
  match ag.core with
  | some c => if p.sp == Space.dev then s.install ag.ctx c p.line (ts + min 256 (Config.leasePips s.accesses)) ok (miss && ag.found == 0) else s
  | none => s
/-- A load of n bytes at p. A first-level copy whose lease covers the stamp answers with its own data, fewer than 256 pips before the lease's end,
whichever fibre of the core obtained it (R141: the 257th load at the latest sees a store made at the home); otherwise the home does, merging a
U line first, and grants a lease of at most 256 pips beyond the access (R139, R141, R161). -/
def State.readAt (s : State) (ag : Agent) (va : Nat) (p : PA) (n : Nat) : Acc :=
  let l := s.lineOf p.line
  let hit : Option Copy := match ag.core with
    | some c => if p.sp == Space.dev && !l.poison then l.copies.find? (fun (x : Copy) => x.core == c && decide (max ag.ts x.wts ≤ x.rts) && decide (x.rts < max ag.ts x.wts + 256)) else none
    | none => none
  let s := { s with accesses := s.accesses + 1 }
  match hit with
  | some x =>
    let ts := max ag.ts x.wts
    ⟨(s.logAccess ag ts va n).countAccess ag va p, s.pip ts, (x.data.drop (p.a % 128)).take n, false⟩
  | none =>
    let s := s.merge p.line ag.found
    let (err, s) := s.readCheck p n ag.found
    let ts := max ag.ts (s.lineOf p.line).wts
    let s := s.grant ag p ts (!err) (l.excl != ag.core)
    ⟨(s.logAccess ag ts va n).countAccess ag va p, s.pip ts, if err then [] else s.rawRead p n, err⟩
/-- The pieces of n bytes at a within lines, in address order (R139). -/
def pieces (a n : Nat) : List (Nat × Nat) :=
  if a % 128 + n ≤ 128 then [(a, n)] else [(a, 128 - a % 128), (a + (128 - a % 128), n - (128 - a % 128))]
/-- One load access over several lines: one stamp for all. -/
def State.readParts (s : State) (ag : Agent) (va : Nat) (p : PA) (n : Nat) (ps : List (PA × Nat)) : Acc :=
    let s := { s with accesses := s.accesses + 1 }
    let s := ps.foldl (fun (s : State) x => s.merge x.1.line ag.found) s
    let (err, s) := ps.foldl (fun (r : Bool × State) x =>
      let (b, s) := r.2.readCheck x.1 x.2 ag.found
      (r.1 || b, s)) (false, s)
    let ts := ps.foldl (fun t x => max t (s.lineOf x.1.line).wts) ag.ts
    let miss (s : State) (x : PA) : Bool := !(s.lineOf x.line).copies.any (fun c => ag.core == some c.core && decide (ts ≤ c.rts))
    let s := ps.foldl (fun (s : State) x => s.grant ag x.1 ts (!err) (miss s x.1)) s
    ⟨(s.logAccess ag ts va n).countAccess ag va p, s.pip ts, if err then [] else ps.flatMap (fun x => s.rawRead x.1 x.2), err⟩
/-- One load access of n bytes at p that may span two lines, as the view loads of R134 and R139. -/
def State.readSpan (s : State) (ag : Agent) (va : Nat) (p : PA) (n : Nat) : Acc :=
  match pieces p.a n with
  | [_] => s.readAt ag va p n
  | xs => s.readParts ag va p n (xs.map (fun x => ({ p with a := x.1 }, x.2)))

/-- Bytes have been written: where they are in the leaf of a page that a hand-over left without a serving owner, software has written it (R473). -/
def State.leafWritten (s : State) (p : PA) (n : Nat) : State :=
  if s.ctxs.any (fun c => c.2.migr.any (fun r => !r.pending.isEmpty)) then
    let hit (q : PA) : Bool := q.sp == p.sp && decide (q.a < p.a + n) && decide (p.a < q.a + 8)
    { s with ctxs := s.ctxs.map (fun c => (c.1, { c.2 with migr := c.2.migr.map (fun r => { r with pending := r.pending.filter (fun x => !hit x.2) }) })) }
  else s
/-- Whether a granule belongs to a live context's save area (R407). -/
def Ctx.saves (c : Ctx) (g : Nat) : Bool := decide (c.d.savegr ≤ g) && decide (g < c.d.savegr + 1730 * c.d.psize)
def State.inSaveArea (s : State) (g : Nat) : Bool := s.ctxs.any (fun c => c.2.saves g)
/-- Bytes have been written in a context's save area: what was saved there is undefined from then on (R407). -/
def State.areaWrite (s : State) (p : PA) : State :=
  if p.sp == Space.dev && s.ctxs.any (fun c => c.2.saves (p.a / 65536) && !c.2.areaWritten) then
    { s with ctxs := s.ctxs.map (fun c => (c.1, { c.2 with areaWritten := c.2.areaWritten || c.2.saves (p.a / 65536) })) }
  else s
/-- The write of bytes within a line at stamp ts, with what it does to the line's state (R139, R362, R456, R500), to its watchers
(R344), to what was saved there (R407) and to the first-level cache of its core, which then holds the line (R26, R154). -/
def State.writeLine (s : State) (ag : Agent) (p : PA) (ts : Nat) (bs : List Byte) : State :=
  let l := s.lineOf p.line
  let there := l.excl == ag.core || l.copies.any (fun x => ag.core == some x.core)
  let full := decide (bs.length = 128)
  let s := if l.hidden ≠ 0 ∧ ¬ full then (s.readCheck p bs.length ag.found).2 else s
  let l := s.lineOf p.line
  let s := s.putLine p.line { l.written p.a bs.length with
    wts := ts, rts := ts, hidden := if full then 0 else l.hidden, hostCopy := l.recalled ag true,
    excl := ag.core, copies := l.copies.filter (fun x => ag.core != some x.core) }
  let s := (((s.rawWrite p bs).wake p.line).leafWritten p bs.length).areaWrite p
  match ag.core with
  | some c => if p.sp == Space.dev then s.install ag.ctx c p.line ts true (ag.found == 0 && !there) else s
  | none => s
/-- That write, with what it leaves in the access log and the migration counters (R365, R373, R417). -/
def State.writeHome (s : State) (ag : Agent) (va : Nat) (p : PA) (ts : Nat) (bs : List Byte) : State :=
  ((s.writeLine ag p ts bs).logAccess ag ts va bs.length).countAccess ag va p
/-- A store of bytes within one line, placed beyond every lease granted (R139); it merges a U line first (R161, R166). -/
def State.writeAt (s : State) (ag : Agent) (va : Nat) (p : PA) (bs : List Byte) : Acc :=
  let s := ({ s with accesses := s.accesses + 1 }).merge p.line ag.found
  let ts := max ag.ts ((s.lineOf p.line).rts + 1)
  ⟨s.writeHome ag va p ts bs, s.pip ts, [], false⟩
/-- One store access of bytes at p that may span two lines, as an SX block does (R284): one stamp for both. -/
def State.writeSpan (s : State) (ag : Agent) (va : Nat) (p : PA) (bs : List Byte) : Acc :=
  match pieces p.a bs.length with
  | [_] => s.writeAt ag va p bs
  | xs =>
    let s := xs.foldl (fun (s : State) x => s.merge (PA.line { p with a := x.1 }) ag.found) { s with accesses := s.accesses + 1 }
    let ts := xs.foldl (fun t x => max t ((s.lineOf (PA.line { p with a := x.1 })).rts + 1)) ag.ts
    let s := xs.foldl (fun (s : State) x => s.writeLine ag { p with a := x.1 } ts ((bs.drop (x.1 - p.a)).take x.2)) s
    ⟨(s.logAccess ag ts va bs.length).countAccess ag va p, s.pip ts, [], false⟩
/-- One indivisible read-modify-write of n bytes at p (R137, R154); an uncorrectable read makes no write. -/
def State.rmwAt (s : State) (ag : Agent) (va : Nat) (p : PA) (n : Nat) (g : List Byte → List Byte) : Acc :=
  let s := ({ s with accesses := s.accesses + 1 }).merge p.line ag.found
  let (err, s) := s.readCheck p n ag.found
  let ts := max ag.ts ((s.lineOf p.line).rts + 1)
  if err then ⟨s, s.pip ts, [], true⟩
  else
    let old := s.rawRead p n
    ⟨s.writeHome ag va p ts (g old), s.pip ts, old, false⟩

/-- Whether the line of p is claimed, so that an access to it waits (R151, R366). -/
def State.claimed (s : State) (p : PA) : Bool := s.claims.any (fun c => c.1 == p.line)

/-! ### Translation (R109 to R115) -/

/-- The stored place of view offset o (R133): byte offset of the element or block in the backing, and the element's index in its block. -/
def View.place (v : View) (o : Nat) : Nat × Nat :=
  let i := o / 4
  if v.fmt ≤ 3 then (i * 2, 0)
  else if v.fmt ≤ 5 then (i, 0)
  else if !v.geo then (i / 16 * sxBytes v.fmt, i % 16)
  else
    let p := 2 ^ (6 + v.g)
    let row := o / p
    let col := o % p / 4
    ((row / 16 * (p / 4) + col) * sxBytes v.fmt, row % 16)
/-- Bytes of a view's stored unit (R132). -/
def View.unit (v : View) : Nat := if v.fmt ≤ 3 then 2 else if v.fmt ≤ 5 then 1 else sxBytes v.fmt
/-- The stored bytes that n view bytes at an offset cover: first byte and length; elements and blocks side by side (R133). -/
def View.span (v : View) (off n : Nat) : Nat × Nat :=
  let a := (v.place off).1
  (a, (v.place (off + n - 4)).1 + v.unit - a)

/-- The view offsets of the elements of the block that holds offset o (R133). -/
def View.blockAt (v : View) (o : Nat) : List Nat :=
  let p := 2 ^ (6 + v.g)
  (List.range 16).map (fun i => if v.geo then (o / p / 16 * 16 + i) * p + o % p / 4 * 4 else o / 64 * 64 + 4 * i)
/-- The virtual bytes that a store of n stored bytes at view offset `off`, virtual address va, touches: those of its elements or of its block. -/
def View.touched (v : View) (va off n : Nat) : List (Nat × Nat) :=
  if v.fmt ≤ 5 then [(va, n / v.unit * 4)] else (v.blockAt off).map (fun o => (va - off + o, 4))
/-- A leaf of the page walk (R113, R114): LOC, physical base (or the owner's index), page size, attributes, its own address. -/
structure Leaf where
  loc : Nat
  base : Nat
  size : Nat
  w : Bool
  x : Bool
  fh : Bool
  fc : Bool
  view : Option View
  pte : PA
  deriving DecidableEq, Repr

def FaultInfo.page (va : Nat) (cause lvl : Nat) : FaultInfo := ⟨0x10, cause, lvl, BitVec.ofNat 64 va⟩
def FaultInfo.prot (va : Nat) (cause : Nat) : FaultInfo := ⟨0x11, cause, 0, BitVec.ofNat 64 va⟩
def FaultInfo.align (va : Nat) (cause : Nat) : FaultInfo := ⟨0x34, cause, 0, BitVec.ofNat 64 va⟩
def FaultInfo.format (va : Nat) (cause : Nat) : FaultInfo := ⟨0x43, cause, 0, BitVec.ofNat 64 va⟩

/-- Bytes of stored backing for a view page of a size (R132). -/
def viewBacking (fmt size : Nat) : Nat :=
  if fmt ≤ 3 then size / 2 else if fmt ≤ 5 then size / 4 else if fmt = 6 then size / 8 else if fmt = 7 then size * 3 / 16 else size * 9 / 32
/-- What is wrong with a page-table entry at a level (R114, R422), causes tested in ascending order. -/
def pteCause (lvl e size : Nat) : Option Nat :=
  let leaf := bitOf e 1
  let loc := bitsOf e 6 2
  let view := bitOf e 8
  let fmt := bitsOf e 9 4
  let geo := bitOf e 13
  let g := bitsOf e 14 3
  let addr := bitsOf e 20 44 * 256
  if !bitOf e 0 then some 1
  else if (leaf && decide (lvl ≤ 1)) || (!leaf && lvl == 4) then some 2
  else if !leaf ∧ addr % (if lvl = 3 then 256 else 4096) ≠ 0 then some 3
  else if leaf ∧ loc ≠ 3 ∧ !view ∧ addr % size ≠ 0 then some 3
  else if 1 < (bitOf e 4).toNat + (bitOf e 5).toNat + view.toNat then some 4
  else if bitsOf e 17 3 ≠ 0 then some 5
  else if !leaf ∧ 2 ≤ loc then some 5
  else if leaf ∧ loc = 3 ∧ bitsOf e 27 37 ≠ 0 then some 5
  else if view ∧ (fmt < 2 ∨ 8 < fmt ∨ bitOf e 3) then some 5
  else if !view ∧ fmt ≠ 0 then some 5
  else if geo ∧ (fmt < 6 ∨ !view) then some 5
  else if !geo ∧ g ≠ 0 then some 5
  else if leaf ∧ geo ∧ size < 16 * 2 ^ (6 + g) then some 6
  else none
/-- The walk from a table (R113), over the levels left as (level, shift, index bits). -/
def State.walkFrom (s : State) (ctx va : Nat) : List (Nat × Nat × Nat) → PA → Except FaultInfo Leaf
  | [], _ => .error (FaultInfo.page va 2 4)
  | (lvl, sh, bits) :: r, tab =>
    let at_ : PA := { tab with a := tab.a + 8 * bitsOf va sh bits }
    if at_.sp == Space.dev && s.granOwner (at_.a / 65536) != some ctx then .error (FaultInfo.prot va 9)
    else
      let e := ofBytes (s.peek at_ 8)
      match pteCause lvl e (2 ^ sh) with
      | some c => .error (FaultInfo.page va c lvl)
      | none =>
        let addr := bitsOf e 20 44 * 256
        if bitOf e 1 then
          .ok { loc := bitsOf e 6 2, base := if bitsOf e 6 2 = 3 then bitsOf e 20 7 else addr, size := 2 ^ sh, w := bitOf e 2, x := bitOf e 3,
                fh := bitOf e 4, fc := bitOf e 5,
                view := if bitOf e 8 then some ⟨bitsOf e 9 4, bitOf e 13, bitsOf e 14 3⟩ else none, pte := at_ }
        else State.walkFrom s ctx va r ⟨if bitsOf e 6 2 = 1 then .host else .dev, addr⟩
/-- The entries that a walk reads, down to its leaf or its first fault (R113). -/
def State.walkEntries (s : State) (ctx va : Nat) : List (Nat × Nat × Nat) → PA → List PA
  | [], _ => []
  | (lvl, sh, bits) :: r, tab =>
    let at_ : PA := { tab with a := tab.a + 8 * bitsOf va sh bits }
    if at_.sp == Space.dev && s.granOwner (at_.a / 65536) != some ctx then []
    else
      let e := ofBytes (s.peek at_ 8)
      if (pteCause lvl e (2 ^ sh)).isSome || bitOf e 1 then [at_]
      else at_ :: State.walkEntries s ctx va r ⟨if bitsOf e 6 2 = 1 then .host else .dev, bitsOf e 20 44 * 256⟩
def walkLevels : List (Nat × Nat × Nat) := [(0, 48, 9), (1, 39, 9), (2, 30, 9), (3, 21, 9), (4, 16, 5)]
/-- The walk of a context's tables for a virtual address (R113, R115). -/
def State.walk (s : State) (ctx va : Nat) : Except FaultInfo Leaf :=
  match s.ctx ctx with
  | none => .error (FaultInfo.page va 1 0)
  | some c => s.walkFrom ctx va walkLevels ⟨if c.d.tloc = 1 then .host else .dev, c.d.troot⟩

def winBase : Nat := 0x1FFFFFF00000000
/-- The entries that the walk of a virtual address reads; none in the window region (R109). -/
def State.walkPath (s : State) (ctx va : Nat) : List PA :=
  if winBase ≤ va then []
  else match s.ctx ctx with
  | none => []
  | some c => s.walkEntries ctx va walkLevels ⟨if c.d.tloc = 1 then .host else .dev, c.d.troot⟩
/-- Counts an access made by physical address: to a page of a migration range whose backing holds the place (R365). -/
def State.countBacking (s : State) (ag : Agent) (p : PA) : State :=
  match s.ctx ag.ctx with
  | none => s
  | some c =>
    let back (r : MigRange) : Nat := if p.sp = .dev then r.dback else r.hback
    match c.migr.find? (fun r => p.sp != .sram && decide (back r ≤ p.a) && decide (p.a < back r + 65536 * r.pages)) with
    | some r => s.countAccess ag (r.vbase + (p.a - back r)) p
    | none => s
/-- The reads of a walk as loads in the memory order (R115, R136, R161, R365): each entry's line is merged and checked for errors at its home,
and the access that the walk serves comes after the entry's last store. The reads themselves count no pips (log 71). -/
def State.walkLoads (s : State) (ag : Agent) (va : Nat) : Acc :=
  (s.walkPath ag.ctx va).foldl (fun (r : Acc) p =>
    let s := r.s.merge p.line ag.found
    let (err, s) := s.readCheck p 8 ag.found
    let l := s.lineOf p.line
    let ts := max r.ts l.wts
    ⟨(s.putLine p.line { l with rts := max l.rts ts }).countBacking ag p, ts, [], r.err || err⟩) ⟨s, ag.ts, [], false⟩
/-- Whether a line that a walk reads is claimed, so that the walk waits (R151). -/
def State.walkWaits (s : State) (ctx va : Nat) : Bool := !s.claims.isEmpty && (s.walkPath ctx va).any (fun p => s.claimed p)
/-- A context's fetch of instructions as an agent: its stamp, and FOUND of the error log (R454). -/
def fetchAgent (ctx ts found : Nat) : Agent := { ts := ts, core := none, ctx := ctx, kind := 0, req := 0, found := found, host := false, peer := none, touch := [] }
/-- Makes the memory that a fetch reads ready: the walk's entries, once none is claimed, and then the line itself are read as loads, each merged
and checked for errors (R115, R161, R454); an uncorrectable error stops the context (R455). -/
def State.prepLine (s : State) (ag : Agent) (la : Nat) : State :=
  if s.walkWaits ag.ctx la then s
  else
    let r := s.walkLoads ag la
    if r.err then r.s.stopFor ag.ctx
    else match r.s.walk ag.ctx la with
    | .error _ => r.s
    | .ok lf =>
      if lf.loc = 3 then r.s
      else
        let p : PA := ⟨if lf.loc = 0 then .dev else .host, lf.base + la % lf.size⟩
        let (err, t) := (r.s.merge p.line ag.found).readCheck p 64 ag.found
        if err then t.stopFor ag.ctx else t

/-- Whose address a check is made for: a fibre, engine or sequencer of a context on a core, with the team whose band opens the
cluster window. -/
structure Who where
  ctx : Nat
  launch : Nat
  core : Nat
  team : Option Nat
  deriving DecidableEq, Repr

/-- The base of a core's SRAM for a context in the model's SRAM store. -/
def sramBase (ctx core : Nat) : Nat := (ctx * 384 + core) * 2 ^ 21
/-- Whether a team of the band of team t stands on core c (R111). -/
def State.bandOn (s : State) (t : Nat) (c : Nat) : Bool :=
  match s.team t with
  | none => false
  | some x => x.ofBand && s.teams.any (fun y => y.2.ctx == x.ctx && y.2.launch == x.launch && y.2.band == x.band && y.2.core == c)
/-- A scratchpad address of a core, its bank in scratchpad role (R111). -/
def State.scratch (s : State) (w : Who) (core off va n : Nat) : Except FaultInfo Place :=
  if (s.cc w.ctx core).role (off / 65536) ≠ 1 then .error (FaultInfo.prot va 3)
  else if va % n ≠ 0 then .error (FaultInfo.align va 2)
  else .ok (.mem ⟨.sram, sramBase w.ctx core + off⟩ 4)
/-- A window address (R110, R111): n is the width it must be aligned to; causes 2, 3, 4 and 11 in that order (R437). -/
def State.window (s : State) (w : Who) (va n : Nat) (wr : Bool) : Except FaultInfo Place :=
  let off := va - winBase
  if off < 0x200000 then s.scratch w w.core off va n
  else if 0x10000000 ≤ off ∧ off < 0x10000000 + 0x6000000 then
    let c := 48 * clusterOf w.core + (off - 0x10000000) / 0x200000
    if (s.cc w.ctx c).role ((off - 0x10000000) % 0x200000 / 65536) ≠ 1 then .error (FaultInfo.prot va 3)
    else match w.team with
    | none => .error (FaultInfo.prot va 4)
    | some t => if s.bandOn t c then s.scratch w c ((off - 0x10000000) % 0x200000) va n else .error (FaultInfo.prot va 4)
  else if 0x20000000 ≤ off ∧ off < 0x20000000 + 0x200000 then .error (FaultInfo.prot va 11)
  else if 0x30000000 ≤ off ∧ off < 0x30000000 + 0x2000 then
    if wr then .error (FaultInfo.prot va 11)
    else if va % n ≠ 0 then .error (FaultInfo.align va 2) else .ok (.const (off - 0x30000000))
  else .error (FaultInfo.prot va 2)
/-- Whether a virtual address lies in a context's frame heap or future-cell region (R61, R88). -/
def CtxDesc.inRegion (d : CtxDesc) (va : Nat) : Bool :=
  (decide (d.fhbase ≤ va) && decide (va < d.fhbase + d.fhsize * 0x200000)) || (decide (d.fcbase ≤ va) && decide (va < d.fcbase + d.fcsize * 0x200000))
/-- A page that a hand-over left without a serving owner, until software writes its leaf (R473). -/
def State.deadPage (s : State) (ctx va : Nat) (pte : PA) : Bool := match s.ctx ctx with
  | none => false
  | some c => c.migr.any (fun r => decide (r.vbase ≤ va) && decide (va < r.vbase + 65536 * r.pages)
      && Tab.get r.pending ((va - r.vbase) / 65536) == some pte)
/-- The walk of an address and its leaf's PAGE cause 9 and PROT causes 5 and 7; the flag says that the address lies in the frame heap or
future-cell region. -/
def State.resolveLeaf (s : State) (w : Who) (va : Nat) (wr : Bool) : Except FaultInfo (Leaf × Bool) :=
  match s.walk w.ctx va with
  | .error e => .error e
  | .ok lf =>
    let inReg := match s.ctx w.ctx with
      | some c => c.d.inRegion va
      | none => false
    if lf.loc = 3 ∧ s.link.unreach.contains lf.base then .error (FaultInfo.page va 9 0)
    else if s.deadPage w.ctx va lf.pte then .error (FaultInfo.page va 9 0)
    else if wr && !lf.w then .error (FaultInfo.prot va 5)
    else if wr && (lf.fh || lf.fc || inReg) then .error (FaultInfo.prot va 7)
    else .ok (lf, inReg)
/-- The checks of one address in the order of R437 (6): PROT cause 1, windows, ALIGN, the walk, then PROT causes 5, 7, 9. `al` is
the alignment ordinary memory asks for, n the width. The context's own save area reads as what the device wrote there, in a layout of its own
(R407, log 82). -/
def State.resolve (s : State) (w : Who) (a : DWord) (n al : Nat) (wr : Bool) : Except FaultInfo Place :=
  let va := a.toNat
  if 2 ^ 57 ≤ va then .error (FaultInfo.prot va 1)
  else if winBase ≤ va then s.window w va n wr
  else if va % al ≠ 0 then .error (FaultInfo.align va 1)
  else match s.resolveLeaf w va wr with
    | .error e => .error e
    | .ok (lf, inReg) =>
      if lf.loc = 3 then .ok (.peer lf.base none)
      else
        let off := va % lf.size
        let sp : Space := if lf.loc = 0 then .dev else .host
        match lf.view with
        | some v =>
          let (o, k) := v.span off (max n 4)
          if lf.loc = 0 ∧ s.owns w.ctx (lf.base + o) k = false then .error (FaultInfo.prot va 9)
          else .ok (.view v lf.base lf.size off lf.loc)
        | none =>
          if lf.loc = 0 ∧ s.granOwner ((lf.base + off) / 65536) ≠ some w.ctx then .error (FaultInfo.prot va 9)
          else if inReg || (!wr && lf.loc == 0 && s.inSaveArea ((lf.base + off) / 65536)) then .ok (.region va ⟨sp, lf.base + off⟩)
          else .ok (.mem ⟨sp, lf.base + off⟩ lf.loc)

/-! ### Instruction lines (R186 to R189, R438, R439) -/

/-- Whether a 64-byte line passes the parity of every word (R187). -/
def popcount (x : Nat) : Nat := (List.range 32).foldl (fun n i => n + (bitOf x i).toNat) 0
def parityOk (ws : List Word) : Bool :=
  let lw := (ws.getD 15 0).toNat
  (List.range 15).all (fun i => (popcount (ws.getD i 0).toNat + (bitOf lw (16 + i)).toNat) % 2 == 0)
    && (popcount (lw % 2 ^ 16) + (bitOf lw 31).toNat) % 2 == 0
/-- A line that its owner has answered for a port, a sequencer or another agent of the context (R371). -/
def State.codeLine (s : State) (ctx la : Nat) : Option PeerReply :=
  let of (l : List (Nat × Nat × Option PeerReply)) : Option PeerReply := (l.find? (fun x => x.1 == la)).bind (fun x => x.2.2)
  ((s.ports.findSome? (fun (p : Nat × PortRun) => match Tab.get s.crews p.2.crew with
    | some c => if c.ctx = ctx then of p.2.code else none
    | none => none)).or (s.teams.findSome? (fun (t : Nat × Team) => if t.2.ctx = ctx then of t.2.seqr.code else none))).or
    ((s.codeAsks.find? (fun x => x.ctx == ctx && x.line == la && x.len == 0)).bind CodeAsk.reply)
/-- The answer of a fetch from a LOC 3 page that its owner has not been asked for yet, or from memory that is not ready: no fault of the spec.
The agent that needs the line asks for it (R371) or has it made ready, and goes on then. -/
def FaultInfo.unfetched (la : Nat) : FaultInfo := ⟨0, 0, 0, BitVec.ofNat 64 la⟩
/-- Whether the memory that a fetch reads is not ready: an entry of its walk claimed (R151) or to be merged first (R161), or an uncorrectable
error in one (R454). -/
def State.walkUnready (s : State) (ctx la : Nat) : Bool :=
  (s.walkPath ctx la).any (fun p => s.claimed p || (s.lineOf p.line).upd.isSome || (s.readCheck p 8 0).1)
/-- The same for the line itself. -/
def State.lineUnready (s : State) (p : PA) : Bool := (s.lineOf p.line).upd.isSome || (s.readCheck p 64 0).1
/-- The 16 words of the line at a line address, or PAGE, PROT, ENCODING cause 6 ARGX 1; no fetch leaves the tables' X pages
(R110, R189). The flag says that the line holds an uncorrectable error. -/
def State.fetchLine (s : State) (ctx : Nat) (la : Nat) : Except FaultInfo (List Word × PA) :=
  if 2 ^ 57 ≤ la then .error (FaultInfo.prot la 1)
  else if winBase ≤ la then .error (FaultInfo.prot la 6)
  else if s.walkUnready ctx la then .error (FaultInfo.unfetched la)
  else match s.walk ctx la with
    | .error e => .error e
    | .ok lf =>
      if (lf.loc = 3 ∧ s.link.unreach.contains lf.base) ∨ s.deadPage ctx la lf.pte then .error (FaultInfo.page la 9 0)
      else if !lf.x then .error (FaultInfo.prot la 6)
      else if lf.loc = 3 then
        match s.codeLine ctx la with
        | some (.done bs) => if parityOk (wordsOf bs) then .ok (wordsOf bs, ⟨.sram, 2 ^ 60⟩) else .error ⟨0x30, 6, 1, 0⟩
        | some (.fault tag cause argx) => .error ⟨tag, cause.toNat, argx.toNat, BitVec.ofNat 64 la⟩
        | some (.view ..) => .error (FaultInfo.prot la 6)
        | none => .error (FaultInfo.unfetched la)
      else if lf.loc = 0 ∧ s.granOwner ((lf.base + la % lf.size) / 65536) ≠ some ctx then .error (FaultInfo.prot la 9)
      else
        let p : PA := ⟨if lf.loc = 0 then .dev else .host, lf.base + la % lf.size⟩
        let ws := wordsOf (s.rawRead p 64)
        if s.lineUnready p then .error (FaultInfo.unfetched la)
        else if parityOk ws then .ok (ws, p) else .error ⟨0x30, 6, 1, 0⟩
/-- Fields of the line word (R186). -/
def lineTmask (ws : List Word) (i : Nat) : Bool := bitOf (ws.getD 15 0).toNat i
def lineLmask (ws : List Word) (i : Nat) : Bool := bitOf (ws.getD 15 0).toNat (5 + i)
def linePair (ws : List Word) : Nat := bitsOf (ws.getD 15 0).toNat 10 4
/-- The slots each template pairs (R192). -/
def pairSlots (n : Nat) : List Nat :=
  match n with
  | 0 => []
  | 1 => [0, 1]
  | 2 => [1, 2]
  | 3 => [2, 3]
  | 4 => [3, 4]
  | 5 => [0, 1, 2, 3]
  | 6 => [1, 2, 3, 4]
  | _ => [0, 1, 3, 4]
/-- The first defect of a line word, as ARGX of CAUSE 6, parity apart (R439). -/
def lineDefect (ws : List Word) (stream : Bool) : Option Nat :=
  if bitsOf (ws.getD 15 0).toNat 14 2 ≠ 0 then some 0
  else if 8 ≤ linePair ws then some 2
  else if (pairSlots (linePair ws)).any (lineLmask ws) then some 3
  else if stream && linePair ws != 0 then some 4
  else none
/-- The lowest slot from i on that is no literal slot. -/
def slotFrom (ws : List Word) (i : Nat) : Option Nat := (List.range 5).find? (fun j => decide (i ≤ j) && !lineLmask ws j)
/-- The 96 bits of slot i. -/
def slotBits (ws : List Word) (i : Nat) : Nat :=
  (ws.getD (3 * i) 0).toNat + 2 ^ 32 * (ws.getD (3 * i + 1) 0).toNat + 2 ^ 64 * (ws.getD (3 * i + 2) 0).toNat
/-- The target check of R190 in the order of R445; a line that cannot be fetched gives its own fault, and one that its owner has not been
asked for the mark by which the checking agent asks for it. -/
def State.checkTarget (s : State) (ctx : Nat) (pc : DWord) : Option FaultInfo :=
  let x := pc.toNat
  if 4 < x % 8 ∨ x / 8 % 8 ≠ 0 then some ⟨0x31, 3, 0, pc⟩
  else match s.fetchLine ctx (x / 64 * 64) with
    | .error e => some e
    | .ok (ws, _) =>
      if lineLmask ws (x % 8) then some ⟨0x31, 2, 0, pc⟩
      else if lineTmask ws (x % 8) then none
      else some ⟨0x31, 1, 0, pc⟩
/-- A line of literal slots only is passed over, as many as there are (R189). -/
def State.nextSlotFuel : Nat → State → Nat → Nat → Nat → DWord
  | 0, _, _, la, i => BitVec.ofNat 64 (la + i)
  | n + 1, s, ctx, la, i =>
    match s.fetchLine ctx la with
    | .error _ => BitVec.ofNat 64 (la + i)
    | .ok (ws, _) => match slotFrom ws i with
      | some j => BitVec.ofNat 64 (la + j)
      | none => State.nextSlotFuel n s ctx (la + 64) 0
/-- The next instruction slot after the slot at pc (R189). A next line that cannot be fetched yet is entered at slot 0. -/
def State.nextSlot (s : State) (ctx : Nat) (pc : DWord) : DWord :=
  s.nextSlotFuel (2 ^ 51) ctx (pc.toNat / 64 * 64) (pc.toNat % 64 + 1)

end Sys2Proof.Machine
end

