-- ==== Sys2Proof/Machine/Reach.lean ====
section
/-! DEFINITION. References, reclamation and the end of fibres (R98, R100 to R107, R263, R297, R427, R432), masks and barriers as
they are tested again (R57, R295 to R297), and the dealer's bins (R37 to R39). -/

namespace Sys2Proof.Machine

/-- Raises a fibre's stamp as an access placed at ts does, counting the access. -/
def State.stampAccess (s : State) (k : Nat) : State :=
  { s.modFibre k (fun f => { f with stamp := s.pip f.stamp }) with accesses := s.accesses + 1 }
/-- The descriptor of a context, for totality. -/
def CtxDesc.zero : CtxDesc :=
  { ctxid := 0, kslot := 0, pfirst := 0, psize := 0, hostmem := false, tloc := 0, srseed := 0, troot := 0, fhbase := 0, fhsize := 0,
    fcbase := 0, fcsize := 0, hdmbase := 0, hdmsize := 0, savegr := 0 }
def State.cdesc (s : State) (ctx : Nat) : CtxDesc := match s.ctx ctx with
  | some c => c.d
  | none => CtxDesc.zero
/-- The line of memory under an address of a context's frame heap or future-cell region: the home at which blocks and cells are placed
in the order (R77, R81, R94). -/
def State.heapLine (s : State) (ctx va : Nat) : Option Nat := match s.walk ctx va with
  | .ok lf => if lf.loc ≤ 1 ∧ lf.view = none then some (PA.line ⟨if lf.loc = 0 then .dev else .host, lf.base + va % lf.size⟩) else none
  | .error _ => none
/-- What the translation of an access to a segment, a block or a cell finds (R406): PAGE or PROT of the walk, or a leaf that names a granule
which the context does not own, PROT cause 9 (R408). -/
def State.heapFault (s : State) (ctx va : Nat) : Option FaultInfo := match s.walk ctx va with
  | .error x => some x
  | .ok lf => if lf.loc = 0 ∧ s.granOwner ((lf.base + va % lf.size) / 65536) ≠ some ctx then some (FaultInfo.prot va 9) else none
/-- Places an access of the device to a block or a cell at its home: a load after the last write there, an atomic or a store beyond
every read too (R137, R139); answers its stamp. -/
def State.placeAt (s : State) (ctx va ts : Nat) (wr : Bool) : Nat × State :=
  match s.heapLine ctx va with
  | none => (ts, s)
  | some lk =>
    let l := s.lineOf lk
    let t := if wr then max ts (l.rts + 1) else max ts l.wts
    (t, s.putLine lk (if wr then { l with wts := t, rts := t } else { l with rts := max l.rts t }))
/-- One access of fibre k to the block or cell at va (R77, R81, R94). -/
def State.heapAccess (s : State) (k va : Nat) (wr : Bool) : State :=
  match s.fibre k with
  | none => s
  | some f =>
    let (t, s) := s.placeAt f.ctx va f.stamp wr
    { s.modFibre k (fun f => { f with stamp := s.pip t }) with accesses := s.accesses + 1 }
/-- What n bytes stored at a block do to a poisoned line, or one with an error not yet read: a line wholly written is whole again (R456). -/
def State.heapWrote (s : State) (ctx va n : Nat) : State := match s.heapLine ctx va with
  | none => s
  | some lk =>
    let l := s.lineOf lk
    let secs := if l.poison then l.sectors ||| BitVec.ofNat 8 (maskOf (sectorsCovered (va % 128) n)) else 0
    if l.poison || l.hidden != 0 then s.putLine lk { l with
      hidden := if n = 128 then 0 else l.hidden, poison := l.poison && secs != 0xFF, sectors := if secs = 0xFF then 0 else secs }
    else s
/-- The address of cell i. -/
def CtxDesc.cellAddr (d : CtxDesc) (i : Nat) : Nat := d.fcbase + 64 * i

/-- Whether a fibre has a far atomic or RED on its way to a banker (R155). -/
def State.farPending (s : State) (k : Nat) : Bool :=
  s.clusters.any (fun c => c.2.banker.any (fun r => r.fibre == k) || c.2.farBuf.any (fun r => r.fibre == k))
/-- Whether a fibre has an access of an earlier issue still to be made (R137, R275). -/
def State.jobPending (s : State) (k : Nat) : Bool := s.jobs.any (fun j => j.todo.any (fun m => m.key == k) || j.left.any (fun m => m.key == k))
/-- Whether an access of a fibre has left its port and is not yet placed. -/
def State.inFlight (s : State) (k : Nat) : Bool := s.farPending k || s.jobPending k
/-- Whether a command taken by PUSH has claims not yet placed, or a remote call's record not yet read (R151, R374): accesses that come
before what the issuing lane does next. -/
def Cmd.pending (c : Cmd) : Bool := !c.began && (c.due || c.tgts.any (fun t => t.claim != .placed) || (match c.req with
  | some (_, none) => true
  | _ => false))
def State.pushPending (s : State) (k : Nat) : Bool :=
  s.clusterCtx.any (fun x => x.2.chans.any (fun c => c.2.cmds.any (fun m => m.fibre == k && m.pending)))
    || s.link.queue.any (fun m => m.fibre == k && m.pending)
/-- Whether a fibre has an access not yet placed: one on its way to a banker or to its place (R275), a FIFOR that nothing has fed (R124, R144), the claims of a PUSH
(R151), or a reference instruction that waits behind such an access (R94). -/
def State.unplaced (s : State) (k : Nat) : Bool :=
  s.inFlight k || s.pushPending k || s.fills.any (fun x => x.fibre == k && x.vals.isEmpty) || (match s.fibre k with
    | some f => !f.refs.isEmpty
    | none => false)

/-! ### Trailer conditions -/

/-- The fibres of a crew, in ascending lane order. -/
def State.crewFibres (s : State) (c : Crew) : List Fibre := c.lanes.filterMap (fun l => l.bind s.fibre)
/-- The fibres of a team. -/
def State.teamFibres (s : State) (t : Team) : List Fibre := t.crews.flatMap (fun k => match s.crew k with
  | some c => s.crewFibres c
  | none => [])
def Cond.isWaitm (m : Nat) : Cond → Bool
  | .waitm n => n == m
  | _ => false
/-- Tests the release of WAITM on mask m again (R57): when every lane whose bit is 1 waits, all waiting lanes are released with
their stamps joined, once every earlier access of theirs has been placed (R58, R144). -/
def State.retestWaitm (s : State) (ck m : Nat) : State :=
  match s.crew ck with
  | none => s
  | some c =>
    let fs := s.crewFibres c
    let waiting := fs.filter (fun f => f.conds.any (Cond.isWaitm m))
    let mask := (c.masks.getD m 0).toNat
    let ok := (List.range 32).all (fun l => !bitOf mask l || waiting.any (fun f => f.lane == l)) && !waiting.any (fun f => s.unplaced f.key)
    if ok && !waiting.isEmpty then
      let ts := maxOf (waiting.map Fibre.stamp)
      s.putFibres (waiting.map (fun f => { f with conds := f.conds.filter (fun x => !x.isWaitm m), stamp := ts, since := s.cycle }))
    else s
def State.retestMasks (s : State) (ck : Nat) : State := (List.range 12).foldl (fun s m => s.retestWaitm ck m) s

/-- The stamp that a wait on a phase joins (R145). -/
def Barrier.joinOf (b : Barrier) (tok : Word) : Nat := (Tab.get b.joins tok.toNat).getD 0
/-- Whether PHASE is beyond a token, as BARW compares (R296). -/
def phasePast (phase tok : Word) : Bool := decide (0 < signed 32 (phase - tok).toNat)
/-- Whether a trailer condition is met, and the stamp it joins (R126, R127, R130, R292, R296). -/
def State.condMet (s : State) (f : Fibre) (c : Cond) : Option Nat :=
  let team := (s.crew f.crew).bind (fun c => c.team.bind s.team)
  match c with
  | .waitm _ => none
  | .fault => none
  | .ring r i ph => match team with
    | some t => if t.phases.contains (r, i) == ph then some t.phaseStamp else none
    | none => none
  | .wptr ch v _ =>
    let x := s.chan f.ctx (clusterOf f.core) ch
    if 0 ≤ signed 64 (x.pointer - v).toNat then some x.ptrStamp else none
  | .time t => if t ≤ s.time then some 0 else none
  | .bar n tok _ => match team with
    | some t => if phasePast (t.bar n).phase tok then some ((t.bar n).joinOf tok) else none
    | none => none
/-- Removes the conditions that are met now; one met stays met (R126). -/
def State.judge (s : State) (f : Fibre) : Fibre :=
  f.conds.foldl (fun g c => match s.condMet f c with
    | some ts => { g with stamp := max g.stamp ts, conds := g.conds.filter (· != c), since := s.cycle }
    | none => g) f
/-- Whether a fibre's group is on a port. -/
def State.atPort (s : State) (k : Nat) : Bool := s.ports.any (fun p => p.2.fibres.contains k)
/-- Whether a fibre's sentence was cut at a turn switch and has not gone on yet (R434). -/
def State.wasCut (s : State) (k : Nat) : Bool := s.crews.any (fun c => c.2.cut.any (fun x => x.fibres.contains k))
/-- Whether a fibre is in the middle of a sentence: on a port, or cut there. What waits for its trailer does not touch it yet. -/
def State.onPort (s : State) (k : Nat) : Bool := s.atPort k || s.wasCut k
/-- Judges the waiting fibres of the state again. -/
def State.judgeAll (s : State) : State :=
  s.putFibres ((s.fibres.map Prod.snd).filterMap (fun (f : Fibre) =>
    if f.conds.isEmpty || s.onPort f.key then none else some (s.judge f)))

/-- A phase completes (R295): PHASE + 1, COUNT 0, flags cleared, the phase's stamps joined (R145). -/
def Barrier.complete (b : Barrier) : Barrier :=
  { b with phase := b.phase + 1, count := 0, flags := [], joins := Tab.set b.joins b.phase.toNat b.cur, cur := 0 }
/-- Completes the phase when COUNT has reached EXPECT; with EXPECT 0 none completes (R295, R297). A broken phase does not (R299). -/
def Barrier.test (b : Barrier) : Barrier := if b.expect ≠ 0 ∧ b.count = b.expect ∧ ¬ b.broken then b.complete else b
/-- One arrival at stamp ts (R295, R298). -/
def Barrier.arrive (b : Barrier) (ts : Nat) : Barrier := Barrier.test { b with count := b.count + 1, cur := max b.cur ts }
def State.arriveBar (s : State) (tk n ts : Nat) : State :=
  match s.team tk with
  | none => s
  | some t => (s.putTeam tk (t.putBar n ((t.bar n).arrive ts))).judgeAll

/-! ### Dealers (R38, R39) -/

def launchTimer (s : State) (ctx num : Nat) : Nat := match s.launch ctx num with
  | some l => l.gather
  | none => 1600
/-- Forms a crew from a bin's tasks: it waits in the placement list (R39, R40). -/
def Cluster.form (c : Cluster) (now : Nat) (ts : List Task) : Cluster :=
  match ts with
  | [] => c
  | t :: _ => { c with placement := c.placement ++ [{ ctx := t.ctx, launch := t.launch, tasks := ts, since := now }] }
/-- Files a task in its bin, forming a crew of 32, or of the oldest bin when all 256 are in use (R38, R39). -/
def Cluster.file (c : Cluster) (now : Nat) (t : Task) : Cluster :=
  match c.bins.find? (fun b => b.pc == t.pc && b.ctx == t.ctx) with
  | some b =>
    let ts := b.tasks ++ [t]
    if 32 ≤ ts.length then
      { (c.form now (ts.take 32)) with bins := c.bins.filter (fun x => !(x.pc == t.pc && x.ctx == t.ctx)) }
    else { c with bins := c.bins.map (fun x => if x.pc == t.pc && x.ctx == t.ctx then { x with tasks := ts } else x) }
  | none =>
    let nb : Bin := { pc := t.pc, ctx := t.ctx, start := now, timer := t.timer, tasks := [t] }
    if c.bins.length < 256 then { c with bins := c.bins ++ [nb] }
    else
      let start := c.bins.foldl (fun m b => min m b.start) now
      match c.bins.find? (fun b => b.start == start) with
      | some old => { (c.form now old.tasks) with bins := c.bins.filter (fun x => !(x.pc == old.pc && x.ctx == old.ctx)) ++ [nb] }
      | none => { c with bins := c.bins ++ [nb] }
def State.fileTask (s : State) (cl : Nat) (t : Task) : State := s.putCluster cl ((s.cluster cl).file s.cycle t)
/-- A task that reaches a dealer: it waits there for its segments, in arrival order (R62). -/
def State.arrive (s : State) (cl : Nat) (t : WaitTask) : State :=
  let c := s.cluster cl
  s.putCluster cl { c with waiting := c.waiting ++ [t] }
/-- Hands a continuation to the dealer of its HOMECORE's cluster as a resume task (R97, R98), its stamp at least ts (R99). -/
def State.handOver (s : State) (ctx : Nat) (k : DWord) (b : Word) (ts : Nat) : State :=
  let blk := (s.heap ctx).block (handleAddr k)
  let (id, s) := s.newKey
  s.arrive (clusterOf blk.homecore)
    { id := id, pc := blk.resumepc, ctx := ctx, launch := blk.launch, fid := blk.eff.fid, stamp := max blk.eff.stamp ts,
      timer := launchTimer s ctx blk.launch, f := 0, l := 0, args := [], handle := some (k, b) }

/-! ### Cells (R98, R102, R432) -/

def State.modCell (s : State) (ctx i : Nat) (g : Cell → Cell) : State := s.putHeap ctx ((s.heap ctx).putCell i (g ((s.heap ctx).cell i)))
/-- Frees every node of a list. -/
def State.freeNodes (s : State) (ctx : Nat) (ns : List Node) : State :=
  s.putHeap ctx (ns.foldl (fun h n => h.freeNode n.addr) (s.heap ctx))
/-- Hands taken waiters over, newest first, with the stamp they join; their nodes are freed and PARKEDON of each waiter's own cell is cleared (R98). -/
def State.handTaken (s : State) (ctx : Nat) (ws : List Node) (ts : Nat) : State :=
  let s := s.freeNodes ctx ws
  ws.foldl (fun s n =>
    let s := s.handOver ctx n.item 0 ts
    match cellOfFid ((s.heap ctx).block (handleAddr n.item)).eff.fid with
    | some j => s.modCell ctx j (fun c => { c with parkedon := 0 })
    | none => s) s
/-- Takes a cell's waiter list and hands the waiters over (R98, R432). -/
def State.handWaiters (s : State) (ctx i : Nat) : State :=
  let c := (s.heap ctx).cell i
  (s.modCell ctx i (fun c => { c with waiters := [] })).handTaken ctx c.waiters c.stamp
/-- A PENDING future becomes FAILED and hands over its waiters; REACH is unchanged (R432). -/
def State.failCell (s : State) (ctx i : Nat) (tag : BitVec 16) : State :=
  let c := (s.heap ctx).cell i
  if c.live ∧ c.state = 0 then (s.modCell ctx i (fun c => { c with state := 3, failtag := tag })).handWaiters ctx i else s
/-- Whether any of a future's work remains: a fibre, a task or its continuation (R102). -/
def State.futureWork (s : State) (ctx : Nat) (fid : Word) (c : Cell) : Bool :=
  s.fibres.any (fun f => f.2.ctx == ctx && !f.2.helper && f.2.fid == fid) || c.cont != 0
    || (List.range 8).any (fun cl =>
      let k := s.cluster cl
      k.bins.any (fun b => b.tasks.any (fun t => t.ctx == ctx && t.fid == fid))
        || k.placement.any (fun b => b.tasks.any (fun t => t.ctx == ctx && t.fid == fid))
        || k.waiting.any (fun t => t.ctx == ctx && t.fid == fid))
/-- Frees a RECLAIMED cell once none of its work remains (R102 step 5). -/
def State.tidyCell (s : State) (ctx i : Nat) : State :=
  let c := (s.heap ctx).cell i
  match s.ctx ctx with
  | some x => if c.live && c.state == 2 && c.reach == 0 && !s.futureWork ctx c.fid c then s.putHeap ctx ((s.heap ctx).freeCell x.d i) else s
  | none => s
/-- The segments a task holds. -/
def Task.segs (t : Task) : List Seg := match t.body with
  | .fresh r e _ _ _ => [r, e]
  | .resume _ _ r => [r]
/-- Whether an access of a task, or of a launch, has left its port and is not yet made. -/
def State.taskFlying (s : State) (id : Nat) : Bool :=
  s.clusters.any (fun c => c.2.banker.any (fun r => r.task == id) || c.2.farBuf.any (fun r => r.task == id))
    || s.jobs.any (fun j => (j.todo ++ j.left).any (fun m => j.fs.any (fun f => f.key == m.key && f.task == id)))
def State.launchFlying (s : State) (ctx num : Nat) : Bool :=
  s.clusters.any (fun c => c.2.banker.any (fun r => r.ctx == ctx && r.launch == num) || c.2.farBuf.any (fun r => r.ctx == ctx && r.launch == num))
    || s.jobs.any (fun j => (j.todo ++ j.left).any (fun m => j.fs.any (fun f => f.key == m.key && f.ctx == ctx && f.launch == num)))
/-- A task made by a REC has ended, with every access of it made (R353): what waits for it waits no longer. -/
def State.endTask (s : State) (id : Nat) : State :=
  if s.taskFlying id then s else
  { s with queues := s.queues.map (fun q => (q.1, { q.2 with
      tasks := q.2.tasks.filter (· != id), deferred := q.2.deferred.map (fun d => { d with tasks := d.tasks.filter (· != id) }) })) }
/-- Removes the unplaced tasks of a context that meet p from every dealer, freeing their segments (R102 step 4, R107). -/
def State.dropTasks (s : State) (ctx : Nat) (p : Nat → Word → Bool) : State :=
  (List.range 8).foldl (fun s cl =>
    let k := s.cluster cl
    let hit (t : Task) : Bool := t.ctx == ctx && p t.launch t.fid
    let gone := (k.bins.flatMap Bin.tasks ++ k.placement.flatMap Formed.tasks).filter hit
    let k' := { k with
      bins := (k.bins.map (fun b => { b with tasks := b.tasks.filter (fun t => !hit t) })).filter (fun b => !b.tasks.isEmpty),
      placement := (k.placement.map (fun b => { b with tasks := b.tasks.filter (fun t => !hit t) })).filter (fun b => !b.tasks.isEmpty),
      waiting := k.waiting.filter (fun t => !(t.ctx == ctx && p t.launch t.fid)) }
    let s := if gone.isEmpty && k'.waiting.length == k.waiting.length then s else s.putCluster cl k'
    let ids := gone.map Task.id ++ (k.waiting.filter (fun t => t.ctx == ctx && p t.launch t.fid)).map WaitTask.id
    let s := ids.foldl (fun (s : State) i => s.endTask i) s
    if gone.isEmpty then s else s.putHeap ctx ((s.heap ctx).freeSegs (gone.flatMap Task.segs))) s
/-- A halted channel or stream queue reopens when the continuation of its fault leaves LIVE (R464). -/
def Chan.reopen (c : Chan) : Chan :=
  { c with halted := false, haltBlk := none, seq := c.seq + 1 + c.dropped, begun := c.seq + 1 + c.dropped, bytes := 0, dropped := 0 }
def State.reopen (s : State) (ctx : Nat) (k : DWord) : State :=
  (List.range 8).foldl (fun s cl =>
    match Tab.get s.clusterCtx (ctx * 8 + cl) with
    | none => s
    | some x =>
      if x.chans.any (fun c => c.2.halted && c.2.haltBlk == some k) || x.halted.any (fun h => h.2 == some k) then
        (s.putCLC ctx cl { x with
          chans := x.chans.map (fun c => if c.2.halted && c.2.haltBlk == some k then (c.1, c.2.reopen) else c),
          halted := x.halted.filter (fun h => h.2 != some k) }).judgeAll
      else s) s
/-- A queue whose fault was unhandled reopens at once (R464). -/
def State.reopenQueue (s : State) (ctx cl ch : Nat) : State :=
  let x := s.clc ctx cl
  (s.putCLC ctx cl { x with
    chans := x.chans.map (fun c => if c.1 = ch then (c.1, c.2.reopen) else c),
    halted := x.halted.filter (fun h => h.1 != ch) }).judgeAll
/-- Takes a block out of LIVE: it is CONSUMED, and the channel its fault halted reopens (R81, R464). -/
def State.consume (s : State) (ctx a : Nat) : State :=
  let b := (s.heap ctx).block a
  (s.putHeap ctx ((s.heap ctx).putBlock a { b with state := 1 })).reopen ctx (handleOf a b.gen)
/-- Clears CONT of the cell whose continuation this was, which is freed if that was the last of its work (R102). -/
def State.clearCont (s : State) (ctx : Nat) (k : DWord) (fid : Word) : State :=
  match cellOfFid fid with
  | some i => if ((s.heap ctx).cell i).cont = k then (s.modCell ctx i (fun c => { c with cont := 0, parkedon := 0 })).tidyCell ctx i else s
  | none => s
/-- Whether the read of n bytes at a virtual address finds an uncorrectable error (R455). -/
def State.vaCheck (s : State) (ctx va n : Nat) : Bool × State :=
  match s.walk ctx va with
  | .ok lf => if lf.loc = 0 ∧ lf.view = none then (pieces (lf.base + va % lf.size) n).foldl (fun (e : Bool × State) x =>
      let (b, s) := e.2.readCheck ⟨.dev, x.1⟩ x.2 0
      (e.1 || b, s)) (false, s) else (false, s)
  | .error _ => (false, s)
/-- Whether any line of the segments finds an uncorrectable error (R429). -/
def State.segsCheck (s : State) (ctx : Nat) (gs : List Seg) : Bool × State :=
  gs.foldl (fun (e : Bool × State) g => (List.range (segSize g.cls / 128)).foldl (fun e i =>
    let (b, s) := e.2.vaCheck ctx (g.addr + 128 * i) 128
    (e.1 || b, s)) e) (false, s)
/-- Only lines that can hold an error are read for R429: with no poison and no hidden error there is nothing to find. -/
def State.anyError (s : State) : Bool := s.lines.any (fun l => l.2.poison || l.2.hidden != 0)
def State.segsErr (s : State) (ctx : Nat) (gs : List Seg) : Bool × State := if s.anyError then s.segsCheck ctx gs else (false, s)
/-- The read of a continuation block whole: its header and record, then its pronouns (R80, R429). -/
def State.blockErr (s : State) (ctx a : Nat) : Bool × State :=
  if s.anyError then
    let (b, s) := s.vaCheck ctx a 128
    let (c, s) := s.vaCheck ctx (a + 128) 128
    (b || c, s)
  else (false, s)
/-- The read of its first word alone (R81, R97). -/
def State.blockWordErr (s : State) (ctx a : Nat) : Bool × State := if s.anyError then s.vaCheck ctx a 8 else (false, s)
/-- A block becomes DAMAGED (R429 to R431): its segments are freed, it is kept, DCOUNT is raised, its cell loses CONT and a
PENDING one fails with 0x0041; a RECLAIMED one is freed if that was the last of its work. -/
def State.damage (s : State) (ctx a : Nat) : State :=
  let b := (s.heap ctx).block a
  let hd := handleOf a b.gen
  let s := s.putHeap ctx (((s.heap ctx).freeSegs b.segs).putBlock a { b with state := 2, segs := [], frames := [] })
  let s := (s.reopen ctx hd).modSummary ctx (fun m => { m with dcount := m.dcount + 1 })
  match cellOfFid b.eff.fid with
  | some i => if ((s.heap ctx).cell i).cont = hd then
      ((s.modCell ctx i (fun c => { c with cont := 0, parkedon := 0 })).failCell ctx i 0x0041).tidyCell ctx i else s
  | none => s
/-- Whether the block at a is LIVE in the generation of a handle. -/
def State.contLive (s : State) (ctx : Nat) (h : DWord) : Bool :=
  let b := (s.heap ctx).block (handleAddr h)
  b.state == 0 && b.gen == handleGen h
/-- Frees what a dropped continuation captured, and its block (R83). -/
def State.freeCont (s : State) (ctx a : Nat) : State :=
  s.putHeap ctx (((s.heap ctx).freeSegs ((s.heap ctx).block a).segs).freeBlock a)

/-- What is still to be done for released references: a node of an owned list to be released and freed, or a dropped continuation
whose lists have been released, to be freed (R83, R100, R103). -/
inductive Work where
  | node (x : Node)
  | free (a : Nat)
/-- Drops the LIVE continuation at a (R83, R430): it leaves LIVE, its frames' owned lists are to be released, top frame first, and then
its segments and block freed. One whose CHECK fails, or which holds an uncorrectable error, becomes DAMAGED, and the frames whose header
lines read correctly release theirs. -/
def State.dropCont (s : State) (ctx a : Nat) : State × List Work :=
  let b := (s.heap ctx).block a
  let (be, s) := s.blockErr ctx a
  let (se, s) := s.segsErr ctx b.segs
  if be || se || !b.checkOk a then
    let good := if s.anyError then b.frames.filter (fun fr => !(s.vaCheck ctx fr.addr 64).1) else b.frames
    (s.damage ctx a, (good.flatMap Frame.owned).map Work.node)
  else ((s.consume ctx a).clearCont ctx (handleOf a b.gen) b.eff.fid, (b.frames.flatMap Frame.owned).map Work.node ++ [Work.free a])

/-- Takes the waiter nodes that meet p off every cell's list and frees them. -/
def State.unpark (s : State) (ctx : Nat) (p : Nat → Node → Bool) : State :=
  let ns := (s.heap ctx).cells.flatMap (fun c => c.2.waiters.filter (p c.1))
  if ns.isEmpty then s
  else (s.putHeap ctx { s.heap ctx with cells := (s.heap ctx).cells.map (fun c => (c.1, { c.2 with waiters := c.2.waiters.filter (fun n => !p c.1 n) })) }).freeNodes
    ctx ns
/-- Drops continuations that were parked, each once, if it is LIVE still; PARKEDON and CONT of its own cell are cleared (R105, R107). -/
def State.dropParked (s : State) (ctx : Nat) (hs : List DWord) : State × List Work :=
  hs.foldl (fun (r : State × List Work) h =>
    if r.1.contLive ctx h then
      let (s, w) := r.1.dropCont ctx (handleAddr h)
      (s, r.2 ++ w)
    else r) (s, [])

/-- R102, steps 1 to 4, for a cell whose REACH has reached 0, and the end of the continuations parked on it (R105); answers what is to
be released. -/
def State.reclaimCell (s : State) (ctx i : Nat) : State × List Work :=
  let c := (s.heap ctx).cell i
  let s := s.modCell ctx i (fun c => { c with state := 2 })
  let s := match cellOfFid c.fid with
    | some _ => s.putFibres ((s.fibres.map Prod.snd).filterMap (fun (f : Fibre) =>
        if f.ctx == ctx && !f.helper && f.fid == c.fid then some { f with reclaim := true } else none))
    | none => s
  let s := match s.ctx ctx with
    | some x => if c.cont ≠ 0 ∧ c.parkedon ≠ 0 then
        (s.unpark ctx (fun (j : Nat) (n : Node) => j == x.d.cellIndex c.parkedon && n.item == c.cont)).modCell ctx i (fun c => { c with parkedon := 0 })
      else s
    | none => s
  let s := s.dropTasks ctx (fun _ fid => fid == c.fid)
  let a := handleAddr c.cont
  let (s, w) : State × List Work :=
    if c.cont ≠ 0 ∧ s.contLive ctx c.cont = true then
      if ((s.heap ctx).block a).frames.any Frame.pinned then
        (s.putHeap ctx ((s.heap ctx).putBlock a { (s.heap ctx).block a with marked := true }), [])
      else s.dropCont ctx a
    else (s, [])
  let (s, v) := (s.unpark ctx (fun j _ => j == i)).dropParked ctx (c.waiters.map Node.item)
  (s.tidyCell ctx i, w ++ v)

/-- Releases one reference of a context's cell (R100); answers what a reclaimed continuation leaves to be released. A node that names
no live cell raises REFLOST and changes nothing (R432). -/
def State.releaseRef (s : State) (ctx : Nat) (h : DWord) : State × List Work :=
  match s.ctx ctx with
  | none => (s, [])
  | some x => match x.heap.cellOf x.d h with
    | none => (s.modSummary ctx (fun m => { m with reflost := m.reflost + 1 }), [])
    | some (i, c) =>
      if c.state = 2 then (s.modSummary ctx (fun m => { m with reflost := m.reflost + 1 }), [])
      else
        let s := s.modCell ctx i (fun c => { c with reach := c.reach - 1 })
        if c.reach ≤ 1 then s.reclaimCell ctx i else (s, [])
/-- Releases in order what is to be released, each node then freed, with the cascade of what it reclaims (R100, R103). -/
def State.releaseFuel : Nat → State → Nat → List Work → State
  | 0, s, _, _ => s
  | _ + 1, s, _, [] => s
  | n + 1, s, ctx, .free a :: r => State.releaseFuel n (s.freeCont ctx a) ctx r
  | n + 1, s, ctx, .node x :: r =>
    let (s', more) := s.releaseRef ctx x.item
    State.releaseFuel n (s'.freeNodes ctx [x]) ctx (more ++ r)
/-- How much a release can meet: what is given, all that captured frames own, and the blocks. -/
def State.ownedCount (s : State) (ctx : Nat) : Nat :=
  (s.heap ctx).blocks.foldl (fun n b => n + 1 + b.2.frames.foldl (fun m f => m + f.owned.length) 0) 0
def State.release (s : State) (ctx : Nat) (ws : List Work) : State :=
  State.releaseFuel (ws.length + s.ownedCount ctx + 1) s ctx ws
/-- Releases the nodes of frames of a fibre: one atomic access of the fibre for each released reference, in list order (R100, R271). -/
def State.releaseOwned (s : State) (ctx : Nat) (k : Option Nat) (ns : List Node) : State :=
  let s := match k with
    | some k => ns.foldl (fun (s : State) (n : Node) => s.heapAccess k (handleAddr n.item) true) s
    | none => s
  s.release ctx (ns.map Work.node)

/-! ### The end of a fibre -/

/-- Clears the lane's bit in every mask, each tested again (R56, R57). -/
def State.leaveMasks (s : State) (ck lane : Nat) : State :=
  match s.crew ck with
  | none => s
  | some c => (s.putCrew ck { c with masks := c.masks.map (fun m => m &&& ~~~(1#32 <<< lane)) }).retestMasks ck
/-- R297: every barrier whose CREWS include the fibre's crew expects one arrival fewer, and is tested. -/
def Barrier.lose (b : Barrier) (crewNo key : Nat) : Barrier :=
  if b.crews.getLsbD crewNo then
    let had := b.flags.contains key
    Barrier.test { b with expect := b.expect - 1, count := if had then b.count - 1 else b.count, flags := b.flags.filter (· != key) }
  else b
/-- A team's subscription to a stream ends (R332, R338): when no subscriber is left, every command pushed so far completes, all its
subscribers having left it (R333); one that has begun a tile completes once that tile is finished, whose end `idx` then marks. -/
def leaveStream (tk : Nat) (x : List Cmd × List Sub) : List Cmd × List Sub :=
  let subs := x.2.filter (fun y => y.team != tk)
  (if subs.isEmpty && !x.2.isEmpty then (match x.1 with
    | c :: r => (if c.dests.isEmpty then { c with moved := true } else { c with idx := some 0 }) :: r.map (fun d => { d with moved := true })
    | [] => []) else x.1, subs)
/-- A team with no fibre left retires: its sequencer number, slots, tiles and subscriptions are freed (R41, R338). -/
def State.freeSeqr (s : State) (tk : Nat) (t : Team) : State :=
  let c := s.cc t.ctx t.core
  let s := s.putCC t.ctx t.core { c with
    slots := c.slots.map (fun x => if x.2.owner == some tk then (x.1, OpSlot.free) else x),
    tiles := c.tiles.map (fun x => if x.2.owner == some tk then (x.1, Tile.free) else x) }
  let cl := clusterOf t.core
  let k := s.clc t.ctx cl
  s.putCLC t.ctx cl { k with streams := k.streams.map (fun x => (x.1, leaveStream tk x.2)) }
def State.retireTeam (s : State) (tk : Nat) (t : Team) : State :=
  { s.freeSeqr tk t with teams := Tab.erase s.teams tk }
/-- Whether work of a launch remains (R351): fibres, their accesses on the way (R353), sequencers (R338), tasks, placement units, commands not ended. -/
def State.launchBusy (s : State) (ctx num : Nat) : Bool :=
  s.fibres.any (fun f => f.2.ctx == ctx && f.2.launch == num) || s.launchFlying ctx num || s.teams.any (fun t => t.2.ctx == ctx && t.2.launch == num)
    || (match s.ctx ctx with
      | some c => c.order.any (fun u => u.launch == num)
      | none => false)
    || (List.range 8).any (fun cl =>
      let k := s.cluster cl
      k.bins.any (fun b => b.tasks.any (fun t => t.ctx == ctx && t.launch == num))
        || k.placement.any (fun b => b.tasks.any (fun t => t.ctx == ctx && t.launch == num))
        || k.waiting.any (fun t => t.ctx == ctx && t.launch == num)
        || (match Tab.get s.clusterCtx (ctx * 8 + cl) with
          | some x => x.chans.any (fun c => c.2.cmds.any (fun m => m.launch == num))
              || x.streams.any (fun c => c.2.1.any (fun m => m.launch == num))
          | none => false))
    || s.link.queue.any (fun m => m.ctx == ctx && m.launch == num)
    || s.link.sent.any (fun m => m.1.ctx == ctx && m.1.launch == num)
    || s.link.posts.any (fun m => m.cmd.ctx == ctx && m.cmd.launch == num)
    || s.link.xfers.any (fun x => x.cmd.ctx == ctx && x.cmd.launch == num)
/-- Frees the number of a team launch that is complete (R351). Nodes live until their queue is destroyed (R352). -/
def State.tidyLaunch (s : State) (ctx num : Nat) : State :=
  match s.launch ctx num with
  | some l => if !l.node && !s.launchBusy ctx num then
      { s with launches := s.launches.filter (fun x => !(x.ctx == ctx && x.num == num)),
               queues := s.queues.map (fun q => (q.1, if q.2.ctx == ctx then { q.2 with
                 launches := q.2.launches.filter (· != num),
                 deferred := q.2.deferred.map (fun d => { d with launches := d.launches.filter (· != num) }) } else q.2)) }
    else s
  | none => s
/-- The accesses of a fibre that has ended have been made: what waits for its task and its launch need wait for them no longer (R351, R353). -/
def State.landed (s : State) (k ctx launch task : Nat) : State := if (s.fibre k).isSome then s else (s.endTask task).tidyLaunch ctx launch
/-- Whether an XLOAD or XDRAIN has been begun and is not yet complete. -/
def Seqr.midway (q : Seqr) : Bool := q.mem.isSome || !q.reqs.isEmpty
/-- The teams with no fibre left whose sequencer has come to an instruction boundary retire (R338). -/
def State.settleTeams (s : State) : State :=
  (s.teams.filter (fun t => t.2.crews.isEmpty && !t.2.seqr.midway)).foldl (fun (s : State) t => (s.retireTeam t.1 t.2).tidyLaunch t.2.ctx t.2.launch) s
/-- Takes the fibre out of its lane; the crew's slot is freed with its last lane (R41), and the team retires with its last fibre, once an XLOAD or XDRAIN
that it has begun is complete (R338). -/
def State.leaveCrew (s : State) (f : Fibre) : State :=
  let s := { s with fibres := Tab.erase s.fibres f.key, fills := s.fills.filter (fun x => x.fibre != f.key) }.regGone f.key
  match s.crew f.crew with
  | none => s
  | some c =>
    let c := { c with lanes := setAt c.lanes f.lane none }
    let s := s.putCrew f.crew c
    if c.lanes.all Option.isNone then
      let s := { s with crews := Tab.erase s.crews f.crew }
      match c.team with
      | none => s
      | some tk => match s.team tk with
        | none => s
        | some t =>
          let t := { t with crews := t.crews.filter (· != f.crew) }
          if t.crews.isEmpty && !t.seqr.midway then s.retireTeam tk t else s.putTeam tk t
    else s
/-- The lowest-numbered live lane of the lowest-numbered crew of a team that has one (R339). -/
def State.leadFibre (s : State) (t : Team) : Option Fibre :=
  ((List.range 16).flatMap (fun n => t.crews.flatMap (fun k => match s.crew k with
    | some c => if c.number = n then (s.crewFibres c).filter (fun f => !f.helper) else []
    | none => []))).head?
/-- What an unhandled effect leaves (R427): the record in the context's fault summary, UCOUNT raised. -/
def State.noteUnhandled (s : State) (ctx : Nat) (r : EffRec) : State :=
  let was := match s.ctx ctx with
    | some c => (s.key c.d.kslot).summary.ucount
    | none => 1
  let s := s.modSummary ctx (fun m => { m with ucount := m.ucount + 1, first := some (m.first.getD r), last := some r })
  if was = 0 then s.msix 2 else s
/-- Forwards a fault to a fibre, where it takes effect at its next trailer or, when it is blocked, by its delivery event (R54, R463). -/
def State.forward (s : State) (k : Nat) (p : Pending) : State := s.modFibre k (fun f => { f with asyncs := f.asyncs ++ [p] })
/-- A fault whose fibre has ended (R339, R463): it goes to the lead lane of the fibre's team, and is unhandled where there is none, when the
queue that it halted reopens at once (R464). -/
def State.passOn (s : State) (ctx : Nat) (team : Option Nat) (p : Pending) : State :=
  match (team.bind s.team).bind s.leadFibre with
  | some f => s.forward f.key p
  | none =>
    let s := { s.noteUnhandled ctx p.rec_ with frag := s.frag + 1 }
    match p.halts with
    | some (cl, q) => s.reopenQueue ctx cl q
    | none => s
/-- The common end of a fibre (R103, R263): fills discarded, masks and barriers, owned lists top frame first, segments, lane;
the faults still waiting for it go on as those of a fibre that has ended (R463). OWNERCORE of its future becomes 0x1FF (R102), also where another
fibre placed with the same FID goes on (log 89). -/
def State.endFibre (s : State) (f : Fibre) : State :=
  let team := (s.crew f.crew).bind Crew.team
  let s := { s with fills := s.fills.filter (fun x => x.fibre != f.key) }
  let s := s.leaveMasks f.crew f.lane
  let s := match (s.crew f.crew).bind (fun c => c.team.map (fun t => (c.number, t))) with
    | some (no, tk) => match s.team tk with
      | some t => s.putTeam tk { t with barriers := t.barriers.map (fun (b : Nat × Barrier) => (b.1, b.2.lose no f.key)) }
      | none => s
    | none => s
  let s := s.releaseOwned f.ctx (some f.key) (f.chain.flatMap Frame.owned)
  let s := s.putHeap f.ctx ((s.heap f.ctx).freeSegs f.segs)
  let s := (s.leaveCrew f).judgeAll
  let s := s.endTask f.task
  let s := f.asyncs.foldl (fun (s : State) p => s.passOn f.ctx team p) s
  let s := match cellOfFid f.fid with
    | some i => if f.helper then s else (s.modCell f.ctx i (fun c => { c with ownercore := 0x1FF })).tidyCell f.ctx i
    | none => s
  s.tidyLaunch f.ctx f.launch
/-- EXIT of a fibre, failing its PENDING future with the given tag (R263, R427). -/
def State.exitFibre (s : State) (k : Nat) (tag : BitVec 16) : State :=
  match s.fibre k with
  | none => s
  | some f =>
    let s := match cellOfFid f.fid with
      | some i => if f.helper then s else s.failCell f.ctx i tag
      | none => s
    s.endFibre f
/-- Whether a fibre is pinned (R104). -/
def Fibre.isPinned (f : Fibre) : Bool := f.chain.any Frame.pinned
/-- Whether a fibre is to be reclaimed at its next trailer: a reclaim request has reached it (R103), or its launch's cancel word is set
(R107), and no frame of its chain is pinned (R104). -/
def State.dueReclaim (s : State) (f : Fibre) : Bool :=
  !f.helper && !f.isPinned && (f.reclaim || (match s.launch f.ctx f.launch with
    | some l => l.cancel
    | none => false))
/-- Reclamation of a fibre (R103): no result; a PENDING future whose REACH stays above 0 fails with 0x00FF (R432). -/
def State.reclaimFibre (s : State) (k : Nat) : State :=
  match s.fibre k with
  | none => s
  | some f =>
    let s := match cellOfFid f.fid with
      | some i => if !f.helper && ((s.heap f.ctx).cell i).reach != 0 then s.failCell f.ctx i 0x00FF else s
      | none => s
    s.endFibre f
/-- What a set cancel word does to the launch's unplaced tasks and parked continuations (R107): the tasks are removed, the futures they
leave PENDING fail (R432), the continuations are dropped, each once. -/
def State.enforceCancel (s : State) (ctx num : Nat) : State :=
  let fids := (List.range 8).flatMap (fun cl =>
    let k := s.cluster cl
    ((k.bins.flatMap Bin.tasks ++ k.placement.flatMap Formed.tasks).filter (fun t => t.ctx == ctx && t.launch == num)).map Task.fid
      ++ (k.waiting.filter (fun t => t.ctx == ctx && t.launch == num)).map WaitTask.fid)
  let s := s.dropTasks ctx (fun n _ => n == num)
  let s := fids.foldl (fun s fid => match cellOfFid fid with
    | some i => (if ((s.heap ctx).cell i).reach ≠ 0 then s.failCell ctx i 0x00FF else s).tidyCell ctx i
    | none => s) s
  let mine (s : State) (n : Node) : Bool := s.contLive ctx n.item && ((s.heap ctx).block (handleAddr n.item)).launch == num
  let hs := ((s.heap ctx).cells.flatMap (fun c => c.2.waiters.filter (mine s))).map Node.item
  if hs.isEmpty then s
  else
    let (s, w) := (s.unpark ctx (fun _ n => mine s n)).dropParked ctx hs
    s.release ctx w
/-- Whether a launch has tasks unplaced or continuations parked. -/
def State.cancelWork (s : State) (ctx num : Nat) : Bool :=
  (List.range 8).any (fun cl =>
      let k := s.cluster cl
      (k.bins.flatMap Bin.tasks ++ k.placement.flatMap Formed.tasks).any (fun t => t.ctx == ctx && t.launch == num)
        || k.waiting.any (fun t => t.ctx == ctx && t.launch == num))
    || (s.heap ctx).cells.any (fun c => c.2.waiters.any (fun n => s.contLive ctx n.item && ((s.heap ctx).block (handleAddr n.item)).launch == num))
/-- Sets a launch's cancel word (R107); its fibres are reclaimed as `dueReclaim` says. -/
def State.cancel (s : State) (ctx num : Nat) : State :=
  match s.launch ctx num with
  | none => s
  | some l => if l.cancel then s else ((s.putLaunch { l with cancel := true }).enforceCancel ctx num).tidyLaunch ctx num
/-- The cancel words stay set: what reaches a dealer or a waiter list after them meets the same end (R107, R108). -/
def State.settleCancel (s : State) : State :=
  (s.launches.filter (fun l => l.cancel && s.cancelWork l.ctx l.num)).foldl (fun s l => (s.enforceCancel l.ctx l.num).tidyLaunch l.ctx l.num) s

end Sys2Proof.Machine
end

