-- ==== Sys2Proof/Machine/Ops.lean ====
section
/-! DEFINITION. Taking an exception and coming back from one, as shared operations: search, capture and entry (R76 to R79, R423,
R424), effects with no handler (R427, R428), RESUME and DROP of a continuation (R81 to R83, R429 to R431), frames made and
returned from (R67 to R69, R85, R261), fibres built by the dealer (R31, R85, R98, R502). -/

namespace Sys2Proof.Machine

/-- Where an instruction goes on: what lane operations answer. -/
abbrev LaneFault := FaultInfo

/-- DETAIL of a fault record (R422): CAUSE, SIB, LATE, SEQ, ASYNC, ARGX. -/
def detailOf (cause argx : Nat) (sib late seq async : Bool) : Word :=
  BitVec.ofNat 32 (packNat [(8, cause), (1, sib.toNat), (1, late.toNat), (1, seq.toNat), (1, async.toNat), (4, 0), (16, argx)])

/-- The record of an effect of a fibre (R79): the fields that come from the fibre, with fault fields 0. -/
def State.record (s : State) (f : Fibre) (tag : BitVec 16) (arg : Word) (pc : DWord) (issue performed : Word) (address : DWord) : EffRec :=
  { tag := tag, fault := false, psaved := false, arg := arg, pc := pc, issue := issue, performed := performed,
    frag := BitVec.ofNat 32 s.frag, fid := f.fid, address := address, stamp := f.stamp, core := f.core, device := s.device, detail := 0 }

/-- The frame heap region's end: ADDRESS of PAGE cause 7 (R422). -/
def CtxDesc.heapEnd (d : CtxDesc) : DWord := BitVec.ofNat 64 (d.fhbase + d.fhsize * 0x200000)
def State.heapEnd (s : State) (ctx : Nat) : DWord := match s.ctx ctx with
  | some c => c.d.heapEnd
  | none => 0

/-- Index in the chain of the handler that takes a tag (R76): the nearest handler frame below the top frame whose mask and value match. -/
def Fibre.handlerFor (f : Fibre) (tag : BitVec 16) : Option Nat :=
  ((f.chain.drop 1).findIdx? (fun fr => fr.handler && (tag &&& fr.hmask) == fr.htag)).map (· + 1)

/-- An effect that finds no handler (R427): recorded in the fault summary, the fibre ends, its PENDING future fails with the tag. -/
def State.unhandled (s : State) (f : Fibre) (r : EffRec) : State := (s.noteUnhandled f.ctx r).exitFibre f.key r.tag

/-- The handler's frame with its four delivery registers written, full (R76). -/
def Frame.delivered (h : Frame) (k : DWord) (tag : BitVec 16) (arg : Word) : Frame :=
  (((h.setReg h.hbase.toNat (loWord k)).setReg (h.hbase.toNat + 1) (hiWord k)).setReg (h.hbase.toNat + 2) (tag.setWidth 32)).setReg (h.hbase.toNat + 3) arg
/-- The handler entry's program counter (R76). -/
def Frame.handlerPc (h : Frame) : DWord := h.hline + h.hslot.setWidth 64
/-- All sixteen pronouns as a fault saves them: those not written hold unspecified values (R424). -/
def Fibre.savedProns (f : Fibre) (seed : Nat) : Tab Word :=
  (List.range 16).map (fun i => (i, (Tab.get f.prons i).getD (Config.undefWord seed i)))

/-- AGE of a segment whose frame becomes the top frame: CYCLE[41:10] (R65). -/
def State.age (s : State) : Word := BitVec.ofNat 32 (s.cycle / 2 ^ 10)
def Fibre.stampAge (f : Fibre) (age : Word) : Fibre := { f with segs := match f.segs with
  | g :: r => { g with age := age } :: r
  | [] => [] }
/-- TAKING AN EXCEPTION (R76, R78, R423): the effect with record r of fibre k, whose continuation goes on at resumepc. The
captured frames fill whole segments; the block and the record are stores of the fibre at the block's lines (R77); the handler frame
receives handle, tag and argument and runs at its entry, its segment's age stamp set (R65). With no handler, or no block, the effect is
unhandled; without a block it is a PAGE fault of the performing instruction, whose bits [31:0] are `word` (R422, R423), and with a block that
cannot be written the fault of that store (R406, log 90). -/
def State.deliver (s : State) (k : Nat) (r : EffRec) (resumepc : DWord) (word : Word := r.arg) : State :=
  match s.fibre k with
  | none => s
  | some f =>
    let f := { f with found := none }
    let s := (s.putFibre f).bump f.ctx f.core 4 1
    match f.handlerFor r.tag with
    | none => s.unhandled f r
    | some j =>
      let lost (x : FaultInfo) : State :=
        s.unhandled f { r with tag := x.tag, fault := true, arg := word, address := x.address, detail := detailOf x.cause x.argx false false false false }
      match (s.heap f.ctx).takeBlock (s.cdesc f.ctx) with
      | none => lost ⟨0x10, 7, r.tag.toNat, s.heapEnd f.ctx⟩
      | some (a, h) => match s.heapFault f.ctx a with
      | some x => lost x
      | none =>
        let (seed, s) := s.newSeed
        let s := ((s.heapAccess k a true).heapAccess k (a + 128) true).heapWrote f.ctx a 128
        let s := if r.psaved then s.heapWrote f.ctx (a + 128) 64 else s
        let ts := match s.fibre k with
          | some x => x.stamp
          | none => f.stamp
        let r := { r with stamp := ts }
        let hf := f.chain.getD j Frame.none
        let up := f.chain.take j
        let segs := f.segs.takeWhile (fun g => !g.holds hf.addr)
        let g := (h.block a).gen
        let hd := handleOf a g
        let blk : Block :=
          { state := 0, gen := g, nsegs := segs.length, ctxid := f.ctx, homecore := f.core, homedev := s.device,
            top := f.top.addr, bottom := (up.getLastD Frame.none).addr, resumepc := resumepc, eff := r,
            prons := if r.psaved then f.savedProns seed else [], segs := segs, frames := up, launch := f.launch, check := 0, patch := [], marked := false }
        let s := s.putHeap f.ctx (h.putBlock a (blk.sealed a))
        let s := if f.isFuture && up.any Frame.entry then
            (match cellOfFid f.fid with
            | some i => s.modCell f.ctx i (fun c => { c with cont := hd })
            | none => s) else s
        let f := { f with
          chain := hf.delivered hd r.tag r.arg :: f.chain.drop (j + 1), segs := f.segs.drop segs.length, pc := hf.handlerPc, prons := [],
          conds := [], awaits := [], since := s.cycle, stamp := ts }
        s.putFibre (f.stampAge (s.age))

/-- RETURN to the root handler, delivered with handle 0 (R85, R86, R261); the masks are those of the RET (R79). A fibre that is to be
reclaimed at this trailer meets that instead (R103). -/
def State.deliverReturn (s : State) (k : Nat) (arg : Word) (pc : DWord) (issue performed : Word) : State :=
  match s.fibre k with
  | none => s
  | some f =>
    if s.dueReclaim f then s.reclaimFibre k else
    let r := s.record f 0 arg pc issue performed 0
    let s := s.bump f.ctx f.core 4 1
    if f.top.handler && f.top.htag == 0 then
      s.putFibre { f.setTop (f.top.delivered 0 0 arg) with pc := f.top.handlerPc, prons := [], since := s.cycle }
    else s.unhandled f r

/-- The record of a fault (R422): FAULT 1, the cause, ARGX and ADDRESS of the lane's own fault, or of a sibling (R425). -/
def State.faultRec (s : State) (f : Fibre) (x : FaultInfo) (sib psaved : Bool) (arg : Word) (pc : DWord) (issue performed : Word) : EffRec :=
  { s.record f x.tag arg pc issue performed (if sib then 0 else x.address) with
    fault := true, psaved := psaved, detail := if sib then detailOf 0 0 true false false false else detailOf x.cause x.argx false false false false }

/-! ### Frames (R67 to R69, R261) -/

/-- A new frame above the top frame (R69): in the caller's segment when it fits and the caller's SEGEND is 0, otherwise in a new one.
FORMAT cause 3 with the target as ADDRESS (R446), PAGE cause 7 when no segment can be taken (R62), the fault of its translation when its page cannot
be written (R406). -/
def State.newFrame (s : State) (f : Fibre) (n l : Nat) (retpc target : DWord) : Except FaultInfo (State × Fibre) :=
  let size := frameSize n l
  if 32736 < size then .error ⟨0x43, 3, 0, target⟩
  else
    let (seed, s) := s.newSeed
    let top := f.top
    let a := top.addr + frameSize top.f top.l
    let g := f.segs.headD ⟨0, 0, 0, 0⟩
    if !top.segend && decide (a + size ≤ g.addr + segSize g.cls) then
      .ok (s, ({ f with chain := Frame.fresh a seed n l retpc :: f.chain }).stampAge s.age)
    else match (s.heap f.ctx).takeSeg (s.cdesc f.ctx) (entryClass n l) with
      | none => .error ⟨0x10, 7, 0, s.heapEnd f.ctx⟩
      | some (sa, h) => match s.heapFault f.ctx sa with
      | some x => .error x
      | none =>
        .ok (s.putHeap f.ctx h,
          { f with chain := Frame.fresh (sa + 32) seed n l retpc :: f.chain, segs := ⟨sa, entryClass n l, f.fid, s.age⟩ :: f.segs })
/-- Pops the top frame of fibre k (R261 step 2): its owned list is released, its segment freed when it is emptied; the return of a
RESUME's bottom frame ends its delimiter (R75, R82). -/
def State.popFrame (s : State) (k : Nat) : State :=
  match s.fibre k with
  | none => s
  | some f =>
    let top := f.top
    let rest := f.chain.drop 1
    let g := f.segs.headD ⟨0, 0, 0, 0⟩
    let emptied := !rest.any (fun fr => g.holds fr.addr)
    let rest := match rest with
      | c :: r => { c with delim := c.delim && !top.bottom } :: r
      | [] => []
    let f' := ({ f with chain := rest, segs := if emptied then f.segs.drop 1 else f.segs }).stampAge s.age
    let s := s.putFibre f'
    let s := s.releaseOwned f.ctx (some k) top.owned
    if emptied then s.putHeap f.ctx ((s.heap f.ctx).freeSeg g) else s

/-! ### Continuations (R80 to R83, R429 to R431) -/

/-- The form of a continuation handle (R80): 256-byte aligned, in the region, in a carved piece. -/
def State.blockFormOk (s : State) (ctx : Nat) (h : DWord) : Bool :=
  decide (handleAddr h % 256 = 0) && (s.heap ctx).isBlockAddr (handleAddr h)
def FaultInfo.consumed (h : DWord) (c : Nat) : FaultInfo := ⟨0x40, c, 0, h⟩
def FaultInfo.damaged (h : DWord) (c : Nat) : FaultInfo := ⟨0x41, c, 0, h⟩
/-- What the read-modify-write of a block's first word finds (R81): none when it is LIVE and its generation matches. -/
def State.blockFault (s : State) (ctx : Nat) (h : DWord) : Option FaultInfo :=
  let b := (s.heap ctx).block (handleAddr h)
  if b.genNow (handleAddr h) ≠ handleGen h then some (FaultInfo.consumed h 2)
  else if b.state = 1 then some (FaultInfo.consumed h 1)
  else if 2 ≤ b.state then some (FaultInfo.damaged h 4)
  else none
/-- The resume destination that the PERFORM at a record's PC names (R82 step 6, R265): its vD, read again from its line. -/
def State.instrAt (s : State) (ctx : Nat) (pc : DWord) : Option Instr :=
  match s.fetchLine ctx (pc.toNat / 64 * 64) with
  | .ok (ws, _) => if lineLmask ws (pc.toNat % 8) then none else (decodeSlot (slotBits ws (pc.toNat % 8))).toOption
  | .error _ => none
def State.performDst (s : State) (ctx : Nat) (pc : DWord) : Option Nat :=
  match s.instrAt ctx pc with
  | some (.perform o) => match o.dst with
    | .v n => some n.toNat
    | _ => none
  | _ => none
/-- Sets RETPC of the bottom frame of a captured chain, whose return will end the delimiter (R82 step 1). -/
def setBottomRet (retpc : DWord) : List Frame → List Frame
  | [] => []
  | [x] => [{ x with retpc := retpc, bottom := true }]
  | x :: r => x :: setBottomRet retpc r

/-- RETURN FROM AN EXCEPTION (R82): fibre k resumes the LIVE continuation at address a with value b; `retpc` is where its bottom
frame returns (0 for a dealer's resume), `vd` the resuming frame's destination, marked empty. -/
def State.rejoin (s : State) (k a : Nat) (b : Word) (retpc : DWord) (vd : Option Nat) : State :=
  match s.fibre k with
  | none => s
  | some f =>
    let blk := (s.heap f.ctx).block a
    let hd := handleOf a blk.gen
    let s := (s.consume f.ctx a).clearCont f.ctx hd blk.eff.fid
    let base : Frame := { f.top with delim := true }
    let base : Frame := match vd with
      | some n => base.markOwed n
      | none => base
    let frames := setBottomRet retpc blk.frames
    let frames := if blk.eff.fault then frames else match frames, s.performDst f.ctx blk.eff.pc with
      | t :: r, some n => t.setReg n b :: r
      | l, _ => l
    let f := { f with
      chain := frames ++ base :: f.chain.drop 1,
      segs := blk.segs.map (fun (g : Seg) => { g with owner := f.fid }) ++ f.segs,
      stamp := max f.stamp blk.eff.stamp,
      prons := if blk.eff.psaved then blk.prons else [], pc := blk.resumepc, since := s.cycle, reclaim := f.reclaim || blk.marked }
    let s := (s.putFibre (f.stampAge s.age))
    s.putHeap f.ctx ((s.heap f.ctx).freeBlock a)
/-- The first line that a step of the fibre would have to ask the owner of a LOC 3 page for (R371). -/
def State.needLine (s : State) (ctx : Nat) (pc : DWord) : Option FaultInfo := match s.fetchLine ctx (pc.toNat / 64 * 64) with
  | .error x => if x.tag = 0 then some x else none
  | .ok _ => none
/-- The line of the PERFORM whose destination a resume writes (R82 step 6). -/
def State.performNeeds (s : State) (ctx : Nat) (h : DWord) : Option FaultInfo :=
  let b := (s.heap ctx).block (handleAddr h)
  if s.contLive ctx h && !b.eff.fault then s.needLine ctx b.eff.pc else none
/-- RESUME in one lane after its form is checked (R81, R82, R106, R429): whatever it finds, its read-modify-write is one access at the
block's home. -/
def State.resumeLane (s : State) (k : Nat) (h : DWord) (b : Word) (retpc : DWord) (vd : Option Nat) : State × Option FaultInfo :=
  match s.fibre k with
  | none => (s, none)
  | some f =>
    let a := handleAddr h
    let s := s.heapAccess k a true
    let (be, s) := s.blockErr f.ctx a
    if be then
      (if ((s.heap f.ctx).block a).state = 0 then s.damage f.ctx a else s, some (FaultInfo.damaged h 2))
    else match s.blockFault f.ctx h with
    | some x => (s, some x)
    | none =>
      let blk := (s.heap f.ctx).block a
      if (cellOfFid blk.eff.fid).isSome ∧ blk.eff.fid ≠ f.fid then (s, some ⟨0x43, 11, 0, h⟩)
      else if !blk.checkOk a then (s.damage f.ctx a, some (FaultInfo.damaged h 1))
      else
        let (se, s) := s.segsErr f.ctx blk.segs
        if se then (s.damage f.ctx a, some (FaultInfo.damaged h 3))
        else (s.rejoin k a b retpc vd, none)
/-- DROP in one lane after its form is checked (R81, R83, R430): the owned lists are released, then the segments and the block freed. -/
def State.dropLane (s : State) (k : Nat) (h : DWord) : State × Option FaultInfo :=
  match s.fibre k with
  | none => (s, none)
  | some f =>
    let a := handleAddr h
    let s := s.heapAccess k a true
    let (be, s) := s.blockErr f.ctx a
    let blk := (s.heap f.ctx).block a
    match if be && blk.state != 0 then some (FaultInfo.damaged h 2) else if be then none else s.blockFault f.ctx h with
    | some x => (s, some x)
    | none =>
      let s := (blk.frames.flatMap Frame.owned).foldl (fun (s : State) n => s.heapAccess k (handleAddr n.item) true) s
      let (s, w) := s.dropCont f.ctx a
      (s.release f.ctx w, none)

/-! ### Fibres built by the dealer (R31, R66, R85, R98, R502) -/

/-- The root frame of a launch: its root handler under HTAG 0 and HMASK 0 (R85); that of a team launch's fibre holds the argument record in
v0 to v15 (R36), as many as it has. -/
def rootFrame (l : Launch) (addr seed : Nat) (args : List Word) : Frame :=
  { (Frame.fresh addr seed l.rf l.rl 0).setRegs 0 (args.take l.rf) with handler := true, hline := l.root &&& ~~~(63#64), hslot := BitVec.ofNat 3 l.root.toNat }
/-- A fibre in a lane, with the chain and segments given. -/
def Fibre.make (key : Nat) (fid : Word) (helper : Bool) (ctx launch crew lane core : Nat) (chain : List Frame) (segs : List Seg)
    (stamp : Nat) (pc : DWord) (since task : Nat) : Fibre :=
  { key := key, fid := fid, helper := helper, ctx := ctx, launch := launch, crew := crew, lane := lane, core := core, chain := chain,
    segs := segs, stamp := stamp, fstat := 0, qbits := 0, pc := pc, savedpc := pc, prons := [], conds := [], awaits := [], awaitGrp := 0,
    since := since, halted := false, reclaim := false, found := none, late := none, latePc := 0, lateArg := 0, asyncs := [], task := task, loc2 := 0, refs := [] }
/-- Builds the fibre of a new task: root frame, entry frame with the argument record in v0 to v15, RETPC 0 (R85, R36).
A task that a fibre of a team launch spawns has its own record in the root frame too (DESIGN CHOICE, log 43: R68 leaves those registers undefined). -/
def State.buildFresh (s : State) (l : Launch) (root entry : Seg) (f lc : Nat) (args : List Word) (future : Bool) : State × List Frame × List Seg :=
  let (a, s) := s.newSeed
  let (b, s) := s.newSeed
  (s, [({ Frame.fresh (entry.addr + 32) b f lc 0 with entry := future } : Frame).setRegs 0 args, rootFrame l (root.addr + 96) a (if l.isTeam then args else [])], [entry, root])

/-- Joins at the placement of a resume task (R98, R502): the new fibre, standing in its root frame, resumes the continuation with
value b; when it is no longer LIVE the effect is unhandled, fails no future, and the fibre ends. -/
def State.dealerResume (s : State) (k : Nat) (h : DWord) (b : Word) : State :=
  match s.fibre k with
  | none => s
  | some f =>
    match s.resumeLane k h b 0 none with
    | (s, none) => match cellOfFid f.fid with
      | some i => s.modCell f.ctx i (fun c => { c with ownercore := f.core })
      | none => s
    | (s, some x) =>
      let r := s.faultRec f x false false 0 f.pc (1#32 <<< f.lane) (1#32 <<< f.lane)
      let s := { s.noteUnhandled f.ctx r with frag := s.frag + 1 }
      match s.fibre k with
      | some f => s.endFibre f
      | none => s

end Sys2Proof.Machine
end

