-- ==== Sys2Proof/Machine/Operands.lean ====
section
/-! DEFINITION. Every operand form: sources by kind, immediates by type, literals, constant words, predicates and guards (R196 to
R200), the registers an entry names, and what a lane's issue tests before its operation (R437, R441, R444, R51). -/

namespace Sys2Proof.Machine

/-- How an IMM source is read (R198). -/
inductive ImmTy where
  | int
  | f32
  | f64
  | pk
  deriving DecidableEq, Repr

/-- The 32-bit value of the IMM field by operand type (R198). -/
def immWord (t : ImmTy) (imm : BitVec 20) : Word :=
  match t with
  | .int => imm.signExtend 32
  | .pk => BitVec.ofNat 32 (imm.toNat % 2 ^ 16 * 65537)
  | _ => BitVec.ofNat 32 (imm.toNat * 2 ^ 12)
/-- The 64-bit value of the IMM field by operand type (R198). -/
def immDword (t : ImmTy) (imm : BitVec 20) : DWord :=
  match t with
  | .f64 => BitVec.ofNat 64 (imm.toNat * 2 ^ 44)
  | _ => imm.signExtend 64

/-- Word w of literal slot i of the line of pc, or of the next line (R199). -/
def State.literal (s : State) (ctx : Nat) (pc : DWord) (i w : Nat) (next : Bool) : Word :=
  match s.fetchLine ctx (pc.toNat / 64 * 64 + (if next then 64 else 0)) with
  | .ok (ws, _) => ws.getD (3 * i + w) 0
  | .error _ => 0
/-- What is wrong with a literal reference (R199, R438, R441 cause 7); `wide` asks for two words. -/
def State.literalFault (s : State) (ctx : Nat) (pc : DWord) (op i w : Nat) (next wide : Bool) : Option FaultInfo :=
  let bad : FaultInfo := ⟨0x30, 7, op, 0⟩
  if 4 < i ∨ (if wide then 1 else 2) < w then some bad
  else match s.fetchLine ctx (pc.toNat / 64 * 64 + (if next then 64 else 0)) with
    | .error e => some e
    | .ok (ws, _) => if lineLmask ws i then none else some bad

/-- Src (R206): a 32-bit source of a fibre. -/
def State.src (s : State) (f : Fibre) (t : ImmTy) (imm : BitVec 20) (x : Src) : Word :=
  match x with
  | .v n _ => f.reg n.toNat
  | .p n => f.pron n
  | .c n => s.constWord f.ctx f.launch n.toNat
  | .imm => immWord t imm
  | .lit i w next => s.literal f.ctx f.pc i.toNat w.toNat next
/-- Src64 (R206): a 64-bit source: an even pair, a constant pair, an immediate or two literal words. -/
def State.src64 (s : State) (f : Fibre) (t : ImmTy) (imm : BitVec 20) (x : Src) : DWord :=
  match x with
  | .v n _ => pairOf (f.reg n.toNat) (f.reg (n.toNat + 1))
  | .p n => (f.pron n).setWidth 64
  | .c n => pairOf (s.constWord f.ctx f.launch n.toNat) (s.constWord f.ctx f.launch (n.toNat + 1))
  | .imm => immDword t imm
  | .lit i w next => pairOf (s.literal f.ctx f.pc i.toNat w.toNat next) (s.literal f.ctx f.pc i.toNat (w.toNat + 1) next)
/-- A pair of registers named by a source of kind 0 (R244, R274). -/
def Fibre.pair (f : Fibre) (x : Src) : DWord := pairOf (f.reg x.num) (f.reg (x.num + 1))
/-- k consecutive registers. -/
def Fibre.regsFrom (f : Fibre) (n k : Nat) : List Word := (List.range k).map (fun i => f.reg (n + i))

/-- How many registers, or words, a source use reads (R7, R214, R244, R260, R282, R285 to R288, R291, R301). -/
def srcSpan (op : Nat) (o : GOp) (u : SrcUse) : Nat :=
  match u with
  | .unused => 0
  | .maskNo => 0
  | .tag => 0
  | .stCtl => 0
  | .s64 => 2
  | .s64n => 2
  | .pair => 2
  | .v4 => if op = 0x306 then 16 else 4
  | .callArg => o.mod.toNat
  | .st => stLeast op o.mod (stFmt o.c)
  | .cas32 => if modBits o.mod 0 3 = 7 then 1 else 0
  | .cas64 => if modBits o.mod 0 3 = 7 then 2 else 0
  | .red => if modBits o.mod 0 4 = 1 then 2 else 1
  | .fifoGrp => 2 ^ modBits o.mod 0 2
  | .movA => if modBits o.mod 0 1 = 1 then 2 else 1
  | .matchA => if modBits o.mod 0 1 = 1 then 2 else 1
  | .fclassA => if modBits o.mod 2 1 = 1 then 2 else 1
  | .ftoiA => if modBits o.mod 3 1 = 1 then 2 else 1
  | .itofA => if modBits o.mod 4 1 = 1 then 2 else 1
  | .fcvtA => if fcvtSrc o.mod = 1 then 2 else 1
  | .fcvtB => if fcvtSrc o.mod < 2 ∧ 2 ≤ fcvtDst o.mod then (if fcvtSrc o.mod = 1 then 2 else 1) else 0
  | .movswA => if o.imm.toNat % 32 = 10 then 2 else 1
  | _ => 1
/-- How many registers a v destination takes (R213, R268, R277, R285 to R291). -/
def dstSpan (o : GOp) (u : DstUse) : Nat :=
  match u with
  | .v2 => 2
  | .v2n => 2
  | .v4 => 4
  | .vw => 2 ^ modBits o.mod 0 2
  | .ld => max 1 (widthBytes o.mod / 4)
  | .movD => if modBits o.mod 0 1 = 1 then 2 else 1
  | .movsD => let k := o.imm.toNat % 32; if k = 9 ∨ k = 10 ∨ k = 13 ∨ k = 14 then 2 else 1
  | .ftoiD => if modBits o.mod 4 1 = 1 then 2 else 1
  | .itofD => if modBits o.mod 3 1 = 1 then 2 else 1
  | .fcvtD => if fcvtDst o.mod = 1 then 2 else 1
  | _ => 1
/-- Whether D, or A, is a register of the frame: CALLX's D is a frame shape (R243, R260), a group of zero fields names none. -/
def dstIsReg (op : Nat) (u : DstUse) : Bool := u != .z && u != .n && op != 0x204
/-- Whether issue waits for a fill pending at its destination (R51): PERFORM writes none at issue (R82, R265). -/
def dstWaits (op : Nat) (u : DstUse) : Bool := dstIsReg op u && op != 0x20B
/-- Sources whose values come from other lanes (SHFL, QSWAP, QBCAST): never EMPTY here (R249, R444). -/
def srcOtherLanes (u : SrcUse) : Bool := u == .vreg

/-- What issue finds for a lane before its operation: `hold` for an empty register, or a fill pending at the destination (R51), `wait` for anything else that holds the port. -/
inductive Pre where
  | go
  | hold
  | wait
  | fault (x : FaultInfo)
  deriving DecidableEq, Repr

def Pre.andThen (a : Pre) (b : Unit → Pre) : Pre :=
  match a with
  | .go => b ()
  | x => x
/-- The fault of fetching the line after the instruction's own, which a literal source names (R189, R199, R438). -/
def State.litFetch (s : State) (ctx : Nat) (pc : DWord) (xs : List Src) : Option FaultInfo :=
  if xs.any (fun x => match x with
    | .lit _ _ next => next
    | _ => false) then match s.fetchLine ctx (pc.toNat / 64 * 64 + 64) with
    | .error e => some e
    | .ok _ => none
  else none
/-- Step 1 of R437 for a fibre's instruction: a literal line that cannot be fetched comes before every other fault. -/
def State.litPre (s : State) (f : Fibre) (xs : List Src) : Pre := match s.litFetch f.ctx f.pc xs with
  | some e => .fault e
  | none => .go
/-- ENCODING at issue for one source: a register not below F (cause 5), a bad literal (R199, R200, R441). -/
def State.srcEnc (s : State) (f : Fibre) (op span : Nat) (x : Src) : Pre :=
  match x with
  | .v n _ => if span ≠ 0 ∧ f.top.f < n.toNat + span then .fault ⟨0x30, 5, n.toNat, 0⟩ else .go
  | .lit i w next => match s.literalFault f.ctx f.pc op i.toNat w.toNat next (decide (2 ≤ span)) with
    | some e => .fault e
    | none => .go
  | _ => .go
/-- The first empty register of a span. -/
def Fibre.firstEmpty (f : Fibre) (n k : Nat) : Option Nat := (List.range k).map (fun i => n + i) |>.find? (fun i => !f.full i)
/-- Whether a write of k registers from v_n must wait for a pending fill (R51). -/
def Fibre.anyPending (f : Fibre) (n k : Nat) : Bool := (List.range k).any (fun i => f.top.pending (n + i))
/-- The reading of one source (R51, R444): an empty register holds the port, or with wait bit 1 performs EMPTY with the source's
number as CAUSE. `named` counts the registers that EMPTY may name: the others always wait. -/
def Fibre.srcWait (f : Fibre) (cause span named : Nat) (x : Src) : Pre :=
  match x with
  | .v n w =>
    match f.firstEmpty n.toNat span with
    | none => .go
    | some e => if w && decide (e < n.toNat + named) then .fault ⟨0x21, cause, e, 0⟩ else .hold
  | _ => .go
/-- Registers of a source that EMPTY may name (R444). -/
def namedSpan (u : SrcUse) (span : Nat) : Nat := if u = .st then 1 else span
/-- The issue of a format G instruction in one lane (R437 steps 1, 2 and 4, R51): literal lines, registers below F, literals, EMPTY, and an empty
destination, which holds the port. `role` is the test of step 3. An EMPTY found
before the port waited for the fills of its effect stands (R76). -/
def State.preG (s : State) (f : Fibre) (op : Nat) (o : GOp) (r : GRow) (role : Pre) : Pre :=
  let sa := srcSpan op o r.a
  let sb := srcSpan op o r.b
  let sc := srcSpan op o r.c
  let dn := dstSpan o r.dst
  (s.litPre f [o.a, o.b, o.c]).andThen fun _ =>
  (s.srcEnc f op sa o.a).andThen fun _ => (s.srcEnc f op sb o.b).andThen fun _ => (s.srcEnc f op sc o.c).andThen fun _ =>
  (match o.dst with
    | .v n => if dstIsReg op r.dst && decide (f.top.f < n.toNat + dn) then Pre.fault ⟨0x30, 5, n.toNat, 0⟩ else Pre.go
    | _ => Pre.go : Pre).andThen fun _ => role.andThen fun _ =>
  (match f.found with
    | some x => Pre.fault x
    | none => (if srcOtherLanes r.a then Pre.go else f.srcWait 0 sa (namedSpan r.a sa) o.a).andThen fun _ =>
      (f.srcWait 1 sb (namedSpan r.b sb) o.b).andThen fun _ => f.srcWait 2 sc (namedSpan r.c sc) o.c : Pre).andThen fun _ =>
  match o.dst with
  | .v n => if dstWaits op r.dst && f.anyPending n.toNat dn then .hold else .go
  | _ => .go

/-- Registers n to n + k − 1 of the top frame that it has, 0 and full (R31). -/
def Fibre.zeroRegs (f : Fibre) (n k : Nat) : Fibre := f.setRegs n (List.replicate (min k (f.top.f - n)) 0)
/-- A destination that a suppressed instruction leaves: 0, full (R31). -/
def Fibre.zeroDst (f : Fibre) (o : GOp) (r : GRow) : Fibre :=
  match o.dst with
  | .v n => if r.dst == .z then f else f.zeroRegs n.toNat (dstSpan o r.dst)
  | .p n => f.setPron n 0
  | .q n => f.setPred n false
  | .none => f
/-- Whether what a suppressed instruction does to a fibre writes a register that still waits for a value: it holds the port until that has
arrived (R31, R51). -/
def overEmpty (zero : Fibre → Fibre) (f : Fibre) : Bool := f.top.empties.any (fun n => f.top.pending n && (zero f).top.full n)
/-- Whether a suppressed instruction waits so in a helper lane. -/
def helperHolds (guard : Guard) (zero : Fibre → Fibre) (f : Fibre) : Bool := f.helper && f.guard guard && overEmpty zero f

end Sys2Proof.Machine
end

