-- ==== Sys2Proof/Machine/Issue.lean ====
section
/-! DEFINITION. What an issue group does with one instruction: lanes in ascending order, holds, faults of the whole group (R55,
R425, R501), and the end of a sentence at its trailer (R46, R53, R54, R104, R269, R299, R434). -/

namespace Sys2Proof.Machine

/-- What an instruction answers. -/
abbrev Out := Host.Outcome State Fault Refusal

/-- The port that issues, its run, and its group's fibres in ascending lane order. -/
structure Group where
  core : Nat
  p : Nat
  run : PortRun
  fs : List Fibre

def State.group (s : State) : Option Group :=
  match s.actor with
  | .port c p => match s.port c p with
    | some r => some ⟨c, p, r, r.fibres.filterMap s.fibre⟩
    | none => none
  | _ => none
/-- Lanes as a mask. -/
def laneMask (fs : List Fibre) : Word := BitVec.ofNat 32 (maskOf (fs.map Fibre.lane))
/-- The instruction at the port as the origin of a condition that it adds to a fibre's next trailer. -/
def State.origin (s : State) (f : Fibre) : Origin := match s.group with
  | some g => { pc := f.pc, word := g.run.word, issue := laneMask g.fs, frag := none }
  | none => { pc := f.pc, word := 0, issue := 0, frag := none }
/-- The group's fibres as they stand now. -/
def Group.now (g : Group) (s : State) : List Fibre := g.run.fibres.filterMap s.fibre

/-- One lane's outcome: go on as this fibre, hold the port for an empty register (R51), wait there for something else, or fault (with what
the fault leaves of the fibre, R173). -/
inductive LaneOut where
  | ok (f : Fibre)
  | hold
  | wait
  | fault (x : FaultInfo) (f : Fibre)
  deriving DecidableEq, Repr

/-- The port is held at the instruction, on an empty register (`w` is `.empty`) or otherwise (`.held`). -/
def State.heldAs (s : State) (w : PortWait) (g : Group) : State := match s.port g.core g.p with
  | some r => if r.wait = .none ∨ r.wait = .held ∨ r.wait = .empty then s.putPort g.core g.p { r with wait := w } else s
  | none => s
def State.held (s : State) (g : Group) : State := s.heldAs .held g
/-- The port is held on an empty register; counter 2 counts the cycle (R51, R307). -/
def State.stalled (s : State) (g : Group) : State :=
  (match g.fs with
    | f :: _ => s.bump f.ctx g.core 2 1
    | [] => s : State).heldAs .empty g
/-- Counts an issued instruction, once it has gone through (R307). -/
def State.counted (s : State) (g : Group) : State := match g.fs with
  | f :: _ => s.bump f.ctx g.core 0 1
  | [] => s
/-- The sentence goes on at the next instruction slot in every fibre of the group. -/
def State.goOn (s : State) (g : Group) : State :=
  let s := s.counted g
  let s := s.putFibres ((g.now s).map (fun f => { f with pc := s.nextSlot f.ctx f.pc }))
  s.putPort g.core g.p { g.run with count := g.run.count + 1, done := [], wait := .none, know := [], nth := 0, part := [], queued := none }

/-- Whether a lane's fills have all arrived (R76) and its earlier accesses, its reference instructions among them, have been placed: an effect's
block and record are later stores of the fibre (R77). -/
def State.noFill (s : State) (k : Nat) : Bool := !s.fills.any (fun x => x.fibre == k) && !s.unplaced k

/-- One lane's part of a fault of the group: its fault, or its part as a sibling (R425). -/
structure LaneDeliv where
  key : Nat
  x : FaultInfo
  sib : Bool
  resume : DWord

/-- Delivers the effects of one issue of one instruction, all with one ISSUE, PERFORMED and FRAG (R79, R425): faults, and FGET's AWAIT (R96).
At a trailer a fibre that is to be reclaimed meets that instead, and performs nothing (R54, R103, R108). -/
def State.deliverAll (s : State) (word : Word) (pc : DWord) (issue performed : Word) (all : List LaneDeliv) : State :=
  let due (d : LaneDeliv) : Bool := isTrailerOp (word.toNat % 1024) && (match s.fibre d.key with
    | some f => s.dueReclaim f
    | none => false)
  let gone := all.filter due
  let performed := performed &&& ~~~(laneMask (gone.filterMap (fun d => s.fibre d.key)))
  let ds := all.filter (fun d => !due d)
  let s := gone.foldl (fun s d => s.reclaimFibre d.key) s
  let s := ds.foldl (fun s d => match s.fibre d.key with
    | some f => s.deliver d.key (if d.x.tag = 2 then s.record f 2 0 pc issue performed d.x.address
        else s.faultRec f d.x d.sib true word pc issue performed) d.resume word
    | none => s) s
  { s with frag := s.frag + 1 }
/-- A barrier condition whose phase is broken (R299): BROKEN cause 2. -/
def State.brokenCond (s : State) (f : Fibre) : Option (Origin × FaultInfo) :=
  match (s.crew f.crew).bind (fun c => c.team.bind s.team) with
  | none => none
  | some t => f.conds.findSome? (fun c => match c with
    | .bar n tok o => if (t.bar n).broken && !phasePast (t.bar n).phase tok then some (o, ⟨0x42, 2, n, BitVec.ofNat 64 n⟩) else none
    | _ => none)
/-- COPYWAIT is asked for by the launch and a WPWAIT value is not reached (R130, R86): of several conditions the one added first, which the spec
leaves open (log 83). -/
def State.copyWait (s : State) (f : Fibre) : Option (Origin × Nat × DWord) :=
  match s.launch f.ctx f.launch with
  | some l => if l.cwait then f.conds.findSome? (fun c => match c with
      | .wptr ch v o => some (o, ch, v)
      | _ => none) else none
  | none => none
/-- The effect that a waiting fibre performs at or after its trailer, with the instruction that it comes from: BROKEN (R299) before COPYWAIT (R130).
LATE is 0: R269 names the effects that are delivered late, and these are not among them (log 84). -/
def State.condEff (s : State) (f : Fibre) : Option (Origin × EffRec) :=
  match s.brokenCond f with
  | some (o, x) => some (o, s.faultRec f x false false o.word o.pc o.issue 0)
  | none => (s.copyWait f).map (fun (o, ch, v) => (o, s.record f 3 (BitVec.ofNat 32 ch) o.pc o.issue 0 v))
/-- Performs that effect in every lane of the instruction's issue that is due to perform it now: one ISSUE, PERFORMED and FRAG (R79), the same FRAG
for lanes that come to perform it later (log 84). -/
def State.performCond (s : State) (o : Origin) (crew : Nat) : State :=
  let same (x : Option (Origin × EffRec)) : Bool := match x with
    | some y => y.1.pc == o.pc && y.1.issue == o.issue
    | none => false
  let all := (((s.fibres.map Prod.snd).filter (fun (f : Fibre) => f.crew == crew && !f.helper && !s.onPort f.key)).map s.judge).filter (fun f => same (s.condEff f))
  let now := all.filter (fun f => !s.dueReclaim f && f.asyncs.isEmpty && s.noFill f.key)
  let (frag, s) := match o.frag with
    | some x => (x, s)
    | none => (BitVec.ofNat 32 s.frag, { s with frag := s.frag + 1 })
  let note (c : Cond) : Cond := match c with
    | .wptr ch v x => .wptr ch v (if x.pc = o.pc then { x with frag := some frag } else x)
    | .bar n tok x => .bar n tok (if x.pc = o.pc then { x with frag := some frag } else x)
    | c => c
  let s := s.putFibres (all.map (fun f => { f with conds := f.conds.map note }))
  now.foldl (fun s f => match s.condEff f with
    | some (_, r) => s.deliver f.key { r with performed := laneMask now, frag := frag } f.pc o.word
    | none => s) s
/-- Whether every filled lane of a helper's quad has ended (R32). -/
def State.quadDone (s : State) (f : Fibre) : Bool :=
  match s.crew f.crew with
  | none => false
  | some c => !(s.crewFibres c).any (fun x => !x.helper && x.lane / 4 == f.lane / 4)
/-- Delivers the oldest pending fault of engine command or sequencer (R339, R463): RESUMEPC the fibre's program counter, no pronouns. -/
def State.deliverPending (s : State) (k : Nat) : State :=
  match s.fibre k with
  | none => s
  | some f => match f.asyncs with
    | [] => s
    | p :: r =>
      let s := s.putFibre { f with asyncs := r }
      let before := (s.heap f.ctx).blocks
      let s := s.deliver k { p.rec_ with stamp := f.stamp, fid := f.fid, frag := BitVec.ofNat 32 s.frag } f.pc
      let s := { s with frag := s.frag + 1 }
      match p.halts with
      | none => s
      | some (cl, ch) =>
        -- The queue that the fault halted waits for the new continuation to leave LIVE; with no continuation it reopens now (R464).
        let fresh := (s.heap f.ctx).blocks.find? (fun b => b.2.state == 0 && b.2.eff.detail == p.rec_.detail && b.2.eff.pc == p.rec_.pc
          && (Tab.get before b.1).map (fun x => x.gen == b.2.gen && x.state == 0) != some true)
        match fresh with
        | none => s.reopenQueue f.ctx cl ch
        | some b =>
          let hd := handleOf b.1 b.2.gen
          let x := s.clc f.ctx cl
          if ch < 16 then s.putChan f.ctx cl ch { s.chan f.ctx cl ch with haltBlk := some hd }
          else s.putCLC f.ctx cl { x with halted := x.halted.map (fun y => if y.1 = ch then (ch, some hd) else y) }
/-- What takes effect for one fibre once a trailer has (R54): a helper's end (R32), reclamation (R103, R104), pending faults
(R339, R463), trailer conditions met now, BROKEN (R299), COPYWAIT (R130). -/
def State.afterTrailer (s : State) (k : Nat) : State :=
  match s.fibre k with
  | none => s
  | some f =>
    if f.helper && s.quadDone f then s.endFibre f
    else if s.dueReclaim f then s.reclaimFibre k
    else if !f.asyncs.isEmpty then
      if s.noFill k then s.deliverPending k else s.putFibre { f with conds := Cond.fault :: f.conds.filter (· != .fault) }
    else
      let f := s.judge f
      let s := s.putFibre f
      if f.helper then s
      else if !s.noFill k then s
      else match s.condEff f with
        | some (o, _) => s.performCond o f.crew
        | none => s
/-- From a fault of its group to its next trailer a helper lane's pronouns hold unspecified values (R425). -/
def Fibre.loseProns (f : Fibre) (seed : Nat) : Fibre := { f with prons := (List.range 16).map (fun i => (i, Config.undefWord seed i)) }
/-- The port keeps only the group's helper lanes, and is freed when there are none (R425); at a trailer they go on as after one (R246). -/
def State.keepHelpers (s : State) (g : Group) (word : Word) : State :=
  let hs := (g.now s).filter Fibre.helper
  let trailer := isTrailerOp (word.toNat % 1024)
  let s := { s.putFibres (hs.zipIdx.map (fun x =>
      { (if trailer then { x.1 with prons := [] } else x.1.loseProns (s.seeds + x.2)) with pc := s.nextSlot x.1.ctx x.1.pc })) with
    seeds := s.seeds + hs.length }
  if hs.isEmpty then s.freePort g.core g.p
  else if trailer then hs.foldl (fun s f => s.afterTrailer f.key) (s.freePort g.core g.p)
  else s.putPort g.core g.p { g.run with
    fibres := hs.map Fibre.key, count := g.run.count + 1, done := [], wait := .none, know := [], nth := 0, part := [], queued := none }

/-- Gets a line of instructions that an agent needs and that cannot be read yet: on a LOC 3 page its owner is sent a read, and the answer is what
the agent's buffer then holds (R371); otherwise the memory it stands in is made ready (R115, R161). -/
def State.askLine (s : State) (ctx ts found la : Nat) : State × Option (Nat × Nat × Option PeerReply) :=
  if s.walkUnready ctx la then (s.prepLine (fetchAgent ctx ts found) la, none) else
  match s.walk ctx la with
  | .ok lf => if lf.loc ≠ 3 then (s.prepLine (fetchAgent ctx ts found) la, none) else
    let id := s.link.nextId
    let m : Msg := { dst := lf.base, tc := 1, ctx := ctx, stamp := ts, body := .access s.device id (BitVec.ofNat 64 la) .fetch 0 }
    ({ s with link := { s.link with nextId := id + 1, out := s.link.out ++ [m] } }, some (la, id, none))
  | .error _ => (s, none)
/-- Asks for a line that a port's sentence has come to need and has not asked for; the port waits meanwhile. -/
def State.askCode (s : State) (g : Group) (ctx ts la : Nat) : State :=
  match s.port g.core g.p with
  | none => s
  | some r =>
    if r.code.any (fun x => x.1 == la) then s.held g
    else match s.askLine ctx ts 0 la with
      | (t, some x) => (t.putPort g.core g.p { r with code := r.code ++ [x] }).held g
      | (t, none) => t.held g
/-- The line that a lane found still to be asked for (`FaultInfo.unfetched`). -/
def LaneOut.needs : LaneOut → Option Nat
  | .fault x _ => if x.tag = 0 then some x.address.toNat else none
  | _ => none
/-- Asks for the first line that a lane of the group needs (R26: only what the instruction has come to need is fetched). -/
def State.askNeeds (s : State) (g : Group) (res : List (Fibre × LaneOut)) : Option State :=
  (res.findSome? (fun x => x.2.needs.map (fun la => (x.1, la)))).map (fun x => s.askCode g x.1.ctx x.1.stamp x.2)
/-- A fault in some lanes of the group (R55, R425): each faulting lane performs its own, every other lane that is no helper is a
sibling; the instruction has no effect in any lane but the flags of R173, and helper lanes go on with their destinations 0. A line of
instructions that a lane still needs is asked for first. -/
def State.groupFault (s : State) (g : Group) (word : Word) (res : List (Fibre × LaneOut)) (zero : Fibre → Fibre) : State :=
  let act := res.filter (fun x => !x.1.helper)
  match s.askNeeds g res with
  | some t => t
  | none =>
  if act.any (fun x => !s.noFill x.1.key) || res.any (fun x => x.1.helper && overEmpty zero x.1) then
    (s.putFibres (act.filterMap (fun x => match x.2 with
      | .fault e _ => if e.tag = 0x21 then some { x.1 with found := some e } else none
      | _ => none))).held g
  else
    let first := act.findSome? (fun x => match x.2 with
      | .fault e _ => some e
      | _ => none)
    match first with
    | none => s
    | some e0 =>
      let ds := act.map (fun x => match x.2 with
        | .fault e _ => (⟨x.1.key, e, false, x.1.pc⟩ : LaneDeliv)
        | _ => ⟨x.1.key, e0, true, x.1.pc⟩)
      let s := s.putFibres (act.filterMap (fun x => match x.2 with
        | .fault _ f => some f
        | _ => none))
      let s := s.putFibres ((res.filter (fun x => x.1.helper)).map (fun x => zero x.1))
      let pc := (g.fs.headD (Fibre.make 0 0 false 0 0 0 0 0 [] [] 0 0 0 0)).pc
      let s := s.deliverAll word pc (laneMask g.fs) (laneMask (act.map Prod.fst)) ds
      s.keepHelpers g word

/-- A lane of an instruction that acts on each fibre alone: guard, issue tests, operation; a fault in a helper lane leaves its
destinations 0 (R31). -/
def laneStep (zero : Fibre → Fibre) (guard : Bool) (pre : Pre) (f : Fibre) (op : Unit → LaneOut) : LaneOut :=
  if !guard then .ok f
  else match (match pre with
    | .go => op ()
    | .hold => .hold
    | .wait => .wait
    | .fault x => .fault x f) with
  | .fault x f' => if f.helper && x.tag != 0 then (if overEmpty zero f then .hold else .ok (zero f')) else .fault x f'
  | r => r

def LaneOut.isHold : LaneOut → Bool
  | .hold => true
  | _ => false
def LaneOut.isWait : LaneOut → Bool
  | .wait => true
  | _ => false
/-- The port is held at an instruction that a lane cannot pass yet: counted when an empty register is the cause (R51, R307). -/
def State.holdIf (s : State) (g : Group) (res : List (Fibre × LaneOut)) : Option State :=
  if res.any (fun x => x.2.isHold) then some (s.stalled g)
  else if res.any (fun x => x.2.isWait) then some (s.held g)
  else none
def LaneOut.isFault : LaneOut → Bool
  | .fault _ _ => true
  | _ => false
def LaneOut.fibre? : LaneOut → Option Fibre
  | .ok f => some f
  | _ => none

/-- The outcome of a group whose lanes act alone: held if any lane holds, otherwise the faults of R425, otherwise every lane's
fibre is written in ascending lane order. -/
def State.settleLanes (s : State) (g : Group) (res : List (Fibre × LaneOut)) (zero : Fibre → Fibre) (after : State → State) : State :=
  if res.any (fun x => x.2.isFault) then s.groupFault g g.run.word res zero
  else match s.holdIf g res with
    | some t => t
    | none => after (s.putFibres (res.filterMap (fun x => x.2.fibre?)))

/-- A format G instruction whose lanes act alone. -/
def runG (op : Nat) (o : GOp) (s : State) (lane : State → Fibre → LaneOut) : Out :=
  match s.group, gRow op with
  | some g, some r =>
    let zero : Fibre → Fibre := fun f => f.zeroDst o r
    .next (s.settleLanes g (g.fs.map (fun f => (f, laneStep zero (f.guard o.guard) (s.preG f op o r .go) f (fun _ => lane s f)))) zero
      (fun t => t.goOn g))
  | _, _ => .refused .noIssueGroup
/-- A format G instruction whose lanes act alone and that may fail PRIV or ROLE first (R437 step 3). -/
def runGRole (op : Nat) (o : GOp) (s : State) (role : State → Group → Pre) (lane : State → Fibre → LaneOut) : Out :=
  match s.group, gRow op with
  | some g, some r =>
    let zero : Fibre → Fibre := fun f => f.zeroDst o r
    .next (s.settleLanes g (g.fs.map (fun f => (f, laneStep zero (f.guard o.guard) (s.preG f op o r (role s g)) f (fun _ => lane s f)))) zero
      (fun t => t.goOn g))
  | _, _ => .refused .noIssueGroup

/-- A format G instruction whose lanes see each other: its own test before the operation, and what it does to the crew after. -/
def runCrew (op : Nat) (o : GOp) (s : State) (pre : State → Group → GRow → Fibre → Pre) (lane : State → Group → Fibre → LaneOut)
    (after : State → Group → State) : Out :=
  match s.group, gRow op with
  | some g, some r =>
    let zero : Fibre → Fibre := fun f => f.zeroDst o r
    .next (s.settleLanes g (g.fs.map (fun f => (f, laneStep zero (f.guard o.guard) (pre s g r f) f (fun _ => lane s g f)))) zero
      (fun t => (after t g).goOn g))
  | _, _ => .refused .noIssueGroup

/-! ### Trailers -/

/-- The end of a sentence: the port is free, pronouns become invalid (but for what a RESUME restored), and what waited for the
trailer takes effect in every fibre of the group, in ascending lane order (R48, R54). -/
def State.endSentence (s : State) (g : Group) (keep : List Nat) : State :=
  let s := (s.counted g).freePort g.core g.p
  let s := s.putFibres ((g.now s).map (fun f => { f with prons := if keep.contains f.key then f.prons else [], since := s.cycle }))
  (g.fs.map Fibre.key).foldl State.afterTrailer s
/-- A late REFCOUNT makes a lane's trailer take no effect (R269): it performs REFCOUNT with LATE 1, RESUMEPC the trailer. -/
def State.lateFaults (s : State) (g : Group) : State :=
  let bad := g.fs.filter (fun f => f.late.isSome && !s.dueReclaim f)
  let s := (g.fs.filter (fun f => f.late.isSome && s.dueReclaim f)).foldl (fun s f => s.reclaimFibre f.key) s
  let s := bad.foldl (fun s f => match f.late with
    | some x => (s.putFibre { f with late := none }).deliver f.key { s.faultRec f x false true f.lateArg f.latePc (laneMask g.fs) (laneMask bad) with
        detail := detailOf x.cause x.argx false true false false } f.pc
    | none => s) s
  if bad.isEmpty then s else { s with frag := s.frag + 1 }

/-- A lane's outcome at a trailer: its fibre with its next program counter, and a fault of its own. -/
structure TrailLane where
  key : Nat
  out : LaneOut

/-- The group without the lanes that have left it. -/
def Group.without (g : Group) (bad : List Nat) : Group :=
  { g with fs := g.fs.filter (fun f => !bad.contains f.key), run := { g.run with fibres := g.run.fibres.filter (fun k => !bad.contains k) } }
/-- A branch-class trailer whose lanes act alone (R259): lanes whose target or operation faults perform it, and the other lanes
are no siblings when `alone` holds (R445), siblings otherwise (R425). `alone` is false when a lane failed a check at issue. -/
def State.settleTrailer (s : State) (g : Group) (res : List (Fibre × LaneOut)) (alone : Bool) : State :=
  if (!alone && res.any (fun x => x.2.isFault)) || res.any (fun x => x.2.needs.isSome) then s.groupFault g g.run.word res id
  else match s.holdIf g res with
  | some t => t
  | none =>
  if res.any (fun x => x.2.isFault) then
    if res.any (fun x => x.2.isFault && !s.noFill x.1.key) then s.held g
    else
      let bad := (res.filter (fun x => x.2.isFault)).map (fun x => x.1.key)
      let ds := res.filterMap (fun x => match x.2 with
        | .fault e _ => some (⟨x.1.key, e, false, x.1.pc⟩ : LaneDeliv)
        | _ => none)
      let s := s.putFibres (res.filterMap (fun x => x.2.fibre?))
      let pc := (g.fs.headD (Fibre.make 0 0 false 0 0 0 0 0 [] [] 0 0 0 0)).pc
      let s := s.deliverAll g.run.word pc (laneMask g.fs) (laneMask (g.fs.filter (fun f => bad.contains f.key))) ds
      s.endSentence (g.without bad) []
  else (s.putFibres (res.filterMap (fun x => x.2.fibre?))).endSentence g []

/-- Whether a waiting operation owes its fibre an answer: every reference instruction does, an FCANCEL, which has number 16 there, does not (R269). -/
def RefOp.answers (r : RefOp) : Bool := r.op != 16
/-- Trailers wait for the answers of reference instructions: lanes with a REFCOUNT perform it, the others take the trailer (R269). -/
def State.withLate (s : State) (g : Group) (k : State → Group → State) : State :=
  if g.fs.any (fun f => f.refs.any RefOp.answers) then s.held g
  else if g.fs.any (fun f => f.late.isSome) then
    if g.fs.any (fun f => f.late.isSome && !s.noFill f.key) then s.held g
    else
      let ok := g.fs.filter (fun f => f.late.isNone)
      let s := s.lateFaults g
      if ok.isEmpty then s.freePort g.core g.p
      else k (s.putPort g.core g.p { g.run with fibres := ok.map Fibre.key }) { g with fs := ok, run := { g.run with fibres := ok.map Fibre.key } }
  else k s g

def Pre.isFault : Pre → Bool
  | .fault _ => true
  | _ => false
/-- A format G trailer whose lanes act alone: lanes whose guard fails go on at the next slot. -/
def runTrailer (op : Nat) (o : GOp) (s : State) (lane : State → Fibre → LaneOut) : Out :=
  match s.group, gRow op with
  | some g, some r =>
    .next (s.withLate g fun s g =>
      let zero : Fibre → Fibre := fun f => { f.zeroDst o r with pc := s.nextSlot f.ctx f.pc }
      let pre (f : Fibre) : Pre := if f.guard o.guard then s.preG f op o r .go else .go
      s.settleTrailer g (g.fs.map (fun f =>
        (f, if f.guard o.guard then laneStep zero true (pre f) f (fun _ => lane s f)
            else .ok { f with pc := s.nextSlot f.ctx f.pc }))) (!g.fs.any (fun f => !f.helper && (pre f).isFault)))
  | _, _ => .refused .noIssueGroup

/-- A format J source (R201, R244): a register below F, and an empty one waits. -/
def State.preJ (s : State) (f : Fibre) (op : Nat) (o : JOp) (span : Nat) (dst : Option (Nat × Nat)) : Pre :=
  (s.srcEnc f op span o.a).andThen fun _ =>
  (match dst with
    | some (n, k) => if f.top.f < n + k then Pre.fault ⟨0x30, 5, n, 0⟩ else Pre.go
    | none => Pre.go : Pre).andThen fun _ =>
  (f.srcWait 0 span 0 o.a).andThen fun _ =>
  match dst with
  | some (n, k) => if f.anyPending n k then .hold else .go
  | none => .go
/-- The line after an instruction, where its next instruction slot stands there and its owner has not been asked for it (R189, R371). -/
def State.nextNeeds (s : State) (f : Fibre) : Option FaultInfo := s.needLine f.ctx (s.nextSlot f.ctx f.pc)
/-- The target of a format J instruction (R201): slot TSLOT of the line at the instruction's line + 64 × OFFSET. -/
def jumpTarget (o : JOp) (pc : DWord) : DWord :=
  BitVec.ofNat 64 (wrap 64 ((pc.toNat / 64 * 64 : Nat) + 64 * signed 26 o.off.toNat) + o.tslot.toNat)

end Sys2Proof.Machine
end

