-- ==== Sys2Proof/Machine/Flags.lean ====
section
/-! DEFINITION. Flags and conditions: FSTAT and ARITH (R172, R173, R447), integer conditions (R217), floating-point conditions
(R230), and the result of an instruction that raises flags. -/

namespace Sys2Proof.Machine

/-- Sets sticky flags (R172). -/
def Fibre.raise (f : Fibre) (flags : Nat) : Fibre := { f with fstat := f.fstat ||| BitVec.ofNat 32 (flags % 32) }
/-- The raised flags whose enable bits are 1 (R173). -/
def Fibre.trapped (f : Fibre) (flags : Nat) : Nat := flags % 32 &&& f.fstat.toNat / 256 % 32
/-- A result with flags: they are set; where an enabled one is raised the destination is unchanged and the lane performs ARITH
(R173, R447). -/
def Fibre.flagged (f : Fibre) (flags : Nat) (write : Fibre → Fibre) : LaneOut :=
  if f.trapped flags = 0 then .ok (write (f.raise flags))
  else .fault ⟨0x20, f.trapped flags, flags % 32, 0⟩ (f.raise flags)
/-- FSTATW (R235): the writable bits are those of 0x1F1F. -/
def fstatWrite (old a b : Word) : Word :=
  let w := b &&& 0x1F1F#32
  (old &&& ~~~w) ||| (a &&& w)

/-- A condition on an ordering: 0 eq, 1 ne, 2 lt, 3 le, 4 gt, 5 ge (R217). -/
def intCond (cc : Nat) (x y : Int) : Bool :=
  match cc with
  | 0 => decide (x = y)
  | 1 => decide (x ≠ y)
  | 2 => decide (x < y)
  | 3 => decide (x ≤ y)
  | 4 => decide (y < x)
  | _ => decide (y ≤ x)
/-- ISETP's condition: MOD[2:0] cc, MOD[3] unsigned (R217). -/
def isetpCond (mod : Nat) (a b : Word) : Bool :=
  if bitOf mod 3 then intCond (mod % 8) (a.toNat : Int) (b.toNat : Int)
  else intCond (mod % 8) (signed 32 a.toNat) (signed 32 b.toNat)

/-- A floating-point condition of FSETP or DSETP, 0 to 7, on numbers (R230). -/
def numCond (cc : Nat) (o : Ordering) : Bool :=
  match cc with
  | 0 => o == .eq
  | 1 => o == .lt
  | 2 => o != .gt
  | 3 => o == .gt
  | 4 => o != .lt
  | 5 => o != .eq
  | 6 => true
  | _ => false
/-- The condition and whether NV is raised (R230): values 8 to 14 hold on a NaN; a quiet NaN raises NV under lt, le, gt, ge. -/
def floatCond (cc : Nat) (a b : FVal) : Bool × Bool :=
  match a.cmp b with
  | some o => (if 8 ≤ cc then (if cc = 14 then false else numCond (cc - 8) o) else numCond cc o, false)
  | none => (decide (8 ≤ cc), a.isSig || b.isSig || (decide (1 ≤ cc) && decide (cc ≤ 4)))

/-- The class bit of FCLASS (R231). -/
def FloatFmt.classOf (f : FloatFmt) (x : Nat) : Nat :=
  match f.decode x with
  | .nan sig => if sig then 8 else 9
  | .inf neg => if neg then 0 else 7
  | .fin neg m _ =>
    let k := if m = 0 then 3 else if m < 2 ^ f.fb then 2 else 1
    if neg then k else 7 - k

end Sys2Proof.Machine
end

