-- ==== Sys2Proof/Machine/Integer.lean ====
section
/-! DEFINITION. Group 0: integer and address instructions (R213 to R225). -/

namespace Sys2Proof.Machine

/-! ### Values -/

/-- The result of an arithmetic entry under wrap, sat or usat (R217): `sg` and `un` are the exact results on signed and unsigned operands. -/
def satWord (mod : Nat) (sg un : Int) : Word :=
  match mod % 4 with
  | 1 => wordOf (max (-(2 ^ 31)) (min sg (2 ^ 31 - 1)))
  | 2 => wordOf (max 0 (min un (2 ^ 32 - 1)))
  | _ => wordOf sg
def sg (x : Word) : Int := signed 32 x.toNat
def un (x : Word) : Int := (x.toNat : Int)
def iaddVal (mod : Nat) (a b : Word) : Word := satWord mod (sg a + sg b) (un a + un b)
def isubVal (mod : Nat) (a b : Word) : Word := satWord mod (sg a - sg b) (un a - un b)
def imulVal (a b : Word) : Word := BitVec.ofNat 32 (a.toNat * b.toNat)
def imulhVal (mod : Nat) (a b : Word) : Word :=
  BitVec.ofNat 32 (wrap 64 (if bitOf mod 0 then un a * un b else sg a * sg b) / 2 ^ 32)
def imadVal (mod : Nat) (a b c : Word) : Word := satWord mod (sg a * sg b + sg c) (un a * un b + un c)
def imad64Val (mod : Nat) (a b : Word) (c : DWord) : DWord :=
  dwordOf ((if bitOf mod 0 then un a * un b else sg a * sg b) + c.toNat)
def iadd64Val (mod : Nat) (a b : DWord) : DWord := if bitOf mod 0 then a - b else a + b
/-- LEA (R221). -/
def leaVal (mod : Nat) (base : DWord) (b : Word) (imm : BitVec 20) : DWord :=
  dwordOf (base.toNat + (if bitOf mod 3 then un b else sg b) * 2 ^ (mod % 8) + signed 20 imm.toNat)
def inegVal (mod : Nat) (a : Word) : Word := satWord (mod % 2) (-sg a) (-un a)
def iabsVal (mod : Nat) (a : Word) : Word := satWord (mod % 2) (sg a).natAbs (un a)
def iminVal (mod : Nat) (a b : Word) : Word := if isetpCond (if bitOf mod 0 then 10 else 2) b a then b else a
def imaxVal (mod : Nat) (a b : Word) : Word := if isetpCond (if bitOf mod 0 then 10 else 2) a b then b else a
/-- Shifts by all 32 bits of B (R218). -/
def shlVal (a b : Word) : Word := if 32 ≤ b.toNat then 0 else a <<< b.toNat
def shrVal (a b : Word) : Word := if 32 ≤ b.toNat then 0 else a >>> b.toNat
def sarVal (a b : Word) : Word := a.sshiftRight (min b.toNat 32)
/-- The funnel shift (R218). -/
def funshfVal (mod : Nat) (a b c : Word) : Word :=
  let x := b.toNat * 2 ^ 32 + a.toNat
  let n := c.toNat % 32
  if bitOf mod 0 then BitVec.ofNat 32 (x * 2 ^ n / 2 ^ 32) else BitVec.ofNat 32 (x / 2 ^ n)
/-- BFE (R219). -/
def bfeVal (mod : Nat) (a b : Word) : Word :=
  let pos := b.toNat % 256
  let len := b.toNat / 256 % 256
  if len = 0 then 0
  else if bitOf mod 0 then wordOf (signed len (wrap len (sg a / (2 ^ pos : Nat))))
  else BitVec.ofNat 32 (a.toNat / 2 ^ pos % 2 ^ len)
/-- BFI (R219). -/
def bfiVal (a b c : Word) : Word :=
  let pos := c.toNat % 256
  let top := min (pos + c.toNat / 256 % 256) 32
  BitVec.ofNat 32 (maskOf ((List.range 32).filter (fun i => if pos ≤ i ∧ i < top then bitOf a.toNat (i - pos) else bitOf b.toNat i)))
def popcVal (a : Word) : Word := BitVec.ofNat 32 (popcount a.toNat)
def clzVal (a : Word) : Word := if a = 0 then 32 else BitVec.ofNat 32 (31 - Nat.log2 a.toNat)
def brevVal (a : Word) : Word := BitVec.ofNat 32 (maskOf ((List.range 32).filter (fun i => bitOf a.toNat (31 - i))))
/-- IDIVQ (R225): quotient and remainder. -/
def idivqVal (mod : Nat) (a b : Word) : Word × Word :=
  if b = 0 then (0xFFFFFFFF, a)
  else if bitOf mod 0 then (BitVec.ofNat 32 (a.toNat / b.toNat), BitVec.ofNat 32 (a.toNat % b.toNat))
  else (wordOf (Int.tdiv (sg a) (sg b)), wordOf (Int.tmod (sg a) (sg b)))
/-- The system value of a selection and whether it is 64 bits wide (R224). -/
def State.sysValue (s : State) (f : Fibre) (sel : Nat) : DWord :=
  let none32 : Nat := 0xFFFFFFFF
  let team := (s.crew f.crew).bind (fun c => c.team.bind s.team)
  BitVec.ofNat 64 (match sel with
    | 0 => if f.helper then none32 else f.fid.toNat
    | 1 => f.lane
    | 2 => f.lane / 4
    | 3 => match s.crew f.crew with
      | some c => if c.team.isSome then c.number else none32
      | none => none32
    | 4 => match team with
      | some t => if t.ofBand then t.index else 0
      | none => none32
    | 5 => match team with
      | some t => t.band
      | none => none32
    | 6 => f.core % 48
    | 7 => clusterOf f.core
    | 8 => s.device
    | 9 => f.top.addr
    | 10 => f.stamp
    | 11 => f.fstat.toNat
    | 12 => f.ctx % 2 ^ 16
    | 13 => s.time
    | _ => s.cycle)

/-! ### Lanes -/

/-- One lane of an instruction with a 32-bit result of up to three 32-bit sources. -/
def lane32 (t : ImmTy) (o : GOp) (k : Word → Word → Word → Word) (s : State) (f : Fibre) : LaneOut :=
  .ok (f.setDst o.dst (k (s.src f t o.imm o.a) (s.src f t o.imm o.b) (s.src f t o.imm o.c)))
/-- The number of a destination register. -/
def Dst.num (d : Dst) : Nat := match d with
  | .v n => n.toNat
  | .p n => n.toNat
  | .q n => n.toNat
  | .none => 0
def lane64 (o : GOp) (k : State → Fibre → DWord) (s : State) (f : Fibre) : LaneOut := .ok (f.setPair o.dst.num (k s f))

def execIadd (o : GOp) (s : State) : Out := runG 0x000 o s (lane32 .int o (fun a b _ => iaddVal o.mod.toNat a b))
def execIsub (o : GOp) (s : State) : Out := runG 0x001 o s (lane32 .int o (fun a b _ => isubVal o.mod.toNat a b))
def execImul (o : GOp) (s : State) : Out := runG 0x002 o s (lane32 .int o (fun a b _ => imulVal a b))
def execImulh (o : GOp) (s : State) : Out := runG 0x003 o s (lane32 .int o (fun a b _ => imulhVal o.mod.toNat a b))
def execImad (o : GOp) (s : State) : Out := runG 0x004 o s (lane32 .int o (fun a b c => imadVal o.mod.toNat a b c))
def execImad64 (o : GOp) (s : State) : Out :=
  runG 0x005 o s (lane64 o (fun s f => imad64Val o.mod.toNat (s.src f .int o.imm o.a) (s.src f .int o.imm o.b) (s.src64 f .int o.imm o.c)))
def execIadd64 (o : GOp) (s : State) : Out :=
  runG 0x006 o s (lane64 o (fun s f => iadd64Val o.mod.toNat (s.src64 f .int o.imm o.a) (s.src64 f .int o.imm o.b)))
def execLea (o : GOp) (s : State) : Out :=
  runG 0x007 o s (lane64 o (fun s f => leaVal o.mod.toNat (s.src64 f .int o.imm o.a) (s.src f .int o.imm o.b) o.imm))
def execIneg (o : GOp) (s : State) : Out := runG 0x008 o s (lane32 .int o (fun a _ _ => inegVal o.mod.toNat a))
def execIabs (o : GOp) (s : State) : Out := runG 0x009 o s (lane32 .int o (fun a _ _ => iabsVal o.mod.toNat a))
def execImin (o : GOp) (s : State) : Out := runG 0x00A o s (lane32 .int o (fun a b _ => iminVal o.mod.toNat a b))
def execImax (o : GOp) (s : State) : Out := runG 0x00B o s (lane32 .int o (fun a b _ => imaxVal o.mod.toNat a b))
def execAndb (o : GOp) (s : State) : Out := runG 0x00C o s (lane32 .int o (fun a b _ => a &&& b))
def execOrb (o : GOp) (s : State) : Out := runG 0x00D o s (lane32 .int o (fun a b _ => a ||| b))
def execXorb (o : GOp) (s : State) : Out := runG 0x00E o s (lane32 .int o (fun a b _ => a ^^^ b))
def execAndn (o : GOp) (s : State) : Out := runG 0x00F o s (lane32 .int o (fun a b _ => a &&& ~~~b))
def execNotb (o : GOp) (s : State) : Out := runG 0x010 o s (lane32 .int o (fun a _ _ => ~~~a))
def execShl (o : GOp) (s : State) : Out := runG 0x011 o s (lane32 .int o (fun a b _ => shlVal a b))
def execShr (o : GOp) (s : State) : Out := runG 0x012 o s (lane32 .int o (fun a b _ => shrVal a b))
def execSar (o : GOp) (s : State) : Out := runG 0x013 o s (lane32 .int o (fun a b _ => sarVal a b))
def execFunshf (o : GOp) (s : State) : Out := runG 0x014 o s (lane32 .int o (fun a b c => funshfVal o.mod.toNat a b c))
def execBfe (o : GOp) (s : State) : Out := runG 0x015 o s (lane32 .int o (fun a b _ => bfeVal o.mod.toNat a b))
def execBfi (o : GOp) (s : State) : Out := runG 0x016 o s (lane32 .int o (fun a b c => bfiVal a b c))
def execPopc (o : GOp) (s : State) : Out := runG 0x017 o s (lane32 .int o (fun a _ _ => popcVal a))
def execClz (o : GOp) (s : State) : Out := runG 0x018 o s (lane32 .int o (fun a _ _ => clzVal a))
def execBrev (o : GOp) (s : State) : Out := runG 0x019 o s (lane32 .int o (fun a _ _ => brevVal a))
/-- ISETP writes a predicate (R217). -/
def execIsetp (o : GOp) (s : State) : Out :=
  runG 0x01A o s (lane32 .int o (fun a b _ => BitVec.ofNat 32 (isetpCond o.mod.toNat a b).toNat))
/-- ISEL (R222): MOD[2:0] names the predicate, MOD[3] negates it. -/
def execIsel (o : GOp) (s : State) : Out :=
  runG 0x01B o s (fun s f => lane32 .int o (fun a b _ => if f.pred (BitVec.ofNat 3 o.mod.toNat) != bitOf o.mod.toNat 3 then a else b) s f)
/-- MOV and MOV.64 (R217, R220). -/
def execMov (o : GOp) (s : State) : Out :=
  runG 0x01C o s (if bitOf o.mod.toNat 0 then lane64 o (fun s f => s.src64 f .int o.imm o.a) else lane32 .int o (fun a _ _ => a))
/-- MOVI (R220). -/
def execMovi (o : GOp) (s : State) : Out := runG 0x01D o s (lane32 .int o (fun _ _ _ => immWord .f32 o.imm))

/-- A long-latency producer whose lanes act alone (R49, R50): the destination is marked empty at issue, and its value is on its way. -/
def runFill (op : Nat) (o : GOp) (s : State) (n : Nat) (vals : State → Fibre → List Word) : Out :=
  match s.group, gRow op with
  | some g, some r =>
    let zero : Fibre → Fibre := fun f => f.zeroDst o r
    let fills := (g.fs.filter (fun f => f.guard o.guard && decide (s.preG f op o r .go = Pre.go))).map (fun f =>
      ({ fibre := f.key, frame := f.top.addr, reg := o.dst.num, n := n, vals := vals s f, producer := op, loc2 := false } : Fill))
    .next (s.settleLanes g (g.fs.map (fun f =>
        (f, laneStep zero (f.guard o.guard) (s.preG f op o r .go) f (fun _ => .ok (f.markEmpty o.dst.num n))))) zero
      (fun t => ({ t with fills := t.fills ++ fills }).goOn g))
  | _, _ => .refused .noIssueGroup
/-- MOVS (R224): TIME and CYCLE are long-latency producers. -/
def execMovs (o : GOp) (s : State) : Out :=
  let sel := o.imm.toNat % 32
  if sel = 13 ∨ sel = 14 then runFill 0x01E o s 2 (fun s f => [loWord (s.sysValue f sel), hiWord (s.sysValue f sel)])
  else if sel = 9 ∨ sel = 10 then runG 0x01E o s (lane64 o (fun s f => s.sysValue f sel))
  else runG 0x01E o s (fun s f => .ok (f.setDst o.dst (loWord (s.sysValue f sel))))
/-- IDIVQ (R225): quotient and remainder fill a pair. -/
def execIdivq (o : GOp) (s : State) : Out :=
  runFill 0x01F o s 2 (fun s f =>
    let (q, r) := idivqVal o.mod.toNat (s.src f .int o.imm o.a) (s.src f .int o.imm o.b)
    [q, r])

end Sys2Proof.Machine
end

