-- ==== Sys2Proof/Machine/FloatOps.lean ====
section
/-! DEFINITION. Group 1: floating-point instructions (R226 to R235). -/

namespace Sys2Proof.Machine

/-- The sign modifiers of MOD[5:2] on operands A, B and C (R227). -/
def modA (mod : Nat) (x : FVal) : FVal :=
  let y := if bitOf mod 3 then x.abs else x
  if bitOf mod 2 then y.negate else y
def modB (mod : Nat) (x : FVal) : FVal := if bitOf mod 4 then x.negate else x
def modC (mod : Nat) (x : FVal) : FVal := if bitOf mod 5 then x.negate else x

/-- One scalar operation of FADD, FSUB, FMUL or FFMA on a format (R228, R233): 0 add, 1 subtract, 2 multiply, 3 fused. -/
def FloatFmt.arith (fm : FloatFmt) (k mod a b c : Nat) : FRes :=
  let x := modA mod (fm.decode a)
  let y := modB mod (fm.decode b)
  let z := modC mod (fm.decode c)
  match k with
  | 0 => fm.add (mod % 4) x y
  | 1 => fm.add (mod % 4) x y.negate
  | 2 => fm.mul (mod % 4) x y
  | _ => fm.fma (mod % 4) x y z
/-- The packed forms (R168, R234): each 16-bit element alone, flags joined. -/
def FloatFmt.arith2 (fm : FloatFmt) (k mod a b c : Nat) : FRes :=
  let h (i : Nat) : FRes := fm.arith k mod (bitsOf a (16 * i) 16) (bitsOf b (16 * i) 16) (bitsOf c (16 * i) 16)
  ⟨(h 0).bits + 2 ^ 16 * (h 1).bits, (h 0).flags ||| (h 1).flags⟩

/-- FMIN, FMAX (`num` false) and FMINNUM, FMAXNUM (R229). -/
def fminmaxVal (isMax num : Bool) (a b : Nat) : FRes :=
  let x := fp32.decode a
  let y := fp32.decode b
  let fl := if x.isSig || y.isSig then flagNV else 0
  if !num && (x.isNan || y.isNan) then ⟨fp32.nanBits, fl⟩ else ⟨redMinMax isMax a b, fl⟩
/-- FRND (R232): MOD[2] sets NX when the result differs. -/
def frndVal (mod a : Nat) : FRes :=
  match fp32.decode a with
  | .nan sig => fp32.nan sig
  | .inf neg => fp32.inf neg
  | .fin neg m e =>
    let (k, inex) := roundUnits (mod % 4) neg m e 0
    ⟨(fp32.roundExact 0 neg k 0).bits, if inex && bitOf mod 2 then flagNX else 0⟩
/-- FSCALE (R228): exact until its one rounding; beyond a thousand binades every B gives the same rounding. -/
def fscaleVal (mod a : Nat) (b : Int) : FRes :=
  match fp32.decode a with
  | .nan sig => fp32.nan sig
  | .inf neg => fp32.inf neg
  | .fin neg m e => fp32.roundExact (mod % 4) neg m (e + max (-1000) (min b 1000))
/-- FCPYSGN (R228): a signalling NaN in B, of which only the sign bit is taken, raises nothing (DESIGN CHOICE, log 94). -/
def fcpysgnVal (a b : Nat) : FRes :=
  match fp32.decode a with
  | .nan sig => fp32.nan sig
  | _ => ⟨a % 2 ^ 31 + b / 2 ^ 31 * 2 ^ 31, 0⟩

/-- One lane of an FP32 or packed operation. -/
def laneF (t : ImmTy) (o : GOp) (k : Nat → Nat → Nat → FRes) (s : State) (f : Fibre) : LaneOut :=
  let r := k (s.src f t o.imm o.a).toNat (s.src f t o.imm o.b).toNat (s.src f t o.imm o.c).toNat
  f.flagged r.flags (fun g => g.setDst o.dst (BitVec.ofNat 32 r.bits))
/-- One lane of an FP64 operation. -/
def laneD (o : GOp) (k : Nat → Nat → Nat → FRes) (s : State) (f : Fibre) : LaneOut :=
  let r := k (s.src64 f .f64 o.imm o.a).toNat (s.src64 f .f64 o.imm o.b).toNat (s.src64 f .f64 o.imm o.c).toNat
  f.flagged r.flags (fun g => g.setPair o.dst.num (BitVec.ofNat 64 r.bits))
/-- One lane of FSETP or DSETP. -/
def laneSetp (o : GOp) (v : State → Fibre → FVal × FVal) (s : State) (f : Fibre) : LaneOut :=
  let (a, b) := v s f
  let (hold, nv) := floatCond (o.mod.toNat / 4) a b
  f.flagged (if nv then flagNV else 0) (fun g => g.setDst o.dst (BitVec.ofNat 32 hold.toNat))

def execFadd (o : GOp) (s : State) : Out := runG 0x080 o s (laneF .f32 o (fp32.arith 0 o.mod.toNat))
def execFsub (o : GOp) (s : State) : Out := runG 0x081 o s (laneF .f32 o (fp32.arith 1 o.mod.toNat))
def execFmul (o : GOp) (s : State) : Out := runG 0x082 o s (laneF .f32 o (fp32.arith 2 o.mod.toNat))
def execFfma (o : GOp) (s : State) : Out := runG 0x083 o s (laneF .f32 o (fp32.arith 3 o.mod.toNat))
def execFmin (o : GOp) (s : State) : Out := runG 0x084 o s (laneF .f32 o (fun a b _ => fminmaxVal false false a b))
def execFmax (o : GOp) (s : State) : Out := runG 0x085 o s (laneF .f32 o (fun a b _ => fminmaxVal true false a b))
def execFminnum (o : GOp) (s : State) : Out := runG 0x086 o s (laneF .f32 o (fun a b _ => fminmaxVal false true a b))
def execFmaxnum (o : GOp) (s : State) : Out := runG 0x087 o s (laneF .f32 o (fun a b _ => fminmaxVal true true a b))
def execFsetp (o : GOp) (s : State) : Out :=
  runG 0x088 o s (laneSetp o (fun s f => (fp32.decode (s.src f .f32 o.imm o.a).toNat, fp32.decode (s.src f .f32 o.imm o.b).toNat)))
/-- FCLASS (R231): MOD[2] makes A a 64-bit source. -/
def execFclass (o : GOp) (s : State) : Out :=
  runG 0x089 o s (fun s f => .ok (f.setDst o.dst (BitVec.ofNat 32 (2 ^
    (if bitOf o.mod.toNat 2 then fp64.classOf (s.src64 f .f64 o.imm o.a).toNat else fp32.classOf (s.src f .f32 o.imm o.a).toNat)))))
def execFrnd (o : GOp) (s : State) : Out := runG 0x08A o s (laneF .f32 o (fun a _ _ => frndVal o.mod.toNat a))
/-- FSCALE (R228): B is read as INT32. -/
def execFscale (o : GOp) (s : State) : Out :=
  runG 0x08B o s (fun s f =>
    let r := fscaleVal o.mod.toNat (s.src f .f32 o.imm o.a).toNat (sg (s.src f .int o.imm o.b))
    f.flagged r.flags (fun g => g.setDst o.dst (BitVec.ofNat 32 r.bits)))
def execFcpysgn (o : GOp) (s : State) : Out := runG 0x08C o s (laneF .f32 o (fun a b _ => fcpysgnVal a b))
def execDadd (o : GOp) (s : State) : Out := runG 0x08D o s (laneD o (fp64.arith 0 o.mod.toNat))
def execDmul (o : GOp) (s : State) : Out := runG 0x08E o s (laneD o (fp64.arith 2 o.mod.toNat))
def execDfma (o : GOp) (s : State) : Out := runG 0x08F o s (laneD o (fp64.arith 3 o.mod.toNat))
def execDsetp (o : GOp) (s : State) : Out :=
  runG 0x090 o s (laneSetp o (fun s f => (fp64.decode (s.src64 f .f64 o.imm o.a).toNat, fp64.decode (s.src64 f .f64 o.imm o.b).toNat)))
def execHadd2 (o : GOp) (s : State) : Out := runG 0x091 o s (laneF .pk o (fp16.arith2 0 o.mod.toNat))
def execHmul2 (o : GOp) (s : State) : Out := runG 0x092 o s (laneF .pk o (fp16.arith2 2 o.mod.toNat))
def execHfma2 (o : GOp) (s : State) : Out := runG 0x093 o s (laneF .pk o (fp16.arith2 3 o.mod.toNat))
def execBadd2 (o : GOp) (s : State) : Out := runG 0x094 o s (laneF .pk o (bf16.arith2 0 o.mod.toNat))
def execBmul2 (o : GOp) (s : State) : Out := runG 0x095 o s (laneF .pk o (bf16.arith2 2 o.mod.toNat))
def execBfma2 (o : GOp) (s : State) : Out := runG 0x096 o s (laneF .pk o (bf16.arith2 3 o.mod.toNat))
/-- FSTATW (R235): writes FSTAT under a mask and answers its former value; it performs no ARITH. -/
def execFstatw (o : GOp) (s : State) : Out :=
  runG 0x097 o s (fun s f =>
    .ok (({ f with fstat := fstatWrite f.fstat (s.src f .int o.imm o.a) (s.src f .int o.imm o.b) } : Fibre).setDst o.dst f.fstat))

end Sys2Proof.Machine
end

