-- ==== Sys2Proof/Machine/Special.lean ====
section
/-! DEFINITION. Group 2: special functions, correctly rounded (R182, R240), and conversions (R236 to R239). The algebraic functions
are exact; the others are computed in fixed point with 400 fraction bits, far beyond where a binary32 rounding can depend on the
rest, and an inexact value keeps an odd last bit so that it is never taken for exact (log 17). -/

namespace Sys2Proof.Machine

/-- Fraction bits of the fixed-point values. -/
def fixP : Nat := 400

/-- The integer square root of n by bits, for n below 4^k. -/
def isqrtBits (n : Nat) : Nat → Nat → Nat
  | 0, r => r
  | k + 1, r => let c := r + 2 ^ k; isqrtBits n k (if c * c ≤ n then c else r)
def isqrt (n : Nat) : Nat := isqrtBits n (Nat.log2 n / 2 + 1) 0

/-- Sum of z^(2i+1)/(2i+1) over i from i0, z fixed point with square z2; `alt` alternates signs (arctangent), else inverse hyperbolic tangent. -/
def oddSeries (alt : Bool) (z2 : Int) : Nat → Nat → Int → Int
  | 0, _, _ => 0
  | n + 1, i, t => t / (2 * i + 1 : Nat) + oddSeries alt z2 n (i + 1) ((if alt then -(t * z2) else t * z2) / (2 ^ fixP : Nat))
/-- Natural logarithm of 2: 2 atanh(1/3). -/
def fixLn2 : Int := 2 * oddSeries false ((2 ^ fixP : Nat) / 9) 140 0 ((2 ^ fixP : Nat) / 3)
/-- π by Machin's formula. -/
def fixPi : Int :=
  16 * oddSeries true ((2 ^ fixP : Nat) / 25) 100 0 ((2 ^ fixP : Nat) / 5)
    - 4 * oddSeries true ((2 ^ fixP : Nat) / 57121) 40 0 ((2 ^ fixP : Nat) / 239)
/-- Sum of x^i/i! from term t on. -/
def expSeries (x : Int) : Nat → Nat → Int → Int
  | 0, _, _ => 0
  | n + 1, i, t => t + expSeries x n (i + 1) (t * x / (2 ^ fixP : Nat) / (i + 1 : Nat))
/-- 2^f for a fraction f in [0, 1). -/
def fixExp2 (f : Nat) : Nat := (expSeries ((f : Int) * fixLn2 / (2 ^ fixP : Nat)) 120 0 (2 ^ fixP : Nat)).toNat
/-- Sum of the sine series from term t on. -/
def sinSeries (x2 : Int) : Nat → Nat → Int → Int
  | 0, _, _ => 0
  | n + 1, i, t => t + sinSeries x2 n (i + 2) (-(t * x2 / (2 ^ fixP : Nat)) / ((i + 1) * (i + 2) : Nat))
/-- sin(π t) for t in [0, 1/2]. -/
def fixSinPi (t : Nat) : Nat :=
  let x : Int := (t : Int) * fixPi / (2 ^ fixP : Nat)
  (sinSeries (x * x / (2 ^ fixP : Nat)) 80 1 x).toNat

/-- An inexact fixed-point value rounded once, RNE. -/
def roundFix (neg : Bool) (v : Nat) (e : Int) : FRes := fp32.roundExact 0 neg (2 * v + 1) (e - 1)
/-- A quotient rounded once: floor and a sticky bit. -/
def roundQuot (neg : Bool) (n d : Nat) (e : Int) : FRes :=
  if n % d = 0 then fp32.roundExact 0 neg (n / d) e else roundFix neg (n / d) e

/-- 1/x. -/
def rcpVal (a : Nat) : FRes :=
  match fp32.decode a with
  | .nan sig => fp32.nan sig
  | .inf neg => ⟨if neg then 2 ^ 31 else 0, 0⟩
  | .fin neg m e => if m = 0 then { fp32.inf neg with flags := flagDZ } else roundQuot neg (2 ^ 80) m (-80 - e)
/-- √x: the exponent is made even and the root taken with a sticky bit. -/
def sqrtVal (a : Nat) : FRes :=
  match fp32.decode a with
  | .nan sig => fp32.nan sig
  | .inf neg => if neg then fp32.nan true else fp32.inf false
  | .fin neg m e =>
    if m = 0 then ⟨if neg then 2 ^ 31 else 0, 0⟩
    else if neg then fp32.nan true
    else
      let odd := (e % 2).toNat
      let n := m * 2 ^ (odd + 60)
      let r := isqrt n
      let e' : Int := (e - odd - 60) / 2
      if r * r = n then fp32.roundExact 0 false r e' else roundFix false r e'
/-- 1/√x. -/
def rsqVal (a : Nat) : FRes :=
  match fp32.decode a with
  | .nan sig => fp32.nan sig
  | .inf neg => if neg then fp32.nan true else ⟨0, 0⟩
  | .fin neg m e =>
    if m = 0 then { fp32.inf neg with flags := flagDZ }
    else if neg then fp32.nan true
    else
      let odd := (e % 2).toNat
      let d := m * 2 ^ odd
      let r := isqrt (2 ^ 160 / d)
      let e' : Int := -80 - (e - odd) / 2
      if r * r * d = 2 ^ 160 then fp32.roundExact 0 false r e' else roundFix false r e'
/-- m · 2^e in fixed point, exact for every finite binary32 of magnitude below 2^40. -/
def toFix (m : Nat) (e : Int) : Nat := m * 2 ^ ((fixP : Int) + e).toNat
/-- 2^x. -/
def ex2Val (a : Nat) : FRes :=
  match fp32.decode a with
  | .nan sig => fp32.nan sig
  | .inf neg => if neg then ⟨0, 0⟩ else fp32.inf false
  | .fin neg m e =>
    if 8 ≤ flog2 m e ∧ m ≠ 0 then (if neg then ⟨0, flagUF + flagNX⟩ else ⟨fp32.infBits, flagOF + flagNX⟩)
    else
      let x : Int := if neg then -(toFix m e : Int) else toFix m e
      let i := x / (2 ^ fixP : Nat)
      let f := (x % (2 ^ fixP : Nat)).toNat
      if f = 0 then fp32.roundExact 0 false 1 i else roundFix false (fixExp2 f) (i - fixP)
/-- log2 x. -/
def lg2Val (a : Nat) : FRes :=
  match fp32.decode a with
  | .nan sig => fp32.nan sig
  | .inf neg => if neg then fp32.nan true else fp32.inf false
  | .fin neg m e =>
    if m = 0 then { fp32.inf true with flags := flagDZ }
    else if neg then fp32.nan true
    else
      let k := Nat.log2 m
      let i : Int := e + (k : Int)
      if m = 2 ^ k then fp32.roundExact 0 (decide (i < 0)) i.natAbs 0
      else
        let z : Int := ((m - 2 ^ k : Nat) : Int) * (2 ^ fixP : Nat) / (m + 2 ^ k : Nat)
        let ln := 2 * oddSeries false (z * z / (2 ^ fixP : Nat)) 140 0 z
        let v := i * (2 ^ fixP : Nat) + ln * (2 ^ fixP : Nat) / fixLn2
        roundFix (decide (v < 0)) v.natAbs (-(fixP : Int))
/-- tanh x. -/
def tanhVal (a : Nat) : FRes :=
  match fp32.decode a with
  | .nan sig => fp32.nan sig
  | .inf neg => ⟨(if neg then 2 ^ 31 else 0) + 0x3F800000, 0⟩
  | .fin neg m e =>
    if m = 0 then ⟨if neg then 2 ^ 31 else 0, 0⟩
    else if flog2 m e < -60 then fp32.roundExact 0 neg (m * 2 ^ 64 - 1) (e - 64)
    else if 5 ≤ flog2 m e ∨ 9011 * 2 ^ fixP ≤ 1000 * toFix m e then ⟨(if neg then 2 ^ 31 else 0) + 0x3F800000, flagNX⟩
    else
      let y := (((2 * toFix m e : Nat) : Int) * (2 ^ fixP : Nat) / fixLn2).toNat
      let p := fixExp2 (y % 2 ^ fixP) * 2 ^ (y / 2 ^ fixP)
      roundFix neg ((p - 2 ^ fixP) * 2 ^ fixP / (p + 2 ^ fixP)) (-(fixP : Int))
/-- sin πx. -/
def sinpiVal (a : Nat) : FRes :=
  match fp32.decode a with
  | .nan sig => fp32.nan sig
  | .inf _ => fp32.nan true
  | .fin neg m e =>
    if 0 ≤ e then ⟨if neg then 2 ^ 31 else 0, 0⟩
    else
      let one := 2 ^ fixP
      let t := toFix m e % (2 * one)
      let sgn := neg != decide (one ≤ t)
      let t := t % one
      if t = 0 then ⟨if neg then 2 ^ 31 else 0, 0⟩
      else if 2 * t = one then ⟨(if sgn then 2 ^ 31 else 0) + 0x3F800000, 0⟩
      else roundFix sgn (fixSinPi (if one < 2 * t then one - t else t)) (-(fixP : Int))
/-- cos πx. -/
def cospiVal (a : Nat) : FRes :=
  match fp32.decode a with
  | .nan sig => fp32.nan sig
  | .inf _ => fp32.nan true
  | .fin _ m e =>
    let one := 2 ^ fixP
    let t := (if 1 ≤ e then 0 else toFix m e) % (2 * one)
    let t := if one < t then 2 * one - t else t
    if t = 0 then ⟨0x3F800000, 0⟩
    else if t = one then ⟨0xBF800000, 0⟩
    else if 2 * t = one then ⟨0, 0⟩
    else if 2 * t < one then roundFix false (fixSinPi (one / 2 - t)) (-(fixP : Int))
    else roundFix true (fixSinPi (t - one / 2)) (-(fixP : Int))

def execRcp (o : GOp) (s : State) : Out := runG 0x100 o s (laneF .f32 o (fun a _ _ => rcpVal a))
def execRsq (o : GOp) (s : State) : Out := runG 0x101 o s (laneF .f32 o (fun a _ _ => rsqVal a))
def execSqrt (o : GOp) (s : State) : Out := runG 0x102 o s (laneF .f32 o (fun a _ _ => sqrtVal a))
def execEx2 (o : GOp) (s : State) : Out := runG 0x103 o s (laneF .f32 o (fun a _ _ => ex2Val a))
def execLg2 (o : GOp) (s : State) : Out := runG 0x104 o s (laneF .f32 o (fun a _ _ => lg2Val a))
def execTanh (o : GOp) (s : State) : Out := runG 0x105 o s (laneF .f32 o (fun a _ _ => tanhVal a))
def execSinpi (o : GOp) (s : State) : Out := runG 0x106 o s (laneF .f32 o (fun a _ _ => sinpiVal a))
def execCospi (o : GOp) (s : State) : Out := runG 0x107 o s (laneF .f32 o (fun a _ _ => cospiVal a))

/-! ### Conversions -/

/-- FTOI (R237): the integer as 64 bits, and its flags. -/
def ftoiVal (mod : Nat) (v : FVal) : DWord × Nat :=
  let n := if bitOf mod 4 then 64 else 32
  let lo : Int := if bitOf mod 2 then 0 else -(2 ^ (n - 1) : Nat)
  let hi : Int := if bitOf mod 2 then (2 ^ n : Nat) - 1 else (2 ^ (n - 1) : Nat) - 1
  match v with
  | .nan _ => (0, flagNV)
  | .inf neg => (dwordOf (if neg then lo else hi), flagNV)
  | .fin neg m e =>
    let (k, inex) := roundUnits (mod % 4) neg m e 0
    let x : Int := if neg then -(k : Int) else k
    if hi < x then (dwordOf hi, flagNV) else if x < lo then (dwordOf lo, flagNV)
    else (dwordOf x, if inex then flagNX else 0)
def execFtoi (o : GOp) (s : State) : Out :=
  runG 0x108 o s (fun s f =>
    let mod := o.mod.toNat
    let v := if bitOf mod 3 then fp64.decode (s.src64 f .f64 o.imm o.a).toNat else fp32.decode (s.src f .f32 o.imm o.a).toNat
    let (x, fl) := ftoiVal mod v
    f.flagged fl (fun g => if bitOf mod 4 then g.setPair o.dst.num x else g.setDst o.dst (loWord x)))
/-- ITOF (R238). -/
def itofVal (mod : Nat) (a : DWord) : FRes :=
  let n := if bitOf mod 4 then 64 else 32
  let x : Int := if bitOf mod 2 then ((a.toNat % 2 ^ n : Nat) : Int) else signed n a.toNat
  (if bitOf mod 3 then fp64 else fp32).roundExact (mod % 4) (decide (x < 0)) x.natAbs 0
def execItof (o : GOp) (s : State) : Out :=
  runG 0x109 o s (fun s f =>
    let mod := o.mod.toNat
    let a : DWord := if bitOf mod 4 then s.src64 f .int o.imm o.a else (s.src f .int o.imm o.a).setWidth 64
    let r := itofVal mod a
    f.flagged r.flags (fun g => if bitOf mod 3 then g.setPair o.dst.num (BitVec.ofNat 64 r.bits) else g.setDst o.dst (BitVec.ofNat 32 r.bits)))
/-- FCVT's format codes (R236). -/
def cvtFmt (c : Nat) : FloatFmt := match c with
  | 0 => fp32
  | 1 => fp64
  | 2 => fp16
  | _ => bf16
/-- The exact value of a source rounded once to a format (R239). -/
def FloatFmt.convert (d : FloatFmt) (mode : Nat) (v : FVal) : FRes :=
  match v with
  | .nan sig => d.nan sig
  | .inf neg => d.inf neg
  | .fin neg m e => d.roundExact mode neg m e
def execFcvt (o : GOp) (s : State) : Out :=
  runG 0x10A o s (fun s f =>
    let mod := o.mod.toNat
    let sc := fcvtSrc o.mod
    let dc := fcvtDst o.mod
    let src (x : Src) : Nat := if sc = 1 then (s.src64 f .f64 o.imm x).toNat else (s.src f (if sc = 0 then .f32 else .pk) o.imm x).toNat
    let cv (x : Nat) : FRes := (cvtFmt dc).convert (mod % 4) ((cvtFmt sc).decode x)
    let pack (a b : FRes) : FRes := ⟨a.bits + 2 ^ 16 * b.bits, a.flags ||| b.flags⟩
    let r : FRes :=
      if sc < 2 ∧ 2 ≤ dc then pack (cv (src o.a)) (cv (src o.b))
      else if 2 ≤ sc ∧ dc < 2 then cv (bitsOf (src o.a) (16 * (o.imm.toNat % 2)) 16)
      else if 2 ≤ sc then pack (cv (bitsOf (src o.a) 0 16)) (cv (bitsOf (src o.a) 16 16))
      else cv (src o.a)
    f.flagged r.flags (fun g => if dc = 1 then g.setPair o.dst.num (BitVec.ofNat 64 r.bits) else g.setDst o.dst (BitVec.ofNat 32 r.bits)))

end Sys2Proof.Machine
end

