-- ==== Sys2Proof/Machine/Cross.lean ====
section
/-! DEFINITION. Group 3: values from other lanes (R247 to R250), votes, reductions and matches (R251 to R255), the crew fence
(R144, R256) and the mask registers (R56, R57, R257, R258). -/

namespace Sys2Proof.Machine

/-! ### Values from other lanes -/

/-- The lane a SHFL reads; none when it is outside its group, and the own value stands (R248). -/
def shflSource (mod l n : Nat) : Option Nat :=
  let w := 4 * 2 ^ (mod / 4 % 4)
  let base := l - l % w
  match mod % 4 with
  | 0 => some (base + n % w)
  | 1 => if base + n ≤ l then some (l - n) else none
  | 2 => if l + n < base + w then some (l + n) else none
  | _ => some (l ^^^ (n % w))
/-- QSWAP's source lane (R247). -/
def qswapSource (mod l : Nat) : Nat := l ^^^ (mod % 4 + 1)
def qbcastSource (mod l : Nat) : Nat := 4 * (l / 4) + mod % 4

/-- The fibre in a lane of the group's crew. -/
def State.laneFibre (s : State) (g : Group) (l : Nat) : Option Fibre := match s.crew g.run.crew with
  | some c => (c.lanes.getD l none).bind s.fibre
  | none => none
/-- What a source lane supplies (R249): its value and validity; a filled or helper lane whose frame has no such register, an exited
lane and a vacant one supply 0, marked invalid. -/
def State.supply (s : State) (g : Group) (x : Src) (l : Nat) : Word × Bool :=
  match s.laneFibre g l with
  | some f => if x.num < f.top.f then (f.reg x.num, true) else (0, false)
  | none => (0, false)
/-- Whether the value a lane supplies is still on its way. -/
def State.supplyPending (s : State) (g : Group) (x : Src) (l : Nat) : Bool :=
  match s.laneFibre g l with
  | some f => decide (x.num < f.top.f) && !f.full x.num
  | none => false
/-- The test before a lane exchange: EMPTY by the issuing lane's own wait bit, then the values other lanes supply, always waited for (R249). -/
def preExchange (op : Nat) (o : GOp) (src : State → Fibre → Option Nat) (s : State) (g : Group) (r : GRow) (f : Fibre) : Pre :=
  (s.preG f op o r (match o.a with
    | .v n true => if f.full n.toNat then Pre.go else Pre.fault ⟨0x21, 0, n.toNat, 0⟩
    | _ => Pre.go)).andThen fun _ =>
  if s.supplyPending g o.a ((src s f).getD f.lane) then .hold else .go
/-- A lane exchange with sources given by `src`; MOD[4] writes the validity mask (R248, R250). A helper lane whose own EMPTY is suppressed
still writes its bit, as any lane that issues the instruction does (log 72). -/
def runExchange (op : Nat) (o : GOp) (s : State) (src : State → Fibre → Option Nat) : Out :=
  runCrew op o s (preExchange op o src)
    (fun s g f => .ok (f.setDst o.dst (match src s f with
      | some l => (s.supply g o.a l).1
      | none => f.reg o.a.num)))
    (fun t g =>
      if bitOf o.mod.toNat 4 then match t.crew g.run.crew with
        | none => t
        | some c =>
          let n := o.c.num % 16
          let act := g.fs.filter (fun f => f.guard o.guard)
          let ok := act.filter (fun f => match src s f with
            | some l => (s.supply g o.a l).2
            | none => false)
          let m := (c.masks.getD n 0 &&& ~~~(laneMask act)) ||| laneMask ok
          (t.putCrew g.run.crew { c with masks := setAt c.masks n m }).retestWaitm g.run.crew n
      else t)

def execShfl (o : GOp) (s : State) : Out :=
  runExchange 0x180 o s (fun s f => shflSource o.mod.toNat f.lane (s.src f .int o.imm o.b).toNat)
def execQswap (o : GOp) (s : State) : Out := runExchange 0x181 o s (fun _ f => some (qswapSource o.mod.toNat f.lane))
def execQbcast (o : GOp) (s : State) : Out := runExchange 0x182 o s (fun _ f => some (qbcastSource o.mod.toNat f.lane))

/-! ### Votes, reductions, matches -/

/-- The contributing lanes (R251): the guard passes and the lane is no helper. -/
def Group.contributing (g : Group) (o : GOp) : List Fibre := g.fs.filter (fun f => f.guard o.guard && !f.helper)
/-- VOTE (R252): 0 all, 1 any, 2 ballot. -/
def voteVal (mod : Nat) (fs : List Fibre) : Word :=
  let v (f : Fibre) : Bool := f.pred (BitVec.ofNat 3 (mod / 4)) != bitOf mod 5
  match mod % 4 with
  | 0 => BitVec.ofNat 32 (fs.all v).toNat
  | 1 => BitVec.ofNat 32 (fs.any v).toNat
  | _ => laneMask (fs.filter v)
def preOwn (op : Nat) (o : GOp) (s : State) (_ : Group) (r : GRow) (f : Fibre) : Pre := s.preG f op o r .go
def execVote (o : GOp) (s : State) : Out :=
  runCrew 0x183 o s (preOwn 0x183 o) (fun _ g f => .ok (f.setDst o.dst (voteVal o.mod.toNat (g.contributing o)))) (fun t _ => t)
/-- REDUX's operators as tags of R158 (R253). -/
def reduxTag (k : Nat) : Nat := [0, 4, 5, 7, 8, 10, 11, 12].getD k 0
def reduxVal (k : Nat) (xs : List Word) : Word :=
  BitVec.ofNat 32 (xs.foldl (fun a x => redStep (reduxTag k) a x.toNat) (redIdentity (reduxTag k)))
def execRedux (o : GOp) (s : State) : Out :=
  runCrew 0x184 o s (preOwn 0x184 o)
    (fun s g f => .ok (f.setDst o.dst (reduxVal (o.mod.toNat % 8) ((g.contributing o).map (fun x => s.src x .int o.imm o.a))))) (fun t _ => t)
/-- MATCH (R255). -/
def execMatchl (o : GOp) (s : State) : Out :=
  let v (s : State) (f : Fibre) : DWord := if bitOf o.mod.toNat 0 then s.src64 f .int o.imm o.a else (s.src f .int o.imm o.a).setWidth 64
  runCrew 0x186 o s (preOwn 0x186 o)
    (fun s g f => .ok (f.setDst o.dst (laneMask ((g.contributing o).filter (fun x => v s x == v s f))))) (fun t _ => t)

/-- One butterfly round of FREDUX's sum over 32 positions, with the flags raised (R183). -/
def freduxRound (t : List Nat) (d : Nat) : List Nat × Nat :=
  let r := (List.range 32).map (fun l => fp32.add 0 (fp32.decode (t.getD l 0)) (fp32.decode (t.getD (l ^^^ d) 0)))
  (r.map FRes.bits, r.foldl (fun a x => a ||| x.flags) 0)
/-- The sum and the flags of FREDUX (R183): positions that do not contribute hold −0.0. -/
def freduxVal (t : List Nat) : Nat × Nat :=
  let (t, fl) := [16, 8, 4, 2, 1].foldl (fun (a : List Nat × Nat) d => let (t, fl) := freduxRound a.1 d; (t, a.2 ||| fl)) (t, 0)
  (t.getD 0 0, fl)
/-- Faults of lanes that leave their group alone, the others going on with the sentence (R254, R445). -/
def State.faultApart (s : State) (g : Group) (bad : List (Fibre × FaultInfo)) : State :=
  if bad.isEmpty then s.goOn g
  else
    let pc := (g.fs.headD (Fibre.make 0 0 false 0 0 0 0 0 [] [] 0 0 0 0)).pc
    let keys := bad.map (fun x => x.1.key)
    let s := s.deliverAll g.run.word pc (laneMask g.fs) (laneMask (bad.map Prod.fst)) (bad.map (fun x => ⟨x.1.key, x.2, false, x.1.pc⟩))
    let g := g.without keys
    if g.fs.isEmpty then s.freePort g.core g.p else s.goOn g
def execFredux (o : GOp) (s : State) : Out :=
  match s.group, gRow 0x185 with
  | some g, some r =>
    let zero : Fibre → Fibre := fun f => f.zeroDst o r
    let con := g.contributing o
    let val := freduxVal ((List.range 32).map (fun l => match con.find? (fun f => f.lane == l) with
      | some f => (s.src f .f32 o.imm o.a).toNat
      | none => 2 ^ 31))
    let res := g.fs.map (fun f => (f, laneStep zero (f.guard o.guard) (s.preG f 0x185 o r .go) f (fun _ =>
      if f.helper then LaneOut.ok (f.setDst o.dst (BitVec.ofNat 32 val.1))
      else if f.trapped val.2 ≠ 0 then .ok (f.raise val.2)
      else .ok ((f.raise val.2).setDst o.dst (BitVec.ofNat 32 val.1)))))
    let bad := con.filter (fun f => f.trapped val.2 != 0)
    if !res.any (fun x => x.2.isFault || x.2.isHold || x.2.isWait) && bad.any (fun f => !s.noFill f.key) then .next (s.held g)
    else .next (s.settleLanes g res zero (fun t => t.faultApart g (bad.map (fun f => (f, ⟨0x20, f.trapped val.2, val.2 % 32, 0⟩)))))
  | _, _ => .refused .noIssueGroup

/-! ### The crew fence and the masks -/

/-- CFENCE (R144, R256): the participants' stamps join, once their earlier accesses are placed. -/
def execCfence (o : GOp) (s : State) : Out :=
  runCrew 0x187 o s (fun s _ _ f => if s.unplaced f.key then .wait else .go)
    (fun _ g f => .ok { f with stamp := maxOf ((g.fs.filter (fun x => x.guard o.guard)).map Fibre.stamp) }) (fun t _ => t)

/-- A field of IMM that names a mask register (R257). -/
def maskNo (o : GOp) (i : Nat) : Nat := bitsOf o.imm.toNat (4 * i) 4
/-- The live mask of a crew (R258): a bit for each lane that holds a fibre. -/
def Crew.live (c : Crew) : Word := BitVec.ofNat 32 (maskOf ((List.range 32).filter (fun l => (c.lanes.getD l none).isSome)))
/-- Writes a mask register and tests its WAITM again (R57, R258). -/
def State.setMask (s : State) (ck n : Nat) (m : Word) : State :=
  match s.crew ck with
  | some c => (s.putCrew ck { c with masks := setAt c.masks n m }).retestWaitm ck n
  | none => s
def State.mask (s : State) (ck n : Nat) : Word := match s.crew ck with
  | some c => c.masks.getD n 0
  | none => 0
/-- A mask instruction that writes once for the issue, when a guard passes; the value is ANDed with the live mask (R258). -/
def runMask (op : Nat) (o : GOp) (s : State) (k : State → Group → Word) : Out :=
  runCrew op o s (preOwn op o) (fun _ _ f => .ok f) (fun t g =>
    if g.fs.any (fun f => f.guard o.guard) then
      match t.crew g.run.crew with
      | some c => t.setMask g.run.crew (maskNo o 0) (k s g &&& c.live)
      | none => t
    else t)
/-- JOIN and LEAVE (R56, R257). -/
def execJoin (o : GOp) (s : State) : Out :=
  runMask 0x188 o s (fun s g => s.mask g.run.crew (maskNo o 0) ||| laneMask (g.fs.filter (fun f => f.guard o.guard)))
def execLeave (o : GOp) (s : State) : Out :=
  runMask 0x189 o s (fun s g => s.mask g.run.crew (maskNo o 0) &&& ~~~(laneMask (g.fs.filter (fun f => f.guard o.guard))))
def execMand (o : GOp) (s : State) : Out :=
  runMask 0x18B o s (fun s g => s.mask g.run.crew (maskNo o 1) &&& s.mask g.run.crew (maskNo o 2))
def execMor (o : GOp) (s : State) : Out :=
  runMask 0x18C o s (fun s g => s.mask g.run.crew (maskNo o 1) ||| s.mask g.run.crew (maskNo o 2))
def execMxor (o : GOp) (s : State) : Out :=
  runMask 0x18D o s (fun s g => s.mask g.run.crew (maskNo o 1) ^^^ s.mask g.run.crew (maskNo o 2))
def execMnot (o : GOp) (s : State) : Out := runMask 0x18E o s (fun s g => ~~~(s.mask g.run.crew (maskNo o 1)))
/-- MRD (R257). -/
def execMrd (o : GOp) (s : State) : Out :=
  runCrew 0x18F o s (preOwn 0x18F o) (fun s g f => .ok (f.setDst o.dst (s.mask g.run.crew (maskNo o 0)))) (fun t _ => t)
/-- MWR (R257): A of the lowest-numbered issuing lane whose guard passes; only that lane reads its source. A helper
lane that leads with an EMPTY source, whose fault is suppressed (R31), writes what its register holds (DESIGN CHOICE, log 95). -/
def execMwr (o : GOp) (s : State) : Out :=
  let lead (g : Group) : Option Fibre := g.fs.find? (fun f => f.guard o.guard)
  runCrew 0x190 o s
    (fun s g r f => if (lead g).map Fibre.key == some f.key then s.preG f 0x190 o r .go else s.srcEnc f 0x190 1 o.a)
    (fun _ _ f => .ok f) (fun t g =>
      match lead g, t.crew g.run.crew with
      | some f, some c => t.setMask g.run.crew (maskNo o 0) (s.src f .int o.imm o.a &&& c.live)
      | _, _ => t)
/-- MACT (R257): one bit for every lane of the issue group. -/
def execMact (o : GOp) (s : State) : Out :=
  runCrew 0x191 o s (preOwn 0x191 o) (fun _ g f => .ok (f.setDst o.dst (laneMask g.fs))) (fun t _ => t)
/-- WAITM (R57, R257): a trailer; a lane whose bit is 1 waits past it. -/
def execWaitm (o : GOp) (s : State) : Out :=
  match s.group with
  | none => .refused .noIssueGroup
  | some g => .next (s.withLate g fun s g =>
      let n := maskNo o 0
      let m := (s.mask g.run.crew n).toNat
      let s := s.putFibres (g.fs.map (fun f =>
        let f := { f with pc := s.nextSlot f.ctx f.pc }
        if f.guard o.guard && bitOf m f.lane then { f with conds := f.conds ++ [Cond.waitm n] } else f))
      (s.retestWaitm g.run.crew n).endSentence g [])

end Sys2Proof.Machine
end

