-- ==== Sys2Proof/Machine/MemBase.lean ====
section
/-! DEFINITION. What memory instructions share (R137, R147, R154, R273 to R276, R371, R372): effective addresses, checks at issue,
waits, single loads and stores at any kind of place, read-modify-writes, and the exchange with the owner of a LOC 3 page. -/

namespace Sys2Proof.Machine

/-- Whose address a fibre's check is made for. -/
def State.who (s : State) (f : Fibre) : Who := ⟨f.ctx, f.launch, f.core, (s.crew f.crew).bind Crew.team⟩
/-- A fibre as an agent of the memory order: KIND 0 load, 1 store, 2 atomic or RED, REQ its core (R417). -/
def Fibre.agent (f : Fibre) (kind : Nat) : Agent :=
  { ts := f.stamp, core := some f.core, ctx := f.ctx, kind := kind, req := f.core, found := 0, host := false, peer := none, touch := [] }
/-- EffAddr (R274). -/
def effAddr (f : Fibre) (o : GOp) : DWord := f.pair o.a + o.imm.signExtend 64

/-- The checks of one address for each line that n bytes at it touch (R139, R275, R437 step 6); a view page's access keeps its one place,
for its width asks for an alignment that no crossing access has. -/
def State.checkAccess (s : State) (w : Who) (a : DWord) (n al : Nat) (wr : Bool) : Except FaultInfo (List Spot) :=
  match s.resolve w a n al wr with
  | .error e => .error e
  | .ok p => match pieces a.toNat n, p with
    | [x], _ => .ok [⟨p, x.1, x.2⟩]
    | [x, y], .mem _ _ | [x, y], .region _ _ | [x, y], .peer _ _ =>
      match s.resolve w (BitVec.ofNat 64 y.1) y.2 1 wr with
      | .error e => .error e
      | .ok q => .ok [⟨p, x.1, x.2⟩, ⟨q, y.1, y.2⟩]
    | _, _ => .ok [⟨p, a.toNat, n⟩]
/-- The first place of an access. -/
def firstPlace (l : List Spot) : Place := match l with
  | x :: _ => x.place
  | [] => .peer 0 none
/-- The port whose turn it is. -/
def State.actorRun (s : State) : Option PortRun := match s.actor with
  | .port c p => s.port c p
  | _ => none
/-- What the owner of a LOC 3 page has answered to the checks of fibre k's access at va (R372). -/
def State.known (s : State) (k va : Nat) : Option PeerReply :=
  s.actorRun.bind (fun r => (r.know.find? (fun x => x.1 == k && x.2.1 == va)).map (fun x => x.2.2))
/-- A place with what its owner has answered: its fault, with the lane's address (R372), or the view it is. -/
def State.knowSpot (s : State) (k : Nat) (x : Spot) : Except FaultInfo Spot := match x.place with
  | .peer owner _ => match s.known k x.va with
    | some (.fault tag cause argx) => .error ⟨tag, cause.toNat, argx.toNat, BitVec.ofNat 64 x.va⟩
    | some (.view fmt geo g size) => .ok { x with place := .peer owner (some (⟨fmt, geo, g⟩, x.va % size)) }
    | _ => .ok x
  | _ => .ok x
/-- The checks of one lane's access: its own, and what the owners of its LOC 3 pages have answered. -/
def State.laneAccess (s : State) (f : Fibre) (a : DWord) (n al : Nat) (wr : Bool) : Except FaultInfo (List Spot) :=
  match s.checkAccess (s.who f) a n al wr with
  | .error e => .error e
  | .ok l => l.mapM (s.knowSpot f.key)
/-- The places of a lane whose owners have not been asked for their checks yet. -/
def State.unknown (s : State) (k : Nat) (l : List Spot) : List Spot := l.filter (fun x => match x.place with
  | .peer _ _ => (s.known k x.va).isNone
  | _ => false)
/-- The view page that a place lies on, and the offset in it. -/
def Place.view? : Place → Option (View × Nat)
  | .view v _ _ off _ => some (v, off)
  | .peer _ v => v
  | _ => none
/-- Whether a place is device memory's own view, or its owner's. -/
def anyView (l : List Spot) : Bool := l.any (fun x => x.place.view?.isSome)
def Spot.isPeer (x : Spot) : Bool := match x.place with
  | .peer _ _ => true
  | _ => false

/-- Whether the bank of a scratchpad place is changing its role (R120). -/
def State.bankBusy (s : State) (p : PA) : Bool :=
  p.sp == Space.sram && (match Tab.get s.coreCtx (p.a / 2 ^ 21) with
    | some c => (match c.changing with
      | some x => x.1 == p.a % 2 ^ 21 / 65536
      | none => false)
    | none => false)
/-- Whether a fault is that of a scratchpad address whose bank is changing its role: the access waits and is judged by the new role (R120). -/
def State.roleWait (s : State) (w : Who) (x : FaultInfo) : Bool :=
  let off := x.address.toNat - winBase
  let core := if off < 0x200000 then w.core else 48 * clusterOf w.core + (off - 0x10000000) / 0x200000
  x.tag == 0x11 && x.cause == 3 && s.bankBusy ⟨.sram, sramBase w.ctx core + off % 0x200000⟩
/-- The physical space of a LOC. -/
def locSpace (loc : Nat) : Space := if loc = 0 then .dev else .host
/-- Whether a line of a place is claimed (R151). -/
def State.spotClaimed (s : State) (x : Spot) : Bool := match x.place with
  | .mem p _ => s.claimed p
  | .view v base _ off loc =>
    let (a, n) := v.span off x.n
    s.claimed ⟨locSpace loc, base + a⟩ || s.claimed ⟨locSpace loc, base + a + n - 1⟩
  | _ => false
/-- Whether an access's port must wait for it: behind a FIFOR that nothing has fed, a PUSH whose claims are not placed, or a reference instruction
(R94, R124, R151); for its translation, a line of its walk being claimed; for a bank that changes its role (R120). -/
def State.mustHold (s : State) (f : Fibre) (l : List Spot) : Bool :=
  s.pushPending f.key || s.fills.any (fun x => x.fibre == f.key && x.vals.isEmpty) || !f.refs.isEmpty
    || l.any (fun x => s.walkWaits f.ctx x.va || (match x.place with
      | .mem p _ => s.bankBusy p
      | _ => false))
/-- Whether an access of a fibre must wait at all: its port must (`mustHold`), an earlier access of it is not yet placed, or a line is claimed (R137,
R151). -/
def State.mustWait (s : State) (f : Fibre) (l : List Spot) : Bool :=
  s.unplaced f.key || s.mustHold f l || l.any s.spotClaimed

/-! ### Loads and stores at a place -/

/-- A store of the host, or of the device through CXL.io, to host memory: a line the device holds dirty is written back first (R147, R469). -/
def State.hostWrite (s : State) (a : Nat) (bs : List Byte) : State :=
  (pieces a (min bs.length 128)).foldl (fun (s : State) (x : Nat × Nat) =>
    let lk := PA.line ⟨.host, x.1⟩
    let l := s.lineOf lk
    let s := match l.dirtyHost with
      | some d => { s.putLine lk { l with dirtyHost := none } with host := cellsWrite s.host (x.1 / 128 * 128) d }
      | none => s
    ({ s with host := cellsWrite s.host x.1 ((bs.drop (x.1 - a)).take x.2) }).wake lk) s
/-- Bytes of the constant bank (R110). -/
def State.constBytes (s : State) (w : Who) (off n : Nat) : List Byte :=
  (List.range n).map (fun i => BitVec.ofNat 8 ((s.constWord w.ctx w.launch ((off + i) / 4)).toNat / 2 ^ (8 * ((off + i) % 4))))
/-- A view load of n bytes (R134): one access, whose words are the stored elements decoded exactly to FP32. On a LOC 2 page it is a read
through CXL.io (R147). -/
def State.readView (s : State) (ag : Agent) (va : Nat) (v : View) (base off loc n : Nat) : Acc :=
  let (a, k) := v.span off n
  let p : PA := ⟨locSpace loc, base + a⟩
  let r := if loc = 2 then ⟨s, ag.ts, s.rawRead p k, false⟩ else s.readSpan { ag with touch := [(va, n)] } va p k
  { r with data := if r.err then [] else (List.range (n / 4)).flatMap (fun i =>
      let (pl, e) := v.place (off + 4 * i)
      let x := ofBytes ((r.data.drop (pl - a)).take v.unit)
      leBytes 4 (f32Of (if v.fmt ≤ 5 then elemVal v.fmt x else sxElem v.fmt x e))) }
/-- A byte at its home; of a save area, one that the device wrote in a layout of its own (R407, log 82). -/
def State.savedByte (s : State) (p : PA) : Byte :=
  if p.sp = .dev ∧ s.inSaveArea (p.a / 65536) then Config.undefByte (s.accesses + 2 ^ 49) p.a else s.rawByte p
/-- A load of n bytes of the frame heap region or the future-cell region (R64, R91), placed at the home of the memory under them. -/
def State.readRegion (s : State) (ag : Agent) (va rva : Nat) (p : PA) (n : Nat) : Acc :=
  let s := { s with accesses := s.accesses + 1 }
  let (err, s) := s.readCheck p n ag.found
  let l := s.lineOf p.line
  let ts := max ag.ts l.wts
  let s := s.putLine p.line { l with rts := max l.rts ts }
  ⟨(s.logAccess ag ts va n).countAccess ag va p, s.pip ts,
    if err then [] else (List.range n).map (fun i => (s.regionByte ag.ctx (rva + i)).getD (s.savedByte { p with a := p.a + i })), err⟩
/-- One load at a place; a LOC 3 place is answered by its owner. -/
def State.loadSpot (s : State) (w : Who) (ag : Agent) (x : Spot) : Acc :=
  match x.place with
  | .mem p loc => if loc = 2 then ⟨s, ag.ts, s.rawRead p x.n, false⟩ else s.readAt ag x.va p x.n
  | .view v base _ off loc => s.readView ag x.va v base off loc x.n
  | .const off =>
    let s := { s with accesses := s.accesses + 1 }
    ⟨s.logAccess ag ag.ts x.va x.n, s.pip ag.ts, s.constBytes w off x.n, false⟩
  | .region va p => s.readRegion ag x.va va p x.n
  | .peer _ _ => ⟨s, ag.ts, [], false⟩
/-- A load over its places, in address order. -/
def State.loadSpots (s : State) (w : Who) (ag : Agent) (l : List Spot) : Acc :=
  l.foldl (fun (r : Acc) x =>
    let q := r.s.loadSpot w { ag with ts := r.ts } x
    ⟨q.s, q.ts, r.data ++ q.data, r.err || q.err⟩) ⟨s, ag.ts, [], false⟩
/-- A store of plain bytes over its places; LOC 2 stores are posted and counted for FENCE.SYS (R147, R149). -/
def State.storeSpots (s : State) (ag : Agent) (l : List Spot) (bs : List Byte) : Acc :=
  (l.foldl (fun (r : Acc × List Byte) x =>
    let mine := r.2.take x.n
    let q : Acc := match x.place with
      | .mem p loc => if loc = 2 then ⟨r.1.s.hostWrite p.a mine, r.1.ts, [], false⟩ else r.1.s.writeAt { ag with ts := r.1.ts } x.va p mine
      | _ => r.1
    (q, r.2.drop x.n)) ((⟨s, ag.ts, [], false⟩ : Acc), bs)).1
/-- A store of a view page's stored bytes (R135): one access, or on a LOC 2 page a posted write (R147). -/
def State.storeView (s : State) (ag : Agent) (va : Nat) (p : PA) (loc : Nat) (bs : List Byte) : Acc :=
  if loc = 2 then ⟨s.hostWrite p.a bs, ag.ts, [], false⟩ else s.writeSpan ag va p bs
/-- Whether some place of an access is host memory through CXL.io. -/
def anyLoc2 (l : List Spot) : Bool := l.any (fun x => match x.place with
  | .mem _ loc => loc == 2
  | .view _ _ _ _ loc => loc == 2
  | _ => false)
/-- A fibre's LOC 2 store or RED is counted until FENCE.SYS confirms it (R149). -/
def State.countLoc2 (s : State) (k : Nat) (l : List Spot) : State :=
  if anyLoc2 l then s.modFibre k (fun f => { f with loc2 := f.loc2 + 1 }) else s
def State.setStamp (s : State) (k ts : Nat) : State := s.modFibre k (fun f => { f with stamp := max f.stamp ts })

/-! ### Read-modify-writes (R154, R158, R285, R286) -/

/-- The new value of ATOM's operation on a width of 4 or 8 bytes (R285). -/
def atomStep (op : Nat) (uns : Bool) (n old b c : Nat) : Nat :=
  match op with
  | 0 => (old + b) % 2 ^ (8 * n)
  | 1 => if (if uns then decide (b < old) else decide (signed (8 * n) b < signed (8 * n) old)) then b else old
  | 2 => if (if uns then decide (old < b) else decide (signed (8 * n) old < signed (8 * n) b)) then b else old
  | 3 => old &&& b
  | 4 => old ||| b
  | 5 => old ^^^ b
  | 6 => b
  | _ => if old = b then c else old
/-- Bytes a read-modify-write touches. -/
def rmwSize : Rmw → Nat
  | .atom _ _ wide _ _ => if wide then 8 else 4
  | .cas2 _ _ => 16
  | .red tag _ => redBytes tag.toNat
  | .custom _ _ => 16
/-- The bytes a read-modify-write leaves, of those it finds (custom operations apart, R156). -/
def rmwApply (r : Rmw) (old : List Byte) : List Byte :=
  let n := rmwSize r
  leBytes n (match r with
    | .atom op uns wide b c => atomStep op.toNat uns (if wide then 8 else 4) (ofBytes old) (b.toNat % 2 ^ (8 * n)) (c.toNat % 2 ^ (8 * n))
    | .cas2 b c => if ofBytes old = b.toNat then c.toNat else ofBytes old
    | .red tag v => redStep tag.toNat (ofBytes old) (v.toNat % 2 ^ (8 * n))
    | .custom _ _ => ofBytes old)
/-- Whether LOC 2 memory takes the operation as an AtomicOp (R147). -/
def rmwHasAtomicOp : Rmw → Bool
  | .atom op _ _ _ _ => op == 0 || op == 6 || op == 7
  | .cas2 _ _ => true
  | .red tag _ => tag == 0 || tag == 1
  | .custom _ _ => false
/-- Whether it is a custom far operation, ATOMX's (R287). -/
def rmwIsCustom : Rmw → Bool
  | .custom _ _ => true
  | _ => false
/-- Whether it is sent there: the root complex reports completer support for its width (R148). -/
def State.loc2Takes (s : State) (r : Rmw) : Bool := rmwHasAtomicOp r && s.hostAtomics.contains (rmwSize r)

/-! ### The exchange with the owner of a LOC 3 page (R371, R372) -/

/-- One request to an owner, of a lane of the group. -/
structure PeerAsk where
  fibre : Nat
  owner : Nat
  va : Nat
  acc : PeerAcc
  ctx : Nat
  stamp : Nat
/-- Sends requests of a port to owners: for their checks, or an access. `upd` says what else the port notes. -/
def State.sendAsks (s : State) (g : Group) (asks : List PeerAsk) (probing : Bool) (upd : PortRun → PortRun) : State :=
  let ids := (List.range asks.length).map (fun i => s.link.nextId + i)
  let msgs := (ids.zip asks).map (fun x =>
    ({ dst := x.2.owner, tc := 1, ctx := x.2.ctx, stamp := x.2.stamp,
       body := .access s.device x.1 (BitVec.ofNat 64 x.2.va) (if probing then .probe x.2.acc else x.2.acc) 0 } : Msg))
  let s := { s with link := { s.link with nextId := s.link.nextId + asks.length, out := s.link.out ++ msgs } }
  s.putPort g.core g.p (upd { g.run with
    wait := .peer probing ((ids.zip asks).map (fun x => { id := x.1, fibre := x.2.fibre, va := x.2.va, answer := none })) })
/-- What has come of the requests a port sent: it waits on, an access that its owner's checks had passed faults, or the group goes on. -/
inductive PeerOut where
  | wait (s : State)
  | fault (xs : List (Nat × FaultInfo))
  | go (s : State) (g : Group)
/-- The group with its run as it now stands at the port. -/
def Group.with (g : Group) (s : State) (run : PortRun) : State × Group :=
  (s.putPort g.core g.p run, { g with run := run, fs := run.fibres.filterMap s.fibre })
/-- Takes the answers that a port waits for: those of checks are kept (R372), that of an access gives its bytes and its stamp (R371). -/
def State.takeReplies (s : State) (g : Group) : PeerOut :=
  match g.run.wait with
  | .peer probing reqs =>
    if reqs.any (fun r => r.answer.isNone) then .wait (s.held g)
    else if probing then
      let (s, g) := g.with s { g.run with
        wait := .none, know := g.run.know ++ reqs.filterMap (fun r => r.answer.map (fun x => (r.fibre, r.va, x.1))) }
      .go s g
    else match reqs.filterMap (fun r => match r.answer with
      | some (.fault tag cause argx, _) => some (r.fibre, (⟨tag, cause.toNat, argx.toNat, BitVec.ofNat 64 r.va⟩ : FaultInfo))
      | _ => none) with
      | [] =>
        let s := reqs.foldl (fun s r => match r.answer with
          | some (_, ts) => s.setStamp r.fibre ts
          | none => s) s
        let data := reqs.flatMap (fun r => match r.answer with
          | some (.done data, _) => data
          | _ => [])
        let (s, g) := g.with s { g.run with wait := .none, nth := g.run.nth + reqs.length, part := g.run.part ++ data }
        .go s g
      | xs => .fault xs
  | _ => .go s g

/-! ### Memory instructions of a group -/

/-- A lane's access at its places, for the instruction that the lane issues in this step; n registers from reg on take its result. -/
def State.laneOf (s : State) (f : Fibre) (a : DWord) (l : List Spot) (acc : PeerAcc) (reg n : Nat) : MemLane :=
  { key := f.key, lane := f.lane, words := [], va := a, spots := l, acc := acc, frame := f.top.addr, reg := reg, cnt := n, grp := s.ticks, gen := 0 }
/-- What a lane comes to before any lane's access is made: `hold` for an empty register, `wait` for a bank that changes its role. -/
inductive Plan where
  | skip
  | zero
  | hold
  | wait
  | fault (x : FaultInfo)
  | act (m : MemLane)

def planOf (x : Except FaultInfo MemLane) : Plan := match x with
  | .ok m => .act m
  | .error e => .fault e
def Plan.mem? : Plan → Option MemLane
  | .act m => some m
  | _ => none
def Plan.fault? : Plan → Option FaultInfo
  | .fault x => some x
  | _ => none
/-- The plan of one lane: guard, helper suppression (R31, R276), issue tests, then the address checks. -/
def memPlan (s : State) (o : GOp) (suppress : Bool) (pre : Fibre → Pre) (check : Fibre → Plan) (f : Fibre) : Plan :=
  let bad (x : FaultInfo) : Plan := if s.roleWait (s.who f) x then .wait else if f.helper && x.tag != 0 then .zero else .fault x
  if !f.guard o.guard then .skip
  else if f.helper && suppress then .zero
  else match pre f with
    | .hold => .hold
    | .wait => .wait
    | .fault x => bad x
    | .go => match check f with
      | .fault x => bad x
      | r => r

/-- One access at one place, as it is made there or sent to the place's owner. -/
structure MemPart where
  place : Place
  va : Nat
  acc : PeerAcc
/-- The part of a lane's access at one of its places: the bytes of a store that fall there. -/
def partAcc (a : PeerAcc) (off n : Nat) : PeerAcc := match a with
  | .load _ => .load n
  | .store d => .store ((d.drop off).take n)
  | a => a
/-- The accesses of a lane: one at each of its places, in address order (R139). -/
def plainParts (m : MemLane) : List MemPart :=
  m.spots.map (fun x => ⟨x.place, x.va, partAcc m.acc (x.va - m.va.toNat) x.n⟩)
/-- A load or store at a place of this device. -/
def State.partHere (s : State) (f : Fibre) (x : MemPart) : Acc := match x.acc with
  | .load n => s.loadSpot (s.who f) (f.agent 0) ⟨x.place, x.va, n⟩
  | .store d => s.storeSpots (f.agent 1) [⟨x.place, x.va, d.length⟩] d
  | _ => ⟨s, f.stamp, [], false⟩
/-- Makes a lane's accesses one after another: those here at once; for one at an owner the port waits, and has noted how many are made and
what they gave (R276, R371). An uncorrectable read stops the context and gives nothing (R455). -/
def State.runParts (g : Group) (k : Nat) : List MemPart → State → Nat → List Byte → State × Option (List Byte)
  | [], s, _, bs => (s, some bs)
  | x :: r, s, n, bs => match s.fibre k with
    | none => (s, some bs)
    | some f => match x.place with
      | .peer owner _ => (s.sendAsks g [{ fibre := k, owner := owner, va := x.va, acc := x.acc, ctx := f.ctx, stamp := f.stamp }] false
          (fun run => { run with nth := n, part := bs }), none)
      | _ =>
        let q := s.partHere f x
        if q.err then (q.s.stopFor f.ctx, some []) else State.runParts g k r (q.s.setStamp k q.ts) (n + 1) (bs ++ q.data)

/-- How a memory instruction makes its accesses: `far`, whether a lane's access goes to a banker as things stand (R154, R159); `parts`, a lane's
accesses at its places; `perform` makes a lane's access on this device, or takes what its owner answered, and answers none when the lane finds no
room (R466). Each is given all the lanes' accesses (R284). -/
structure MemAct where
  far : State → MemLane → Bool
  parts : State → List MemLane → MemLane → List MemPart
  perform : State → List MemLane → MemLane → Option (List Byte × Nat) → Option State
/-- What tells one memory instruction from another: what helpers kept out hold, a lane's plan, faults across the group, what a lane's port waits
for (R120, R124), and what the lanes do once all checks have passed. -/
structure MemKind where
  zero : Fibre → Fibre
  plan : State → Fibre → Plan
  joint : State → List MemLane → List (Nat × FaultInfo)
  wait : State → Fibre → List Spot → Bool
  act : State → Group → List MemLane → List MemLane → State
  again : State → Group → Nat → State

/-- The loads that the walks of a lane's addresses make (R115, R136), and whether one is an uncorrectable read, which stops the context (R455). -/
def State.laneWalks (s : State) (k : Nat) (kind : Nat) (l : List Spot) : State × Bool := match s.fibre k with
  | none => (s, false)
  | some f =>
    let r := l.foldl (fun (r : Acc) x =>
      let q := r.s.walkLoads { f.agent kind with ts := r.ts } x.va
      ⟨q.s, q.ts, [], r.err || q.err⟩) ⟨s, f.stamp, [], false⟩
    (if r.err then r.s.stopFor f.ctx else r.s.setStamp k r.ts, r.err)
/-- Marks registers empty with no value on its way. -/
def State.emptyFor (s : State) (k reg n : Nat) : State := s.modFibre k (fun f => f.markEmpty reg n)
/-- The lanes' accesses in ascending lane order, as the port issues them (R275, R276): those made at once, and far requests, which enter their
queues in order. A lane waits in its turn when it has something to wait for, or asks an owner, or comes to be made here behind such a lane or behind a
far request: its registers are empty meanwhile. The last list is what is left when a lane finds no room (R466). A lane whose walk meets an
uncorrectable error makes no access (R455). -/
def MemAct.issue (a : MemAct) (acts : List MemLane) (busy : List Nat) : List MemLane → Bool → State → List MemLane → State × List MemLane × List MemLane
  | [], _, s, kept => (s, kept, [])
  | m :: r, behind, s, kept =>
    if m.spots.any Spot.isPeer || busy.contains m.key then MemAct.issue a acts busy r true (s.emptyFor m.key m.reg m.cnt) (kept ++ [m])
    else match s.laneWalks m.key 0 m.spots with
      | (t, true) => MemAct.issue a acts busy r behind (t.emptyFor m.key m.reg m.cnt) kept
      | (t, false) =>
        if behind && !a.far t m then MemAct.issue a acts busy r true (s.emptyFor m.key m.reg m.cnt) (kept ++ [m])
        else match a.perform t acts m none with
        | some u => MemAct.issue a acts busy r (behind || a.far t m) u kept
        | none => (s, kept, m :: r)
/-- Whether an access of a lane must wait for its place: an earlier issue's access of its fibre is not yet placed (R137), or a line is claimed (R151). -/
def State.laneBusy (s : State) (m : MemLane) : Bool := s.inFlight m.key || m.spots.any s.spotClaimed
/-- The issue of a group's accesses (R275): what is not made at once is left to the issue's own turns, and the port goes on; it is held while a
lane finds no room (R466). -/
def State.runIssue (s : State) (g : Group) (a : MemAct) (i : Instr) (acts todo : List MemLane) (fin : State → Group → List MemLane → State) : State :=
  match a.issue acts ((todo.filter s.laneBusy).map MemLane.key) todo false s [] with
  | (t, [], []) => fin t g acts
  | (t, kept, left) =>
    let n := (acts.headD ⟨0, 0, [], 0, [], .fetch, 0, 0, 0, 0, 0⟩).grp
    let j : MemJob := { grp := n, instr := i, word := g.run.word, fs := g.fs, acts := acts, todo := kept, left := left, nth := 0, part := [], reqs := [] }
    let t := { t with jobs := t.jobs ++ [j] }
    if left.isEmpty then fin t g acts else t.putPort g.core g.p { g.run with wait := .room n }
/-- A port whose instruction waits for room tries its next lanes again (R466). -/
def State.runRoom (s : State) (g : Group) (a : MemAct) (n : Nat) (fin : State → Group → List MemLane → State) : State :=
  match s.jobs.find? (fun j => j.grp == n && !j.left.isEmpty) with
  | none => fin s { g with run := { g.run with wait := .none } } []
  | some j =>
    let (t, kept, left) := a.issue j.acts [] j.left true s []
    let t := { t with jobs := t.jobs.map (fun x => if x == j then { j with todo := j.todo ++ kept, left := left } else x) }
    if left.isEmpty then fin t { g with run := { g.run with wait := .none } } j.acts else t.held g

/-- One lane's turn of an instruction that holds its port for its data (R271): whether it is done. Only the first lane still to do can be one whose
owner has answered. -/
def MemAct.lane (a : MemAct) (g : Group) (acts : List MemLane) (first : Bool) (s : State) (m : MemLane) : State × Bool :=
  let n := if first then g.run.nth else 0
  match if n = 0 then s.laneWalks m.key 0 m.spots else (s, false) with
  | (s, true) => (s, true)
  | (s, false) =>
    if m.spots.any Spot.isPeer then
      match s.runParts g m.key ((a.parts s acts m).drop n) n (if first then g.run.part else []) with
      | (s, none) => (s, false)
      | (s, some bs) =>
        let ts := match s.fibre m.key with
          | some f => f.stamp
          | none => 0
        match a.perform s acts m (some (bs, ts)) with
        | some s => (s, true)
        | none => (s, false)
    else match a.perform s acts m none with
      | some s => (s, true)
      | none => (s, false)
/-- The lanes' accesses in ascending order, until one cannot go on (R276). -/
def MemAct.lanes (a : MemAct) (g : Group) (acts : List MemLane) : List MemLane → Bool → State → List Nat → State × List Nat × Bool
  | [], _, s, done => (s, done, true)
  | m :: r, first, s, done => match a.lane g acts first s m with
    | (s, true) => MemAct.lanes a g acts r false s (done ++ [m.key])
    | (s, false) => (s, done, false)
/-- The port keeps the lanes that are done, and is held. -/
def State.keepDone (s : State) (g : Group) (done : List Nat) : State := match s.port g.core g.p with
  | none => s
  | some r =>
    let sent := match r.wait with
      | .peer _ _ => true
      | _ => false
    (s.putPort g.core g.p { r with done := done, nth := if sent then r.nth else 0, part := if sent then r.part else [] }).held g
/-- The accesses of an instruction that holds its port for its data. -/
def State.runHeld (s : State) (g : Group) (a : MemAct) (acts todo : List MemLane) (fin : State → Group → List MemLane → State) : State :=
  match a.lanes g acts todo true s g.run.done with
  | (t, _, true) => fin t g acts
  | (t, done, false) => t.keepDone g done
/-- The faults of some lanes as outcomes of the group. -/
def faultsOf (fs : List Fibre) (bad : List (Nat × FaultInfo)) : List (Fibre × LaneOut) :=
  fs.map (fun f => (f, match bad.find? (fun b => b.1 == f.key) with
    | some b => LaneOut.fault b.2 f
    | none => LaneOut.ok f))
/-- A memory instruction of a group (R275, R276, R372): every lane's checks first, those of owners among them, a fault in any lane leaving
every access unmade; then what the port waits for; then the lanes' accesses. -/
def State.memRun (s : State) (g : Group) (k : MemKind) : State :=
  match g.run.wait with
  | .room n => k.again s g n
  | _ =>
  match s.takeReplies g with
  | .wait t => t
  | .fault xs => s.groupFault g g.run.word (faultsOf g.fs xs) k.zero
  | .go s g =>
    let isDone (f : Fibre) : Bool := g.run.done.contains f.key
    let plans := g.fs.map (fun f => (f, if isDone f then Plan.skip else k.plan s f))
    let acts := plans.filterMap (fun x => x.2.mem?)
    let bad := plans.filterMap (fun x => x.2.fault?.map (fun e => (x.1.key, e)))
    let ask := plans.flatMap (fun x => match x.2 with
      | .act m => (s.unknown x.1.key m.spots).filterMap (fun (y : Spot) => match y.place with
        | .peer owner _ => some ({ fibre := x.1.key, owner := owner, va := y.va, acc := partAcc m.acc (y.va - m.va.toNat) y.n, ctx := x.1.ctx,
                                   stamp := x.1.stamp } : PeerAsk)
        | _ => none)
      | _ => [])
    if bad.isEmpty && plans.any (fun x => match x.2 with
        | .hold => true
        | _ => false) then s.stalled g
    else if !ask.isEmpty then s.sendAsks g ask true id
    else
      let bad := if bad.isEmpty && g.run.done.isEmpty && g.run.nth == 0 then k.joint s acts else bad
      if !bad.isEmpty then s.groupFault g g.run.word (faultsOf g.fs bad) k.zero
      else if plans.any (fun x => match x.2 with
          | .wait => true
          | .zero => overEmpty k.zero x.1
          | .act m => k.wait s x.1 m.spots
          | _ => false) then s.held g
      else k.act (s.putFibres (plans.filterMap (fun x => match x.2 with
          | .zero => some (k.zero x.1)
          | _ => none))) g acts acts
/-- A memory instruction of format G. `joint` finds faults across the group (R284). -/
def runMem (op : Nat) (o : GOp) (s : State) (i : Instr) (suppress : Bool) (check : State → Fibre → Plan)
    (joint : State → List MemLane → List (Nat × FaultInfo)) (a : MemAct) (after : State → Group → List MemLane → State) : Out :=
  match s.group, gRow op with
  | some g, some r =>
    let fin (t : State) (g : Group) (acts : List MemLane) : State := (after t g acts).goOn g
    .next (s.memRun g
      { zero := fun f => f.zeroDst o r, plan := fun s f => memPlan s o suppress (fun f => s.preG f op o r .go) (check s) f, joint := joint,
        wait := State.mustHold, act := fun s g acts todo => s.runIssue g a i acts todo fin, again := fun s g n => s.runRoom g a n fin })
  | _, _ => .refused .noIssueGroup

/-- Puts values on their way to registers of a fibre's top frame, marked empty (R50); `loc2` marks those of a LOC 2 access (R149). -/
def State.fillFor (s : State) (k op reg : Nat) (vals : List Word) (loc2 : Bool := false) : State :=
  match s.fibre k with
  | none => s
  | some f =>
    { s.putFibre (f.markEmpty reg vals.length) with
      fills := s.fills ++ [{ fibre := k, frame := f.top.addr, reg := reg, n := vals.length, vals := vals, producer := op, loc2 := loc2 }] }
/-- The same for registers of the frame that issued the load (R71), which may no longer be the fibre's top frame. -/
def State.fillInto (s : State) (k frame op reg : Nat) (vals : List Word) (loc2 : Bool := false) : State :=
  match s.fibre k with
  | none => s
  | some f =>
    if f.top.addr = frame then s.fillFor k op reg vals loc2
    else { s with fills := s.fills ++ [{ fibre := k, frame := frame, reg := reg, n := vals.length, vals := vals, producer := op, loc2 := loc2 }] }

end Sys2Proof.Machine
end

