-- ==== Sys2Proof/Machine/Control.lean ====
section
/-! DEFINITION. Group 4, control, effects and continuations (R259 to R265): branches, calls and returns, EXIT, STOP, handlers, PERFORM,
RESUME, DROP, CSTAT. -/

namespace Sys2Proof.Machine

/-- A fibre that goes on at the next instruction slot. -/
def State.onward (s : State) (f : Fibre) : Fibre := { f with pc := s.nextSlot f.ctx f.pc }

/-! ### Branches (R259) -/

/-- A branch of format J: each lane that takes it is checked by R190 alone. -/
def runBranchJ (op : Nat) (o : JOp) (s : State) (span : Nat) (takes : State → Fibre → Bool) : Out :=
  match s.group with
  | none => .refused .noIssueGroup
  | some g => .next (s.withLate g fun s g =>
      let pre (f : Fibre) : Pre := if f.guard o.guard then s.preJ f op o span none else .go
      s.settleTrailer g (g.fs.map (fun f => (f,
        if f.guard o.guard then laneStep s.onward true (pre f) f (fun _ =>
          if takes s f then match s.checkTarget f.ctx (jumpTarget o f.pc) with
            | some x => .fault x f
            | none => .ok { f with pc := jumpTarget o f.pc }
          else .ok (s.onward f))
        else .ok (s.onward f)))) (!g.fs.any (fun f => !f.helper && (pre f).isFault)))
/-- A condition of BRC (R259): the source compared with zero as INT32. -/
def brcHolds (cc : Nat) (x : Word) : Bool :=
  let v := signed 32 x.toNat
  match cc with
  | 0 => x == 0
  | 1 => x != 0
  | 2 => decide (v < 0)
  | 3 => decide (0 ≤ v)
  | 4 => decide (0 < v)
  | _ => decide (v ≤ 0)
def execBra (o : JOp) (s : State) : Out := runBranchJ 0x200 o s 0 (fun _ _ => true)
def execBrc (o : JOp) (s : State) : Out :=
  runBranchJ 0x201 o s 1 (fun s f => brcHolds (modBits o.mod 0 3) (s.src f .int o.imm o.a))
/-- BRX (R259): the target is the 64-bit source. -/
def execBrx (o : GOp) (s : State) : Out :=
  runTrailer 0x202 o s (fun s f =>
    let t := s.src64 f .int o.imm o.a
    match s.checkTarget f.ctx t with
    | some x => .fault x f
    | none => .ok { f with pc := t })

/-! ### Trailers whose lanes take and give back shared storage, each in ascending lane order -/

/-- One lane of such a trailer: guard, issue tests, action on the state as the earlier lanes left it. -/
def foldLane (guard : Guard) (pre : State → Fibre → Pre) (act : State → Fibre → Except FaultInfo State)
    (r : State × List (Fibre × LaneOut)) (f0 : Fibre) : State × List (Fibre × LaneOut) :=
  match r.1.fibre f0.key with
  | none => r
  | some f =>
    let skip : State × List (Fibre × LaneOut) := (r.1.putFibre (r.1.onward f), r.2 ++ [(f0, LaneOut.ok f0)])
    if !f.guard guard then skip
    else match pre r.1 f with
      | .hold => (r.1, r.2 ++ [(f0, LaneOut.hold)])
      | .wait => (r.1, r.2 ++ [(f0, LaneOut.wait)])
      | .fault x => if f.helper && x.tag != 0 then skip else (r.1, r.2 ++ [(f0, LaneOut.fault x f0)])
      | .go => match act r.1 f with
        | .ok t => (t, r.2 ++ [(f0, LaneOut.ok f0)])
        | .error x => if f.helper && x.tag != 0 then skip else (r.1, r.2 ++ [(f0, LaneOut.fault x f0)])
/-- A trailer of that kind: a fault in any lane leaves every lane's action undone (R425). -/
def runFold (s : State) (guard : Guard) (pre : State → Fibre → Pre) (act : State → Fibre → Except FaultInfo State) : Out :=
  match s.group with
  | none => .refused .noIssueGroup
  | some g => .next (s.withLate g fun s g =>
      let r := g.fs.foldl (foldLane guard pre act) (s, [])
      if r.2.any (fun x => x.2.isFault) then s.groupFault g g.run.word r.2 id
      else match s.holdIf g r.2 with
        | some t => t
        | none => r.1.endSentence g [])

/-! ### CALL, CALLX, RET, EXIT (R260, R261, R263) -/

/-- One lane's call: the target is checked, the frame made, the argument words written full (R260). RETPC is the next instruction slot,
for which the line after the call may have to be asked for (R189, R371). -/
def State.callLane (s : State) (f : Fibre) (n a fr l : Nat) (target : DWord) : Except FaultInfo State :=
  match (s.checkTarget f.ctx target).or (s.nextNeeds f) with
  | some x => .error x
  | none =>
    let args := f.regsFrom a n
    match s.newFrame f fr l (s.nextSlot f.ctx f.pc) target with
    | .error x => .error x
    | .ok (s, f) => .ok (s.putFibre { f.setRegs 0 args with pc := target })
/-- An argument count beyond the callee's F performs ENCODING (R260); ARGX is A's register number. -/
def callWindow (n a fr : Nat) : Pre := if fr < n then .fault ⟨0x30, 5, a, 0⟩ else .go
def execCall (o : JOp) (s : State) : Out :=
  let n := o.mod.toNat
  let fr := o.dst.num + 1
  runFold s o.guard
    (fun s f => (s.srcEnc f 0x203 n o.a).andThen fun _ => (callWindow n o.a.num fr).andThen fun _ => f.srcWait 0 n 0 o.a)
    (fun s f => s.callLane f n o.a.num fr (o.imm.toNat % 2 ^ 16) (jumpTarget o f.pc))
def execCallx (o : GOp) (s : State) : Out :=
  match gRow 0x204 with
  | none => .refused .noIssueGroup
  | some r =>
    let n := o.mod.toNat
    let fr := o.dst.num + 1
    runFold s o.guard
      (fun s f => (s.litPre f [o.b]).andThen fun _ => (callWindow n o.a.num fr).andThen fun _ => s.preG f 0x204 o r .go)
      (fun s f => s.callLane f n o.a.num fr (o.imm.toNat % 2 ^ 16) (s.src64 f .int o.imm o.b))

/-- The instruction slot whose next instruction slot is pc: the last slot before it that is no literal slot (R261), however many lines
before. The error is a line whose owner has still to be asked for it. -/
def State.prevSlotFuel : Nat → State → Nat → Nat → Nat → Except FaultInfo (Option DWord)
  | 0, _, _, _, _ => .ok none
  | n + 1, s, ctx, la, i =>
    match s.fetchLine ctx la with
    | .error x => if x.tag = 0 then .error x else .ok none
    | .ok (ws, _) => match ((List.range 5).reverse).find? (fun j => decide (j < i) && !lineLmask ws j) with
      | some j => .ok (some (BitVec.ofNat 64 (la + j)))
      | none => if 64 ≤ la then State.prevSlotFuel n s ctx (la - 64) 5 else .ok none
def State.callSite (s : State) (ctx : Nat) (pc : DWord) : Except FaultInfo (Option Instr) :=
  (s.prevSlotFuel (2 ^ 51) ctx (pc.toNat / 64 * 64) (pc.toNat % 64)).map (fun x => x.bind (s.instrAt ctx))
/-- The registers that a return writes in the calling frame: the first one, and how many of the words at most (R261). -/
def returnPlace (i : Option Instr) : Option (Nat × Bool) :=
  match i with
  | some (.call c) => some (c.a.num, false)
  | some (.callx c) => some (c.a.num, false)
  | some (.resume c) => match c.dst with
    | .v n => some (n.toNat, true)
    | _ => none
  | _ => none
/-- What a RET waits for in the calling frame (R51, R76, R261): no fill may be pending to the registers that it writes there, and its call's line at hand. -/
def State.retPre (s : State) (f : Fibre) (m : Nat) : Pre :=
  match f.chain with
  | top :: c :: _ =>
    let empty (n k : Nat) : Pre := if (List.range k).any (fun i => c.pending (n + i)) then .hold else .go
    if top.retpc = 0 then (if f.helper then .go else empty c.hbase.toNat 4)
    else match s.callSite f.ctx top.retpc with
      | .error x => .fault x
      | .ok i => match returnPlace i with
        | some (n, false) => empty n (min m (c.f - n))
        | _ => .go
  | _ => .go
/-- Whether the end of a frame, or of all frames of a fibre, accesses a cell, or an FCANCEL still waits: the fibre's earlier accesses must be
placed first (R271). -/
def State.releasesNow (s : State) (f : Fibre) (frames : List Frame) : Pre :=
  if s.unplaced f.key && (!f.refs.isEmpty || frames.any (fun x => !x.owned.isEmpty) || (f.isFuture && frames.any Frame.entry)) then .wait else .go
/-- The words a return delivers: a RESUME takes word 0, or 0; a call takes each word whose register lies below the caller's F. -/
def Fibre.deliverWords (f : Fibre) (place : Option (Nat × Bool)) (words : List Word) : Fibre :=
  match place with
  | none => f
  | some (n, true) => f.setReg n (words.headD 0)
  | some (n, false) => f.setRegs n (words.take (f.top.f - n))
/-- The READY update of a future whose entry frame returns (R98, step 1, R99): the state, the waiters it takes, and their stamp. -/
def State.readyCell (s : State) (f : Fibre) (words : List Word) : State × List Node × Nat :=
  match cellOfFid f.fid with
  | none => (s, [], 0)
  | some i =>
    let s := s.heapAccess f.key ((s.cdesc f.ctx).cellAddr i) true
    let ts := match s.fibre f.key with
      | some x => x.stamp
      | none => f.stamp
    let c := (s.heap f.ctx).cell i
    if c.state = 0 then
      (s.modCell f.ctx i (fun c => { c with state := 1, stamp := ts, result := (List.range 4).map (fun j => words.getD j 0), waiters := [] }), c.waiters, ts)
    else (s, [], 0)
/-- EXIT in one lane: failing its PENDING future is one atomic access (R263, R271). A fibre that is due to be reclaimed meets that instead (R103). -/
def State.exitLane (s : State) (f : Fibre) : State :=
  if s.dueReclaim f then s.reclaimFibre f.key else
  let s := match cellOfFid f.fid with
    | some i => if !f.helper && ((s.heap f.ctx).cell i).state == 0 then s.heapAccess f.key ((s.cdesc f.ctx).cellAddr i) true else s
    | none => s
  s.exitFibre f.key 0
/-- Whether a lane's RET delivers RETURN (R261). -/
def Fibre.returnsToRoot (f : Fibre) : Bool := !f.helper && (match f.chain with
  | top :: _ :: _ => top.retpc == 0
  | _ => false)
/-- One lane's return (R261); `issue` and `performed` are the masks of a RETURN that it delivers (R79). A future becomes READY first and its waiters
are handed over last (R98); a fibre that is due to be reclaimed writes no result (R103). -/
def State.retLane (s : State) (f : Fibre) (words : List Word) (issue performed : Word) : State :=
  match f.chain with
  | top :: _ :: _ =>
    let (s, ws, ts) := if top.entry && f.isFuture && !s.dueReclaim f then s.readyCell f words else (s, [], 0)
    let s := s.popFrame f.key
    let s := if top.retpc = 0 then
      (match s.fibre f.key with
        | some f => if f.helper then s.endFibre f else s.deliverReturn f.key (words.headD 0) f.pc issue performed
        | none => s)
    else
      let place := match s.callSite f.ctx top.retpc with
        | .ok i => returnPlace i
        | .error _ => none
      s.modFibre f.key (fun f => { f.deliverWords place words with pc := top.retpc })
    if ws.isEmpty then s else s.handTaken f.ctx ws ts
  | _ => s.exitLane f
/-- Every RET that delivers RETURN in some lane takes one number FRAG (R79). -/
def State.retDone (s : State) (performed : Word) : State := if performed = 0 then s else { s with frag := s.frag + 1 }
def execRet (o : GOp) (s : State) : Out :=
  match s.group, gRow 0x205 with
  | some g, some r =>
    let performed := laneMask (g.fs.filter (fun f => f.guard o.guard && f.returnsToRoot && !s.dueReclaim f))
    let last := (g.fs.filter (fun f => f.guard o.guard && f.returnsToRoot)).getLast?
    runFold s o.guard (fun s f => (s.preG f 0x205 o r .go).andThen fun _ => (s.retPre f o.mod.toNat).andThen fun _ => s.releasesNow f (f.chain.take 1))
      (fun s f =>
        let t := s.retLane f (f.regsFrom o.a.num o.mod.toNat) (laneMask g.fs) performed
        .ok (if last.map Fibre.key = some f.key then t.retDone performed else t))
  | _, _ => .refused .noIssueGroup
def execExit (o : GOp) (s : State) : Out :=
  runFold s o.guard (fun s f => s.releasesNow f f.chain) (fun s f => .ok (s.exitLane f))

/-! ### STOP, NOP (R52, R202, R262) -/

/-- The v registers STOP names. -/
def SOp.regs (o : SOp) : List Nat := [o.d, o.a, o.b, o.c].filterMap (fun x => x.map BitVec.toNat)
/-- STOP: the group stays one group, ready when every named register is full in every fibre of it. -/
def execStop (o : SOp) (s : State) : Out :=
  match s.group with
  | none => .refused .noIssueGroup
  | some g => .next (s.withLate g fun s g =>
      let res := g.fs.map (fun f => (f, match (SOp.regs o).find? (fun n => decide (f.top.f ≤ n)) with
        | some n => if f.helper then LaneOut.ok f else LaneOut.fault ⟨0x30, 5, n, 0⟩ f
        | none => LaneOut.ok f))
      if res.any (fun x => x.2.isFault) then s.groupFault g g.run.word res id
      else
        let (k, s) := s.newKey
        let fs := g.fs.map (fun f => { s.onward f with awaits := (SOp.regs o).filter (fun n => decide (n < f.top.f)), awaitGrp := k })
        (s.putFibres fs).endSentence g [])
def execNop (o : GOp) (s : State) : Out := runG 0x207 o s (fun _ f => .ok f)

/-! ### Handlers (R75, R264) -/

/-- HINST's fields in the current frame (R75). -/
def Frame.install (fr : Frame) (tag mask : Nat) (entry : DWord) (base : Nat) : Frame :=
  { fr with handler := true, htag := BitVec.ofNat 16 tag, hmask := BitVec.ofNat 16 mask, hslot := BitVec.ofNat 3 entry.toNat,
            hline := BitVec.ofNat 64 (entry.toNat / 64 * 64), hbase := BitVec.ofNat 11 base }
def execHinst (o : JOp) (s : State) : Out :=
  match s.group with
  | none => .refused .noIssueGroup
  | some g =>
    let n := o.dst.num
    let pre (f : Fibre) : Pre := if f.top.f < n + 4 then Pre.fault ⟨0x30, 5, n, 0⟩ else Pre.go
    .next (s.settleLanes g (g.fs.map (fun f => (f, laneStep id (f.guard o.guard && !f.helper) (pre f) f (fun _ =>
      match s.checkTarget f.ctx (jumpTarget o f.pc) with
      | some x => .fault x f
      | none => .ok (f.setTop (f.top.install (o.imm.toNat % 2 ^ 16) (o.a.num + 2 ^ 11 * modBits o.mod 0 5) (jumpTarget o f.pc) n)))))) id
      (fun t => t.goOn g))
/-- HREM (R75): without a handler it changes nothing; SEGEND stays while the frame is a RESUME's delimiter. -/
def execHrem (o : GOp) (s : State) : Out :=
  runG 0x20A o s (fun _ f => .ok (if f.helper then f else f.setTop { f.top with handler := false }))

/-! ### PERFORM (R76, R77, R264) -/

def execPerform (o : GOp) (s : State) : Out :=
  match s.group, gRow 0x20B with
  | some g, some r => .next (s.withLate g fun s g =>
      let tag := BitVec.ofNat 16 (o.c.num + 2 ^ 11 * modBits o.mod 0 5)
      let acts := g.fs.filter (fun f => f.guard o.guard && !f.helper)
      let zero : Fibre → Fibre := fun f => f.zeroDst o r
      let res := g.fs.map (fun f => (f, laneStep zero (f.guard o.guard && !f.helper) (s.preG f 0x20B o r .go) f (fun _ => match s.nextNeeds f with
        | some x => .fault x f
        | none => .ok f)))
      if res.any (fun x => x.2.isFault) then s.groupFault g g.run.word res zero
      else match s.holdIf g res with
      | some t => t
      | none =>
      if g.fs.any (helperHolds o.guard zero) then s.stalled g
      else if acts.any (fun f => !s.noFill f.key) then s.held g
      else
        let gone := acts.filter s.dueReclaim
        let acts := acts.filter (fun f => !s.dueReclaim f)
        let t := s.putFibres (g.fs.map (fun f => s.onward (if f.helper && f.guard o.guard then zero f else f)))
        let t := gone.foldl (fun t f => t.reclaimFibre f.key) t
        let t := acts.foldl (fun t f =>
          t.deliver f.key (t.record f tag (s.src f .int o.imm o.a) f.pc (laneMask g.fs) (laneMask acts) 0) (s.nextSlot f.ctx f.pc) g.run.word) t
        { t with frag := t.frag + 1 }.endSentence g [])
  | _, _ => .refused .noIssueGroup

/-! ### RESUME, DROP, CSTAT (R81 to R83, R264, R265, R501) -/

/-- What an instruction of R501 comes to in its lanes: the state, the lanes that faulted while acting, the lanes that acted well. -/
structure Acted where
  s : State
  bad : List (Nat × FaultInfo)
  good : List Nat
/-- The lanes of an R501 instruction act in ascending order, whatever the earlier lanes came to. -/
def actLanes (fs : List Fibre) (act : State → Fibre → State × Option FaultInfo) (s : State) : Acted :=
  fs.foldl (fun (a : Acted) f0 => match a.s.fibre f0.key with
    | none => a
    | some f => match act a.s f with
      | (t, none) => { s := t, bad := a.bad, good := a.good ++ [f0.key] }
      | (t, some x) => { s := t, bad := a.bad ++ [(f0.key, x)], good := a.good }) { s := s, bad := [], good := [] }
/-- A trailer of R501: issue checks follow R425; a lane whose action faults performs its fault alone, the others go on. -/
def runAlone (op : Nat) (o : GOp) (s : State) (form : State → Fibre → Option FaultInfo) (act : State → Fibre → State × Option FaultInfo) : Out :=
  match s.group, gRow op with
  | some g, some r => .next (s.withLate g fun s g =>
      let acting (f : Fibre) : Bool := f.guard o.guard && !f.helper
      let zero : Fibre → Fibre := fun f => f.zeroDst o r
      let res := g.fs.map (fun f => (f, laneStep zero (acting f) ((s.preG f op o r .go).andThen fun _ => if s.unplaced f.key then .wait else .go) f
        (fun _ => match form s f with
          | some x => .fault x f
          | none => .ok f)))
      if res.any (fun x => x.2.isFault) then s.groupFault g g.run.word res zero
      else match s.holdIf g res with
      | some t => t
      | none =>
        if g.fs.any (helperHolds o.guard zero) then s.stalled g else
        let t := s.putFibres ((g.fs.filter (fun f => !acting f)).map (fun f =>
          s.onward (if f.helper && f.guard o.guard then zero f else f)))
        let a := actLanes (g.fs.filter acting) act t
        if a.bad.any (fun x => !s.noFill x.1) then s.held g
        else
          let pc := (g.fs.headD (Fibre.make 0 0 false 0 0 0 0 0 [] [] 0 0 0 0)).pc
          let t := if a.bad.isEmpty then a.s else
            a.s.deliverAll g.run.word pc (laneMask g.fs) (laneMask (g.fs.filter (fun f => a.bad.any (fun x => x.1 == f.key))))
              (a.bad.map (fun x => (⟨x.1, x.2, false, pc⟩ : LaneDeliv)))
          t.endSentence (g.without (a.bad.map Prod.fst)) (if op = 0x20C then a.good else []))
  | _, _ => .refused .noIssueGroup
/-- FORMAT cause 1: the form of a continuation handle (R80), then the translation of its block (R406). -/
def State.blockForm (s : State) (x : Src) (f : Fibre) : Option FaultInfo :=
  if s.blockFormOk f.ctx (f.pair x) then s.heapFault f.ctx (handleAddr (f.pair x)) else some ⟨0x43, 1, 0, f.pair x⟩
def execResume (o : GOp) (s : State) : Out :=
  runAlone 0x20C o s (fun s f => ((s.blockForm o.a f).or (s.nextNeeds f)).or (s.performNeeds f.ctx (f.pair o.a))) (fun s f =>
    s.resumeLane f.key (f.pair o.a) (s.src f .int o.imm o.b) (s.nextSlot f.ctx f.pc) (match o.dst with
      | .v n => some n.toNat
      | _ => none))
def execDrop (o : GOp) (s : State) : Out :=
  runAlone 0x20D o s (fun s f => s.blockForm o.a f) (fun s f =>
    match s.dropLane f.key (f.pair o.a) with
    | (t, none) => (t.modFibre f.key (fun x => { x with pc := s.nextSlot f.ctx f.pc }), none)
    | r => r)
/-- CSTAT's answer (R80, R81, R455): a stale handle names a CONSUMED continuation; an uncorrectable word reads as 2. -/
def State.cstatVal (s : State) (ctx : Nat) (h : DWord) : Word :=
  let b := (s.heap ctx).block (handleAddr h)
  if (s.blockWordErr ctx (handleAddr h)).1 then 2 else if b.genNow (handleAddr h) ≠ handleGen h then 1 else BitVec.ofNat 32 b.state
def execCstat (o : GOp) (s : State) : Out :=
  let acts (g : Group) : List Fibre := g.fs.filter (fun f => f.guard o.guard && !f.helper)
  runCrew 0x20E o s (fun s _ r f => if f.helper then (if overEmpty (fun x => x.setDst o.dst 0) f then Pre.hold else .go) else
      (s.preG f 0x20E o r .go).andThen fun _ => if s.unplaced f.key then .wait else .go)
    (fun s _ f => if f.helper then .ok (f.setDst o.dst 0) else match s.blockForm o.a f with
      | some x => .fault x f
      | none => .ok (f.setDst o.dst (s.cstatVal f.ctx (f.pair o.a))))
    (fun t g => (acts g).foldl (fun t f => ((t.blockWordErr f.ctx (handleAddr (f.pair o.a))).2).heapAccess f.key (handleAddr (f.pair o.a)) false) t)

end Sys2Proof.Machine
end

