-- ==== Sys2Proof/Machine/Futures.lean ====
section
/-! DEFINITION. Group 4, futures (R94 to R108, R266 to R270, R501): SPAWN, FGET, FPARK, the reference instructions, pins and FCANCEL. -/

namespace Sys2Proof.Machine

/-- FORMAT cause 1: the form of a future handle (R89), then the translation of its cell (R406). -/
def State.cellForm (s : State) (ctx : Nat) (h : DWord) : Option FaultInfo :=
  if (s.cdesc ctx).cellFormOk h then s.heapFault ctx (handleAddr h) else some ⟨0x43, 1, 0, h⟩
/-- The cell a handle names; a stale handle names a RECLAIMED one (R89). -/
def State.cellAt (s : State) (ctx : Nat) (h : DWord) : Option (Nat × Cell) :=
  match (s.heap ctx).cellOf (s.cdesc ctx) h with
  | some (i, c) => if c.state = 2 then none else some (i, c)
  | none => none

/-! ### SPAWN (R95, R267, R501) -/

/-- The shape of a spawned entry frame (R267): F and L/32. -/
def spawnShape (o : JOp) : Nat × Nat := (o.imm.toNat % 2048 + 1, o.imm.toNat / 2048)
/-- The checks of SPAWN at issue: TARGET, then the record's address, aligned to 64 bytes; a view page refuses it (FORMAT cause 4). -/
def State.spawnCheck (s : State) (o : JOp) (f : Fibre) : Except FaultInfo MemLane :=
  match s.checkTarget f.ctx (jumpTarget o f.pc) with
  | some x => .error x
  | none =>
    let a := f.pair o.a
    match s.laneAccess f a 64 64 false with
    | .error x => .error (if x.tag = 0x34 then { x with cause := 4 } else x)
    | .ok l => if anyView l then .error (FaultInfo.format a.toNat 4)
      else .ok (s.laneOf f a l (.load 64) 0 0)
/-- The node, root segment and entry segment a spawn needs (R95). -/
def Heap.takeSpawn (h : Heap) (d : CtxDesc) (rc ec : Nat) : Option (Nat × Nat × Nat × Heap) :=
  match h.takeNode d with
  | none => none
  | some (n, h) => match h.takeSeg d rc with
    | none => none
    | some (r, h) => match h.takeSeg d ec with
      | none => none
      | some (e, h) => some (n, r, e, h)
/-- SPAWN's results: the handle pair, full, and qE (R95). -/
def Fibre.spawned (f : Fibre) (o : JOp) (h : DWord) (e : Bool) : Fibre :=
  (f.setPair o.dst.num h).setPred (BitVec.ofNat 3 o.mod.toNat) e
/-- One lane's SPAWN once its record is loaded (R95): segments and node first, then the cell at the cluster's reach unit. -/
def State.spawnLane (s : State) (o : JOp) (f : Fibre) (args : List Word) : State × Option FaultInfo :=
  match s.launch f.ctx f.launch with
  | none => (s, none)
  | some l =>
    let d := s.cdesc f.ctx
    let (fr, lc) := spawnShape o
    let cl := clusterOf f.core
    match (s.heap f.ctx).takeSpawn d (rootClass l.rf l.rl) (entryClass fr lc) with
    | none => (s, some ⟨0x10, 7, 0, d.heapEnd⟩)
    | some (node, ra, ea, h) => match (s.heapFault f.ctx ra).or (s.heapFault f.ctx ea) with
    | some x => (s, some x)
    | none =>
      let back (s : State) : State := s.putHeap f.ctx ((h.freeNode node).freeSegs [⟨ra, rootClass l.rf l.rl, f.fid, s.age⟩, ⟨ea, entryClass fr lc, f.fid, s.age⟩])
      if l.cancel || f.reclaim then ((back (s.stampAccess f.key)).modFibre f.key (fun f => f.spawned o 0 true), none)
      else match h.takeCell d cl with
        | none => (back (s.stampAccess f.key), some ⟨0x10, 8, 0, Config.cellPartAddress s.frag⟩)
        | some (i, h) => match s.heapFault f.ctx (d.cellAddr i) with
        | some x => (back (s.stampAccess f.key), some x)
        | none =>
          let s := s.heapAccess f.key (d.cellAddr i) true
          let parent : DWord := if f.isFuture then (match cellOfFid f.fid with
            | some j => d.cellHandle j (h.cell j)
            | none => 0) else 0
          let fid := BitVec.ofNat 32 (0x80000000 + i)
          let c : Cell := { Cell.free with state := 0, gen := (h.cell i).gen, ctxid := f.ctx, reach := 1, fid := fid, parent := parent, live := true }
          let hd := d.cellHandle i c
          let s := s.putHeap f.ctx (h.putCell i c)
          let s := s.modFibre f.key (fun (f : Fibre) =>
            (f.setTop { f.top with owned := ⟨node, hd⟩ :: f.top.owned }).spawned o hd false)
          let ts := match s.fibre f.key with
            | some x => x.stamp
            | none => f.stamp
          let (id, s) := s.newKey
          let root : Seg := ⟨ra, rootClass l.rf l.rl, fid, s.age⟩
          let entry : Seg := ⟨ea, entryClass fr lc, fid, s.age⟩
          (s.fileTask cl { id := id, pc := jumpTarget o f.pc, ctx := f.ctx, launch := f.launch, fid := fid, stamp := ts, timer := l.gather,
                           body := .fresh root entry fr lc args }, none)
/-- The end of SPAWN and FPARK once their lanes have acted (R501): with no fault the sentence goes on; otherwise it ends, each faulting
lane performing its fault and every other lane its part as a sibling that goes on after the instruction. -/
def State.settleActed (s : State) (g : Group) (done : List Nat) (bad : List (Nat × FaultInfo)) : State :=
  if bad.isEmpty then s.goOn g
  else
    let act := g.fs.filter (fun f => !f.helper)
    if act.any (fun f => !s.noFill f.key) then s.keepDone g done
    else
      let pc := (g.fs.headD (Fibre.make 0 0 false 0 0 0 0 0 [] [] 0 0 0 0)).pc
      let e0 := (bad.map Prod.snd).headD ⟨0, 0, 0, 0⟩
      let ds := act.map (fun f => match bad.find? (fun x => x.1 == f.key) with
        | some x => (⟨f.key, x.2, false, f.pc⟩ : LaneDeliv)
        | none => ⟨f.key, e0, true, s.nextSlot f.ctx f.pc⟩)
      (s.deliverAll g.run.word pc (laneMask g.fs) (laneMask act) ds).keepHelpers g g.run.word
/-- What a lane's load gives: its owner's answer for a LOC 3 page, which is empty when a line held an uncorrectable error, otherwise a load. -/
def State.loadRecord (s : State) (f : Fibre) (m : MemLane) (reply : Option (List Byte × Nat)) : Acc :=
  match reply with
  | some (data, ts) => ⟨s, max f.stamp ts, data, data.isEmpty⟩
  | none => s.loadSpots (s.who f) (f.agent 0) m.spots
/-- A fault that a lane of the instruction found while it acted is kept until every lane has acted (R501). -/
def State.noteActed (s : State) (g : Group) (k : Nat) (x : FaultInfo) : State := match s.port g.core g.p with
  | some r => s.putPort g.core g.p { r with
      know := r.know ++ [(k, 2 ^ 64 + x.address.toNat, .fault x.tag (BitVec.ofNat 8 x.cause) (BitVec.ofNat 16 x.argx))] }
  | none => s
def State.actedFaults (s : State) (g : Group) : List (Nat × FaultInfo) := match s.port g.core g.p with
  | some r => r.know.filterMap (fun x => match x.2.2 with
    | .fault tag cause argx => if 2 ^ 64 ≤ x.2.1 then some (x.1, (⟨tag, cause.toNat, argx.toNat, BitVec.ofNat 64 x.2.1⟩ : FaultInfo)) else none
    | _ => none)
  | none => []
/-- The plan of one lane of SPAWN. -/
def State.spawnPlan (s : State) (o : JOp) (f : Fibre) : Plan :=
  if !f.guard o.guard then .skip
  else if f.helper then .zero
  else match s.preJ f 0x20F o 2 (some (o.dst.num, 2)) with
    | .hold => .hold
    | .wait => .wait
    | .fault x => .fault x
    | .go => match s.spawnCheck o f with
      | .error x => if s.roleWait (s.who f) x then .wait else .fault x
      | .ok m => .act m
/-- One lane of SPAWN: its record, then its future. -/
def spawnPerform (o : JOp) (g : Group) (s : State) (m : MemLane) (reply : Option (List Byte × Nat)) : Option State :=
  match s.fibre m.key with
  | none => some s
  | some f =>
    let r := s.loadRecord f m reply
    if r.err then some (r.s.stopFor f.ctx)
    else match (r.s.setStamp f.key r.ts).fibre f.key with
      | none => some r.s
      | some f => match (r.s.setStamp f.key r.ts).spawnLane o f (wordsOf r.data) with
        | (t, none) => some t
        | (t, some x) => some (t.noteActed g f.key x)
def execSpawn (o : JOp) (s : State) : Out :=
  match s.group with
  | none => .refused .noIssueGroup
  | some g => .next (s.memRun g
      { zero := fun f => f.spawned o 0 false, plan := fun s f => s.spawnPlan o f, joint := fun _ _ => [], wait := State.mustWait,
        act := fun s g acts todo => s.runHeld g { far := fun _ _ => false, parts := fun _ _ m => plainParts m, perform := fun s _ m r => spawnPerform o g s m r }
          acts todo (fun t g _ => t.settleActed g (g.fs.map Fibre.key) (t.actedFaults g)),
        again := fun s _ _ => s })

/-! ### FGET (R96, R99, R268) -/

/-- One lane's FGET: READY fills, PENDING performs AWAIT, FAILED BROKEN, RECLAIMED or stale FORMAT. -/
def State.fgetLane (s : State) (o : GOp) (f : Fibre) : State × Option FaultInfo :=
  let h := f.pair o.a
  let s := s.heapAccess f.key (handleAddr h) true
  match s.cellAt f.ctx h with
  | none => (s, some ⟨0x43, 2, 0, h⟩)
  | some (_, c) =>
    if c.state = 0 then (s, some ⟨2, 0, 0, h⟩)
    else if c.state = 3 then (s, some ⟨0x42, 1, c.failtag.toNat, h⟩)
    else
      let n := 2 ^ modBits o.mod 0 2
      let s := (s.setStamp f.key c.stamp).fillFor f.key 0x210 o.dst.num (c.result.take n)
      (s.modFibre f.key (fun x => { x with pc := s.nextSlot f.ctx f.pc }), none)
def execFget (o : GOp) (s : State) : Out :=
  runAlone 0x210 o s (fun s f => s.cellForm f.ctx (f.pair o.a)) (fun s f => s.fgetLane o f)

/-! ### FPARK (R97, R501) -/

/-- One lane's FPARK: the continuation's word first, then the future's cell; a null handle hands over at once. -/
def State.fparkLane (s : State) (o : GOp) (f : Fibre) : State × Option FaultInfo :=
  let k := f.pair o.a
  let h := f.pair o.b
  let (be, s) := s.blockWordErr f.ctx (handleAddr k)
  let s := s.heapAccess f.key (handleAddr k) false
  if be then (s, some (FaultInfo.damaged k 2))
  else match s.blockFault f.ctx k with
  | some x => (s, some x)
  | none =>
    let s := if h = 0 then s.stampAccess f.key else s.heapAccess f.key (handleAddr h) true
    let now (s : State) : State × Option FaultInfo := ((s.handOver f.ctx k 0 0).modFibre f.key (fun f => f.setDst o.dst 1), none)
    if h = 0 then now s
    else match s.cellAt f.ctx h with
    | none => (s, some ⟨0x43, 2, 0, h⟩)
    | some (i, c) =>
      if c.state ≠ 0 then now (s.setStamp f.key c.stamp)
      else match (s.heap f.ctx).takeNode (s.cdesc f.ctx) with
        | none => (s, some ⟨0x10, 7, 0, s.heapEnd f.ctx⟩)
        | some (n, hp) =>
          let s := (s.putHeap f.ctx hp).modCell f.ctx i (fun c => { c with waiters := ⟨n, k⟩ :: c.waiters })
          let s := match cellOfFid ((s.heap f.ctx).block (handleAddr k)).eff.fid with
            | some j => s.modCell f.ctx j (fun c => { c with parkedon := h })
            | none => s
          (s.modFibre f.key (fun f => f.setDst o.dst 0), none)
def execFpark (o : GOp) (s : State) : Out :=
  match s.group, gRow 0x211 with
  | some g, some r =>
    let acting (f : Fibre) : Bool := f.guard o.guard && !f.helper
    let zero : Fibre → Fibre := fun f => f.zeroDst o r
    let res := g.fs.map (fun f => (f, laneStep zero (acting f) ((s.preG f 0x211 o r .go).andThen fun _ =>
      if s.unplaced f.key then .wait else .go) f (fun _ =>
        match (s.blockForm o.a f).or (if f.pair o.b = 0 then none else s.cellForm f.ctx (f.pair o.b)) with
        | some x => .fault x f
        | none => .ok f)))
    if res.any (fun x => x.2.isFault) then .next (s.groupFault g g.run.word res zero)
    else match s.holdIf g res with
    | some t => .next t
    | none =>
      if g.fs.any (helperHolds o.guard zero) then .next (s.stalled g) else
      let t := s.putFibres ((g.fs.filter (fun f => f.helper && f.guard o.guard)).map zero)
      let a := actLanes (g.fs.filter acting) (fun t f => t.fparkLane o f) t
      if !a.bad.isEmpty && g.fs.any (fun f => !f.helper && !s.noFill f.key) then .next (s.held g)
      else .next (a.s.settleActed g [] a.bad)
  | _, _ => .refused .noIssueGroup

/-! ### References (R100, R101, R269) -/

/-- The newest node for a handle on a list, and the list without it. -/
def takeOwned (h : DWord) (l : List Node) : Option (Node × List Node) :=
  (l.find? (fun n => n.item == h)).map (fun n => (n, removeFirst (fun x => x.item == h) l))
/-- What a reference operation comes to at the cell: the state after it, or REFCOUNT's cause (R101). -/
inductive RefOut where
  | done (s : State)
  | refcount (s : State) (cause : Nat)
/-- Pushes a node for h onto the current frame's list. -/
def State.pushOwned (s : State) (f : Fibre) (node : Nat) (h : DWord) : State :=
  s.modFibre f.key (fun (f : Fibre) => f.setTop { f.top with owned := ⟨node, h⟩ :: f.top.owned })
def State.setOwned (s : State) (f : Fibre) (l : List Node) : State :=
  s.modFibre f.key (fun (f : Fibre) => f.setTop { f.top with owned := l })
/-- FREF's overflow fails a PENDING or READY future with 0x0044 (R101, R432). -/
def State.overflow (s : State) (ctx i : Nat) : State :=
  let c := (s.heap ctx).cell i
  if c.state ≤ 1 then (s.modCell ctx i (fun c => { c with state := 3, failtag := 0x44 })).handWaiters ctx i else s
/-- `fref` and `fref.own`: one reference more; the owned one has its node. -/
def State.frefLane (s : State) (f : Fibre) (h : DWord) (node : Option Nat) : RefOut :=
  match s.cellAt f.ctx h with
  | none => .refcount s 1
  | some (i, c) =>
    if 0xFFFFFFFF ≤ c.reach then .refcount (s.overflow f.ctx i) 2
    else
      let s := s.modCell f.ctx i (fun c => { c with reach := c.reach + 1 })
      .done (match node with
        | some n => s.pushOwned f n h
        | none => s)
/-- `funref`: the newest node for h goes, if there is one; one reference is released. -/
def State.funrefLane (s : State) (f : Fibre) (h : DWord) : RefOut :=
  match s.cellAt f.ctx h with
  | none => .refcount s 1
  | some _ =>
    let s := match takeOwned h f.top.owned with
      | some (n, l) => (s.setOwned f l).freeNodes f.ctx [n]
      | none => s
    let (s, more) := s.releaseRef f.ctx h
    .done (s.release f.ctx more)
/-- `fxfer.up`, `.out`, `.adopt`: the reference changes its holder, REACH stays. -/
def State.fxferLane (s : State) (f : Fibre) (h : DWord) (mode : Nat) (node : Option Nat) : RefOut :=
  match s.cellAt f.ctx h with
  | none => .refcount s 1
  | some _ =>
    if mode = 2 then .done (match node with
      | some n => s.pushOwned f n h
      | none => s)
    else match takeOwned h f.top.owned, f.chain with
      | none, _ => .refcount s 3
      | some (n, l), top :: caller :: r =>
        if mode = 0 then
          .done (s.modFibre f.key (fun (f : Fibre) => { f with chain := { top with owned := l } :: { caller with owned := n :: caller.owned } :: r }))
        else .done ((s.setOwned f l).freeNodes f.ctx [n])
      | some (n, l), _ => if mode = 0 then .refcount s 4 else .done ((s.setOwned f l).freeNodes f.ctx [n])
/-- REFCOUNT waits for the lane's next trailer; the earliest one in program order is kept (R269). -/
def Fibre.noteLate (f : Fibre) (cause : Nat) (h : DWord) (word : Word) (pc : DWord) : Fibre :=
  match f.late with
  | some _ => f
  | none => { f with late := some ⟨0x44, cause, 0, h⟩, latePc := pc, lateArg := word }
/-- A reference operation at its cell (R100): 0 `fref` and `fref.own`, 1 `funref`, then `fxfer.up`, `.out`, `.adopt`. -/
def State.refAct (s : State) (f : Fibre) (r : RefOp) : RefOut := match r.op with
  | 0 => s.frefLane f r.h r.node
  | 1 => s.funrefLane f r.h
  | n + 2 => s.fxferLane f r.h n r.node
/-- The number by which an FCANCEL waits among the reference operations. -/
def cancelOp : Nat := 16
/-- FCANCEL (R107): one atomic access. -/
def State.doCancel (s : State) (k : Nat) : State := match s.fibre k with
  | some f => (s.stampAccess k).cancel f.ctx f.launch
  | none => s
/-- Carries out a reference operation of fibre k: one atomic access at its cell (R94); REFCOUNT gives its node back. -/
def State.doRef (s : State) (k : Nat) (r : RefOp) : State :=
  if r.op = cancelOp then s.doCancel k else
  let s := s.heapAccess k (handleAddr r.h) true
  match s.fibre k with
  | none => s
  | some f => match s.refAct f r with
    | .done s => s
    | .refcount s c =>
      let s := match r.node with
        | some n => s.putHeap f.ctx ((s.heap f.ctx).freeNode n)
        | none => s
      s.modFibre k (fun f => f.noteLate c r.h r.word r.pc)
/-- The reference instructions that wait behind their fibres' earlier accesses take their places once those are placed (R94). -/
def State.settleRefs (s : State) : State :=
  ((s.fibres.map Prod.snd).filter (fun (f : Fibre) => !f.refs.isEmpty && !s.inFlight f.key && !s.pushPending f.key
      && !s.fills.any (fun x => x.fibre == f.key && x.vals.isEmpty))).foldl (fun (s : State) f =>
    f.refs.foldl (fun s r => s.doRef f.key r) (s.modFibre f.key (fun x => { x with refs := [] }))) s
/-- One lane of a reference instruction: its node first when it pushes one (PAGE cause 7 at issue), then its operation, or its place behind
the lane's accesses that are not yet placed. -/
def State.refLane (s : State) (f : Fibre) (op : Nat) (h : DWord) (word : Word) (needs : Bool) : Except FaultInfo State :=
  let take : Option (Option Nat × State) := if needs then (match (s.heap f.ctx).takeNode (s.cdesc f.ctx) with
    | some (n, hp) => some (some n, s.putHeap f.ctx hp)
    | none => none) else some (none, s)
  match take with
  | none => .error ⟨0x10, 7, 0, s.heapEnd f.ctx⟩
  | some (node, s) =>
    let r : RefOp := { op := op, h := h, node := node, word := word, pc := f.pc }
    .ok (if s.unplaced f.key then s.modFibre f.key (fun f => { f with refs := f.refs ++ [r] }) else s.doRef f.key r)
/-- A reference instruction: alignment, region and nodes at issue, for every lane; then the lanes in ascending order. -/
def runRef (op : Nat) (o : GOp) (s : State) (needs : Bool) (code : Nat) : Out :=
  match s.group, gRow op with
  | some g, some r =>
    let acting (f : Fibre) : Bool := f.guard o.guard && !f.helper
    let res := g.fs.map (fun f => (f, laneStep id (acting f) (s.preG f op o r .go) f (fun _ => match s.cellForm f.ctx (f.pair o.a) with
        | some x => .fault x f
        | none => .ok f)))
    if res.any (fun x => x.2.isFault) then .next (s.groupFault g g.run.word res id)
    else match s.holdIf g res with
    | some t => .next t
    | none =>
      let a := actLanes (g.fs.filter acting) (fun t f => match t.refLane f code (f.pair o.a) g.run.word needs with
        | .ok t => (t, none)
        | .error x => (t, some x)) s
      if a.bad.isEmpty then .next (a.s.goOn g)
      else .next (s.groupFault g g.run.word (faultsOf g.fs a.bad) id)
  | _, _ => .refused .noIssueGroup
def execFref (o : GOp) (s : State) : Out := runRef 0x212 o s (bitOf o.mod.toNat 0) 0
def execFunref (o : GOp) (s : State) : Out := runRef 0x213 o s false 1
def execFxfer (o : GOp) (s : State) : Out := runRef 0x214 o s (decide (modBits o.mod 0 2 = 2)) (modBits o.mod 0 2 + 2)

/-! ### Pins and cancel (R104, R107, R270) -/

def execFpin (o : GOp) (s : State) : Out :=
  runG 0x215 o s (fun _ f => .ok (if f.helper then f else f.setTop { f.top with pinned := true }))
def execFunpin (o : GOp) (s : State) : Out :=
  runG 0x216 o s (fun _ f => .ok (if f.helper then f else f.setTop { f.top with pinned := false }))
/-- FCANCEL holds no port (R271): behind an access of its lane that is not yet placed it takes its place after that (R137). -/
def execFcancel (o : GOp) (s : State) : Out :=
  runCrew 0x217 o s (preOwn 0x217 o) (fun _ _ f => .ok f)
    (fun t g => (g.fs.filter (fun f => f.guard o.guard && !f.helper)).foldl (fun t f =>
      if t.unplaced f.key then t.modFibre f.key (fun f => { f with refs := f.refs ++ [{ op := cancelOp, h := 0, node := none, word := 0, pc := f.pc }] })
      else t.doCancel f.key) t)

end Sys2Proof.Machine
end

