-- ==== Sys2Proof/Machine/MemOps.lean ====
section
/-! DEFINITION. Group 5, loads, stores and atomics (R154 to R161, R277 to R290, R466), and ATOMX of group 6 (R287, R467). -/

namespace Sys2Proof.Machine

/-! ### Loads (R277 to R280) -/

/-- The destination words of a load of n bytes: 8 and 16 bits are extended with zeros, or under `.s` with the top bit (R277). -/
def loadWords (n : Nat) (signExt : Bool) (data : List Byte) : List Word :=
  if n < 4 then [if signExt then wordOf (signed (8 * n) (ofBytes data)) else BitVec.ofNat 32 (ofBytes data)] else wordsOf data
/-- What a view page asks of an access of n bytes (R134, R282): ALIGN cause 1, then FORMAT cause 4. -/
def viewFault (va n : Nat) : Option FaultInfo :=
  if 4 ≤ n ∧ va % n ≠ 0 then some (FaultInfo.align va 1) else if n < 4 then some (FaultInfo.format va 4) else none
def ldCheck (s : State) (o : GOp) (f : Fibre) : Plan :=
  let a := effAddr f o
  let n := widthBytes o.mod
  match s.laneAccess f a n (min n 4) false with
  | .error x => .fault x
  | .ok l => match if anyView l then viewFault a.toNat n else none with
    | some x => .fault x
    | none => .act (s.laneOf f a l (.load n) o.dst.num (max 1 (n / 4)))
/-- A load's data reaches its registers; an uncorrectable read stops the context and leaves them empty (R455). -/
def loadInto (f : Fibre) (m : MemLane) (op : Nat) (loc2 : Bool) (r : Acc) (vals : List Byte → List Word) : State :=
  if r.err then (if f.top.addr = m.frame then (r.s.stopFor f.ctx).emptyFor f.key m.reg m.cnt else r.s.stopFor f.ctx)
  else ((r.s.setStamp f.key r.ts).fillInto f.key m.frame op m.reg (vals r.data) loc2)
def ldPerform (o : GOp) (s : State) (m : MemLane) (reply : Option (List Byte × Nat)) : Option State :=
  match s.fibre m.key with
  | none => some s
  | some f =>
    let n := widthBytes o.mod
    some (loadInto f m 0x280 (anyLoc2 m.spots) (s.loadRecord f m reply) (loadWords n (bitOf o.mod.toNat 3)))
def noJoint (_ : State) (_ : List MemLane) : List (Nat × FaultInfo) := []
def noAfter (s : State) (_ : Group) (_ : List MemLane) : State := s
/-- The accesses of an instruction that makes plain ones, none of them far. -/
def plainAct (perform : State → MemLane → Option (List Byte × Nat) → Option State) : MemAct :=
  { far := fun _ _ => false, parts := fun _ _ m => plainParts m, perform := fun s _ m r => perform s m r }
def ldAct (o : GOp) : MemAct := plainAct (ldPerform o)
def execLd (o : GOp) (s : State) : Out := runMem 0x280 o s (.ld o) false (fun s f => ldCheck s o f) noJoint (ldAct o) noAfter

/-- The absolute address of frame-relative byte n (R67). -/
def Frame.local (fr : Frame) (n : Nat) : DWord := BitVec.ofNat 64 (fr.addr + 64 + 32 * ceilDiv fr.f 256 + 32 * ceilDiv fr.f 8 + n)
/-- The checks of a frame-relative access of n bytes (R116, R278, R279). -/
def frameFault (fr : Frame) (off n : Nat) : Option FaultInfo :=
  if off % min n 4 ≠ 0 then some ⟨0x34, 1, 0, fr.local off⟩
  else if 32 * fr.l < off + n then some ⟨0x11, 8, 0, fr.local off⟩
  else none
def Frame.bytes (fr : Frame) (off n : Nat) : List Byte := (List.range n).map (fun i => fr.byte (off + i))
/-- LD in the frame-relative form: no coherent access; a long-latency producer (R279). -/
def execLdFrame (o : GOp) (s : State) : Out :=
  let n := widthBytes o.mod
  runCrew 0x282 o s (fun s _ r f => (s.preG f 0x282 o r .go).andThen fun _ => match frameFault f.top o.imm.toNat n with
      | some x => .fault x
      | none => .go)
    (fun _ _ f => .ok f)
    (fun t g => (g.fs.filter (fun f => f.guard o.guard)).foldl (fun t f =>
      if f.helper && (frameFault f.top o.imm.toNat n).isSome then t
      else (t.segTouch f.ctx f.core (f.top.local o.imm.toNat).toNat).fillFor f.key 0x282 o.dst.num (loadWords n (bitOf o.mod.toNat 3) (f.top.bytes o.imm.toNat n))) t)

/-- LDC (R280): the index's word in the constant window; PROT cause 11 beyond word 2,048, ALIGN cause 5. -/
def ldcCheck (s : State) (o : GOp) (f : Fibre) : Plan :=
  let n : Nat := 2 ^ modBits o.mod 0 2
  let i : Int := ((s.src f .int o.imm o.a).toNat : Int) + signed 20 o.imm.toNat
  let va := dwordOf ((winBase : Int) + 0x30000000 + 4 * i)
  if i < 0 ∨ 2048 < i + (n : Int) then .fault ⟨0x11, 11, 0, va⟩
  else if i % (n : Int) ≠ 0 then .fault ⟨0x34, 5, 0, va⟩
  else .act (s.laneOf f va [⟨.const (4 * i.toNat), va.toNat, 4 * n⟩] (.load (4 * n)) o.dst.num n)
def ldcAct : MemAct := plainAct fun s m r => match s.fibre m.key with
  | none => some s
  | some f => some (loadInto f m 0x284 false (s.loadRecord f m r) wordsOf)
def execLdc (o : GOp) (s : State) : Out := runMem 0x284 o s (.ldc o) false (fun s f => ldcCheck s o f) noJoint ldcAct noAfter

/-! ### Stores (R281 to R284) -/

/-- The generator of the issuing port's converter (R179, R180). -/
def State.gen (s : State) (ctx core p : Nat) : Word := (s.cc ctx core).gens.getD p 1
def State.setGen (s : State) (ctx core p : Nat) (x : Word) : State :=
  let c := s.cc ctx core
  s.putCC ctx core { c with gens := setAt c.gens p x }
/-- The words a store takes in one lane: consecutive registers, or the one source (R281). -/
def State.stWords (s : State) (f : Fibre) (o : GOp) (cnt : Nat) : List Word :=
  match o.b with
  | .v n _ => f.regsFrom n.toNat cnt
  | x => [s.src f .f32 o.imm x]
/-- The view page that an access lies on. -/
def spotView (l : List Spot) : Option (View × Nat) := l.findSome? (fun x => x.place.view?)
/-- The format a store writes at its places (R282): a view page's own under FMT 0. -/
def stFormat (o : GOp) (l : List Spot) : Nat := match spotView l with
  | some (v, _) => v.fmt
  | none => stFmt o.c
/-- How many registers a store takes there (R282). -/
def stCount (o : GOp) (l : List Spot) : Nat := if anyView l then max 1 (widthBytes o.mod / 4) else stRegs o.mod (stFmt o.c)
/-- What a view page, or a page without VIEW, refuses of a store's width and format (R134, R282). -/
def stBad (o : GOp) (a : DWord) (l : List Spot) : Option FaultInfo :=
  let fmt := stFmt o.c
  match spotView l with
  | some (v, _) => (viewFault a.toNat (widthBytes o.mod)).or (if fmt ≠ 0 ∧ fmt ≠ v.fmt then some (FaultInfo.format a.toNat 6) else none)
  | none => if 6 ≤ fmt then some (FaultInfo.format a.toNat 6) else none
/-- The stored bytes of element words in a format off the block formats (R175, R282, R283). -/
def stBytes (o : GOp) (fmt g lane : Nat) (ws : List Word) : List Byte :=
  if fmt = 0 then (bytesOfWords ws).take (widthBytes o.mod)
  else ((List.range ws.length).flatMap (fun j =>
    leBytes (if fmt = 1 then 4 else if fmt ≤ 3 then 2 else 1)
      (convertElem (ws.getD j 0).toNat fmt (stRnd o.c) (stSat o.c) ⟨g, lane, j⟩)))
/-- The number of the port whose turn it is. -/
def State.actorPort (s : State) : Nat := match s.actor with
  | .port _ p => p
  | _ => 0
/-- Registers that only the page shows to be taken: below F, of kind 0, and waited for (R200, R281, R444). -/
def stMore (s : State) (o : GOp) (f : Fibre) (cnt : Nat) (m : List Word → MemLane) : Plan :=
  match o.b with
  | .v n _ =>
    if f.top.f < n.toNat + cnt then .fault ⟨0x30, 5, n.toNat, 0⟩
    else if (f.firstEmpty n.toNat cnt).isSome then .hold
    else .act (m (s.stWords f o cnt))
  | _ => if 1 < cnt then .fault ⟨0x30, 2, 0x281, 0⟩ else .act (m (s.stWords f o cnt))
def stCheck (s : State) (o : GOp) (f : Fibre) : Plan :=
  let a := effAddr f o
  let n := widthBytes o.mod
  match s.laneAccess f a n (min n 4) true with
  | .error x => .fault x
  | .ok l =>
    -- Only an owner's answer shows whether a LOC 3 page is a view: until it has come, the checks alone are asked for (R372).
    if !(s.unknown f.key l).isEmpty then
      .act (s.laneOf f a l (.store (List.replicate n 0)) 0 0)
    else match stBad o a l with
    | some x => .fault x
    | none =>
      let g := (s.gen f.ctx f.core s.actorPort).toNat
      stMore s o f (stCount o l) (fun ws => { s.laneOf f a l (.store (stBytes o (stFormat o l) g f.lane ws)) 0 0 with words := ws, gen := g })

/-- Where a block of a view page lies: its owner for a LOC 3 page, the space and the address; on a LOC 3 page the address is the block's
place in the backing counted from the page's virtual address. `loc` is its page's LOC. -/
structure SxHome where
  owner : Option Nat
  sp : Space
  loc : Nat
  a : Nat
  deriving DecidableEq
/-- One element that an SX store supplies: its block's place, its virtual address, its number in the block, its value, the lane and the
element there. -/
structure SxElem where
  home : SxHome
  va : Nat
  fmt : Nat
  e : Nat
  x : Word
  lane : Nat
  j : Nat
  key : Nat
/-- The block elements that the lanes of a store supply (R284). -/
def sxElems (ms : List MemLane) : List SxElem :=
  let of (m : MemLane) (v : View) (off : Nat) (home : Nat → SxHome) : List SxElem :=
    if v.fmt ≤ 5 then [] else (List.range m.words.length).map (fun j =>
      let (pl, e) := v.place (off + 4 * j)
      ⟨home pl, m.va.toNat + 4 * j, v.fmt, e, m.words.getD j 0, m.lane, j, m.key⟩)
  ms.flatMap (fun m => match firstPlace m.spots with
    | .view v base _ off loc => of m v off (fun pl => ⟨none, locSpace loc, loc, base + pl⟩)
    | .peer owner (some (v, off)) => of m v off (fun pl => ⟨some owner, .dev, 3, m.va.toNat - off + pl⟩)
    | _ => [])
/-- The elements of one block among those supplied. -/
def sxBlock (es : List SxElem) (h : SxHome) : List SxElem := es.filter (fun e => e.home == h)
/-- Whether a block receives each of its 16 elements exactly once (R284). -/
def sxWhole (b : List SxElem) : Bool := (List.range 16).all (fun i => (b.filter (fun e => e.e == i)).length == 1)
/-- FORMAT cause 5 in every lane that supplies an element of a block that is not whole. -/
def stJoint (_ : State) (ms : List MemLane) : List (Nat × FaultInfo) :=
  let es := sxElems ms
  ms.filterMap (fun m =>
    if es.any (fun e => e.key == m.key && !sxWhole (sxBlock es e.home)) then some (m.key, FaultInfo.format m.va.toNat 5) else none)
/-- The blocks written at a lane: those whose lowest supplying lane it is. -/
def sxWrites (ms : List MemLane) (m : MemLane) : List (List SxElem) :=
  let es := sxElems ms
  let mine := es.filter (fun e => e.key == m.key && !es.any (fun x => x.home == e.home && decide (x.lane < e.lane)))
  (mine.filter (fun e => !mine.any (fun x => x.home == e.home && decide (x.j < e.j)))).map (fun e => sxBlock es e.home)
/-- The bytes of a block, encoded by R178. -/
def sxBytesOf (o : GOp) (g : Nat) (b : List SxElem) : List Byte :=
  let fmt := (b.map SxElem.fmt).headD 6
  leBytes (sxBytes fmt) (sxEncode fmt (stRnd o.c) ((List.range 16).map (fun i => match b.find? (fun e => e.e == i) with
    | some e => (e.x.toNat, ⟨g, e.lane, e.j⟩)
    | none => (0, ⟨0, 0, 0⟩))))
/-- An element's stand-in, for totality. -/
def SxElem.zero : SxElem := ⟨⟨none, .dev, 0, 0⟩, 0, 6, 0, 0, 0, 0, 0⟩
/-- The bytes that a store's lane carries. -/
def MemLane.bytes (m : MemLane) : List Byte := match m.acc with
  | .store d => d
  | _ => []
/-- The stores of a lane whose page a peer owns: plain bytes, or a view page's stored elements or blocks (R135, R284). -/
def stParts (o : GOp) (ms : List MemLane) (m : MemLane) : List MemPart :=
  match firstPlace m.spots with
  | .peer owner (some (v, off)) =>
    if v.fmt ≤ 5 then [⟨.peer owner (some (v, off)), m.va.toNat, .viewStore m.bytes⟩]
    else (sxWrites ms m).map (fun b =>
      ⟨.peer owner none, (b.headD SxElem.zero).va, .viewStore (sxBytesOf o m.gen b)⟩)
  | _ => plainParts m
def stPerform (o : GOp) (s : State) (ms : List MemLane) (m : MemLane) (reply : Option (List Byte × Nat)) : Option State :=
  match s.fibre m.key with
  | none => some s
  | some f => match reply with
    | some (_, ts) => some (s.setStamp f.key ts)
    | none => match firstPlace m.spots with
      | .view v base _ off loc =>
        if v.fmt ≤ 5 then
          let r := s.storeView { f.agent 1 with touch := v.touched m.va.toNat off m.bytes.length } m.va.toNat ⟨locSpace loc, base + (v.place off).1⟩ loc m.bytes
          some ((r.s.setStamp f.key r.ts).countLoc2 f.key m.spots)
        else some (((sxWrites ms m).foldl (fun s b =>
          let e := b.headD SxElem.zero
          match s.fibre m.key with
          | none => s
          | some f =>
            let r := s.storeView { f.agent 1 with touch := b.map (fun x => (x.va, 4)) } e.va ⟨e.home.sp, e.home.a⟩ e.home.loc (sxBytesOf o m.gen b)
            r.s.setStamp f.key r.ts) s).countLoc2 f.key m.spots)
      | _ =>
        let r := s.storeSpots (f.agent 1) m.spots m.bytes
        some ((r.s.setStamp f.key r.ts).countLoc2 f.key m.spots)
/-- A store that rounds stochastically steps its port's generator once (R283). -/
def stAfter (o : GOp) (s : State) (g : Group) (ms : List MemLane) : State :=
  match g.fs with
  | f :: _ => if stRnd o.c = 2 ∧ ms.any (fun m => decide (2 ≤ stFormat o m.spots)) then
      s.setGen f.ctx g.core g.p (genStep (s.gen f.ctx g.core g.p)) else s
  | [] => s
def stAct (o : GOp) : MemAct := { far := fun _ _ => false, parts := fun _ ms m => stParts o ms m, perform := stPerform o }
def execSt (o : GOp) (s : State) : Out := runMem 0x281 o s (.st o) true (fun s f => stCheck s o f) stJoint (stAct o) (stAfter o)
/-- ST in the frame-relative form (R279, R283): no coherent access. -/
def execStFrame (o : GOp) (s : State) : Out :=
  let n := widthBytes o.mod
  let fmt := stFmt o.c
  runCrew 0x283 o s (fun s _ r f => if f.helper then Pre.go else
      (s.preG f 0x283 o r .go).andThen fun _ => match frameFault f.top o.imm.toNat n with
      | some x => .fault x
      | none => .go)
    (fun s g f => .ok (if f.helper then f else
      f.setTop (f.top.setBytes o.imm.toNat (stBytes o fmt (s.gen f.ctx g.core g.p).toNat f.lane (s.stWords f o (stRegs o.mod fmt))))))
    (fun t g =>
      let acts := g.fs.filter (fun f => f.guard o.guard && !f.helper)
      let t := acts.foldl (fun (t : State) f => t.segTouch f.ctx f.core (f.top.local o.imm.toNat).toNat) t
      match acts with
      | f :: _ => if stRnd o.c = 2 ∧ 2 ≤ fmt then t.setGen f.ctx g.core g.p (genStep (t.gen f.ctx g.core g.p)) else t
      | [] => t)

/-! ### Atomics (R154, R155, R285 to R287, R466) -/

/-- The slice that is a line's home (R19), among the slices in service (R494): of as many consecutive lines as there are slices each has another one. -/
def State.homeSlice (s : State) (p : PA) : Nat :=
  let live := (List.range 384).filter (fun i => !s.mgmt.retslices.contains i)
  let k := live.length
  let n := p.a / 128
  live.getD ((Config.homeSpread (n / k) + n % k) % k) 0
/-- Its cluster. -/
def State.homeCluster (s : State) (p : PA) : Nat := s.homeSlice p / 48
/-- Whether the banker's queue of a cluster, or core's far-request buffer, takes another request (R155, R466): the queue while no
request waits before it, otherwise the core's 256 entries. -/
def State.farRoom (s : State) (cl core : Nat) : Option Bool :=
  let c := s.cluster cl
  if c.farBuf.isEmpty && decide (c.banker.length < 512) then some true
  else
    let used := (List.range 8).foldl (fun n i => n + ((s.cluster i).farBuf.filter (fun r => r.core == core)).length) 0
    if used < 256 then some false else none
/-- Sends a far request (R155); none when the core has no buffer entry free. -/
def State.sendFar (s : State) (cl : Nat) (r : FarReq) : Option State :=
  let c := s.cluster cl
  match s.farRoom cl r.core with
  | some true => some ((s.putCluster cl { c with banker := c.banker ++ [r] }).bump r.ctx r.core 6 1)
  | some false => some ((s.putCluster cl { c with farBuf := c.farBuf ++ [r] }).bump r.ctx r.core 6 1)
  | none => none
/-- A lane's read-modify-write, with the registers that take the old value. -/
def State.rmwLane (s : State) (f : Fibre) (d : Dst) (a : DWord) (l : List Spot) (r : Rmw) : MemLane :=
  match d with
  | .v x => s.laneOf f a l (.rmw r) x.toNat ((match r with
    | .custom _ _ => 8
    | r => rmwSize r) / 4)
  | _ => s.laneOf f a l (.rmw r) 0 0
/-- The checks of a read-modify-write of n bytes aligned to n: LOC 2 and its operators (PROT cause 10), view pages (FORMAT cause 4). -/
def rmwCheck (s : State) (d : Dst) (r : Rmw) (a : DWord) (f : Fibre) : Plan :=
  let n := rmwSize r
  match s.laneAccess f a n n true with
  | .error x => .fault x
  | .ok l =>
    let m := s.rmwLane f d a l r
    let refused := !s.loc2Takes r
    match firstPlace l with
    | .mem _ loc => if loc = 2 ∧ refused then .fault (FaultInfo.prot a.toNat 10) else .act m
    | .view _ _ _ _ loc => .fault (if loc = 2 ∧ refused then FaultInfo.prot a.toNat 10 else FaultInfo.format a.toNat 4)
    | _ => .act m
/-- A read-modify-write's old value reaches its registers, if it has any. -/
def rmwInto (f : Fibre) (m : MemLane) (op : Nat) (loc2 : Bool) (r : Acc) : State :=
  if m.cnt = 0 then (if r.err then r.s.stopFor f.ctx else r.s.setStamp f.key r.ts) else loadInto f m op loc2 r wordsOf
/-- A far request of a fibre; its registers become empty until the banker replies (R155). -/
def State.goFar (s : State) (i : Instr) (f : Fibre) (m : MemLane) (p : PA) (r : Rmw) : Option State :=
  let req : FarReq :=
    { fibre := f.key, lane := m.lane, grp := m.grp, task := f.task, instr := i, frame := m.frame, reg := m.reg, n := m.cnt, pa := p, va := m.va.toNat, rmw := r,
      ctx := f.ctx, launch := f.launch, core := f.core, stamp := f.stamp }
  (s.sendFar (s.homeCluster p) req).map (fun s => if f.top.addr = m.frame then s.emptyFor f.key m.reg m.cnt else s)
/-- One lane's atomic where R154 has it performed. -/
def atomPerform (op : Nat) (i : Instr) (s : State) (m : MemLane) (reply : Option (List Byte × Nat)) : Option State :=
  match s.fibre m.key, m.acc with
  | some f, .rmw r =>
    let n := rmwSize r
    match reply, firstPlace m.spots with
    | some (data, ts), _ => some (rmwInto f m op false ⟨s, ts, data, data.isEmpty⟩)
    | none, .mem p loc =>
      if loc = 2 then
        let old := s.rawRead p n
        some (rmwInto f m op true ⟨s.hostWrite p.a (rmwApply r old), f.stamp, old, false⟩)
      else if loc = 0 ∧ (s.lineOf p.line).excl ≠ some f.core then s.goFar i f m p r
      else some (rmwInto f m op false (s.rmwAt (f.agent 2) m.va.toNat p n (rmwApply r)))
    | none, _ => some s
  | _, _ => some s
/-- Whether that is at the bankers (R154). -/
def atomFar (s : State) (m : MemLane) : Bool := match s.fibre m.key, firstPlace m.spots with
  | some f, .mem p loc => loc == 0 && (s.lineOf p.line).excl != some f.core
  | _, _ => false
def atomAct (op : Nat) (i : Instr) : MemAct := { far := atomFar, parts := fun _ _ m => plainParts m, perform := fun s _ m r => atomPerform op i s m r }
/-- ATOM's request in one lane (R285). -/
def atomOf (s : State) (o : GOp) (wide : Bool) (f : Fibre) : Rmw :=
  let v (x : Src) : DWord := if wide then s.src64 f .int o.imm x else (s.src f .int o.imm x).setWidth 64
  .atom (BitVec.ofNat 3 o.mod.toNat) (bitOf o.mod.toNat 3) wide (v o.b) (if modBits o.mod 0 3 = 7 then v o.c else 0)
def execAtom (o : GOp) (s : State) : Out :=
  runMem 0x285 o s (.atom o) true (fun s f => rmwCheck s o.dst (atomOf s o false f) (effAddr f o) f) noJoint (atomAct 0x285 (.atom o)) noAfter
def execAtom64 (o : GOp) (s : State) : Out :=
  runMem 0x286 o s (.atom64 o) true (fun s f => rmwCheck s o.dst (atomOf s o true f) (effAddr f o) f) noJoint (atomAct 0x286 (.atom64 o)) noAfter
/-- Four registers as one 128-bit value. -/
def Fibre.quad (f : Fibre) (x : Src) : BitVec 128 := BitVec.ofNat 128 (ofBytes (bytesOfWords (f.regsFrom x.num 4)))
def execCas2 (o : GOp) (s : State) : Out :=
  runMem 0x287 o s (.cas2 o) true (fun s f => rmwCheck s o.dst (.cas2 (f.quad o.b) (f.quad o.c)) (effAddr f o) f) noJoint
    (atomAct 0x287 (.cas2 o)) noAfter

/-! ### RED (R158 to R160, R288) -/

/-- The identity partial of a line under a tag (R160). -/
def idPartial (tag core bank : Nat) : Partial :=
  { core := core, inSlot := false, bank := bank, mask := 0, elems := List.replicate (128 / redBytes tag) (BitVec.ofNat 64 (redIdentity tag)) }
/-- One update of core c's partial: its first-level partial, formed at identity when there is none (R160). A NaN
that RED.MIN.F32 or MAX meets on a NaN element so comes out as the steps through the identity give it, not as the far step does (DESIGN CHOICE, log 93:
R160's steps and R164's promise differ there). -/
def addPartial (tag core bank i : Nat) (v : Nat) (ps : List Partial) : List Partial :=
  let ps := if ps.any (fun p => p.core == core && !p.inSlot) then ps else ps ++ [idPartial tag core bank]
  ps.map (fun p => if p.core == core && !p.inSlot then
    { p with mask := p.mask ||| 1#32 <<< i, elems := setAt p.elems i (BitVec.ofNat 64 (redStep tag (p.elems.getD i 0).toNat v)) } else p)
/-- Whether a core's first-level cache holds a partial of a line (R160). -/
def Line.hasPartial (l : Line) (core : Nat) : Bool := match l.upd with
  | some (_, ps) => ps.any (fun p => p.core == core && !p.inSlot)
  | none => false
/-- A RED that enters U or updates the partial of its core, which takes room in the core's first-level cache (R159, R160). It is placed
beyond every lease granted before the line entered U, and no earlier than the line's updates so far (R162). -/
def State.redPartial (s : State) (f : Fibre) (va : Nat) (p : PA) (tag : Nat) (v : Nat) : State :=
  let s := { s with accesses := s.accesses + 1 }
  let l := s.lineOf p.line
  let s := s.putLine p.line { l with copies := l.copies.filter (fun (x : Copy) => x.core != f.core) }
  let (b, s) := if l.hasPartial f.core then (0, s) else s.makeRoom f.ctx f.core
  let l := s.lineOf p.line
  let ts := if l.upd.isNone then max f.stamp (l.rts + 1) else max f.stamp l.wts
  let ps := match l.upd with
    | some (_, ps) => ps
    | none => []
  let s := s.putLine p.line { l with
    upd := some (BitVec.ofNat 4 tag, addPartial tag f.core b (p.a % 128 / redBytes tag) v ps), wts := max l.wts ts, rts := max l.rts ts, excl := none }
  ((((s.bump f.ctx f.core 5 1).logAccess (f.agent 2) ts va (redBytes tag)).countAccess (f.agent 2) va p).wake p.line).setStamp f.key (s.pip ts)
/-- Whether a RED to a LOC 0 line is performed far: the line is not in U, and is poisoned or leased to another core beyond the fibre's stamp (R159,
R456). -/
def State.redFar (s : State) (f : Fibre) (p : PA) (tag : BitVec 4) : Bool :=
  let l := (match (s.lineOf p.line).upd with
    | some (op, _) => if op = tag then s else s.merge p.line 0
    | none => s).lineOf p.line
  l.upd.isNone && (l.poison || l.copies.any (fun x => x.core != f.core && decide (f.stamp ≤ x.rts)))
def redPerform (o : GOp) (s : State) (m : MemLane) (reply : Option (List Byte × Nat)) : Option State :=
  match s.fibre m.key, m.acc with
  | some f, .rmw (.red tag v) =>
    let n := redBytes tag.toNat
    match reply, firstPlace m.spots with
    | some (_, ts), _ => some (s.setStamp f.key ts)
    | none, .mem p loc =>
      if loc = 2 then some ((s.hostWrite p.a (rmwApply (.red tag v) (s.rawRead p n))).countLoc2 f.key m.spots)
      else if loc ≠ 0 then
        let r := s.rmwAt (f.agent 2) m.va.toNat p n (rmwApply (.red tag v))
        some (if r.err then r.s.stopFor f.ctx else r.s.setStamp f.key r.ts)
      else
        let s := match (s.lineOf p.line).upd with
          | some (op, _) => if op = tag then s else s.merge p.line 0
          | none => s
        if s.redFar f p tag then s.goFar (.red o) f m p (.red tag v)
        else some (s.redPartial f m.va.toNat p tag.toNat (v.toNat % 2 ^ (8 * n)))
    | none, _ => some s
  | _, _ => some s
def redAct (o : GOp) : MemAct :=
  { far := fun s m => match s.fibre m.key, m.acc, firstPlace m.spots with
      | some f, .rmw (.red tag _), .mem p loc => loc == 0 && s.redFar f p tag
      | _, _, _ => false,
    parts := fun _ _ m => plainParts m, perform := fun s _ m r => redPerform o s m r }
def execRed (o : GOp) (s : State) : Out :=
  runMem 0x288 o s (.red o) true (fun s f =>
      let tag := BitVec.ofNat 4 o.mod.toNat
      rmwCheck s o.dst (.red tag (if tag = 1 then s.src64 f .int o.imm o.b else (s.src f .int o.imm o.b).setWidth 64)) (effAddr f o) f) noJoint
    (redAct o) noAfter

/-! ### FENCE.SYS (R149, R290) -/

/-- FENCE.SYS: every lane's LOC 2 loads and read-modify-writes must have returned, lanes with LOC 2 stores wait for their zero-length reads;
then one access of each lane. -/
def execFenceSys (o : GOp) (s : State) : Out :=
  match s.group with
  | none => .refused .noIssueGroup
  | some g =>
    let acts := g.fs.filter (fun f => f.guard o.guard)
    if acts.any (fun f => s.unplaced f.key || s.fills.any (fun x => x.fibre == f.key && x.loc2)) then .next (s.held g)
    else match acts.filter (fun f => decide (0 < f.loc2)) with
    | [] => .next ((acts.foldl (fun s f => s.stampAccess f.key) s).goOn g)
    | l => .next (s.putPort g.core g.p { g.run with wait := .fence (l.map Fibre.key) })

end Sys2Proof.Machine
end

