-- ==== Sys2Proof/Machine/Sync.lean ====
section
/-! DEFINITION. FIFO, bank, write-pointer and time instructions (R118 to R130, R291, R292), team barriers (R293 to R299), stage rings
(R125 to R127, R300) and the system instructions (R307 to R309). -/

namespace Sys2Proof.Machine

/-! ### FIFO banks (R122 to R124) -/

/-- The bank a FIFO address names, or its fault (R122, R437): PROT causes 1, 11 and 3, then ALIGN cause 3. -/
def State.fifoBank (s : State) (f : Fibre) (a : DWord) : Except FaultInfo Nat :=
  let va := a.toNat
  let off := va - winBase - 0x20000000
  if 2 ^ 57 ≤ va then .error (FaultInfo.prot va 1)
  else if va < winBase + 0x20000000 ∨ 0x200000 ≤ off then .error (FaultInfo.prot va 11)
  else if (s.cc f.ctx f.core).role (off / 65536) ≠ 2 then .error (FaultInfo.prot va 3)
  else if off % 65536 ≠ 0 then .error (FaultInfo.align va 3)
  else .ok (off / 65536)
/-- Bytes of the stream from x on: byte x lies at bank offset x mod 65,536. -/
def State.ringRead (s : State) (ctx core bank x n : Nat) : List Byte :=
  (List.range n).map (fun i => s.sramByte (sramBase ctx core + 65536 * bank + (x + i) % 65536))
def State.ringWrite (s : State) (ctx core bank x : Nat) (bs : List Byte) : State :=
  { s with sram := (List.range bs.length).foldl (fun m i => Tab.set m (sramBase ctx core + 65536 * bank + (x + i) % 65536) (bs.getD i 0)) s.sram }
def State.putFifo (s : State) (ctx core bank : Nat) (q : Fifo) : State :=
  let c := s.cc ctx core
  s.putCC ctx core { c with fifos := Tab.set c.fifos bank q }
/-- The first stream byte that no reservation has taken. -/
def Fifo.next (q : Fifo) : Nat := match q.resv.getLast? with
  | some r => r.start + r.len
  | none => q.head
/-- Gives the value of a fed reservation to its fill, and joins its fibre's stamp after the FIFOWs it reads (R124). -/
def State.feedOne (s : State) (r : Resv) (vals : List Word) (ts : Nat) : State :=
  ({ s with fills := s.fills.map (fun (x : Fill) =>
      if x.fibre == r.fibre && x.frame == r.frame && x.reg == r.reg && x.vals.isEmpty then { x with vals := vals } else x) }).setStamp r.fibre ts
/-- Reservations whose last byte the tail has passed are filled, in order, and the head advances past them (R124). -/
def State.feedFuel : Nat → State → Nat → Nat → Nat → State
  | 0, s, _, _, _ => s
  | n + 1, s, ctx, core, bank =>
    let q := (s.cc ctx core).fifo bank
    match q.resv with
    | [] => s
    | r :: rest =>
      if r.start + r.len ≤ q.tail then
        let vals := wordsOf (s.ringRead ctx core bank r.start r.len)
        State.feedFuel n ((s.putFifo ctx core bank { q with head := r.start + r.len, resv := rest, read := max q.read (max r.stamp q.stamp + 1) }).feedOne r vals q.stamp) ctx core bank
      else s
def State.feed (s : State) (ctx core bank : Nat) : State := s.feedFuel (((s.cc ctx core).fifo bank).resv.length + 1) ctx core bank
/-- Whether a bank of the core is changing its role (R120). -/
def State.changingBank (s : State) (f : Fibre) : Option Nat := ((s.cc f.ctx f.core).changing).map Prod.fst
def fifoBytes (o : GOp) : Nat := 4 * 2 ^ modBits o.mod 0 2

/-- The issue of a FIFO instruction in one lane: operands, the bank, a role change waited for. -/
def preFifo (op : Nat) (o : GOp) (s : State) (r : GRow) (f : Fibre) : Pre :=
  (s.preG f op o r .go).andThen fun _ => match s.fifoBank f (f.pair o.a) with
    | .error x => if (s.changingBank f) == some ((f.pair o.a).toNat % 0x200000 / 65536) && x.cause == 3 && x.tag == 0x11 then .wait else .fault x
    | .ok b => if s.changingBank f == some b || s.unplaced f.key then .wait else .go
def lanesBank (s : State) (o : GOp) (f : Fibre) : Nat := match s.fifoBank f (f.pair o.a) with
  | .ok b => b
  | .error _ => 0
/-- Whether no other port of the core came before to wait for the same thing: a bank's role (its number), or room in a bank (32 + its number)
(R120, R123). -/
def State.firstAt (s : State) (g : Group) (q : Nat) : Bool :=
  (List.range 4).all (fun p => p == g.p || (match (s.port g.core p).bind PortRun.queued with
    | some (ks, t) => !ks.contains q || (match g.run.queued with
      | some (ks', t') => ks'.contains q && decide (t' ≤ t)
      | none => false)
    | none => true))
/-- The port waits there in its turn, from the moment it first came. -/
def State.heldAt (s : State) (g : Group) (qs : List Nat) : State := match s.port g.core g.p with
  | some r => (s.putPort g.core g.p { r with queued := some (r.queued.getD (qs, s.ticks)) }).held g
  | none => s
/-- FIFOW (R123): the group's bytes are appended all at once, or the port is held until there is room, ports in the order in which they came to each
bank. It is placed after the bank's earlier FIFOWs and after the FIFORs whose bytes it may overwrite (R137). -/
def execFifow (o : GOp) (s : State) : Out :=
  let n := fifoBytes o
  let acts (g : Group) : List Fibre := g.fs.filter (fun f => f.guard o.guard && !f.helper)
  let room (g : Group) : Bool := (acts g).all (fun f =>
    let b := lanesBank s o f
    let q := (s.cc f.ctx f.core).fifo b
    decide (q.tail - q.head + n * ((acts g).filter (fun x => lanesBank s o x == b)).length ≤ 65536))
  let banks (g : Group) : List Nat := ((acts g).map (lanesBank s o)).eraseDups
  let ready (g : Group) (r : GRow) : Bool := (acts g).all (fun f => decide (preFifo 0x28A o s r f = Pre.go))
  match s.group, gRow 0x28A with
  | some g, some r => if ready g r && !(room g && (banks g).all (fun b => s.firstAt g (32 + b))) then .next (s.heldAt g ((banks g).map (32 + ·))) else
   runCrew 0x28A o s (fun s _ r f => if f.helper then Pre.go else preFifo 0x28A o s r f)
    (fun _ _ f => .ok f)
    (fun t g => (acts g).foldl (fun t f =>
      let b := lanesBank s o f
      let q := (t.cc f.ctx f.core).fifo b
      let t := (t.setStamp f.key (max q.stamp q.read)).stampAccess f.key
      let ts := match t.fibre f.key with
        | some x => x.stamp
        | none => f.stamp
      let t := t.ringWrite f.ctx f.core b q.tail (bytesOfWords (f.regsFrom o.b.num (n / 4)))
      (t.putFifo f.ctx f.core b { q with tail := q.tail + n, stamp := max q.stamp ts }).feed f.ctx f.core b) t)
  | _, _ => .refused .noIssueGroup
/-- FIFOR (R124): each lane reserves its bytes; a helper lane reserves nothing and receives 0. -/
def execFifor (o : GOp) (s : State) : Out :=
  let n := fifoBytes o
  runCrew 0x28B o s (fun s _ r f => if f.helper then Pre.go else preFifo 0x28B o s r f)
    (fun _ _ f => .ok (if f.helper then f.setRegs o.dst.num (List.replicate (n / 4) 0) else f))
    (fun t g => (g.fs.filter (fun f => f.guard o.guard && !f.helper)).foldl (fun t f =>
      let b := lanesBank s o f
      let t := t.stampAccess f.key
      let q := (t.cc f.ctx f.core).fifo b
      let t := t.emptyFor f.key o.dst.num (n / 4)
      let x : Fill := { fibre := f.key, frame := f.top.addr, reg := o.dst.num, n := n / 4, vals := [], producer := 0x28B, loc2 := false }
      let rv : Resv := { start := q.next, len := n, fibre := f.key, frame := f.top.addr, reg := o.dst.num, stamp := f.stamp }
      (({ t with fills := t.fills ++ [x] } : State).putFifo f.ctx f.core b { q with resv := q.resv ++ [rv] }).feed f.ctx f.core b) t)

/-! ### BANKCFG (R118 to R120) -/

/-- A crew's role code in ROLE's ARGX (R450), and ROLE for a crew that may not issue. -/
def State.roleCode (s : State) (ck : Nat) : Nat := match s.crew ck with
  | some c => if c.team.isSome then c.role else 3
  | none => 3
def State.roleFault (s : State) (g : Group) (cause : Nat) (ok : Crew → Bool) : Pre := match s.crew g.run.crew with
  | some c => if ok c then .go else .fault ⟨0x33, cause, s.roleCode g.run.crew, 0⟩
  | none => .go
def Crew.isZero (c : Crew) : Bool := c.team.isSome && c.number == 0
/-- A bank in a new role (R119): undefined contents for scratchpad, an empty ring for FIFO; waiting FIFORs fill with 0. -/
def State.setRole (s : State) (ctx core bank role : Nat) : State :=
  let q := (s.cc ctx core).fifo bank
  let s := q.resv.foldl (fun s r => s.feedOne r (List.replicate (r.len / 4) 0) 0) s
  let (seed, s) := s.newSeed
  let base := sramBase ctx core + 65536 * bank
  let c := s.cc ctx core
  let s := s.putCC ctx core { c with
    roles := Tab.set c.roles bank role, fifos := Tab.set c.fifos bank { head := 0, tail := 0, stamp := 0, read := 0, resv := [] },
    seeds := Tab.set c.seeds bank seed, changing := none }
  { s with sram := s.sram.filter (fun x => !(decide (base ≤ x.1) && decide (x.1 < base + 65536))) }
/-- How many banks of a core are cache ways. -/
def CoreCtx.ways (c : CoreCtx) : Nat := ((List.range 32).filter (fun b => c.role b == 0)).length
def execBankcfg (o : GOp) (s : State) : Out :=
  match s.group, gRow 0x28C with
  | some g, some r =>
    let bank := o.imm.toNat % 32
    let role := o.imm.toNat / 32 % 4
    let acts := g.fs.filter (fun f => f.guard o.guard)
    let res := g.fs.map (fun f => (f, laneStep (fun f => f.zeroDst o r) (f.guard o.guard)
      (s.preG f 0x28C o r (s.roleFault g 1 Crew.isZero)) f (fun _ => .ok f)))
    let answer (s : State) (v : Word) : State := (s.putFibres (acts.map (fun f => f.setDst o.dst v))).goOn g
    if res.any (fun x => x.2.isFault) then .next (s.groupFault g g.run.word res (fun f => f.zeroDst o r))
    else match s.holdIf g res with
    | some t => .next t
    | none => match acts with
    | [] => .next (s.goOn g)
    | f :: _ =>
      let c := s.cc f.ctx f.core
      match g.run.wait, c.changing with
      | .role _, some _ => .next (s.held g)
      | _, some _ => .next (s.heldAt g [bank])
      | .role _, none => .next (answer s 0)
      | _, none =>
        if !s.firstAt g bank then .next (s.heldAt g [bank]) else
        let cur := c.role bank
        if cur = role then .next (answer s 0)
        else if cur = 0 ∧ c.ways ≤ 4 then .next (answer s 1)
        else if cur = 0 then
          .next (((s.flushWays f.core (· == bank)).putCC f.ctx f.core { c with changing := some (bank, role) }).putPort g.core g.p
            { g.run with wait := .role bank })
        else .next (answer (s.setRole f.ctx f.core bank role) 0)
  | _, _ => .refused .noIssueGroup

/-! ### Write pointers and time (R129, R130, R292) -/

/-- WPTR (R130): one load access; it follows the advance it reads. -/
def execWptr (o : GOp) (s : State) : Out :=
  let ch := o.imm.toNat % 16
  runCrew 0x28D o s (fun s _ r f => (s.preG f 0x28D o r .go).andThen fun _ => if s.unplaced f.key then .wait else .go)
    (fun _ _ f => .ok f)
    (fun t g => (g.fs.filter (fun f => f.guard o.guard)).foldl (fun t f =>
      let c := t.chan f.ctx (clusterOf f.core) ch
      ((t.setStamp f.key c.ptrStamp).stampAccess f.key).fillFor f.key 0x28D o.dst.num [loWord c.pointer, hiWord c.pointer]) t)
def Fibre.addCond (f : Fibre) (c : Cond) : Fibre := { f with conds := f.conds ++ [c] }
def execWpwait (o : GOp) (s : State) : Out := runG 0x28E o s (fun s f => .ok (f.addCond (.wptr (o.imm.toNat % 16) (f.pair o.a) (s.origin f))))
def execTimew (o : GOp) (s : State) : Out := runG 0x307 o s (fun _ f => .ok (f.addCond (.time (f.pair o.a).toNat)))

/-! ### Team barriers (R293 to R297) -/

def barNo (o : GOp) : Nat := o.imm.toNat % 16
def State.groupTeam (s : State) (g : Group) : Option (Nat × Team × Crew) := match s.crew g.run.crew with
  | some c => (match c.team with
    | some tk => (s.team tk).map (fun t => (tk, t, c))
    | none => none)
  | none => none
def Crew.inTeam (c : Crew) : Bool := c.team.isSome
/-- FORMAT cause 7 of a barrier's state. -/
def barFormat : Pre := .fault ⟨0x43, 7, 0, 0⟩
/-- Whether any fibre of the team past its trailer, or its sequencer in an XBARW, waits on a barrier for a phase that is not past (R294,
R336). -/
def State.barWaited (s : State) (t : Team) (n : Nat) : Bool :=
  (!t.seqr.halt && (t.bar n).init && (match s.instrAt t.ctx t.seqr.spc with
    | some (.xbarw m) => m.toNat == n && !phasePast (t.bar n).phase (t.seqr.tokens.getD n 0)
    | _ => false)) ||
  (s.teamFibres t).any (fun f => !s.onPort f.key && f.conds.any (fun c => match c with
    | .bar m tok _ => m == n && !phasePast (t.bar n).phase tok
    | _ => false))
/-- What BARINIT refuses (R294). -/
def State.barinitBad (s : State) (t : Team) (n mask x : Nat) : Bool :=
  let crews := match s.launch t.ctx t.launch with
    | some l => l.crewsPer
    | none => 0
  decide (1023 < x) || decide (2 ^ crews ≤ mask) || (mask == 0 && x == 0)
    || decide ((t.bar n).count ≠ 0) || s.barWaited t n
/-- BARINIT (R294): once per issue, x from the lowest passing lane. -/
def execBarinit (o : GOp) (s : State) : Out :=
  let n := barNo o
  let mask := o.imm.toNat / 16
  let lead (g : Group) : Option Fibre := g.fs.find? (fun f => f.guard o.guard)
  let x (s : State) (g : Group) : Nat := match lead g with
    | some f => (s.src f .int o.imm o.a).toNat
    | none => 0
  runCrew 0x300 o s
    (fun s g r f => ((if (lead g).map Fibre.key == some f.key then s.preG f 0x300 o r (s.roleFault g 2 Crew.isZero)
        else (s.srcEnc f 0x300 1 o.a).andThen fun _ => s.roleFault g 2 Crew.isZero) : Pre).andThen fun _ =>
      match s.groupTeam g with
      | some (_, t, _) => if s.barinitBad t n mask (x s g) then barFormat else .go
      | none => .go)
    (fun _ _ f => .ok f)
    (fun s g => match s.groupTeam g, lead g with
      | some (tk, t, _), some _ =>
        let b := t.bar n
        s.putTeam tk (t.putBar n { b with crews := BitVec.ofNat 16 mask, expect := 32 * popcount mask + x s g, count := 0, broken := false,
                                           init := true, flags := [], cur := 0 })
      | _, _ => s)

/-- One lane's arrival (R295): none while its flag stands; its token is the phase it arrives in. -/
def State.arriveLane (s : State) (tk n : Nat) (f : Fibre) : Option (State × Word) :=
  match s.team tk with
  | none => none
  | some t =>
    let b := t.bar n
    if b.flags.contains f.key then none
    else
      let s := s.putTeam tk (t.putBar n { b with flags := f.key :: b.flags })
      some (s.arriveBar tk n f.stamp, b.phase)
/-- The lanes arrive in ascending order; one whose flag stands holds the port for itself and the later lanes. -/
def arriveLanes (tk n : Nat) (write : Word → Fibre → Fibre) : List Nat → State × List Nat → State × List Nat × Bool
  | [], r => (r.1, r.2, true)
  | k :: rest, r => match r.1.fibre k with
    | none => arriveLanes tk n write rest r
    | some f => match r.1.arriveLane tk n f with
      | none => (r.1, r.2, false)
      | some (s, tok) => arriveLanes tk n write rest (s.modFibre k (write tok), r.2 ++ [k])
/-- BARA and BARAW (R295). -/
def runArrive (op : Nat) (o : GOp) (s : State) (write : Word → Fibre → Fibre) : Out :=
  match s.group, gRow op with
  | some g, some r =>
    let n := barNo o
    let left := g.fs.filter (fun f => f.guard o.guard && !g.run.done.contains f.key)
    let res := g.fs.map (fun f => (f, laneStep id (left.any (fun x => x.key == f.key))
      ((s.preG f op o r (s.roleFault g 2 Crew.inTeam)).andThen fun _ => match s.groupTeam g with
        | some (_, t, c) => if (t.bar n).init && (t.bar n).crews.getLsbD c.number then (if s.unplaced f.key then .wait else .go) else barFormat
        | none => .go) f (fun _ => .ok f)))
    if res.any (fun x => x.2.isFault) then .next (s.groupFault g g.run.word res id)
    else match s.holdIf g res with
    | some t => .next t
    | none => match s.groupTeam g with
    | none => .next (s.goOn g)
    | some (tk, _, _) =>
      let (t, done, all) := arriveLanes tk n write (left.map Fibre.key) (s, g.run.done)
      if all then .next (t.goOn g) else .next ((t.putPort g.core g.p { g.run with done := done }).held g)
  | _, _ => .refused .noIssueGroup
def execBara (o : GOp) (s : State) : Out := runArrive 0x301 o s (fun tok f => f.setDst o.dst tok)
def execBaraw (o : GOp) (s : State) : Out := runArrive 0x303 o s (fun tok f => f.addCond (.bar (barNo o) tok (s.origin f)))
/-- BARW (R296): any fibre of the team may wait. -/
def execBarw (o : GOp) (s : State) : Out :=
  runGRole 0x302 o s (fun s g => s.roleFault g 2 Crew.inTeam) (fun s f => .ok (f.addCond (.bar (barNo o) (s.src f .int o.imm o.a) (s.origin f))))

/-! ### Stage rings (R126, R127, R300) -/

/-- The slot a lane names in a declared ring, or FORMAT cause 8. -/
def State.ringSlot (s : State) (g : Group) (o : GOp) (f : Fibre) : Pre :=
  match s.groupTeam g with
  | none => .go
  | some (_, t, _) =>
    let r := t.rings.getD (modBits o.mod 0 3) ⟨0, 0, 0⟩
    if (s.src f .int o.imm o.a).toNat < r.count then .go else .fault ⟨0x43, 8, 0, 0⟩
def preRing (op : Nat) (o : GOp) (s : State) (g : Group) (r : GRow) (f : Fibre) : Pre :=
  (s.preG f op o r (s.roleFault g 3 Crew.inTeam)).andThen fun _ => s.ringSlot g o f
def execRwait (o : GOp) (s : State) : Out :=
  runCrew 0x304 o s (preRing 0x304 o) (fun s _ f =>
    .ok (f.addCond (.ring (modBits o.mod 0 3) (s.src f .int o.imm o.a).toNat (bitOf o.mod.toNat 3)))) (fun t _ => t)
/-- RPOST: each distinct slot named flips once; the flip follows the issuing lanes' accesses. -/
def execRpost (o : GOp) (s : State) : Out :=
  runCrew 0x305 o s (fun s g r f => (preRing 0x305 o s g r f).andThen fun _ => if s.unplaced f.key then .wait else .go) (fun _ _ f => .ok f)
    (fun t g => match t.groupTeam g with
      | none => t
      | some (tk, tm, _) =>
        let acts := g.fs.filter (fun f => f.guard o.guard)
        let ring := modBits o.mod 0 3
        let slots := (acts.map (fun f => (s.src f .int o.imm o.a).toNat)).eraseDups
        let phases := slots.foldl (fun ps i => if ps.contains (ring, i) then ps.filter (· != (ring, i)) else (ring, i) :: ps) tm.phases
        if acts.isEmpty then t
        else (t.putTeam tk { tm with phases := phases, phaseStamp := max tm.phaseStamp (maxOf (acts.map Fibre.stamp)) }).judgeAll)

/-! ### System instructions (R307 to R309) -/

def execSrdcnt (o : GOp) (s : State) : Out :=
  runFill 0x308 o s 2 (fun s f =>
    let c := (s.cc f.ctx f.core).counts.getD (o.imm.toNat % 8) 0
    [BitVec.ofNat 32 c, BitVec.ofNat 32 (c / 2 ^ 32)])
/-- Appends an entry to the trace buffer (R412). -/
def State.traceWrite (s : State) (f : Fibre) (x : Word) : State :=
  let n := s.mgmt.traceN
  let e := leBytes 16 (packNat [(32, x.toNat), (16, f.ctx), (9, f.core), (7, 0), (64, s.time)])
  { s with mgmt := { s.mgmt with trace := Tab.set s.mgmt.trace (n % 2048) e, traceN := n + 1 } }
/-- PRIV cause 1: the fibre's launch is not privileged (R308). -/
def State.privFault (s : State) (f : Fibre) : Pre := match s.launch f.ctx f.launch with
  | some l => if l.priv then .go else .fault ⟨0x32, 1, 0, 0⟩
  | none => .fault ⟨0x32, 1, 0, 0⟩
/-- MOVSW (R308): STAMP, TRACE, SRGEN. -/
def execMovsw (o : GOp) (s : State) : Out :=
  let sel := o.imm.toNat % 32
  runCrew 0x309 o s (fun s _ r f => s.preG f 0x309 o r (s.privFault f))
    (fun s _ f => .ok (if sel = 10 then { f with stamp := max f.stamp (s.src64 f .int o.imm o.a).toNat } else f))
    (fun t g => (g.fs.filter (fun f => f.guard o.guard)).foldl (fun t f =>
      let x := s.src f .int o.imm o.a
      if sel = 16 then (if f.helper then t else t.traceWrite f x) else if sel = 17 then t.setGen f.ctx g.core g.p (if x = 0 then 1 else x) else t) t)
/-- The scrub status word of a core (R309); DONE and FAIL of a core that no scrub has covered yet are 0 (log 8). -/
def State.scrubWord (s : State) (core : Nat) : Word :=
  match Tab.get s.scrub core with
  | some (fail, n) => BitVec.ofNat 32 (1 + 2 * fail.toNat + 65536 * (n % 65536))
  | none => BitVec.ofNat 32 (65536 * (Config.noScrubSeq core % 65536))
def execScrubq (o : GOp) (s : State) : Out := runG 0x30A o s (fun s f => .ok (f.setDst o.dst (s.scrubWord f.core)))

end Sys2Proof.Machine
end

