-- ==== Sys2Proof/Machine/Engines.lean ====
section
/-! DEFINITION. PUSH and the engine queues (R301 to R306, R450, R451), the copy channels (R128 to R131, R151, R152, R459 to R464) and
the completion of commands (R298, R304, R472, R503). -/

namespace Sys2Proof.Machine

/-! ### Partitions (R358, R409) -/

/-- PSZ of the partition that begins at a cluster; 0xF none. -/
def State.psz (s : State) (cl : Nat) : Nat := bitsOf s.mgmt.layout.toNat (4 * cl) 4
/-- The first cluster of the partition that holds a cluster. -/
def State.partOf (s : State) (cl : Nat) : Nat :=
  ((List.range 8).find? (fun p => decide (s.psz p ≤ 3) && decide (p ≤ cl) && decide (cl < p + 2 ^ s.psz p))).getD 0
/-- The context whose turn it is on a cluster; none while a switch is under way. -/
def State.turnOf (s : State) (cl : Nat) : Option Nat :=
  let p := s.part (s.partOf cl)
  if p.switching then none else p.cur
def State.onTurn (s : State) (ctx cl : Nat) : Bool := s.turnOf cl == some ctx

/-! ### Commands -/

/-- The 512 bits of a command. -/
def cmdBits (ws : List Word) : Nat := ofBytes (bytesOfWords ws)
def Cmd.bits (c : Cmd) : Nat := cmdBits c.words
def Cmd.field (c : Cmd) (lo n : Nat) : Nat := bitsOf c.bits lo n
def Cmd.op (c : Cmd) : Nat := c.field 0 4
def Cmd.bind (c : Cmd) : Bool := bitOf c.bits 8
def Cmd.bar (c : Cmd) : Nat := c.field 9 4
def Cmd.cpl (c : Cmd) : Bool := bitOf c.bits 13
def Cmd.cval (c : Cmd) : DWord := BitVec.ofNat 64 (c.field 384 64)
def Cmd.caddr (c : Cmd) : DWord := BitVec.ofNat 64 (c.field 448 64)
def Cmd.src (c : Cmd) : Nat := c.field 64 64
def Cmd.dst (c : Cmd) : Nat := c.field 128 64
def Cmd.who (c : Cmd) : Who := ⟨c.ctx, c.launch, c.core, c.team⟩

/-- Whether an address lies in the own or the cluster scratchpad window (R111). -/
def inScratch (a : Nat) : Bool :=
  (decide (winBase ≤ a) && decide (a < winBase + 0x200000)) || (decide (winBase + 0x10000000 ≤ a) && decide (a < winBase + 0x16000000))
/-- Whether a completion address lies on a view, frame-heap or future-cell page (R304): an address in or above the window region, or outside the 57 bits,
names no page (R109), and its fault is found at the write (R503). A LOC 3 page is judged by its owner then (log 88). -/
def State.caddrBad (s : State) (ctx a : Nat) : Bool :=
  decide (a < winBase) && ((s.cdesc ctx).inRegion a || (match s.walk ctx a with
    | .ok lf => lf.fh || lf.fc || lf.view.isSome
    | .error _ => false))
/-- The header and completion checks (R303, R304): pairs of a field's lowest bit and whether it fails. -/
def State.headChecks (s : State) (ctx : Nat) (team : Option Team) (q v : Nat) : List (Nat × Bool) :=
  let b (lo n : Nat) : Nat := bitsOf v lo n
  let bind := bitOf v 8
  let cpl := bitOf v 13
  [(4, b 4 4 != 0),
   (8, bind && (match team with
      | some t => !(t.bar (b 9 4)).init
      | none => true)),
   (9, !bind && b 9 4 != 0), (14, q != 16 && b 14 2 != 0), (16, b 16 16 != 0),
   (448, if cpl then b 448 3 != 0 || s.caddrBad ctx (b 448 64) else b 448 64 != 0)]
/-- The checks of a copy command (R305). -/
def copyChecks (v : Nat) : List (Nat × Bool) :=
  let b (lo n : Nat) : Nat := bitsOf v lo n
  let op := b 0 4
  let s1 := inScratch (b 64 64)
  let s2 := inScratch (b 128 64)
  let odd (x : Nat) : Bool := x % 4 != 0
  (if op = 0 then [(32, b 32 32 == 0 || ((s1 || s2) && odd (b 32 32))), (192, b 192 32 != 0), (224, b 224 32 != 0), (256, b 256 128 != 0)]
   else if op = 1 then
     [(32, b 32 16 == 0 || ((s1 || s2) && odd (b 32 16))), (48, b 48 16 == 0), (192, s1 && odd (b 192 32)), (224, s2 && odd (b 224 32)),
      (256, b 256 128 != 0)]
   else if op ≤ 3 then
     [(32, decide (4 < b 32 3) || ((s1 || s2) && decide (b 32 3 < 2))), (35, b 35 5 != 0), (40, b 40 24 == 0),
      (192, inScratch (b 192 64) && odd (b 192 64)), (256, decide (1 < b 256 2)), (258, b 258 126 != 0)]
   else if op = 4 then [(32, b 32 32 == 0 || (s2 && odd (b 32 32))), (64, b 64 64 != 0), (192, b 192 32 != 0), (224, b 224 32 != 0)]
   else [(0, true)])
  ++ [(64, s1 && odd (b 64 64)), (128, s2 && odd (b 128 64))]
/-- The checks of a stream command. -/
def streamChecks (v : Nat) : List (Nat × Bool) :=
  let b (lo n : Nat) : Nat := bitsOf v lo n
  let rb := b 32 16
  let rows := b 48 16
  [(0, b 0 4 != 0), (32, rb % 16 != 0 || decide (rb < 16) || decide (16384 < rb)),
   (48, decide (rows < 1) || decide (1024 < rows) || decide (16384 < rb * rows)), (160, b 160 32 != 0), (256, b 256 16 == 0), (272, b 272 112 != 0)]
/-- Whether a device has a route from this one (R451). -/
def State.routed (s : State) (dev : Nat) : Bool := decide (dev < 127) && !s.link.unreach.contains dev
/-- The checks of a link command. -/
def State.linkChecks (s : State) (v : Nat) : List (Nat × Bool) :=
  let b (lo n : Nat) : Nat := bitsOf v lo n
  let op := b 0 4
  let z (on : Bool) (lo n : Nat) : Nat × Bool := (lo, on && b lo n != 0)
  let toClu := op == 3 || op == 4
  [(0, decide (4 < op)),
   (32, if op ≤ 1 then b 32 32 == 0 else if op = 2 then decide (12 < b 32 4) else b 32 32 != 0), z (op == 2) 36 28,
   (64, if op = 2 then b 64 64 != 0 else op == 3 && b 64 6 != 0), z (op != 2 && op != 3) 128 64,
   (192, !(op == 1 && b 192 7 == 0x7F) && !s.routed (b 192 7)),
   z (!toClu) 199 3, (202, b 202 6 != 0), z (decide (1 < op)) 208 16, z (!toClu) 224 16, (240, b 240 16 != 0),
   z (op != 2 && op != 4) 256 32, z (!(op == 2 && b 32 4 == 1)) 288 32, (320, b 320 64 != 0)]
/-- The index of the word that holds the lowest failing field (R451). -/
def firstFail (l : List (Nat × Bool)) : Option Nat :=
  let bad := (l.filter Prod.snd).map Prod.fst
  match bad with
  | [] => none
  | x :: r => some (r.foldl min x / 32)
/-- What the layout of a command breaks (R451): FORMAT cause 9, then for a transfer the handle's form (cause 1, R306) and a future's
fibre (cause 11, R106). -/
def State.cmdFault (s : State) (f : Fibre) (team : Option Team) (q : Nat) (ws : List Word) : Option FaultInfo :=
  let v := cmdBits ws
  match firstFail (s.headChecks f.ctx team q v ++ (if q < 16 then copyChecks v else if q = 16 then s.linkChecks v else streamChecks v)) with
  | some i => some ⟨0x43, 9, i, 0⟩
  | none =>
    if q = 16 ∧ bitsOf v 0 4 = 4 then
      let h := BitVec.ofNat 64 (bitsOf v 64 64)
      if !s.blockFormOk f.ctx h then some ⟨0x43, 1, 0, h⟩
      else
        let b := (s.heap f.ctx).block (handleAddr h)
        if b.state = 0 ∧ b.gen = handleGen h ∧ (cellOfFid b.eff.fid).isSome then some ⟨0x43, 11, 0, h⟩ else none
    else none
/-- ROLE cause 4 by the crew's role alone, and by the command's kind and destination (R303, R450). -/
def roleBars (c : Crew) (q : Nat) : Bool := c.team.isSome && (c.role == 0 || decide (16 < q) || (c.role == 1 && decide (16 ≤ q)))
def roleBarsCmd (c : Crew) (q v : Nat) : Bool :=
  c.team.isSome && (if q < 16 then (if c.role = 1 then !inScratch (bitsOf v 128 64) else inScratch (bitsOf v 128 64)) else bitsOf v 0 4 != 0)

/-! ### Engine accesses -/

/-- The claims' owner key of a channel. -/
def chanKey (ctx cl ch : Nat) : Nat := (ctx * 8 + cl) * 16 + ch
/-- An engine as an agent of the memory order: KIND 3, REQ its channel (R417, log 4), FOUND 1. -/
def engAgent (ts ctx req : Nat) : Agent :=
  { ts := ts, core := none, ctx := ctx, kind := 3, req := req, found := 1, host := false, peer := none, touch := [] }
/-- The view page of this device's memory that an address lies on: its leaf (R132, R135). -/
def State.viewLeaf (s : State) (w : Who) (va : Nat) (wr : Bool) : Option (View × Leaf) :=
  if winBase ≤ va then none
  else match s.resolveLeaf w va wr with
    | .ok (lf, _) => if lf.loc ≤ 2 then lf.view.map (fun v => (v, lf)) else none
    | .error _ => none
/-- Where an engine's access of n bytes goes (R135, R461): a view page gives its backing in stored form, whose granules are those of the stored
bytes; an address outside the 57 bits, a window that is no scratchpad and a cluster window that is not the command's are PROT cause 12 (log 25). -/
def State.enginePlace (s : State) (w : Who) (va n : Nat) (wr : Bool) : Except FaultInfo Place :=
  match s.viewLeaf w va wr with
  | some (v, lf) =>
    let p : PA := ⟨locSpace lf.loc, lf.base + va % lf.size⟩
    if viewBacking v.fmt lf.size < va % lf.size + n then .error (FaultInfo.format va 4)
    else if lf.loc = 0 ∧ s.owns w.ctx p.a n = false then .error (FaultInfo.prot va 9)
    else .ok (.mem p lf.loc)
  | none => match s.resolve w (BitVec.ofNat 64 va) 4 1 wr with
    | .error x => .error (if x.tag = 0x11 ∧ (x.cause = 1 ∨ x.cause = 4 ∨ x.cause = 11) then FaultInfo.prot va 12 else x)
    | .ok (.const _) => .error (FaultInfo.prot va 12)
    | .ok p => .ok p
/-- An engine's or sequencer's read of a placed piece. LOC 2 memory too is read in the order (R136): what the device holds dirty of it has
gone to the host. -/
def State.engLoad (s : State) (ag : Agent) (va : Nat) (p : PA) (n : Nat) : Acc :=
  let w := s.walkLoads ag va
  let r := w.s.readAt { ag with ts := w.ts } va p n
  { r with err := r.err || w.err }
/-- Its write of stretches of one line, one access (R461): each an offset from p and its bytes; to LOC 2 memory posted writes, in the order (R136,
R305). -/
def State.engStore (s : State) (ag : Agent) (va : Nat) (p : PA) (loc : Nat) (bs : List (Nat × List Byte)) : Acc :=
  let s := ({ s with accesses := s.accesses + 1 }).merge p.line ag.found
  let ts := max ag.ts ((s.lineOf p.line).rts + 1)
  let s := bs.foldl (fun (s : State) x => s.writeLine ag { p with a := p.a + x.1 } ts x.2) s
  let s := (s.logAccess { ag with touch := bs.map (fun x => (va + x.1, x.2.length)) } ts va 0).countAccess ag va p
  ⟨if loc = 2 then bs.foldl (fun (s : State) x => s.hostWrite (p.a + x.1) x.2) s else s, s.pip ts, [], false⟩
/-- Bytes of the output over the stretches that they go to, each as its offset from `at_` (R461). -/
def overParts (at_ : Nat) : List (Nat × Nat) → List Byte → List (Nat × List Byte)
  | [], _ => []
  | x :: r, bs => (x.1 - at_, bs.take x.2) :: overParts at_ r (bs.drop x.2)
/-- Whether a line is claimed by an agent other than the channel of a key (R151). -/
def State.claimedElse (s : State) (key : Nat) (p : PA) : Bool := s.claims.any (fun c => c.1 == p.line && c.2 != key)
/-- Whether the channel of a key is first among those that claim a line. -/
def State.claimFirst (s : State) (key : Nat) (p : PA) : Bool := match s.claims.find? (fun c => c.1 == p.line) with
  | some c => c.2 == key
  | none => true
/-- An engine's read of one piece within a line. -/
inductive EngRead where
  | data (a : Acc)
  | fault (x : FaultInfo)
  | wait
  | peer (owner : Nat)
def State.engRead (s : State) (w : Who) (ag : Agent) (key va n : Nat) : EngRead :=
  if s.walkWaits w.ctx va then .wait
  else match s.enginePlace w va n false with
  | .error x => if s.roleWait w x then .wait else .fault x
  | .ok (.mem p _) => if s.claimedElse key p || s.bankBusy p then .wait else .data (s.engLoad ag va p n)
  | .ok (.region a p) =>
    let r := s.walkLoads ag va
    .data (r.s.readRegion { ag with ts := r.ts } va a p n)
  | .ok (.peer o _) => .peer o
  | .ok _ => .fault (FaultInfo.prot va 12)
/-- One request of an engine to the owner of a LOC 3 page (R371). -/
def State.engAsk (s : State) (ctx ts owner va : Nat) (acc : PeerAcc) : Nat × State :=
  let id := s.link.nextId
  let m : Msg := { dst := owner, tc := 1, ctx := ctx, stamp := ts, body := .access s.device id (BitVec.ofNat 64 va) acc 0 }
  (id, { s with link := { s.link with nextId := id + 1, out := s.link.out ++ [m] } })

/-! ### PUSH (R301, R302) -/

/-- A stretch of n bytes within lines, in address order: virtual address and length. -/
def linePieces : Nat → Nat → Nat → List (Nat × Nat)
  | 0, _, _ => []
  | fuel + 1, va, n => if n = 0 then [] else
    let k := min n (128 - va % 128)
    (va, k) :: linePieces fuel ((va + k) % 2 ^ 64) (n - k)
/-- Stretches that follow each other in one line are joined, since a line of output is one access (R461). -/
def joinLines : List (Nat × Nat) → List (List (Nat × Nat))
  | [] => []
  | x :: r => match joinLines r with
    | (y :: ys) :: l => if x.1 / 128 = y.1 / 128 then (x :: y :: ys) :: l else [x] :: (y :: ys) :: l
    | l => [x] :: l
/-- The stretches of a copy command's output in order (R128), scatters apart, line by line. -/
def Cmd.outPieces (c : Cmd) : List (List (Nat × Nat)) :=
  let flat (n : Nat) : List (Nat × Nat) := linePieces (n / 128 + 2) c.dst n
  joinLines <| match c.op with
  | 1 => (List.range (c.field 48 16)).flatMap (fun (r : Nat) =>
      linePieces (c.field 32 16 / 128 + 2) (wrap 64 ((c.dst : Int) + (r : Int) * signed 32 (c.field 224 32))) (c.field 32 16))
  | 2 => flat (c.field 40 24 * 2 ^ c.field 32 3)
  | 3 => []
  | _ => flat (c.field 32 32)
/-- What taking the claims of an output has come to: the targets with the stamp that their walks give, a fault, a line of a walk or a bank's role
to wait for (R120, R151), or an uncorrectable error, which stops the context (R455). -/
inductive Claimed where
  | got (s : State) (ts : Nat) (l : List Tgt)
  | fault (s : State) (x : FaultInfo)
  | wait
  | lost (s : State)
/-- The claim of the stretches in one line: the walk, whose reads are loads (R115, R136), and the translation (R459), or the fault found. -/
def State.claimPiece (s : State) (w : Who) (ag : Agent) (xs : List (Nat × Nat)) : Claimed :=
  let lo := xs.foldl (fun m x => min m x.1) (2 ^ 64)
  let hi := xs.foldl (fun m x => max m (x.1 + x.2)) 0
  let n := xs.foldl (fun m x => m + x.2) 0
  if s.walkWaits w.ctx lo then .wait
  else
    let r := s.walkLoads ag lo
    if r.err then .lost (r.s.stopFor w.ctx)
    else match r.s.enginePlace w lo (hi - lo) true with
    | .error e => if s.roleWait w e then .wait else .fault r.s e
    | .ok (.mem p loc) => if s.bankBusy p then .wait else .got r.s r.ts [⟨p, loc, lo, n, xs, .queued, true⟩]
    | .ok (.peer o _) => .got r.s r.ts [⟨⟨.dev, o⟩, 3, lo, n, xs, .queued, true⟩]
    | .ok _ => .fault r.s (FaultInfo.prot lo 7)
def State.claimAll (s : State) (w : Who) (ag : Agent) : List (List (Nat × Nat)) → List Tgt → Claimed
  | [], l => .got s ag.ts l
  | x :: r, l => match s.claimPiece w ag x with
    | .got t ts y => State.claimAll t w { ag with ts := ts } r (l ++ y)
    | c => c
/-- A claim is placed in the order at its line's home: beyond every read of the line and every lease on it, a U line being merged (R151, R161). -/
def State.placeClaim (s : State) (ts : Nat) (p : PA) : State × Nat :=
  let s := ({ s with accesses := s.accesses + 1 }).merge p.line 1
  let l := s.lineOf p.line
  let t := max ts (l.rts + 1)
  (s.putLine p.line { l with rts := t, excl := none }, s.pip t)
/-- The claims of pieces that have come to the head of their line's claims are placed; one behind an earlier claim waits for it (R151). -/
def State.placeClaims (s : State) (key ts : Nat) (l : List Tgt) : State × Nat × List Tgt :=
  l.foldl (fun (r : State × Nat × List Tgt) t =>
    if t.claim == .queued && t.loc != 3 && r.1.claimFirst key t.pa then
      let (s, ts) := r.1.placeClaim r.2.1 t.pa
      (s, ts, r.2.2 ++ [{ t with claim := .placed }])
    else (r.1, r.2.1, r.2.2 ++ [t])) (s, ts, [])
/-- Takes the claims of pieces for a channel, in the order of its output: those of LOC 3 pages are asked of their owners (R151, R371). -/
def State.takeClaims (s : State) (ctx key ts : Nat) (l : List Tgt) : State × Nat × List Tgt :=
  let s := { s with claims := s.claims ++ (l.filter (fun (t : Tgt) => t.loc != 3)).map (fun (t : Tgt) => (t.pa.line, key)) }
  let (s, l) := l.foldl (fun (r : State × List Tgt) t =>
    if t.loc = 3 then
      let (id, s) := r.1.engAsk ctx ts t.pa.a t.va (.claim key t.n)
      (s, r.2 ++ [{ t with claim := .asked id }])
    else (r.1, r.2 ++ [t])) (s, [])
  s.placeClaims key ts l
/-- Claims made when a copy command is taken, or once their walks and banks are ready, which the issuing lane's later accesses follow; a fault is
kept until the channel begins the command. -/
def State.claimCmd (s : State) (key : Nat) (c : Cmd) : State × Cmd :=
  match s.claimAll c.who (engAgent c.stamp c.ctx (key % 128 / 16 * 32 + key % 16)) c.outPieces [] with
  | .fault t e => (t, { c with due := false, bad := some e })
  | .wait => (s, { c with due := true })
  | .lost t => (t, { c with due := true })
  | .got t ts l =>
    let (t, ts, l) := t.takeClaims c.ctx key ts l
    (t.setStamp c.fibre ts, { c with due := false, tgts := l, stamp := max c.stamp ts })
/-- Places what claims of a channel's commands have come to the head of their lines. -/
def State.settleChan (s : State) (ctx cl ch : Nat) : State :=
  let x := s.chan ctx cl ch
  let (s, ts, cs) := x.cmds.foldl (fun (r : State × Nat × List Cmd) c =>
    let (u, c) := if c.due && c.op != 3 then r.1.claimCmd (chanKey ctx cl ch) c else (r.1, c)
    let r := (u, r.2)
    let base := if c.began then r.2.1 else c.stamp
    let (s, t, l) := r.1.placeClaims (chanKey ctx cl ch) base c.tgts
    if c.began then (s, max r.2.1 t, r.2.2 ++ [{ c with tgts := l }])
    else (if t = base then s else s.setStamp c.fibre t, r.2.1, r.2.2 ++ [{ c with tgts := l, stamp := t }])) (s, x.stamp, [])
  s.putChan ctx cl ch { x with cmds := cs, stamp := ts }
def State.settleClaims (s : State) : State :=
  (s.clusterCtx.flatMap (fun x => (x.2.chans.filter (fun c => c.2.cmds.any (fun m => (m.due && m.op != 3) || m.tgts.any (fun t => t.claim == .queued)))).map (fun c => (x.1, c.1)))).foldl
    (fun s x => s.settleChan (x.1 / 8) (x.1 % 8) x.2) s
/-- The argument record of a remote call, read when the command is taken (R374). -/
def State.readRecord (s : State) (c : Cmd) : State × Cmd :=
  match s.engRead c.who (engAgent c.stamp c.ctx 16) (2 ^ 64) c.src 64 with
  | .data a => if a.err then (a.s.stopFor c.ctx, c) else (a.s, { c with record := wordsOf a.data, stamp := a.ts })
  | .fault x => (s, { c with bad := some x })
  | .wait => (s, c)
  | .peer o =>
    let (id, s) := s.engAsk c.ctx c.stamp o c.src (.rawLoad none 64)
    (s, { c with req := some (id, none) })
/-- Commands the link engine holds, a continuation transfer in progress included (R301, R302). -/
def Link.held (l : Link) : Nat := l.queue.length + l.sent.length + l.posts.length + l.xfers.length
def ClusterCtx.stream (x : ClusterCtx) (st : Nat) : List Cmd × List Sub := (Tab.get x.streams st).getD ([], [])
/-- Whether a queue takes another command (R302, R464). -/
def State.queueRoom (s : State) (ctx cl q : Nat) : Bool :=
  if q < 16 then !(s.chan ctx cl q).halted && decide ((s.chan ctx cl q).cmds.length < 64)
  else if q = 16 then decide (s.link.held < 256)
  else
    let x := s.clc ctx cl
    !x.halted.any (fun h => h.1 == q) && decide ((x.stream (q - 17)).1.length < 64)
/-- A command enters its queue (R302, R152). -/
def State.enqueue (s : State) (cl q : Nat) (c : Cmd) : State :=
  if q < 16 then
    let (s, c) := s.claimCmd (chanKey c.ctx cl q) c
    let x := s.chan c.ctx cl q
    s.putChan c.ctx cl q { x with cmds := x.cmds ++ [c] }
  else if q = 16 then
    let (s, c) := if c.op = 3 then s.readRecord c else (s, c)
    { s with link := { s.link with queue := s.link.queue ++ [c] } }
  else
    let x := s.clc c.ctx cl
    let y := x.stream (q - 17)
    s.putCLC c.ctx cl { x with streams := Tab.set x.streams (q - 17) (y.1 ++ [c], y.2) }
/-- The command of one lane. -/
def pushCmd (g : Group) (f : Fibre) (team : Option Nat) (ws : List Word) : Cmd :=
  { words := ws, fibre := f.key, fid := f.fid, ctx := f.ctx, launch := f.launch, core := f.core, team := team, pc := f.pc,
    arg := g.run.word, issue := laneMask g.fs, lane := f.lane, stamp := f.stamp, record := [], began := false, due := false, done := 0, moved := false,
    bad := none, tgts := [], buf := [], part := [], idx := none, req := none, dests := [], fail := none, arrived := false }
/-- The lanes' commands, in ascending lane order; once the queue is full, that lane and the later ones are refused. -/
def State.pushLanes (s : State) (g : Group) (o : GOp) (q : Nat) (team : Option Nat) : List Fibre → Bool → State
  | [], _ => s
  | f :: r, full =>
    let full := full || !s.queueRoom f.ctx (clusterOf f.core) q
    if full then (s.modFibre f.key (fun f => f.setDst o.dst 1)).pushLanes g o q team r true
    else
      let s := (s.stampAccess f.key).modFibre f.key (fun f => f.setDst o.dst 0)
      let f := (s.fibre f.key).getD f
      ((s.bump f.ctx f.core 7 1).enqueue (clusterOf f.core) q (pushCmd g f team (f.regsFrom o.a.num 16))).pushLanes g o q team r false
/-- Whether a lane's PUSH must wait: for an earlier access of the lane not yet placed, or for a claimed line that holds a remote call's
record. -/
def State.pushWaits (s : State) (f : Fibre) (q : Nat) (v : Nat) : Bool :=
  s.unplaced f.key || (q == 16 && bitsOf v 0 4 == 3 && (match s.engRead (s.who f) (engAgent f.stamp f.ctx 16) (2 ^ 64) (bitsOf v 64 64) 64 with
    | .wait => true
    | _ => false))
def prePush (o : GOp) (s : State) (g : Group) (r : GRow) (f : Fibre) : Pre :=
  if f.helper then (if overEmpty (fun f => f.setDst o.dst 0) f then .hold else .go)
  else match s.crew g.run.crew with
  | none => .go
  | some c =>
    let q := o.imm.toNat % 32
    let bars : Pre := .fault ⟨0x33, 4, s.roleCode g.run.crew, 0⟩
    (s.preG f 0x306 o r (if roleBars c q then bars else .go)).andThen fun _ =>
      let ws := f.regsFrom o.a.num 16
      if roleBarsCmd c q (cmdBits ws) then bars
      else match s.cmdFault f (c.team.bind s.team) q ws with
        | some x => .fault x
        | none => if s.pushWaits f q (cmdBits ws) then .wait else .go
def execPush (o : GOp) (s : State) : Out :=
  runCrew 0x306 o s (prePush o) (fun _ _ f => .ok (if f.helper then f.setDst o.dst 0 else f))
    (fun s g => s.pushLanes g o (o.imm.toNat % 32) ((s.crew g.run.crew).bind Crew.team) (g.fs.filter (fun f => f.guard o.guard && !f.helper)) false)

/-! ### The end of a command -/

/-- A barrier becomes BROKEN; lanes that wait on its phase perform BROKEN now (R299). -/
def State.breakBar (s : State) (tk n : Nat) : State :=
  match s.team tk with
  | none => s
  | some t =>
    let s := s.putTeam tk (t.putBar n { t.bar n with broken := true })
    ((s.teamFibres t).filter (fun f => !s.onPort f.key && (s.brokenCond f).isSome)).foldl (fun s f => s.afterTrailer f.key) s
def State.breakBound (s : State) (c : Cmd) : State := match c.team with
  | some tk => if c.bind && !c.arrived then s.breakBar tk c.bar else s
  | none => s
/-- The bound arrival of a command (R298). -/
def State.bindArrive (s : State) (c : Cmd) (ts : Nat) : State := match c.team with
  | some tk => if c.bind && !c.arrived then s.arriveBar tk c.bar ts else s
  | none => s
/-- The record of an asynchronous fault (R422, R463). -/
def State.asyncRec (s : State) (fid : Word) (core : Nat) (stamp : Nat) (x : FaultInfo) (arg : Word) (pc : DWord) (issue performed : Word) (seq : Bool) : EffRec :=
  { tag := x.tag, fault := true, psaved := false, arg := arg, pc := pc, issue := issue, performed := performed, frag := BitVec.ofNat 32 s.frag,
    fid := fid, address := x.address, stamp := stamp, core := core, device := s.device,
    detail := detailOf x.cause x.argx false (!seq) seq (!seq) }
/-- Reports a command's fault (R463): to the issuing fibre, else to its team, else as unhandled, when the queue it halted reopens at once. -/
def State.reportCmd (s : State) (c : Cmd) (x : FaultInfo) (halts : Option (Nat × Nat)) : State :=
  let r := s.asyncRec c.fid c.core c.stamp x c.arg c.pc c.issue (1#32 <<< c.lane) false
  let p : Pending := { rec_ := r, halts := halts }
  match s.fibre c.fibre with
  | some f => s.forward f.key p
  | none => s.passOn c.ctx c.team p
/-- What a completion write comes to (R304, R503): made, faulting, waiting for a claimed line (R151) or for its owner's answer, the command
being kept as it then stands (R371). -/
inductive CplOut where
  | made (s : State)
  | fault (x : FaultInfo)
  | wait
  | ask (s : State) (c : Cmd)
/-- The store of a completion write (R304, R503). -/
def State.completionStore (s : State) (c : Cmd) (ts req : Nat) (v : DWord) : CplOut :=
  let va := c.caddr.toNat
  if !c.cpl then .made s
  else if winBase ≤ va ∧ va < 2 ^ 57 then .fault (FaultInfo.prot va 12)
  else if s.walkWaits c.ctx va then .wait
  else match s.resolve c.who c.caddr 8 8 true with
  | .error x => .fault { x with address := c.caddr }
  | .ok (.mem p loc) => 
    if s.claimed p then .wait
    else
      let w := s.walkLoads (engAgent ts c.ctx req) va
      .made (if w.err then w.s.stopFor c.ctx else (w.s.engStore (engAgent w.ts c.ctx req) va p loc [(0, leBytes 8 v.toNat)]).s)
  | .ok (.peer o _) => (match c.req with
    | none =>
      let (id, s) := s.engAsk c.ctx ts o va (.completion (leBytes 8 v.toNat))
      .ask s { c with req := some (id, none) }
    | some (_, none) => .wait
    | some (_, some (.fault tag cause argx, _)) => .fault ⟨tag, cause.toNat, argx.toNat, c.caddr⟩
    | some (_, some _) => .made s)
  | .ok _ => .fault (FaultInfo.prot va 12)
/-- A stream queue halts (R464, R465). -/
def State.haltStream (s : State) (ctx cl q : Nat) : State :=
  let x := s.clc ctx cl
  s.putCLC ctx cl { x with halted := x.halted.filter (fun h => h.1 != q) ++ [(q, none)] }
/-- Releases every claim of a channel's commands (R462, R464). -/
def State.releaseClaims (s : State) (key : Nat) : State := { s with claims := s.claims.filter (fun c => c.2 != key) }
/-- The owners of the LOC 3 lines that a channel's commands claim release its claims too (R464). -/
def State.releasePeers (s : State) (ctx key ts : Nat) (cs : List Cmd) : State :=
  let owners := ((cs.flatMap Cmd.tgts).filter (fun (t : Tgt) => t.loc == 3)).map (fun (t : Tgt) => t.pa.a)
  owners.eraseDups.foldl (fun (s : State) o => (s.engAsk ctx ts o 0 (.release key)).2) s
/-- A channel halts: the commands behind its first are discarded with it, their claims released, their barriers broken (R464). -/
def State.haltChan (s : State) (ctx cl ch : Nat) : State :=
  let x := s.chan ctx cl ch
  let behind := x.cmds.drop 1
  let s := s.releasePeers ctx (chanKey ctx cl ch) x.stamp x.cmds
  let s := (s.putChan ctx cl ch { x with cmds := [], halted := true, haltBlk := none, dropped := behind.length }).releaseClaims (chanKey ctx cl ch)
  behind.foldl (fun s c => (s.breakBound c).tidyLaunch ctx c.launch) s
/-- The command at the head of a channel faults (R462 to R464). -/
def State.chanFault (s : State) (cl ch : Nat) (c : Cmd) (x : FaultInfo) : State :=
  let s := (s.haltChan c.ctx cl ch).breakBound c
  (s.reportCmd c x (some (cl, ch))).tidyLaunch c.ctx c.launch

/-! ### The copy channels -/

/-- Begins the command at the head of a channel (R128, R129): SEQ counts the commands begun before it. -/
def Chan.begin (x : Chan) (c : Cmd) : Chan :=
  if c.began then x
  else { x with seq := x.begun, begun := x.begun + 1, bytes := 0, stamp := max x.stamp c.stamp, ptrStamp := max x.ptrStamp (max x.stamp c.stamp),
                cmds := { c with began := true } :: x.cmds.drop 1 }
/-- Replaces the command in progress. -/
def State.putHead (s : State) (cl ch : Nat) (c : Cmd) : State :=
  let x := s.chan c.ctx cl ch
  s.putChan c.ctx cl ch { x with cmds := c :: x.cmds.drop 1 }
/-- The channel's own stamp after an access. -/
def State.chanStamp (s : State) (ctx cl ch ts : Nat) : State :=
  let x := s.chan ctx cl ch
  s.putChan ctx cl ch { x with stamp := max x.stamp ts }
/-- What a step of a command's reading comes to. -/
inductive Got where
  | more (s : State)
  | bytes (s : State) (bs : List Byte) (ts : Nat)
  | fault (s : State) (x : FaultInfo)
/-- Reads the next piece of the n bytes at va that a command wants: one line of them, or the request to its owner (R371). `put` stores
the command back. -/
def State.fetchPiece (s : State) (c : Cmd) (put : State → Cmd → State) (ts req key va n : Nat) : Got :=
  let k := min n (128 - va % 128)
  match c.req with
  | some (_, none) => .more s
  | some (_, some (.done data, t)) => .bytes (put s { c with req := none }) data t
  | some (_, some (.fault tag cause argx, _)) => .fault (put s { c with req := none }) ⟨tag, cause.toNat, argx.toNat, BitVec.ofNat 64 va⟩
  | some (_, some (.view .., _)) => .fault (put s { c with req := none }) (FaultInfo.prot va 12)
  | none => match s.engRead c.who (engAgent ts c.ctx req) key va k with
    | .data a => if a.err then .more (a.s.stopFor c.ctx) else .bytes a.s a.data a.ts
    | .fault x => .fault s x
    | .wait => .more s
    | .peer o =>
      let (id, s) := s.engAsk c.ctx ts o va (.rawLoad (some key) k)
      .more (put s { c with req := some (id, none) })
/-- The pointer advances past n more output bytes at a stamp (R129). -/
def State.advance (s : State) (ctx cl ch n ts : Nat) : State :=
  let x := s.chan ctx cl ch
  (s.putChan ctx cl ch { x with bytes := x.bytes + n, stamp := max x.stamp ts, ptrStamp := max x.ptrStamp (max x.stamp ts) }).judgeAll
/-- Releases one claim of a line. -/
def State.unclaim (s : State) (key : Nat) (p : PA) : State := { s with claims := removeFirst (fun c => c.1 == p.line && c.2 == key) s.claims }
/-- Whether a claimed place in core SRAM is no longer scratchpad: the write is judged by the bank's new role (R120, R449). -/
def State.roleLost (s : State) (ctx : Nat) (t : Tgt) : Bool :=
  t.loc == 4 && (s.cc ctx (t.pa.a / 2 ^ 21 % 384)).role (t.pa.a % 2 ^ 21 / 65536) != 1
/-- Writes what a command's output has in one line, at a claimed place (R151, R152, R461); the flag says that it has been written. -/
def State.writePiece (s : State) (cl ch : Nat) (c : Cmd) (t : Tgt) (bs : List Byte) : State × Bool × Option FaultInfo :=
  let key := chanKey c.ctx cl ch
  let ts := (s.chan c.ctx cl ch).stamp
  if t.loc = 3 then
    match c.req with
    | none =>
      let (id, s) := s.engAsk c.ctx ts t.pa.a t.va (.rawStore (some key) t.last (overParts t.va t.parts bs))
      (s.putHead cl ch { c with req := some (id, none) }, false, none)
    | some (_, none) => (s, false, none)
    | some (_, some (.fault tag cause argx, _)) => (s.putHead cl ch { c with req := none }, false, some ⟨tag, cause.toNat, argx.toNat, BitVec.ofNat 64 t.va⟩)
    | some (_, some (_, t)) => ((s.putHead cl ch { c with req := none }).chanStamp c.ctx cl ch t, true, none)
  else if t.claim != .placed || s.bankBusy t.pa then (s, false, none)
  else if s.roleLost c.ctx t then (s, false, some (FaultInfo.prot t.va 3))
  else
    let r := s.engStore (engAgent ts c.ctx (cl * 32 + ch)) t.va t.pa t.loc (overParts t.va t.parts bs)
    ((if t.last then r.s.unclaim key t.pa else r.s).chanStamp c.ctx cl ch r.ts, true, none)
/-- Bytes of a command's whole output (R305). -/
def Cmd.total (c : Cmd) : Nat := match c.op with
  | 1 => c.field 32 16 * c.field 48 16
  | 2 | 3 => c.field 40 24 * 2 ^ c.field 32 3
  | _ => c.field 32 32
/-- After a piece of n bytes has been written. -/
def State.pieceDone (s : State) (cl ch : Nat) (c : Cmd) (n : Nat) : State :=
  let c := { c with done := c.done + n, tgts := c.tgts.drop 1, buf := c.buf.drop n, req := none }
  (s.putHead cl ch { c with moved := decide (c.total ≤ c.done) }).advance c.ctx cl ch n 0
/-- Writes the bytes that stand ready at the head of a command's targets. -/
def State.flushPiece (s : State) (cl ch : Nat) (c : Cmd) (t : Tgt) : State :=
  match s.writePiece cl ch c t (c.buf.take t.n) with
  | (s, true, _) => s.pieceDone cl ch c t.n
  | (s, false, some x) => s.chanFault cl ch c x
  | (s, false, none) => s
/-- The head command of a channel, begun, when the channel can go on (R128, R464): once its claims have been placed (R151). As it begins, SEQ
advances, and what waits for the pointer is judged (R129, R130). -/
def State.headCmd (s : State) (ctx cl ch op : Nat) : Option (State × Cmd) :=
  let x := s.chan ctx cl ch
  match x.cmds with
  | c :: _ => if x.halted || c.moved || c.op != op || (c.due && op != 3) || c.tgts.any (fun t => t.claim != .placed) then none
    else
      let s := s.putChan ctx cl ch (x.begin c)
      some (if c.began then s else s.judgeAll, { c with began := true })
  | [] => none
/-- One step of the head command of a channel: begun, faulting, or moved on by one access. -/
def State.stepCopy (s : State) (op ctx cl ch : Nat) (go : State → Cmd → State) : State :=
  match s.headCmd ctx cl ch op with
  | none => s
  | some (s, c) => match c.bad with
    | some x => s.chanFault cl ch c x
    | none => go s c
/-- A step of a copy command's event, in its context's turn. -/
def runCopy (op cl ch : Nat) (s : State) (go : State → Cmd → State) : Out :=
  if 8 ≤ cl ∨ 16 ≤ ch then .fault .noSuchPart
  else match s.turnOf cl with
  | none => .next s
  | some ctx => .next (s.stepCopy op ctx cl ch go)
/-- Where the source bytes of output position n stand: linear and 2-D (R305). -/
def Cmd.srcAt (c : Cmd) (n : Nat) : Nat × Nat :=
  if c.op = 1 then
    let rb := c.field 32 16
    (wrap 64 ((c.src : Int) + (n / rb : Nat) * signed 32 (c.field 192 32) + (n % rb : Nat)), rb - n % rb)
  else ((c.src + n) % 2 ^ 64, c.total - n)
/-- Linear and 2-D commands: read until the next line of output is whole, then write it. A scratchpad is read from the word that holds the next
byte, since its accesses are aligned (R110, R305). -/
def State.copyGo (s : State) (cl ch : Nat) (c : Cmd) : State :=
  match c.tgts with
  | [] => s.putHead cl ch { c with moved := true }
  | t :: _ =>
    if t.n ≤ c.buf.length then s.flushPiece cl ch c t
    else
      let i := c.done + c.buf.length
      let x := c.srcAt i
      let lead := if inScratch x.1 then (if c.op = 1 then i % c.field 32 16 else i) % 4 else 0
      let want := min x.2 (t.n - c.buf.length)
      let all := if inScratch x.1 then ceilDiv (lead + want) 4 * 4 else want
      match s.fetchPiece c (fun s c => s.putHead cl ch c) (s.chan c.ctx cl ch).stamp (cl * 32 + ch) (chanKey c.ctx cl ch) (x.1 - lead) all with
      | .more s => s
      | .fault s x => s.chanFault cl ch c x
      | .bytes s bs ts => (s.putHead cl ch { c with req := none, buf := c.buf ++ (bs.drop lead).take want }).chanStamp c.ctx cl ch ts
def execCopyLinear (cluster ch : Nat) (s : State) : Out := runCopy 0 cluster ch s (fun s c => s.copyGo cluster ch c)
def execCopy2d (cluster ch : Nat) (s : State) : Out := runCopy 1 cluster ch s (fun s c => s.copyGo cluster ch c)
/-- Fill: output byte i is pattern byte i mod 16. -/
def Cmd.pattern (c : Cmd) (i : Nat) : Byte := BitVec.ofNat 8 (c.field (256 + 8 * (i % 16)) 8)
def State.fillGo (s : State) (cl ch : Nat) (c : Cmd) : State := match c.tgts with
  | [] => s.putHead cl ch { c with moved := true }
  | t :: _ => s.flushPiece cl ch { c with buf := (List.range t.n).map (fun i => c.pattern (c.done + i)) } t
def execCopyFill (cluster ch : Nat) (s : State) : Out := runCopy 4 cluster ch s (fun s c => s.fillGo cluster ch c)
/-- Reads what is left of n bytes at va into `part`; `fin` goes on with the whole. -/
def State.readPart (s : State) (cl ch : Nat) (c : Cmd) (va n : Nat) (fin : State → Cmd → List Byte → State) : State :=
  match s.fetchPiece c (fun s c => s.putHead cl ch c) (s.chan c.ctx cl ch).stamp (cl * 32 + ch) (chanKey c.ctx cl ch)
    ((va + c.part.length) % 2 ^ 64) (n - c.part.length) with
  | .more s => s
  | .fault s x => s.chanFault cl ch c x
  | .bytes s bs ts =>
    let part := c.part ++ bs
    let s := s.chanStamp c.ctx cl ch ts
    if n ≤ part.length then fin s { c with req := none, part := [] } part else s.putHead cl ch { c with req := none, part := part }
/-- Element size, and address and width of index i (R305). -/
def Cmd.esize (c : Cmd) : Nat := 2 ^ c.field 32 3
def Cmd.idxWidth (c : Cmd) : Nat := if c.field 256 2 = 1 then 8 else 4
def Cmd.idxAt (c : Cmd) (i : Nat) : Nat := (c.field 192 64 + i * c.idxWidth) % 2 ^ 64
/-- Gather: index, then element, until the next line of output is whole, then the line. -/
def State.gatherGo (s : State) (cl ch : Nat) (c : Cmd) : State :=
  match c.tgts with
  | [] => s.putHead cl ch { c with moved := true }
  | t :: _ =>
    if t.n ≤ c.buf.length then s.flushPiece cl ch c t
    else
      let i := (c.done + c.buf.length) / c.esize
      match c.idx with
      | none => s.readPart cl ch c (c.idxAt i) c.idxWidth (fun s c bs => s.putHead cl ch { c with idx := some (ofBytes bs) })
      | some x => s.readPart cl ch c ((c.src + x * c.esize) % 2 ^ 64) c.esize
          (fun s c bs => s.putHead cl ch { c with idx := none, buf := c.buf ++ bs })
def execCopyGather (cluster ch : Nat) (s : State) : Out := runCopy 2 cluster ch s (fun s c => s.gatherGo cluster ch c)
/-- A scatter's claim of the lines of the element with index x (R151), once their walks and banks are ready. -/
def State.scatterClaim (s : State) (cl ch : Nat) (c : Cmd) (x : Nat) : State :=
  let ag := engAgent (s.chan c.ctx cl ch).stamp c.ctx (cl * 32 + ch)
  match s.claimAll c.who ag ((linePieces 3 ((c.dst + x * c.esize) % 2 ^ 64) c.esize).map (fun p => [p])) [] with
  | .fault t e => t.chanFault cl ch c e
  | .lost t => t
  | .wait => s.putHead cl ch { c with idx := some x, due := true }
  | .got t ts l =>
    let (t, ts, l) := t.takeClaims c.ctx (chanKey c.ctx cl ch) ts l
    (t.putHead cl ch { c with idx := some x, due := false, tgts := l, buf := [] }).chanStamp c.ctx cl ch ts
/-- Scatter (R151): index, claim of the element's lines, element, write. -/
def State.scatterGo (s : State) (cl ch : Nat) (c : Cmd) : State :=
  let i := c.done / c.esize
  match c.idx with
  | none => s.readPart cl ch c (c.idxAt i) c.idxWidth (fun s c bs => s.scatterClaim cl ch c (ofBytes bs))
  | some x =>
    if c.due then s.scatterClaim cl ch c x
    else if c.buf.isEmpty then s.readPart cl ch c ((c.src + i * c.esize) % 2 ^ 64) c.esize (fun s c bs => s.putHead cl ch { c with buf := bs })
    else match c.tgts with
    | [] => s
    | t :: r => match s.writePiece cl ch c t (c.buf.take t.n) with
      | (s, true, _) =>
        if r.isEmpty then s.pieceDone cl ch { c with idx := none, buf := [] } c.esize
        else s.putHead cl ch { c with tgts := r, buf := c.buf.drop t.n, req := none }
      | (s, false, some x) => s.chanFault cl ch c x
      | (s, false, none) => s
def execCopyScatter (cluster ch : Nat) (s : State) : Out := runCopy 3 cluster ch s (fun s c => s.scatterGo cluster ch c)

/-! ### A channel's stop at a turn switch (R131) -/

/-- One step of a channel, whatever its command. -/
def State.chanStep (s : State) (ctx cl ch : Nat) : State := match (s.chan ctx cl ch).cmds with
  | c :: _ => if c.op = 2 then s.stepCopy 2 ctx cl ch (fun s c => s.gatherGo cl ch c)
    else if c.op = 3 then s.stepCopy 3 ctx cl ch (fun s c => s.scatterGo cl ch c)
    else if c.op = 4 then s.stepCopy 4 ctx cl ch (fun s c => s.fillGo cl ch c)
    else s.stepCopy c.op ctx cl ch (fun s c => s.copyGo cl ch c)
  | [] => s
/-- Whether a command's output stands at a 128-byte boundary of its stream: the places where its channel stops. -/
def Cmd.atStop (c : Cmd) : Bool := !c.began || c.moved || c.done % 128 == 0
/-- Stretches cut after n bytes of output. -/
def cutParts : Nat → List (Nat × Nat) → List (Nat × Nat) × List (Nat × Nat)
  | _, [] => ([], [])
  | n, x :: r =>
    if n = 0 then ([], x :: r)
    else if n < x.2 then ([(x.1, n)], (x.1 + n, x.2 - n) :: r)
    else let (a, b) := cutParts (n - x.2) r; (x :: a, b)
/-- A line of output in which the boundary falls is cut there, and keeps its claim for what is left (R131, log 77). -/
def Cmd.cutStop (c : Cmd) : Cmd :=
  let n := 128 - c.done % 128
  match c.tgts with
  | t :: r =>
    if c.op = 3 ∨ t.n ≤ n ∨ c.req.isSome then c
    else
      let (a, b) := cutParts n t.parts
      let low (l : List (Nat × Nat)) : Nat := l.foldl (fun m x => min m x.1) (2 ^ 64)
      let at_ (l : List (Nat × Nat)) : PA := { t.pa with a := if t.loc = 3 then t.pa.a else t.pa.a + (low l - t.va) }
      { c with tgts := { t with pa := at_ a, va := low a, n := n, parts := a, last := false } :: { t with pa := at_ b, va := low b, n := t.n - n, parts := b } :: r }
  | [] => c
/-- A channel of the outgoing context runs on to its next stop (R131). -/
def State.runToStop : Nat → State → Nat → Nat → Nat → State
  | 0, s, _, _, _ => s
  | n + 1, s, ctx, cl, ch => match (s.chan ctx cl ch).cmds with
    | c :: _ => if c.atStop || (s.chan ctx cl ch).halted then s else State.runToStop n ((s.putHead cl ch c.cutStop).chanStep ctx cl ch) ctx cl ch
    | [] => s
/-- The channels of a context on a cluster stop. 128 output bytes take at most 300 accesses. -/
def State.stopChans (s : State) (ctx cl : Nat) : State := (List.range 16).foldl (fun s ch => s.runToStop 400 ctx cl ch) s
/-- Whether a channel of a context on a cluster is on its way to its stop: short of the boundary, and waiting for a peer's answer or for a bank.
One that waits for a line that another channel has claimed, which may itself have stopped, is saved as it stands (log 77). -/
def State.chansBusy (s : State) (ctx cl : Nat) : Bool := (List.range 16).any (fun ch =>
  match (s.chan ctx cl ch).cmds with
  | c :: _ => !c.atStop && !(s.chan ctx cl ch).halted && ((match c.req with
      | some (_, none) => true
      | _ => false) || c.due || c.tgts.any (fun t => t.loc != 3 && s.bankBusy t.pa))
  | [] => false)

end Sys2Proof.Machine
end

