-- ==== Sys2Proof/Machine/Fetch.lean ====
section
/-! DEFINITION. What a port fetches (R46, R186 to R189, R437 step 1, R438 to R441, R455): the instruction it issues next, or the fault
found while fetching or decoding it. -/

namespace Sys2Proof.Machine

/-- What a port's turn finds at its group's program counter. -/
inductive Fetched where
  /-- An instruction, its bits, and the program counter of its slot. -/
  | run (i : Instr) (bits : Nat) (pc : DWord)
  /-- A fault at the instruction at pc, with its bits; `fetching` when it arose before the instruction was known (ARG 0, R422). -/
  | fault (x : FaultInfo) (bits : Nat) (pc : DWord) (fetching : Bool)
  /-- Only literal slots so far: the search goes on at pc. -/
  | on (pc : DWord)

/-- The slot of a line from slot i on, as an instruction (R440, R441): the 25th instruction fails before its fields are judged (log 15). -/
def fetchedSlot (ws : List Word) (la j count : Nat) : Fetched :=
  let bits := slotBits ws j
  let pc := BitVec.ofNat 64 (la + j)
  match decodeSlot bits with
  | .error e => .fault (if 24 ≤ count then ⟨0x30, 9, bits % 1024, 0⟩ else ⟨0x30, e.cause, e.argx, 0⟩) bits pc false
  | .ok i => if 24 ≤ count then .fault ⟨0x30, 9, bits % 1024, 0⟩ bits pc false else .run i bits pc
/-- Fetching at a program counter: the next instruction slot at or after it (R189). A defect of a line is found at the first instruction that
would issue from it (R187, R193): a line that gives none is passed over. -/
def State.fetchFuel : Nat → State → Nat → Nat → Nat → Nat → Fetched
  | 0, _, _, la, j, _ => .on (BitVec.ofNat 64 (la + j))
  | n + 1, s, ctx, la, j, count =>
    match s.fetchLine ctx la with
    | .error x => .fault x 0 (BitVec.ofNat 64 (la + j)) true
    | .ok (ws, _) =>
      match slotFrom ws j with
        | some k => (match lineDefect ws false with
          | some a => .fault ⟨0x30, 6, a, 0⟩ 0 (BitVec.ofNat 64 (la + k)) true
          | none => fetchedSlot ws la k count)
        | none => State.fetchFuel n s ctx (la + 64) 0 count
def State.fetchAt (s : State) (ctx : Nat) (pc : DWord) (count : Nat) : Fetched :=
  s.fetchFuel (2 ^ 51) ctx (pc.toNat / 64 * 64) (pc.toNat % 64) count

/-! ### An instruction whose encoding fails (R197, R215, R425, R441) -/

/-- The opcodes of format J (R201). -/
def isJOp (op : Nat) : Bool := [0x200, 0x201, 0x203, 0x209, 0x20F].contains op
/-- The guard that the bits of a format G or J instruction carry (R195, R201). -/
def slotGuard (bits : Nat) : Guard :=
  if (gRow (bits % 1024)).isSome || isJOp (bits % 1024) then ⟨bitOf bits 75, BitVec.ofNat 3 (bits / 2 ^ 71), bitOf bits 74⟩ else ⟨false, 0, false⟩
/-- Whether a lane whose guard fails is spared a defect of the instruction's fields (R215): a code that is no instruction, a group 7 code and the
25th instruction are faults of every lane (log 15). -/
def guardSpares (x : FaultInfo) : Bool := x.tag == 0x30 && [2, 3, 4, 5, 7].contains x.cause
/-- The fields of a format G instruction that tell its destination, whatever the others hold. -/
def dstOfG (bits : Nat) : Option GOp := match unpackFields gWidths bits with
  | [_, m, d, dk, _, _, _, _, _, _, _, _, _, _, imm] =>
    (Dst.ofFields d dk).map (fun x => ⟨Guard.always, BitVec.ofNat 6 m, x, .imm, .imm, .imm, BitVec.ofNat 20 imm⟩)
  | _ => none
/-- The destination register and MOD of a format J instruction, whatever the other fields hold. -/
def dstOfJ (bits : Nat) : Option (Dst × Nat) := match unpackFields jWidths bits with
  | [_, m, d, dk, _, _, _, _, _, _, _, _] => (Dst.ofFields d dk).map (fun x => (x, m))
  | _ => none
/-- The destination that an instruction's bits name, 0 and full in a helper lane, whether or not its other fields are right (R31, R425). -/
def slotZero (bits : Nat) (f : Fibre) : Fibre :=
  let op := bits % 1024
  match gRow op, dstOfG bits with
  | some r, some o => if (match o.dst with
      | .v _ => dstIsReg op r.dst
      | _ => true) then f.zeroDst o r else f
  | _, _ => match dstOfJ bits with
    | some (d, m) => if op = 0x20F then (f.zeroRegs d.num 2).setPred (BitVec.ofNat 3 m) false else f
    | none => f

/-- A fault of the group at fetch or decode: helper lanes whose instruction cannot be fetched end (R32, R425); a lane whose guard fails is only
a sibling of a defect of fields, and with no lane to fault the instruction is passed over (R215). `lit` is the fault of the instruction's literal
line, which a lane whose guard passes meets first (R437). -/
def State.fetchFault (s : State) (g : Group) (x : FaultInfo) (lit : Option FaultInfo) (bits : Nat) (fetching : Bool) : State :=
  let word : Word := BitVec.ofNat 32 bits
  if fetching then
    let act := g.fs.filter (fun f => !f.helper)
    if act.any (fun f => !s.noFill f.key) then s.held g
    else
      let s := (g.fs.filter Fibre.helper).foldl (fun s f => s.endFibre f) s
      let act := act.filterMap (fun f => s.fibre f.key)
      if act.isEmpty then s.freePort g.core g.p
      else s.groupFault { g with fs := act, run := { g.run with fibres := act.map Fibre.key } } word (act.map (fun f => (f, LaneOut.fault x f))) id
  else
    let passes (f : Fibre) : Bool := f.guard (slotGuard bits)
    let hit (f : Fibre) : Bool := !guardSpares x || passes f
    let own (f : Fibre) : FaultInfo := if passes f then lit.getD x else x
    if g.fs.any (fun f => hit f && !f.helper) then
      s.groupFault g word (g.fs.map (fun f => (f, if hit f then LaneOut.fault (own f) f else .ok f))) (fun f => if hit f then slotZero bits f else f)
    else if (g.fs.filter hit).any (overEmpty (slotZero bits)) then s.stalled g
    else
      -- Only helper lanes meet it, or none does: they leave their destinations 0, and the sentence goes on (R31).
      let s := s.putFibres ((g.fs.filter hit).map (slotZero bits))
      if isTrailerOp (bits % 1024) then
        s.withLate g fun s g => (s.putFibres ((g.now s).map (fun f => { f with pc := s.nextSlot f.ctx f.pc }))).endSentence g []
      else s.goOn g

/-- What a turn of an agent comes to before an instruction runs. -/
inductive TurnOut where
  | run (i : Instr) (s : State)
  | done (s : State)

/-- The registers that an instruction's fields name in the top frame, with whether it writes them (R70). -/
def regUses (i : Instr) : List (Nat × Nat × Bool) :=
  let src (n : Nat) (x : Src) : List (Nat × Nat × Bool) := match x with
    | .v r _ => if n = 0 then [] else [(r.toNat, n, false)]
    | _ => []
  match gParts i with
  | some (op, o) => (match gRow op with
    | some r => src (srcSpan op o r.a) o.a ++ src (srcSpan op o r.b) o.b ++ src (srcSpan op o r.c) o.c ++ (match o.dst with
      | .v n => if dstIsReg op r.dst then [(n.toNat, dstSpan o r.dst, true)] else []
      | _ => [])
    | none => [])
  | none => match jParts i with
    | some (op, o) => (if op = 0x203 then src o.mod.toNat o.a else if op = 0x20F then src 2 o.a ++ [(o.dst.num, 2, true)]
        else if op = 0x201 then src 1 o.a else [])
    | none => []
/-- The registers of an instruction pass through the register-cache slices of the lanes whose guard passes (R70), those below F. -/
def State.touchRegs (s : State) (g : Group) (i : Instr) (guard : Guard) : State :=
  let uses := regUses i
  (g.fs.filter (fun f => f.guard guard)).foldl (fun (s : State) f => uses.foldl (fun (s : State) u =>
    (List.range u.2.1).foldl (fun (s : State) j => if u.1 + j < f.top.f then s.regTouch f u.2.2 (u.1 + j) else s) s) s) s
/-- The loads of the walk for a line of instructions that a sentence comes to (R115, R365); the line itself is no coherent access (R136). -/
def State.fetchWalk (s : State) (g : Group) (la : Nat) : State :=
  match g.fs with
  | [] => s
  | f0 :: _ =>
    let r := s.walkLoads (fetchAgent f0.ctx f0.stamp 0) la
    g.run.fibres.foldl (fun s k => s.setStamp k r.ts) r.s
/-- The walks for the line of an instruction, when it is not the last one's, and for its literal line. -/
def State.fetchWalks (s : State) (g : Group) (la : Nat) (next : Bool) : State :=
  let s := if g.run.line = la then s else s.fetchWalk g la
  if next then s.fetchWalk g (la + 64) else s
/-- Whether the bits of an instruction name a literal of the next line (R195, R199). -/
def slotLitNext (bits : Nat) : Bool :=
  let next (f k : Nat) : Bool := k == 3 && decide (1056 ≤ f) && decide (f < 1088)
  if (gRow (bits % 1024)).isSome then (match unpackFields gWidths bits with
    | [_, _, _, _, a, ak, b, bk, c, ck, _, _, _, _, _] => next a ak || next b bk || next c ck
    | _ => false)
  else if isJOp (bits % 1024) then (match unpackFields jWidths bits with
    | [_, _, _, _, a, ak, _, _, _, _, _, _] => next a ak
    | _ => false)
  else false
/-- A busy port's turn: fetch, and the fault of what cannot be fetched or decoded, or the instruction to execute. A line of a LOC 3 page is asked
for when the program counter enters it (R26, R371). -/
def State.portTurn (s : State) (core p : Nat) : TurnOut :=
  let s := { s with actor := Actor.port core p }
  match s.group with
  | none => .done s
  | some g => match g.fs with
    | [] => .done (s.freePort core p)
    | f0 :: _ =>
      let move (s : State) (pc : DWord) : State := s.putFibres (g.fs.map (fun f => { f with pc := pc }))
      match s.fetchAt f0.ctx f0.pc g.run.count with
      | .on pc => .done (move s pc)
      | .fault x bits pc fetching =>
        let s := move s pc
        if x.tag = 0 then .done (s.askCode g f0.ctx f0.stamp x.address.toNat)
        else
          let g := { g with fs := g.fs.map (fun f => { f with pc := pc }), run := { g.run with word := BitVec.ofNat 32 bits } }
          -- A literal line that cannot be fetched comes before what is wrong with the instruction's own fields (R437).
          let lit : Option FaultInfo := if fetching || !slotLitNext bits then none else (match s.fetchLine f0.ctx (pc.toNat / 64 * 64 + 64) with
            | .error e => some e
            | .ok _ => none)
          .done (match lit with
          | some e => if e.tag = 0 then s.askCode g f0.ctx f0.stamp e.address.toNat else s.fetchFault g x lit bits fetching
          | none => s.fetchFault g x none bits fetching)
      | .run i bits pc =>
        let la := pc.toNat / 64 * 64
        let s := ((move s pc).fetchWalks g la (slotLitNext bits)).touchRegs { g with fs := g.fs.map (fun f => { f with pc := pc }) } i (slotGuard bits)
        .run i (s.putPort core p { g.run with word := BitVec.ofNat 32 bits, line := la })

end Sys2Proof.Machine
end

