-- ==== Sys2Proof/Machine/Banker.lean ====
section
/-! DEFINITION. The bankers: far requests (R154, R155, R466), custom far operations and their check (R156, R287, R467), and merges
that free slots (R163, R458). -/

namespace Sys2Proof.Machine

/-! ### Custom far operations (R156) -/

/-- What a custom operation's sentence may hold beside LD, ST and STOP: no long-latency producer, no effect, no other trailer, and nothing
that accesses memory beside the target's line: RED, frame-relative and FIFO stores, PUSH, and the operations on blocks and cells (log 78).
The synchronisation of a team performs ROLE when its guard passes, an effect. -/
def bankerOp (i : Instr) (s : State) : Option Out :=
  match i with
  | .iadd o => some (execIadd o s)
  | .isub o => some (execIsub o s)
  | .imul o => some (execImul o s)
  | .imulh o => some (execImulh o s)
  | .imad o => some (execImad o s)
  | .imad64 o => some (execImad64 o s)
  | .iadd64 o => some (execIadd64 o s)
  | .lea o => some (execLea o s)
  | .ineg o => some (execIneg o s)
  | .iabs o => some (execIabs o s)
  | .imin o => some (execImin o s)
  | .imax o => some (execImax o s)
  | .andb o => some (execAndb o s)
  | .orb o => some (execOrb o s)
  | .xorb o => some (execXorb o s)
  | .andn o => some (execAndn o s)
  | .notb o => some (execNotb o s)
  | .shl o => some (execShl o s)
  | .shr o => some (execShr o s)
  | .sar o => some (execSar o s)
  | .funshf o => some (execFunshf o s)
  | .bfe o => some (execBfe o s)
  | .bfi o => some (execBfi o s)
  | .popc o => some (execPopc o s)
  | .clz o => some (execClz o s)
  | .brev o => some (execBrev o s)
  | .isetp o => some (execIsetp o s)
  | .isel o => some (execIsel o s)
  | .mov o => some (execMov o s)
  | .movi o => some (execMovi o s)
  | .movs o => some (execMovs o s)
  | .fadd o => some (execFadd o s)
  | .fsub o => some (execFsub o s)
  | .fmul o => some (execFmul o s)
  | .ffma o => some (execFfma o s)
  | .fmin o => some (execFmin o s)
  | .fmax o => some (execFmax o s)
  | .fminnum o => some (execFminnum o s)
  | .fmaxnum o => some (execFmaxnum o s)
  | .fsetp o => some (execFsetp o s)
  | .fclass o => some (execFclass o s)
  | .frnd o => some (execFrnd o s)
  | .fscale o => some (execFscale o s)
  | .fcpysgn o => some (execFcpysgn o s)
  | .dadd o => some (execDadd o s)
  | .dmul o => some (execDmul o s)
  | .dfma o => some (execDfma o s)
  | .dsetp o => some (execDsetp o s)
  | .hadd2 o => some (execHadd2 o s)
  | .hmul2 o => some (execHmul2 o s)
  | .hfma2 o => some (execHfma2 o s)
  | .badd2 o => some (execBadd2 o s)
  | .bmul2 o => some (execBmul2 o s)
  | .bfma2 o => some (execBfma2 o s)
  | .fstatw o => some (execFstatw o s)
  | .rcp o => some (execRcp o s)
  | .rsq o => some (execRsq o s)
  | .sqrt o => some (execSqrt o s)
  | .ex2 o => some (execEx2 o s)
  | .lg2 o => some (execLg2 o s)
  | .tanh o => some (execTanh o s)
  | .sinpi o => some (execSinpi o s)
  | .cospi o => some (execCospi o s)
  | .ftoi o => some (execFtoi o s)
  | .itof o => some (execItof o s)
  | .fcvt o => some (execFcvt o s)
  | .shfl o => some (execShfl o s)
  | .qswap o => some (execQswap o s)
  | .qbcast o => some (execQbcast o s)
  | .vote o => some (execVote o s)
  | .redux o => some (execRedux o s)
  | .fredux o => some (execFredux o s)
  | .matchl o => some (execMatchl o s)
  | .cfence o => some (execCfence o s)
  | .join o => some (execJoin o s)
  | .leave o => some (execLeave o s)
  | .mand o => some (execMand o s)
  | .mor o => some (execMor o s)
  | .mxor o => some (execMxor o s)
  | .mnot o => some (execMnot o s)
  | .mrd o => some (execMrd o s)
  | .mwr o => some (execMwr o s)
  | .mact o => some (execMact o s)
  | .nop o => some (execNop o s)
  | .hrem o => some (execHrem o s)
  | .fpin o => some (execFpin o s)
  | .funpin o => some (execFunpin o s)
  | .fenceSys o => some (execFenceSys o s)
  | .bankcfg o => some (execBankcfg o s)
  | .wpwait o => some (execWpwait o s)
  | .barinit o => some (execBarinit o s)
  | .bara o => some (execBara o s)
  | .barw o => some (execBarw o s)
  | .baraw o => some (execBaraw o s)
  | .rwait o => some (execRwait o s)
  | .rpost o => some (execRpost o s)
  | .timew o => some (execTimew o s)
  | .movsw o => some (execMovsw o s)
  | .scrubq o => some (execScrubq o s)
  | .hinst o => some (execHinst o s)
  | _ => none
/-- The banker's lane: a state that holds one busy port, one crew and one fibre, v0 to v1 the address and v2 to v5 the operands. -/
def State.bankerState (s : State) (ctx launch core : Nat) (entry : DWord) (va : DWord) (ops : List Word) : State :=
  let k := s.nextKey
  let fr := (Frame.fresh 0 s.seeds 2048 0 0).setRegs 0 ([loWord va, hiWord va] ++ (List.range 4).map (fun i => ops.getD i 0))
  let f := Fibre.make k 0 false ctx launch k 0 core [fr] [] 0 entry 0 0
  let crew : Crew :=
    { ctx := ctx, launch := launch, core := core, slot := 0, lanes := [some k], masks := List.replicate 12 0, team := none, number := 0, role := 3,
      placed := 0, readySince := 0, promoted := false, aside := false, cut := none }
  let run : PortRun :=
    { PortRun.fresh k [k] with code := s.actorRun.elim [] PortRun.code }
  { s with actor := .port core 0, fibres := [(k, f)], crews := [(k, crew)], teams := [], fills := [],
           ports := [(4 * core, run)], clusters := [], stops := [] }
/-- The device after a sentence that ran in a banker's lane: its generators and the trace buffer keep what the sentence did. -/
def State.afterBanker (s t : State) : State := { s with coreCtx := t.coreCtx, mgmt := t.mgmt }
/-- The banker's fibre. -/
def State.bankerFibre (s : State) (core : Nat) : Option Fibre := match s.port core 0 with
  | some r => r.fibres.head?.bind s.fibre
  | none => none
/-- A load or store of the sentence: the offset in the line, when the access lies in it and is aligned (R156, R278). -/
def lineSpan (va : Nat) (a : DWord) (n : Nat) : Option Nat :=
  if a.toNat / 128 = va / 128 ∧ (a.toNat % 128) + n ≤ 128 ∧ a.toNat % min n 4 = 0 then some (a.toNat % 128) else none
/-- The sentence goes on at the next instruction. -/
def State.bankerNext (s : State) (core : Nat) (f : Fibre) : State := match s.port core 0 with
  | some r => (s.putFibre { f with pc := s.nextSlot f.ctx f.pc }).putPort core 0 { r with count := r.count + 1 }
  | none => s
/-- One instruction of the sentence on the line's bytes; none breaks R156. The flag says that the sentence has ended. -/
def bankerStep (s : State) (core va : Nat) (line : List Byte) : Option (State × List Byte × Bool) :=
  match s.bankerFibre core, s.port core 0 with
  | some f, some r => match s.fetchAt f.ctx f.pc r.count with
    | .on pc => some (s.putFibre { f with pc := pc }, line, false)
    | .run i bits pc =>
      let f := { f with pc := pc }
      let s := (s.putFibre f).putPort core 0 { r with word := BitVec.ofNat 32 bits }
      match i with
      | .stop _ => if (s.judge f).conds.all (fun c => match c with
          | .time _ => true
          | _ => false) then some (s, line, true) else none
      | .ld o =>
        if !f.guard o.guard then some (s.bankerNext core f, line, false) else
        let n := widthBytes o.mod
        (match gRow 0x280 with
        | some row => if s.preG f 0x280 o row .go = .go then (lineSpan va (effAddr f o) n).map (fun off =>
            (s.bankerNext core (f.setRegs o.dst.num (loadWords n (bitOf o.mod.toNat 3) ((line.drop off).take n))), line, false)) else none
        | none => none)
      | .st o =>
        if !f.guard o.guard then some (s.bankerNext core f, line, false) else
        let n := widthBytes o.mod
        (match gRow 0x281 with
        | some row => if s.preG f 0x281 o row .go = .go ∧ stFmt o.c < 6 then (lineSpan va (effAddr f o) n).map (fun off =>
            let bs := stBytes o (stFmt o.c) (s.gen f.ctx core 0).toNat f.lane (s.stWords f o (stRegs o.mod (stFmt o.c)))
            let s := if stRnd o.c = 2 ∧ 2 ≤ stFmt o.c then s.setGen f.ctx core 0 (genStep (s.gen f.ctx core 0)) else s
            (s.bankerNext core f, line.take off ++ bs ++ line.drop (off + bs.length), false)) else none
        | none => none)
      | i => match bankerOp i s with
        | some (.next t) => (match t.bankerFibre core, t.port core 0 with
          | some f', some r' => if r'.count = r.count + 1 ∧ t.fills.isEmpty ∧ f'.chain.length = 1 then some (t, line, false) else none
          | _, _ => none)
        | _ => none
    | _ => none
  | _, _ => none
/-- The sentence from its entry to its STOP: the lane's state, the line it leaves, and v6 to v7. -/
def bankerRun : Nat → State → Nat → Nat → List Byte → Option (State × List Byte × List Word)
  | 0, _, _, _, _ => none
  | n + 1, s, core, va, line => match bankerStep s core va line with
    | none => none
    | some (s, line, true) => (s.bankerFibre core).map (fun f => (s, line, [f.reg 6, f.reg 7]))
    | some (s, line, false) => bankerRun n s core va line
/-- A custom far operation on the line of va, a line address being its first byte. -/
def State.customRun (s : State) (ctx launch core : Nat) (entry va : BitVec 64) (ops : List Word) (line : List Byte) :
    Option (State × List Byte × List Word) :=
  (bankerRun 32 (s.bankerState ctx launch core entry va ops) core va.toNat line).map (fun r => (s.afterBanker r.1, r.2))
/-- Whether an instruction may stand in a custom operation's sentence before its STOP (R156). -/
def bankerMay (i : Instr) (s : State) : Bool := match i with
  | .ld _ => true
  | .st _ => true
  | i => (bankerOp i s).isSome
/-- The first line of the sentence that cannot be read yet: no line is fetched past its trailer, or past an instruction that bars it (R26, R371). -/
def State.sentenceNeeds : Nat → State → Nat → DWord → Nat → Option Nat
  | 0, _, _, _, _ => none
  | n + 1, s, ctx, pc, count => match s.fetchAt ctx pc count with
    | .fault x _ _ _ => if x.tag = 0 then some x.address.toNat else none
    | .run i _ pc => if bankerMay i s then State.sentenceNeeds n s ctx (s.nextSlot ctx pc) (count + 1) else none
    | .on pc => State.sentenceNeeds n s ctx pc count
/-- The sentence's instructions as they stand in memory, to the first trailer (R467): each allowed, the trailer a STOP. -/
def State.sentenceOk : Nat → State → Nat → DWord → Nat → Bool
  | 0, _, _, _, _ => false
  | n + 1, s, ctx, pc, count => match s.fetchAt ctx pc count with
    | .on pc => State.sentenceOk n s ctx pc count
    | .run i _ pc => (match i with
      | .stop _ => true
      | i => bankerMay i s && State.sentenceOk n s ctx (s.nextSlot ctx pc) (count + 1))
    | _ => false

/-! ### ATOMX (R287, R467) -/

/-- The banker of a cluster runs on its highest core in service (R20, R495). -/
def State.bankerCore (s : State) (cl : Nat) : Nat :=
  (((List.range 48).map (fun i => 48 * cl + 47 - i)).find? (fun c => !s.mgmt.retcores.contains c)).getD (48 * cl + 47)
def xopOf (o : GOp) : Nat := modBits o.mod 0 3
def atomxRmw (s : State) (o : GOp) (f : Fibre) : Rmw :=
  .custom (match s.launch f.ctx f.launch with
    | some l => l.xopEntry (xopOf o)
    | none => 0) (f.regsFrom o.b.num 4)
/-- The check of one lane: an aligned address in LOC 0 or LOC 3 memory off every window and view page, else PROT cause 12; then FORMAT
cause 10 for an operation that is not registered or has failed its check. -/
def atomxCheck (s : State) (o : GOp) (f : Fibre) : Plan :=
  let a := effAddr f o
  match s.laneAccess f a 16 16 true with
  | .error x => .fault x
  | .ok l =>
    let ok : Bool := match firstPlace l with
      | .mem _ loc => loc == 0
      | .peer _ v => v.isNone
      | _ => false
    let reg : Bool := match s.launch f.ctx f.launch with
      | some x => x.xop (xopOf o) && Tab.get x.xopState (xopOf o) != some false
      | none => false
    if !ok then .fault (FaultInfo.prot a.toNat 12)
    else if !reg then .fault (FaultInfo.format a.toNat 10)
    else .act (s.rmwLane f o.dst a l (atomxRmw s o f))
/-- The check of a sentence the first time an ATOMX names it in the launch (R467), on the first lane that reaches it; its port waits for
lines of the sentence that a peer owns. -/
def State.checkXop (s : State) (o : GOp) : State ⊕ State :=
  match s.group, gRow 0x30B with
  | some g, some r =>
    let reach (f : Fibre) : Bool := f.guard o.guard && !f.helper && s.preG f 0x30B o r .go == .go && (match atomxCheck s o f with
      | .act _ => true
      | _ => false)
    match g.fs.find? reach with
    | none => .inr s
    | some f => match s.launch f.ctx f.launch, atomxCheck s o f with
      | some l, .act m =>
        if (Tab.get l.xopState (xopOf o)).isSome then .inr s
        else match s.sentenceNeeds 32 f.ctx (l.xopEntry (xopOf o)) 0 with
        | some la => .inl (s.askCode g f.ctx f.stamp la)
        | none =>
          let entry := l.xopEntry (xopOf o)
          let dyn : Bool := match firstPlace m.spots with
            | .mem p _ => (s.customRun f.ctx f.launch (s.bankerCore (s.homeCluster p)) entry m.va (f.regsFrom o.b.num 4)
                (s.peek (lineBase p.line) 128)).isSome
            | _ => true
          .inr (s.putLaunch { l with
            xopState := Tab.set l.xopState (xopOf o) ((s.checkTarget f.ctx entry).isNone && s.sentenceOk 32 f.ctx entry 0 && dyn) })
      | _, _ => .inr s
  | _, _ => .inr s
/-- The accesses of ATOMX: far wherever they are (R287). -/
def atomxAct (o : GOp) : MemAct :=
  { far := fun _ m => match firstPlace m.spots with
      | .mem _ _ => true
      | _ => false,
    parts := fun _ _ m => plainParts m,
    perform := fun s _ m reply => match s.fibre m.key, m.acc with
      | some f, .rmw r => (match reply, firstPlace m.spots with
        | some (data, ts), _ => some (rmwInto f m 0x30B false ⟨s, ts, data, data.isEmpty⟩)
        | none, .mem p _ => s.goFar (.atomx o) f m p r
        | none, _ => some s)
      | _, _ => some s }
/-- An owner has found that a custom operation's sentence breaks R156 on a LOC 3 target: it is as if it were not registered from then on (R467). -/
def State.noteXop (s : State) (o : GOp) : State :=
  match s.group with
  | some g => (match g.fs with
    | f :: _ => if g.run.know.any (fun x => match x.2.2 with
        | .fault tag cause _ => tag == 0x43 && cause == 10
        | _ => false) then (match s.launch f.ctx f.launch with
          | some l => s.putLaunch { l with xopState := Tab.set l.xopState (xopOf o) false }
          | none => s) else s
    | [] => s)
  | none => s
def execAtomx (o : GOp) (s : State) : Out :=
  match (s.noteXop o).checkXop o with
  | .inl t => .next t
  | .inr t => runMem 0x30B o t (.atomx o) true (fun s f => atomxCheck s o f) noJoint (atomxAct o) noAfter

/-! ### BANKER_REQUEST (R155) -/

/-- A read-modify-write as the home's banker performs it: bytes of the line replaced and words returned. -/
def State.bankerRmw (s : State) (ag : Agent) (ctx launch cl va : Nat) (p : PA) (r : Rmw) : Acc × List Word :=
  match r with
  | .custom entry ops =>
    let base := lineBase p.line
    let x := Config.customResult s.accesses
    (match s.customRun ctx launch (s.bankerCore cl) entry (BitVec.ofNat 64 va) ops (s.peek base 128) with
    | some (t, line, ws) =>
      let q := t.rmwAt ag (va / 128 * 128) base 128 (fun _ => line)
      if q.err then (s.rmwAt ag (va / 128 * 128) base 128 id, ws) else (q, ws)
    | none => (s.rmwAt ag (va / 128 * 128) base 128 id, [loWord x, hiWord x]))
  | r =>
    let q := s.rmwAt ag va p (rmwSize r) (rmwApply r)
    (q, wordsOf q.data)
/-- One far request performed; its reply goes to the register's home (R155, R71). -/
def State.farOne (s : State) (cl : Nat) (r : FarReq) : State :=
  let ag : Agent := { ts := r.stamp, core := none, ctx := r.ctx, kind := 2, req := r.core, found := 0, host := false, peer := none, touch := [] }
  let (q, ws) := s.bankerRmw ag r.ctx r.launch cl r.va r.pa r.rmw
  if q.err then q.s.stopFor r.ctx
  else
    let s := q.s.setStamp r.fibre q.ts
    if r.n = 0 ∨ (s.fibre r.fibre).isNone then s
    else { s with fills := s.fills ++ [{ fibre := r.fibre, frame := r.frame, reg := r.reg, n := r.n, vals := ws.take r.n, producer := 0x285, loc2 := false }] }
/-- An agent without a port asks for a line of instructions of a LOC 3 page once (R371). -/
def State.askFor (s : State) (agent ctx ts la : Nat) : State :=
  if s.codeAsks.any (fun x => x.agent == agent && x.ctx == ctx && x.line == la && x.len == 0) then s
  else match s.askLine ctx ts (if agent < 256 then 3 else if agent = 264 then 1 else 0) la with
    | (t, some (_, id, _)) => { t with codeAsks := t.codeAsks ++ [{ agent := agent, ctx := ctx, line := la, len := 0, id := id, reply := none, ts := 0 }] }
    | (t, none) => t
/-- The agent has done with the lines it asked for. -/
def State.doneCode (s : State) (agent : Nat) : State :=
  if s.codeAsks.any (fun x => x.agent == agent) then { s with codeAsks := s.codeAsks.filter (fun x => x.agent != agent) } else s
/-- The number of a cluster's banker among the agents that ask for lines. -/
def bankerAgent (cl : Nat) : Nat := 272 + cl
/-- The line that a far request's sentence still waits for. -/
def State.farNeeds (s : State) (r : FarReq) : Option Nat := match r.rmw with
  | .custom entry _ => s.sentenceNeeds 32 r.ctx entry 0
  | _ => none
/-- Whether everything before a lane's access has been made: the lower lanes' accesses of its instruction (R276), and those of its fibre's earlier
instructions (R137). `others` are the requests on their way to bankers. -/
def State.laneFirst (s : State) (others : List FarReq) (fibre lane grp : Nat) : Bool :=
  let before (k l g : Nat) : Bool := (k == fibre && decide (g < grp)) || (g == grp && decide (l < lane))
  !others.any (fun r => before r.fibre r.lane r.grp) && !s.jobs.any (fun j => (j.todo ++ j.left).any (fun m => before m.key m.lane m.grp))
/-- All requests on their way to bankers, but for those of cluster cl. -/
def State.farElse (s : State) (cl : Nat) : List FarReq := (s.clusters.filter (fun c => c.1 != cl)).flatMap (fun c => c.2.banker ++ c.2.farBuf)
/-- Where a far request's access stands now: its page may have moved since it was sent (R366, R373). -/
def State.farPlace (s : State) (r : FarReq) : Place :=
  match s.resolve ⟨r.ctx, r.launch, r.core, none⟩ (BitVec.ofNat 64 r.va) (rmwSize r.rmw) 1 true with
  | .ok (.mem p loc) => if loc ≤ 1 then .mem p loc else .mem r.pa 0
  | .ok (.peer o v) => .peer o v
  | _ => .mem r.pa 0
/-- A far request whose page has moved to a peer in the meantime becomes an access of the fibre to that owner (R373). -/
def State.farAway (s : State) (r : FarReq) (owner : Nat) : State :=
  let f := (s.fibre r.fibre).getD (Fibre.make r.fibre 0 false r.ctx r.launch 0 r.lane r.core [] [] r.stamp 0 0 r.task)
  let m : MemLane := { key := r.fibre, lane := r.lane, words := [], va := BitVec.ofNat 64 r.va, spots := [⟨.peer owner none, r.va, rmwSize r.rmw⟩], acc := .rmw r.rmw,
                       frame := r.frame, reg := r.reg, cnt := r.n, grp := r.grp, gen := 0 }
  { s with jobs := s.jobs ++ [{ grp := r.grp, instr := r.instr, word := 0, fs := [f], acts := [m], todo := [m], left := [], nth := 0, part := [], reqs := [] }] }
/-- A request as it is performed where its page now stands, after the walk that shows the move (R366). -/
def State.farMoved (s : State) (r : FarReq) (p : PA) : State × FarReq :=
  if p = r.pa then (s, r)
  else
    let w := s.walkLoads { ts := r.stamp, core := none, ctx := r.ctx, kind := 2, req := r.core, found := 0, host := false, peer := none, touch := [] } r.va
    (w.s, { r with pa := p, stamp := w.ts })
/-- Up to n requests in order, with `buf` waiting behind them. A request waits for its place in the order, for a claimed line and for the lines of
its sentence, and those to its line wait behind it (R151, R155, R276, R371). -/
def State.farTake (s : State) (cl : Nat) (buf : List FarReq) : Nat → List FarReq → List FarReq → State × List FarReq
  | 0, l, kept => (s, kept.reverse ++ l)
  | _, [], kept => (s, kept.reverse)
  | n + 1, r :: l, kept =>
    if !s.laneFirst (s.farElse cl ++ kept ++ l ++ buf) r.fibre r.lane r.grp || s.walkWaits r.ctx r.va || kept.any (fun x => x.pa.line == r.pa.line) then
      State.farTake s cl buf (n + 1) l (r :: kept)
    else match s.farNeeds r, s.farPlace r with
      | some la, _ => State.farTake (s.askFor (bankerAgent cl) r.ctx r.stamp la) cl buf (n + 1) l (r :: kept)
      | none, .peer o _ => State.farTake (s.farAway r o) cl buf n l kept
      | none, .mem p _ =>
        if s.claimed p then State.farTake s cl buf (n + 1) l (r :: kept)
        else
          let (t, r) := s.farMoved r p
          State.farTake ((t.farOne cl r).doneCode (bankerAgent cl)) cl buf n l kept
      | none, _ => State.farTake s cl buf (n + 1) l (r :: kept)
/-- BANKER_REQUEST: the banker takes up to 32 requests; waiting requests then enter its queue in order (R466). -/
def execBankerRequest (cluster : Nat) (s : State) : Out :=
  if 8 ≤ cluster then .fault .noSuchPart
  else
    let (t, left) := s.farTake cluster (s.cluster cluster).farBuf 32 (s.cluster cluster).banker []
    let c := t.cluster cluster
    let room := 512 - left.length
    let u := t.putCluster cluster { c with banker := left ++ c.farBuf.take room, farBuf := c.farBuf.drop room }
    .next ((s.cluster cluster).banker.foldl (fun (s : State) r => s.landed r.fibre r.ctx r.launch r.task) u)

/-! ### The accesses of an issue that its port has left behind (R276, R371) -/

/-- How an instruction makes its accesses. -/
def memAct : Instr → MemAct
  | .ld o => ldAct o
  | .ldc _ => ldcAct
  | .st o => stAct o
  | .atom o => atomAct 0x285 (.atom o)
  | .atom64 o => atomAct 0x286 (.atom64 o)
  | .cas2 o => atomAct 0x287 (.cas2 o)
  | .red o => redAct o
  | .atomx o => atomxAct o
  | _ => plainAct (fun s _ _ => some s)
/-- The bytes an access touches, and whether it writes. -/
def accExtent : PeerAcc → Nat × Bool
  | .load n => (n, false)
  | .store d => (d.length, true)
  | .rmw r => (rmwSize r, true)
  | _ => (1, false)
/-- The places of a lane's access as they stand now, where a page may have moved since its check: to the other memory, or to another device (R366,
R373). -/
def State.nowSpots (s : State) (f : Fibre) (m : MemLane) : List Spot :=
  let moves (x : Spot) : Bool := match x.place with
    | .mem _ loc => decide (loc ≤ 1)
    | .peer _ v => v.isNone
    | _ => false
  if !m.spots.all moves then m.spots
  else match s.checkAccess (s.who f) m.va (accExtent m.acc).1 1 (accExtent m.acc).2 with
    | .ok l => if l.all moves then l else m.spots
    | .error _ => m.spots
/-- Whether a place is in a scratchpad bank that has another role by now: the access is judged by the new role (R120, R449). -/
def State.spotLost (s : State) (x : Spot) : Bool := match x.place with
  | .mem p 4 => (match Tab.get s.coreCtx (p.a / 2 ^ 21) with
    | some c => c.role (p.a % 2 ^ 21 / 65536) != 1
    | none => true)
  | _ => false
/-- A fault that an access finds after its instruction has left the port: its registers become full with unspecified values, and the fibre performs the
fault at its next trailer, the earliest one (log 85). -/
def State.lateFault (s : State) (f : Fibre) (m : MemLane) (word : Word) (x : FaultInfo) : State :=
  let (seed, s) := s.newSeed
  let s := if m.cnt = 0 then s else s.fillInto f.key m.frame 0 m.reg ((List.range m.cnt).map (Config.undefWord seed))
  s.modFibre f.key (fun g => match g.late with
    | some _ => g
    | none => { g with late := some x, latePc := f.pc, lateArg := word })
/-- A lane that has ended since stands again while its access is made, and then no more but for the stamp that it reached. -/
def State.asLane (s : State) (f : Fibre) (act : State → State) : State :=
  if (s.fibre f.key).isSome then act s
  else
    let t := act (s.putFibre f)
    let ts := (t.fibre f.key).elim f.stamp Fibre.stamp
    let jobs := t.jobs.map (fun (j : MemJob) => { j with fs := j.fs.map (fun g => if g.key = f.key then { g with stamp := max g.stamp ts } else g) })
    { t with fibres := Tab.erase t.fibres f.key, fills := t.fills.filter (fun x => x.fibre != f.key), jobs := jobs }
def State.putJob (s : State) (i : Nat) (j : MemJob) : State :=
  { s with jobs := if j.todo.isEmpty && j.left.isEmpty then s.jobs.eraseIdx i else setAt s.jobs i j }
/-- The first access of an issue still to be made is made at its place, or sent to the owner of its next place. -/
def State.jobLane (s : State) (i : Nat) (j : MemJob) (m : MemLane) (f : Fibre) : State :=
  let a := memAct j.instr
  let done : MemJob := { j with todo := j.todo.drop 1, nth := 0, part := [], reqs := [] }
  let perform (s : State) (m : MemLane) (r : Option (List Byte × Nat)) : State := match a.perform s j.acts m r with
    | some t => t.putJob i done
    | none => s
  match j.reqs.head? with
  | some q => (match q.answer with
    | none => s
    | some (.fault tag cause argx, _) => (s.putJob i done).lateFault f m j.word ⟨tag, cause.toNat, argx.toNat, BitVec.ofNat 64 q.va⟩
    | some (r, ts) =>
      let bs := match r with
        | .done bs => bs
        | _ => []
      (s.setStamp m.key ts).putJob i { j with nth := j.nth + 1, part := j.part ++ bs, reqs := [] })
  | none =>
    let m := if j.nth = 0 then { m with spots := s.nowSpots f m } else m
    let part := (a.parts s j.acts m)[j.nth]?
    if j.nth = 0 ∧ m.spots.any s.spotLost = true then (s.putJob i done).lateFault f m j.word (FaultInfo.prot m.va.toNat 3)
    else match if j.nth = 0 then s.laneWalks m.key 0 m.spots else (s, false) with
    | (s, true) => s.putJob i done
    | (s, false) =>
      if !m.spots.any Spot.isPeer then perform s m none
      else match part with
        | none => perform s m (some (j.part, (s.fibre m.key).elim 0 Fibre.stamp))
        | some x => match x.place with
          | .peer owner _ =>
            let id := s.link.nextId
            let msg : Msg := { dst := owner, tc := 1, ctx := f.ctx, stamp := (s.fibre m.key).elim 0 Fibre.stamp,
                               body := .access s.device id (BitVec.ofNat 64 x.va) x.acc 0 }
            ({ s with link := { s.link with nextId := id + 1, out := s.link.out ++ [msg] } }).putJob i
              { j with todo := m :: j.todo.drop 1, reqs := [{ id := id, fibre := m.key, va := x.va, answer := none }] }
          | _ =>
            let q := s.partHere f x
            if q.err then (q.s.stopFor f.ctx).putJob i done
            else (q.s.setStamp m.key q.ts).putJob i { j with todo := m :: j.todo.drop 1, nth := j.nth + 1, part := j.part ++ q.data }
/-- Whether the next access of an issue can be made: what comes before it has been (R137, R276), no line of it is claimed (R151, R366), and its banks
keep their roles (R120). -/
def State.jobMay (s : State) (j : MemJob) : Bool := match j.todo with
  | [] => false
  | m :: _ =>
    let f := (s.fibre m.key).orElse (fun _ => j.fs.find? (fun f => f.key == m.key))
    match j.reqs.head?, f with
    | some q, _ => q.answer.isSome
    | none, none => true
    | none, some f =>
      let l := if j.nth = 0 then s.nowSpots f m else m.spots
      s.laneFirst (s.farElse 8) m.key m.lane m.grp
        && (j.nth != 0 || !l.any (fun x => s.spotClaimed x || s.walkWaits f.ctx x.va || (match x.place with
          | .mem p _ => s.bankBusy p
          | _ => false)))
/-- The turn of the issue at a place of the list: its next access (R276). -/
def State.jobTurn (s : State) (i : Nat) : State := match s.jobs[i]? with
  | none => s
  | some j => match j.todo with
    | [] => s
    | m :: _ =>
      if !s.jobMay j then s
      else match j.fs.find? (fun f => f.key == m.key) with
        | none => s.putJob i { j with todo := j.todo.drop 1 }
        | some f => (s.asLane f (fun s => s.jobLane i j m f)).landed f.key f.ctx f.launch f.task
/-- HOME_MERGE (R163): a U line is merged with no access waiting. -/
def execHomeMerge (line : Nat) (s : State) : Out := .next (s.merge line 6)

end Sys2Proof.Machine
end

