-- ==== Sys2Proof/Machine/Link.lean ====
section
/-! DEFINITION. The link engine and the gang (R306, R368 to R376, R465, R471 to R474): link commands, arrivals from peers, accesses to
peer-owned pages, page ownership, and the completion of every engine command (R304, R503). -/

namespace Sys2Proof.Machine

/-! ### Messages -/

def State.sendMsg (s : State) (m : Msg) : State := { s with link := { s.link with out := s.link.out ++ [m] } }
/-- A message in a traffic class: class 1 for accesses to peer-owned pages and their replies, the command's own class for what a link command
brings about (R369). -/
def State.tell (s : State) (dst ctx ts : Nat) (b : MsgBody) (tc : Nat := 1) : State := s.sendMsg { dst := dst, tc := tc, ctx := ctx, stamp := ts, body := b }
/-- Core cycles of 1.25 ns in 100 ms, after which a missing message or route counts as lost (R471, R473, R474). -/
def linkWait : Nat := 80000000
/-- The first command of the link queue, if it is of a kind. -/
def State.linkHead (s : State) (op : Nat) : Option Cmd := match s.link.queue with
  | c :: _ => if c.op = op then some c else none
  | [] => none
def State.putLinkHead (s : State) (c : Cmd) : State := { s with link := { s.link with queue := c :: s.link.queue.drop 1 } }
/-- The head leaves the queue and waits for its completion: `v` is what its completion write carries once it is known. -/
def State.linkSent (s : State) (c : Cmd) (v : Option DWord) : State :=
  { s with link := { s.link with queue := s.link.queue.drop 1, sent := s.link.sent ++ [(c, v)] } }
/-- The completion value of a reason (R376, R472). -/
def reasonValue (r : Nat) : DWord := 0xFFFFFFFFFFFFFF00#64 + BitVec.ofNat 64 r
/-- A command that has failed with a reason. -/
def State.linkFail (s : State) (c : Cmd) (r : Nat) : State := s.linkSent { c with fail := some r } (some (reasonValue r))
/-- A link command whose read of a local source faults (R465): delivered, nothing halted, reason 7. -/
def State.linkSourceFault (s : State) (c : Cmd) (x : FaultInfo) : State := (s.reportCmd c x none).linkFail c 7
def Cmd.dev (c : Cmd) : Nat := c.field 192 7
def Cmd.tc (c : Cmd) : Nat := c.field 14 2
def Cmd.msg (c : Cmd) (b : MsgBody) : Msg := { dst := c.dev, tc := c.tc, ctx := c.ctx, stamp := c.stamp, body := b }

/-! ### Link commands -/

/-- LINK_SEND (R306): the payload is read a line at a time, then sent. -/
def execLinkSend (s : State) : Out :=
  match s.linkHead 0 with
  | none => .next s
  | some c =>
    let len := c.field 32 32
    if s.link.unreach.contains c.dev then .next (s.linkFail c 5)
    else if len ≤ c.buf.length then .next ((s.sendMsg (c.msg (.send (BitVec.ofNat 16 (c.field 208 16)) (c.buf.take len)))).linkSent { c with buf := [] } none)
    else match s.fetchPiece { c with began := true } State.putLinkHead c.stamp 16 (2 ^ 64) ((c.src + c.buf.length) % 2 ^ 64) (len - c.buf.length) with
      | .more t => .next t
      | .fault t x => .next (t.linkSourceFault { c with req := none } x)
      | .bytes t bs ts => .next (t.putLinkHead { c with began := true, req := none, buf := c.buf ++ bs, stamp := max c.stamp ts })
/-- LINK_RECEIVE_POST (R306): the buffer stands ready for matching sends. -/
def execLinkReceivePost (s : State) : Out :=
  match s.linkHead 1 with
  | none => .next s
  | some c =>
    let p : Post := { cmd := c, ctx := c.ctx, dev := c.dev, key := BitVec.ofNat 16 (c.field 208 16), len := c.field 32 32, addr := c.src }
    .next { s with link := { s.link with queue := s.link.queue.drop 1, posts := s.link.posts ++ [p] } }
/-- LINK_REMOTE_RED (R375). -/
def execLinkRemoteRed (s : State) : Out :=
  match s.linkHead 2 with
  | none => .next s
  | some c =>
    if s.link.unreach.contains c.dev then .next (s.linkFail c 5)
    else .next ((s.sendMsg (c.msg (.rred s.device (BitVec.ofNat 4 (c.field 32 4)) (BitVec.ofNat 64 c.dst) (BitVec.ofNat 64 (c.field 256 64))))).linkSent c none)
/-- LINK_REMOTE_CALL (R374): the record was read at the PUSH. -/
def execLinkRemoteCall (s : State) : Out :=
  match s.linkHead 3 with
  | none => .next s
  | some c =>
    let send (c : Cmd) : State :=
      (s.sendMsg (c.msg (.rcall (c.field 199 3) (c.field 224 16) (BitVec.ofNat 64 c.dst) c.record))).linkSent c none
    match c.bad, c.req with
    | some x, _ => .next (s.linkSourceFault c x)
    | none, some (_, none) => .next s
    | none, some (_, some (.done data, ts)) => .next (send { c with req := none, record := wordsOf data, stamp := max c.stamp ts })
    | none, some (_, some (.fault tag cause argx, _)) => .next (s.linkSourceFault { c with req := none } ⟨tag, cause.toNat, argx.toNat, BitVec.ofNat 64 c.src⟩)
    | none, some (_, some (.view .., _)) => .next (s.linkSourceFault { c with req := none } (FaultInfo.prot c.src 12))
    | none, none => if s.link.unreach.contains c.dev then .next (s.linkFail c 5) else .next (send c)

/-- What the check of a continuation to be transferred finds (R376 step 1): a reason, or none. -/
def State.xferCheck (s : State) (c : Cmd) : Option Nat × State :=
  let h := BitVec.ofNat 64 c.src
  let a := handleAddr h
  let (be, s) := s.blockErr c.ctx a
  let b := (s.heap c.ctx).block a
  if be then (some 2, if b.state = 0 then s.damage c.ctx a else s)
  else if b.genNow a ≠ handleGen h ∨ b.state = 1 then (some 1, s)
  else if 2 ≤ b.state then (some 2, s)
  else if !b.checkOk a then (some 2, s.damage c.ctx a)
  else
    let (se, s) := s.segsErr c.ctx b.segs
    if se then (some 2, s.damage c.ctx a)
    else if b.frames.any (fun f => !f.owned.isEmpty) then (some 3, s) else (none, s)
def State.dropXfer (s : State) (id : Nat) : State := { s with link := { s.link with xfers := s.link.xfers.filter (fun x => x.id != id) } }
/-- A transfer ends: its completion value is known. -/
def State.xferEnd (s : State) (x : Xfer) (r : Option Nat) : State :=
  let s := s.dropXfer x.id
  { s with link := { s.link with sent := s.link.sent ++ [({ x.cmd with fail := r }, some (match r with
    | some n => reasonValue n
    | none => x.cmd.cval))] } }
/-- CONTINUATION_TRANSFER (R376, R474). With no answer: step 1 for the head of the link queue, and the copies are sent. With DEV's
answer to transfer `id`: 0, the copies stand there, and step 4 reads and checks the block again and commits (R81), or fails, and DEV frees its copies when no commit comes (R474);
another reason, the transfer fails. -/
def execContinuationTransfer (answer : Option (Nat × BitVec 8)) (s : State) : Out :=
  match answer with
  | none => (match s.linkHead 4 with
    | none => .next s
    | some c =>
      if s.link.unreach.contains c.dev then .next (s.linkFail c 5)
      else match s.xferCheck c with
      | (some r, t) => .next (t.linkFail c r)
      | (none, t) =>
        let h := BitVec.ofNat 64 c.src
        let id := t.link.nextId
        let x : Xfer := { id := id, cmd := c, handle := h, committed := false }
        let t := t.sendMsg (c.msg (.xfer id (c.field 199 3) (c.field 224 16) (BitVec.ofNat 32 (c.field 256 32)) ((t.heap c.ctx).block (handleAddr h))))
        .next { t with link := { t.link with nextId := id + 1, queue := t.link.queue.drop 1, xfers := t.link.xfers ++ [x] } })
  | some (id, r) => match s.link.xfers.find? (fun x => x.id == id && !x.committed) with
    | none => .next s
    | some x =>
      let a := handleAddr x.handle
      if r ≠ 0 then .next (s.xferEnd x (some (if r = 4 ∨ r = 5 then r.toNat else 6)))
      else match s.xferCheck x.cmd with
      | (some n, s) => .next (s.xferEnd x (some n))
      | (none, s) =>
        let s := (s.consume x.cmd.ctx a).tell x.cmd.dev x.cmd.ctx x.cmd.stamp (.xferCommit id) x.cmd.tc
        .next { s with link := { s.link with xfers := s.link.xfers.map (fun (y : Xfer) => if y.id = id then { y with committed := true } else y) } }
/-- TRANSFER_FILING_ACK (R376 step 6): the source's segments and block are freed, and the command completes. -/
def execTransferFilingAck (id : Nat) (s : State) : Out :=
  match s.link.xfers.find? (fun x => x.id == id && x.committed) with
  | none => .next s
  | some x =>
    let a := handleAddr x.handle
    let h := s.heap x.cmd.ctx
    .next ((s.putHeap x.cmd.ctx ((h.freeSegs (h.block a).segs).freeBlock a)).xferEnd x none)

/-! ### Transfers that arrive (R376 steps 2, 3 and 5) -/

/-- Takes segments of the given classes, oldest first. -/
def Heap.takeSegs (d : CtxDesc) : List Seg → Heap → List (Nat × Nat) → Option (List (Nat × Nat) × Heap)
  | [], h, l => some (l, h)
  | g :: r, h, l => match h.takeSeg d g.cls with
    | none => none
    | some (a, h) => Heap.takeSegs d r h (l ++ [(g.addr, a)])
/-- An address moved with its segment. -/
def relocate (m : List (Nat × Nat)) (gs : List Seg) (a : Nat) : Nat :=
  match gs.find? (fun g => g.holds a) with
  | some g => match m.find? (fun x => x.1 == g.addr) with
    | some x => a - x.1 + x.2
    | none => a
  | none => a
/-- The copies of a transfer on this device: relocated, in a block of this heap, CHECK written anew. -/
def Block.relocated (b : Block) (m : List (Nat × Nat)) (gen : BitVec 7) (core dev launch : Nat) : Block :=
  let f (a : Nat) : Nat := relocate m b.segs a
  { b with state := 0, gen := gen, homecore := core, homedev := dev, top := f b.top, bottom := f b.bottom, launch := launch, patch := [],
           segs := b.segs.map (fun (g : Seg) => { g with addr := ((m.find? (fun x => x.1 == g.addr)).map Prod.snd).getD g.addr }),
           frames := b.frames.map (fun (x : Frame) => { x with addr := f x.addr }) }
/-- The copies of a peer's transfer arrive (R376 steps 2 and 3); the answer is 0, or reason 4 or 6. -/
def State.takeXfer (s : State) (src id ctx cluster launch : Nat) (b : Word) (blk : Block) (tc : Nat) : State :=
  let no (r : Nat) : State := s.tell src ctx 0 (.answer id r) tc
  match s.ctx ctx, s.launch ctx launch with
  | some c, some _ => if (s.key c.d.kslot).summary.stopped then no 6 else match Heap.takeSegs c.d blk.segs c.heap [] with
    | none => no 4
    | some (m, h) => match h.takeBlock c.d with
      | none => no 4
      | some (a, h) =>
        let nb := blk.relocated m (h.block a).gen (48 * (cluster % 8)) s.device launch
        let x : XferIn := { id := id, src := src, ctx := ctx, cluster := cluster % 8, launch := launch, b := b, handle := handleOf a nb.gen, tc := tc, since := s.cycle }
        let s := (s.putHeap ctx (h.putBlock a nb)).tell src ctx 0 (.answer id 0) tc
        { s with link := { s.link with xfersIn := s.link.xfersIn ++ [x] } }
  | _, _ => no 6
def State.dropXferIn (s : State) (id : Nat) : State := { s with link := { s.link with xfersIn := s.link.xfersIn.filter (fun x => x.id != id) } }
/-- TRANSFER_COMMIT_ARRIVAL (R474): the resume task is filed at the dealer of CLU, and the filing acknowledged. -/
def execTransferCommitArrival (id : Nat) (s : State) : Out :=
  match s.link.xfersIn.find? (fun x => x.id == id) with
  | none => .next s
  | some x =>
    let blk := (s.heap x.ctx).block (handleAddr x.handle)
    let (k, s) := s.newKey
    let t : WaitTask := {
      id := k, pc := blk.resumepc, ctx := x.ctx, launch := x.launch, fid := blk.eff.fid, stamp := blk.eff.stamp,
      timer := launchTimer s x.ctx x.launch, f := 0, l := 0, args := [], handle := some (x.handle, x.b) }
    .next (((s.arrive x.cluster t).dropXferIn id).tell x.src x.ctx blk.eff.stamp (.xferFiled id) x.tc)
/-- TRANSFER_COMMIT_TIMEOUT (R474): no commit for 100 ms; the copies are freed. -/
def execTransferCommitTimeout (id : Nat) (s : State) : Out :=
  match s.link.xfersIn.find? (fun x => x.id == id) with
  | none => .next s
  | some x =>
    if s.cycle < x.since + linkWait then .next s
    else
    let a := handleAddr x.handle
    let h := s.heap x.ctx
    .next ((s.putHeap x.ctx ((h.freeSegs (h.block a).segs).freeBlock a)).dropXferIn id)

/-! ### Other arrivals -/

def linkAgent (ts ctx src : Nat) : Agent := { ts := ts, core := none, ctx := ctx, kind := 5, req := src, found := 5, host := false, peer := some src, touch := [] }

/-- What has arrived and cannot be done yet waits in the inbox, as the rest of it when a part is done (R150, R151, R306, R371). -/
def State.waitIn (s : State) (i : Instr) : Out := match s.actor with
  | .inbox n => .next { s with inbox := s.inbox.map (fun x => if x.1 = n then (n, i) else x) }
  | _ =>
    let (n, s) := s.newKey
    .next { s with inbox := s.inbox ++ [(n, i)] }
/-- What waited in the inbox has been done. -/
def State.doneIn (s : State) : State := match s.actor with
  | .inbox n => { s with inbox := s.inbox.filter (fun x => x.1 != n) }
  | _ => s
/-- Whether what is being done has waited in the inbox. -/
def State.fromInbox (s : State) : Bool := match s.actor with
  | .inbox _ => true
  | _ => false
/-- The place in the inbox of what is being done, behind all that waits when it has only just arrived. -/
def State.inboxNo (s : State) : Nat := match s.actor with
  | .inbox n => n
  | _ => s.nextKey
/-- Whether something that waits in the inbox has arrived before what is being done. -/
def State.earlierIn (s : State) (p : Instr → Bool) : Bool := s.inbox.any (fun x => decide (x.1 < s.inboxNo) && p x.2)

/-- The receive-post that a send meets: the one that it has begun to fill, or the oldest that matches (R306). -/
def State.postFor (s : State) (src ctx : Nat) (key : BitVec 16) : Option Post :=
  (s.link.posts.find? (fun p => p.cmd.idx == some s.inboxNo)).or
    (s.link.posts.find? (fun p => p.cmd.idx.isNone && p.ctx == ctx && p.key == key && (p.dev == src || p.dev == 0x7F)))
/-- Replaces a receive-post. -/
def State.putPost (s : State) (old new : Post) : State :=
  { s with link := { s.link with posts := setAt s.link.posts (s.link.posts.findIdx (fun p => p == old)) new } }
/-- What the writing of a payload has come to. -/
inductive Filled where
  | done (s : State) (c : Cmd)
  | wait (s : State) (c : Cmd)
  | fault
/-- Writes what is left of a payload over its places, in order (R306): a claimed line and the owner of a LOC 3 page make it wait. -/
def State.fillPost : Nat → State → Cmd → Filled
  | 0, s, c => .wait s c
  | n + 1, s, c => match c.tgts with
    | [] => .done s c
    | t :: r =>
      let rest (ts : Nat) : Cmd := { c with tgts := r, buf := c.buf.drop t.n, req := none, stamp := max c.stamp ts }
      if t.loc = 3 then
        match c.req with
        | none =>
          let (id, s) := s.engAsk c.ctx c.stamp t.pa.a t.va (.rawStore none true (overParts t.va t.parts (c.buf.take t.n)))
          .wait s { c with req := some (id, none) }
        | some (_, none) => .wait s c
        | some (_, some (.fault .., _)) => .fault
        | some (_, some (_, ts)) => State.fillPost n s (rest ts)
      else if s.claimed t.pa || s.bankBusy t.pa then .wait s c
      else if s.roleLost c.ctx t then .fault
      else
        let q := s.engStore (engAgent c.stamp c.ctx 16) t.va t.pa t.loc (overParts t.va t.parts (c.buf.take t.n))
        State.fillPost n q.s (rest q.ts)
/-- SEND_ARRIVAL (R306): matched against the oldest receive-post of its context, key and sender, sends of one sender and key in their order; a
send with none waits. The post's command completes when the last byte has been written, and the sender is told. -/
def execSendArrival (src ctx : Nat) (key : BitVec 16) (data : List Byte) (ts : Stamped (BitVec 2)) (s : State) : Out :=
  let again : Instr := .sendArrival src ctx key data ts
  let tc := ts.val.toNat
  if (s.ctx ctx).isNone then .next (s.doneIn.tell src ctx ts.ts (.ack 6) tc)
  else if s.earlierIn (fun i => match i with
      | .sendArrival a b k _ _ => a == src && b == ctx && k == key
      | _ => false) then s.waitIn again
  else match s.postFor src ctx key with
  | none => s.waitIn again
  | some p =>
    let bs := data.take p.len
    let close (s : State) (p : Post) (c : Cmd) (v : DWord) (ts : Nat) (r : Nat) : Out :=
      let s := { s with link := { s.link with posts := removeFirst (fun x => x == p) s.link.posts, sent := s.link.sent ++ [({ c with idx := none, req := none }, some v)] } }
      .next (s.doneIn.tell src ctx ts (.ack r) tc)
    let bad (s : State) (p : Post) : Out := close s p { p.cmd with fail := some 6 } (reasonValue 6) ts.ts 6
    let fill (s : State) (p : Post) : Out := match s.fillPost (p.cmd.tgts.length + 1) p.cmd with
      | .fault => bad s p
      | .wait s c => (s.putPost p { p with cmd := c }).waitIn again
      | .done s c => close s p c (BitVec.ofNat 64 (bs.length % 2 ^ 32 + src % 128 * 2 ^ 32)) c.stamp 0
    if p.cmd.idx.isSome then fill s p
    else match s.claimAll p.cmd.who (engAgent (max ts.ts p.cmd.stamp) p.cmd.ctx 16) ((linePieces (bs.length / 128 + 2) p.addr bs.length).map (fun x => [x])) [] with
      | .fault s _ => bad s p
      | .wait => s.waitIn again
      | .lost s => s.waitIn again
      | .got s t l =>
        let q := { p with cmd := { p.cmd with tgts := l, buf := bs, stamp := t, idx := some s.inboxNo } }
        fill (s.putPost p q) q

/-! ### Accesses of peers at their owner (R371, R372) -/

/-- The agent for which an owner checks a peer's access: no launch of this device, no core, no team. -/
def peerWho (ctx : Nat) : Who := ⟨ctx, 65536, 0, none⟩
/-- Whether a custom far operation would break R156 on the line that holds its target: it is tried where the target is, at its owner (R467, log 78). -/
def State.customBad (s : State) (ctx : Nat) (va : BitVec 64) (p : PA) : Rmw → Bool
  | .custom entry ops => (s.customRun ctx 65536 (s.bankerCore (s.homeCluster p)) entry va ops (s.peek (lineBase p.line) 128)).isNone
  | _ => false
/-- The line of the sentence of a peer's custom far operation that this device must still ask for (R371). -/
def State.ownerNeeds (s : State) (ctx : Nat) : PeerAcc → Option Nat
  | .probe a => s.ownerNeeds ctx a
  | .rmw (.custom entry _) => s.sentenceNeeds 32 ctx entry 0
  | _ => none
/-- The checks the owner makes of an access in its own page tables (R372). -/
def State.ownerCheck (s : State) (ctx : Nat) (va : BitVec 64) : PeerAcc → Except FaultInfo (List Spot)
  | .probe a => s.ownerCheck ctx va a
  | .release _ => .ok []
  | acc =>
    let w := peerWho ctx
    if winBase ≤ va.toNat then .error (FaultInfo.prot va.toNat 12)
    else
      let plain (n al : Nat) (wr view : Bool) : Except FaultInfo (List Spot) := match s.checkAccess w va n al wr with
        | .error x => .error x
        | .ok l => (match (if view && anyView l then viewFault va.toNat n else none) with
          | some x => .error x
          | none => .ok l)
      let raw (n : Nat) (wr : Bool) : Except FaultInfo (List Spot) := (s.enginePlace w va.toNat n wr).map (fun p => [⟨p, va.toNat, n⟩])
      match acc with
      | .load n => plain n 1 false true
      | .store d => plain d.length 1 true true
      | .viewStore _ => plain 4 1 true false
      | .rmw r => (match plain (rmwSize r) (rmwSize r) true false with
        | .error x => .error x
        | .ok l => match firstPlace l with
          | .mem p loc => if rmwIsCustom r ∧ loc ≠ 0 then .error (FaultInfo.prot va.toNat 12)
              else if s.customBad ctx va p r then .error (FaultInfo.format va.toNat 10)
              else if loc = 2 ∧ !s.loc2Takes r then .error (FaultInfo.prot va.toNat 10) else .ok l
          | .view .. => .error (if rmwIsCustom r then FaultInfo.prot va.toNat 12 else FaultInfo.format va.toNat 4)
          | .region .. => if rmwIsCustom r then .error (FaultInfo.prot va.toNat 12) else .ok l
          | _ => .ok l)
      | .fetch => (match s.resolveLeaf w va.toNat false with
        | .error x => .error x
        | .ok (lf, _) => if lf.loc = 3 then .ok [⟨.peer lf.base none, va.toNat, 64⟩]
            else if !lf.x then .error (FaultInfo.prot va.toNat 6) else plain 64 1 false false)
      | .rawLoad _ n => raw n false
      | .rawStore _ _ d => raw (d.foldl (fun m x => max m (x.1 + x.2.length)) 0) true
      | .claim _ n => raw n true
      | .completion d => (match s.viewLeaf w va.toNat false with
        | some _ => .error (FaultInfo.format va.toNat 9)
        | none => plain d.length 8 true false)
      | .release _ => .ok []
      | .probe _ => .ok []
/-- The key at this device of a peer channel's claims. -/
def peerKey (src key : Nat) : Nat := 2 ^ 30 * (src + 1) + key
/-- Whether a peer's access must wait for a claimed line, or for the move of a page under its walk (R151, R366). -/
def State.ownerWaits (s : State) (src ctx : Nat) (va : Nat) (acc : PeerAcc) (l : List Spot) : Bool :=
  let own := match acc with
    | .rawStore (some k) _ _ => peerKey src k
    | .rawLoad (some k) _ => peerKey src k
    | .claim k _ => peerKey src k
    | _ => 2 ^ 64
  s.walkWaits ctx va || l.any (fun x => match x.place with
    | .mem p _ => (match acc with
      | .claim .. => !s.claimFirst own p
      | _ => s.claimedElse own p || s.claimedElse own { p with a := p.a + x.n - 1 }) || s.bankBusy p
    | .view v base _ off loc =>
      let (a, n) := v.span off x.n
      s.claimed ⟨locSpace loc, base + a⟩ || s.claimed ⟨locSpace loc, base + a + n - 1⟩
    | _ => false)
/-- An access of a peer performed at its owner: the bytes it answers. -/
def State.ownerPerform (s : State) (ag : Agent) (src ctx : Nat) (va : BitVec 64) (acc : PeerAcc) (l : List Spot) : Acc :=
  match acc, firstPlace l with
  | .load _, _ => s.loadSpots (peerWho ctx) ag l
  | .store d, _ => s.storeSpots ag l d
  | .viewStore d, .view v base _ off loc =>
    s.storeView { ag with touch := v.touched va.toNat off d.length } va.toNat ⟨locSpace loc, base + (v.place off).1⟩ loc d
  | .rmw r, .mem p loc =>
    if loc = 2 then
      let old := s.rawRead p (rmwSize r)
      ⟨s.hostWrite p.a (rmwApply r old), ag.ts, old, false⟩
    else
      let q := s.bankerRmw ag ctx 65536 (s.homeCluster p) va.toNat p r
      { q.1 with data := (bytesOfWords q.2).take (if (match r with
        | .custom _ _ => true
        | _ => false) then 8 else rmwSize r) }
  | .fetch, .mem p _ =>
    let (err, s) := s.readCheck p 64 5
    ⟨s, ag.ts, s.peek p 64, err⟩
  | .rawLoad _ n, .mem p _ => s.readSpan ag va.toNat p n
  | .completion d, .mem p loc => s.engStore ag va.toNat p loc [(0, d)]
  | .rawLoad _ n, .region a p => s.readRegion ag va.toNat a p n
  | .rawStore k last d, .mem p loc =>
    let r := s.engStore ag va.toNat p loc d
    (match k with
    | some k => if last then { r with s := r.s.unclaim (peerKey src k) p } else r
    | none => r)
  | .claim _ _, .mem p _ =>
    let (s, ts) := s.placeClaim ag.ts p
    ⟨s, ts, [], false⟩
  | _, _ => ⟨s, ag.ts, [], false⟩
/-- PEER_ACCESS_REQUEST (R371, R372): performed here when this device owns the page, forwarded to the owner its leaf names otherwise; after
two forwards PAGE cause 9. A claim takes its place behind the claims of its line as it arrives (R151). -/
def execPeerAccessRequest (src id ctx : Nat) (va : BitVec 64) (acc : PeerAcc) (ts hops : Nat) (s : State) : Out :=
  let again : Instr := .peerAccessRequest src id ctx va acc ts hops
  let reply (s : State) (ts : Nat) (r : PeerReply) : Out := .next (s.doneIn.tell src ctx ts (.reply id r))
  let fault (x : FaultInfo) : Out := reply s ts (.fault x.tag (BitVec.ofNat 8 x.cause) (BitVec.ofNat 16 x.argx))
  match acc with
  | .release k => .next (s.doneIn.releaseClaims (peerKey src k))
  | _ =>
    if (s.ctx ctx).isNone then fault (FaultInfo.page va.toNat 9 0)
    else match s.ownerNeeds ctx acc with
    | some la => (s.askFor 264 ctx ts la).waitIn again
    | none =>
    match s.ownerCheck ctx va acc with
    | .error x => if s.roleWait (peerWho ctx) x then s.waitIn again else fault x
    | .ok l => match firstPlace l with
      | .peer owner _ =>
        if l.isEmpty ∨ 2 ≤ hops then fault (FaultInfo.page va.toNat 9 0)
        else .next (s.doneIn.tell owner ctx ts (.access src id va acc (hops + 1)))
      | place => match acc, place with
        | .probe _, .view v _ size _ _ => reply s ts (.view v.fmt v.geo v.g size)
        | .probe _, _ => reply s ts (.done [])
        | acc, place =>
          let fresh := match s.actor with
            | .inbox _ => false
            | _ => true
          let s := match acc, place with
            | .claim k _, .mem p _ => if fresh then { s with claims := s.claims ++ [(p.line, peerKey src k)] } else s
            | _, _ => s
          if s.ownerWaits src ctx va.toNat acc l then s.waitIn again
          else
            -- The owner's walk is an access of this device (R365).
            let w := s.walkLoads { linkAgent ts ctx src with peer := none } va.toNat
            if w.err then .next (w.s.doneIn.stopFor ctx)
            else
              let q := w.s.ownerPerform (linkAgent w.ts ctx src) src ctx va acc l
              if q.err then .next (q.s.doneIn.stopFor ctx) else reply q.s q.ts (.done q.data)
/-- An answer reaches a command: for its access in progress, or for a claim (R151, R371). -/
def Cmd.answered (id : Nat) (r : PeerReply) (ts : Nat) (c : Cmd) : Cmd :=
  let c := match c.req with
    | some (i, none) => if i = id then { c with req := some (id, some (r, ts)) } else c
    | _ => c
  match c.tgts.find? (fun t => t.claim == .asked id) with
  | none => c
  | some t =>
    { c with
      stamp := max c.stamp ts
      tgts := c.tgts.map (fun x => if x.claim = .asked id then { x with claim := .placed } else x)
      bad := match r with
        | .fault tag cause argx => some (c.bad.getD ⟨tag, cause.toNat, argx.toNat, BitVec.ofNat 64 t.va⟩)
        | _ => c.bad }
/-- The stamp that a channel or fibre takes from the answer to one of its claims. -/
def State.claimStamps (s : State) (id ts : Nat) : State :=
  s.clusterCtx.foldl (fun (s : State) x => x.2.chans.foldl (fun (s : State) c =>
    match c.2.cmds.find? (fun m => m.tgts.any (fun t => t.claim == .asked id)) with
    | none => s
    | some m => if m.began then s.chanStamp m.ctx (x.1 % 8) c.1 ts else s.setStamp m.fibre ts) s) s
/-- An answer reaches whoever asked: a port, an issue that its port has left behind, a channel, a stream queue, the link engine, a sequencer, or an agent that fetches. -/
def State.answerAll (s : State) (id : Nat) (r : PeerReply) (ts : Nat) : State :=
  let cmd : Cmd → Cmd := Cmd.answered id r ts
  let s := s.claimStamps id ts
  { s with
    ports := s.ports.map (fun (p : Nat × PortRun) =>
      let run : PortRun := { p.2 with code := p.2.code.map (fun (c : Nat × Nat × Option PeerReply) => if c.2.1 = id then (c.1, id, some r) else c) }
      (p.1, match run.wait with
        | .peer b reqs => { run with wait := .peer b (reqs.map (fun (q : PeerReq) => if q.id = id then { q with answer := some (r, ts) } else q)) }
        | _ => run))
    clusterCtx := s.clusterCtx.map (fun (x : Nat × ClusterCtx) => (x.1, { x.2 with
      chans := x.2.chans.map (fun (c : Nat × Chan) => (c.1, { c.2 with cmds := c.2.cmds.map cmd }))
      streams := x.2.streams.map (fun (c : Nat × List Cmd × List Sub) => (c.1, c.2.1.map cmd, c.2.2)) }))
    link := { s.link with
      queue := s.link.queue.map cmd
      sent := s.link.sent.map (fun (x : Cmd × Option DWord) => (cmd x.1, x.2))
      posts := s.link.posts.map (fun (p : Post) => { p with cmd := cmd p.cmd }) }
    codeAsks := s.codeAsks.map (fun (x : CodeAsk) => if x.id = id then { x with reply := some r, ts := ts } else x)
    jobs := s.jobs.map (fun (j : MemJob) => { j with reqs := j.reqs.map (fun (q : PeerReq) => if q.id = id then { q with answer := some (r, ts) } else q) })
    teams := s.teams.map (fun (t : Nat × Team) => (t.1, { t.2 with
      seqr := { t.2.seqr with
        reqs := t.2.seqr.reqs.map (fun q => if q.1 = id then (id, some (r, ts)) else q)
        code := t.2.seqr.code.map (fun c => if c.2.1 = id then (c.1, id, some r) else c) } })) }
/-- PEER_ACCESS_REPLY (R371). -/
def execPeerAccessReply (id : Nat) (reply : PeerReply) (ts : Nat) (s : State) : Out := .next (s.answerAll id reply ts)
/-- REMOTE_RED_ARRIVAL (R375): one far access at the home of the owner, to which a device that does not own the page forwards it with the
source's name (R372), so that the source hears of it there; a fault there is reason 6 at the source. -/
def execRemoteRedArrival (src ctx : Nat) (op : BitVec 4) (addr value : BitVec 64) (ts : Stamped (BitVec 2)) (s : State) : Out :=
  let acc : PeerAcc := .rmw (.red op value)
  let tc := ts.val.toNat
  let no (s : State) : Out := .next (s.doneIn.tell src ctx ts.ts (.ack 6) tc)
  if (s.ctx ctx).isNone ∨ 12 < op.toNat then no s
  else match s.ownerCheck ctx addr acc with
  | .error x => if s.roleWait (peerWho ctx) x then s.waitIn (.remoteRedArrival src ctx op addr value ts) else no s
  | .ok l => match firstPlace l with
    | .peer owner _ => .next (s.doneIn.tell owner ctx ts.ts (.rred src op addr value) tc)
    | _ =>
      if s.ownerWaits src ctx addr.toNat acc l then s.waitIn (.remoteRedArrival src ctx op addr value ts)
      else
        let w := s.walkLoads (linkAgent ts.ts ctx src) addr.toNat
        if w.err then .next (w.s.doneIn.stopFor ctx)
        else
          let q := w.s.ownerPerform (linkAgent w.ts ctx src) src ctx addr acc l
          if q.err then .next (q.s.doneIn.stopFor ctx) else .next (q.s.doneIn.tell src ctx q.ts (.ack 0) tc)
/-- The number of the link engine among the agents that ask for lines. -/
def linkCode : Nat := 264
/-- REMOTE_CALL_ARRIVAL (R374): a new task at the named dealer, unless the launch is not live here or the entry fails R190. -/
def execRemoteCallArrival (src ctx cluster launch : Nat) (entry : BitVec 64) (args : List Word) (ts : Stamped (BitVec 2)) (s : State) : Out :=
  let tc := ts.val.toNat
  let no (s : State) : Out := .next ((s.doneIn.doneCode linkCode).tell src ctx ts.ts (.ack 6) tc)
  match s.launch ctx launch with
  | none => no s
  | some l =>
    match s.checkTarget ctx entry with
    | some x => if x.tag = 0 then (s.askFor linkCode ctx ts.ts x.address.toNat).waitIn (.remoteCallArrival src ctx cluster launch entry args ts) else no s
    | none =>
      if 8 ≤ cluster then no s
      else
        let (k, s) := s.newKey
        let t : WaitTask := {
          id := k, pc := entry, ctx := ctx, launch := launch, fid := BitVec.ofNat 32 (Config.fibreId k % 2 ^ 31), stamp := max ts.ts l.stamp,
          timer := l.gather, f := l.ef, l := l.el, args := args.take 16, handle := none }
        .next (((s.arrive cluster t).doneIn.doneCode linkCode).tell src ctx ts.ts (.ack 0) tc)

/-! ### Page ownership (R373, R473) -/

/-- The key of a hand-over's claims. -/
def handKey (ctx va : Nat) : Nat := 2 ^ 40 + ctx * 2 ^ 57 + va / 65536
/-- The migration range of a context that holds an address, and the page's number in it. -/
def Ctx.rangeOf (c : Ctx) (va : Nat) : Option (MigRange × Nat) :=
  (c.migr.find? (fun r => decide (r.vbase ≤ va) && decide (va < r.vbase + 65536 * r.pages))).map (fun r => (r, (va - r.vbase) / 65536))
/-- Changes the range that holds an address. -/
def State.modRange (s : State) (ctx va : Nat) (g : MigRange → Nat → MigRange) : State :=
  match s.ctx ctx with
  | none => s
  | some c => s.putCtx ctx { c with migr := c.migr.map (fun r =>
      if r.vbase ≤ va ∧ va < r.vbase + 65536 * r.pages then g r ((va - r.vbase) / 65536) else r) }
/-- A device agent whose accesses are neither logged nor counted: page moves and hand-overs. -/
def devAgent (ts ctx : Nat) : Agent := { ts := ts, core := none, ctx := ctx, kind := 63, req := 0, found := 1, host := false, peer := none, touch := [] }
/-- The leaf's LOC and ADDR written in one 8-byte store (R366 step 3). -/
def State.writeLeaf (s : State) (ctx ts : Nat) (pte : PA) (loc addr : Nat) : State :=
  let e := ofBytes (s.peek pte 8)
  let e' := e % 2 ^ 6 + loc * 2 ^ 6 + bitsOf e 8 12 * 2 ^ 8 + addr % 2 ^ 44 * 2 ^ 20
  (s.writeAt (devAgent ts ctx) (2 ^ 57) pte (leBytes 8 e')).s
/-- The 512 lines of a 64 KiB page. -/
def pageLines (sp : Space) (a : Nat) : List PA := (List.range 512).map (fun i => ⟨sp, a + 128 * i⟩)
/-- Claims lines as a copy command claims its destination (R151, R366), each placed in the order: the last stamp. -/
def State.claimLines (s : State) (key ts : Nat) (ls : List PA) : State × Nat :=
  ls.foldl (fun (x : State × Nat) p => x.1.placeClaim x.2 p) ({ s with claims := s.claims ++ ls.map (fun p => (p.line, key)) }, ts)
def State.dropHand (s : State) (ctx va : Nat) : State :=
  { s with link := { s.link with hands := s.link.hands.filter (fun h => !(h.ctx == ctx && h.va == va)) } }
def State.clearPeers (s : State) (ctx va : Nat) : State :=
  s.modRange ctx va (fun r i => { r with peers := Tab.erase r.peers i, reached := Tab.erase r.reached i })
/-- Whether a page holds part of a live queue's ring: it never migrates (R363). -/
def State.holdsRing (s : State) (ctx v : Nat) : Bool := s.queues.any (fun (q : Nat × Queue) =>
  q.2.ctx == ctx && decide (q.2.ring < v + 65536) && decide (v < q.2.ring + 64 * 2 ^ q.2.log2n))
/-- Whether page v of a migration range may move or change its owner (R363): a 64 KiB leaf of ordinary memory that holds no ring, its device backing
the context's own granule (R2); a range whose fields are not aligned as R363 says names no backing (log 81). -/
def State.migratable (s : State) (ctx v : Nat) (r : MigRange) (i : Nat) (lf : Leaf) : Bool :=
  lf.size == 65536 && !lf.fh && !lf.fc && lf.view.isNone && !s.holdsRing ctx v && r.vbase % 65536 == 0 && r.dback % 65536 == 0 && r.hback % 65536 == 0
    && s.granOwner ((r.dback + 65536 * i) / 65536) == some ctx
/-- Reads one line that a move or a hand-over has claimed, with what the line's poison mark covers (R454, R460). -/
def State.liftLine (s : State) (ts ctx : Nat) (p : PA) : Acc × Option Nat :=
  let r := s.readAt (devAgent ts ctx) (2 ^ 57) p 128
  let l := r.s.lineOf p.line
  ({ r with data := r.s.rawRead p 128 }, if l.poison then some l.sectors.toNat else none)
/-- OWNERSHIP_HANDOVER (R373, R460): the page's lines are claimed, each is read, and its data is sent in class 0 with its poison marks, at the stamp
of the claims. -/
def execOwnershipHandover (ctx : Nat) (va : BitVec 64) (peer : Nat) (s : State) : Out :=
  let v := va.toNat / 65536 * 65536
  match (s.ctx ctx).bind (fun c => c.rangeOf v), s.walk ctx v with
  | some (r, i), .ok lf =>
    let ls := pageLines .dev lf.base
    if Tab.get r.reached i ≠ some peer ∨ lf.loc ≠ 0 ∨ lf.base ≠ r.dback + 65536 * i ∨ s.migratable ctx v r i lf = false ∨ ls.any s.claimed
        ∨ s.link.hands.any (fun h => h.ctx == ctx && h.va == v) ∨ s.link.unreach.contains peer then .next s
    else
      let (s, ts) := s.claimLines (handKey ctx v) 0 ls
      let (s, ts, data, bad) := ls.zipIdx.foldl (fun (x : State × Nat × List (List Byte) × List (Nat × Nat)) p =>
        let (r, m) := x.1.liftLine x.2.1 ctx p.1
        (r.s, r.ts, r.data :: x.2.2.1, (m.map (fun k => (p.2, k))).toList ++ x.2.2.2)) (s, ts, [], [])
      let data := data.reverse.flatten
      let s := s.sendMsg { dst := peer, tc := 0, ctx := ctx, stamp := ts, body := .handData (BitVec.ofNat 64 v) data bad }
      .next { s with link := { s.link with hands := s.link.hands ++ [{ ctx := ctx, va := v, peer := peer, pending := false, since := s.cycle }] } }
  | _, _ => .next s
/-- HANDOVER_DATA (R473): the new owner installs the page in its own frame, at the stamp of the old owner's claims (R137), its leaf LOC 0, and holds
every access until the commit. The poison marks come with the data, sector by sector (R456, R460). A page that may not migrate takes nothing (R2,
R363, log 81). -/
def execHandoverData (src ctx : Nat) (va : BitVec 64) (data : Stamped (List Byte)) (poison : List (Nat × Nat)) (s : State) : Out :=
  let v := va.toNat / 65536 * 65536
  match (s.ctx ctx).bind (fun c => c.rangeOf v), s.walk ctx v with
  | some (r, i), .ok lf =>
    let base := r.dback + 65536 * i
    if s.migratable ctx v r i lf = false then .next s
    else
      let s := { s with dev := cellsWrite s.dev base (data.val.take 65536) }
      let s := (List.range 512).foldl (fun (s : State) j =>
        let lk := PA.line ⟨.dev, base + 128 * j⟩
        let bad := (poison.find? (fun x => x.1 == j)).map Prod.snd
        let l := s.lineOf lk
        s.putLine lk { l with
          wts := max l.wts data.ts, rts := max l.rts data.ts, poison := bad.isSome, hidden := 0, sectors := BitVec.ofNat 8 (bad.getD 0), upd := none, copies := [], excl := none }) s
      let (s, ts) := s.claimLines (handKey ctx v) data.ts (pageLines .dev base)
      let s := s.writeLeaf ctx ts lf.pte 0 (base / 256)
      let s := s.sendMsg { dst := src, tc := 0, ctx := ctx, stamp := 0, body := .handReceipt va }
      .next { s with link := { s.link with hands := s.link.hands ++ [{ ctx := ctx, va := v, peer := src, pending := true, since := s.cycle }] } }
  | _, _ => .next s
def State.handOf (s : State) (ctx va : Nat) (pending : Bool) : Option Hand :=
  s.link.hands.find? (fun h => h.ctx == ctx && h.va == va / 65536 * 65536 && h.pending == pending)
/-- HANDOVER_RECEIPT (R473): the old owner's leaf names the new owner, its claims are released, and the commit is sent. -/
def execHandoverReceipt (ctx : Nat) (va : BitVec 64) (peer : Nat) (s : State) : Out :=
  match s.handOf ctx va.toNat false, s.walk ctx va.toNat with
  | some h, .ok lf =>
    if h.peer ≠ peer then .next s
    else
      let s := (s.writeLeaf ctx 0 lf.pte 3 peer).releaseClaims (handKey ctx h.va)
      .next (((s.dropHand ctx h.va).clearPeers ctx h.va).sendMsg { dst := peer, tc := 0, ctx := ctx, stamp := 0, body := .handCommit va })
  | _, _ => .next s
/-- HANDOVER_COMMIT (R473): the new owner clears pending and serves the page. -/
def execHandoverCommit (ctx : Nat) (va : BitVec 64) (s : State) : Out :=
  match s.handOf ctx va.toNat true with
  | some h => .next (((s.releaseClaims (handKey ctx h.va)).dropHand ctx h.va).clearPeers ctx h.va)
  | none => .next s
/-- HANDOVER_RECEIPT_TIMEOUT (R473): the old owner keeps ownership and releases its claims; the count is cleared. -/
def execHandoverReceiptTimeout (ctx : Nat) (va : BitVec 64) (s : State) : Out :=
  match s.handOf ctx va.toNat false with
  | some h => if s.cycle < h.since + linkWait then .next s else .next (((s.releaseClaims (handKey ctx h.va)).dropHand ctx h.va).clearPeers ctx h.va)
  | none => .next s
/-- HANDOVER_COMMIT_TIMEOUT (R473): the new owner asks the old one; when that is unreachable the page stays pending, and accesses to it
perform PAGE cause 9 until software writes its leaf. -/
def execHandoverCommitTimeout (ctx : Nat) (va : BitVec 64) (s : State) : Out :=
  match s.handOf ctx va.toNat true with
  | none => .next s
  | some h =>
    if s.cycle < h.since + linkWait then .next s
    else if s.link.unreach.contains h.peer then
      match s.walk ctx h.va with
      | .ok lf =>
        .next (((s.releaseClaims (handKey ctx h.va)).dropHand ctx h.va).modRange ctx h.va (fun r i => { r with pending := Tab.set r.pending i lf.pte }))
      | .error _ => .next ((s.releaseClaims (handKey ctx h.va)).dropHand ctx h.va)
    else
      let again (y : Hand) : Hand := if y = h then { y with since := s.cycle } else y
      .next (({ s with link := { s.link with hands := s.link.hands.map again } } : State).sendMsg
        { dst := h.peer, tc := 0, ctx := ctx, stamp := 0, body := .handAsk va })

/-! ### Routes (R471, R472) -/

/-- The device an access request was sent to. -/
def State.askedOf (s : State) (id : Nat) : Option Nat := s.link.out.findSome? (fun m => match m.body with
  | .access src i _ _ _ => if src = s.device ∧ i = id then some m.dst else none
  | _ => none)
/-- The numbers of the requests that wait for an answer. -/
def State.openAsks (s : State) : List Nat :=
  let cmd (c : Cmd) : List Nat := (match c.req with
    | some (i, none) => [i]
    | _ => []) ++ c.tgts.filterMap (fun t => match t.claim with
    | .asked i => some i
    | _ => none)
  s.ports.flatMap (fun p => (p.2.code.filter (fun c => c.2.2.isNone)).map (fun c => c.2.1) ++ (match p.2.wait with
      | .peer _ reqs => (reqs.filter (fun (q : PeerReq) => q.answer.isNone)).map PeerReq.id
      | _ => []))
    ++ s.clusterCtx.flatMap (fun x => x.2.chans.flatMap (fun c => c.2.cmds.flatMap cmd) ++ x.2.streams.flatMap (fun c => c.2.1.flatMap cmd))
    ++ s.link.queue.flatMap cmd ++ s.link.sent.flatMap (fun x => cmd x.1) ++ s.link.posts.flatMap (fun p => cmd p.cmd)
    ++ s.jobs.flatMap (fun j => (j.reqs.filter (fun (q : PeerReq) => q.answer.isNone)).map PeerReq.id)
    ++ (s.codeAsks.filter (fun x => x.reply.isNone)).map CodeAsk.id ++ s.teams.flatMap (fun t => (t.2.seqr.reqs.filter (fun q => q.2.isNone)).map Prod.fst ++ (t.2.seqr.code.filter (fun c => c.2.2.isNone)).map (fun c => c.2.1))
/-- A committed transfer whose acknowledgement cannot come (R474): the source block is DAMAGED, its segments are freed. -/
def State.loseXfer (s : State) (x : Xfer) : State :=
  let a := handleAddr x.handle
  let s := if x.committed then
    let h := s.heap x.cmd.ctx
    let b := h.block a
    (s.putHeap x.cmd.ctx ((h.freeSegs b.segs).putBlock a { b with state := 2, segs := [], frames := [] })).modSummary x.cmd.ctx
      (fun m => { m with dcount := m.dcount + 1 })
  else s
  s.xferEnd x (some 5)
/-- The last route to a device is lost (R471). -/
def State.routeLost (s : State) (dev : Nat) : State :=
  if 127 ≤ dev ∨ (Tab.get s.link.noRoute dev).isSome then s else { s with link := { s.link with noRoute := Tab.set s.link.noRoute dev s.cycle } }
/-- Whether a device has had no route for 100 ms (R471). -/
def State.routeGone (s : State) (dev : Nat) : Bool := match Tab.get s.link.noRoute dev with
  | some t => decide (t + linkWait ≤ s.cycle)
  | none => false
/-- DESTINATION_UNREACHABLE (R471, R472): no route for 100 ms. Pending commands give reason 5, pending accesses PAGE cause 9. -/
def execDestinationUnreachable (dev : Nat) (s : State) : Out :=
  if 127 ≤ dev then .fault .noSuchPart
  else if s.link.unreach.contains dev || !s.routeGone dev then .next s
  else
    let s := { s with link := { s.link with unreach := dev :: s.link.unreach } }
    let s := { s with link := { s.link with sent := s.link.sent.map (fun (x : Cmd × Option DWord) =>
      if x.1.dev = dev ∧ x.2.isNone then ({ x.1 with fail := some 5 }, some (reasonValue 5)) else x) } }
    let s := (s.link.xfers.filter (fun x => x.cmd.dev == dev)).foldl State.loseXfer s
    .next ((s.openAsks.filter (fun i => s.askedOf i == some dev)).foldl (fun s i => s.answerAll i (.fault 0x10 9 0) 0) s)
/-- ROUTE_RETURN (R471). -/
def execRouteReturn (dev : Nat) (s : State) : Out :=
  if 127 ≤ dev then .fault .noSuchPart
  else .next { s with link := { s.link with unreach := s.link.unreach.filter (· != dev), noRoute := Tab.erase s.link.noRoute dev } }
/-- LINK_PORT_DOWN (R471): messages are sent again over another route; a corrected error is counted for none of them. -/
def execLinkPortDown (port : Nat) (s : State) : Out :=
  if 8 ≤ port then .fault .noSuchPart
  else .next { s with link := { s.link with downPorts := if s.link.downPorts.contains port then s.link.downPorts else port :: s.link.downPorts } }

/-! ### COMMAND_COMPLETE (R304, R472, R503) -/

/-- A link command completes with a value: its bound arrival, or its barrier broken when it failed; then its completion write, or the
link status counts the failure (R472, R503). -/
def State.completeLink (s : State) (i : Nat) (c : Cmd) (v : DWord) : State :=
  let arrived (s : State) : State := if c.fail.isSome then s.breakBound c else s.bindArrive c c.stamp
  let gone (s : State) : State := ({ s with link := { s.link with sent := s.link.sent.eraseIdx i } } : State).tidyLaunch c.ctx c.launch
  let missed (s : State) : State := { s with link := { s.link with failed := s.link.failed + 1 } }
  match s.completionStore c c.stamp 16 v with
  | .made t => gone (if c.fail.isSome && !c.cpl then missed (arrived t) else arrived t)
  | .fault _ => gone (missed (arrived s))
  | .wait => { s with link := { s.link with sent := setAt s.link.sent i (c, some v) } }
  | .ask t c =>
    let t := arrived t
    { t with link := { t.link with sent := setAt t.link.sent i ({ c with arrived := true }, some v) } }
/-- A copy or stream command completes: bound arrival, then completion write, whose fault halts the queue (R503). -/
def State.completeLocal (s : State) (cl q : Nat) (c : Cmd) (ts : Nat) (put : State → Cmd → State) (pop halt : State → State) : State :=
  match s.completionStore c ts (cl * 32 + q) c.cval with
  | .made t => (pop (t.bindArrive c ts)).tidyLaunch c.ctx c.launch
  | .fault x => ((halt (s.bindArrive c ts)).reportCmd c x (some (cl, q))).tidyLaunch c.ctx c.launch
  | .wait => s
  | .ask t x => put (t.bindArrive c ts) { x with arrived := true }
/-- A stream queue's first command is dropped, or all are when it halts (R464). -/
def State.popStream (s : State) (ctx cl st : Nat) : State :=
  let x := s.clc ctx cl
  let y := x.stream st
  s.putCLC ctx cl { x with streams := Tab.set x.streams st (y.1.drop 1, y.2) }
/-- Replaces a stream queue's first command. -/
def State.putStreamHead (s : State) (ctx cl st : Nat) (c : Cmd) : State :=
  let x := s.clc ctx cl
  let y := x.stream st
  s.putCLC ctx cl { x with streams := Tab.set x.streams st (c :: y.1.drop 1, y.2) }
def State.dropStream (s : State) (ctx cl st : Nat) : State :=
  let x := s.clc ctx cl
  let y := x.stream st
  let s := (s.putCLC ctx cl { x with streams := Tab.set x.streams st ([], y.2) }).haltStream ctx cl (17 + st)
  (y.1.drop 1).foldl (fun s c => (s.breakBound c).tidyLaunch ctx c.launch) s
/-- COMMAND_COMPLETE. For a copy channel or a stream queue, its first command once all its output is written or delivered. For the link
queue, its command number `index` that awaits completion: with the value it has, or with the peer's answer, 0 or reason 5 or 6, given at
a stamp that the completion follows (R306). -/
def execCommandComplete (cluster queue index : Nat) (answer : Stamped (BitVec 8)) (s : State) : Out :=
  if 8 ≤ cluster ∨ 25 ≤ queue then .fault .noSuchPart
  else if queue = 16 then
    match s.link.sent[index]? with
    | none => .next s
    | some (c, some v) => .next (s.completeLink index c v)
    | some (c, none) =>
      let c := { c with stamp := max c.stamp answer.ts }
      let r := if answer.val = 5 then 5 else 6
      .next (if answer.val = 0 then s.completeLink index c c.cval else s.completeLink index { c with fail := some r } (reasonValue r))
  else match s.turnOf cluster with
  | none => .next s
  | some ctx =>
    if queue < 16 then
      let x := s.chan ctx cluster queue
      match x.cmds with
      | c :: _ =>
        if !c.moved then .next s
        else .next (s.completeLocal cluster queue c x.stamp (fun t c => t.putHead cluster queue c)
          (fun t => let y := t.chan ctx cluster queue; t.putChan ctx cluster queue { y with cmds := y.cmds.drop 1 })
          (fun t => t.haltChan ctx cluster queue))
      | [] => .next s
    else match ((s.clc ctx cluster).stream (queue - 17)).1 with
      | c :: _ =>
        if !c.moved then .next s
        else .next (s.completeLocal cluster queue c c.stamp (fun t c => t.putStreamHead ctx cluster (queue - 17) c)
          (fun t => t.popStream ctx cluster (queue - 17)) (fun t => t.dropStream ctx cluster (queue - 17)))
      | [] => .next s

end Sys2Proof.Machine
end

