-- ==== Sys2Proof/Machine/Dyzil.lean ====
section
/-! DEFINITION. The Dyzil engines (R345 to R356, R491): the front end's accesses, the queue's error state, and the operations of queue
programs. -/

namespace Sys2Proof.Machine

/-! ### The front end's accesses (R341, R354) -/

/-- The front end as an agent (log 4: it is an engine whose REQ is 256 + q). -/
def feAgent (ts ctx q : Nat) : Agent :=
  { ts := ts, core := none, ctx := ctx, kind := 3, req := 256 + q, found := 3, host := false, peer := none, touch := [] }
/-- Whose address the front end translates: no launch, no team. -/
def feWho (ctx : Nat) : Who := ⟨ctx, 65536, 0, none⟩
/-- The place of a queue structure: LOC 0 or 1, no view, no frame-heap or future-cell page (R341, R354). `win` asks W of loads as
well, as the signal and watch window does (R354). -/
def State.fePlace (s : State) (ctx : Nat) (a : DWord) (n : Nat) (wr win : Bool) : Except FaultInfo PA :=
  match s.resolve (feWho ctx) a n 8 wr with
  | .error e => .error e
  | .ok p =>
    let noW := match s.walk ctx a.toNat with
      | .ok lf => !lf.w
      | .error _ => true
    let reg := (match s.walk ctx a.toNat with
      | .ok lf => lf.fh || lf.fc
      | .error _ => false) || (s.cdesc ctx).inRegion a.toNat
    match p with
    | .mem pa loc =>
      if win && reg then .error (FaultInfo.prot a.toNat 7)
      else if loc = 2 ∨ pa.sp = .sram then .error (FaultInfo.prot a.toNat 12)
      else if win && noW then .error (FaultInfo.prot a.toNat 5)
      else .ok pa
    | .region _ p => if win || wr then .error (FaultInfo.prot a.toNat 7) else .ok p
    | _ => .error (FaultInfo.prot a.toNat 12)

/-- What an access of the front end comes to; it waits for a line that is claimed (R151), or for the answer of the owner of a LOC 3 page, which has
still to be asked (R371). -/
inductive FeOut where
  | ok (s : State) (ts : Nat) (data : List Byte)
  | fault (x : FaultInfo)
  | err (s : State)
  | wait
  | ask (owner va n : Nat)

/-- Whether an access at a place, or its walk, meets a claimed line (R136, R151). -/
def State.feWaits (s : State) (ctx : Nat) (a : DWord) (p : PA) : Bool := s.claimed p || s.walkWaits ctx a.toNat

/-- A load of n bytes within one line. -/
def State.feLoad (s : State) (ctx q ts : Nat) (a : DWord) (n : Nat) (win : Bool) : FeOut :=
  match s.fePlace ctx a n false win with
  | .error x => .fault x
  | .ok p =>
    if s.feWaits ctx a p then .wait
    else
      let w := s.walkLoads (feAgent ts ctx q) a.toNat
      let ag := feAgent w.ts ctx q
      let r := match s.resolve (feWho ctx) a n 8 false with
        | .ok (.region va _) => w.s.readRegion ag a.toNat va p n
        | _ => w.s.readAt ag a.toNat p n
      if w.err || r.err then .err r.s else .ok r.s r.ts r.data
/-- A store within one line. -/
def State.feStore (s : State) (ctx q ts : Nat) (a : DWord) (bs : List Byte) (win : Bool) : FeOut :=
  match s.fePlace ctx a bs.length true win with
  | .error x => .fault x
  | .ok p =>
    if s.feWaits ctx a p then .wait
    else
      let w := s.walkLoads (feAgent ts ctx q) a.toNat
      if w.err then .err w.s
      else
        let r := w.s.writeAt (feAgent w.ts ctx q) a.toNat p bs
        .ok r.s r.ts []
/-- What queue q's engine has asked the owner of a LOC 3 page for (R371). -/
def State.feAsked (s : State) (q ctx va n : Nat) : Option CodeAsk :=
  s.codeAsks.find? (fun x => x.agent == q && x.ctx == ctx && x.line == va && x.len == n && n != 0)
/-- It asks: one request of class 1 with the queue's stamp. -/
def State.feAsk (s : State) (q ctx ts owner va n : Nat) : State :=
  let (id, s) := s.engAsk ctx ts owner va (.load n)
  { s with codeAsks := s.codeAsks ++ [{ agent := q, ctx := ctx, line := va, len := n, id := id, reply := none, ts := 0 }] }
/-- The pieces of a read that may span lines, one load for each: a program, a descriptor or a constant-bank image. What lies on a LOC 3 page is read
by its owner (R371). -/
def State.feReadPieces (ctx q : Nat) : List (Nat × Nat) → State → Nat → List Byte → FeOut
  | [], s, ts, acc => .ok s ts acc
  | x :: r, s, ts, acc =>
    match s.checkAccess (feWho ctx) (BitVec.ofNat 64 x.1) x.2 1 false with
    | .error e => .fault e
    | .ok l =>
      match l.findSome? (fun y => match y.place with
        | .peer o _ => some o
        | _ => none) with
      | some o => (match s.feAsked q ctx x.1 x.2 with
        | none => .ask o x.1 x.2
        | some a => match a.reply with
          | none => .wait
          | some (.done d) => State.feReadPieces ctx q r s (max ts a.ts) (acc ++ d)
          | some (.fault tag cause argx) => .fault ⟨tag, cause.toNat, argx.toNat, BitVec.ofNat 64 x.1⟩
          | some (.view ..) => .fault (FaultInfo.prot x.1 12))
      | none =>
      if l.any (fun y => match y.place with
        | .const _ => true
        | _ => false) then .fault (FaultInfo.prot x.1 12)
      else if l.any (fun y => match y.place with
        | .mem p _ => s.feWaits ctx (BitVec.ofNat 64 x.1) p
        | .view v b _ off loc =>
          let (k, m) := v.span off y.n
          s.feWaits ctx (BitVec.ofNat 64 x.1) ⟨locSpace loc, b + k⟩ || s.claimed ⟨locSpace loc, b + k + m - 1⟩
        | _ => s.walkWaits ctx x.1) then .wait
      else
        let w := s.walkLoads (feAgent ts ctx q) x.1
        let a := w.s.loadSpots (feWho ctx) (feAgent w.ts ctx q) l
        if w.err || a.err then .err a.s else State.feReadPieces ctx q r a.s a.ts (acc ++ a.data)
/-- A read of n bytes. One that waits leaves the state as it was, and is made whole once it need not. -/
def State.feRead (s : State) (ctx q ts va n : Nat) : FeOut := State.feReadPieces ctx q (linePieces (n / 64 + 2) va n) s ts []

/-! ### A queue's state -/

/-- Changes queue q. -/
def State.modQueue (s : State) (q : Nat) (g : Queue → Queue) : State := match s.queue q with
  | some x => s.putQueue q (g x)
  | none => s
/-- Watches the line of a place with the entry given: the first watches the write-index or status line, the second a wait's word
or slot (R344, R490). -/
def Queue.watchFirst (x : Queue) (lk : Nat) : Queue := { x with watch := lk :: x.watch.drop 1 }
def Queue.watchSecond (x : Queue) (lk : Nat) : Queue := { x with watch := x.watch.take 1 ++ [lk] }
def Queue.unwatch (x : Queue) : Queue := { x with watch := x.watch.take 1 }

/-- Frees a stopping queue once its packet has ended and its deferred signals are written (R349). Its nodes' numbers are freed when
none of their work remains (log 18). -/
def State.tidyQueue (s : State) (q : Nat) : State :=
  match s.queue q with
  | none => s
  | some x =>
    if x.stopping && x.pkt.isNone && x.deferred.isEmpty then
      let mine := s.launches.filter (fun l => l.ctx == x.ctx && l.node && l.queue == q)
      let s := {
        s with
        queues := Tab.erase s.queues q,
        launches := s.launches.map (fun l => if l.ctx == x.ctx && l.node && l.queue == q then { l with node := false } else l) }
      let s := mine.foldl (fun (s : State) (l : Launch) => s.tidyLaunch l.ctx l.num) s
      s.putQreg q { s.qreg q with state := 0, ecode := 0, epc := 0, destroy := false }
    else s

/-- The bytes that the error state writes to the status line: 8 to 15, and 24 (R349, R487). -/
def statusBytes (code epc etag ecause : Nat) : List Byte :=
  leBytes 8 (packNat [(2, 1), (14, 0), (16, code), (10, epc), (6, 0), (8, etag), (8, ecause)])
/-- QUEUE_ERROR (R349, R487, R491): the failing packet is not consumed, STATE becomes 2, the status line is written in one access
that leaves RESTARTIDX alone, and the entry moves to the status line. A status line that cannot be written leaves ECODE and EPC in
the control word only. A status line that is claimed is written once the claim has gone, by the wake that stays due (R151).
A packet that fails while its queue is being destroyed writes nothing: the queue is freed (DESIGN CHOICE, log 97). -/
def State.queueError (s : State) (q code epc etag ecause : Nat) : State :=
  match s.queue q with
  | none => s
  | some x =>
    let s := s.doneCode q
    let x := { x with pkt := none, loop := none, wait := .none, woken := false, watch := x.watch.take 1 }
    if x.stopping then (s.putQueue q x).tidyQueue q
    else
      let s := s.putQreg q { s.qreg q with state := 2, ecode := code, epc := epc }
      let st := BitVec.ofNat 64 x.status
      match s.fePlace x.ctx (st + 8) 8 true false with
      | .error _ => s.putQueue q { x with watch := [] }
      | .ok p =>
        if s.feWaits x.ctx (st + 8) p then s.putQueue q { x with woken := true, watch := [], errorInfo := some (etag, ecause) }
        else
          let w := s.walkLoads (feAgent x.stamp x.ctx q) (x.status + 8)
          let old := w.s.peek ⟨p.sp, p.a + 8⟩ 8
          let r := w.s.writeAt (feAgent w.ts x.ctx q) (x.status + 8) p (statusBytes code epc etag ecause ++ old ++ [0])
          r.s.putQueue q { x with stamp := r.ts, watch := [p.line], errorInfo := none }
/-- Whether a packet's engine is busy with it: running it, or waiting with it for an access or a launch number (R345, R348, R351). -/
def Queue.onEngine (x : Queue) : Bool := x.pkt.isSome && (x.wait == .none || x.wait == .access || x.wait == .launchNumber)
/-- Whether a wait that released its engine is satisfied (R345, R353). -/
def Queue.satisfied (x : Queue) : Bool := x.pkt.isSome && (x.wait == .resume || (x.wait == .signals && decide (x.deferred.length < 64)))
/-- The error of an access of the front end that would fault: 0x8007 with the fault's tag and cause (R349). -/
def State.queueFault (s : State) (q epc : Nat) (x : FaultInfo) : State := s.queueError q 0x8007 epc (x.tag.toNat % 256) (x.cause % 256)

/-! ### Executing an operation (R345, R346, R348) -/

def Queue.dreg (x : Queue) (n : BitVec 4) : DWord := x.d.getD n.toNat 0
def Queue.setD (x : Queue) (n : BitVec 4) (v : DWord) : Queue := { x with d := setAt x.d n.toNat v }
/-- Goes on at instruction `dest`; passing the end of a LOOP body from its last instruction starts the next pass (R346). -/
def Queue.goTo (x : Queue) (dest : Nat) : Queue :=
  match x.loop with
  | some (st, en, rem) =>
    if x.pc = en ∧ dest = en + 1 then
      if rem ≤ 1 then { x with pc := dest, loop := none } else { x with pc := st, loop := some (st, en, rem - 1) }
    else { x with pc := dest }
  | none => { x with pc := dest }
def Queue.advance (x : Queue) : Queue := x.goTo (x.pc + 1)
/-- Waits with the instruction at the program counter, which the engine keeps (R151, R371). -/
def Queue.stay (x : Queue) : Queue := { x with wait := .access }
/-- Every instruction executed counts one step; a wait's instruction counts when it is first executed (R348). -/
def Queue.count (x : Queue) : Queue := if x.wait = .none then { x with steps := x.steps + 1 } else { x with wait := .none }.unwatch

/-- The operation of the engine that runs queue q's packet: refused when no engine is acting. -/
def runD (s : State) (go : State → Nat → Queue → State) : Out :=
  match s.actor with
  | .dyzil q => match s.queue q with
    | some x => if x.pkt.isSome then .next (go s q x.count) else .refused .noEngine
    | none => .refused .noEngine
  | _ => .refused .noEngine
/-- An operation on the queue's registers and scratch alone. -/
def regD (s : State) (g : Queue → Queue) : Out := runD s (fun s q x => s.putQueue q (g x).advance)
/-- A branch by k when the condition holds (R346). -/
def branchD (s : State) (k : BitVec 16) (c : Queue → Bool) : Out :=
  runD s (fun s q x => s.putQueue q (if c x then x.goTo (x.pc + k.toNat) else x.advance))

def execDyzilLdp (a : BitVec 4) (w : BitVec 16) (s : State) : Out :=
  regD s (fun x => x.setD a ((x.pkt.getD []).getD w.toNat 0))
def execDyzilLds (a : BitVec 4) (w : BitVec 16) (s : State) : Out := regD s (fun x => x.setD a (x.scratch.getD w.toNat 0))
def execDyzilSts (w : BitVec 16) (b : BitVec 4) (s : State) : Out :=
  regD s (fun x => { x with scratch := setAt x.scratch w.toNat (x.dreg b) })
def execDyzilLdq (a : BitVec 4) (f : BitVec 16) (s : State) : Out := regD s (fun x => x.setD a (x.params.getD f.toNat 0))
def execDyzilMovi (a : BitVec 4) (x : BitVec 16) (s : State) : Out := regD s (fun q => q.setD a (x.signExtend 64))
def execDyzilAdd (a b : BitVec 4) (s : State) : Out := regD s (fun x => x.setD a (x.dreg a + x.dreg b))
def execDyzilAddi (a : BitVec 4) (x : BitVec 16) (s : State) : Out := regD s (fun q => q.setD a (q.dreg a + x.signExtend 64))
def execDyzilSub (a b : BitVec 4) (s : State) : Out := regD s (fun x => x.setD a (x.dreg a - x.dreg b))
def execDyzilAnd (a b : BitVec 4) (s : State) : Out := regD s (fun x => x.setD a (x.dreg a &&& x.dreg b))
def execDyzilOr (a b : BitVec 4) (s : State) : Out := regD s (fun x => x.setD a (x.dreg a ||| x.dreg b))
def execDyzilShl (a : BitVec 4) (n : BitVec 6) (s : State) : Out := regD s (fun x => x.setD a (x.dreg a <<< n.toNat))
def execDyzilShr (a : BitVec 4) (n : BitVec 6) (s : State) : Out := regD s (fun x => x.setD a (x.dreg a >>> n.toNat))
def execDyzilExt (a b : BitVec 4) (pos : BitVec 6) (len : BitVec 7) (s : State) : Out :=
  regD s (fun x => x.setD a (BitVec.ofNat 64 ((x.dreg b).toNat / 2 ^ pos.toNat % 2 ^ len.toNat)))
def execDyzilJmp (k : BitVec 16) (s : State) : Out := branchD s k (fun _ => true)
def execDyzilBeq (a b : BitVec 4) (k : BitVec 16) (s : State) : Out := branchD s k (fun x => x.dreg a == x.dreg b)
def execDyzilBne (a b : BitVec 4) (k : BitVec 16) (s : State) : Out := branchD s k (fun x => x.dreg a != x.dreg b)
def execDyzilBltu (a b : BitVec 4) (k : BitVec 16) (s : State) : Out :=
  branchD s k (fun x => decide ((x.dreg a).toNat < (x.dreg b).toNat))
def execDyzilLoop (c : BitVec 7) (n : BitVec 9) (s : State) : Out :=
  runD s (fun s q x => s.putQueue q { x with pc := x.pc + 1, loop := some (x.pc + 1, x.pc + n.toNat, c.toNat) })

/-! ### Emissions (R351 to R356) -/

/-- The clusters of a context's partition (R358, R406), as numbers. -/
def CtxDesc.clusters (d : CtxDesc) : List Nat := (List.range d.psize).map (· + d.pfirst)
/-- Cores of a cluster that are in service (R494). -/
def State.liveCores (s : State) (cl : Nat) : List Nat :=
  ((List.range 48).map (fun i => 48 * cl + i)).filter (fun c => !s.mgmt.retcores.contains c)
/-- Crew slots of a core: 64, one of them the banker's on the core that carries it (R16, R20, R495). -/
def State.slotsOf (s : State) (core : Nat) : Nat := if s.bankerCore (clusterOf core) = core then 63 else 64
/-- Whether the context's partition can ever hold a launch (R351). -/
def State.canHold (s : State) (d : CtxDesc) (l : Launch) : Bool :=
  d.clusters.any (fun cl => !s.mgmt.retcl.contains cl &&
    decide (l.tpb ≤ ((s.liveCores cl).filter (fun c => decide (l.crewsPer ≤ s.slotsOf c))).length))
/-- A launch made from the words of a granted descriptor. -/
def Launch.ofDesc (num ctx q : Nat) (node : Bool) (desc cbank args : List Word) (stamp : Nat) : Launch :=
  { num := num, ctx := ctx, node := node, cancel := false, queue := q, desc := desc, cbank := cbank, args := args, stamp := stamp,
    nextCluster := 0, xopState := [] }
/-- The argument record from d8 to d15, d8 in bytes 0 to 7 (R351, R352). -/
def Queue.args (x : Queue) : List Word := (x.d.drop 8).flatMap (fun d => [loWord d, hiWord d])
/-- The descriptor granted at t. -/
def Queue.grant (x : Queue) (t : Nat) : List Word := ((x.grants.getD t none).getD [])
/-- The next free launch number, from 16 to 65,535 in rotation: one of the first as many as there are launches, and one more, is free
unless none is (R351). -/
def State.freeNumber (s : State) (ctx start : Nat) : Option Nat :=
  ((List.range (min 65520 (s.launches.length + 1))).map (fun i => 16 + (start - 16 + i) % 65520)).find? (fun n => (s.launch ctx n).isNone)
/-- The line of a target on a LOC 3 page that its owner must still be asked for (R190, R371). -/
def State.targetNeeds (s : State) (ctx : Nat) (pc : DWord) : Option Nat := match s.checkTarget ctx pc with
  | some x => if x.tag = 0 then some x.address.toNat else none
  | none => none
/-- The line of an entry, root handler or matrix stream that must still be asked for. -/
def State.entriesNeed (s : State) (l : Launch) : Option Nat :=
  ((s.targetNeeds l.ctx l.entry).or (s.targetNeeds l.ctx l.root)).or
    (if l.isTeam && l.mstream != 0 then s.targetNeeds l.ctx l.mstream else none)
/-- Whether an entry, a root handler and a matrix stream meet R190 (R350, R351). -/
def State.entriesOk (s : State) (l : Launch) : Bool :=
  (s.checkTarget l.ctx l.entry).isNone && (s.checkTarget l.ctx l.root).isNone
    && (!l.isTeam || l.mstream == 0 || (s.checkTarget l.ctx l.mstream).isNone)
/-- The words of a constant-bank image (R350). -/
def Launch.cwords (l : Launch) : Nat := l.field 384 12
def Launch.cbankAt (l : Launch) : Nat := l.field 320 64

/-- LAUNCH (R351): 0x8003 before anything else, then the entries, a number, the bank; with no free number the packet waits. -/
def execDyzilLaunch (a : BitVec 4) (t : BitVec 16) (s : State) : Out :=
  runD s (fun s q x =>
    match s.ctx x.ctx with
    | none => s.putQueue q x
    | some c =>
      let l := Launch.ofDesc 0 x.ctx q false (x.grant t.toNat) [] x.args x.stamp
      let s := s.putQueue q x
      if !s.canHold c.d l then s.queueError q 0x8003 x.pc 0 0
      else match s.entriesNeed l with
      | some la => (s.putQueue q x.stay).askFor q x.ctx x.stamp la
      | none =>
      if !s.entriesOk l then s.queueError q 0x8005 x.pc 0 0
      else match s.freeNumber x.ctx c.nextLaunch with
        | none => (s.doneCode q).putQueue q { x with wait := .launchNumber }
        | some n => match s.feRead x.ctx q x.stamp l.cbankAt (4 * l.cwords) with
          | .fault e => s.queueFault q x.pc e
          | .err s => s.queueError q 0x8004 x.pc 0 0
          | .wait => s.putQueue q x.stay
          | .ask o va n => (s.putQueue q x.stay).feAsk q x.ctx x.stamp o va n
          | .ok s ts bs =>
            let s := s.doneCode q
            let l := { l with num := n, cbank := wordsOf bs, stamp := ts }
            let units := (List.range l.bands).map (fun b => ({ launch := n, band := b, since := s.cycle } : TeamUnit))
            let s := match s.ctx x.ctx with
              | some c => s.putCtx x.ctx { c with nextLaunch := if n = 65535 then 16 else n + 1, order := c.order ++ units }
              | none => s
            let s := { s with launches := s.launches ++ [l] }
            s.putQueue q ({ x with stamp := ts, launches := x.launches ++ [n] }.setD a (BitVec.ofNat 64 n)).advance)

/-- The dealer that takes a node's next record: HOME's, or under SPREAD those of the partition's clusters in turn from HOME (R352), from
the partition's first where HOME is none of them (DESIGN CHOICE, log 98). -/
def Launch.dealer (l : Launch) (d : CtxDesc) : Nat :=
  if l.spread then
    let i := if d.pfirst ≤ l.home ∧ l.home < d.pfirst + d.psize then l.home - d.pfirst else 0
    d.pfirst + (i + l.nextCluster) % (max 1 d.psize)
  else l.home
/-- REC (R352): one task to the node; a cancelled node takes none (R355). -/
def execDyzilRec (t : BitVec 16) (s : State) : Out :=
  runD s (fun s q x =>
    let s := s.putQueue q x
    match s.launch x.ctx t.toNat with
    | none => s.putQueue q x.advance
    | some l => match s.entriesNeed l with
      | some la => (s.putQueue q x.stay).askFor q x.ctx x.stamp la
      | none =>
      let ok := s.entriesOk l
      let s := s.doneCode q
      if !ok then s.queueError q 0x8005 x.pc 0 0
      else if l.cancel then s.putQueue q x.advance
      else
        let (k, s) := s.newKey
        let w : WaitTask := {
          id := k, pc := l.entry, ctx := x.ctx, launch := l.num, fid := BitVec.ofNat 32 (Config.fibreId k % 2 ^ 31), stamp := x.stamp,
          timer := l.gather, f := l.ef, l := l.el, args := x.args, handle := none }
        let s := (s.putLaunch { l with nextCluster := l.nextCluster + 1 }).arrive (l.dealer (s.cdesc x.ctx)) w
        s.putQueue q { x with tasks := x.tasks ++ [k] }.advance)

/-- Whether 8 bytes at an address lie in the signal and watch window, aligned (R353). -/
def Queue.inWindow (x : Queue) (a : DWord) : Bool :=
  decide (a.toNat % 8 = 0) && decide (x.winBase ≤ a.toNat) && decide (a.toNat + 8 ≤ x.winBase + x.winSize)
/-- SIGNAL (R353, R354): stored at once, or deferred behind the launches and tasks already emitted; with 64 deferred it holds. -/
def execDyzilSignal (a b : BitVec 4) (m : BitVec 16) (s : State) : Out :=
  runD s (fun s q x =>
    let s := s.putQueue q x
    let addr := x.dreg a
    if !x.inWindow addr then s.queueError q 0x8002 x.pc 0 0
    else if m = 0 then
      match s.feStore x.ctx q x.stamp addr (leBytes 8 (x.dreg b).toNat) true with
      | .fault e => s.queueFault q x.pc e
      | .err s => s.queueError q 0x8004 x.pc 0 0
      | .ok s ts _ => s.modQueue q (fun y => { x with stamp := ts, woken := y.woken }.advance)
      | _ => s.putQueue q x.stay
    else if 64 ≤ x.deferred.length then s.putQueue q { x with wait := .signals }
    else
      let d : Deferred := { addr := addr.toNat, value := x.dreg b, launches := x.launches, tasks := x.tasks }
      s.putQueue q { x with deferred := x.deferred ++ [d] }.advance)

/-- WAITV's comparison (R346). -/
def waitvMet (cc : Nat) (m v : Nat) : Bool :=
  match cc with
  | 0 => m == v
  | 1 => m != v
  | 2 => decide (v ≤ m)
  | _ => decide (m < v)
/-- WAITV (R353): tested with a load; when it fails, an entry on the word's line is held and the test is made again on every wake. -/
def execDyzilWaitv (a b : BitVec 4) (cc : BitVec 16) (s : State) : Out :=
  runD s (fun s q x =>
    let s := s.putQueue q x
    let addr := x.dreg a
    if !x.inWindow addr then s.queueError q 0x8002 x.pc 0 0
    else match s.feLoad x.ctx q x.stamp addr 8 true, s.fePlace x.ctx addr 8 false true with
      | .ok s ts bs, .ok p =>
        let x := { x with stamp := ts }
        if waitvMet cc.toNat (ofBytes bs) (x.dreg b).toNat then s.putQueue q x.advance
        else s.putQueue q ({ x with wait := .word addr.toNat, woken := false }.watchSecond p.line)
      | .fault e, _ => s.queueFault q x.pc e
      | .err s, _ => s.queueError q 0x8004 x.pc 0 0
      | .ok s _ _, .error e => s.queueFault q x.pc e
      | _, _ => s.putQueue q x.stay)

/-- CANCEL (R355). -/
def execDyzilCancel (a : BitVec 4) (s : State) : Out :=
  runD s (fun s q x => (s.putQueue q x.advance).cancel x.ctx ((x.dreg a).toNat % 65536))
/-- ERR (R349). -/
def execDyzilErr (code : BitVec 16) (s : State) : Out :=
  runD s (fun s q x => (s.putQueue q x).queueError q code.toNat x.pc 0 0)
/-- DONE (R348): the read index advances and RIDX is written. A status line that cannot be written leaves the packet unconsumed (R349). -/
def execDyzilDone (s : State) : Out :=
  runD s (fun s q x =>
    let s := s.putQueue q x
    match s.feStore x.ctx q x.stamp (BitVec.ofNat 64 x.status) (leBytes 8 (x.ridx + 1)) false with
    | .fault e => s.queueFault q x.pc e
    | .err s => s.queueError q 0x8004 x.pc 0 0
    | .wait => s.putQueue q x.stay
    | .ask .. => s.putQueue q x.stay
    | .ok s ts _ =>
      (s.modQueue q (fun y => { x with stamp := ts, ridx := x.ridx + 1, pkt := none, loop := none, wait := .none, woken := y.woken })).tidyQueue q)
/-- DYZIL_BUDGET (R348, R491): the packet would take its 257th step. -/
def execDyzilBudget (q : Nat) (s : State) : Out :=
  if 256 ≤ q then .fault .noSuchPart
  else match s.queue q with
    | some x => if x.pkt.isSome && x.steps == 256 && x.wait == .none then .next (s.queueError q 0x8001 x.pc 0 0) else .next s
    | none => .next s

end Sys2Proof.Machine
end

