-- ==== Sys2Proof/Machine/FrontEnd.lean ====
section
/-! DEFINITION. The queue front end (R340 to R350, R487 to R491): packets taken from rings, wakes, deferred signals, creation and
destruction of queue contexts. -/

namespace Sys2Proof.Machine

/-! ### Packets (R342, R343, R345, R348) -/

/-- The slot of packet i (R342). -/
def Queue.slotAddr (x : Queue) (i : Nat) : DWord := BitVec.ofNat 64 (x.ring + 64 * (i % 2 ^ x.log2n))
/-- Whether packet i with this header is fresh (R342). -/
def Queue.fresh (x : Queue) (i : Nat) (header : Nat) : Bool := header % 2 == i / 2 ^ x.log2n % 2
/-- Whether queue q has a packet to look at: it runs, no packet of it is being run or waited for, and its read index is behind the
write index; an index that cannot be read is looked at too. One whose index or slot lies in a claimed line is not looked at yet (R151). -/
def State.queueReady (s : State) (q : Nat) (x : Queue) : Bool :=
  (s.qreg q).state == 1 && !x.stopping && x.pkt.isNone && x.wait == .none && !s.mgmt.ckpt
    && (match s.fePlace x.ctx (BitVec.ofNat 64 x.widx) 8 false false with
      | .ok p => decide (x.ridx < ofBytes (s.peek p 8)) && !s.feWaits x.ctx (BitVec.ofNat 64 x.widx) p
        && (match s.fePlace x.ctx (x.slotAddr x.ridx) 64 false false with
          | .ok p => !s.feWaits x.ctx (x.slotAddr x.ridx) p
          | .error _ => true)
      | .error _ => true)
/-- The queue context that a free engine takes next: one with a fresh packet or a satisfied wait, in ascending numbers, starting after the
last one served (R345). -/
def State.nextQueue (s : State) : Option Nat :=
  if 16 ≤ (s.queues.filter (fun y => y.2.onEngine)).length then none
  else
    let l := s.queues.filter (fun y => s.queueReady y.1 y.2 || y.2.satisfied)
    match l.find? (fun y => decide (s.lastQueue < y.1)) with
    | some y => some y.1
    | none => l.head?.map Prod.fst
/-- PACKET_START (R343, R345, R348): a load that finds a stale header is discarded, and the slot's line is watched; the queue has been served only where
a packet was fresh. -/
def execPacketStart (q : Nat) (s : State) : Out :=
  if 256 ≤ q then .fault .noSuchPart
  else match s.queue q with
    | none => .next s
    | some x =>
      if s.nextQueue ≠ some q ∨ !s.queueReady q x then .next s
      else
        .next (match s.feLoad x.ctx q x.stamp (BitVec.ofNat 64 x.widx) 8 false with
          | .fault e => s.queueFault q 0 e
          | .err s => s.queueError q 0x8004 0 0 0
          | .wait => s
          | .ask .. => s
          | .ok s ts bs =>
            let s := s.modQueue q (fun y => { y with stamp := ts })
            if ofBytes bs ≤ x.ridx then s
            else match s.feLoad x.ctx q ts (x.slotAddr x.ridx) 64 false, s.fePlace x.ctx (x.slotAddr x.ridx) 64 false false with
              | .ok s ts bs, .ok p =>
                if x.fresh x.ridx (ofBytes (bs.take 8)) then
                  ({ s with lastQueue := q }).modQueue q (fun y =>
                    { y with stamp := ts, pkt := some (dwordsOf bs), d := List.replicate 16 0, pc := 0, steps := 0, loop := none })
                else s.modQueue q (fun y => { y with stamp := ts, wait := .stale }.watchSecond p.line)
              | .fault e, _ => s.queueFault q 0 e
              | .err s, _ => s.queueError q 0x8004 0 0 0
              | .ok s _ _, .error e => s.queueFault q 0 e
              | _, _ => s)

/-! ### Wakes (R344, R349, R487) -/

/-- QUEUE_RESTART (R349, R487): the queue goes on at RESTARTIDX; RIDX is written, STATE, ECODE and RESTART cleared, and the entry
returns to the write-index line. The last error's EPC stays. -/
def State.queueRestart (s : State) (q : Nat) (x : Queue) (ts idx : Nat) (p : PA) : State :=
  let w := s.walkLoads (feAgent ts x.ctx q) x.status
  let s := w.s
  let old := s.peek p 32
  let epc := ofBytes ((old.drop 8).take 8) / 2 ^ 32 % 2 ^ 10
  let bs := leBytes 8 idx ++ leBytes 8 (epc * 2 ^ 32) ++ (old.drop 16).take 8 ++ [0]
  let r := s.writeAt (feAgent w.ts x.ctx q) x.status p bs
  let s := r.s.putQreg q { r.s.qreg q with state := 1, ecode := 0, epc := 0 }
  let w := match s.fePlace x.ctx (BitVec.ofNat 64 x.widx) 8 false false with
    | .ok p => [p.line]
    | .error _ => []
  s.putQueue q { x with stamp := r.ts, ridx := idx, d := List.replicate 16 0, wait := .none, woken := false, watch := w }
/-- The wake of a queue in error reads the status line again. -/
def State.wakeError (s : State) (q : Nat) (x : Queue) : State :=
  let a := BitVec.ofNat 64 x.status
  match s.feLoad x.ctx q x.stamp (a + 16) 16 false, s.fePlace x.ctx a 8 true false with
  | .ok s ts bs, .ok p =>
    if bitOf (ofBytes (bs.drop 8)) 0 then s.queueRestart q x ts (ofBytes (bs.take 8)) p else s.putQueue q { x with stamp := ts }
  | .err s, _ => s.queueError q 0x8004 0 0 0
  | .wait, _ => s
  | _, _ => (s.putQreg q { s.qreg q with ecode := 0x8007, epc := 0 }).putQueue q { x with watch := [] }
/-- The wake of a wait on a stale header reads the slot again (R343). -/
def State.wakeStale (s : State) (q : Nat) (x : Queue) : State :=
  match s.feLoad x.ctx q x.stamp (x.slotAddr x.ridx) 64 false with
  | .fault e => s.queueFault q 0 e
  | .err s => s.queueError q 0x8004 0 0 0
  | .wait => s
  | .ask .. => s
  | .ok s ts bs =>
    if x.fresh x.ridx (ofBytes (bs.take 8)) then s.putQueue q { x with stamp := ts, wait := .none }.unwatch
    else s.putQueue q { x with stamp := ts }
/-- The wake of the write-index line's entry reads it again. -/
def State.wakeIndex (s : State) (q : Nat) (x : Queue) : State :=
  match s.feLoad x.ctx q x.stamp (BitVec.ofNat 64 x.widx) 8 false with
  | .fault e => s.queueFault q 0 e
  | .err s => s.queueError q 0x8004 0 0 0
  | .wait => s
  | .ask .. => s
  | .ok s ts _ => s.putQueue q { x with stamp := ts }
/-- What a wake reads: the status line of a queue in error, the slot or word of a wait, the write index. -/
def State.wakeAddr (s : State) (q : Nat) (x : Queue) : DWord :=
  if (s.qreg q).state = 2 then BitVec.ofNat 64 (x.status + 16)
  else match x.wait with
    | .stale => x.slotAddr x.ridx
    | .word a => BitVec.ofNat 64 a
    | _ => BitVec.ofNat 64 x.widx
/-- Whether the line that a wake reads is claimed: the wake stays due (R151). -/
def State.wakeWaits (s : State) (q : Nat) (x : Queue) : Bool :=
  let a := s.wakeAddr q x
  match s.fePlace x.ctx a 8 false false with
  | .ok p => s.feWaits x.ctx a p
  | .error _ => false
/-- A wait whose word satisfies it at a wake goes on when a free engine takes its queue in turn (R345). -/
def State.wakeWord (s : State) (q : Nat) (x : Queue) : Out := match decodeDyzil ((x.prog.getD x.pc 0).toNat) with
  | some (.dyzilWaitv a b cc) => (match execDyzilWaitv a b cc { s with actor := Actor.dyzil q } with
    | .next t => .next (t.modQueue q (fun y => if y.onEngine then { y with wait := .resume } else y))
    | o => o)
  | _ => .next s
/-- MONITOR_WAKE (R344). A wake that finds no change is harmless; a wake while a packet runs is seen when the index is read next. -/
def execMonitorWake (q : Nat) (s : State) : Out :=
  if 256 ≤ q then .fault .noSuchPart
  else match s.queue q with
    | none => .next s
    | some x =>
      if !x.woken || s.mgmt.ckpt || s.wakeWaits q x then .next s
      else
        let x := { x with woken := false }
        let s := s.putQueue q x
        if (s.qreg q).state = 2 then .next (match x.errorInfo with
          | some (t, c) => s.queueError q (s.qreg q).ecode (s.qreg q).epc t c
          | none => s.wakeError q x)
        else match x.wait, x.pkt with
          | .stale, _ => .next (s.wakeStale q x)
          | .word _, some _ => s.wakeWord q x
          | .none, none => .next (s.wakeIndex q x)
          | _, _ => .next s

/-! ### Deferred signals (R353, R354) -/

/-- A stamp not below that of any access made: a deferred signal is placed after every access of the work it waits for (R353). -/
def State.afterAll (s : State) : Nat := s.lines.foldl (fun m l => max m (max l.2.wts l.2.rts)) 0
/-- Whether the oldest deferred signal of a queue may be written now. A fault holds those behind it until the restart (R354). -/
def State.deferredDue (s : State) (q : Nat) (x : Queue) : Bool :=
  match x.deferred with
  | d :: _ => d.launches.isEmpty && d.tasks.isEmpty && !s.mgmt.ckpt && (x.stopping || (s.qreg q).state != 2 || x.wait != .signals)
  | [] => false
/-- DEFERRED_SIGNAL_WRITE (R353, R354): in the order in which the signals were executed. -/
def execDeferredSignalWrite (q : Nat) (s : State) : Out :=
  if 256 ≤ q then .fault .noSuchPart
  else match s.queue q with
    | none => .next s
    | some x => match x.deferred with
      | [] => .next s
      | d :: r =>
        if !s.deferredDue q x then .next s
        else
          let s := s.putQueue q { x with deferred := r }
          .next (match s.feStore x.ctx q (max x.stamp s.afterAll) (BitVec.ofNat 64 d.addr) (leBytes 8 d.value.toNat) true with
            | .ok s ts _ => (s.modQueue q (fun y => { y with stamp := ts })).tidyQueue q
            | .err s => s.queueError q 0x8004 0 0 0
            | .wait => s.putQueue q x
            | .ask .. => s.putQueue q x
            | .fault e => (s.queueFault q 0 e).modQueue q (fun y => { y with wait := .signals }))

/-! ### Creation (R340, R341, R347, R350, R354, R489) -/

/-- Why a creation fails: RESULT, SUB and WHERE of the creation report (R489). RESULT 256 is none: a read waits for a claimed line (R151) or for the
owner of a LOC 3 page (R371). -/
structure CreateFail where
  result : Nat
  sub : Nat
  loc : Nat

/-- A queue context descriptor's words. -/
def QRegs.words (x : QRegs) : List Word := wordsOf ((List.range 256).map (fun i => (Tab.get x.desc i).getD 0))
/-- The first 32-bit word of the descriptor with a field out of range or a zero field set (R340): a live context's CTXID, 0 for the management
controller alone (R406). -/
def queueDescBad (s : State) (mgmt : Bool) (ws : List Word) : Option Nat :=
  let f := wordsField ws
  let tests : List (Nat × Bool) :=
    [(0, f 0 64 % 64 != 0), (2, f 64 5 == 0 || decide (16 < f 64 5) || f 69 11 != 0 || (s.ctx (f 80 16)).isNone || (f 80 16 == 0 && !mgmt)), (3, f 96 32 != 0),
      (4, f 128 64 % 128 != 0), (6, f 192 64 % 128 != 0), (8, f 256 64 % 4 != 0), (10, f 330 22 != 0), (11, f 352 32 != 0),
      (12, f 384 64 % 8 != 0), (14, f 448 32 % 8 != 0), (15, f 480 32 != 0)]
  (tests.find? (fun t => t.2)).map Prod.fst
/-- The place of n bytes of a structure: RESULT 2 when a page lies outside LOC 0 and 1, or in host memory that the context may not use
(R361, R406), RESULT 8 when the translation or its checks
fault (R341, R489). -/
def State.structPlace (s : State) (ctx va n word loc : Nat) : Option CreateFail :=
  let step := ceilDiv (va % 65536 + n) 65536
  (List.range step).findSome? (fun i =>
    let a := if i = 0 then va else va / 65536 * 65536 + 65536 * i
    match s.resolve (feWho ctx) (BitVec.ofNat 64 a) 8 1 false with
    | .error e => some ⟨8, e.tag.toNat % 256, loc⟩
    | .ok (.mem p l) => if l = 2 ∨ p.sp = .sram ∨ (p.sp = .host ∧ !(s.hostCache && (s.cdesc ctx).hostmem)) then some ⟨2, 0, word⟩ else none
    | .ok (.region _ _) => none
    | .ok _ => some ⟨2, 0, word⟩)
/-- A read at creation: RESULT 8 with the fault's tag, RESULT 6 for an uncorrectable error (R489). -/
def State.createRead (s : State) (ctx q ts va n loc : Nat) : Except (CreateFail × State) (State × Nat × List Byte) :=
  match s.feRead ctx q ts va n with
  | .ok s ts bs => .ok (s, ts, bs)
  | .fault e => .error (⟨8, e.tag.toNat % 256, loc⟩, s)
  | .err s => .error (⟨6, 0, loc⟩, s)
  | .ask o a k => .error (⟨256, 0, 0⟩, s.feAsk q ctx ts o a k)
  | .wait => .error (⟨256, 0, 0⟩, s)

/-- The offset of a branch, and the length of a LOOP body. -/
def dyBranch : Instr → Option Nat
  | .dyzilJmp k => some k.toNat
  | .dyzilBeq _ _ k => some k.toNat
  | .dyzilBne _ _ k => some k.toNat
  | .dyzilBltu _ _ k => some k.toNat
  | _ => none
def dyLoop : Instr → Option Nat
  | .dyzilLoop _ n => some n.toNat
  | _ => none
/-- R347's conditions of the instruction at index i, in the order of SUB (R489). `kind t` is the KIND of a granted descriptor. -/
def dyCheck (prog : List (Option Instr)) (kind : Nat → Option Bool) (i : Nat) : Option Nat :=
  match prog.getD i none with
  | none => some 1
  | some x =>
    if !dyInRange x then some 1
    else if (match dyBranch x with
      | some k => k == 0 || decide (prog.length ≤ i + k)
      | none => false) then some 2
    else if (match dyLoop x with
      | some n => decide (prog.length ≤ i + n) || (List.range n).any (fun j => match prog.getD (i + 1 + j) none with
        | some y => (dyLoop y).isSome || (match dyBranch y with
          | some k => decide (n ≤ j + k)
          | none => false)
        | none => false)
      | none => false) then some 3
    else if (match x with
      | .dyzilLaunch _ t => kind t.toNat != some true
      | .dyzilRec t => kind t.toNat != some false
      | _ => false) then some 4
    else if i + 1 = prog.length ∧ !(match x with
      | .dyzilDone => true
      | .dyzilErr _ => true
      | _ => false) then some 5
    else none
/-- The program's first failure (R347, R489). -/
def programBad (prog : List (Option Instr)) (kind : Nat → Option Bool) : Option CreateFail :=
  (List.range prog.length).findSome? (fun i => (dyCheck prog kind i).map (fun sub => ⟨3, sub, i⟩))

/-- The checks of a granted descriptor in their order (R350). -/
def State.grantBad (s : State) (d : CtxDesc) (mgmt : Bool) (t : Nat) (l : Launch) : Option Nat :=
  let crews := List.range l.crewsPer
  let ringOk (j : Nat) : Bool := (l.ring j).count == 0 || (decide ((l.ring j).count ≤ 64) && decide (0 < (l.ring j).size))
  let ranges := decide (16 ≤ l.ef) && decide (4 ≤ l.rf) && decide (frameSize l.rf l.rl ≤ 32672) && decide (frameSize l.ef l.el ≤ 32736)
    && (!l.isTeam || (decide (1 ≤ l.tpb) && decide (l.tpb ≤ 48) && decide (1 ≤ l.bands) && crews.all (fun i => l.role i != 3)))
    && (l.field 400 16 == 0 || decide (64 ≤ l.field 400 16)) && decide (l.cwords ≤ 2048) && (List.range 8).all ringOk
  let zeros := l.field 158 2 == 0 && l.field 187 5 == 0 && l.field 202 6 == 0 && l.field 396 4 == 0 && l.field 428 84 == 0
    && l.field 1280 768 == 0
  if !ranges then some 1
  else if !zeros then some 2
  else if l.isTeam && !d.clusters.any (fun cl => decide (l.tpb ≤ (s.liveCores cl).length)) then some 3
  else if l.priv && !mgmt then some 4
  else if (List.range 8).any (fun j => decide (0x200000 < (l.ring j).off + (l.ring j).size * (l.ring j).count)) then some 5
  else if !l.isTeam && s.launches.any (fun y => y.ctx == d.ctxid && y.node && y.num == t) then some 6
  else none

/-- A read descriptor at its grant number, or what its read came to. -/
abbrev GrantRead := Option (Except CreateFail (List Word))
/-- Reads every granted descriptor once (R340). -/
def State.readGrants (ctx q : Nat) : List (Nat × Nat) → State → Nat → List GrantRead → State × Nat × List GrantRead
  | [], s, ts, acc => (s, ts, acc)
  | (t, a) :: r, s, ts, acc =>
    if a = 0 then State.readGrants ctx q r s ts (acc ++ [none])
    else match s.createRead ctx q ts a 256 (16 + t) with
      | .ok (s, ts, bs) => State.readGrants ctx q r s ts (acc ++ [some (.ok (wordsOf bs))])
      | .error (e, s) => State.readGrants ctx q r s ts (acc ++ [some (.error e)])
/-- Checks the grants in ascending number and reads each node's constant bank (R340, R350, R352). -/
def State.takeGrants (d : CtxDesc) (mgmt : Bool) (q : Nat) :
    List (Nat × GrantRead) → State → Nat → List Launch → State × Nat × Except CreateFail (List Launch)
  | [], s, ts, acc => (s, ts, .ok acc)
  | (_, none) :: r, s, ts, acc => State.takeGrants d mgmt q r s ts acc
  | (_, some (.error e)) :: _, s, ts, _ => (s, ts, .error e)
  | (t, some (.ok ws)) :: r, s, ts, acc =>
    let l := Launch.ofDesc t d.ctxid q true ws [] [] ts
    match s.grantBad d mgmt t l with
    | some n => (s, ts, .error ⟨4, n, t⟩)
    | none =>
      if l.isTeam then State.takeGrants d mgmt q r s ts acc
      else match s.createRead d.ctxid q ts l.cbankAt (4 * l.cwords) (32 + t) with
        | .error (e, s) => (s, ts, .error e)
        | .ok (s, ts, bs) => State.takeGrants d mgmt q r s ts (acc ++ [{ l with cbank := wordsOf bs, stamp := ts }])
/-- Whether every page of the signal and watch window meets R354. -/
def State.windowOk (s : State) (ctx base size : Nat) : Bool :=
  (List.range (ceilDiv (base % 65536 + size) 65536)).all (fun i =>
    let a := if i = 0 then base else base / 65536 * 65536 + 65536 * i
    decide (a + 8 ≤ 2 ^ 57) && (match s.fePlace ctx (BitVec.ofNat 64 a) 8 true true with
      | .ok _ => true
      | .error _ => false))

/-- Everything that creation reads and checks, in the order of R489; the queue and its nodes when it succeeds. -/
def State.buildQueue (s : State) (q : Nat) (mgmt : Bool) : State × Except CreateFail (Queue × List Launch) :=
  let ws := (s.qreg q).words
  let f := wordsField ws
  match queueDescBad s mgmt ws with
  | some w => (s, .error ⟨1, 0, w⟩)
  | none =>
    let ctx := f 80 16
    let d := s.cdesc ctx
    let fail := ((s.structPlace ctx (f 0 64) (64 * 2 ^ f 64 5) 0 0).or (s.structPlace ctx (f 128 64) 8 4 1)).or (s.structPlace ctx (f 192 64) 128 6 2)
    match fail with
    | some e => (s, .error e)
    | none => match s.createRead ctx q 0 (f 256 64) (4 * (f 320 10 + 1)) 3 with
      | .error (e, s) => (s, .error e)
      | .ok (s, ts, pb) =>
        let prog := wordsOf pb
        let addrs := (List.range 16).map (fun t => (t, f (512 + 64 * t) 64))
        let (s, ts, gs) := State.readGrants ctx q addrs s ts []
        let kind (t : Nat) : Option Bool := match gs.getD t none with
          | some (.ok ws) => some (wordsField ws 155 1 == 1)
          | _ => none
        let bad := programBad (prog.map (fun (w : Word) => decodeDyzil w.toNat)) kind
        let unread := (gs.findSome? (fun g => match g with
          | some (.error e) => some e
          | _ => none))
        match bad with
        | some e => (s, .error (match unread with
          | some u => if e.sub = 4 ∨ u.result = 256 then u else e
          | none => e))
        | none => match State.takeGrants d mgmt q ((List.range 16).zip gs) s ts [] with
          | (s, _, .error e) => (s, .error e)
          | (s, ts, .ok nodes) =>
            if f 448 32 ≠ 0 ∧ !s.windowOk ctx (f 384 64) (f 448 32) then (s, .error ⟨7, 0, 0⟩)
            else if 512 < 2 * (s.queues.length + 1) then (s, .error ⟨5, 0, 0⟩)
            else
              let watch := match s.fePlace ctx (BitVec.ofNat 64 (f 128 64)) 8 false false with
                | .ok p => [p.line]
                | .error _ => []
              let x : Queue := {
                ctx := ctx, mgmt := mgmt, ring := f 0 64, log2n := f 64 5, widx := f 128 64, status := f 192 64, prog := prog,
                winBase := f 384 64, winSize := f 448 32,
                grants := gs.map (fun g => match g with
                  | some (.ok ws) => some ws
                  | _ => none),
                params := (List.range 8).map (fun i => BitVec.ofNat 64 (f (1536 + 64 * i) 64)), d := List.replicate 16 0,
                scratch := List.replicate 32 0, ridx := 0, stamp := ts, pkt := none, pc := 0, steps := 0, loop := none, wait := .none,
                woken := false, watch := watch, deferred := [], launches := [], tasks := [], stopping := false, errorInfo := none }
              (s, .ok (x, nodes))
/-- QUEUE_CREATE (R340, R489): the creation report is written, then STATE becomes 1 or returns to 0. A queue context that is not
free is left alone (log 18). While a line that it reads is claimed, or the owner of a LOC 3 page has not answered, CREATE reads 1 and the creation
waits (R151, R371). In recovery none is created (R420). -/
def execQueueCreate (q : Nat) (mgmt : Bool) (s : State) : Out :=
  if 256 ≤ q then .fault .noSuchPart
  else if (s.queue q).isSome ∨ ((s.qreg q).create ∧ !s.fromInbox) ∨ !(s.mgmt.booted && !s.mgmt.recovery) then .next s
  else
    let report (r sub w : Nat) : DWord := BitVec.ofNat 64 (packNat [(8, r), (8, sub), (10, w)])
    match s.buildQueue q mgmt with
    | (t, b) =>
    if (match b with
      | .error e => e.result == 256
      | .ok _ => false) then
      (({ s with codeAsks := t.codeAsks, link := t.link }).putQreg q { s.qreg q with create := true }).waitIn (.queueCreate q mgmt)
    else .next (match (t.doneIn).doneCode q, b with
      | s, .error e => s.putQreg q { s.qreg q with create := false, state := 0, report := report e.result e.sub e.loc }
      | s, .ok (x, nodes) =>
        let s := {
          s with
          launches := s.launches.filter (fun (y : Launch) => !(y.ctx == x.ctx && nodes.any (fun n => n.num == y.num))) ++ nodes }
        (s.putQueue q x).putQreg q { s.qreg q with create := false, state := 1, ecode := 0, epc := 0, report := report 0 0 0 })

/-- QUEUE_DESTROY (R349): STATE 3; the running packet ends and deferred signals are written before the context is freed. -/
def execQueueDestroy (q : Nat) (s : State) : Out :=
  if 256 ≤ q then .fault .noSuchPart
  else match s.queue q with
    | none => .next s
    | some x =>
      let x := { x with stopping := true, wait := if x.pkt.isNone then .none else x.wait }
      .next (((s.putQueue q (if x.pkt.isNone then x.unwatch else x)).putQreg q { s.qreg q with state := 3, ecode := 0, epc := 0, destroy := true }).tidyQueue q)

end Sys2Proof.Machine
end

