-- ==== Sys2Proof/Machine/Matrix.lean ====
section
/-! DEFINITION. The matrix array and its sequencers (R312 to R339): the instructions of group 7, the operand streams (R330 to R334),
the completions of what they begin, and the sequencer's faults (R339, R452). -/

namespace Sys2Proof.Machine

/-! ### The sequencer -/

/-- The team whose sequencer n of a core has its turn. -/
def State.seqTeam (s : State) (core n : Nat) : Option (Nat × Team) :=
  s.teams.find? (fun t => t.2.core == core && t.2.seqNo == n && s.onTurn t.2.ctx (clusterOf core))
def Team.withSeqr (t : Team) (q : Seqr) : Team := { t with seqr := q }
def State.modSeqr (s : State) (tk : Nat) (g : Seqr → Seqr) : State := match s.team tk with
  | some t => s.putTeam tk (t.withSeqr (g t.seqr))
  | none => s
/-- A sequencer fault (R339): HALT, every barrier with INIT broken, the record kept until it is delivered. -/
def State.seqFault (s : State) (tk : Nat) (x : FaultInfo) (word : Word) : State :=
  match s.team tk with
  | none => s
  | some t =>
    let r := s.asyncRec 0 t.core t.seqr.sstamp x word t.seqr.spc 0 0 true
    let s := s.modSeqr tk (fun q => { q with halt := true, fault := some r, claimSince := none, reqs := [], probed := false, mem := none })
    (t.barriers.filter (fun b => b.2.init)).foldl (fun s b => s.breakBar tk b.1) s
/-- FORMAT cause 12, for misuse of slots, tiles and subscriptions (R452). -/
def seqFormat : FaultInfo := ⟨0x43, 12, 0, 0⟩
/-- Bits [31:0] of the instruction at SPC. -/
def State.seqWord (s : State) (t : Team) : Word := match s.fetchLine t.ctx (t.seqr.spc.toNat / 64 * 64) with
  | .ok (ws, _) => ws.getD (3 * (t.seqr.spc.toNat % 64)) 0
  | .error _ => 0
/-- The sequencer goes on at a program counter; of the lines fetched from peers it keeps the one it then stands on. -/
def State.seqGoto (s : State) (tk : Nat) (pc : DWord) : State := s.modSeqr tk (fun q => { q with
  spc := pc, reqs := [], probed := false, mem := none, code := q.code.filter (fun c => c.1 == pc.toNat / 64 * 64) })
/-- The sequencer goes on at the next instruction slot. -/
def State.seqNext (s : State) (tk : Nat) : State := match s.team tk with
  | some t => s.seqGoto tk (s.nextSlot t.ctx t.seqr.spc)
  | none => s
/-- Asks the owner of a LOC 3 page for a line that the sequencer has come to need (R371). -/
def State.seqNeeds (s : State) (tk : Nat) (t : Team) (la : Nat) : State :=
  if t.seqr.code.any (fun c => c.1 == la) then s
  else match s.askLine t.ctx t.seqr.sstamp 2 la with
    | (s, some c) => s.modSeqr tk (fun q => { q with code := q.code ++ [c] })
    | (s, none) => s
/-- What a sequencer instruction comes to: it proceeds, waits, or halts the sequencer. -/
inductive SeqOut where
  | go (s : State)
  | at_ (s : State) (pc : DWord)
  | wait (s : State)
  | fault (x : FaultInfo)
/-- Runs a group 7 instruction for the acting sequencer; issued by a crew, it performs ENCODING cause 8 (R204, R441). -/
def runX (op : Nat) (s : State) (go : State → Nat → Team → SeqOut) : Out :=
  match s.actor with
  | .port _ _ => (match s.group with
    | some g => .next (s.groupFault g g.run.word (g.fs.map (fun f => (f, LaneOut.fault ⟨0x30, 8, op, 0⟩ f))) id)
    | none => .refused .noIssueGroup)
  | .seqr core n => (match s.seqTeam core n with
    | none => .refused .noSequencer
    | some (tk, t) =>
      if t.seqr.halt then .next s
      else match go s tk t with
        | .go s => .next (s.seqNext tk)
        | .at_ s pc => .next (s.seqGoto tk pc)
        | .wait s => .next s
        | .fault x => .next (if x.tag = 0 then s.seqNeeds tk t x.address.toNat else s.seqFault tk x (s.seqWord t)))
  | _ => .refused .noSequencer
/-- A team whose descriptor names no matrix stream holds its sequencer idle (R312). -/
def State.seqIdle (s : State) (t : Team) : Bool := match s.launch t.ctx t.launch with
  | some l => l.mstream == 0
  | none => true
/-- Whether a sequencer begins no further instruction: its partition switches to another context (R337), or its team has lost its last fibre (R338). -/
def State.seqStops (s : State) (t : Team) : Bool :=
  t.crews.isEmpty || s.parts.any (fun p => p.2.switching && p.2.cur == some t.ctx)
/-- The walk for a line of instructions that the sequencer has come to, an access of the device like any (R115, R365). -/
def State.seqWalk (s : State) (tk : Nat) (t : Team) (la : Nat) : State :=
  if t.seqr.line = la then s
  else
    let r := s.walkLoads (fetchAgent t.ctx t.seqr.sstamp 2) la
    r.s.modSeqr tk (fun q => { q with sstamp := max q.sstamp r.ts, line := la })
/-- What a turn of a sequencer finds at SPC (R314, R316, R339), its stream's entry being judged first (R190, R312). -/
def State.seqTurn (s : State) (core n : Nat) : TurnOut :=
  let s := { s with actor := Actor.seqr core n }
  match s.seqTeam core n with
  | none => .done s
  | some (tk, t) =>
    if t.seqr.halt || s.seqIdle t || (s.seqStops t && !t.seqr.midway) then .done s
    else
      let pc := t.seqr.spc
      let la := pc.toNat / 64 * 64
      let entry := if t.seqr.entry then s.checkTarget t.ctx pc else none
      match entry with
      | some x => .done (if x.tag = 0 then s.seqNeeds tk t x.address.toNat else s.seqFault tk x 0)
      | none =>
      let s := if t.seqr.entry then s.modSeqr tk (fun q => { q with entry := false }) else s
      match s.fetchLine t.ctx la with
      | .error x => .done (if x.tag ≠ 0 then s.seqFault tk x 0 else s.seqNeeds tk t la)
      | .ok (ws, _) =>
        match slotFrom ws (pc.toNat % 64) with
          | none => .done (s.seqGoto tk (BitVec.ofNat 64 (la + 64)))
          | some k =>
            let s := s.modSeqr tk (fun q => { q with spc := BitVec.ofNat 64 (la + k) })
            let word := ws.getD (3 * k) 0
            match lineDefect ws true with
            | some a => .done (s.seqFault tk ⟨0x30, 6, a, 0⟩ 0)
            | none =>
            if word.toNat % 1024 < 0x380 then .done (s.seqFault tk ⟨0x30, 8, word.toNat % 1024, 0⟩ word)
            else match decodeSlot (slotBits ws k) with
              | .error e => .done (s.seqFault tk ⟨0x30, e.cause, e.argx, 0⟩ word)
              | .ok i => .run i (s.seqWalk tk t la)

/-! ### Slots and tiles (R318 to R321) -/

def State.putSlot (s : State) (ctx core i : Nat) (x : OpSlot) : State :=
  let c := s.cc ctx core
  s.putCC ctx core { c with slots := Tab.set c.slots i x }
def State.putTile (s : State) (ctx core i : Nat) (x : Tile) : State :=
  let c := s.cc ctx core
  s.putCC ctx core { c with tiles := Tab.set c.tiles i x }
def State.slotOf (s : State) (t : Team) (i : Nat) : OpSlot := (s.cc t.ctx t.core).slot i
def State.tileOf (s : State) (t : Team) (i : Nat) : Tile := (s.cc t.ctx t.core).tile i
def State.hasSlot (s : State) (tk : Nat) (t : Team) (i : Nat) : Bool := (s.slotOf t i).owner == some tk
def State.hasTile (s : State) (tk : Nat) (t : Team) (i : Nat) : Bool := (s.tileOf t i).owner == some tk
/-- The bits set in a mask. -/
def bitsSet (n x : Nat) : List Nat := (List.range n).filter (fun i => bitOf x i)
/-- The subscriptions of a team. -/
def State.subsOf (s : State) (tk : Nat) (t : Team) : List (Nat × Sub) :=
  (s.clc t.ctx (clusterOf t.core)).streams.flatMap (fun x => (x.2.2.filter (fun y => y.team == tk)).map (fun y => (x.1, y)))
/-- Whether a slot belongs to a subscription. -/
def State.inSub (s : State) (tk : Nat) (t : Team) (i : Nat) : Bool :=
  (s.subsOf tk t).any (fun x => decide (x.2.base ≤ i) && decide (i < x.2.base + x.2.count))
/-- Whether a slot may be a product's operand as far as subscriptions go: it holds the current tile, or belongs to none (R324, R332). -/
def State.subOk (s : State) (tk : Nat) (t : Team) (i : Nat) : Bool :=
  (s.subsOf tk t).all (fun x => !(decide (x.2.base ≤ i) && decide (i < x.2.base + x.2.count)) || (x.2.current && x.2.base + x.2.retired % x.2.count == i))
/-- What jobs read or write (R314). -/
def SeqJob.readsSlot (i : Nat) : SeqJob → Bool
  | .xmma _ a b => a == i || b == i
  | _ => false
def SeqJob.usesSlot (i : Nat) : SeqJob → Bool
  | .xload s => s == i
  | .xmma _ a b => a == i || b == i
  | .xdraina s _ => s == i
  | _ => false
def SeqJob.usesTile (i : Nat) : SeqJob → Bool
  | .xmma t _ _ => t == i
  | .xdrain t => t == i
  | .xdraina _ t => t == i
  | .xload _ => false
def SeqJob.isMma : SeqJob → Bool
  | .xmma _ _ _ => true
  | _ => false
def SeqJob.isDrain : SeqJob → Bool
  | .xdrain _ => true
  | .xdraina _ _ => true
  | _ => false
def SeqJob.isMem : SeqJob → Bool
  | .xload _ => true
  | .xdrain _ => true
  | _ => false
def State.addJob (s : State) (tk : Nat) (j : SeqJob) : State := s.modSeqr tk (fun q => { q with jobs := q.jobs ++ [j] })

/-- A claim waits behind an overlapping one issued earlier (R318). -/
def State.claimBehind (s : State) (tk : Nat) (t : Team) (since : Nat) (slots : BitVec 16) (tiles : BitVec 8) : Bool :=
  s.teams.any (fun x => x.1 != tk && x.2.ctx == t.ctx && x.2.core == t.core && (match x.2.seqr.claimSince with
    | some (n, a, b) => decide (n < since) && ((a &&& slots) != 0 || (b &&& tiles) != 0)
    | none => false))
def execXclaim (slots : BitVec 16) (tiles : BitVec 8) (s : State) : Out :=
  runX 0x380 s fun s tk t =>
    let ss := bitsSet 16 slots.toNat
    let ts := bitsSet 8 tiles.toNat
    if (slots == 0 && tiles == 0) || ss.any (s.hasSlot tk t) || ts.any (s.hasTile tk t) then .fault seqFormat
    else
      let since := match t.seqr.claimSince with
        | some x => x.1
        | none => s.ticks
      if ss.any (fun i => (s.slotOf t i).owner.isSome) || ts.any (fun i => (s.tileOf t i).owner.isSome) || s.claimBehind tk t since slots tiles then
        .wait (s.modSeqr tk (fun q => { q with claimSince := some (since, slots, tiles) }))
      else
        let s := ss.foldl (fun (s : State) i => let (seed, s) := s.newSeed; s.putSlot t.ctx t.core i { OpSlot.free with owner := some tk, seed := seed }) s
        let s := ts.foldl (fun (s : State) i => let (seed, s) := s.newSeed; s.putTile t.ctx t.core i { Tile.free with owner := some tk, seed := seed }) s
        .go (s.modSeqr tk (fun q => { q with claimSince := none }))
def execXrel (slots : BitVec 16) (tiles : BitVec 8) (s : State) : Out :=
  runX 0x381 s fun s tk t =>
    let ss := bitsSet 16 slots.toNat
    let ts := bitsSet 8 tiles.toNat
    if ss.any (fun i => !s.hasSlot tk t i || s.inSub tk t i) || ts.any (fun i => !s.hasTile tk t i) then .fault seqFormat
    else if t.seqr.jobs.any (fun j => ss.any (fun i => j.usesSlot i) || ts.any (fun i => j.usesTile i)) then .wait s
    else
      let s := ss.foldl (fun (s : State) i => s.putSlot t.ctx t.core i OpSlot.free) s
      .go (ts.foldl (fun (s : State) i => s.putTile t.ctx t.core i Tile.free) s)

/-- Shapes of operand tiles (R320): K, unit bytes, row bytes. -/
def opK (fmt : Nat) : Nat := if fmt ≤ 3 then 64 else if fmt = 6 then 256 else 128
def opUnit (fmt : Nat) : Nat := if fmt ≤ 3 then 2 else if fmt ≤ 5 then 1 else sxBytes fmt
def opUnits (fmt : Nat) : Nat := if fmt ≤ 5 then opK fmt else opK fmt / 16
def opRow (fmt : Nat) : Nat := opUnits fmt * opUnit fmt
def OpSlot.byte (x : OpSlot) (i : Nat) : Byte := (Tab.get x.data i).getD (Config.undefByte x.seed i)
def OpSlot.bytes (x : OpSlot) (i n : Nat) : List Byte := (List.range n).map (fun j => x.byte (i + j))
/-- Element k of slot row r, decoded exactly (R177, R320). -/
def OpSlot.elem (x : OpSlot) (fmt r k : Nat) : FVal :=
  if fmt ≤ 5 then elemVal fmt (ofBytes (x.bytes (r * opRow fmt + k * opUnit fmt) (opUnit fmt)))
  else sxElem fmt (ofBytes (x.bytes (r * opRow fmt + k / 16 * opUnit fmt) (opUnit fmt))) (k % 16)
/-- T[r][n] of a tile. -/
def Tile.word (x : Tile) (r n : Nat) : Word := (Tab.get x.data (64 * r + n)).getD (Config.undefWord x.seed (64 * r + n))

/-! ### Addresses of XLOAD and XDRAIN (R322, R323, R326) -/

/-- PROT, FORMAT and ALIGN as the sequencer records them (R452): forbidden windows, page kinds and LOCs are PROT cause 12, and every FORMAT is cause 12, an
owner's too (R135). -/
def seqCause (x : FaultInfo) : FaultInfo :=
  if x.tag = 0x11 ∧ (x.cause = 2 ∨ x.cause = 4 ∨ x.cause = 7 ∨ x.cause = 11) then { x with cause := 12 }
  else if x.tag = 0x43 then { x with cause := 12 }
  else if x.tag = 0x34 then { x with cause := 6 } else x
def Team.who (t : Team) (tk : Nat) : Who := ⟨t.ctx, t.launch, t.core, some tk⟩
/-- One piece's place: a view page is read in stored form and never written; LOC 2 is PROT cause 12. -/
def State.seqPlace (s : State) (w : Who) (va n : Nat) (wr : Bool) : Except FaultInfo Place :=
  match s.viewLeaf w va wr with
  | some (_, lf) => if lf.loc = 2 then .error (FaultInfo.prot va 12) else if wr then .error seqFormat else
    (match s.enginePlace w va n false with
    | .error x => .error (if x.tag = 0x43 then seqFormat else x)
    | r => r)
  | none => match s.resolve w (BitVec.ofNat 64 va) 1 1 wr with
    | .error x => .error (seqCause x)
    | .ok (.const _) => .error (FaultInfo.prot va 12)
    | .ok (.mem p loc) => if loc = 2 then .error (FaultInfo.prot va 12) else .ok (.mem p loc)
    | .ok p => .ok p
/-- The places of one access, in address order: two when it crosses into another line that does not follow on in memory, or into another page of a
peer's. -/
def State.seqSpots (s : State) (w : Who) (wr : Bool) (va n : Nat) : Except FaultInfo (List Spot) :=
  match (pieces va n).mapM (fun x => (s.seqPlace w x.1 x.2 wr).map (fun p => (⟨p, x.1, x.2⟩ : Spot))) with
  | .error e => .error e
  | .ok [⟨.mem p loc, v, k⟩, ⟨.mem q loc', v', k'⟩] =>
    .ok (if loc = loc' ∧ q.sp = p.sp ∧ q.a = p.a + k then [⟨.mem p loc, v, k + k'⟩] else [⟨.mem p loc, v, k⟩, ⟨.mem q loc', v', k'⟩])
  | .ok [⟨.peer o x, v, k⟩, ⟨.peer o' x', v', k'⟩] =>
    .ok (if o = o' ∧ v / 65536 = v' / 65536 then [⟨.peer o x, v, k + k'⟩] else [⟨.peer o x, v, k⟩, ⟨.peer o' x', v', k'⟩])
  | .ok l => .ok l
/-- The places of all accesses, or the first fault, in order. An access that reaches a peer's page is made page by page. -/
def seqPlaces (s : State) (w : Who) (wr : Bool) : List (Nat × Nat) → List (List Spot) → Except FaultInfo (List (List Spot))
  | [], l => .ok l.reverse
  | x :: r, l => match s.seqSpots w wr x.1 x.2 with
    | .error e => .error e
    | .ok p => seqPlaces s w wr r (if p.any Spot.isPeer then (p.map (fun y => [y])).reverse ++ l else p :: l)
/-- a and p of an address operand (R322). -/
def seqBase (q : Seqr) (ga : BitVec 3) (off : BitVec 20) : Nat := (q.g.getD ga.toNat 0 + off.signExtend 64).toNat
def seqPitch (q : Seqr) (gb : BitVec 3) : Int := signed 64 (q.g.getD gb.toNat 0).toNat
def rowAt (a : Nat) (p : Int) (r : Nat) : Nat := wrap 64 ((a : Int) + p * r)
/-- The rows of n bytes of an access, cut at line boundaries. -/
def rowPieces (a : Nat) (p : Int) (n : Nat) : List (Nat × Nat) := (List.range 64).flatMap (fun r => linePieces 4 (rowAt a p r) n)
/-- XLOAD's accesses in order: the lines of rows, or units (R322). -/
def loadPieces (fmt : Nat) (cols : Bool) (a : Nat) (p : Int) : List (Nat × Nat) :=
  if cols then (List.range 64).flatMap (fun r => (List.range (opUnits fmt)).map (fun j => ((rowAt a p j + r * opUnit fmt) % 2 ^ 64, opUnit fmt)))
  else rowPieces a p (opRow fmt)
/-- An odd address or pitch where rows lie in a scratchpad window (R323, R326): m is 2 for XLOAD, 4 for XDRAIN. It
comes before the PROT and PAGE of every address, with the base as ADDRESS (DESIGN CHOICE, log 96). -/
def seqAlign (a : Nat) (p : Int) (m : Nat) (l : List (Nat × Nat)) : Option FaultInfo :=
  if (a % m != 0 || p % (m : Int) != 0) && l.any (fun x => inScratch x.1) then some (FaultInfo.align a 6) else none
/-- A sequencer as an agent of the memory order: KIND 3, REQ its core (R417, log 4), FOUND 2. -/
def seqAgent (t : Team) (kind : Nat) : Agent :=
  { ts := t.seqr.sstamp, core := none, ctx := t.ctx, kind := kind, req := t.core, found := 2, host := false, peer := none, touch := [] }
/-- Requests to owners of LOC 3 pieces. -/
def State.seqAsks (s : State) (tk : Nat) (t : Team) (ts : Nat) (l : List (Nat × Nat × PeerAcc)) : State :=
  l.foldl (fun (s : State) x =>
    let (id, s) := s.engAsk t.ctx ts x.1 x.2.1 x.2.2
    s.modSeqr tk (fun q => { q with reqs := q.reqs ++ [(id, none)] })) s
/-- What has come of the requests that are out: one is missing, or all have been answered. -/
inductive SeqAns where
  | missing
  | bad (tag : BitVec 16) (cause argx : Nat)
  | all (l : List (PeerReply × Nat))
def Seqr.answers (q : Seqr) : SeqAns :=
  if q.reqs.any (fun x => x.2.isNone) then .missing
  else match q.reqs.findSome? (fun x => match x.2 with
    | some (.fault tag cause argx, _) => some (tag, cause.toNat, argx.toNat)
    | _ => none) with
  | some (tag, c, a) => .bad tag c a
  | none => .all (q.reqs.filterMap Prod.snd)
def spotWaits (s : State) (ctx : Nat) (x : Spot) : Bool := s.walkWaits ctx x.va || (match x.place with
  | .mem p _ => s.claimed p || s.bankBusy p
  | _ => false)
/-- One access of the sequencer on this device: a read, or a write of bytes. -/
def State.seqAccess (s : State) (ag : Agent) (l : List Spot) (bs : Option (List Byte)) : Acc :=
  let va := (l.map Spot.va).headD 0
  let n := l.foldl (fun n x => n + x.n) 0
  let w := s.walkLoads ag va
  let ag := { ag with ts := w.ts }
  let r := match l, bs with
    | [⟨.mem p _, _, n⟩], none => w.s.readSpan ag va p n
    | [⟨.region a p, _, n⟩], none => w.s.readRegion ag va a p n
    | ⟨.mem p _, _, _⟩ :: _, none => w.s.readParts ag va p n (l.filterMap (fun (x : Spot) => match x.place with
      | .mem p _ => some (p, x.n)
      | _ => none))
    | l, some d => w.s.storeSpots ag l d
    | l, none => w.s.loadSpots ⟨ag.ctx, 0, 0, none⟩ ag l
  { r with err := r.err || w.err }
/-- How far the accesses of an instruction have come: all made, with what was read and SSTAMP's value; to be gone on with later, `bytes` then
being kept as they stand; or an uncorrectable read. -/
inductive SeqRun where
  | all (s : State) (ts : Nat) (bytes : List Byte)
  | later (s : State) (ts n : Nat) (bytes : List Byte)
  | err (s : State)
  | bad (x : FaultInfo)
/-- Makes the accesses of an XLOAD (`wr` false: `bytes` gathers what is read) or an XDRAIN (`bytes` are what is left to write) in order,
from the n-th on (R315, R322, R326): a claimed line makes it wait, and an access of a LOC 3 page its owner's answer, `ans` being that to the
first. -/
def seqRun (tk : Nat) (t : Team) (wr : Bool) : State → Nat → Nat → List (List Spot) → List Byte → Option (PeerReply × Nat) → SeqRun
  | s, ts, _, [], bytes, _ => .all s ts bytes
  | s, ts, n, x :: l, bytes, ans =>
    let len := x.foldl (fun n y => n + y.n) 0
    match x with
    | [⟨.peer o _, va, k⟩] => (match ans with
      | some (.fault tag cause argx, _) => .bad (seqCause ⟨tag, cause.toNat, argx.toNat, BitVec.ofNat 64 va⟩)
      | some (.done d, at_) => seqRun tk t wr s (max ts at_) (n + 1) l (if wr then bytes.drop len else bytes ++ d) none
      | some (.view .., _) => .bad seqFormat
      | none => .later (s.seqAsks tk t ts [(o, va, if wr then .store (bytes.take k) else .rawLoad none k)]) ts n bytes)
    | x =>
      if x.any (spotWaits s t.ctx) then .later s ts n bytes
      else
        let r := s.seqAccess { seqAgent t 3 with ts := ts } x (if wr then some (bytes.take len) else none)
        if r.err then .err r.s else seqRun tk t wr r.s r.ts (n + 1) l (if wr then bytes.drop len else bytes ++ r.data) none
/-- The accesses of an XLOAD or XDRAIN whose places have passed this device's checks (R323): the owners' checks of LOC 3 places, `start` once
when the first access comes, then the accesses; `fin` when all are made. -/
def seqMem (tk : Nat) (t : Team) (wr : Bool) (s : State) (l : List (List Spot)) (start : State → State × List Byte)
    (fin : State → Nat → List Byte → State) : SeqOut :=
  let far := l.flatMap (fun x => x.filterMap (fun y => match y.place with
    | .peer o _ => some (o, y.va, PeerAcc.probe (if wr then .store (List.replicate y.n 0) else .rawLoad none y.n))
    | _ => none))
  let go (s : State) (ans : Option (PeerReply × Nat)) : SeqOut :=
    let (s, n, bytes) : State × Nat × List Byte := match t.seqr.mem with
      | some x => (s, x)
      | none => let (s, b) := start s; (s, 0, b)
    match seqRun tk t wr (s.modSeqr tk (fun q => { q with reqs := [], probed := true })) t.seqr.sstamp n (l.drop n) bytes ans with
    | .all s ts bytes => .go (fin (s.modSeqr tk (fun q => { q with sstamp := ts })) ts bytes)
    | .later s ts n bytes => .wait (s.modSeqr tk (fun q => { q with sstamp := ts, mem := some (n, bytes) }))
    | .err s => .wait (s.stopFor t.ctx)
    | .bad x => .fault x
  if far.isEmpty then go s none
  else match t.seqr.reqs, t.seqr.probed with
    | [], false => .wait (s.seqAsks tk t t.seqr.sstamp far)
    | [], true => go s none
    | _ :: _, true => (match t.seqr.answers with
      | .missing => .wait s
      | .bad tag c x =>
        let at_ := (l.getD (t.seqr.mem.elim 0 Prod.fst) []).headD ⟨.peer 0 none, 0, 0⟩
        .fault (seqCause ⟨tag, c, x, BitVec.ofNat 64 at_.va⟩)
      | .all ans => go s ans.head?)
    | _ :: _, false => (match t.seqr.answers with
      | .missing => .wait s
      | .bad tag c x =>
        let i := (t.seqr.reqs.findIdx? (fun x => match x.2 with
          | some (.fault .., _) => true
          | _ => false)).getD 0
        .fault (seqCause ⟨tag, c, x, BitVec.ofNat 64 ((far.map (fun y => y.2.1)).getD i 0)⟩)
      | .all ans => if ans.any (fun x => match x.1 with
          | .view .. => true
          | _ => false) then .fault seqFormat else go s none)
/-- Bytes stored from offset 0. -/
def tabOf {α : Type} (l : List α) : Tab α := (List.range l.length).zip l
def execXload (fmt : BitVec 4) (cols : Bool) (slot : BitVec 4) (ga : BitVec 3) (off : BitVec 20) (gb : BitVec 3) (s : State) : Out :=
  runX 0x382 s fun s tk t =>
    let i := slot.toNat
    let a := seqBase t.seqr ga off
    let p := seqPitch t.seqr gb
    if !s.hasSlot tk t i || s.inSub tk t i then .fault seqFormat
    else if t.seqr.jobs.any (fun j => j.readsSlot i || j.usesSlot i) then .wait s
    else
      let ps := loadPieces fmt.toNat cols a p
      match seqAlign a p 2 ps, seqPlaces s (t.who tk) false ps [] with
      | some x, _ => .fault x
      | none, .error x => if s.roleWait (t.who tk) x then .wait s else .fault x
      | none, .ok l => seqMem tk t false s l (fun s => (s, [])) (fun s _ bytes =>
        let (seed, s) := s.newSeed
        (s.putSlot t.ctx t.core i { owner := some tk, fmt := some fmt, seed := seed, data := tabOf bytes, filling := true }).addJob tk (.xload i))

/-! ### Products (R324, R184, R185) -/

/-- The 4,096 results of a product. -/
def product (fa fb : Nat) (a b : OpSlot) (old : Option Tile) : List Word :=
  (List.range 4096).map (fun i =>
    let r := i / 64
    let n := i % 64
    BitVec.ofNat 32 (accumulate (old.map (fun t => (t.word r n).toNat)) ((List.range (opK fa / 16)).map (fun g =>
      (List.range 16).map (fun e => (a.elem fa r (16 * g + e), b.elem fb n (16 * g + e)))))))
def runXmma (op : Nat) (keep : Bool) (tile : BitVec 3) (sa sb : BitVec 4) (s : State) : Out :=
  runX op s fun s tk t =>
    let i := sa.toNat
    let j := sb.toNat
    let d := tile.toNat
    if !s.hasSlot tk t i || !s.hasSlot tk t j || !s.hasTile tk t d || !s.subOk tk t i || !s.subOk tk t j then .fault seqFormat
    else match (s.slotOf t i).fmt, (s.slotOf t j).fmt with
      | some fa, some fb =>
        if opK fa.toNat ≠ opK fb.toNat then .fault seqFormat
        else if (s.slotOf t i).filling || (s.slotOf t j).filling || t.seqr.jobs.any (fun x => x.isDrain && x.usesTile d)
            || s.teams.any (fun x => x.2.ctx == t.ctx && x.2.core == t.core && x.2.seqr.jobs.any SeqJob.isMma) then .wait s
        else
          let x := s.tileOf t d
          let ws := product fa.toNat fb.toNat (s.slotOf t i) (s.slotOf t j) (if keep then some x else none)
          .go ((s.putTile t.ctx t.core d { x with data := tabOf ws }).addJob tk (.xmma d i j))
      | _, _ => .fault seqFormat
def execXmma (tile : BitVec 3) (sa sb : BitVec 4) (s : State) : Out := runXmma 0x383 true tile sa sb s
def execXmmaz (tile : BitVec 3) (sa sb : BitVec 4) (s : State) : Out := runXmma 0x384 false tile sa sb s

/-! ### Drains (R326, R327) -/

/-- Bytes of 64 tile words converted to a format (R175, R178, R181); lane and element as R326 states. -/
def rowBytes (fmt rnd : Nat) (sat : Bool) (g r : Nat) (ws : List Word) : List Byte :=
  let sr (n : Nat) : StoRand := ⟨g, n % 32, 2 * r + n / 32⟩
  if fmt ≤ 5 then (List.range 64).flatMap (fun n =>
    leBytes (if fmt = 1 then 4 else if fmt ≤ 3 then 2 else 1) (convertElem (ws.getD n 0).toNat fmt rnd sat (sr n)))
  else (List.range 4).flatMap (fun b =>
    leBytes (sxBytes fmt) (sxEncode fmt rnd ((List.range 16).map (fun e => ((ws.getD (16 * b + e) 0).toNat, sr (16 * b + e))))))
def drainRow (fmt : Nat) : Nat := if fmt = 1 then 256 else if fmt ≤ 3 then 128 else if fmt ≤ 5 then 64 else 4 * sxBytes fmt
def Tile.row (x : Tile) (r : Nat) : List Word := (List.range 64).map (fun n => x.word r n)
/-- The bytes of an XDRAIN, all taken with the generator's state at its beginning, which a stochastic one steps once (R179, R326): a drain in
FP32 rounds nothing. -/
def State.drainBytes (s : State) (t : Team) (fmt rnd : Nat) (sat : Bool) (d : Nat) : State × List Byte :=
  let g := s.gen t.ctx t.core t.seqNo
  let x := s.tileOf t d
  (if rnd = 2 ∧ fmt ≠ 1 then s.setGen t.ctx t.core t.seqNo (genStep g) else s,
    (List.range 64).flatMap (fun r => rowBytes fmt rnd sat g.toNat r (x.row r)))
def execXdrain (fmt : BitVec 4) (rnd : BitVec 2) (sat : Bool) (tile : BitVec 3) (ga : BitVec 3) (off : BitVec 20) (gb : BitVec 3) (s : State) : Out :=
  runX 0x385 s fun s tk t =>
    let d := tile.toNat
    let a := seqBase t.seqr ga off
    let p := seqPitch t.seqr gb
    if !s.hasTile tk t d then .fault seqFormat
    else if t.seqr.jobs.any (fun j => (j.isMma && j.usesTile d) || j.isDrain) then .wait s
    else
      let ps := rowPieces a p (drainRow fmt.toNat)
      match seqAlign a p 4 ps, seqPlaces s (t.who tk) true ps [] with
      | some x, _ => .fault x
      | none, .error x => if s.roleWait (t.who tk) x then .wait s else .fault x
      | none, .ok l => seqMem tk t true s l (fun s => s.drainBytes t fmt.toNat rnd.toNat sat d) (fun s _ _ => s.addJob tk (.xdrain d))
def execXdraina (fmt : BitVec 4) (part : BitVec 2) (slot : BitVec 4) (tile : BitVec 3) (s : State) : Out :=
  runX 0x386 s fun s tk t =>
    let i := slot.toNat
    let d := tile.toNat
    let f := fmt.toNat
    let q := part.toNat
    if !s.hasSlot tk t i || s.inSub tk t i || !s.hasTile tk t d || decide (opK f / 64 ≤ q) then .fault seqFormat
    else if t.seqr.jobs.any (fun j => (j.isMma && j.usesTile d) || j.isDrain || j.readsSlot i || j.usesSlot i) then .wait s
    else
      let x := s.tileOf t d
      let (seed, s) := s.newSeed
      let o := s.slotOf t i
      let base : OpSlot := if o.fmt = some fmt then o else { o with fmt := some fmt, seed := seed, data := [] }
      let n := drainRow f
      let data := (List.range 64).foldl (fun m r => tabWrite m (r * opRow f + q * n) (rowBytes f 0 false 0 r (x.row r))) base.data
      .go ((s.putSlot t.ctx t.core i { base with data := data, filling := true }).addJob tk (.xdraina i d))

/-! ### Counters, addresses, control (R328, R329) -/

/-- A value source of XSET or XADDG (R328): a constant word or pair, the immediate, a literal. -/
def State.seqSrc (s : State) (t : Team) (op : Nat) (x : Src) (imm : BitVec 20) (wide : Bool) : Except FaultInfo DWord :=
  match x with
  | .c n =>
    if wide then .ok (pairOf (s.constWord t.ctx t.launch n.toNat) (s.constWord t.ctx t.launch (n.toNat + 1)))
    else .ok ((s.constWord t.ctx t.launch n.toNat).setWidth 64)
  | .imm => .ok (imm.signExtend 64)
  | .lit i w next => match s.literalFault t.ctx t.seqr.spc op i.toNat w.toNat next wide with
    | some e => .error e
    | none =>
      let lo := s.literal t.ctx t.seqr.spc i.toNat w.toNat next
      .ok (if wide then pairOf lo (s.literal t.ctx t.seqr.spc i.toNat (w.toNat + 1) next) else lo.setWidth 64)
  | _ => .error ⟨0x30, 2, op, 0⟩
def execXset (d : BitVec 4) (a : Src) (imm : BitVec 20) (s : State) : Out :=
  runX 0x38D s fun s tk t =>
    match s.seqSrc t 0x38D a imm (decide (8 ≤ d.toNat)) with
    | .error x => .fault x
    | .ok v => .go (s.modSeqr tk (fun q => if d.toNat < 4 then { q with l := setAt q.l d.toNat (v.setWidth 32) } else { q with g := setAt q.g (d.toNat - 8) v }))
def execXaddg (d : BitVec 3) (ga : BitVec 3) (b : Src) (imm : BitVec 20) (s : State) : Out :=
  runX 0x38E s fun s tk t =>
    match s.seqSrc t 0x38E b imm true with
    | .error x => .fault x
    | .ok v => .go (s.modSeqr tk (fun q => { q with g := setAt q.g d.toNat (q.g.getD ga.toNat 0 + v) }))
def seqTarget (q : Seqr) (tslot : BitVec 3) (off : BitVec 17) : DWord :=
  BitVec.ofNat 64 (wrap 64 ((q.spc.toNat / 64 * 64 : Nat) + 64 * signed 17 off.toNat) + tslot.toNat)
def State.seqJump (s : State) (t : Team) (tslot : BitVec 3) (off : BitVec 17) : SeqOut :=
  let pc := seqTarget t.seqr tslot off
  match s.checkTarget t.ctx pc with
  | some x => .fault x
  | none => .at_ s pc
def execXloop (ctr : BitVec 2) (tslot : BitVec 3) (off : BitVec 17) (s : State) : Out :=
  runX 0x38B s fun s tk t =>
    let v := t.seqr.l.getD ctr.toNat 0
    if v = 0 then .go s
    else match s.seqJump t tslot off with
      | .at_ s pc => .at_ (s.modSeqr tk (fun q => { q with l := setAt q.l ctr.toNat (v - 1) })) pc
      | x => x
def execXjmp (tslot : BitVec 3) (off : BitVec 17) (s : State) : Out := runX 0x38C s fun s _ t => s.seqJump t tslot off
def execXnop (s : State) : Out := runX 0x390 s fun s _ _ => .go s
/-- XSTOP (R338): waits for its XLOADs and XDRAINs, frees slots, tiles and subscriptions, sets HALT. -/
def execXstop (s : State) : Out :=
  runX 0x38F s fun s tk t =>
    if t.seqr.jobs.any SeqJob.isMem then .wait s
    else .at_ ((s.freeSeqr tk t).modSeqr tk (fun q => { q with halt := true, jobs := [] })) t.seqr.spc

/-! ### Barriers (R336) -/

def execXbara (bar : BitVec 4) (s : State) : Out :=
  runX 0x389 s fun s tk t =>
    let n := bar.toNat
    let b := t.bar n
    if t.seqr.jobs.any SeqJob.isMem || !b.init || Tab.get t.seqr.xbaraPhase n == some b.phase then .wait s
    else
      let s : State := { s with accesses := s.accesses + 1 }
      let s := s.modSeqr tk (fun q => { q with
        tokens := setAt q.tokens n b.phase, xbaraPhase := Tab.set q.xbaraPhase n b.phase, sstamp := s.pip q.sstamp })
      .go (s.arriveBar tk n t.seqr.sstamp)
def execXbarw (bar : BitVec 4) (s : State) : Out :=
  runX 0x38A s fun s tk t =>
    let n := bar.toNat
    let b := t.bar n
    if phasePast b.phase (t.seqr.tokens.getD n 0) && b.init then .go (s.modSeqr tk (fun q => { q with sstamp := max q.sstamp (b.joinOf (t.seqr.tokens.getD n 0)) }))
    else if b.init && b.broken then .fault ⟨0x42, 2, n, BitVec.ofNat 64 n⟩
    else .wait s

/-! ### Operand streams (R330 to R334) -/

def State.putSubs (s : State) (ctx cl st : Nat) (g : List Sub → List Sub) : State :=
  let x := s.clc ctx cl
  let y := x.stream st
  s.putCLC ctx cl { x with streams := Tab.set x.streams st (y.1, g y.2) }
def State.subAt (s : State) (tk : Nat) (t : Team) (st : Nat) : Option Sub := ((s.clc t.ctx (clusterOf t.core)).stream st).2.find? (fun x => x.team == tk)
def execXsub (fmt : BitVec 4) (st : BitVec 3) (base : BitVec 4) (count window : BitVec 5) (s : State) : Out :=
  runX 0x387 s fun s tk t =>
    let b := base.toNat
    let n := count.toNat
    if 16 < b + n ∨ n < window.toNat ∨ (List.range n).any (fun i => !s.hasSlot tk t (b + i) || s.inSub tk t (b + i)) ∨ (s.subAt tk t st.toNat).isSome then
      .fault seqFormat
    else
      let (id, s) := s.newKey
      .go (s.putSubs t.ctx (clusterOf t.core) st.toNat (fun l => l ++ [{ id := id, team := tk, fmt := fmt, base := b, count := n, window := window.toNat, delivered := 0, retired := 0, current := false }]))
/-- Whether an earlier product still reads the current tile of a subscription. -/
def Sub.busy (x : Sub) (t : Team) : Bool := t.seqr.jobs.any (fun j => (List.range x.count).any (fun i => j.readsSlot (x.base + i)))
def execXunsub (st : BitVec 3) (s : State) : Out :=
  runX 0x388 s fun s tk t => match s.subAt tk t st.toNat with
    | none => .fault seqFormat
    | some x =>
      if x.busy t then .wait s
      else
        let cl := clusterOf t.core
        let k := s.clc t.ctx cl
        let s := s.putCLC t.ctx cl { k with streams := Tab.set k.streams st.toNat (leaveStream tk (k.stream st.toNat)) }
        .go ((List.range x.count).foldl (fun (s : State) i => s.putSlot t.ctx t.core (x.base + i) { s.slotOf t (x.base + i) with fmt := none }) s)
def execXwaits (st : BitVec 3) (s : State) : Out :=
  runX 0x391 s fun s tk t => match s.subAt tk t st.toNat with
    | none => .fault seqFormat
    | some x =>
      if x.current && x.busy t then .wait s
      else
        let retired := if x.current then x.retired + 1 else x.retired
        let ready := decide (retired < x.delivered)
        let s := s.putSubs t.ctx (clusterOf t.core) st.toNat (fun l => l.map (fun y => if y.team = tk then { y with retired := retired, current := ready } else y))
        if ready then .go s else .wait s

/-- Bytes of a tile, rows after one another (R305). -/
def Cmd.tileBytes (c : Cmd) : Nat := c.field 32 16 * c.field 48 16
/-- Where byte i of the tile in progress stands, and the bytes left of its row. -/
def Cmd.tileAt (c : Cmd) (i : Nat) : Nat × Nat :=
  let rb := c.field 32 16
  (wrap 64 ((c.src : Int) + c.done * signed 64 (c.field 192 64) + (i / rb : Nat) * signed 32 (c.field 128 32) + (i % rb : Nat)), rb - i % rb)
def State.putStream (s : State) (ctx cl st : Nat) (c : Cmd) : State :=
  let x := s.clc ctx cl
  let y := x.stream st
  s.putCLC ctx cl { x with streams := Tab.set x.streams st (c :: y.1.drop 1, y.2) }
/-- The first command of a stream queue that may go on. -/
def State.streamHead (s : State) (cl st : Nat) : Option Cmd := match s.turnOf cl with
  | none => none
  | some ctx =>
    let x := s.clc ctx cl
    match (x.stream st).1 with
    | c :: _ => if x.halted.any (fun h => h.1 == 17 + st) || c.moved then none else some c
    | [] => none
/-- TILE_STREAM (R331): begins a tile when there is a subscriber and every subscriber has room, then reads it, a line at a time; a fault
at a read halts the queue (R465). -/
def execTileStream (cluster st : Nat) (s : State) : Out :=
  if 8 ≤ cluster ∨ 8 ≤ st then .fault .noSuchPart
  else match s.streamHead cluster st with
  | none => .next s
  | some c =>
    let subs := ((s.clc c.ctx cluster).stream st).2
    if c.dests.isEmpty then
      if subs.isEmpty || subs.any (fun x => decide (x.window ≤ x.delivered - x.retired)) then .next s
      else .next (s.putStream c.ctx cluster st { c with began := true, dests := subs.map Sub.id, buf := [] })
    else if c.tileBytes ≤ c.buf.length then .next s
    else
      let x := c.tileAt c.buf.length
      match s.fetchPiece c (fun s c => s.putStream c.ctx cluster st c) c.stamp (cluster * 32 + 17 + st) (2 ^ 64) x.1 x.2 with
      | .more s => .next s
      | .fault s x => .next (((s.dropStream c.ctx cluster st).breakBound c |>.reportCmd c x (some (cluster, 17 + st))).tidyLaunch c.ctx c.launch)
      | .bytes s bs ts => .next (s.putStream c.ctx cluster st { c with req := none, buf := c.buf ++ bs, stamp := max c.stamp ts })
/-- STREAM_TILE_DELIVER (R331): the tile read is replayed to every subscriber it was begun for that has not left. -/
def execStreamTileDeliver (cluster st : Nat) (s : State) : Out :=
  if 8 ≤ cluster ∨ 8 ≤ st then .fault .noSuchPart
  else match s.streamHead cluster st with
  | none => .next s
  | some c =>
    if c.dests.isEmpty ∨ c.buf.length < c.tileBytes then .next s
    else
      let put (s : State) (id : Nat) : State := match ((s.clc c.ctx cluster).stream st).2.find? (fun x => x.id == id) with
        | none => s
        | some x => match s.team x.team with
        | some t =>
          let (seed, s) := s.newSeed
          s.putSlot t.ctx t.core (x.base + x.delivered % x.count) { owner := some x.team, fmt := some x.fmt, seed := seed, data := tabOf c.buf, filling := false }
        | none => s
      let s := c.dests.foldl put s
      let s := s.putSubs c.ctx cluster st (fun l => l.map (fun x => if c.dests.contains x.id then { x with delivered := x.delivered + 1 } else x))
      .next (s.putStream c.ctx cluster st { c with done := c.done + 1, dests := [], buf := [], moved := c.idx.isSome || decide (c.field 256 16 ≤ c.done + 1) })

/-! ### Completions and faults -/

/-- The first job of a kind is over. -/
def State.endJob (s : State) (core n : Nat) (p : SeqJob → Bool) (after : State → Team → SeqJob → State) : Out :=
  if 384 ≤ core ∨ 4 ≤ n then .fault .noSuchPart
  else match s.seqTeam core n with
  | none => .next s
  | some (tk, t) => match t.seqr.jobs.find? p with
    | none => .next s
    | some j => .next (after (s.modSeqr tk (fun q => { q with jobs := removeFirst p q.jobs })) t j)
def State.slotReady (s : State) (t : Team) (i : Nat) : State := s.putSlot t.ctx t.core i { s.slotOf t i with filling := false }
def execXloadComplete (core n : Nat) (s : State) : Out :=
  s.endJob core n (fun j => match j with
    | .xload _ => true
    | _ => false) (fun s t j => match j with
    | .xload i => s.slotReady t i
    | _ => s)
def execXmmaComplete (core n : Nat) (s : State) : Out := s.endJob core n SeqJob.isMma (fun s _ _ => s)
def execXdrainaComplete (core n : Nat) (s : State) : Out :=
  s.endJob core n (fun j => match j with
    | .xdraina _ _ => true
    | _ => false) (fun s t j => match j with
    | .xdraina i _ => s.slotReady t i
    | _ => s)
/-- XDRAIN_COMPLETE: the writes, the last of them answered by its owner before the sequencer went on, are complete. -/
def execXdrainComplete (core n : Nat) (s : State) : Out :=
  s.endJob core n (fun j => match j with
    | .xdrain _ => true
    | _ => false) (fun s _ _ => s)
/-- Whether a fibre is blocked past its last trailer (R54). -/
def State.blocked (s : State) (f : Fibre) : Bool := !s.onPort f.key && (!f.conds.isEmpty || !f.awaits.isEmpty || f.halted)
/-- SEQUENCER_FAULT_DELIVERY (R339): to the lowest live lane of crew 0, or of the lowest crew that has one, at its next trailer, or at
once if it is blocked. -/
def execSequencerFaultDelivery (core n : Nat) (s : State) : Out :=
  if 384 ≤ core ∨ 4 ≤ n then .fault .noSuchPart
  else match s.seqTeam core n with
  | none => .next s
  | some (tk, t) => match t.seqr.fault, s.leadFibre t with
    | some r, some f =>
      let bit := 1#32 <<< f.lane
      let s := (s.modSeqr tk (fun q => { q with fault := none })).forward f.key { rec_ := { r with issue := bit, performed := bit }, halts := none }
      .next (if s.blocked f && s.noFill f.key then s.deliverPending f.key else s)
    | _, _ => .next s

end Sys2Proof.Machine
end

