-- ==== Sys2Proof/Machine/Placement.lean ====
section
/-! DEFINITION. Dealers and placement (R30 to R41, R62, R85, R98, R312, R351, R495, R499, R502): tasks are filed, crews formed, crews
and teams placed on cores. -/

namespace Sys2Proof.Machine

/-! ### Tasks reach a dealer (R37, R38, R62, R98) -/

/-- A task with its segments taken: a root segment and, for a new task, an entry segment; none when they cannot all be taken. -/
def State.submitted (s : State) (t : WaitTask) : Option (State × Task) :=
  let d := s.cdesc t.ctx
  let h := s.heap t.ctx
  let (rf, rl) := match s.launch t.ctx t.launch with
    | some l => (l.rf, l.rl)
    | none => (4, 0)
  match h.takeSeg d (rootClass rf rl) with
  | none => none
  | some (ra, h) =>
    let root : Seg := ⟨ra, rootClass rf rl, t.fid, s.age⟩
    match t.handle with
    | some (k, b) =>
      some (s.putHeap t.ctx h, { id := t.id, pc := t.pc, ctx := t.ctx, launch := t.launch, fid := t.fid, stamp := t.stamp, timer := t.timer,
                                 body := .resume k b root })
    | none => match h.takeSeg d (entryClass t.f t.l) with
      | none => none
      | some (ea, h) =>
        some (s.putHeap t.ctx h, { id := t.id, pc := t.pc, ctx := t.ctx, launch := t.launch, fid := t.fid, stamp := t.stamp, timer := t.timer,
                                   body := .fresh root ⟨ea, entryClass t.f t.l, t.fid, s.age⟩ t.f t.l t.args })
/-- TASK_SUBMIT (R38): the first waiting task whose segments can be taken is filed in its bin; the others keep their order (R62). -/
def execTaskSubmit (cluster : Nat) (s : State) : Out :=
  if 8 ≤ cluster then .fault .noSuchPart
  else
    let c := s.cluster cluster
    match c.waiting.findSome? (fun t => (s.submitted t).map (fun r => (t.id, r))) with
    | none => .next s
    | some (id, s, t) =>
      .next ((s.putCluster cluster { c with waiting := removeFirst (fun w => w.id == id) c.waiting }).fileTask cluster t)
/-- GATHER_TIMER_LAPSE (R39): a bin whose timer has run out is formed with the tasks it holds. -/
def execGatherTimerLapse (cluster : Nat) (entry : BitVec 64) (ctx : Nat) (s : State) : Out :=
  if 8 ≤ cluster then .fault .noSuchPart
  else
    let c := s.cluster cluster
    match c.bins.find? (fun b => b.pc == entry && b.ctx == ctx) with
    | none => .next s
    | some b =>
      if s.cycle < b.start + b.timer then .next s
      else .next (s.putCluster cluster { (c.form s.cycle b.tasks) with bins := c.bins.filter (fun x => !(x.pc == entry && x.ctx == ctx)) })

/-! ### Where a unit fits (R35, R40, R351, R494, R495) -/

/-- Whether a cluster may be given work of a context: it is the context's turn there, and no cluster of the partition is retired. -/
def State.mayPlace (s : State) (ctx cl : Nat) : Bool :=
  let d := s.cdesc ctx
  s.onTurn ctx cl && d.clusters.contains cl && !d.clusters.any s.mgmt.pendcl.contains && !s.mgmt.retcl.contains cl && !s.mgmt.ckpt
    && !s.stops.any (fun x => x.1 == ctx) && (match s.ctx ctx with
      | some c => !c.lost
      | none => false)
/-- Slots occupied on a core, the banker's apart. -/
def State.occupied (s : State) (core : Nat) : List Nat := (s.crews.filter (fun c => c.2.core == core && !c.2.aside)).map (fun c => c.2.slot)
/-- The lowest free slots of a core. -/
def State.freeSlots (s : State) (core : Nat) : List Nat := (List.range (s.slotsOf core)).filter (fun i => !(s.occupied core).contains i)
/-- How many crew slots of a core are occupied, the banker's among them (R20, R35, R40). -/
def State.occupiedCount (s : State) (core : Nat) : Nat := (s.occupied core).length + (64 - s.slotsOf core)
/-- The core of a list with the fewest occupied slots, the lowest index among equals. -/
def State.leastBusy (s : State) : List Nat → Option Nat
  | [] => none
  | c :: r => match State.leastBusy s r with
    | none => some c
    | some b => if s.occupiedCount c ≤ s.occupiedCount b then some c else some b
/-- The free sequencer of a core with the lowest number (R16). -/
def State.freeSeq (s : State) (core : Nat) : Option Nat :=
  (List.range 4).find? (fun n => !s.teams.any (fun t => t.2.core == core && t.2.seqNo == n && (t.2.crews.isEmpty || t.2.crews.any (fun k => match s.crew k with
    | some c => !c.aside
    | none => false))))
/-- Cores of a cluster that a team of n crews can stand on. -/
def State.teamCores (s : State) (cl n : Nat) : List Nat :=
  (s.liveCores cl).filter (fun c => decide (n ≤ (s.freeSlots c).length) && (s.freeSeq c).isSome)
/-- Takes segments of the classes given, in order, all or none. -/
def takeClasses (d : CtxDesc) : List Nat → Heap → List (Nat × Nat) → Option (List (Nat × Nat) × Heap)
  | [], h, acc => some (acc.reverse, h)
  | c :: r, h, acc => match h.takeSeg d c with
    | none => none
    | some (a, h) => takeClasses d r h ((a, c) :: acc)

/-- The launch of a unit or task. A resume task whose launch has ended and freed its number finds one of zeros: no root handler, the smallest frames
(DESIGN CHOICE, log 99). -/
def State.launchOr (s : State) (ctx num : Nat) : Launch := (s.launch ctx num).getD (Launch.ofDesc num ctx 0 false [] [] [] 0)
/-- The shape of the entry frames of a crew's helper lanes: its first new task's, or the launch's (log 19). -/
def Formed.shape (f : Formed) (l : Launch) : Nat × Nat :=
  (f.tasks.findSome? (fun t => match t.body with
    | .fresh _ _ a b _ => some (a, b)
    | .resume _ _ _ => none)).getD (l.ef, l.el)
/-- Helper lanes of a crew of n fibres (R30). -/
def helpersOf (n : Nat) : Nat := 4 * ceilDiv n 4 - n
/-- The segments of a formed crew's helper lanes, root and entry of each, when they can all be taken (R31, R40). -/
def State.helperSegs (s : State) (f : Formed) : Option (List (Nat × Nat) × Heap) :=
  let l := s.launchOr f.ctx f.launch
  let (a, b) := f.shape l
  takeClasses (s.cdesc f.ctx) ((List.range (helpersOf f.tasks.length)).flatMap (fun _ => [rootClass l.rf l.rl, entryClass a b])) (s.heap f.ctx) []
/-- The first formed crew of a dealer that can be placed, with its rank and its core (R40). -/
def State.crewFit (s : State) (cl : Nat) : Option (Nat × Formed × Nat) :=
  let l := (s.cluster cl).placement
  match s.leastBusy ((s.liveCores cl).filter (fun c => !(s.freeSlots c).isEmpty)) with
  | none => none
  | some core => (((List.range l.length).zip l).find? (fun x => s.mayPlace x.2.ctx cl && (s.helperSegs x.2).isSome)).map (fun x => (x.1, x.2, core))
/-- The cluster and cores where the head unit of a context's placement order fits, with its fibres' segments (R35, R351). -/
def State.teamFit (s : State) (ctx : Nat) : Option (TeamUnit × Nat × List Nat × List (Nat × Nat) × Heap) :=
  match s.ctx ctx with
  | none => none
  | some c => match c.order with
    | [] => none
    | u :: _ =>
      let l := s.launchOr ctx u.launch
      let need := (List.range (32 * l.crewsPer * l.tpb)).flatMap (fun _ => [rootClass l.rf l.rl, entryClass l.ef l.el])
      match takeClasses c.d need c.heap [] with
      | none => none
      | some (segs, h) => c.d.clusters.findSome? (fun cl =>
        if !s.mayPlace ctx cl then none
        else
          let cores := s.teamCores cl l.crewsPer
          if l.tpb = 1 then (s.leastBusy cores).map (fun k => (u, cl, [k], segs, h))
          else if l.tpb ≤ cores.length then some (u, cl, cores.take l.tpb, segs, h) else none)

/-! ### Placing (R30, R31, R36, R85, R312, R499) -/

/-- Marks a context as placed on a core. -/
def State.placedOn (s : State) (ctx core : Nat) : State := match s.ctx ctx with
  | some c => if c.placedCores.contains core then s else s.putCtx ctx { c with placedCores := core :: c.placedCores }
  | none => s
def Crew.fresh (ctx launch core slot : Nat) (lanes : List (Option Nat)) (team : Option Nat) (number role now : Nat) : Crew :=
  { ctx := ctx, launch := launch, core := core, slot := slot, lanes := lanes, masks := List.replicate 12 0, team := team, number := number,
    role := role, placed := now, readySince := now + 1, promoted := false, aside := false, cut := none }
/-- A task becomes a fibre of a crew (R85, R98). -/
def State.placeTask (s : State) (t : Task) (ck lane core : Nat) : Nat × State :=
  let (key, s) := s.newKey
  let l := s.launchOr t.ctx t.launch
  let fut := (cellOfFid t.fid).isSome
  let own (s : State) : State := match cellOfFid t.fid with
    | some i => s.modCell t.ctx i (fun c => { c with ownercore := core })
    | none => s
  match t.body with
  | .fresh root entry f lc args =>
    let (s, chain, segs) := s.buildFresh l root entry f lc args fut
    (key, own (s.putFibre (Fibre.make key t.fid false t.ctx t.launch ck lane core chain segs t.stamp t.pc s.cycle t.id)))
  | .resume _ _ root =>
    let (seed, s) := s.newSeed
    (key, s.putFibre (Fibre.make key t.fid false t.ctx t.launch ck lane core [rootFrame l (root.addr + 96) seed []] [root] t.stamp t.pc s.cycle t.id))
/-- The tasks of a crew in lanes 0 on. -/
def State.placeTasks (s : State) (ck core : Nat) : List Task → Nat → List Nat → State × List Nat
  | [], _, acc => (s, acc.reverse)
  | t :: r, lane, acc =>
    let (k, s) := s.placeTask t ck lane core
    State.placeTasks s ck core r (lane + 1) (k :: acc)
/-- A fibre with the two frames of R85, in segments taken at placement. -/
def State.placeFibre (s : State) (l : Launch) (fid : Option Word) (ck lane core : Nat) (segs : List (Nat × Nat)) (f lc : Nat) (args : List Word)
    (stamp : Nat) (pc : DWord) : Nat × State :=
  let (key, s) := s.newKey
  let id := fid.getD (BitVec.ofNat 32 (Config.fibreId key % 2 ^ 31))
  let root : Seg := ⟨(segs.getD 0 (0, 0)).1, (segs.getD 0 (0, 0)).2, id, s.age⟩
  let entry : Seg := ⟨(segs.getD 1 (0, 0)).1, (segs.getD 1 (0, 0)).2, id, s.age⟩
  let (s, chain, sg) := s.buildFresh l root entry f lc args false
  (key, s.putFibre { Fibre.make key id fid.isSome l.ctx l.num ck lane core chain sg stamp pc s.cycle 0 with
    task := 2 ^ 64, reclaim := l.cancel && fid.isNone })
/-- Fibres in consecutive lanes, two segments each. -/
def State.placeLanes (s : State) (l : Launch) (fid : Option Word) (ck core : Nat) (f lc : Nat) (args : List Word) (stamp : Nat) (pc : DWord) :
    Nat → Nat → List (Nat × Nat) → List Nat → State × List Nat × List (Nat × Nat)
  | 0, _, segs, acc => (s, acc.reverse, segs)
  | n + 1, lane, segs, acc =>
    let (k, s) := s.placeFibre l fid ck lane core (segs.take 2) f lc args stamp pc
    State.placeLanes s l fid ck core f lc args stamp pc n (lane + 1) (segs.drop 2) (k :: acc)
/-- Whether a team unit at the head of its context's order goes first on the cluster: it began to wait earlier and fits (R499). -/
def State.teamFirst (s : State) (ctx cl since : Nat) : Bool := match s.teamFit ctx with
  | some (u, k, _) => k == cl && decide (u.since < since)
  | none => false
/-- The line on a LOC 3 page that the resume of a task needs, to be asked of its owner before the crew is placed (R82, R371). -/
def State.resumeNeeds (s : State) (t : Task) : Option Nat := match t.body with
  | .resume k _ _ => (s.performNeeds t.ctx k).map (fun x => x.address.toNat)
  | .fresh _ _ _ _ _ => none
/-- PLACE_CREW (R40, R499): the crew, with its helper lanes; its resume tasks then resume (R98, R502). -/
def execPlaceCrew (cluster : Nat) (s : State) : Out :=
  if 8 ≤ cluster then .fault .noSuchPart
  else match s.crewFit cluster with
    | none => .next s
    | some (rank, f, core) =>
      if s.teamFirst f.ctx cluster f.since then .next s
      else match s.helperSegs f with
        | none => .next s
        | some (segs, h) =>
          match f.tasks.findSome? s.resumeNeeds with
          | some x => .next (s.askFor (256 + cluster) f.ctx (maxOf (f.tasks.map Task.stamp)) x)
          | none =>
          let c := s.cluster cluster
          let s := s.putCluster cluster { c with placement := (c.placement.take rank) ++ c.placement.drop (rank + 1) }
          let s := (s.putHeap f.ctx h).placedOn f.ctx core
          let (ck, s) := s.newKey
          let n := f.tasks.length
          let l := s.launchOr f.ctx f.launch
          let (ef, el) := f.shape l
          let t0 := f.tasks.head?
          let pc : DWord := (t0.map Task.pc).getD 0
          let stamp := maxOf (f.tasks.map Task.stamp)
          let slot := (s.freeSlots core).headD 0
          let (s, ks) := s.placeTasks ck core f.tasks 0 []
          let (s, hs, _) := s.placeLanes l (some 0xFFFFFFFF) ck core ef el (List.replicate 16 0) stamp pc (helpersOf n) n segs []
          let lanes := (ks ++ hs).map some
          let s := s.putCrew ck (Crew.fresh f.ctx f.launch core slot (lanes ++ List.replicate (32 - lanes.length) none) none 0 0 s.cycle)
          .next (((f.tasks.zip ks).foldl (fun (s : State) x => match x.1.body with
            | .resume k b _ => s.dealerResume x.2 k b
            | .fresh _ _ _ _ _ => s) s).doneCode (256 + cluster))

/-- A sequencer as placement leaves it (R313), its entry still to be judged where the line has to be fetched first (R312). -/
def Seqr.fresh (spc : DWord) (stamp : Nat) : Seqr :=
  { spc := spc, l := List.replicate 4 0, g := List.replicate 8 0, sstamp := stamp, tokens := List.replicate 16 0, halt := false,
    claimSince := none, xbaraPhase := [], jobs := [], reqs := [], fault := none, code := [], entry := true, probed := false, mem := none, line := 2 ^ 64 }
/-- The crews of a team, 32 fibres each (R30, R36). -/
def State.placeCrews (s : State) (l : Launch) (tk core : Nat) : Nat → Nat → List (Nat × Nat) → List Nat → State × List Nat × List (Nat × Nat)
  | 0, _, segs, acc => (s, acc.reverse, segs)
  | n + 1, i, segs, acc =>
    let (ck, s) := s.newKey
    let slot := (s.freeSlots core).headD 0
    let (s, ks, segs) := s.placeLanes l none ck core l.ef l.el l.args l.stamp l.entry 32 0 segs []
    let s := s.putCrew ck (Crew.fresh l.ctx l.num core slot (ks.map some) (some tk) i (l.role i) s.cycle)
    State.placeCrews s l tk core n (i + 1) segs (ck :: acc)
/-- One team on one core, with its sequencer at the matrix stream entry; a bad entry halts it at once with TARGET (R312). -/
def State.placeTeam (s : State) (l : Launch) (u : TeamUnit) (core index : Nat) (segs : List (Nat × Nat)) : State × List (Nat × Nat) :=
  let (tk, s) := s.newKey
  let sq := (s.freeSeq core).getD 0
  let (s, crews, segs) := s.placeCrews l tk core l.crewsPer 0 segs []
  let t : Team := {
    ctx := l.ctx, launch := l.num, core := core, band := u.band, index := index, ofBand := decide (1 < l.tpb), crews := crews, seqNo := sq,
    seqr := Seqr.fresh l.mstream l.stamp, barriers := [], rings := (List.range 8).map l.ring, phases := [], phaseStamp := 0 }
  let s := (s.putTeam tk t).placedOn l.ctx core
  let s := if l.mstream = 0 then s else match s.checkTarget l.ctx l.mstream with
    | some x => if x.tag = 0 then s else s.seqFault tk x 0
    | none => s.modSeqr tk (fun q => { q with entry := false })
  (s, segs)
def State.placeTeams (s : State) (l : Launch) (u : TeamUnit) : List Nat → Nat → List (Nat × Nat) → State
  | [], _, _ => s
  | c :: r, i, segs =>
    let (s, segs) := s.placeTeam l u c i segs
    State.placeTeams s l u r (i + 1) segs
/-- PLACE_TEAM (R35, R351, R499): the head unit of the context's placement order, whole or not at all. -/
def execPlaceTeam (ctx : Nat) (s : State) : Out :=
  match s.teamFit ctx with
  | none => .next s
  | some (u, cl, cores, segs, h) =>
    if (match s.crewFit cl with
      | some (_, f, _) => f.ctx == ctx && decide (f.since ≤ u.since)
      | none => false) then .next s
    else match s.ctx ctx with
      | none => .next s
      | some c =>
        let s := s.putCtx ctx { c with heap := h, order := c.order.drop 1 }
        .next (s.placeTeams (s.launchOr ctx u.launch) u cores 0 segs)

end Sys2Proof.Machine
end

