-- ==== Sys2Proof/Machine/Select.lean ====
section
/-! DEFINITION. Issue groups and the choice of a port's work (R42 to R46), what reaches a waiting fibre (R32, R52, R71, R103, R292,
R463), and answers from outside a core that a port waits for (R119, R149). -/

namespace Sys2Proof.Machine

/-! ### Readiness (R42, R52) -/

/-- Whether every register of a fibre's STOP is full. -/
def Fibre.awaitOk (f : Fibre) : Bool := f.awaits.all f.full
/-- Whether a fibre's STOP awaits are met: every named register is full in every fibre of its group that still waits (R52). -/
def State.awaitsMet (s : State) (f : Fibre) : Bool :=
  f.awaits.isEmpty || s.fibres.all (fun g => !(g.2.crew == f.crew && g.2.awaitGrp == f.awaitGrp && !g.2.awaits.isEmpty) || g.2.awaitOk)
/-- Whether a fibre is ready (R42); a halted one takes no issue (R411). A lane of a cut sentence goes on with it, whatever waits for its trailer (R434). -/
def State.ready (s : State) (f : Fibre) : Bool := !s.atPort f.key && (s.wasCut f.key || (f.conds.isEmpty && !f.halted && s.awaitsMet f))
/-- Releases the STOP groups whose registers are all full. -/
def State.settleAwaits (s : State) : State :=
  s.putFibres ((s.fibres.map Prod.snd).filterMap (fun (f : Fibre) =>
    if !f.awaits.isEmpty && !s.onPort f.key && s.awaitsMet f then some { f with awaits := [], since := s.cycle } else none))

/-- A ready group of a crew: its fibres in ascending lane order, since when it has stood ready, and the cut sentence it goes on with (R434). -/
structure ReadyGroup where
  fibres : List Fibre
  since : Nat
  pc : Nat
  cut : Option Cut
def minOf (l : List Nat) : Nat := l.foldl min (l.headD 0)
def ReadyGroup.of (fs : List Fibre) (cut : Option Cut) : ReadyGroup :=
  { fibres := fs, since := minOf (fs.map Fibre.since), pc := (fs.head?.map (fun f => f.pc.toNat)).getD 0, cut := cut }
/-- The ready groups of a crew; a cut sentence's lanes are a group of their own. -/
def State.readyGroups (s : State) (c : Crew) : List ReadyGroup :=
  if c.aside then []
  else
    let fs := (s.crewFibres c).filter s.ready
    let cutKeys := (c.cut.map Cut.fibres).getD []
    let free := fs.filter (fun f => !cutKeys.contains f.key)
    let pcs := (free.map (fun f => f.pc.toNat)).eraseDups
    let cut := fs.filter (fun f => cutKeys.contains f.key)
    (if cut.isEmpty then [] else [ReadyGroup.of cut c.cut]) ++ pcs.map (fun pc => ReadyGroup.of (free.filter (fun f => f.pc.toNat == pc)) none)
/-- Whether some group of a crew is on a port (R43). -/
def State.crewOnPort (s : State) (ck : Nat) : Bool := s.ports.any (fun p => p.2.crew == ck)
/-- The element of a list with the least key, the first among equals. -/
def leastBy {α : Type} (key : α → List Nat) : List α → Option α
  | [] => none
  | a :: r => match leastBy key r with
    | none => some a
    | some b => if List.le (key a) (key b) then some a else some b
/-- Whether a crew with a ready group is promoted at a cycle (R44): CREW_PROMOTE has come, or the 512 cycles are over. -/
def Crew.isPromoted (c : Crew) (now : Nat) : Bool := c.promoted || decide (c.readySince + 512 ≤ now)
/-- The rank of a crew among those a port chooses from (R44): promoted first, then loaders, storers, computers and task crews, then age. -/
def Crew.rank (c : Crew) (now : Nat) : List Nat :=
  if c.isPromoted now then [0, 0, c.placed] else [1, if c.role = 1 then 0 else if c.role = 2 then 1 else 2, c.placed]
/-- The crew and group that a free port of a core takes (R44, R45), a cut sentence before the crew's other groups (R434), of the context whose turn it is and that is not being stopped. Of crews placed
in the same cycle the first of the table counts as the older (DESIGN CHOICE, log 79: R44 gives them no order). -/
def State.choose (s : State) (core : Nat) : Option (Nat × Crew × ReadyGroup) :=
  let may (c : Crew) : Bool := c.core == core && s.onTurn c.ctx (clusterOf core) && !s.stops.any (fun x => x.1 == c.ctx)
  let cands := (s.crews.filter (fun c => may c.2 && !s.crewOnPort c.1)).map (fun c => (c.1, c.2, s.readyGroups c.2))
  match leastBy (fun x => x.2.1.rank s.cycle) (cands.filter (fun x => !x.2.2.isEmpty)) with
  | none => none
  | some (k, c, gs) => (leastBy (fun (g : ReadyGroup) => [if g.cut.isSome then 0 else 1, g.since, g.pc]) gs).map (fun g => (k, c, g))
/-- ISSUE_SELECT (R43 to R45): the port takes the group, whose sentence it issues from now on; a cut sentence that goes on is counted once (R307).
The lowest free port chooses first. -/
def execIssueSelect (core port : Nat) (s : State) : Out :=
  if 384 ≤ core ∨ 4 ≤ port then .fault .noSuchPart
  else if (s.port core port).isSome || (List.range port).any (fun p => (s.port core p).isNone) then .next s
  else match s.choose core with
    | none => .next s
    | some (k, c, g) =>
      let s := s.putCrew k { c with promoted := false, readySince := s.cycle + 1, cut := if g.cut.isSome then none else c.cut }
      let s := if g.cut.isSome then s else s.bump c.ctx core 1 1
      let (n, done) := match g.cut with
        | some x => (x.count, x.done)
        | none => (0, [])
      .next (s.putPort core port { PortRun.fresh k (g.fibres.map Fibre.key) with count := n, done := done })
/-- CREW_PROMOTE (R44): a crew that has had a ready group for 512 cycles in a row without selection. -/
def execCrewPromote (crew : Nat) (s : State) : Out :=
  match s.crew crew with
  | none => .next s
  | some c =>
    if c.promoted || (s.readyGroups c).isEmpty || decide (s.cycle < c.readySince + 512) then .next s
    else .next (s.putCrew crew { c with promoted := true })
/-- The 512 cycles of R44 at the end of a step that began at cycle `before`: a crew without a ready group has not begun them, which a time still to come
marks, but one that they have promoted stays so until its next selection; one that has come to have a ready group, or was selected, in the step begins
them now. -/
def State.settleReady (s : State) (before : Nat) : State :=
  { s with crews := s.crews.map (fun c =>
      if (s.readyGroups c.2).isEmpty then (c.1, { c.2 with promoted := c.2.isPromoted before, readySince := s.cycle + 1 })
      else if before < c.2.readySince then (c.1, { c.2 with readySince := s.cycle }) else c) }

/-! ### Fills, times, reclamation, forwarded faults -/

/-- REGISTER_FILL (R50, R71): the value is written and the full bit set in one update, wherever the fibre stands. A fill still pending when its frame
has been returned from is lost when no frame of the fibre stands at that address, and lands in one built there since (DESIGN CHOICE, log 73: the spec
does not say what becomes of it). -/
def execRegisterFill (k : Nat) (s : State) : Out :=
  match s.fills[k]? with
  | none => .next s
  | some x =>
    if x.vals.isEmpty then .next s
    else
      let s := { s with fills := s.fills.eraseIdx k }
      .next ((s.modFibre x.fibre (fun f => match f.frameAt x.frame with
        | some fr => f.putFrame (fr.setRegs x.reg x.vals)
        | none => f)).settleAwaits)
/-- TIMEW_EXPIRE (R292): TIME has reached the value, and the condition is met. -/
def execTimewExpire (fibre : Nat) (s : State) : Out :=
  match s.fibre fibre with
  | none => .next s
  | some f =>
    if s.onPort fibre then .next s
    else .next (s.putFibre { f with
      conds := f.conds.filter (fun c => match c with
        | .time t => decide (s.time < t)
        | _ => true),
      since := if f.conds.any (fun c => match c with
        | .time t => decide (t ≤ s.time)
        | _ => false) then s.cycle else f.since })
/-- Whether a fibre is past its last trailer with nothing to issue: it waits, it is halted, or its crew is set aside (R54, R103). -/
def State.pastTrailer (s : State) (f : Fibre) : Bool :=
  !s.onPort f.key && (s.blocked f || (match s.crew f.crew with
    | some c => c.aside
    | none => false))
/-- FIBRE_RECLAIM (R32, R103, R104): a waiting fibre with a request and no pin is reclaimed at once; a waiting helper lane whose quad has
ended ends. Any other fibre is reclaimed at its next trailer. -/
def execFibreReclaim (fibre : Nat) (s : State) : Out :=
  match s.fibre fibre with
  | none => .next s
  | some f =>
    if !s.pastTrailer f then .next s
    else if f.helper && s.quadDone f then .next (s.endFibre f)
    else if s.dueReclaim f then .next (s.reclaimFibre fibre)
    else .next s
/-- ASYNC_FAULT_DELIVERY (R54, R463): a fibre that is blocked takes the fault at once, when its fills have arrived. -/
def execAsyncFaultDelivery (fibre : Nat) (s : State) : Out :=
  match s.fibre fibre with
  | none => .next s
  | some f => if s.blocked f && s.noFill fibre && !f.helper then .next (s.afterTrailer fibre) else .next s

/-! ### Answers that a port waits for -/

/-- BANK_ROLE_CHANGE_COMPLETE (R119): the write-backs of the bank are done; the role changes and the BANKCFG goes on, in whichever context's turn it
began. -/
def execBankRoleChangeComplete (core bank : Nat) (s : State) : Out :=
  if 384 ≤ core ∨ 32 ≤ bank then .fault .noSuchPart
  else match s.coreCtx.find? (fun (x : Nat × CoreCtx) => x.1 % 384 == core && (x.2.changing.map Prod.fst) == some bank) with
    | some (k, x) => match x.changing with
      | some (_, role) => .next (s.setRole (k / 384) core bank role)
      | none => .next s
    | none => .next s
/-- ZERO_LENGTH_READ_COMPLETE (R149): the lane's LOC 2 stores have completed at the root complex. -/
def execZeroLengthReadComplete (fibre : Nat) (s : State) : Out :=
  let waits (p : PortRun) : Bool := match p.wait with
    | .fence left => left.contains fibre
    | _ => false
  if s.ports.any (fun p => waits p.2) then
    .next ({ s with ports := s.ports.map (fun (p : Nat × PortRun) => match p.2.wait with
      | .fence left =>
        let left := left.filter (· != fibre)
        (p.1, { p.2 with wait := if left.isEmpty then .none else .fence left })
      | _ => p) }.modFibre fibre (fun f => { f with loc2 := 0 }))
  else .next s

end Sys2Proof.Machine
end

