-- ==== Sys2Proof/Machine/Host.lean ====
section
/-! DEFINITION. The host port (R136, R150, R361 to R367, R407, R408, R460, R468 to R470): accesses of the host to device memory, snoops,
page moves, and the link going down and coming back. -/

namespace Sys2Proof.Machine

/-! ### Host accesses to device memory (R150, R362, R364, R408) -/

/-- Whether a granule is being scrubbed (R408, R416). -/
def State.beingScrubbed (s : State) (g : Nat) : Bool := s.mgmt.scrubbing.any (fun r => decide (r.1 ≤ g) && decide (g < r.1 + r.2))
/-- Whether the host may reach a device address: inside a live context's HDM range, in a granule that is owned and not being scrubbed,
outside every save area (R407, R408). -/
def State.hostReaches (s : State) (pa : Nat) : Bool :=
  let g := pa / 65536
  s.ctxs.any (fun c => decide (c.2.d.hdmbase ≤ pa) && decide (pa < c.2.d.hdmbase + 65536 * c.2.d.hdmsize))
    && (s.granOwner g).isSome && !s.beingScrubbed g && !s.inSaveArea g
/-- The virtual page of a migration range whose device backing holds a device address. -/
def Ctx.aliasOf (c : Ctx) (pa : Nat) : Option (MigRange × Nat) :=
  (c.migr.find? (fun r => decide (r.dback ≤ pa) && decide (pa < r.dback + 65536 * r.pages))).map (fun r => (r, (pa - r.dback) / 65536))
/-- Where the data of a device address lies: a host-resident page's alias is served from its host backing (R364). -/
def State.hostSpot (s : State) (ctx pa : Nat) : PA × Nat :=
  match (s.ctx ctx).bind (fun c => c.aliasOf pa) with
  | none => (⟨.dev, pa⟩, 2 ^ 57)
  | some (r, i) =>
    let va := r.vbase + 65536 * i + pa % 65536
    match s.walk ctx va with
    | .ok lf => if lf.loc = 1 ∧ lf.base = r.hback + 65536 * i then (⟨.host, lf.base + pa % 65536⟩, va)
        else if lf.loc = 0 ∧ lf.base = r.dback + 65536 * i then (⟨.dev, pa⟩, va) else (⟨.dev, pa⟩, 2 ^ 57)
    | .error _ => (⟨.dev, pa⟩, 2 ^ 57)
/-- The virtual addresses of a context that are translated to a device address (R113), the pages found by reading its tables. -/
def State.vasFrom (s : State) (pa : Nat) : List (Nat × Nat × Nat) → PA → Nat → List Nat
  | [], _, _ => []
  | (lvl, sh, bits) :: r, tab, va => (List.range (2 ^ bits)).flatMap (fun i =>
    let e := ofBytes (s.peek { tab with a := tab.a + 8 * i } 8)
    let v := va + i * 2 ^ sh
    let addr := bitsOf e 20 44 * 256
    if (pteCause lvl e (2 ^ sh)).isSome then []
    else if bitOf e 1 then
      if bitsOf e 6 2 = 0 ∧ !bitOf e 8 ∧ addr ≤ pa ∧ pa < addr + 2 ^ sh then [v + (pa - addr)] else []
    else State.vasFrom s pa r ⟨if bitsOf e 6 2 = 1 then .host else .dev, addr⟩ v)
/-- Logs a host access in the owner's monitors that watch KIND 4 (R417). -/
def State.logHost (s : State) (ag : Agent) (pa mva n : Nat) : State :=
  match s.ctx ag.ctx with
  | none => s
  | some c =>
    if !(s.key c.d.kslot).monitors.any (fun m => m.2.kinds.getLsbD 4) then s
    else
      let vas := if mva < 2 ^ 57 then [mva] else s.vasFrom pa walkLevels ⟨if c.d.tloc = 1 then .host else .dev, c.d.troot⟩ 0
      vas.foldl (fun (s : State) va => s.logAccess { ag with kind := 4 } ag.ts va n) s
/-- The host as an agent; its log records are made apart, by virtual address. -/
def State.hostAgent (s : State) (ctx req : Nat) : Agent :=
  { ts := s.hostStamp, core := none, ctx := ctx, kind := 63, req := req, found := 4, host := true, peer := none, touch := [] }
/-- Whether a host access meets a claimed line, and so waits (R151, R366). -/
def State.hostWaits (s : State) (pa n : Nat) : Bool :=
  s.hostReaches pa && s.hostUp &&
    (let (p, _) := s.hostSpot ((s.granOwner (pa / 65536)).getD 0) pa
     (pieces p.a n).any (fun x => s.claimed { p with a := x.1 }))
/-- One host access within a line of device memory, placed at its home (R362): what it leaves, and what it answers with the poison indication of an
uncorrectable read (R455). Outside what the host reaches it reads zeros and discards writes. The bytes that stand under a poison mark go to no agent:
what comes with the indication is undefined contents. -/
def State.hostAccess (s : State) (req : BitVec 25) (pa n : Nat) (go : State → Agent → Nat → PA → Acc) : State × List Byte × Bool :=
  if !s.hostReaches pa || !s.hostUp then (s, List.replicate n 0, false)
  else
    let ctx := (s.granOwner (pa / 65536)).getD 0
    let (p, va) := s.hostSpot ctx pa
    let ag := s.hostAgent ctx req.toNat
    let r := go s ag va p
    ({ r.s.logHost { ag with ts := r.ts } pa va n with hostStamp := r.ts },
      if r.err then (List.range n).map (Config.undefByte (s.accesses + 2 ^ 50)) else r.data, r.err)
/-- A read of the host, line by line in address order; each line is judged by its own granule (R408). -/
def State.hostRead (s : State) (req : BitVec 25) (ps : List (Nat × Nat)) : State × List Byte × Bool :=
  ps.foldl (fun (x : State × List Byte × Bool) (p : Nat × Nat) =>
    let r := x.1.hostAccess req p.1 p.2 (fun s ag va q => s.readAt ag va q p.2)
    (r.1, x.2.1 ++ r.2.1, x.2.2 || r.2.2)) (s, [], false)
/-- The address of a context's frame heap region whose page lies over device memory at pa (R61). -/
def State.heapVa (s : State) (c : Ctx) (ctx pa : Nat) : Option Nat := (List.range (32 * c.d.fhsize)).findSome? (fun i =>
  let va := c.d.fhbase + 65536 * i
  match s.walk ctx va with
  | .ok lf =>
    let q := lf.base + va % lf.size
    if lf.loc = 0 ∧ lf.view = none ∧ q ≤ pa ∧ pa < q + 65536 then some (va + (pa - q)) else none
  | .error _ => none)
/-- What a store of the host to device memory does to the frame heap regions whose pages it reaches (R64, R80, R430), found through each context's
tables. -/
def State.patchBlocks (s : State) (pa : Nat) (bs : List Byte) : State :=
  s.ctxs.foldl (fun (s : State) c => (pieces pa bs.length).foldl (fun (s : State) x => match s.heapVa c.2 c.1 x.1 with
    | some va => s.putHeap c.1 ((s.heap c.1).storeOver va ((bs.drop (x.1 - pa)).take x.2))
    | none => s) s) s
/-- The store of an access of the host. -/
def State.hostWriteSpan (s : State) (ag : Agent) (va : Nat) (p : PA) (bs : List Byte) : Acc :=
  let r := s.writeSpan ag va p bs
  if p.sp = .dev then { r with s := r.s.patchBlocks p.a bs } else r
/-- A store of the host, line by line in address order. -/
def State.hostStoreAt (s : State) (req : BitVec 25) (pa : Nat) (data : List Byte) (ps : List (Nat × Nat)) : State :=
  ps.foldl (fun (s : State) (p : Nat × Nat) =>
    (s.hostAccess req p.1 p.2 (fun s ag va q => s.hostWriteSpan ag va q ((data.drop (p.1 - pa)).take p.2))).1) s
/-- The lines of a host access, of at most 128 bytes. -/
def hostLines (pa : Nat) : HostAcc → List (Nat × Nat)
  | .load _ n => pieces pa (min n 128)
  | .store _ data => pieces pa (min data.length 128)
/-- HOST_CXL_MEM_ACCESS (R362). A poisoned read goes to the host with its poison mark; no work stops (R455). An access to a claimed line waits
(R366). -/
def execHostCxlMemAccess (pa : Nat) (acc : HostAcc) (s : State) : Out :=
  if (hostLines pa acc).any (fun x => s.hostWaits x.1 x.2) then s.waitIn (.hostCxlMemAccess pa acc)
  else
    let s := s.doneIn
    match acc with
    | .load req _ =>
      let (s, d, bad) := s.hostRead req (hostLines pa acc)
      .next { s with hostData := d, hostPoison := bad }
    | .store req data => .next (s.hostStoreAt req pa data (hostLines pa acc))
/-- Whether a happening is a posted write of the host. -/
def isIoWrite : Instr → Bool
  | .hostCxlIoWrite _ _ => true
  | _ => false
/-- The pieces of a posted write in order, up to one that waits: its address. A posted write is no access through CXL.mem, and no migration counter
counts it (R365). -/
def State.ioPieces (pa : Nat) (data : HostWrite) : List (Nat × Nat) → State → State × Option Nat
  | [], s => (s, none)
  | x :: r, s => if s.hostWaits x.1 x.2 then (s, some x.1)
    else State.ioPieces pa data r
      (s.hostAccess data.req x.1 x.2 (fun s ag _ p => s.hostWriteSpan ag (2 ^ 57) p ((data.data.drop (x.1 - pa)).take x.2))).1
/-- HOST_CXL_IO_WRITE (R150): a posted write of the host, as coherent accesses placed line by line in address order. What meets a claimed line waits
there, and the posted writes behind it keep their order. -/
def execHostCxlIoWrite (pa : Nat) (data : HostWrite) (s : State) : Out :=
  if s.earlierIn isIoWrite then s.waitIn (.hostCxlIoWrite pa data)
  else match State.ioPieces pa data (linePieces (data.data.length / 128 + 2) pa data.data.length) s with
    | (s, none) => .next s.doneIn
    | (s, some a) => s.waitIn (.hostCxlIoWrite a { data with data := data.data.drop (a - pa) })

/-! ### Host lines (R165, R344, R469, R470) -/

/-- Writes a dirty LOC 1 line back to host memory. -/
def State.writeBack (s : State) (lk : Nat) : State :=
  match (s.lineOf lk).dirtyHost with
  | some d => { s.putLine lk { s.lineOf lk with dirtyHost := none } with host := cellsWrite s.host (lineBase lk).a d }
  | none => s
/-- The device lets go of a line of host memory: written back if dirty, copies dropped, its watchers woken (R165, R344). -/
def State.letGo (s : State) (lk : Nat) : State :=
  let s := s.writeBack lk
  (s.putLine lk { s.lineOf lk with copies := [], excl := none }).wake lk
/-- HOST_SNOOP (R165, R344): the line is recalled or invalidated, and the queues that watch it wake. The host's access that snoops a claimed line
waits until the channel has written it (R151). -/
def execHostSnoop (pa : Nat) (s : State) : Out :=
  if s.hostUp ∧ s.claimed ⟨.host, pa⟩ then s.waitIn (.hostSnoop pa)
  else .next (if s.hostUp then s.doneIn.letGo (PA.line ⟨.host, pa⟩) else s.doneIn)
/-- A store of the host to its own memory, a coherent access through CXL.cache (R136, R165, R361): the lines that the device holds are let go of
first, and the store is placed after every earlier access of each line. One that meets a claimed line waits (R151). -/
def State.hostStore (s : State) (pa : Nat) (data : List Byte) : State :=
  let ps := linePieces (data.length / 128 + 2) pa data.length
  if s.hostUp && ps.any (fun x => s.claimed ⟨.host, x.1⟩) then
    { s with hostStores := if s.hostStores.contains (pa, data) then s.hostStores else s.hostStores ++ [(pa, data)] }
  else
    ps.foldl (fun (s : State) x =>
      let lk := PA.line ⟨.host, x.1⟩
      let s := if s.hostUp then s.letGo lk else s
      let s := ({ s with host := cellsWrite s.host x.1 ((data.drop (x.1 - pa)).take x.2) }).leafWritten ⟨.host, x.1⟩ x.2
      if s.hostUp then
        let l := s.lineOf lk
        let ts := max s.hostStamp (l.rts + 1)
        { s.putLine lk { l with wts := ts, rts := ts } with hostStamp := s.pip ts, accesses := s.accesses + 1 }
      else s) { s with hostStores := s.hostStores.erase (pa, data) }
/-- HOST_LINK_DOWN (R468, R469): every context but CTXID 0 is stopped; host lines are let go of, dirty ones kept. -/
def execHostLinkDown (s : State) : Out :=
  if !s.hostUp then .next s
  else .next {
    s with
    hostUp := false
    hostDownAt := s.cycle
    stops := s.stops ++ (s.ctxs.map (fun c => (c.1, 4))).filter (fun x => x.1 != 0)
    lines := s.lines.map (fun (l : Nat × Line) => (l.1, { l.2 with hostCopy := none, copies := if l.1 % 3 = 1 then [] else l.2.copies, excl := if l.1 % 3 = 1 then none else l.2.excl })) }
/-- The lines that the device holds dirty of host memory, in the order of their home slices (R470). -/
def State.dirtyLines (s : State) : List Nat :=
  let ls := (s.lines.filter (fun (l : Nat × Line) => l.2.dirtyHost.isSome)).map Prod.fst
  (List.range 384).flatMap (fun i => ls.filter (fun lk => s.homeSlice (lineBase lk) == i))
/-- The kept dirty lines are dropped, and their number shown in the management status (R470). -/
def State.dropDirty (s : State) : State :=
  let n := s.dirtyLines.length
  {
    s with
    lines := s.lines.map (fun (l : Nat × Line) => (l.1, { l.2 with dirtyHost := none }))
    mgmt := { s.mgmt with lostDirty := n } }
/-- Whether the kept dirty lines have waited 2 s for the link (R470). -/
def State.holdOver (s : State) : Bool := decide (s.hostDownAt + 2 * cyclesPerSecond ≤ s.cycle)
/-- HOST_LINK_UP (R470): within 2 s, and with CXL.cache enabled again (R361), the kept dirty lines are written back in home-slice order before any
new request; otherwise they are dropped. -/
def execHostLinkUp (s : State) : Out :=
  if s.hostUp then .next s
  else if s.hostCache && !s.holdOver then
    .next (s.dirtyLines.foldl (fun (s : State) lk => s.writeBack lk) { s with hostUp := true })
  else .next ({ s with hostUp := true }).dropDirty
/-- DIRTY_HOLD_EXPIRE (R470): 2 s without the link: the dirty lines are dropped and counted. -/
def execDirtyHoldExpire (s : State) : Out := .next (if s.hostUp || !s.holdOver then s else s.dropDirty)
/-- What a host offers when its link trains (R361): CXL.cache, and the widths of its AtomicOp completer support. It changes only while the link is
down. -/
def State.hostOffers (s : State) (cache : Bool) (atomics : List Nat) : State :=
  if s.hostUp then s else { s with hostCache := cache, hostAtomics := atomics }

/-! ### Migration (R363 to R367, R460) -/

/-- Moves one line that the move has claimed, its poison mark with it (R366, R460). -/
def State.moveLine (ctx : Nat) (x : State × Nat) (a b : PA) : State × Nat :=
  let (r, m) := x.1.liftLine x.2 ctx a
  let w := r.s.writeAt (devAgent r.ts ctx) (2 ^ 57) b r.data
  (match m with
    | some k => w.s.putLine b.line { w.s.lineOf b.line with poison := true, sectors := BitVec.ofNat 8 k }
    | none => w.s, w.ts)
/-- The watches of a page's lines go with it to its other backing, and the queues look again (R344). -/
def State.moveWatches (s : State) (src dst : PA) : State :=
  let goes (lk : Nat) : Nat :=
    let b := lineBase lk
    if b.sp = src.sp ∧ src.a ≤ b.a ∧ b.a < src.a + 65536 then PA.line { dst with a := dst.a + (b.a - src.a) } else lk
  { s with queues := s.queues.map (fun (q : Nat × Queue) =>
      if q.2.watch.any (fun lk => goes lk != lk) then (q.1, { q.2 with watch := q.2.watch.map goes, woken := true }) else q) }
/-- PAGE_MOVE (R365, R366): a page whose counter has reached its threshold moves to the other side, its lines claimed, copied, the
leaf's LOC and ADDR written, and the counter begun anew. A page that names neither backing does not (R367), nor one whose device backing is not the
context's (R2, log 81); with the host link down, or without CXL.cache (R361), the move is abandoned (R460). Claimed lines make it wait. -/
def execPageMove (ctx : Nat) (va : BitVec 64) (s : State) : Out :=
  let v := va.toNat / 65536 * 65536
  match (s.ctx ctx).bind (fun c => c.rangeOf v), s.walk ctx v with
  | some (r, i), .ok lf =>
    let d : PA := ⟨.dev, r.dback + 65536 * i⟩
    let h : PA := ⟨.host, r.hback + 65536 * i⟩
    let toHost := lf.loc = 0 ∧ lf.base = d.a
    let toDev := lf.loc = 1 ∧ lf.base = h.a
    let src := if lf.loc = 0 then d else h
    let dst := if lf.loc = 0 then h else d
    if !r.due.contains i then .next s
    else if !(decide toHost || decide toDev) || !s.migratable ctx v r i lf || !s.hostUp || !s.hostCache then
      .next (s.modRange ctx v (fun r i => { r with due := r.due.filter (· != i) }))
    else if s.claimed lf.pte || (List.range 512).any (fun j => s.claimed { src with a := src.a + 128 * j } || s.claimed { dst with a := dst.a + 128 * j }) then
      .next s
    else
      let c := (List.range 512).foldl (fun (x : State × Nat) j => x.1.placeClaim x.2 { src with a := src.a + 128 * j }) (s, 0)
      let m := (List.range 512).foldl (fun (x : State × Nat) j =>
        State.moveLine ctx x { src with a := src.a + 128 * j } { dst with a := dst.a + 128 * j }) c
      let s := (m.1.writeLeaf ctx m.2 lf.pte (if lf.loc = 0 then 1 else 0) (dst.a / 256)).moveWatches src dst
      .next (s.modRange ctx v (fun r i => { r with counters := Tab.erase r.counters i, due := r.due.filter (· != i) }))
  | _, _ => .next s
/-- Every migration counter at 0 (R365, R373). -/
def State.clearCounters (s : State) : State :=
  { s with ctxs := s.ctxs.map (fun c => (c.1, { c.2 with migr := c.2.migr.map (fun r => { r with counters := [], peers := [] }) })) }
/-- MIGRATION_COUNTER_CLEAR (R365). -/
def execMigrationCounterClear (s : State) : Out := .next s.clearCounters

end Sys2Proof.Machine
end

