-- ==== Sys2Proof/Machine/Turns.lean ====
section
/-! DEFINITION. Partitions and turns (R142, R358 to R360, R409, R434, R435): schedules, the layout, the switch of a partition from one
context to the next, and the device clock. -/

namespace Sys2Proof.Machine

/-! ### Ports that a switch or a stop waits for (R54, R434) -/

/-- The cores of a partition. -/
def State.partCores (s : State) (p : Nat) : List Nat := (List.range (48 * 2 ^ s.psz p)).map (· + 48 * p)
/-- The busy ports of a partition, as core and port. -/
def State.busyPorts (s : State) (p : Nat) : List (Nat × PortRun) :=
  s.ports.filter (fun x => decide (48 * p ≤ x.1 / 4) && decide (x.1 / 4 < 48 * p + 48 * 2 ^ s.psz p))
/-- Whether an instruction is FIFOW, BARA or BARAW, whose hold may have no bound. -/
def holdsForever : Instr → Bool
  | .fifow _ => true
  | .bara _ => true
  | .baraw _ => true
  | _ => false
/-- Whether a port's hold has no bound (R51, R123, R295, R434): an empty register with no value on its way but those of FIFORs that nothing has fed, or a
FIFOW's room or a barrier's phase; the line of its instruction is there. -/
def State.unbounded (s : State) (r : PortRun) : Bool :=
  let fs := r.fibres.filterMap s.fibre
  match fs with
  | [] => true
  | f :: _ =>
    (s.cc f.ctx f.core).changing.isNone && r.code.all (fun c => c.2.2.isSome)
      && fs.all (fun f => !s.inFlight f.key && !s.pushPending f.key && s.fills.all (fun x => x.fibre != f.key || x.vals.isEmpty))
      && ((r.wait == .empty && fs.any (fun f => s.fills.any (fun x => x.fibre == f.key))) || (r.wait == .held && (match s.instrAt f.ctx f.pc with
        | some i => holdsForever i
        | none => false)))
/-- Cuts a port's sentence at the held instruction: the pronouns stay with the lanes, and the lanes that had completed it are kept (R434). -/
def State.cutPort (s : State) (x : Nat × PortRun) : State :=
  let pc := match x.2.fibres.filterMap s.fibre with
    | f :: _ => f.pc
    | [] => 0
  let s := match s.crew x.2.crew with
    | some c => s.putCrew x.2.crew { c with cut := some { fibres := x.2.fibres, pc := pc, count := x.2.count, done := x.2.done } }
    | none => s
  { s with ports := Tab.erase s.ports x.1 }

/-! ### Schedules (R358) -/

/-- The cycle length of a schedule in ns. -/
def cycleLen (ts : List Turn) : Nat := (ts.filter Turn.valid).foldl (fun n t => n + 10000 * t.len.toNat) 0
/-- The context of the turn at an offset into a cycle. -/
def turnIn : List Turn → Nat → Option Nat
  | [], _ => none
  | t :: r, off =>
    if !t.valid then turnIn r off
    else if off < 10000 * t.len.toNat then some t.ctx.toNat else turnIn r (off - 10000 * t.len.toNat)
/-- The context whose turn it is at a time; none before EPOCH. -/
def turnAt (epoch : Nat) (ts : List Turn) (t : Nat) : Option Nat :=
  if t < epoch ∨ cycleLen ts = 0 then none else turnIn ts ((t - epoch) % cycleLen ts)
/-- The first cycle boundary of a schedule at or after a time (log 21). -/
def firstBoundary (epoch : Nat) (ts : List Turn) (t : Nat) : Nat :=
  if t ≤ epoch ∨ cycleLen ts = 0 then max t epoch else epoch + ceilDiv (t - epoch) (cycleLen ts) * cycleLen ts
/-- A partition with the schedule in effect at a time. -/
def Part.current (x : Part) (t : Nat) : Part :=
  match x.pend with
  | some (start, e, ts) => if start ≤ t then { x with epoch := e, turns := ts, pend := none } else x
  | none => x
/-- The context due on a partition now: live, not lost, and one that names the partition (R408). -/
def State.dueCtx (s : State) (p : Nat) : Option Nat :=
  let x := (s.part p).current s.time
  (turnAt x.epoch x.turns s.time).filter (fun c => match s.ctx c with
    | some y => !y.lost && y.d.pfirst == p && y.d.psize == 2 ^ s.psz p
    | none => false)
/-- Whether a number is the first cluster of a partition of the layout. -/
def State.isPart (s : State) (p : Nat) : Bool := decide (p < 8) && decide (s.psz p ≤ 3)
/-- TURN_SCHEDULE_WRITE (R358, R408): the management controller writes a schedule, which takes effect at its first cycle boundary from
now on. A schedule with a length out of range, or naming a context of another partition, is ignored (log 21). -/
def execTurnScheduleWrite (part : Nat) (epoch : BitVec 64) (turns : List Turn) (s : State) : Out :=
  if 8 ≤ part then .fault .noSuchPart
  else
    let ok (t : Turn) : Bool := !t.valid || (decide (10 ≤ t.len.toNat) && (match s.ctx t.ctx.toNat with
      | some y => y.d.pfirst == part && y.d.psize == 2 ^ s.psz part
      | none => false))
    if !s.isPart part || decide (16 < turns.length) || !turns.all ok then .next s
    else
      let x := (s.part part).current s.time
      .next (s.putPart part { x with pend := some (firstBoundary epoch.toNat turns s.time, epoch.toNat, turns) })

/-! ### Switching (R360, R434) -/

/-- Whether a crew stands in a partition. -/
def State.crewIn (s : State) (p : Nat) (c : Crew) : Bool := decide (48 * p ≤ c.core) && decide (c.core < 48 * p + 48 * 2 ^ s.psz p)
/-- Sets aside the crews of a context that have no group on a port: SAVEDPC is written, their register-cache lines become evictable (R72, R360).
The core stays the fibres' own, to which they come back and where a reclaim request finds them (R102, R103, log 80). -/
def State.setAside (s : State) (p ctx : Nat) : State :=
  let out (k : Nat) (c : Crew) : Bool := s.crewIn p c && c.ctx == ctx && !s.crewOnPort k
  let keys := (s.crews.filter (fun c => out c.1 c.2)).map Prod.fst
  let s := { s with crews := s.crews.map (fun (c : Nat × Crew) => if keys.contains c.1 then (c.1, { c.2 with aside := true }) else c) }
  let fs := (s.fibres.map Prod.snd).filter (fun (f : Fibre) => keys.contains f.crew)
  (s.putFibres (fs.map (fun f => { f with savedpc := f.pc }))).regEvictable (fs.map Fibre.key)
/-- The lines of a context's save area that the device holds something of (R407). -/
def State.areaLines (s : State) (c : Ctx) : List Nat :=
  (s.lines.filter (fun l => (lineBase l.1).sp == .dev && c.saves ((lineBase l.1).a / 65536))).map Prod.fst
/-- The save of a set-aside context writes its area whole (R407, R436, log 31). -/
def State.saveArea (s : State) (ctx : Nat) : State := match s.ctx ctx with
  | none => s
  | some c =>
    let s := (s.areaLines c).foldl (fun (s : State) lk => s.putLine lk { s.lineOf lk with
      copies := [], excl := none, hostCopy := none, upd := none, lostPart := 0, hidden := 0, errCore := 0x1FF, poison := false, sectors := 0 }) s
    s.putCtx ctx { c with areaWritten := false }
/-- What was saved on a partition of a context that has written its save area (R407): the values of its set-aside state are undefined contents: masks,
program counters, pronouns and status of its fibres, its sequencers' registers, SRAM, generators, counters, slots and tiles (log 31). -/
def State.spoilSaved (s : State) (p ctx : Nat) : State :=
  let (k, s) := s.newSeed
  let w (i : Nat) : Word := Config.undefWord k i
  let crews := s.crews.filter (fun (c : Nat × Crew) => s.crewIn p c.2 && c.2.ctx == ctx && c.2.aside)
  let here (core : Nat) : Bool := decide (48 * p ≤ core) && decide (core < 48 * p + 48 * 2 ^ s.psz p)
  {
    s with
    crews := s.crews.map (fun (c : Nat × Crew) => if crews.any (fun x => x.1 == c.1) then
      (c.1, { c.2 with masks := (List.range 12).map (fun i => w (16 * c.1 + i)) }) else c)
    fibres := s.fibres.map (fun (f : Nat × Fibre) => if crews.any (fun x => x.1 == f.2.crew) then
      let b := 2 ^ 20 * (f.1 + 1)
      (f.1, { f.2 with
        fstat := w b, qbits := (w (b + 1)).truncate 8, pc := pairOf (w (b + 2)) (w (b + 3)),
        savedpc := pairOf (w (b + 2)) (w (b + 3)), prons := (List.range 16).map (fun i => (i, w (b + 4 + i))) }) else f)
    teams := s.teams.map (fun (t : Nat × Team) => if t.2.ctx = ctx ∧ here t.2.core then
      let b := 2 ^ 50 * (t.1 + 1)
      (t.1, { t.2 with seqr := { t.2.seqr with
        spc := pairOf (w b) (w (b + 1)), l := t.2.seqr.l.zipIdx.map (fun x => w (b + 2 + x.2)),
        g := t.2.seqr.g.zipIdx.map (fun x => pairOf (w (b + 64 + 2 * x.2)) (w (b + 65 + 2 * x.2))) } }) else t)
    sram := s.sram.filter (fun x => !(x.1 / 2 ^ 21 / 384 == ctx && here (x.1 / 2 ^ 21 % 384)))
    coreCtx := s.coreCtx.map (fun (x : Nat × CoreCtx) => if x.1 / 384 = ctx ∧ here (x.1 % 384) then
      let b := 2 ^ 80 * (x.1 + 1)
      (x.1, { x.2 with
        seeds := (List.range 32).map (fun i => (i, k)), gens := (List.range 4).map (fun i => w (b + i)),
        counts := (List.range 8).map (fun i => (w (b + 4 + i)).toNat),
        slots := x.2.slots.map (fun (y : Nat × OpSlot) => (y.1, { y.2 with seed := k, data := [] }))
        tiles := x.2.tiles.map (fun (y : Nat × Tile) => (y.1, { y.2 with seed := k, data := [] })) }) else x) }
/-- Places again the crews that a context had on the partition, each where it was, with a new placement time (R44, R360). -/
def State.bringBack (s : State) (p ctx : Nat) : State :=
  { s with crews := s.crews.map (fun (c : Nat × Crew) => if s.crewIn p c.2 && c.2.ctx == ctx && c.2.aside then
      (c.1, { c.2 with aside := false, placed := s.cycle, promoted := c.2.isPromoted s.cycle, readySince := s.cycle + 1 }) else c) }
/-- The granule ranges of a context. -/
def State.granulesOf (s : State) (ctx : Nat) : List (Nat × Nat) := (s.mgmt.grans.filter (fun r => r.2.2 == ctx)).map (fun r => (r.1, r.2.1))
/-- Step 1: the granules pass to "being scrubbed", and the crews are to be stopped. -/
def State.startDestroy (s : State) (ctx cls : Nat) : State :=
  let rs := s.granulesOf ctx
  {
    s with
    stops := s.stops ++ [(ctx, cls)]
    mgmt := { s.mgmt with destroy := true, tstart := s.time, receipt := [], rpieces := 0, scrubbing := s.mgmt.scrubbing ++ rs } }
/-- A context is lost, with the class 7 (a restore) or 8 (a save): no crew of it is placed again, and it is destroyed (R436), after the destroy that is
under way if there is one, since only one runs at a time (R410). -/
def State.lose (s : State) (ctx cls : Nat) : State :=
  match s.ctx ctx with
  | none => s
  | some c =>
    if c.lost || s.stops.any (fun x => x.1 == ctx && decide (5 ≤ x.2) && x.2 != 6) then s
    else
      let s := s.putCtx ctx { c with lost := true }
      if s.mgmt.destroy then { s with mgmt := { s.mgmt with losses := s.mgmt.losses ++ [(ctx, cls)] } } else s.startDestroy ctx cls
/-- The restore of a context that was set aside reads its save area (R407, R436): an uncorrectable error or an integrity mismatch there loses the context,
and what it has written there itself makes its state undefined. -/
def State.restoreArea (s : State) (p ctx : Nat) : State := match s.ctx ctx with
  | none => s
  | some c =>
    let ls := s.areaLines c
    if !s.coreCtx.any (fun x => x.1 / 384 == ctx) then s
    else if ls.any (fun lk => (s.lineOf lk).hidden != 0 || (s.lineOf lk).poison) then
      (ls.foldl (fun (s : State) lk => (s.readCheck (lineBase lk) 128 0).2) s).lose ctx 7
    else if c.areaWritten then (s.spoilSaved p ctx).putCtx ctx { c with areaWritten := false } else s
/-- The products, loads and drains that the context's sequencers have begun on the partition are complete (R337). -/
def State.finishJobs (s : State) (p ctx : Nat) : State :=
  (s.teams.filter (fun t => t.2.ctx == ctx && decide (48 * p ≤ t.2.core) && decide (t.2.core < 48 * p + 48 * 2 ^ s.psz p))).foldl (fun (s : State) t =>
    (t.2.seqr.jobs.foldl (fun (s : State) j => match j with
      | .xload i => s.slotReady t.2 i
      | .xdraina i _ => s.slotReady t.2 i
      | _ => s) s).modSeqr t.1 (fun q => { q with jobs := [] })) s
/-- What the outgoing context leaves on the partition: its sequencers' work is complete (R337), and its cache ways keep nothing that is not written back
(R121). -/
def State.leaveParts (s : State) (p ctx : Nat) : State :=
  (s.partCores p).foldl (fun (s : State) c => s.flushWays c (fun _ => true)) (s.finishJobs p ctx)
/-- Whether a claim is held by an engine command of a context. -/
def claimOf (ctx : Nat) (c : Nat × Nat) : Bool := decide (ctx * 128 ≤ c.2) && decide (c.2 < ctx * 128 + 128)
/-- Whether a partition's outgoing context still has something under way that the switch waits for: an XLOAD or XDRAIN (R337), a copy channel short of
its boundary (R131). An XDRAIN that waits for a line claimed by a channel, which may itself have stopped, is saved as it stands (log 77). -/
def State.leaving (s : State) (p ctx : Nat) : Bool :=
  s.teams.any (fun t => t.2.ctx == ctx && decide (48 * p ≤ t.2.core) && decide (t.2.core < 48 * p + 48 * 2 ^ s.psz p) && !t.2.seqr.halt && t.2.seqr.midway
    && (t.2.seqr.reqs.any (fun q => q.2.isNone) || !s.claims.any (fun c => claimOf ctx c)))
  || (List.range (2 ^ s.psz p)).any (fun i => s.chansBusy ctx (p + i))
/-- The end of a switch: every crew of the outgoing context is aside, the due context is current. -/
def State.endSwitch (s : State) (p : Nat) : State :=
  let x := (s.part p).current s.time
  let due := s.dueCtx p
  let s := match x.cur with
    | some o => ((s.setAside p o).leaveParts p o).saveArea o
    | none => s
  match due with
  | none => s.putPart p { x with cur := none, switching := false }
  | some n =>
    let s := s.restoreArea p n
    if (s.ctx n).elim false Ctx.lost then s.putPart p { x with cur := none, switching := false }
    else (s.putPart p { x with cur := due, switching := false }).bringBack p n
/-- The switch ends once the partition's ports are free and its engines have stopped. -/
def State.trySwitch (s : State) (p : Nat) (cur : Option Nat) : State :=
  if !(s.busyPorts p).isEmpty then s
  else match cur with
    | none => s.endSwitch p
    | some o =>
      let t := (List.range (2 ^ s.psz p)).foldl (fun (s : State) i => s.stopChans o (p + i)) s
      if t.leaving p o then t else t.endSwitch p
/-- TURN_SWITCH (R360, R434): at a switch instant the ports of the partition finish their sentences, those held without bound are cut,
crews are set aside, and the incoming context's come back. -/
def execTurnSwitch (part : Nat) (s : State) : Out :=
  if 8 ≤ part then .fault .noSuchPart
  else if !s.isPart part then .next s
  else
    let x := (s.part part).current s.time
    if x.switching then
      let s := ((s.busyPorts part).filter (fun r => s.unbounded r.2)).foldl State.cutPort s
      .next (s.trySwitch part x.cur)
    else if s.dueCtx part = x.cur then .next (s.putPart part x)
    else
      let s := s.putPart part { x with switching := true }
      let s := ((s.busyPorts part).filter (fun r => s.unbounded r.2)).foldl State.cutPort s
      .next ((match x.cur with
        | some o => s.setAside part o
        | none => s).trySwitch part x.cur)

/-! ### The partition layout (R409) -/

/-- Whether a layout's partitions are aligned to their size and cover the eight clusters without overlap. -/
def layoutOk (w : Nat) : Bool :=
  (List.range 8).foldl (fun (next : Option Nat) i => match next with
    | none => none
    | some n =>
      let z := bitsOf w (4 * i) 4
      if i = n then (if z ≤ 3 ∧ i % 2 ^ z = 0 then some (n + 2 ^ z) else none)
      else if z = 15 then some n else none) (some 0) == some 8
/-- PARTITION_LAYOUT_WRITE (R409): accepted when valid and when it keeps every partition that a live context names. Partitions that are
new have no schedule. -/
def execPartitionLayoutWrite (word : BitVec 64) (s : State) : Out :=
  let w := word.toNat % 2 ^ 32
  let keeps (c : Ctx) : Bool := 2 ^ bitsOf w (4 * c.d.pfirst) 4 == c.d.psize
  if !layoutOk w || !s.ctxs.all (fun c => keeps c.2) then .next s
  else .next {
    s with
    parts := s.parts.filter (fun x => bitsOf w (4 * x.1) 4 == s.psz x.1)
    mgmt := { s.mgmt with layout := BitVec.ofNat 64 w } }

/-! ### The device clock (R13, R359, R435) -/

/-- PTP_MESSAGE (R359, R435): the clock is set by the offset found, and the estimate kept; one that exceeds 1 µs clears GANGSYNC. The offset stays within
1 µs from the first message that finds it so, with no silence of 1 s since. -/
def execPtpMessage (offset : Int) (s : State) : Out :=
  let bad := decide (1000 < offset.natAbs)
  let fresh := decide (1000 < s.ptpOff.natAbs) || decide (s.ptpLast + cyclesPerSecond ≤ s.cycle) || decide (s.ptpLast = 0)
  .next {
    s with
    ptpBase := s.ptpBase + offset
    ptpOff := offset
    ptpLast := s.cycle
    ptpGood := if bad || fresh then s.cycle else s.ptpGood
    mgmt := { s.mgmt with gangsync := s.mgmt.gangsync && !bad } }
/-- PTP_UNLOCK (R435): the offset exceeds 1 µs, or no synchronisation message for 1 s. -/
def execPtpUnlock (s : State) : Out :=
  if 1000 < s.ptpOff.natAbs ∨ s.ptpLast + cyclesPerSecond ≤ s.cycle then
    .next { s with mgmt := { s.mgmt with gangsync := false } }
  else .next s
/-- PTP_RELOCK (R435): the offset has stayed within 1 µs for 10 s. -/
def execPtpRelock (s : State) : Out :=
  if s.ptpOff.natAbs ≤ 1000 ∧ s.ptpGood + 10 * cyclesPerSecond ≤ s.cycle ∧ s.cycle < s.ptpLast + cyclesPerSecond then
    .next { s with mgmt := { s.mgmt with gangsync := true } }
  else .next s

end Sys2Proof.Machine
end

