-- ==== Sys2Proof/Machine/Stops.lean ====
section
/-! DEFINITION. Stopping a context (R493), destroying it with its receipt (R416), losing it (R436), a checkpoint's quiescence (R497),
and the retirement of units (R494 to R496). -/

namespace Sys2Proof.Machine

/-! ### Retirement (R494 to R496) -/

/-- REPLACE is set for a cause: 0 a retirement, 1 the signing index, 2 the corrected-error rate (R496). -/
def State.needService (s : State) (cause : Nat) : State :=
  { s with mgmt := { s.mgmt with replace := true, rcause := s.mgmt.rcause ||| (1#4 <<< cause) } }
/-- A cluster is retired: it takes effect at the next module reset, and until then its partition places nothing (R494). -/
def State.retireCluster (s : State) (cl : Nat) : State :=
  if s.mgmt.pendcl.contains cl || s.mgmt.retcl.contains cl then s
  else State.needService { s with mgmt := { s.mgmt with pendcl := cl :: s.mgmt.pendcl } } 0
/-- A core is retired; more than 8 of a cluster retire the cluster (R494). -/
def State.retireCore (s : State) (core : Nat) : State :=
  if s.mgmt.retcores.contains core then s
  else
    let s := State.needService { s with mgmt := { s.mgmt with retcores := core :: s.mgmt.retcores } } 0
    if 8 < (s.mgmt.retcores.filter (fun c => clusterOf c == clusterOf core)).length then s.retireCluster (clusterOf core) else s

/-- Whether the firmware has booted, so that the device does more than offer recovery (R420, R498). -/
def State.serves (s : State) : Bool := s.mgmt.booted && !s.mgmt.recovery

/-! ### Discarding a context's work (R493 steps 1 to 3) -/

/-- Whether a port runs a sentence of a context. -/
def State.portOf (s : State) (ctx : Nat) (x : Nat × PortRun) : Bool := match s.crew x.2.crew with
  | some c => c.ctx == ctx
  | none => false
/-- Whether a stop cuts a port's sentence (R434, R493): its hold has no bound, or waits for a value that nothing brings; a FENCE.SYS with the host link
down is discarded with its fibre (R469). -/
def State.stuck (s : State) (r : PortRun) : Bool :=
  s.unbounded r || (match r.wait with
    | .fence _ => !s.hostUp
    | _ => false) || ((r.wait == .held || r.wait == .empty)
    && (r.fibres.filterMap s.fibre).all (fun f => !s.inFlight f.key && s.fills.all (fun x => x.fibre != f.key || x.vals.isEmpty)))
/-- Fills, unplaced tasks, banker requests and engine commands are discarded (R493 step 2); a transfer that has not passed step 4 of R376
reports reason 5. -/
def State.discardWork (s : State) (ctx : Nat) : State :=
  let segs := (List.range 8).flatMap (fun cl =>
    ((s.cluster cl).bins.flatMap Bin.tasks ++ (s.cluster cl).placement.flatMap Formed.tasks).flatMap (fun (t : Task) => if t.ctx = ctx then t.segs else []))
  let s := s.putHeap ctx ((s.heap ctx).freeSegs segs)
  let s := s.clusterCtx.foldl (fun (s : State) x => if x.1 / 8 = ctx then
      x.2.chans.foldl (fun (s : State) c => s.releasePeers ctx (chanKey ctx (x.1 % 8) c.1) c.2.stamp c.2.cmds) s else s) s
  let open_ := s.link.xfers.filter (fun x => x.cmd.ctx == ctx && !x.committed)
  let s := {
    s with
    fills := s.fills.filter (fun (x : Fill) => match s.fibre x.fibre with
      | some f => f.ctx != ctx
      | none => false)
    coreCtx := s.coreCtx.map (fun (x : Nat × CoreCtx) => if x.1 / 384 = ctx then
      (x.1, { x.2 with fifos := x.2.fifos.map (fun (q : Nat × Fifo) => (q.1, { q.2 with resv := [] })) }) else x)
    clusters := s.clusters.map (fun (x : Nat × Cluster) => (x.1, {
      x.2 with
      bins := x.2.bins.filter (fun b => b.ctx != ctx)
      placement := x.2.placement.filter (fun b => b.ctx != ctx)
      waiting := x.2.waiting.filter (fun t => t.ctx != ctx)
      banker := x.2.banker.filter (fun r => r.ctx != ctx)
      farBuf := x.2.farBuf.filter (fun r => r.ctx != ctx) }))
    clusterCtx := s.clusterCtx.map (fun (x : Nat × ClusterCtx) => if x.1 / 8 = ctx then
      (x.1, {
        chans := x.2.chans.map (fun (c : Nat × Chan) => (c.1, { c.2 with cmds := [], halted := false, haltBlk := none, dropped := 0 }))
        streams := x.2.streams.map (fun (c : Nat × List Cmd × List Sub) => (c.1, [], c.2.2))
        halted := [] }) else x)
    claims := s.claims.filter (fun c => !claimOf ctx c)
    jobs := s.jobs.filter (fun (j : MemJob) => j.fs.all (fun f => f.ctx != ctx))
    link := {
      s.link with
      queue := s.link.queue.filter (fun c => c.ctx != ctx)
      sent := s.link.sent.filter (fun c => c.1.ctx != ctx)
      posts := s.link.posts.filter (fun p => p.ctx != ctx)
      xfers := s.link.xfers.filter (fun x => x.cmd.ctx != ctx) } }
  open_.foldl (fun (s : State) x => s.xferEnd x (some 5)) s
/-- The heap and future-cell region with everything freed and each GEN advanced (R493 step 3). `segs` and `nodes` are what fibres hold. -/
def Heap.cleared (h : Heap) (d : CtxDesc) (segs : List Seg) (nodes : List Nat) : Heap :=
  let live := h.blocks.filter (fun b => !h.freeBlocks.contains b.1)
  let segs := segs ++ live.flatMap (fun b => b.2.segs)
  let nodes := nodes ++ live.flatMap (fun b => b.2.frames.flatMap (fun f => f.owned.map Node.addr))
    ++ h.cells.flatMap (fun c => c.2.waiters.map Node.addr)
  let used := (h.cells.filter (fun c => c.2.live)).map Prod.fst
  let h := nodes.foldl Heap.freeNode (h.freeSegs segs)
  let h := live.foldl (fun (h : Heap) b => h.freeBlock b.1) h
  let h := { h with cells := h.cells.map (fun (c : Nat × Cell) => (c.1, { c.2 with state := 2, reach := 0, waiters := [], cont := 0, parkedon := 0 })) }
  used.foldl (fun (h : Heap) i => h.freeCell d i) h
/-- What peers have under way with a context that is stopped (R469, R493): a transfer into it is refused, with reason 6; when the host link is down
its link sessions end, and what waits for it here gives reason 5. -/
def State.endSessions (s : State) (ctx : Nat) : State :=
  let s := (s.link.xfersIn.filter (fun x => x.ctx == ctx)).foldl (fun (s : State) x =>
    s.tell x.src ctx 0 (.answer x.id (if s.hostUp then 6 else 5))) s
  if s.hostUp then s
  else
    let src (i : Instr) : Option Nat := match i with
      | .sendArrival d c _ _ _ => if c = ctx then some d else none
      | .remoteRedArrival d c _ _ _ _ => if c = ctx then some d else none
      | .remoteCallArrival d c _ _ _ _ _ => if c = ctx then some d else none
      | _ => none
    let s := (s.inbox.filterMap (fun x => src x.2)).foldl (fun (s : State) d => s.tell d ctx 0 (.ack 5)) s
    { s with inbox := s.inbox.filter (fun x => (src x.2).isNone) }
/-- Everything of a context that is in flight is discarded, and its heap reset (R493 steps 1 to 3). -/
def State.discardAll (s : State) (ctx : Nat) : State :=
  let s := (s.endSessions ctx).discardWork ctx
  let fs := (s.fibres.map Prod.snd).filter (fun f => f.ctx == ctx)
  let s := match s.ctx ctx with
    | some c => s.putCtx ctx { c with heap := c.heap.cleared c.d (fs.flatMap Fibre.segs) (fs.flatMap (fun (f : Fibre) => f.chain.flatMap (fun (x : Frame) => x.owned.map Node.addr))), order := [] }
    | none => s
  {
    s with
    ports := s.ports.filter (fun p => !s.portOf ctx p)
    rcache := s.rcache.map (fun (x : Nat × List RegLine) => (x.1, x.2.filter (fun l => !fs.any (fun f => f.key == l.fibre))))
    codeAsks := s.codeAsks.filter (fun x => x.ctx != ctx)
    fibres := s.fibres.filter (fun f => f.2.ctx != ctx)
    crews := s.crews.filter (fun c => c.2.ctx != ctx)
    teams := s.teams.filter (fun t => t.2.ctx != ctx)
    coreCtx := s.coreCtx.map (fun (x : Nat × CoreCtx) => if x.1 / 384 = ctx then (x.1, { x.2 with slots := [], tiles := [], changing := none }) else x)
    clusterCtx := s.clusterCtx.map (fun (x : Nat × ClusterCtx) => if x.1 / 8 = ctx then (x.1, { x.2 with streams := [] }) else x)
    launches := s.launches.filter (fun l => l.ctx != ctx || l.node)
    queues := s.queues.map (fun (q : Nat × Queue) => if q.2.ctx = ctx then (q.1, { q.2 with launches := [], tasks := [], deferred := [] }) else q)
    link := { s.link with xfersIn := s.link.xfersIn.filter (fun x => x.ctx != ctx) } }
/-- A queue context is freed with its nodes (R349, R469). -/
def State.freeQueue (s : State) (q : Nat) : State := match s.queue q with
  | none => s
  | some x => State.putQreg {
      s with
      queues := Tab.erase s.queues q
      launches := s.launches.filter (fun l => !(l.ctx == x.ctx && l.node && l.queue == q)) } q
    { s.qreg q with create := false, destroy := false, state := 0, ecode := 0, epc := 0 }
/-- R493: the context is stopped by an error of a class. With the host link down its queues are freed instead (R469). -/
def State.stopContext (s : State) (ctx cls : Nat) : State :=
  let s := s.discardAll ctx
  let qs := (s.queues.filter (fun q => q.2.ctx == ctx)).map Prod.fst
  let s := if s.hostUp then qs.foldl (fun (s : State) q => s.queueError q 0x8006 0 0 0) s else qs.foldl State.freeQueue s
  (s.modSummary ctx (fun m => { m with stopped := true, sclass := cls })).msix 2

/-! ### The destroy and its receipt (R416) -/

/-- Whether a device address lies in granule ranges. -/
def inGranules (rs : List (Nat × Nat)) (a : Nat) : Bool := rs.any (fun r => decide (65536 * r.1 ≤ a) && decide (a < 65536 * (r.1 + r.2)))
/-- Step 2: memory, SRAM, slots, tiles and lines of the context hold zeros, and nothing of it stands on the device. -/
def State.eraseContext (s : State) (ctx : Nat) : State :=
  let rs := s.granulesOf ctx
  let s := ((s.queues.filter (fun q => q.2.ctx == ctx)).map Prod.fst).foldl State.freeQueue s
  {
    s with
    dev := s.dev.filter (fun c => !inGranules rs c.1)
    sram := s.sram.filter (fun c => c.1 / 2 ^ 21 / 384 != ctx)
    lines := s.lines.filter (fun l => !((lineBase l.1).sp == .dev && inGranules rs (lineBase l.1).a))
    coreCtx := s.coreCtx.filter (fun x => x.1 / 384 != ctx)
    clusterCtx := s.clusterCtx.filter (fun x => x.1 / 8 != ctx)
    launches := s.launches.filter (fun l => l.ctx != ctx)
    segLines := s.segLines.map (fun (x : Nat × List SegLine) => (x.1, x.2.filter (fun l => l.ctx != ctx)))
    claims := s.claims.filter (fun c => !(claimOf ctx c || (decide (2 ^ 40 ≤ c.2) && (c.2 - 2 ^ 40) / 2 ^ 57 == ctx)
      || ((lineBase c.1).sp == .dev && inGranules rs (lineBase c.1).a)))
    link := { s.link with hands := s.link.hands.filter (fun h => h.ctx != ctx) }
    parts := s.parts.map (fun (p : Nat × Part) => if p.2.cur = some ctx then (p.1, { p.2 with cur := none }) else p) }
/-- How many units hold data of a context as its destroy scrubs them (R416): register-cache lines, first-level lines, second-level lines, SRAM banks that
are no cache ways, operand slots and accumulator tiles. -/
def State.scrubCounts (s : State) (ctx : Nat) : List Nat :=
  let mine (lk : Nat) : Bool := (lineBase lk).sp == .dev && s.granOwner ((lineBase lk).a / 65536) == some ctx
  let cores := (s.coreCtx.filter (fun x => x.1 / 384 == ctx)).map Prod.snd
  [(s.rcache.flatMap Prod.snd).countP (fun l => (s.fibre l.fibre).elim false (fun f => f.ctx == ctx)),
   ((s.lines.filter (fun l => mine l.1)).flatMap (fun (l : Nat × Line) => l.2.copies.map Copy.core ++ (match l.2.upd with
      | some (_, ps) => (ps.filter (fun p => !p.inSlot)).map Partial.core
      | none => []))).length + (s.segLines.flatMap Prod.snd).countP (fun x => x.ctx == ctx),
   s.lines.countP (fun l => mine l.1),
   cores.foldl (fun n c => n + (List.range 32).countP (fun b => c.role b != 0)) 0,
   cores.foldl (fun n c => n + c.slots.countP (fun x => x.2.owner.isSome) + c.tiles.countP (fun x => x.2.owner.isSome)) 0]
/-- The receipt (R416): its header, the granule ranges, the signature. -/
def State.receiptOf (s : State) (ctx : Nat) (c : Ctx) (counts : List Nat) : List Byte :=
  let rs := s.granulesOf ctx
  let n (i : Nat) : Nat := counts.getD i 0
  let head := leBytes 128 (packNat [(16, 1), (16, ctx), (6, c.d.kslot), (26, 0), (64, s.mgmt.rseq), (64, s.mgmt.tstart), (64, s.time),
    (32, n 0), (32, n 1), (32, n 2), (16, n 3), (16, n 4), (32, rs.length), (32, s.mgmt.scrubFails.length),
    (256, (s.key c.d.kslot).log.chain.toNat)])
  let body := head ++ rs.flatMap (fun r => leBytes 8 r.1 ++ leBytes 8 r.2)
  body ++ Config.signature s.mgmt.keyIndex body
/-- A one-time key is used for a signature; the index is advanced, and with the last one spent REPLACE is set (R415, R496). -/
def State.useKey (s : State) : State :=
  let s := { s with mgmt := { s.mgmt with keyIndex := s.mgmt.keyIndex + 1 } }
  if s.mgmt.keyIndex = 2 ^ 40 then s.needService 1 else s
/-- A key slot without its keys. -/
def KeySlot.erased (k : KeySlot) : KeySlot := { k with imported := false, k1 := 0, k2 := 0, km := 0 }
/-- The number that names no context: who holds granules and a slot that no receipt frees (R415, log 13). -/
def noCtx : Nat := 65536
/-- Steps 2 to 4. With no one-time key left no receipt is signed, so the granules and the slot stay with the scrub (R415). -/
def State.scrubbed (s : State) (ctx : Nat) (c : Ctx) (counts : List Nat) : State :=
  let bytes := s.receiptOf ctx c counts
  let rs := s.granulesOf ctx
  let k := (s.key c.d.kslot).erased
  let e := s.eraseContext ctx
  let e := { e with ctxs := Tab.erase e.ctxs ctx }
  let e := s.mgmt.scrubFails.foldl State.retireCore e
  if 2 ^ 40 ≤ s.mgmt.keyIndex then
    let e := e.putKey c.d.kslot { k with ctx := some noCtx }
    { e with mgmt := {
        e.mgmt with
        destroy := false
        fail := true
        scrubFails := []
        grans := s.mgmt.grans.map (fun r => if r.2.2 = ctx then (r.1, r.2.1, noCtx) else r) } }
  else
    let e := e.putKey c.d.kslot { k with ctx := none, monitors := [], log := LogRing.empty }
    State.useKey {
      e with
      scrub := c.placedCores.foldl (fun (t : Tab (Bool × Nat)) i => Tab.set t i (s.mgmt.scrubFails.contains i, s.mgmt.rseq)) e.scrub
      mgmt := {
        e.mgmt with
        destroy := false
        receipt := bytes
        rpieces := ceilDiv bytes.length 65536
        rseq := s.mgmt.rseq + 1
        scrubFails := []
        grans := s.mgmt.grans.filter (fun r => r.2.2 != ctx)
        scrubbing := s.mgmt.scrubbing.filter (fun r => !rs.contains r) } }
/-- The destroy's end, and the next one that a loss has begun meanwhile. -/
def State.finishDestroy (s : State) (ctx : Nat) (c : Ctx) (counts : List Nat) : State :=
  let s := s.scrubbed ctx c counts
  match s.mgmt.losses with
  | x :: r => ({ s with mgmt := { s.mgmt with losses := r } }).startDestroy x.1 x.2
  | [] => s
/-- A context lost in a restore (7) or a save (8): nothing of it is placed again, its turns are cleared, it is destroyed (R436). -/
def State.loseContext (s : State) (ctx cls : Nat) (c : Ctx) (counts : List Nat) : State :=
  let clear (t : Turn) : Turn := if t.ctx.toNat = ctx then { t with valid := false } else t
  let s := {
    s with
    parts := s.parts.map (fun (p : Nat × Part) => (p.1, {
      p.2 with
      turns := p.2.turns.map clear
      pend := p.2.pend.map (fun (x : Nat × Nat × List Turn) => (x.1, x.2.1, x.2.2.map clear)) })) }
  let s := s.modSummary ctx (fun m => { m with lost := true, lcause := if cls = 7 then 1 else 2 })
  (s.finishDestroy ctx c counts).msix 2

/-! ### A checkpoint (R497) -/

/-- The keys under which a granule's lines stand: those of its owner's slot (R23, R406). -/
def State.granKey (s : State) (g : Nat) : KeySlot := s.key (((s.granOwner g).bind s.ctx).elim 64 (fun c => c.d.kslot))
/-- A line of device memory as it stands in HBM: its ciphertext and its tag (R413). The tag of a line whose integrity was broken does not match. -/
def State.cipherLine (s : State) (pa : Nat) : List Byte :=
  let k := s.granKey (pa / 65536)
  xtsEncrypt k.k1 k.k2 (pa / 128 % 2 ^ 45) (s.rawRead ⟨.dev, pa / 128 * 128⟩ 128)
def lineTag (km : BitVec 256) (pa : Nat) (c : List Byte) : List Byte := (cmac km (c ++ leBytes 8 (pa / 128 * 128))).take 8
def State.tagOf (s : State) (pa : Nat) : List Byte :=
  let t := lineTag (s.granKey (pa / 65536)).km pa (s.cipherLine pa)
  if (s.lineOf (PA.line ⟨.dev, pa⟩)).hidden = 2 then t.map (fun b => ~~~b) else t
/-- The CMAC over a granule's ciphertext (R497). -/
def granCmac (km : BitVec 256) (ls : List (List Byte × List Byte)) : List Byte := cmac km (ls.flatMap Prod.fst)
/-- A granule as it stands in HBM, under the keys of the context that owns it (R23, R413). -/
def State.sealed (s : State) (g : Nat) : SavedGranule :=
  let ls := (List.range 512).map (fun i => (s.cipherLine (65536 * g + 128 * i), s.tagOf (65536 * g + 128 * i)))
  {
    gran := g
    lines := ls
    marks := (s.lines.filter (fun (l : Nat × Line) => (lineBase l.1).sp == .dev && (lineBase l.1).a / 65536 == g
        && (l.2.poison || (l.2.hidden != 0 && l.2.hidden != 2)))).map
      (fun (l : Nat × Line) => ((lineBase l.1).a % 65536 / 128, if l.2.poison then 0 else l.2.hidden))
    cmac := granCmac (s.granKey g).km ls }
/-- A message of the checkpoint stream: to the safe-tier device, in class 3 (R497). -/
def ckptMsg (ctx : Nat) (b : MsgBody) : Msg := { dst := 127, tc := 3, ctx := ctx, stamp := 0, body := b }
/-- Every line is written back, a U line merged first (log 64); then every granule that has an owner is streamed, the granule table first,
when the contexts stand still; then work goes on. -/
def State.streamAll (s : State) : State :=
  let gs := s.mgmt.grans.flatMap (fun r => (List.range r.2.1).map (fun i => r.1 + i))
  let s := (s.stops.filter (fun x => x.2 == 6)).foldl (fun (s : State) x => s.discardWork x.1) s
  let s := (s.lines.filter (fun (l : Nat × Line) => l.2.upd.isSome)).foldl (fun (s : State) l => s.merge l.1 6) s
  let s := gs.foldl (fun (s : State) g => s.sendMsg (ckptMsg ((s.granOwner g).getD 0) (.ckpt (s.sealed g)))) (s.sendMsg (ckptMsg 0 (.ckptTable s.mgmt.grans)))
  {
    s with
    stops := s.stops.filter (fun x => x.2 != 6)
    mgmt := {
      s.mgmt with
      ckpt := false
      ckptGrans := s.mgmt.grans
      ckptSlots := s.ctxs.map (fun c => (c.1, c.2.d.kslot)) } }

/-! ### Pending stops -/

/-- Acts on a stop whose context has no sentence on a port. -/
def State.actStop (s : State) (ctx cls : Nat) : State :=
  match s.ctx ctx with
  | none => { s with stops := s.stops.filter (fun x => x.1 != ctx) }
  | some _ =>
    if cls ≤ 4 then
      let s := { s with stops := s.stops.filter (fun x => !(x.1 == ctx && decide (x.2 ≤ 4))) }
      s.stopContext ctx cls
    else
      let counts := s.scrubCounts ctx
      let s := s.discardAll ctx
      let s := { s with stops := s.stops.filter (fun x => x.1 != ctx) }
      match s.ctx ctx with
      | none => s
      | some c => if cls = 5 then s.finishDestroy ctx c counts else s.loseContext ctx cls c counts
/-- One pending stop: ports that cannot go on are cut; once none runs the context's sentences, it is acted on. -/
def State.stopOne (s : State) (x : Nat × Nat) : State :=
  if !s.stops.contains x then s
  else
    let s := (s.ports.filter (fun p => s.portOf x.1 p && s.stuck p.2)).foldl State.cutPort s
    if s.ports.any (s.portOf x.1) || x.2 == 6 then s else s.actStop x.1 x.2
/-- All pending stops. An error that stops a context ends a checkpoint that is under way (R497). -/
def State.settleStops (s : State) : State :=
  let failed := s.mgmt.ckpt && s.stops.any (fun x => decide (x.2 ≤ 4))
  let s := if failed then
      { s with stops := s.stops.filter (fun x => x.2 != 6), mgmt := { s.mgmt with ckpt := false, ckptGrans := [], ckptSlots := [] } }
    else s
  let s := s.stops.foldl State.stopOne s
  if s.mgmt.ckpt && !(s.stops.filter (fun x => x.2 == 6)).any (fun x => s.ports.any (s.portOf x.1)) then s.streamAll else s

end Sys2Proof.Machine
end

