-- ==== Sys2Proof/Machine/Tenancy.lean ====
section
/-! DEFINITION. The security block and the management controller (R406 to R420, R475, R497): creation and destruction of contexts, the
debug interface, monitors and log rings, plain register writes, attestation and keys, firmware, module reset, checkpoints. -/

namespace Sys2Proof.Machine

/-! ### Creating a context (R406 to R410) -/

/-- The 512 bits of the descriptor at offset 0x0_0000 of BAR 0. -/
def Mgmt.descBits (m : Mgmt) : Nat := ofBytes ((List.range 64).map (fun i => (Tab.get m.desc i).getD 0))
/-- A descriptor read from its bits (R406). PSIZE is kept as the count of clusters. -/
def CtxDesc.ofBits (v : Nat) : CtxDesc :=
  { ctxid := bitsOf v 0 16, kslot := bitsOf v 16 6, pfirst := bitsOf v 22 3, psize := 2 ^ bitsOf v 25 2, hostmem := bitOf v 27,
    tloc := bitsOf v 28 1, srseed := BitVec.ofNat 32 (bitsOf v 32 32), troot := bitsOf v 64 64, fhbase := bitsOf v 128 56,
    fhsize := bitsOf v 192 32, fcbase := bitsOf v 224 56, fcsize := bitsOf v 288 16, hdmbase := 65536 * bitsOf v 384 36,
    hdmsize := bitsOf v 448 32, savegr := bitsOf v 480 24 }
/-- Whether a context owns n granules from g on, none of them being scrubbed. -/
def State.ownsGranules (s : State) (ctx g n : Nat) : Bool :=
  (List.range n).all (fun i => s.granOwner (g + i) == some ctx && !s.beingScrubbed (g + i))
/-- Whether two regions overlap. -/
def regionsMeet (a n b m : Nat) : Bool := decide (a < b + m) && decide (b < a + n)
/-- The tests of a descriptor in ascending order of their fields' lowest bits: true is a failure (R406, R410). -/
def State.descTests (s : State) (v : Nat) : List (Nat × Bool) :=
  let d := CtxDesc.ofBits v
  let z (lo n : Nat) : Nat × Bool := (lo, bitsOf v lo n != 0)
  let fh := d.fhsize * 0x200000
  let fc := d.fcsize * 0x200000
  [(0, d.ctxid == 0 || (s.ctx d.ctxid).isSome),
   (16, !(s.key d.kslot).imported || (s.key d.kslot).ctx.isSome),
   (22, !(decide (s.psz d.pfirst ≤ 3) && 2 ^ s.psz d.pfirst == d.psize)),
   (27, d.hostmem && !s.hostCache),
   (28, d.tloc == 1 && !s.hostCache),
   z 29 3,
   (64, d.troot % 4096 != 0 || (d.tloc == 0 && !s.ownsGranules d.ctxid (d.troot / 65536) 1)),
   (128, d.fhbase % 0x200000 != 0),
   z 184 8,
   (192, d.fhsize == 0 || decide (winBase < d.fhbase + fh)),
   (224, d.fcbase % 0x200000 != 0 || decide (winBase ≤ d.fcbase) || regionsMeet d.fhbase fh d.fcbase fc),
   z 280 8,
   (288, d.fcsize == 0 || decide (winBase < d.fcbase + fc)),
   (304, decide (16 < bitsOf v 304 5)),
   z 309 11,
   (320, bitsOf v 304 5 == 0 && bitsOf v 320 64 != 0),
   z 420 28,
   (480, !s.ownsGranules d.ctxid d.savegr (1730 * d.psize)),
   z 504 8]
/-- An entry of the migration range table (R363), read where the context's tables lie (log 12). One that reaches a granule that is not the context's
reads as zeros, no range (R2, log 81). -/
def State.migEntry (s : State) (d : CtxDesc) (a : Nat) : MigRange :=
  let v := if d.tloc = 0 ∧ s.owns d.ctxid a 32 = false then 0
    else ofBytes ((List.range 32).flatMap (fun j => s.peek ⟨if d.tloc = 1 then .host else .dev, a + j⟩ 1))
  { vbase := bitsOf v 0 57, pages := bitsOf v 64 24, thresh := if bitsOf v 88 16 = 0 then 256 else bitsOf v 88 16, dback := bitsOf v 128 64,
    hback := bitsOf v 192 64, counters := [], peers := [], pending := [], reached := [], due := [] }
/-- A context with nothing in it: its region carved nowhere, its migration ranges as its table gives them (R363, R406). -/
def State.newCtx (s : State) (v : Nat) (d : CtxDesc) : Ctx := {
  d := d, heap := Heap.empty, migr := (List.range (bitsOf v 304 5)).map (fun i => s.migEntry d (bitsOf v 320 64 + 32 * i)),
  nextLaunch := 16, order := [], placedCores := [], lost := false, areaWritten := false }
/-- The management controller's own context, CTXID 0, which its privileged launches run in (R308, R406): no rule states tests of its descriptor, and
it is what the controller makes it, when none is there and its key slot is free (log 41). -/
def State.createMgmt (s : State) (v : Nat) : State :=
  let d := { CtxDesc.ofBits v with ctxid := 0 }
  if (s.ctx 0).isSome || (s.key d.kslot).ctx.isSome || !s.serves then s
  else (s.putKey d.kslot { s.key d.kslot with ctx := some 0, monitors := [], log := LogRing.empty, summary := Summary.empty }).putCtx 0 (s.newCtx v d)
/-- CONTEXT_CREATE (R406, R410): the host sets CREATE; a failed check leaves nothing created and shows the field. In recovery no context
is created (R420, R498). -/
def execContextCreate (s : State) : Out :=
  if s.mgmt.create || s.mgmt.destroy then .next s
  else if !s.serves then .next { s with mgmt := { s.mgmt with fail := true, ffield := 0 } }
  else
    let v := s.mgmt.descBits
    let d := CtxDesc.ofBits v
    match (s.descTests v).find? (fun t => t.2) with
    | some (f, _) => .next { s with mgmt := { s.mgmt with fail := true, ffield := f } }
    | none =>
      let t := s.putKey d.kslot { s.key d.kslot with ctx := some d.ctxid, monitors := [], log := LogRing.empty, summary := Summary.empty }
      .next { t.putCtx d.ctxid (s.newCtx v d) with mgmt := { s.mgmt with fail := false, ffield := 0 } }
/-- CONTEXT_DESTROY (R410, R416): the host sets DESTROY; the context's granules pass to being scrubbed and its crews are to be stopped. -/
def execContextDestroy (s : State) : Out :=
  if s.mgmt.create || s.mgmt.destroy then .next s
  else if (s.ctx s.mgmt.dctx).isNone then .next { s with mgmt := { s.mgmt with fail := true } }
  else
    let s := s.startDestroy s.mgmt.dctx 5
    .next { s with mgmt := { s.mgmt with fail := false, ffield := 0 } }

/-! ### The debug interface (R73, R411, R475) -/

/-- The fibre and frame that a command names, or its status. -/
def State.debugTarget (s : State) (d : Debug) : Except Nat (Fibre × Frame) :=
  let fs := (s.fibres.map Prod.snd).filter (fun f => f.ctx == d.ctx.toNat && f.fid == d.fid && !f.helper)
  if d.frame = 0 then
    match fs with
    | [] => .error 1
    | [f] => .ok (f, f.top)
    | _ => .error 4
  else match fs.findSome? (fun f => (f.frameAt d.frame.toNat).map (fun fr => (f, fr))) with
    | some x => .ok x
    | none => .error 1
/-- A command that has ended with a status. -/
def State.debugEnd (s : State) (d : Debug) (status : Nat) : State := { s with mgmt := { s.mgmt with dbg := { d with go := false, status := status } } }
/-- The command of the debug block (R411): halts, releases, reads, writes; 5 and 6 wait until the register is full. -/
def State.debugRun (s : State) (d : Debug) : State :=
  let op := d.op.toNat
  if op = 0 ∨ op = 7 then s.debugEnd d 6
  else match s.debugTarget d with
    | .error n => s.debugEnd d n
    | .ok (f, fr) =>
      if op = 1 then (s.putFibre { f with halted := true }).debugEnd d 0
      else if op = 2 then (s.putFibre { f with halted := false, since := s.cycle }).debugEnd d 0
      else if !f.halted || s.onPort f.key then s.debugEnd d 3
      else if fr.f ≤ d.reg.toNat then s.debugEnd d 5
      else if 5 ≤ op ∧ !fr.full d.reg.toNat then
        { s with mgmt := { s.mgmt with dbg := { d with go := true, since := if s.mgmt.dbg.go then d.since else s.cycle } } }
      else if op = 3 ∨ op = 5 then s.debugEnd { d with value := fr.reg d.reg.toNat, full := fr.full d.reg.toNat } 0
      else ((s.putFibre (f.putFrame (fr.setReg d.reg.toNat d.value))).settleAwaits).debugEnd d 0
/-- The host sets GO with an operation: only one command runs at a time. -/
def State.debugGo (s : State) (op : BitVec 3) : State :=
  if s.mgmt.dbg.go then s else s.debugRun { s.mgmt.dbg with op := op }
/-- A waiting command is tried again, or the host starts one. -/
def State.debugWait (s : State) (op : BitVec 3) : State :=
  if s.mgmt.dbg.go && s.mgmt.dbg.op == op then s.debugRun s.mgmt.dbg else s.debugGo op

def execDebugHalt (s : State) : Out := .next (s.debugGo 1)
def execDebugRelease (s : State) : Out := .next (s.debugGo 2)
def execDebugRead (s : State) : Out := .next (s.debugGo 3)
def execDebugWrite (s : State) : Out := .next (s.debugGo 4)
def execDebugReadWhenFull (s : State) : Out := .next (s.debugWait 5)
def execDebugWriteWhenFull (s : State) : Out := .next (s.debugWait 6)
/-- DEBUG_TIMEOUT (R411, R475): the register has not become full for 1 s. -/
def execDebugTimeout (s : State) : Out :=
  let d := s.mgmt.dbg
  .next (if d.go && decide (d.since + cyclesPerSecond ≤ s.cycle) then s.debugEnd d 2 else s)

/-! ### Registers (R340, R409 to R412, R419) -/

/-- A key slot's log ring set to granules: the indices and the chain begin anew; a ring whose granules the context does not wholly own is
refused (R419). -/
def State.setRing (s : State) (kslot gr n : Nat) : State :=
  let k := s.key kslot
  let ok := match k.ctx with
    | some c => s.ownsGranules c gr n
    | none => false
  s.putKey kslot { k with log := { LogRing.empty with gr := gr, n := if ok then n else 0 } }
/-- LOG_RING_CONFIGURE (R419). -/
def execLogRingConfigure (kslot : Nat) (loggr logn : BitVec 24) (s : State) : Out :=
  if 64 ≤ kslot then .fault .noSuchPart else .next (s.setRing kslot loggr.toNat logn.toNat)
/-- A number with byte i replaced. -/
def patch (v i : Nat) (b : Byte) : Nat := v - bitsOf v (8 * i) 8 * 256 ^ i + b.toNat * 256 ^ i
/-- The readable fields of a monitor as a number, and back (R419). Nonzero values written to its RW fields named Zero are dropped and read 0, as those of
the log ring are (DESIGN CHOICE, log 91: R8 gives them no fate). -/
def Monitor.bits (m : Monitor) : Nat := packNat [(57, m.mbase), (7, 0), (57, m.mlast), (7, 0), (6, m.kinds.toNat)]
def Monitor.ofBits (v : Nat) : Monitor := { mbase := bitsOf v 0 57, mlast := bitsOf v 64 57, kinds := BitVec.ofNat 6 (bitsOf v 128 6) }
/-- The written fields of the debug block as a number, and back (R411). -/
def Debug.bits (d : Debug) : Nat :=
  packNat [(16, d.ctx.toNat), (3, d.op.toNat), (13, 0), (32, d.fid.toNat), (64, d.frame.toNat), (11, d.reg.toNat), (53, 0), (32, d.value.toNat)]
def Debug.withBits (d : Debug) (v : Nat) : Debug :=
  { d with
    ctx := BitVec.ofNat 16 (bitsOf v 0 16), op := BitVec.ofNat 3 (bitsOf v 16 3), fid := BitVec.ofNat 32 (bitsOf v 32 32),
    frame := BitVec.ofNat 64 (bitsOf v 64 64), reg := BitVec.ofNat 11 (bitsOf v 128 11), value := BitVec.ofNat 32 (bitsOf v 192 32) }
/-- A byte written to BAR 0 (R410): read-only fields and other offsets ignore it; what W1S bits and a ring's fields start comes after the
whole write (`execRegisterWrite`). -/
def State.writeBar0 (s : State) (off : Nat) (b : Byte) : State :=
  let m := s.mgmt
  if off < 0x40 then
    if m.create || m.destroy then s else { s with mgmt := { m with desc := Tab.set m.desc off b } }
  else if 0x42 ≤ off ∧ off < 0x44 then { s with mgmt := { m with dctx := patch m.dctx (off - 0x42) b } }
  else if 0x46 ≤ off ∧ off < 0x48 then { s with mgmt := { m with rpiece := patch m.rpiece (off - 0x46) b } }
  else if 0x10000 ≤ off ∧ off < 0x20000 then
    let i := (off - 0x10000) / 0x400
    let r := off % 0x400
    let k := s.key i
    if r < 0x200 then
      let old := ((Tab.get k.monitors (r / 32)).map Monitor.bits).getD 0
      s.putKey i { k with monitors := Tab.set k.monitors (r / 32) (Monitor.ofBits (patch old (r % 32) b)) }
    else if 0x200 ≤ r ∧ r < 0x203 then s.putKey i { k with log := { k.log with gr := patch k.log.gr (r - 0x200) b } }
    else if 0x204 ≤ r ∧ r < 0x207 then s.putKey i { k with log := { k.log with n := patch k.log.n (r - 0x204) b } }
    else if 0x210 ≤ r ∧ r < 0x218 then s.putKey i { k with log := { k.log with ridx := patch k.log.ridx (r - 0x210) b } }
    else s
  else if 0x20000 ≤ off ∧ off < 0x20020 then
    if m.dbg.go then s else { s with mgmt := { m with dbg := m.dbg.withBits (patch m.dbg.bits (off - 0x20000) b) } }
  else s
/-- Bytes written one after another. -/
def writeBytes (f : State → Nat → Byte → State) (s : State) (off : Nat) : List Byte → State
  | [] => s
  | b :: r => writeBytes f (f s off b) (off + 1) r
/-- Whether a write of bytes at an offset writes a 1 to bit n of the byte at an address. -/
def writesOne (off : Nat) (data : List Byte) (a n : Nat) : Bool := decide (off ≤ a) && (match data[a - off]? with
  | some b => b.getLsbD n
  | none => false)
/-- What an event of the host does to the state, when it has a next one. -/
def State.andDo (s : State) (act : State → Out) : State := match act s with
  | .next t => t
  | _ => s
/-- A byte written to BAR 2: a queue context's descriptor, or the W1S bits CREATE and DESTROY of a control word (R8, R340). -/
def State.writeBar2 (s : State) (off : Nat) (b : Byte) : State :=
  if off < 0x10000 then s.putQreg (off / 256) { s.qreg (off / 256) with desc := Tab.set (s.qreg (off / 256)).desc (off % 256) b }
  else if off < 0x10800 ∧ off % 8 = 0 then
    let q := (off - 0x10000) / 8
    let s := if b.getLsbD 0 then s.andDo (execQueueCreate q false) else s
    if b.getLsbD 1 then s.andDo (execQueueDestroy q) else s
  else s
/-- What a write to BAR 0 starts once its bytes are written (R8): the creation or destroy of a context (R410), a ring set anew (R419), the command of the
debug block whose GO it sets (R411). -/
def State.startBar0 (s : State) (off : Nat) (data : List Byte) (dbgBusy : Bool) : State :=
  let meets (a n : Nat) : Bool := decide (off < a + n) && decide (a < off + data.length)
  let s := if writesOne off data 0x40 0 then s.andDo execContextCreate else s
  let s := if writesOne off data 0x40 1 then s.andDo execContextDestroy else s
  let s := (List.range 64).foldl (fun (s : State) i => if meets (0x10200 + 0x400 * i) 3 || meets (0x10204 + 0x400 * i) 3 then
      s.setRing i (s.key i).log.gr (s.key i).log.n else s) s
  if writesOne off data 0x20002 3 && !dbgBusy then s.debugRun s.mgmt.dbg else s
/-- REGISTER_WRITE (R8, R410, R340): a write of the host to registers of BAR 0 or BAR 2. -/
def execRegisterWrite (bar off : Nat) (data : List Byte) (s : State) : Out :=
  if bar = 0 then .next ((writeBytes State.writeBar0 s off data).startBar0 off data s.mgmt.dbg.go)
  else if bar = 2 then .next (writeBytes State.writeBar2 s off data)
  else .next s

/-! ### Attestation and keys (R414, R415) -/

/-- The bytes of a report that its signature covers (R414): the nonce, the serial number, the measurement, the security version, the public key. -/
def Report.body (r : Report) : List Byte :=
  keyBytes r.nonce ++ beBytes 8 r.serial.toNat ++ keyBytes r.measurement ++ beBytes 4 r.secVer ++ r.pubKey
/-- The report on a nonce (R414): with a fresh key pair's public key, signed by the identity key with the one-time key that is next (R415). -/
def State.reportOn (s : State) (nonce : BitVec 256) : Report :=
  let r : Report := { nonce := nonce, serial := Config.serialNumber, measurement := s.mgmt.measurement, secVer := s.mgmt.secVer,
                      pubKey := ecPublic (Config.deviceKey s.mgmt.reports), signature := [] }
  { r with signature := Config.signature s.mgmt.keyIndex r.body }
/-- ATTESTATION_REPORT_REQUEST: the report takes a one-time key and begins an exchange; with none left it is refused (R415). -/
def execAttestationReportRequest (nonce : BitVec 256) (s : State) : Out :=
  if 2 ^ 40 ≤ s.mgmt.keyIndex ∨ !s.serves then .next s
  else .next (State.useKey { s with mgmt := { s.mgmt with nonce := some nonce, kek := none, report := some (s.reportOn nonce), reports := s.mgmt.reports + 1 } })
/-- HOST_PUBLIC_KEY: both sides derive the key-encryption key from the secret that the host's key and the last report's share; a key that is no
point of the curve gives none. -/
def execHostPublicKey (key : List Byte) (s : State) : Out :=
  match s.mgmt.nonce with
  | some n => .next { s with mgmt := { s.mgmt with kek := (ecShared (Config.deviceKey (s.mgmt.reports - 1)) key).map (fun z => deriveKek z n) } }
  | none => .next s
/-- A key slot with the keys that an import gives it, or empty (R414). -/
def KeySlot.withKeys (k : KeySlot) : Option (List Byte) → KeySlot
  | some b => { k with imported := true, k1 := keyOf (b.take 32), k2 := keyOf ((b.drop 32).take 32), km := keyOf (b.drop 64) }
  | none => k.erased
/-- WRAPPED_KEY_IMPORT: an unwrap that fails leaves the slot empty; the ephemeral key is erased after one import. A slot that a context
holds takes no key (log 13). -/
def execWrappedKeyImport (kslot : Nat) (wrapped : List Byte) (s : State) : Out :=
  if 64 ≤ kslot then .fault .noSuchPart
  else match s.mgmt.kek with
    | none => .next s
    | some k =>
      let s := { s with mgmt := { s.mgmt with nonce := none, kek := none } }
      if (s.key kslot).ctx.isSome then .next s else .next (s.putKey kslot ((s.key kslot).withKeys (unwrapKeys k wrapped)))

/-! ### Firmware and module reset (R17, R420, R494, R498) -/

/-- Whether the management controller takes an image (R420). -/
def State.imageOk (s : State) (f : Firmware) : Bool := f.sigOk && decide (s.mgmt.fuseVer ≤ f.secVer)
/-- The device after module reset: what survives is service state, retirements now in effect, non-volatile registers and the firmware,
and what is no part of the device (R415, R494, R496, log 13). -/
def State.afterReset (s : State) : State :=
  {
    State.reset with
    agenda := s.agenda
    ticks := s.ticks
    seeds := s.seeds
    accesses := s.accesses
    nextKey := s.nextKey
    host := s.host
    hostUp := s.hostUp
    hostCache := s.hostCache
    hostAtomics := s.hostAtomics
    mgmt := {
      Mgmt.reset with
      replace := s.mgmt.replace
      rcause := s.mgmt.rcause
      retcl := s.mgmt.retcl ++ s.mgmt.pendcl
      retcores := s.mgmt.retcores
      retpch := s.mgmt.retpch
      retslices := s.mgmt.retslices ++ s.mgmt.pendslices
      reports := s.mgmt.reports
      keyIndex := s.mgmt.keyIndex
      recovery := s.mgmt.recovery
      booted := s.mgmt.booted
      secVer := s.mgmt.secVer
      fuseVer := s.mgmt.fuseVer
      measurement := s.mgmt.measurement
      ckptGrans := s.mgmt.ckptGrans
      ckptSlots := s.mgmt.ckptSlots } }
/-- FIRMWARE_BOOT (R420): the image is verified, or the device runs no context and offers only recovery. -/
def execFirmwareBoot (image : Firmware) (s : State) : Out :=
  if s.imageOk image then
    .next { s with mgmt := { s.mgmt with booted := true, recovery := false, secVer := image.secVer, measurement := image.measurement } }
  else .next (State.afterReset { s with mgmt := { s.mgmt with booted := false, recovery := true } })
/-- MODULE_RESET (R17, R494). -/
def execModuleReset (s : State) : Out := .next s.afterReset
/-- FIRMWARE_RECOVERY_IMAGE (R420, R498): in recovery, an image that verifies is taken and the device resets; another leaves RECOVERY set. -/
def execFirmwareRecoveryImage (image : Firmware) (s : State) : Out :=
  if s.mgmt.recovery && s.imageOk image then
    .next (State.afterReset { s with mgmt := { s.mgmt with recovery := false, booted := true, secVer := image.secVer, measurement := image.measurement } })
  else .next s

/-! ### Checkpoints (R497) -/

/-- CHECKPOINT: every context is to be stopped at its trailers, with its queues held. -/
def execCheckpoint (s : State) : Out :=
  if s.mgmt.ckpt then .next s
  else .next {
    s with
    stops := s.stops ++ s.ctxs.map (fun c => (c.1, 6))
    mgmt := { s.mgmt with ckpt := true, ckptGrans := [], ckptSlots := [] } }
/-- A granule of the copy written back: its lines hold what their owner's keys decipher, an integrity mismatch where a tag does not hold, errors and
poison among them; or all are poisoned when its CMAC fails, as it does under other keys (R413, R454, R497). -/
def State.restoreGranule (s : State) (g : SavedGranule) : State :=
  let base := 65536 * g.gran
  let k := s.granKey g.gran
  let ls := (g.lines.take 512).zipIdx
  let s := { s with dev := s.dev.filter (fun c => c.1 / 65536 != g.gran) }
  let s := ls.foldl (fun (s : State) x =>
    { s with dev := cellsWrite s.dev (base + 128 * x.2) (xtsDecrypt k.k1 k.k2 ((base + 128 * x.2) / 128 % 2 ^ 45) x.1.1) }) s
  let keys := (s.lines.map Prod.fst).filter (fun k => (lineBase k).sp == .dev && (lineBase k).a / 65536 == g.gran)
  let s := keys.foldl (fun (s : State) k => s.putLine k { s.lineOf k with
    copies := [], excl := none, hostCopy := none, upd := none, lostPart := 0, hidden := 0, errCore := 0x1FF, poison := false, sectors := 0 }) s
  let mark (s : State) (i kind : Nat) : State :=
    let k := PA.line ⟨.dev, base + 128 * i⟩
    s.putLine k (if kind = 0 then { s.lineOf k with poison := true, sectors := 0 } else { s.lineOf k with hidden := kind })
  if g.cmac = granCmac k.km g.lines then
    let broken := (ls.filter (fun x => x.1.2 != lineTag k.km (base + 128 * x.2) x.1.1)).map (fun x => (x.2, 2))
    (broken ++ g.marks.filter (fun m => decide (m.1 < 512))).foldl (fun (s : State) m => mark s m.1 m.2) s
  else (List.range 512).foldl (fun (s : State) i => mark s i 0) s
/-- CHECKPOINT_RESTORE: accepted only with the copy's granule table, and with every owner's key in its former slot. -/
def execCheckpointRestore (granules : List SavedGranule) (s : State) : Out :=
  if s.mgmt.ckpt || s.mgmt.ckptGrans.isEmpty || s.mgmt.ckptGrans != s.mgmt.grans || !s.mgmt.ckptSlots.all (fun x => (s.key x.2).imported) then .next s
  else .next ((granules.filter (fun g => (s.granOwner g.gran).isSome)).foldl State.restoreGranule s)

end Sys2Proof.Machine
end

