-- ==== Sys2Proof/Machine/Errors.lean ====
section
/-! DEFINITION. Hardware errors (R436, R453 to R457, R492 to R496): what each is counted, logged and contained as. -/

namespace Sys2Proof.Machine

/-- Core cycles in an hour and in a day (R494, R496). -/
def cyclesPerHour : Nat := 3600 * cyclesPerSecond
def cyclesPerDay : Nat := 24 * cyclesPerHour
/-- Contexts to be stopped with a class (R492). -/
def State.stopAll (s : State) (cls : Nat) (l : List Nat) : State := { s with stops := s.stops ++ l.map (fun c => (c, cls)) }
/-- A corrected error is counted; more than 1,000 in HBM within one hour set REPLACE (R453, R496). -/
def State.countCorrected (s : State) (hbm : Bool) : State :=
  let m := s.mgmt
  let times := if hbm then (s.cycle :: m.hbmCorr).take 1001 else m.hbmCorr
  let s := { s with mgmt := { m with corr := min (m.corr + 1) (2 ^ 24 - 1), hbmCorr := times } }
  if hbm && times.length == 1001 && decide (s.cycle < times.getLastD 0 + cyclesPerHour) then s.needService 2 else s
/-- Whether a byte of core SRAM lies in a bank of a core, whatever the context. -/
def inBank (core bank a : Nat) : Bool := a / 2 ^ 21 % 384 == core && a % 2 ^ 21 / 65536 == bank
/-- Whether a unit holds contents: a bank (KIND 6), an operand slot or an accumulator tile (KIND 7, tile i as 16 + i). What an error lost is cleared,
so contents found have been written since. -/
def State.unitHolds (s : State) (kind core i : Nat) : Bool :=
  if kind = 6 then s.sram.any (fun x => inBank core i x.1)
  else s.coreCtx.any (fun x => x.1 % 384 == core && (if i < 16 then !(x.2.slot i).data.isEmpty else !(x.2.tile (i - 16)).data.isEmpty))
/-- The contents of such a unit are lost for the context whose turn it is: undefined from then on. -/
def State.loseUnit (s : State) (kind core i ctx : Nat) : State :=
  let (seed, s) := s.newSeed
  let c := s.cc ctx core
  if kind = 6 then
    { s.putCC ctx core { c with seeds := Tab.set c.seeds i seed } with
      sram := s.sram.filter (fun x => !(inBank core i x.1 && x.1 / 2 ^ 21 / 384 == ctx)) }
  else if i < 16 then s.putCC ctx core { c with slots := Tab.set c.slots i { c.slot i with data := [], seed := seed } }
  else s.putCC ctx core { c with tiles := Tab.set c.tiles (i - 16) { c.tile (i - 16) with data := [], seed := seed } }
/-- An error of an on-die unit: its contents are lost, it is logged and its context stopped, and a second one after the unit was written again retires
the core (R457, R494). `kind` is KIND of the record. -/
def State.storageError (s : State) (kind core i ctx : Nat) : State :=
  let again := s.mgmt.bankErrs.contains (kind, core, i) && s.unitHolds kind core i
  let s := ((s.logError kind 0 ctx 0 core).stopAll 1 [ctx]).loseUnit kind core i ctx
  if again then s.retireCore core
  else { s with mgmt := { s.mgmt with bankErrs := (kind, core, i) :: s.mgmt.bankErrs.filter (· != (kind, core, i)) } }
/-- A dirty first-level line, a partial or a clean copy of a core is lost (R457, R458). The home line of a dirty one is poisoned at once, with its
record, which no reader has found: FOUND 0 (log 87). A clean one only misses. -/
def State.lineError (s : State) (pa core : Nat) : State :=
  let lk := PA.line ⟨.dev, pa⟩
  let l := s.lineOf lk
  let mine := (match l.upd with
    | some (_, ps) => ps.filter (fun (p : Partial) => p.core == core)
    | none => [])
  if !mine.isEmpty then s.putLine lk { l with lostPart := if mine.any Partial.inSlot then 8 else 4, errCore := core }
  else if l.excl = some core then
    let bad := { l with hidden := 0, errCore := 0x1FF, poison := true, sectors := 0, excl := none, copies := l.copies.filter (fun c => c.core != core) }
    (s.putLine lk bad).logError 4 0 (s.ownerOf (lineBase lk)) (lineBase lk).a core
  else if l.copies.any (fun c => c.core == core) then
    (s.putLine lk { l with copies := l.copies.filter (fun c => c.core != core) }).countCorrected false
  else s
/-- Two errors of class Unit within 24 hours retire the core (R494). -/
def State.unitError (s : State) (core : Nat) : State :=
  let s := s.stopAll 2 (((s.crews.filter (fun c => c.2.core == core && !c.2.aside)).map (fun c => c.2.ctx)).eraseDups)
  let last := Tab.get s.mgmt.unitErrs core
  let s := { s with mgmt := { s.mgmt with unitErrs := Tab.set s.mgmt.unitErrs core s.cycle } }
  match last with
  | some t => if s.cycle < t + cyclesPerDay then s.retireCore core else s
  | none => s
/-- The granule table without a range of granules. -/
def dropGranules (first count : Nat) (l : List (Nat × Nat × Nat)) : List (Nat × Nat × Nat) :=
  l.flatMap (fun r =>
    let lo := (r.1, min r.2.1 (first - r.1), r.2.2)
    let from_ := max r.1 (first + count)
    let hi := (from_, r.1 + r.2.1 - from_, r.2.2)
    if r.1 + r.2.1 ≤ first ∨ first + count ≤ r.1 then [r]
    else (if r.1 < first then [lo] else []) ++ (if from_ < r.1 + r.2.1 then [hi] else []))

/-- HARDWARE_ERROR (R492). -/
def execHardwareError (err : HwError) (s : State) : Out :=
  match err with
  | .corrected hbm => .next (s.countCorrected hbm)
  | .memLine pa tag =>
    let lk := PA.line ⟨.dev, pa⟩
    .next (if pa < 65536 * 9437184 then s.putLine lk { s.lineOf lk with hidden := if tag then 2 else 1, errCore := 0x1FF } else s)
  | .secondLevel pa =>
    let lk := PA.line ⟨.dev, pa⟩
    .next (if pa < 65536 * 9437184 then s.putLine lk { s.lineOf lk with hidden := 3, errCore := 0x1FF } else s)
  | .partialLine pa core => if 384 ≤ core then .fault .noSuchPart else .next (s.lineError pa core)
  | .regCache fibre => (match s.fibre fibre with
    | some f => .next ((s.logError 5 0 f.ctx 0 f.core).stopAll 1 [f.ctx])
    | none => .next s)
  | .bank core bank =>
    if 384 ≤ core ∨ 32 ≤ bank then .fault .noSuchPart
    else match s.turnOf (clusterOf core) with
      | some ctx => .next (if (s.cc ctx core).role bank = 0 then s.countCorrected false else s.storageError 6 core bank ctx)
      | none => .next s
  | .slot core i =>
    if 384 ≤ core ∨ 16 ≤ i then .fault .noSuchPart
    else match s.turnOf (clusterOf core) with
      | some ctx => .next (if ((s.cc ctx core).slot i).owner.isSome then s.storageError 7 core i ctx else s)
      | none => .next s
  | .tile core i =>
    if 384 ≤ core ∨ 8 ≤ i then .fault .noSuchPart
    else match s.turnOf (clusterOf core) with
      | some ctx => .next (if ((s.cc ctx core).tile i).owner.isSome then s.storageError 7 core (16 + i) ctx else s)
      | none => .next s
  | .unit core => if 384 ≤ core then .fault .noSuchPart else .next (s.unitError core)
  | .shared cl =>
    if 8 ≤ cl then .fault .noSuchPart
    else .next ((s.stopAll 3 ((s.ctxs.filter (fun c => c.2.d.clusters.contains cl)).map Prod.fst)).retireCluster cl)
  | .homeSlice i =>
    if 384 ≤ i then .fault .noSuchPart
    else
      let s := s.stopAll 3 (s.ctxs.map Prod.fst)
      .next (State.needService { s with mgmt := { s.mgmt with pendslices := i :: s.mgmt.pendslices.filter (· != i) } } 0)
  | .hbm pch first count =>
    let own := (s.mgmt.grans.filter (fun r => decide (r.1 < first + count) && decide (first < r.1 + r.2.1))).map (fun r => r.2.2)
    let s := s.stopAll 1 own.eraseDups
    .next (State.needService { s with mgmt := { s.mgmt with grans := dropGranules first count s.mgmt.grans, retpch := pch :: s.mgmt.retpch.filter (· != pch) } } 0)
  | .save ctx => .next (s.lose ctx 8)
  | .restore ctx => .next (s.lose ctx 7)
  | .scrub core kind =>
    if 384 ≤ core then .fault .noSuchPart
    else if s.mgmt.scrubbing.isEmpty then .next s
    else .next (State.logError { s with mgmt := { s.mgmt with scrubFails := core :: s.mgmt.scrubFails } } kind 7 0 0 core)
/-- THERMAL_TRIP (R421, R492): every context is stopped, CTXID 0 too. -/
def execThermalTrip (s : State) : Out := .next (s.stopAll 4 (s.ctxs.map Prod.fst))

end Sys2Proof.Machine
end

