-- ==== Sys2Proof/Machine/Dispatch.lean ====
section
/-! DEFINITION. One arm per constructor of `Instr`: a direct call of its meaning, or its rejection by name. -/

namespace Sys2Proof.Machine

def exec (i : Instr) (s : State) : Host.Outcome State Fault Refusal :=
  match i with
  | .iadd o => Sys2Proof.Machine.execIadd o s
  | .isub o => Sys2Proof.Machine.execIsub o s
  | .imul o => Sys2Proof.Machine.execImul o s
  | .imulh o => Sys2Proof.Machine.execImulh o s
  | .imad o => Sys2Proof.Machine.execImad o s
  | .imad64 o => Sys2Proof.Machine.execImad64 o s
  | .iadd64 o => Sys2Proof.Machine.execIadd64 o s
  | .lea o => Sys2Proof.Machine.execLea o s
  | .ineg o => Sys2Proof.Machine.execIneg o s
  | .iabs o => Sys2Proof.Machine.execIabs o s
  | .imin o => Sys2Proof.Machine.execImin o s
  | .imax o => Sys2Proof.Machine.execImax o s
  | .andb o => Sys2Proof.Machine.execAndb o s
  | .orb o => Sys2Proof.Machine.execOrb o s
  | .xorb o => Sys2Proof.Machine.execXorb o s
  | .andn o => Sys2Proof.Machine.execAndn o s
  | .notb o => Sys2Proof.Machine.execNotb o s
  | .shl o => Sys2Proof.Machine.execShl o s
  | .shr o => Sys2Proof.Machine.execShr o s
  | .sar o => Sys2Proof.Machine.execSar o s
  | .funshf o => Sys2Proof.Machine.execFunshf o s
  | .bfe o => Sys2Proof.Machine.execBfe o s
  | .bfi o => Sys2Proof.Machine.execBfi o s
  | .popc o => Sys2Proof.Machine.execPopc o s
  | .clz o => Sys2Proof.Machine.execClz o s
  | .brev o => Sys2Proof.Machine.execBrev o s
  | .isetp o => Sys2Proof.Machine.execIsetp o s
  | .isel o => Sys2Proof.Machine.execIsel o s
  | .mov o => Sys2Proof.Machine.execMov o s
  | .movi o => Sys2Proof.Machine.execMovi o s
  | .movs o => Sys2Proof.Machine.execMovs o s
  | .idivq o => Sys2Proof.Machine.execIdivq o s
  | .fadd o => Sys2Proof.Machine.execFadd o s
  | .fsub o => Sys2Proof.Machine.execFsub o s
  | .fmul o => Sys2Proof.Machine.execFmul o s
  | .ffma o => Sys2Proof.Machine.execFfma o s
  | .fmin o => Sys2Proof.Machine.execFmin o s
  | .fmax o => Sys2Proof.Machine.execFmax o s
  | .fminnum o => Sys2Proof.Machine.execFminnum o s
  | .fmaxnum o => Sys2Proof.Machine.execFmaxnum o s
  | .fsetp o => Sys2Proof.Machine.execFsetp o s
  | .fclass o => Sys2Proof.Machine.execFclass o s
  | .frnd o => Sys2Proof.Machine.execFrnd o s
  | .fscale o => Sys2Proof.Machine.execFscale o s
  | .fcpysgn o => Sys2Proof.Machine.execFcpysgn o s
  | .dadd o => Sys2Proof.Machine.execDadd o s
  | .dmul o => Sys2Proof.Machine.execDmul o s
  | .dfma o => Sys2Proof.Machine.execDfma o s
  | .dsetp o => Sys2Proof.Machine.execDsetp o s
  | .hadd2 o => Sys2Proof.Machine.execHadd2 o s
  | .hmul2 o => Sys2Proof.Machine.execHmul2 o s
  | .hfma2 o => Sys2Proof.Machine.execHfma2 o s
  | .badd2 o => Sys2Proof.Machine.execBadd2 o s
  | .bmul2 o => Sys2Proof.Machine.execBmul2 o s
  | .bfma2 o => Sys2Proof.Machine.execBfma2 o s
  | .fstatw o => Sys2Proof.Machine.execFstatw o s
  | .rcp o => Sys2Proof.Machine.execRcp o s
  | .rsq o => Sys2Proof.Machine.execRsq o s
  | .sqrt o => Sys2Proof.Machine.execSqrt o s
  | .ex2 o => Sys2Proof.Machine.execEx2 o s
  | .lg2 o => Sys2Proof.Machine.execLg2 o s
  | .tanh o => Sys2Proof.Machine.execTanh o s
  | .sinpi o => Sys2Proof.Machine.execSinpi o s
  | .cospi o => Sys2Proof.Machine.execCospi o s
  | .ftoi o => Sys2Proof.Machine.execFtoi o s
  | .itof o => Sys2Proof.Machine.execItof o s
  | .fcvt o => Sys2Proof.Machine.execFcvt o s
  | .shfl o => Sys2Proof.Machine.execShfl o s
  | .qswap o => Sys2Proof.Machine.execQswap o s
  | .qbcast o => Sys2Proof.Machine.execQbcast o s
  | .vote o => Sys2Proof.Machine.execVote o s
  | .redux o => Sys2Proof.Machine.execRedux o s
  | .fredux o => Sys2Proof.Machine.execFredux o s
  | .matchl o => Sys2Proof.Machine.execMatchl o s
  | .cfence o => Sys2Proof.Machine.execCfence o s
  | .join o => Sys2Proof.Machine.execJoin o s
  | .leave o => Sys2Proof.Machine.execLeave o s
  | .waitm o => Sys2Proof.Machine.execWaitm o s
  | .mand o => Sys2Proof.Machine.execMand o s
  | .mor o => Sys2Proof.Machine.execMor o s
  | .mxor o => Sys2Proof.Machine.execMxor o s
  | .mnot o => Sys2Proof.Machine.execMnot o s
  | .mrd o => Sys2Proof.Machine.execMrd o s
  | .mwr o => Sys2Proof.Machine.execMwr o s
  | .mact o => Sys2Proof.Machine.execMact o s
  | .bra o => Sys2Proof.Machine.execBra o s
  | .brc o => Sys2Proof.Machine.execBrc o s
  | .brx o => Sys2Proof.Machine.execBrx o s
  | .call o => Sys2Proof.Machine.execCall o s
  | .callx o => Sys2Proof.Machine.execCallx o s
  | .ret o => Sys2Proof.Machine.execRet o s
  | .stop o => Sys2Proof.Machine.execStop o s
  | .nop o => Sys2Proof.Machine.execNop o s
  | .exit o => Sys2Proof.Machine.execExit o s
  | .hinst o => Sys2Proof.Machine.execHinst o s
  | .hrem o => Sys2Proof.Machine.execHrem o s
  | .perform o => Sys2Proof.Machine.execPerform o s
  | .resume o => Sys2Proof.Machine.execResume o s
  | .drop o => Sys2Proof.Machine.execDrop o s
  | .cstat o => Sys2Proof.Machine.execCstat o s
  | .spawn o => Sys2Proof.Machine.execSpawn o s
  | .fget o => Sys2Proof.Machine.execFget o s
  | .fpark o => Sys2Proof.Machine.execFpark o s
  | .fref o => Sys2Proof.Machine.execFref o s
  | .funref o => Sys2Proof.Machine.execFunref o s
  | .fxfer o => Sys2Proof.Machine.execFxfer o s
  | .fpin o => Sys2Proof.Machine.execFpin o s
  | .funpin o => Sys2Proof.Machine.execFunpin o s
  | .fcancel o => Sys2Proof.Machine.execFcancel o s
  | .ld o => Sys2Proof.Machine.execLd o s
  | .st o => Sys2Proof.Machine.execSt o s
  | .ldFrame o => Sys2Proof.Machine.execLdFrame o s
  | .stFrame o => Sys2Proof.Machine.execStFrame o s
  | .ldc o => Sys2Proof.Machine.execLdc o s
  | .atom o => Sys2Proof.Machine.execAtom o s
  | .atom64 o => Sys2Proof.Machine.execAtom64 o s
  | .cas2 o => Sys2Proof.Machine.execCas2 o s
  | .red o => Sys2Proof.Machine.execRed o s
  | .fenceSys o => Sys2Proof.Machine.execFenceSys o s
  | .fifow o => Sys2Proof.Machine.execFifow o s
  | .fifor o => Sys2Proof.Machine.execFifor o s
  | .bankcfg o => Sys2Proof.Machine.execBankcfg o s
  | .wptr o => Sys2Proof.Machine.execWptr o s
  | .wpwait o => Sys2Proof.Machine.execWpwait o s
  | .barinit o => Sys2Proof.Machine.execBarinit o s
  | .bara o => Sys2Proof.Machine.execBara o s
  | .barw o => Sys2Proof.Machine.execBarw o s
  | .baraw o => Sys2Proof.Machine.execBaraw o s
  | .rwait o => Sys2Proof.Machine.execRwait o s
  | .rpost o => Sys2Proof.Machine.execRpost o s
  | .push o => Sys2Proof.Machine.execPush o s
  | .timew o => Sys2Proof.Machine.execTimew o s
  | .srdcnt o => Sys2Proof.Machine.execSrdcnt o s
  | .movsw o => Sys2Proof.Machine.execMovsw o s
  | .scrubq o => Sys2Proof.Machine.execScrubq o s
  | .atomx o => Sys2Proof.Machine.execAtomx o s
  | .xclaim slots tiles => Sys2Proof.Machine.execXclaim slots tiles s
  | .xrel slots tiles => Sys2Proof.Machine.execXrel slots tiles s
  | .xload fmt cols slot ga off gb => Sys2Proof.Machine.execXload fmt cols slot ga off gb s
  | .xmma tile sa sb => Sys2Proof.Machine.execXmma tile sa sb s
  | .xmmaz tile sa sb => Sys2Proof.Machine.execXmmaz tile sa sb s
  | .xdrain fmt rnd sat tile ga off gb => Sys2Proof.Machine.execXdrain fmt rnd sat tile ga off gb s
  | .xdraina fmt part slot tile => Sys2Proof.Machine.execXdraina fmt part slot tile s
  | .xsub fmt st base count window => Sys2Proof.Machine.execXsub fmt st base count window s
  | .xunsub st => Sys2Proof.Machine.execXunsub st s
  | .xbara bar => Sys2Proof.Machine.execXbara bar s
  | .xbarw bar => Sys2Proof.Machine.execXbarw bar s
  | .xloop ctr tslot off => Sys2Proof.Machine.execXloop ctr tslot off s
  | .xjmp tslot off => Sys2Proof.Machine.execXjmp tslot off s
  | .xset d a imm => Sys2Proof.Machine.execXset d a imm s
  | .xaddg d ga b imm => Sys2Proof.Machine.execXaddg d ga b imm s
  | .xstop => Sys2Proof.Machine.execXstop s
  | .xnop => Sys2Proof.Machine.execXnop s
  | .xwaits st => Sys2Proof.Machine.execXwaits st s
  | .dyzilLdp a w => Sys2Proof.Machine.execDyzilLdp a w s
  | .dyzilLds a w => Sys2Proof.Machine.execDyzilLds a w s
  | .dyzilSts w b => Sys2Proof.Machine.execDyzilSts w b s
  | .dyzilLdq a f => Sys2Proof.Machine.execDyzilLdq a f s
  | .dyzilMovi a x => Sys2Proof.Machine.execDyzilMovi a x s
  | .dyzilAdd a b => Sys2Proof.Machine.execDyzilAdd a b s
  | .dyzilAddi a x => Sys2Proof.Machine.execDyzilAddi a x s
  | .dyzilSub a b => Sys2Proof.Machine.execDyzilSub a b s
  | .dyzilAnd a b => Sys2Proof.Machine.execDyzilAnd a b s
  | .dyzilOr a b => Sys2Proof.Machine.execDyzilOr a b s
  | .dyzilShl a n => Sys2Proof.Machine.execDyzilShl a n s
  | .dyzilShr a n => Sys2Proof.Machine.execDyzilShr a n s
  | .dyzilExt a b pos len => Sys2Proof.Machine.execDyzilExt a b pos len s
  | .dyzilJmp k => Sys2Proof.Machine.execDyzilJmp k s
  | .dyzilBeq a b k => Sys2Proof.Machine.execDyzilBeq a b k s
  | .dyzilBne a b k => Sys2Proof.Machine.execDyzilBne a b k s
  | .dyzilBltu a b k => Sys2Proof.Machine.execDyzilBltu a b k s
  | .dyzilLoop c n => Sys2Proof.Machine.execDyzilLoop c n s
  | .dyzilLaunch a t => Sys2Proof.Machine.execDyzilLaunch a t s
  | .dyzilRec t => Sys2Proof.Machine.execDyzilRec t s
  | .dyzilSignal a b m => Sys2Proof.Machine.execDyzilSignal a b m s
  | .dyzilWaitv a b cc => Sys2Proof.Machine.execDyzilWaitv a b cc s
  | .dyzilCancel a => Sys2Proof.Machine.execDyzilCancel a s
  | .dyzilErr code => Sys2Proof.Machine.execDyzilErr code s
  | .dyzilDone => Sys2Proof.Machine.execDyzilDone s
  | .dyzilBudget q => Sys2Proof.Machine.execDyzilBudget q s
  | .packetStart q => Sys2Proof.Machine.execPacketStart q s
  | .monitorWake q => Sys2Proof.Machine.execMonitorWake q s
  | .deferredSignalWrite q => Sys2Proof.Machine.execDeferredSignalWrite q s
  | .queueCreate q mgmt => Sys2Proof.Machine.execQueueCreate q mgmt s
  | .queueDestroy q => Sys2Proof.Machine.execQueueDestroy q s
  | .taskSubmit cluster => Sys2Proof.Machine.execTaskSubmit cluster s
  | .gatherTimerLapse cluster entry ctx => Sys2Proof.Machine.execGatherTimerLapse cluster entry ctx s
  | .placeCrew cluster => Sys2Proof.Machine.execPlaceCrew cluster s
  | .placeTeam ctx => Sys2Proof.Machine.execPlaceTeam ctx s
  | .issueSelect core port => Sys2Proof.Machine.execIssueSelect core port s
  | .crewPromote crew => Sys2Proof.Machine.execCrewPromote crew s
  | .registerFill k => Sys2Proof.Machine.execRegisterFill k s
  | .timewExpire fibre => Sys2Proof.Machine.execTimewExpire fibre s
  | .fibreReclaim fibre => Sys2Proof.Machine.execFibreReclaim fibre s
  | .asyncFaultDelivery fibre => Sys2Proof.Machine.execAsyncFaultDelivery fibre s
  | .sequencerFaultDelivery core n => Sys2Proof.Machine.execSequencerFaultDelivery core n s
  | .copyLinear cluster ch => Sys2Proof.Machine.execCopyLinear cluster ch s
  | .copy2d cluster ch => Sys2Proof.Machine.execCopy2d cluster ch s
  | .copyGather cluster ch => Sys2Proof.Machine.execCopyGather cluster ch s
  | .copyScatter cluster ch => Sys2Proof.Machine.execCopyScatter cluster ch s
  | .copyFill cluster ch => Sys2Proof.Machine.execCopyFill cluster ch s
  | .tileStream cluster st => Sys2Proof.Machine.execTileStream cluster st s
  | .streamTileDeliver cluster st => Sys2Proof.Machine.execStreamTileDeliver cluster st s
  | .commandComplete cluster queue index answer => Sys2Proof.Machine.execCommandComplete cluster queue index answer s
  | .linkSend => Sys2Proof.Machine.execLinkSend s
  | .linkReceivePost => Sys2Proof.Machine.execLinkReceivePost s
  | .linkRemoteRed => Sys2Proof.Machine.execLinkRemoteRed s
  | .linkRemoteCall => Sys2Proof.Machine.execLinkRemoteCall s
  | .continuationTransfer answer => Sys2Proof.Machine.execContinuationTransfer answer s
  | .sendArrival src ctx key data ts => Sys2Proof.Machine.execSendArrival src ctx key data ts s
  | .remoteRedArrival src ctx op addr value ts => Sys2Proof.Machine.execRemoteRedArrival src ctx op addr value ts s
  | .remoteCallArrival src ctx cluster launch entry args ts => Sys2Proof.Machine.execRemoteCallArrival src ctx cluster launch entry args ts s
  | .transferCommitArrival id => Sys2Proof.Machine.execTransferCommitArrival id s
  | .transferFilingAck id => Sys2Proof.Machine.execTransferFilingAck id s
  | .transferCommitTimeout id => Sys2Proof.Machine.execTransferCommitTimeout id s
  | .peerAccessRequest src id ctx va acc ts hops => Sys2Proof.Machine.execPeerAccessRequest src id ctx va acc ts hops s
  | .peerAccessReply id reply ts => Sys2Proof.Machine.execPeerAccessReply id reply ts s
  | .ownershipHandover ctx va peer => Sys2Proof.Machine.execOwnershipHandover ctx va peer s
  | .handoverData src ctx va data poison => Sys2Proof.Machine.execHandoverData src ctx va data poison s
  | .handoverReceipt ctx va peer => Sys2Proof.Machine.execHandoverReceipt ctx va peer s
  | .handoverCommit ctx va => Sys2Proof.Machine.execHandoverCommit ctx va s
  | .handoverReceiptTimeout ctx va => Sys2Proof.Machine.execHandoverReceiptTimeout ctx va s
  | .handoverCommitTimeout ctx va => Sys2Proof.Machine.execHandoverCommitTimeout ctx va s
  | .destinationUnreachable dev => Sys2Proof.Machine.execDestinationUnreachable dev s
  | .linkPortDown port => Sys2Proof.Machine.execLinkPortDown port s
  | .ptpMessage offset => Sys2Proof.Machine.execPtpMessage offset s
  | .ptpUnlock => Sys2Proof.Machine.execPtpUnlock s
  | .ptpRelock => Sys2Proof.Machine.execPtpRelock s
  | .turnSwitch part => Sys2Proof.Machine.execTurnSwitch part s
  | .turnScheduleWrite part epoch turns => Sys2Proof.Machine.execTurnScheduleWrite part epoch turns s
  | .partitionLayoutWrite word => Sys2Proof.Machine.execPartitionLayoutWrite word s
  | .bankerRequest cluster => Sys2Proof.Machine.execBankerRequest cluster s
  | .homeMerge line => Sys2Proof.Machine.execHomeMerge line s
  | .hardwareError err => Sys2Proof.Machine.execHardwareError err s
  | .thermalTrip => Sys2Proof.Machine.execThermalTrip s
  | .hostCxlMemAccess pa acc => Sys2Proof.Machine.execHostCxlMemAccess pa acc s
  | .hostCxlIoWrite pa data => Sys2Proof.Machine.execHostCxlIoWrite pa data s
  | .pageMove ctx va => Sys2Proof.Machine.execPageMove ctx va s
  | .migrationCounterClear => Sys2Proof.Machine.execMigrationCounterClear s
  | .hostLinkDown => Sys2Proof.Machine.execHostLinkDown s
  | .hostLinkUp => Sys2Proof.Machine.execHostLinkUp s
  | .dirtyHoldExpire => Sys2Proof.Machine.execDirtyHoldExpire s
  | .contextCreate => Sys2Proof.Machine.execContextCreate s
  | .contextDestroy => Sys2Proof.Machine.execContextDestroy s
  | .debugHalt => Sys2Proof.Machine.execDebugHalt s
  | .debugRelease => Sys2Proof.Machine.execDebugRelease s
  | .debugRead => Sys2Proof.Machine.execDebugRead s
  | .debugWrite => Sys2Proof.Machine.execDebugWrite s
  | .debugReadWhenFull => Sys2Proof.Machine.execDebugReadWhenFull s
  | .debugWriteWhenFull => Sys2Proof.Machine.execDebugWriteWhenFull s
  | .debugTimeout => Sys2Proof.Machine.execDebugTimeout s
  | .logRingConfigure kslot loggr logn => Sys2Proof.Machine.execLogRingConfigure kslot loggr logn s
  | .registerWrite bar off data => Sys2Proof.Machine.execRegisterWrite bar off data s
  | .attestationReportRequest nonce => Sys2Proof.Machine.execAttestationReportRequest nonce s
  | .hostPublicKey key => Sys2Proof.Machine.execHostPublicKey key s
  | .wrappedKeyImport kslot wrapped => Sys2Proof.Machine.execWrappedKeyImport kslot wrapped s
  | .firmwareBoot image => Sys2Proof.Machine.execFirmwareBoot image s
  | .firmwareRecoveryImage image => Sys2Proof.Machine.execFirmwareRecoveryImage image s
  | .moduleReset => Sys2Proof.Machine.execModuleReset s
  | .checkpoint => Sys2Proof.Machine.execCheckpoint s
  | .checkpointRestore granules => Sys2Proof.Machine.execCheckpointRestore granules s
  | .xloadComplete core n => Sys2Proof.Machine.execXloadComplete core n s
  | .xdrainComplete core n => Sys2Proof.Machine.execXdrainComplete core n s
  | .xmmaComplete core n => Sys2Proof.Machine.execXmmaComplete core n s
  | .hostSnoop pa => Sys2Proof.Machine.execHostSnoop pa s
  | .routeReturn dev => Sys2Proof.Machine.execRouteReturn dev s
  | .xdrainaComplete core n => Sys2Proof.Machine.execXdrainaComplete core n s
  | .bankRoleChangeComplete core bank => Sys2Proof.Machine.execBankRoleChangeComplete core bank s
  | .zeroLengthReadComplete fibre => Sys2Proof.Machine.execZeroLengthReadComplete fibre s

end Sys2Proof.Machine
end

