-- ==== Sys2Proof/Machine/Turn.lean ====
section
/-! DEFINITION. Whose turn a step is, and what ends a step (log 6): the agents and happenings of the device that can act, the inputs from
outside, the time that a step takes. -/

namespace Sys2Proof.Machine

/-! ### What can act -/

/-- The event of the copy command at the head of a channel (R305). -/
def copyEvent (cl ch op : Nat) : List Act :=
  match op with
  | 0 => [.event (.copyLinear cl ch)]
  | 1 => [.event (.copy2d cl ch)]
  | 2 => [.event (.copyGather cl ch)]
  | 3 => [.event (.copyScatter cl ch)]
  | 4 => [.event (.copyFill cl ch)]
  | _ => []
/-- The event of the command at the head of the link queue (R306). -/
def linkEvent (op : Nat) : List Act :=
  match op with
  | 0 => [.event .linkSend]
  | 1 => [.event .linkReceivePost]
  | 2 => [.event .linkRemoteRed]
  | 3 => [.event .linkRemoteCall]
  | 4 => [.event (.continuationTransfer none)]
  | _ => []
/-- The completion of a sequencer's job (R314). -/
def jobEvent (core n : Nat) (j : SeqJob) : Act :=
  match j with
  | .xload _ => .event (.xloadComplete core n)
  | .xmma _ _ _ => .event (.xmmaComplete core n)
  | .xdrain _ => .event (.xdrainComplete core n)
  | .xdraina _ _ => .event (.xdrainaComplete core n)
/-- Ports: the sentences on them, the work a free port can take, the answers they wait for. -/
def State.portTurns (s : State) : List Act :=
  (s.ports.filter (fun p => match p.2.wait with
      | .fence _ => false
      | .role _ => !s.coreCtx.any (fun (x : Nat × CoreCtx) => x.1 % 384 == p.1 / 4 && x.2.changing.isSome)
      | _ => true)).map (fun p => Act.port (p.1 / 4) (p.1 % 4))
    ++ (((s.crews.map (fun c => c.2.core)).eraseDups).filter (fun c => (s.choose c).isSome)).flatMap (fun c =>
      match (List.range 4).find? (fun p => (s.port c p).isNone) with
      | some p => [Act.event (.issueSelect c p)]
      | none => [])
    ++ s.coreCtx.flatMap (fun (x : Nat × CoreCtx) => match x.2.changing with
      | some (b, _) => [Act.event (.bankRoleChangeComplete (x.1 % 384) b)]
      | none => [])
    ++ ((List.range s.jobs.length).filter (fun i => match s.jobs[i]? with
      | some j => s.jobMay j
      | none => false)).map Act.job
    ++ s.ports.flatMap (fun p => match p.2.wait with
      | .fence left => left.map (fun k => Act.event (.zeroLengthReadComplete k))
      | _ => [])
/-- Fibres and crews: fills, times, reclamation, forwarded faults, promotion. -/
def State.fibreTurns (s : State) : List Act :=
  ((List.range s.fills.length).filter (fun i => match s.fills[i]? with
      | some x => !x.vals.isEmpty
      | none => false)).map (fun i => Act.event (.registerFill i))
    ++ (s.fibres.map Prod.snd).flatMap (fun (f : Fibre) =>
      (if f.conds.any (fun c => match c with
          | .time t => decide (t ≤ s.time)
          | _ => false) then [Act.event (.timewExpire f.key)] else [])
      ++ (if s.pastTrailer f && ((f.helper && s.quadDone f) || s.dueReclaim f) then [Act.event (.fibreReclaim f.key)] else [])
      ++ (if s.blocked f && s.noFill f.key && !f.helper && (!f.asyncs.isEmpty || (s.brokenCond f).isSome || (s.copyWait f).isSome) then
          [Act.event (.asyncFaultDelivery f.key)] else []))
    ++ (s.crews.filter (fun c => !c.2.promoted && decide (c.2.readySince + 512 ≤ s.cycle) && !(s.readyGroups c.2).isEmpty)).map (fun c =>
      Act.event (.crewPromote c.1))
/-- Dealers, bankers, homes, placement. -/
def State.dealerTurns (s : State) : List Act :=
  (List.range 8).flatMap (fun cl =>
      let c := s.cluster cl
      (if c.waiting.isEmpty then [] else [Act.event (.taskSubmit cl)])
      ++ (c.bins.filter (fun b => decide (b.start + b.timer ≤ s.cycle))).map (fun b => Act.event (.gatherTimerLapse cl b.pc b.ctx))
      ++ (if c.placement.isEmpty then [] else [Act.event (.placeCrew cl)])
      ++ (if c.banker.isEmpty && c.farBuf.isEmpty then [] else [Act.event (.bankerRequest cl)]))
    ++ (s.ctxs.filter (fun c => !c.2.order.isEmpty)).map (fun c => Act.event (.placeTeam c.1))
    ++ (s.lines.filter (fun l => l.2.upd.isSome)).map (fun l => Act.event (.homeMerge l.1))
/-- Sequencers and engines. -/
def State.engineTurns (s : State) : List Act :=
  s.teams.flatMap (fun (t : Nat × Team) =>
      (if t.2.seqr.halt || s.seqIdle t.2 || (s.seqStops t.2 && !t.2.seqr.midway) then [] else [Act.seqr t.2.core t.2.seqNo])
      ++ t.2.seqr.jobs.map (jobEvent t.2.core t.2.seqNo)
      ++ (if t.2.seqr.fault.isSome then [Act.event (.sequencerFaultDelivery t.2.core t.2.seqNo)] else []))
    ++ s.clusterCtx.flatMap (fun (x : Nat × ClusterCtx) =>
      if !s.onTurn (x.1 / 8) (x.1 % 8) then []
      else
        x.2.chans.flatMap (fun (c : Nat × Chan) => match c.2.cmds with
          | m :: _ => if m.moved then [Act.event (.commandComplete (x.1 % 8) c.1 0 ⟨0, 0⟩)] else copyEvent (x.1 % 8) c.1 m.op
          | [] => [])
        ++ x.2.streams.flatMap (fun (q : Nat × List Cmd × List Sub) => match q.2.1 with
          | m :: _ => if m.moved then [Act.event (.commandComplete (x.1 % 8) (17 + q.1) 0 ⟨0, 0⟩)]
              else [Act.event (.tileStream (x.1 % 8) q.1), Act.event (.streamTileDeliver (x.1 % 8) q.1)]
          | [] => []))
    ++ (match s.link.queue with
      | c :: _ => linkEvent c.op
      | [] => [])
    ++ ((List.range s.link.sent.length).filter (fun i => match s.link.sent[i]? with
      | some (_, some _) => true
      | _ => false)).map (fun i => Act.event (.commandComplete 0 16 i ⟨0, 0⟩))
/-- The front end (R345). -/
def State.queueTurns (s : State) : List Act :=
  (match s.nextQueue with
    | some q => (match s.queue q with
      | some x => if s.queueReady q x then [Act.event (.packetStart q)] else [Act.dyzil q]
      | none => [])
    | none => [])
    ++ s.queues.flatMap (fun (x : Nat × Queue) =>
      (if x.2.onEngine && !s.mgmt.ckpt then [Act.dyzil x.1] else [])
      ++ (if x.2.woken && !s.mgmt.ckpt then [Act.event (.monitorWake x.1)] else [])
      ++ (if s.deferredDue x.1 x.2 then [Act.event (.deferredSignalWrite x.1)] else []))
/-- Turns of partitions, page moves, the device clock, the debug interface. -/
def State.deviceTurns (s : State) : List Act :=
  ((List.range 8).filter (fun p => s.isPart p && ((s.part p).switching || s.dueCtx p != ((s.part p).current s.time).cur))).map (fun p =>
      Act.event (.turnSwitch p))
    ++ s.ctxs.flatMap (fun (c : Nat × Ctx) => c.2.migr.flatMap (fun r =>
      r.due.map (fun i => Act.event (.pageMove c.1 (BitVec.ofNat 64 (r.vbase + 65536 * i))))
      ++ r.reached.map (fun x => Act.event (.ownershipHandover c.1 (BitVec.ofNat 64 (r.vbase + 65536 * x.1)) x.2))))
    ++ (s.link.noRoute.filter (fun x => s.routeGone x.1 && !s.link.unreach.contains x.1)).map (fun x => Act.event (.destinationUnreachable x.1))
    ++ (s.link.hands.filter (fun h => decide (h.since + linkWait ≤ s.cycle))).map (fun h => Act.event (if h.pending then
      .handoverCommitTimeout h.ctx (BitVec.ofNat 64 h.va) else .handoverReceiptTimeout h.ctx (BitVec.ofNat 64 h.va)))
    ++ (s.link.xfersIn.filter (fun x => decide (x.since + linkWait ≤ s.cycle))).map (fun x => Act.event (.transferCommitTimeout x.id))
    ++ (if !s.hostUp && s.holdOver && !s.dirtyLines.isEmpty then [Act.event .dirtyHoldExpire] else [])
    ++ s.hostStores.map (fun x => Act.hostStore x.1 x.2)
    ++ (if s.mgmt.gangsync && decide (s.ptpLast + cyclesPerSecond ≤ s.cycle) then [Act.event .ptpUnlock] else [])
    ++ (if !s.mgmt.gangsync then [Act.event .ptpRelock] else [])
    ++ (if s.mgmt.dbg.go then [Act.event (if s.mgmt.dbg.op = 5 then .debugReadWhenFull else .debugWriteWhenFull), Act.event .debugTimeout] else [])
/-- Everything of the device that can act now. -/
def State.turns (s : State) : List Act :=
  s.portTurns ++ s.fibreTurns ++ s.dealerTurns ++ s.engineTurns ++ s.queueTurns ++ s.deviceTurns ++ s.inbox.map (fun x => Act.inbox x.1)
/-- The agent of the next step: the first of the agenda, otherwise one of those that can act, which one being free (log 6). -/
def State.nextAct (s : State) : Option Act × State :=
  match s.agenda with
  | a :: r => (some a, { s with agenda := r })
  | [] => (s.turns[Config.pickTurn s.ticks % s.turns.length]?, s)

/-! ### Taking a turn -/

/-- Performs at the bankers the far requests of a port's lanes, so that they come before what the lanes do next (R137, R155): RESUME, DROP and
FCANCEL do not hold their port for them (R271). -/
def State.flushFar (s : State) (ks : List Nat) : State :=
  (List.range 8).foldl (fun (s : State) cl =>
    let c := s.cluster cl
    let l := c.banker ++ c.farBuf
    if l.any (fun r => ks.contains r.fibre) then
      let (t, left) := s.farTake cl [] l.length l []
      l.foldl (fun (s : State) r => s.landed r.fibre r.ctx r.launch r.task) (t.putCluster cl { t.cluster cl with banker := left.take 512, farBuf := left.drop 512 })
    else s) s
/-- Whether an instruction does not hold its port for the far requests before it. -/
def flushesFar : Instr → Bool
  | .resume _ => true
  | .drop _ => true
  | .fcancel _ => true
  | _ => false
/-- A port's turn, its far requests performed first where the instruction does not hold for them. -/
def State.portGo (s : State) (core p : Nat) : TurnOut :=
  match s.portTurn core p with
  | .run i t => .run i (if flushesFar i then t.flushFar ((s.port core p).map PortRun.fibres |>.getD []) else t)
  | o => o
/-- A Dyzil engine's turn: the instruction at the queue's program counter, or the budget's end (R345, R348). A satisfied wait is taken up by a free
engine in its queue's turn (R345). -/
def State.dyzilTurn (s : State) (q : Nat) : TurnOut :=
  let s := { s with actor := Actor.dyzil q }
  match s.queue q with
  | none => .done s
  | some x =>
    if !(x.onEngine || (x.satisfied && s.nextQueue == some q)) then .done s
    else
      let s := if x.satisfied then { s with lastQueue := q } else s
      let x := if x.wait = .resume then { x with wait := .none } else x
      let s := s.putQueue q x
      if x.steps = 256 ∧ x.wait = .none then .run (.dyzilBudget q) s
      else match decodeDyzil (x.prog.getD x.pc 0).toNat with
        | some i => .run i s
        | none => .done s
/-- The management controller assigns granules that no context owns to a context (R406). -/
def State.assignGranules (s : State) (first count ctx : Nat) : State :=
  if 9437184 < first + count ∨ !s.serves ∨ s.mgmt.grans.any (fun r => decide (r.1 < first + count) && decide (first < r.1 + r.2.1)) then s
  else { s with mgmt := { s.mgmt with grans := s.mgmt.grans ++ [(first, count, ctx)] } }
/-- The turn of an agent, or a happening. -/
def State.takeTurn (s : State) (a : Act) : TurnOut :=
  match a with
  | .port c p => s.portGo c p
  | .seqr c n => s.seqTurn c n
  | .dyzil q => s.dyzilTurn q
  | .event i => .run i { s with actor := Actor.none }
  | .inbox n => (match s.inbox.find? (fun x => x.1 == n) with
    | some x => .run x.2 { s with actor := Actor.inbox n }
    | none => .done s)
  | .granules first count ctx => .done (s.assignGranules first count ctx)
  | .hostStore pa data => .done (s.hostStore pa data)
  | .xferIn src id ctx cluster launch b blk tc => .done (s.takeXfer src id ctx cluster launch b blk tc)
  | .deviceIndex n => .done (if n < 127 then { s with device := n } else s)
  | .routeLost dev => .done (s.routeLost dev)
  | .job i => .done (s.jobTurn i)
  | .hostCaps cache atomics => .done (s.hostOffers cache atomics)
  | .mgmtCtx v => .done (s.createMgmt v)
/-- WAITMs whose lanes had an access still to be placed are tested again (R57, R58). -/
def State.settleMasks (s : State) : State :=
  (s.crews.filter (fun c => (s.crewFibres c.2).any (fun f => f.conds.any (fun x => (List.range 12).any (fun m => x.isWaitm m))))).foldl
    (fun s c => s.retestMasks c.1) s
/-- The step's end: claims, references, cancel words and WAITMs whose moment has come, what waited and need wait no longer, pending stops, and
time (R13, R44, R94, R107, R151, R365, log 3). -/
def State.finish (s : State) : State :=
  let s := (((((({ s with actor := Actor.none } : State).settleClaims.settleRefs).settleCancel).settleMasks).settleAwaits).settleTeams).settleStops
  let t := ({ s with ticks := s.ticks + 1, cycle := s.cycle + 1 + Config.extraCycles s.ticks } : State).settleReady s.cycle
  { t with ctxs := if s.time / 1000000 < t.time / 1000000 then s.clearCounters.ctxs else s.ctxs }

end Sys2Proof.Machine
end

