-- ==== Sys2Proof/Machine/Load.lean ====
section
/-! DEFINITION. How one instruction is placed where the next step fetches it (log 6): a Dyzil word as the program of a running packet, a
Yilore slot in a code line that a port or a sequencer has reached, the sequencer past the test of its entry. -/

namespace Sys2Proof.Machine

/-- The context that the placed instruction runs for. -/
def probeDesc : CtxDesc :=
  { ctxid := 1, kslot := 0, pfirst := 0, psize := 8, hostmem := false, tloc := 0, srseed := 1, troot := 0x10000, fhbase := 0x200000, fhsize := 1,
    fcbase := 0x400000, fcsize := 1, hdmbase := 0, hdmsize := 0, savegr := 16 }
def State.withProbe (s : State) : State :=
  let c : Ctx := { d := probeDesc, heap := Heap.empty, migr := [], nextLaunch := 16, order := [], placedCores := [], lost := false, areaWritten := false }
  let s := s.putCtx 1 c
  let s := s.putPart 0 { s.part 0 with cur := some 1 }
  { s with mgmt := { s.mgmt with grans := (0, 3, 1) :: (16, 1730 * probeDesc.psize, 1) :: s.mgmt.grans } }
/-- The 64 bytes of a line with an instruction in slot 0: the parity bit of each of its words (R187). -/
def lineWith (x : Nat) : List Byte :=
  let ws := (List.range 3).map (fun i => bitsOf x (32 * i) 32)
  let par := maskOf ((List.range 3).filter (fun i => popcount (ws.getD i 0) % 2 == 1))
  leBytes 4 (ws.getD 0 0) ++ leBytes 4 (ws.getD 1 0) ++ leBytes 4 (ws.getD 2 0) ++ List.replicate 48 0 ++ leBytes 4 (65536 * par)
/-- Page tables that map the 64 KiB page at 0x1_0000 to physical 0x2_0000, with W (4) or X (8) (R113). -/
def probeTables (m : List Host.Cell) (attr : Nat) : List Host.Cell :=
  let next (i : Nat) : Nat := 1 + 2 ^ 20 * ((0x11000 + 0x1000 * i) / 256)
  let m := (List.range 4).foldl (fun (m : List Host.Cell) i => cellsWrite m (0x10000 + 0x1000 * i) (leBytes 8 (next i))) m
  cellsWrite m 0x14008 (leBytes 8 (1 + 2 + attr + 2 ^ 20 * (0x20000 / 256)))
/-- A Dyzil word as the program of a packet that engine 0's queue runs; `done` ends the program. -/
def State.placeDyzil (s : State) (w : Nat) : State :=
  let x : Queue := {
    ctx := 1, mgmt := false, ring := 0x10000, log2n := 1, widx := 0x10080, status := 0x10100, prog := [BitVec.ofNat 32 w, 0x26], winBase := 0x10200, winSize := 64,
    grants := [], params := List.replicate 8 0, d := List.replicate 16 0, scratch := List.replicate 32 0, ridx := 0, stamp := 0,
    pkt := some (List.replicate 8 0), pc := 0, steps := 0, loop := none, wait := .none, woken := false, watch := [], deferred := [],
    launches := [], tasks := [], stopping := false, errorInfo := none }
  let s := s.withProbe.putQueue 0 x
  let s := { s with dev := probeTables s.dev 4 }
  { s.putQreg 0 { s.qreg 0 with state := 1 } with agenda := .dyzil 0 :: s.agenda }
/-- A Yilore slot in the line at 0x1_0000, where port 0 of core 0 issues it for one fibre, or the sequencer of a team does. -/
def State.placeSlot (s : State) (x : Nat) : State :=
  let s := s.withProbe
  let s := { s with dev := cellsWrite (probeTables s.dev 8) 0x20000 (lineWith x) }
  let l := { (Launch.ofDesc 16 1 0 false (leWords x) [] [] 0) with queue := 0 }
  let entry : Frame := Frame.fresh 0x200820 1 64 1 0
  let f : Fibre := Fibre.make 1 1 false 1 16 2 0 0 [entry, rootFrame l 0x200060 0 []] [⟨0x200800, 0, 1, 0⟩, ⟨0x200000, 0, 1, 0⟩] 0 0x10000 0 0
  let seqr := decide (0x380 ≤ x % 1024)
  let c := Crew.fresh 1 16 0 0 (some 1 :: List.replicate 31 none) (if seqr then some 3 else none) 0 (if seqr then 0 else 3) 0
  let s := { (s.putFibre f).putCrew 2 c with launches := l :: s.launches, nextKey := max s.nextKey 4 }
  if seqr then
    let t : Team := {
      ctx := 1, launch := 16, core := 0, band := 0, index := 0, ofBand := false, crews := [2], seqNo := 0, seqr := { Seqr.fresh 0x10000 0 with entry := false },
      barriers := [], rings := (List.range 8).map l.ring, phases := [], phaseStamp := 0 }
    { s.putTeam 3 t with agenda := .seqr 0 0 :: s.agenda }
  else
    { s.putPort 0 0 (PortRun.fresh 2 [1]) with agenda := .port 0 0 :: s.agenda }
where
  /-- A descriptor whose matrix stream is the line, for a group 7 instruction. -/
  leWords (x : Nat) : List Word :=
    if 0x380 ≤ x % 1024 then List.replicate 8 0 ++ [0x10000] ++ List.replicate 55 0 else List.replicate 64 0
/-- The instruction of `nbits` bits w, placed where the next step fetches it. -/
def State.placeWord (s : State) (nbits w : Nat) : State := if nbits ≤ 32 then s.placeDyzil w else s.placeSlot w

end Sys2Proof.Machine
end

