-- ==== Sys2Proof/Machine/Step.lean ====
section
/-! DEFINITION. One step of the device: one agent's turn, its instruction or happening executed whole (f95), and time passing. -/

namespace Sys2Proof.Machine

/-- One step (log 6): the next agent acts; when nothing can act only time passes. -/
def step (s : State) : Host.Outcome State Fault Refusal :=
  match s.nextAct with
  | (none, t) => .next t.finish
  | (some a, t) => match t.takeTurn a with
    | .done u => .next u.finish
    | .run i u => match exec i u with
      | .next v => .next v.finish
      | .fault r => .fault r
      | .refused r => .refused r

/-- s with an instruction stored where its next step fetches. -/
def State.withFetchWord (s : State) (nbits w : Nat) : State := s.placeWord nbits w

end Sys2Proof.Machine
end

