-- ==== Sys2Proof/Safety.lean ====
section
/-! DEFINITION. What counts as a safe run, and the vocabulary that statements about the machine use: memories in canonical form, a group
that stands on its port, the checks at issue found clear, and what an instruction may change. -/

namespace Sys2Proof.Machine

/-- Whether addresses rise strictly from lo on. -/
def risesFrom : Nat → List Host.Cell → Bool
  | _, [] => true
  | lo, (a, _) :: r => decide (lo ≤ a) && risesFrom (a + 1) r
/-- Every memory of the device is in canonical form. An SRAM byte that is not listed is a free value, so SRAM lists what was written. -/
def State.memOk (s : State) : Bool := Memory.wf s.dev && Memory.wf s.host && risesFrom 0 s.sram

/-- The port is one of the device's, its group's fibres are there, each once, and every fibre is kept under its own number. -/
def Group.sound (g : Group) (s : State) : Bool :=
  decide (g.core < 384) && decide g.run.fibres.Nodup && g.run.fibres.all (fun k => (s.fibre k).isSome) && s.fibres.all fun x => x.2.key == x.1

/-- The checks at issue (R437, R51) find nothing in any lane whose guard passes: registers below F, literals good, sources full,
destination full. -/
def Group.clear (g : Group) (s : State) (op : Nat) (o : GOp) : Bool :=
  match gRow op with
  | some r => g.fs.all (fun f => !f.guard o.guard || decide (s.preG f op o r .go = .go))
  | none => false

/-- A fibre with its program counter at pc. -/
def Fibre.goesTo (f : Fibre) (pc : DWord) : Fibre := { f with pc := pc }
/-- An instruction of a group has gone through: each lane's fibre is `res` of it, at the next instruction slot; the port counts one
instruction more; issue counters may have risen; nothing else of the device has changed. -/
def State.groupStep (s t : State) (g : Group) (res : Fibre → Fibre) : Prop :=
  (∀ f ∈ g.fs, t.fibre f.key = some ((res f).goesTo (s.nextSlot f.ctx f.pc))) ∧
  (∀ k, k ∉ g.run.fibres → t.fibre k = s.fibre k) ∧
  t.port g.core g.p = some { g.run with count := g.run.count + 1, done := [], wait := .none, know := [], nth := 0, part := [], queued := none } ∧
  (∀ c p, 4 * c + p ≠ 4 * g.core + g.p → t.port c p = s.port c p) ∧
  (∀ ctx core, core < 384 → { t.cc ctx core with counts := (s.cc ctx core).counts } = s.cc ctx core) ∧
  { t with fibres := s.fibres, ports := s.ports, coreCtx := s.coreCtx } = s

/-- Instruction i (opcode and operands as given) completes in every group with nothing to find at issue: each lane whose guard
passes comes to `res`, and nothing else changes. -/
def goesThrough (op : Nat) (i : Instr) (o : GOp) (res : State → Fibre → Fibre) : Prop :=
  ∀ (s : State) (g : Group), s.group = some g → g.sound s = true → g.clear s op o = true →
    ∃ t, exec i s = .next t ∧ s.groupStep t g (fun f => if f.guard o.guard then res s f else f)
/-- A lane whose destination takes a 32-bit function of three 32-bit sources. -/
def takes32 (t : ImmTy) (o : GOp) (k : Word → Word → Word → Word) (s : State) (f : Fibre) : Fibre :=
  f.setDst o.dst (k (s.src f t o.imm o.a) (s.src f t o.imm o.b) (s.src f t o.imm o.c))
/-- A lane whose destination pair takes a 64-bit value. -/
def takes64 (o : GOp) (k : State → Fibre → DWord) (s : State) (f : Fibre) : Fibre := f.setPair o.dst.num (k s f)
/-- Signed and unsigned clamping to 32 bits (R217). -/
def clampS (x : Int) : Word := BitVec.ofInt 32 (max (-(2 ^ 31)) (min x (2 ^ 31 - 1)))
def clampU (x : Int) : Word := BitVec.ofInt 32 (max 0 (min x (2 ^ 32 - 1)))
/-- A result under wrap, sat and usat (R217), from the exact results on signed and on unsigned operands. -/
def underMode (mod : Nat) (sgn uns : Int) : Word :=
  match mod % 4 with
  | 1 => clampS sgn
  | 2 => clampU uns
  | _ => BitVec.ofInt 32 sgn
/-- The same for a long-latency producer (R49, R50): n destination registers are marked empty and the values are on their way. -/
def fillsThrough (op : Nat) (i : Instr) (o : GOp) (n : Nat) (vals : State → Fibre → List Word) : Prop :=
  ∀ (s : State) (g : Group), s.group = some g → g.sound s = true → g.clear s op o = true →
    ∃ t, exec i s = .next t ∧
      ({ s with fills := s.fills ++ (g.fs.filter fun f => f.guard o.guard).map fun f =>
          { fibre := f.key, frame := f.top.addr, reg := o.dst.num, n := n, vals := vals s f, producer := op, loc2 := false } } : State).groupStep t g
        (fun f => if f.guard o.guard then f.markEmpty o.dst.num n else f)
/-- The same for an operation with flags (R172, R173), none of those raised being enabled: the flags are set and the result written. -/
def roundsThrough (op : Nat) (i : Instr) (o : GOp) (r : State → Fibre → FRes) (write : Nat → Fibre → Fibre) : Prop :=
  ∀ (s : State) (g : Group), s.group = some g → g.sound s = true → g.clear s op o = true →
    (∀ f ∈ g.fs, f.guard o.guard = true → f.trapped (r s f).flags = 0) →
    ∃ t, exec i s = .next t ∧ s.groupStep t g (fun f => if f.guard o.guard then write (r s f).bits (f.raise (r s f).flags) else f)
/-- Writing a 32-bit result, and a 64-bit result, from its bits. -/
def to32 (o : GOp) (x : Nat) (f : Fibre) : Fibre := f.setDst o.dst (BitVec.ofNat 32 x)
def to64 (o : GOp) (x : Nat) (f : Fibre) : Fibre := f.setPair o.dst.num (BitVec.ofNat 64 x)
/-- The bits of the three 32-bit sources, and of the three 64-bit sources. -/
def from32 (t : ImmTy) (o : GOp) (k : Nat → Nat → Nat → FRes) (s : State) (f : Fibre) : FRes :=
  k (s.src f t o.imm o.a).toNat (s.src f t o.imm o.b).toNat (s.src f t o.imm o.c).toNat
def from64 (o : GOp) (k : Nat → Nat → Nat → FRes) (s : State) (f : Fibre) : FRes :=
  k (s.src64 f .f64 o.imm o.a).toNat (s.src64 f .f64 o.imm o.b).toNat (s.src64 f .f64 o.imm o.c).toNat
/-- Two 16-bit elements, each alone (R168). -/
def bothHalves (k : Nat → Nat → Nat → FRes) (a b c : Nat) : FRes :=
  let lo := k (a % 2 ^ 16) (b % 2 ^ 16) (c % 2 ^ 16)
  let hi := k (a / 2 ^ 16 % 2 ^ 16) (b / 2 ^ 16 % 2 ^ 16) (c / 2 ^ 16 % 2 ^ 16)
  ⟨lo.bits + 2 ^ 16 * hi.bits, lo.flags ||| hi.flags⟩
/-- The exact value of a finite operand, and whether a word of a format is finite with that value (R167). -/
def exactVal (neg : Bool) (m : Nat) (e : Int) : ℚ := (if neg then -1 else 1) * (m : ℚ) * (2 : ℚ) ^ e
def FloatFmt.holds (f : FloatFmt) (x : Nat) (v : ℚ) : Prop := ∃ neg m e, f.decode x = .fin neg m e ∧ exactVal neg m e = v

/-- The checks at issue find nothing in one lane. -/
def State.clearLane (s : State) (op : Nat) (o : GOp) (f : Fibre) : Bool :=
  match gRow op with
  | some r => decide (s.preG f op o r .go = .go)
  | none => false
/-- An instruction whose lanes see each other completes in every group whose lanes carry no trailer condition and, where their guard
passes, are ready: each such lane comes to `res`, the crew's part is `base`, and nothing else changes. -/
def crewThrough (i : Instr) (o : GOp) (ready : State → Group → Fibre → Bool) (res : State → Group → Fibre → Fibre)
    (base : State → Group → State) : Prop :=
  ∀ (s : State) (g : Group), s.group = some g → g.sound s = true →
    (∀ f ∈ g.fs, f.conds = [] ∧ (f.guard o.guard = true → ready s g f = true)) →
    ∃ t, exec i s = .next t ∧ (base s g).groupStep t g (fun f => if f.guard o.guard then res s g f else f)
/-- A crew's mask register written, and the lanes that wait on it tested again (R57, R258). -/
def State.masked (s : State) (g : Group) (n : Nat) (m : Word) : State :=
  match s.crew g.run.crew with
  | some c => (s.putCrew g.run.crew { c with masks := setAt c.masks n m }).retestWaitm g.run.crew n
  | none => s
/-- The live mask of a group's crew: a bit for each lane that holds a fibre (R258). -/
def State.liveMask (s : State) (g : Group) : Word :=
  match s.crew g.run.crew with
  | some c => BitVec.ofNat 32 (maskOf ((List.range 32).filter fun l => (c.lanes.getD l none).isSome))
  | none => 0
/-- The lanes of a group whose guard passes. -/
def Group.passing (g : Group) (o : GOp) : List Fibre := g.fs.filter fun f => f.guard o.guard

/-- A trailer whose lanes act alone completes in every group in which no lane has a late fault or a reference instruction not yet placed, and every
lane is ready: each lane comes
to `res`, and the sentence ends. -/
def trailThrough (i : Instr) (ready : State → Fibre → Bool) (res : State → Fibre → Fibre) : Prop :=
  ∀ (s : State) (g : Group), s.group = some g → g.sound s = true → (∀ f ∈ g.fs, f.late = none ∧ f.refs = [] ∧ ready s f = true) →
    exec i s = .next ((s.putFibres (g.fs.map (res s))).endSentence g [])
/-- Lanes that act in ascending order, each on the state the earlier ones left: none when one faults or has to wait. A lane whose guard
fails, and a helper lane that cannot act, goes on at the next instruction slot. -/
def lanesInOrder (guard : Guard) (pre : State → Fibre → Pre) (act : State → Fibre → Except FaultInfo State) : List Fibre → State → Option State
  | [], s => some s
  | f0 :: r, s =>
    match s.fibre f0.key with
    | none => lanesInOrder guard pre act r s
    | some f =>
      let on := s.putFibre (f.goesTo (s.nextSlot f.ctx f.pc))
      if !f.guard guard then lanesInOrder guard pre act r on
      else match pre s f, act s f with
        | .go, .ok t => lanesInOrder guard pre act r t
        | .go, .error x => if f.helper && x.tag != 0 then lanesInOrder guard pre act r on else none
        | .fault x, _ => if f.helper && x.tag != 0 then lanesInOrder guard pre act r on else none
        | .hold, _ => none
        | .wait, _ => none
/-- A trailer whose lanes take and give back shared storage completes when every lane can act in its turn. -/
def ordersThrough (i : Instr) (guard : Guard) (pre : State → Fibre → Pre) (act : State → Fibre → Except FaultInfo State) : Prop :=
  ∀ (s : State) (g : Group) (t : State), s.group = some g → (∀ f ∈ g.fs, f.late = none ∧ f.refs = []) →
    lanesInOrder guard pre act g.fs s = some t → exec i s = .next (t.endSentence g [])
/-- Lanes of an instruction of R501 that act in ascending order: the state, and the lanes that acted; none when a lane faults. -/
def allActWell (act : State → Fibre → State × Option FaultInfo) : List Fibre → State × List Nat → Option (State × List Nat)
  | [], x => some x
  | f0 :: r, x =>
    match x.1.fibre f0.key with
    | none => allActWell act r x
    | some f => match act x.1 f with
      | (t, none) => allActWell act r (t, x.2 ++ [f0.key])
      | (_, some _) => none
/-- The lanes on which an effect of R31's kind acts: the guard passes and the lane is no helper. -/
def Group.acting (g : Group) (guard : Guard) : List Fibre := g.fs.filter fun f => f.guard guard && !f.helper
/-- The lanes that do not act go on at the next instruction slot, a suppressed helper's destination being 0 (R31). -/
def State.othersGoOn (s : State) (g : Group) (guard : Guard) (zero : Fibre → Fibre) : State :=
  s.putFibres ((g.fs.filter fun f => !(f.guard guard && !f.helper)).map fun f =>
    (if f.helper && f.guard guard then zero f else f).goesTo (s.nextSlot f.ctx f.pc))
/-- A suppressed helper's destination of a format G instruction (R31). -/
def zeroOf (op : Nat) (o : GOp) (f : Fibre) : Fibre :=
  match gRow op with
  | some r => f.zeroDst o r
  | none => f
/-- No fill is on its way to a register in which a suppressed helper is to hold 0 (R31, R51). -/
def Group.helpersFree (g : Group) (op : Nat) (o : GOp) : Bool := g.fs.all fun f => !helperHolds o.guard (zeroOf op o) f
/-- An effect trailer of R501 completes when every acting lane's checks find nothing, its handle has the right form, its earlier accesses are
placed and its action does well: the lanes have acted in ascending order, and the sentence ends. -/
def actsAndEnds (op : Nat) (i : Instr) (o : GOp) (form : State → Fibre → Bool) (act : State → Fibre → State × Option FaultInfo) : Prop :=
  ∀ (s : State) (g : Group) (x : State × List Nat), s.group = some g → (∀ f ∈ g.fs, f.late = none ∧ f.refs = []) → g.helpersFree op o = true →
    (∀ f ∈ g.acting o.guard, s.clearLane op o f = true ∧ s.unplaced f.key = false ∧ form s f = true) →
    allActWell act (g.acting o.guard) (s.othersGoOn g o.guard (zeroOf op o), []) = some x →
    exec i s = .next (x.1.endSentence g (if op = 0x20C then x.2 else []))

/-! ### Instructions that touch memory and what teams share -/

/-- An instruction whose lanes see each other goes on in every group whose lanes, where their guard passes, are ready: each such lane
comes to `res`, then what the whole group does is `after`, and the sentence goes on. -/
def groupThrough (i : Instr) (o : GOp) (ready : State → Group → Fibre → Bool) (res : State → Group → Fibre → Fibre)
    (after : State → Group → State → State) : Prop :=
  ∀ (s : State) (g : Group), s.group = some g → (∀ f ∈ g.fs, f.guard o.guard = true → ready s g f = true) →
    exec i s = .next ((after s g (s.putFibres (g.fs.map fun f => if f.guard o.guard then res s g f else f))).goOn g)
/-- Accesses made in ascending lane order, the loads of a lane's page walks before its own; `far` says which go to a banker. None when one finds no
room, when a walk meets an uncorrectable error, or when one to be made here comes after a far one, for which it waits. -/
def accessesInOrder (far : State → MemLane → Bool) (perform : State → MemLane → Option State) : List MemLane → Bool → State → Option State
  | [], _, s => some s
  | m :: r, behind, s => match s.laneWalks m.key 0 m.spots with
    | (_, true) => none
    | (t, false) => if behind && !far t m then none else match perform t m with
      | some u => accessesInOrder far perform r (behind || far t m) u
      | none => none
/-- No access goes to a banker. -/
def noFar (_ : State) (_ : MemLane) : Bool := false
/-- No line of memory is in an update state or holds an error (R161, R455). -/
def State.calm (s : State) : Bool := s.lines.all fun l => l.2.upd.isNone && l.2.hidden == 0 && !l.2.poison
/-- The lanes that make an access: the guard passes, and no helper lane where the instruction keeps helpers out (R31). -/
def Group.reaching (g : Group) (guard : Guard) (keepsOut : Bool) : List Fibre :=
  g.fs.filter fun f => f.guard guard && !(f.helper && keepsOut)
/-- Every lane that makes an access is clear at issue, passes its checks with the access m, and has nothing to wait for and no owner to
ask; no fill is on its way to a register in which a helper kept out is to hold 0 (R51); the group is at its first try. -/
def Group.reaches (g : Group) (s : State) (op : Nat) (o : GOp) (keepsOut : Bool) (check : State → Fibre → Plan) (m : Fibre → MemLane) : Prop :=
  s.group = some g ∧ g.run.done = [] ∧ g.run.wait = .none ∧ g.run.nth = 0 ∧
  (∀ f ∈ g.reaching o.guard keepsOut, s.clearLane op o f = true ∧ check s f = .act (m f) ∧ (m f).key = f.key ∧
    s.mustHold f (m f).spots = false ∧ s.laneBusy (m f) = false ∧ (m f).spots.any Spot.isPeer = false) ∧
  (keepsOut = true → g.helpersFree op o = true)
/-- A memory instruction completes: helpers kept out hold 0, the accesses are made in ascending lane order, and the sentence goes on. -/
def accessesThrough (op : Nat) (i : Instr) (o : GOp) (keepsOut : Bool) (check : State → Fibre → Plan)
    (joint : List MemLane → Prop) (far : State → MemLane → Bool) (perform : List MemLane → State → MemLane → Option State)
    (after : State → Group → List MemLane → State) : Prop :=
  ∀ (s : State) (g : Group) (m : Fibre → MemLane) (t : State), g.reaches s op o keepsOut check m →
    let ms := (g.reaching o.guard keepsOut).map m
    joint ms →
    accessesInOrder far (perform ms) ms false (s.putFibres ((g.fs.filter fun f => f.guard o.guard && (f.helper && keepsOut)).map (zeroOf op o))) = some t →
    exec i s = .next ((after t g ms).goOn g)
/-- The fibre of an access, where there is one. -/
def State.onFibre (s : State) (m : MemLane) (act : Fibre → State) : Option State :=
  match s.fibre m.key with
  | some f => some (act f)
  | none => some s

/-- The bytes that a store at a place fills: for a view page those of the elements or blocks it names (R134, R282, R284). -/
def Spot.stored (x : Spot) : List (PA × Nat) :=
  match x.place with
  | .mem p _ => [(p, x.n)]
  | .view v base _ off loc => (List.range (max 1 (x.n / 4))).map fun i => (⟨locSpace loc, base + (v.place (off + 4 * i)).1⟩, v.unit)
  | _ => []
/-- Whether a byte is one of n bytes at p. -/
def PA.among (q p : PA) (n : Nat) : Bool := q.sp == p.sp && decide (p.a ≤ q.a) && decide (q.a < p.a + n)
/-- Whether a byte is one that an access's stores fill. -/
def MemLane.fills (m : MemLane) (q : PA) : Bool := m.spots.any fun x => x.stored.any fun y => q.among y.1 y.2
/-- The lines an access touches are not in the update state, hold no error, and no newer data of a host line waits in the device. -/
def State.plain (s : State) (m : MemLane) : Bool :=
  m.spots.all fun x => x.stored.all fun y =>
    [y.1.line, PA.line { y.1 with a := y.1.a + y.2 - 1 }].all fun lk =>
      let l := s.lineOf lk
      l.upd.isNone && l.hidden == 0 && !l.poison && (l.dirtyHost.all fun d => d.length == 128)
/-- No access log of a context watches (R417). -/
def State.unwatched (s : State) (ctx : Nat) : Bool := match s.ctx ctx with
  | some c => (s.key c.d.kslot).monitors.isEmpty
  | none => true

/-! ### Sequencers and Dyzil engines -/

/-- A group 7 instruction completes on the sequencer that acts, unless it is halted, under `can`: its effect is `res`, and SPC goes on to
the next instruction slot. -/
def seqThrough (i : Instr) (can : State → Nat → Team → Bool) (res : State → Nat → Team → State) : Prop :=
  ∀ (s : State) (core n tk : Nat) (t : Team), s.actor = .seqr core n → s.seqTeam core n = some (tk, t) → t.seqr.halt = false →
    can s tk t = true → exec i s = .next ((res s tk t).seqNext tk)
/-- The same for one that sets SPC itself; of the lines fetched from peers the sequencer keeps the one it then stands on. -/
def seqJumps (i : Instr) (can : State → Nat → Team → Bool) (res : State → Nat → Team → State) (pc : State → Team → DWord) : Prop :=
  ∀ (s : State) (core n tk : Nat) (t : Team), s.actor = .seqr core n → s.seqTeam core n = some (tk, t) → t.seqr.halt = false →
    can s tk t = true → exec i s = .next ((res s tk t).modSeqr tk fun q =>
      { q with spc := pc s t, reqs := [], probed := false, mem := none, code := q.code.filter fun c => c.1 == (pc s t).toNat / 64 * 64 })
/-- The line offset and slot of a matrix stream's target (R328). -/
def Seqr.target (q : Seqr) (tslot : BitVec 3) (off : BitVec 17) : DWord :=
  BitVec.ofInt 64 ((q.spc.toNat / 64 * 64 : Nat) + 64 * off.toInt + tslot.toNat)
/-- The engine of queue q runs a packet of it. -/
def State.runsPacket (s : State) (q : Nat) (x : Queue) : Prop := s.actor = .dyzil q ∧ s.queue q = some x ∧ x.pkt.isSome = true
/-- An executed instruction counts one step; one that waited counted when it was first executed, and lets go of what it watched (R348). -/
def Queue.stepped (x : Queue) : Queue :=
  if x.wait = .none then { x with steps := x.steps + 1 } else { x with wait := .none, watch := x.watch.take 1 }
/-- An instruction of a queue program completes: the queue comes to `res`, and nothing else changes. -/
def dyzilThrough (i : Instr) (res : Queue → Queue) : Prop :=
  ∀ (s : State) (q : Nat) (x : Queue), s.runsPacket q x → exec i s = .next (s.putQueue q (res x.stepped))
/-- From instruction pc on to instruction k; the end of a LOOP body passed from its last instruction starts the next pass (R346). -/
def Queue.movesTo (x : Queue) (k : Nat) : Queue :=
  match x.loop with
  | some (first, last, left) =>
    if x.pc = last ∧ k = last + 1 then
      if 1 < left then { x with pc := first, loop := some (first, last, left - 1) } else { x with pc := k, loop := none }
    else { x with pc := k }
  | none => { x with pc := k }
/-- An instruction that leaves a value in register dA. -/
def Queue.gives (x : Queue) (a : BitVec 4) (v : DWord) : Queue := ({ x with d := setAt x.d a.toNat v } : Queue).movesTo (x.pc + 1)

/-! ### Exceptions -/

/-- A lane that issues alone, at its first try and no trailer, with no fill on its way, whose chain has a handler for what it performs and whose frame
heap has a block that can be written; the tag is a fault's, not AWAIT's. -/
def State.canTake (s : State) (g : Group) (f : Fibre) (tag : BitVec 16) : Prop :=
  s.group = some g ∧ g.fs = [f] ∧ g.sound s = true ∧ g.run.done = [] ∧ g.run.wait = .none ∧
    isTrailerOp (g.run.word.toNat % 1024) = false ∧ f.helper = false ∧ s.noFill f.key = true ∧ tag ≠ 0 ∧ tag ≠ 2 ∧ (f.handlerFor tag).isSome = true ∧
    ∃ a h, (s.heap f.ctx).takeBlock (s.cdesc f.ctx) = some (a, h) ∧ s.heapFault f.ctx a = none
/-- The lane's fault at its instruction, taken: its record has the instruction's first word as ARG and this lane in ISSUE and PERFORMED,
RESUMEPC is the instruction's slot, the pronouns are saved; the delivery counts one FRAG, and the lane has left the port. -/
def State.tookFault (s : State) (g : Group) (f : Fibre) (x : FaultInfo) : State :=
  let t := s.deliver f.key (s.faultRec f x false true g.run.word f.pc (laneMask [f]) (laneMask [f])) f.pc
  ({ t with frag := t.frag + 1 } : State).freePort g.core g.p
/-- Where `fault` holds of the lane, the instruction is that exception, the fibre being as `left` leaves it, and nothing else. -/
def traps (i : Instr) (o : GOp) (left : State → Fibre → Fibre) (fault : State → Group → Fibre → FaultInfo → Prop) : Prop :=
  ∀ (s : State) (g : Group) (f : Fibre) (x : FaultInfo), s.canTake g f x.tag → f.guard o.guard = true → fault s g f x →
    exec i s = .next ((s.putFibre (left s f)).tookFault g (left s f) x)
/-- The checks at issue find fault x in the lane. -/
def faultsAtIssue (op : Nat) (o : GOp) (s : State) (_ : Group) (f : Fibre) (x : FaultInfo) : Prop :=
  ∃ r, gRow op = some r ∧ s.preG f op o r .go = .fault x
/-- The checks at issue find nothing, and the operation raises an enabled flag: ARITH with the enabled flags raised as CAUSE and all raised as ARGX. -/
def raisesEnabled (op : Nat) (o : GOp) (r : State → Fibre → FRes) (s : State) (_ : Group) (f : Fibre) (x : FaultInfo) : Prop :=
  s.clearLane op o f = true ∧ f.trapped (r s f).flags ≠ 0 ∧ x = ⟨0x20, f.trapped (r s f).flags, (r s f).flags % 32, 0⟩

end Sys2Proof.Machine
end

