-- ==== Sys2Proof/Certificates/Slice0/Obligations.lean ====
section
/-! DEFINITION. The statements about the model: what each instruction leaves, where it traps, what never changes, and that a step runs
what the decoder reads. -/

open Sys2Proof Sys2Proof.Machine

/-! ### Group 0 -/

/-- R217: the arithmetic entries of group 0 write the wrapped or clamped exact result; every other register and all memory stand. -/
def Obligations.IntegerArithmeticResults : Prop := ∀ o : GOp,
  goesThrough 0x000 (.iadd o) o (takes32 .int o fun a b _ => underMode o.mod.toNat (a.toInt + b.toInt) (a.toNat + b.toNat)) ∧
  goesThrough 0x001 (.isub o) o (takes32 .int o fun a b _ => underMode o.mod.toNat (a.toInt - b.toInt) (a.toNat - b.toNat)) ∧
  goesThrough 0x002 (.imul o) o (takes32 .int o fun a b _ => a * b) ∧
  goesThrough 0x003 (.imulh o) o (takes32 .int o fun a b _ =>
    if bitOf o.mod.toNat 0 then BitVec.ofNat 32 (a.toNat * b.toNat / 2 ^ 32) else BitVec.ofInt 32 (a.toInt * b.toInt / 2 ^ 32)) ∧
  goesThrough 0x004 (.imad o) o (takes32 .int o fun a b c =>
    underMode o.mod.toNat (a.toInt * b.toInt + c.toInt) (a.toNat * b.toNat + c.toNat)) ∧
  goesThrough 0x008 (.ineg o) o (takes32 .int o fun a _ _ => if bitOf o.mod.toNat 0 then clampS (-a.toInt) else -a) ∧
  goesThrough 0x009 (.iabs o) o (takes32 .int o fun a _ _ =>
    if bitOf o.mod.toNat 0 then clampS (max a.toInt (-a.toInt)) else if a.toInt < 0 then -a else a) ∧
  goesThrough 0x00A (.imin o) o (takes32 .int o fun a b _ =>
    if bitOf o.mod.toNat 0 then (if b.toNat < a.toNat then b else a) else (if b.toInt < a.toInt then b else a)) ∧
  goesThrough 0x00B (.imax o) o (takes32 .int o fun a b _ =>
    if bitOf o.mod.toNat 0 then (if a.toNat < b.toNat then b else a) else (if a.toInt < b.toInt then b else a))

/-- R223, R221: IMAD64, IADD64 and LEA write their 64-bit result, modulo 2^64, to a pair. -/
def Obligations.WideIntegerResults : Prop := ∀ o : GOp,
  goesThrough 0x005 (.imad64 o) o (takes64 o fun s f =>
    let a := s.src f .int o.imm o.a
    let b := s.src f .int o.imm o.b
    (if bitOf o.mod.toNat 0 then BitVec.ofNat 64 (a.toNat * b.toNat) else BitVec.ofInt 64 (a.toInt * b.toInt)) + s.src64 f .int o.imm o.c) ∧
  goesThrough 0x006 (.iadd64 o) o (takes64 o fun s f =>
    if bitOf o.mod.toNat 0 then s.src64 f .int o.imm o.a - s.src64 f .int o.imm o.b
    else s.src64 f .int o.imm o.a + s.src64 f .int o.imm o.b) ∧
  goesThrough 0x007 (.lea o) o (takes64 o fun s f =>
    let b := s.src f .int o.imm o.b
    s.src64 f .int o.imm o.a + ((if bitOf o.mod.toNat 3 then b.setWidth 64 else b.signExtend 64) <<< (o.mod.toNat % 8)) + o.imm.signExtend 64)

/-- R217: the bitwise entries of group 0. -/
def Obligations.BitwiseResults : Prop := ∀ o : GOp,
  goesThrough 0x00C (.andb o) o (takes32 .int o fun a b _ => a &&& b) ∧
  goesThrough 0x00D (.orb o) o (takes32 .int o fun a b _ => a ||| b) ∧
  goesThrough 0x00E (.xorb o) o (takes32 .int o fun a b _ => a ^^^ b) ∧
  goesThrough 0x00F (.andn o) o (takes32 .int o fun a b _ => a &&& ~~~b) ∧
  goesThrough 0x010 (.notb o) o (takes32 .int o fun a _ _ => ~~~a) ∧
  goesThrough 0x017 (.popc o) o (takes32 .int o fun a _ _ =>
    BitVec.ofNat 32 ((List.range 32).countP fun i => a.getLsbD i)) ∧
  goesThrough 0x018 (.clz o) o (takes32 .int o fun a _ _ =>
    BitVec.ofNat 32 ((List.range 32).findIdx fun i => a.getLsbD (31 - i))) ∧
  goesThrough 0x019 (.brev o) o (takes32 .int o fun a _ _ => a.reverse)

/-- R218: shifts take all 32 bits of B; the funnel shift takes C[4:0]. -/
def Obligations.ShiftResults : Prop := ∀ o : GOp,
  goesThrough 0x011 (.shl o) o (takes32 .int o fun a b _ => if 32 ≤ b.toNat then 0 else a <<< b.toNat) ∧
  goesThrough 0x012 (.shr o) o (takes32 .int o fun a b _ => if 32 ≤ b.toNat then 0 else a >>> b.toNat) ∧
  goesThrough 0x013 (.sar o) o (takes32 .int o fun a b _ =>
    if 32 ≤ b.toNat then (if a.msb then 0xFFFFFFFF else 0) else a.sshiftRight b.toNat) ∧
  goesThrough 0x014 (.funshf o) o (takes32 .int o fun a b c =>
    let x : BitVec 64 := b ++ a
    let n := c.toNat % 32
    if bitOf o.mod.toNat 0 then (x <<< n).extractLsb' 32 32 else (x >>> n).extractLsb' 0 32)

/-- R219: BFE takes bits pos to pos + len − 1 of A; BFI replaces bits pos to Min(pos + len, 32) − 1 of B by bits 0 upward of A. -/
def Obligations.BitFieldResults : Prop := ∀ o : GOp,
  goesThrough 0x015 (.bfe o) o (takes32 .int o fun a b _ =>
    let pos := b.toNat % 256
    let len := b.toNat / 256 % 256
    let sx := bitOf o.mod.toNat 0
    let bit (i : Nat) : Bool := if i < 32 then a.getLsbD i else sx && a.getLsbD 31
    BitVec.ofNat 32 (maskOf ((List.range 32).filter fun i =>
      if i < len then bit (pos + i) else sx && decide (len ≠ 0) && bit (pos + len - 1)))) ∧
  goesThrough 0x016 (.bfi o) o (takes32 .int o fun a b c =>
    let pos := c.toNat % 256
    let len := c.toNat / 256 % 256
    BitVec.ofNat 32 (maskOf ((List.range 32).filter fun i =>
      if pos ≤ i ∧ i < min (pos + len) 32 then a.getLsbD (i - pos) else b.getLsbD i)))

/-- R217, R220, R222, R224: compares, selects, moves and the system values that are full when written. -/
def Obligations.MoveAndCompareResults : Prop := ∀ o : GOp,
  goesThrough 0x01A (.isetp o) o (takes32 .int o fun a b _ =>
    let x : Int := if bitOf o.mod.toNat 3 then (a.toNat : Int) else a.toInt
    let y : Int := if bitOf o.mod.toNat 3 then (b.toNat : Int) else b.toInt
    BitVec.ofNat 32 (match o.mod.toNat % 8 with
      | 0 => decide (x = y)
      | 1 => decide (x ≠ y)
      | 2 => decide (x < y)
      | 3 => decide (x ≤ y)
      | 4 => decide (x > y)
      | _ => decide (x ≥ y)).toNat) ∧
  goesThrough 0x01B (.isel o) o (fun s f =>
    f.setDst o.dst (if f.pred (BitVec.ofNat 3 o.mod.toNat) ≠ bitOf o.mod.toNat 3 then s.src f .int o.imm o.a else s.src f .int o.imm o.b)) ∧
  goesThrough 0x01C (.mov o) o (fun s f => if bitOf o.mod.toNat 0 then f.setPair o.dst.num (s.src64 f .int o.imm o.a)
    else f.setDst o.dst (s.src f .int o.imm o.a)) ∧
  goesThrough 0x01D (.movi o) o (takes32 .int o fun _ _ _ => o.imm ++ 0#12) ∧
  (o.imm.toNat % 32 ≠ 13 → o.imm.toNat % 32 ≠ 14 →
    goesThrough 0x01E (.movs o) o (fun s f => if o.imm.toNat % 32 = 9 ∨ o.imm.toNat % 32 = 10
      then f.setPair o.dst.num (s.sysValue f (o.imm.toNat % 32)) else f.setDst o.dst (loWord (s.sysValue f (o.imm.toNat % 32)))))

/-- R225, R224: IDIVQ's quotient and remainder, and MOVS of TIME and CYCLE, mark a pair empty and are on their way.
That TIME and CYCLE are those at issue is the model's choice (log 3). -/
def Obligations.DivisionAndClockFills : Prop := ∀ o : GOp,
  fillsThrough 0x01F (.idivq o) o 2 (fun s f =>
    let a := s.src f .int o.imm o.a
    let b := s.src f .int o.imm o.b
    if b = 0 then [0xFFFFFFFF, a]
    else if bitOf o.mod.toNat 0 then [a / b, a % b]
    else [a.sdiv b, a.srem b]) ∧
  (o.imm.toNat % 32 = 13 → fillsThrough 0x01E (.movs o) o 2 fun s _ => [BitVec.ofNat 32 s.time, BitVec.ofNat 32 (s.time / 2 ^ 32)]) ∧
  (o.imm.toNat % 32 = 14 → fillsThrough 0x01E (.movs o) o 2 fun s _ => [BitVec.ofNat 32 s.cycle, BitVec.ofNat 32 (s.cycle / 2 ^ 32)])

/-! ### Groups 1 and 2 -/

/-- R228: FP32 arithmetic with sign modifiers and rounding mode, FSCALE and FCPYSGN. -/
def Obligations.Fp32Results : Prop := ∀ o : GOp,
  let m := o.mod.toNat
  roundsThrough 0x080 (.fadd o) o (from32 .f32 o fun a b _ =>
    fp32.add (m % 4) (modA m (fp32.decode a)) (modB m (fp32.decode b))) (to32 o) ∧
  roundsThrough 0x081 (.fsub o) o (from32 .f32 o fun a b _ =>
    fp32.add (m % 4) (modA m (fp32.decode a)) (modB m (fp32.decode b)).negate) (to32 o) ∧
  roundsThrough 0x082 (.fmul o) o (from32 .f32 o fun a b _ =>
    fp32.mul (m % 4) (modA m (fp32.decode a)) (modB m (fp32.decode b))) (to32 o) ∧
  roundsThrough 0x083 (.ffma o) o (from32 .f32 o fun a b c =>
    fp32.fma (m % 4) (modA m (fp32.decode a)) (modB m (fp32.decode b)) (modC m (fp32.decode c))) (to32 o) ∧
  roundsThrough 0x08B (.fscale o) o (fun s f =>
    match fp32.decode (s.src f .f32 o.imm o.a).toNat with
    | .nan sig => fp32.nan sig
    | .inf neg => fp32.inf neg
    | .fin neg x e => fp32.roundExact (m % 4) neg x (e + (s.src f .int o.imm o.b).toInt)) (to32 o) ∧
  roundsThrough 0x08C (.fcpysgn o) o (from32 .f32 o fun a b _ =>
    match fp32.decode a with
    | .nan sig => fp32.nan sig
    | _ => ⟨a % 2 ^ 31 + b / 2 ^ 31 * 2 ^ 31, 0⟩) (to32 o) ∧
  roundsThrough 0x08A (.frnd o) o (from32 .f32 o fun a _ _ =>
    match fp32.decode a with
    | .nan sig => fp32.nan sig
    | .inf neg => fp32.inf neg
    | .fin neg x e => ⟨(fp32.roundExact 0 neg (roundUnits (m % 4) neg x e 0).1 0).bits,
        if bitOf m 2 ∧ (roundUnits (m % 4) neg x e 0).2 then flagNX else 0⟩) (to32 o)

/-- R229: minima and maxima order −0.0 below +0.0 and return one operand's bits; FMIN and FMAX give the default NaN on any NaN,
FMINNUM and FMAXNUM only on two; NV only on a signalling NaN. -/
def Obligations.MinimumAndMaximumResults : Prop := ∀ o : GOp,
  let nv (x y : FVal) : Nat := if x.isSig || y.isSig then flagNV else 0
  let pick (isMax : Bool) (a b : Nat) : Nat :=
    if (if isMax then (fp32.decode a).below (fp32.decode b) else (fp32.decode b).below (fp32.decode a)) then b else a
  let strict (isMax : Bool) (a b _c : Nat) : FRes :=
    ⟨if (fp32.decode a).isNan || (fp32.decode b).isNan then fp32.nanBits else pick isMax a b, nv (fp32.decode a) (fp32.decode b)⟩
  let number (isMax : Bool) (a b _c : Nat) : FRes :=
    ⟨if (fp32.decode a).isNan && (fp32.decode b).isNan then fp32.nanBits
      else if (fp32.decode a).isNan then b else if (fp32.decode b).isNan then a else pick isMax a b, nv (fp32.decode a) (fp32.decode b)⟩
  roundsThrough 0x084 (.fmin o) o (from32 .f32 o (strict false)) (to32 o) ∧
  roundsThrough 0x085 (.fmax o) o (from32 .f32 o (strict true)) (to32 o) ∧
  roundsThrough 0x086 (.fminnum o) o (from32 .f32 o (number false)) (to32 o) ∧
  roundsThrough 0x087 (.fmaxnum o) o (from32 .f32 o (number true)) (to32 o)

/-- R230, R231, R235: float compares write a predicate and raise NV as the table says; FCLASS sets one bit and no flag; FSTATW writes
the bits of 0x1F1F under B's mask and answers the former FSTAT, performing no ARITH. -/
def Obligations.CompareClassAndStatusResults : Prop := ∀ o : GOp,
  let cc := o.mod.toNat / 4
  let cond (a b : FVal) : FRes :=
    let unordered := a.isNan || b.isNan
    let holds := match a.cmp b with
      | none => decide (8 ≤ cc)
      | some r => match cc % 8 with
        | 0 => decide (r = Ordering.eq)
        | 1 => decide (r = Ordering.lt)
        | 2 => decide (r ≠ Ordering.gt)
        | 3 => decide (r = Ordering.gt)
        | 4 => decide (r ≠ Ordering.lt)
        | 5 => decide (r ≠ Ordering.eq)
        | 6 => decide (cc < 8)
        | _ => false
    ⟨holds.toNat, if a.isSig || b.isSig || (unordered && decide (cc ∈ [1, 2, 3, 4])) then flagNV else 0⟩
  (cc ≠ 7 → cc ≠ 15 →
    roundsThrough 0x088 (.fsetp o) o (fun s f => cond (fp32.decode (s.src f .f32 o.imm o.a).toNat) (fp32.decode (s.src f .f32 o.imm o.b).toNat))
      (to32 o) ∧
    roundsThrough 0x090 (.dsetp o) o (fun s f => cond (fp64.decode (s.src64 f .f64 o.imm o.a).toNat) (fp64.decode (s.src64 f .f64 o.imm o.b).toNat))
      (to32 o)) ∧
  goesThrough 0x089 (.fclass o) o (fun s f =>
    let cls (fm : FloatFmt) (x : Nat) : Nat := match fm.decode x with
      | .inf true => 0
      | .fin true m _ => if m = 0 then 3 else if m < 2 ^ fm.fb then 2 else 1
      | .fin false m _ => if m = 0 then 4 else if m < 2 ^ fm.fb then 5 else 6
      | .inf false => 7
      | .nan true => 8
      | .nan false => 9
    f.setDst o.dst (1#32 <<< (if bitOf o.mod.toNat 2 then cls fp64 (s.src64 f .f64 o.imm o.a).toNat
      else cls fp32 (s.src f .f32 o.imm o.a).toNat))) ∧
  goesThrough 0x097 (.fstatw o) o (fun s f =>
    let w := s.src f .int o.imm o.b &&& 0x1F1F#32
    ({ f with fstat := (f.fstat &&& ~~~w) ||| (s.src f .int o.imm o.a &&& w) } : Fibre).setDst o.dst f.fstat)

/-- R233: FP64 arithmetic on pairs. R234: packed arithmetic, each 16-bit element alone, flags joined. -/
def Obligations.Fp64AndPackedResults : Prop := ∀ o : GOp,
  let m := o.mod.toNat
  let add (fm : FloatFmt) (a b _c : Nat) : FRes := fm.add (m % 4) (modA m (fm.decode a)) (modB m (fm.decode b))
  let mul (fm : FloatFmt) (a b _c : Nat) : FRes := fm.mul (m % 4) (modA m (fm.decode a)) (modB m (fm.decode b))
  let fma (fm : FloatFmt) (a b c : Nat) : FRes := fm.fma (m % 4) (modA m (fm.decode a)) (modB m (fm.decode b)) (modC m (fm.decode c))
  roundsThrough 0x08D (.dadd o) o (from64 o (add fp64)) (to64 o) ∧
  roundsThrough 0x08E (.dmul o) o (from64 o (mul fp64)) (to64 o) ∧
  roundsThrough 0x08F (.dfma o) o (from64 o (fma fp64)) (to64 o) ∧
  roundsThrough 0x091 (.hadd2 o) o (from32 .pk o (bothHalves (add fp16))) (to32 o) ∧
  roundsThrough 0x092 (.hmul2 o) o (from32 .pk o (bothHalves (mul fp16))) (to32 o) ∧
  roundsThrough 0x093 (.hfma2 o) o (from32 .pk o (bothHalves (fma fp16))) (to32 o) ∧
  roundsThrough 0x094 (.badd2 o) o (from32 .pk o (bothHalves (add bf16))) (to32 o) ∧
  roundsThrough 0x095 (.bmul2 o) o (from32 .pk o (bothHalves (mul bf16))) (to32 o) ∧
  roundsThrough 0x096 (.bfma2 o) o (from32 .pk o (bothHalves (fma bf16))) (to32 o)

/-- R240: every special function completes with its function's value of A, the values being those of `SpecialFunctionValues`.
That the inexact values are computed with 400 fraction bits is the model's (log 17). -/
def Obligations.SpecialFunctionResults : Prop := ∀ o : GOp,
  roundsThrough 0x100 (.rcp o) o (from32 .f32 o fun a _ _ => rcpVal a) (to32 o) ∧
  roundsThrough 0x101 (.rsq o) o (from32 .f32 o fun a _ _ => rsqVal a) (to32 o) ∧
  roundsThrough 0x102 (.sqrt o) o (from32 .f32 o fun a _ _ => sqrtVal a) (to32 o) ∧
  roundsThrough 0x103 (.ex2 o) o (from32 .f32 o fun a _ _ => ex2Val a) (to32 o) ∧
  roundsThrough 0x104 (.lg2 o) o (from32 .f32 o fun a _ _ => lg2Val a) (to32 o) ∧
  roundsThrough 0x105 (.tanh o) o (from32 .f32 o fun a _ _ => tanhVal a) (to32 o) ∧
  roundsThrough 0x106 (.sinpi o) o (from32 .f32 o fun a _ _ => sinpiVal a) (to32 o) ∧
  roundsThrough 0x107 (.cospi o) o (from32 .f32 o fun a _ _ => cospiVal a) (to32 o)

/-- R240's table of special operands, for every 32-bit operand it names: NaNs, zeros, infinities, negative operands, exact powers of
two, overflow and underflow of EX2, saturation of TANH. -/
def Obligations.SpecialFunctionValues : Prop := ∀ a : Nat, a < 2 ^ 32 →
  let sign := a / 2 ^ 31 * 2 ^ 31
  let one := 0x3F800000
  (match fp32.decode a with
  | .nan sig => ∀ r ∈ [rcpVal a, rsqVal a, sqrtVal a, ex2Val a, lg2Val a, tanhVal a, sinpiVal a, cospiVal a],
      r = ⟨0x7FC00000, if sig then flagNV else 0⟩
  | .inf neg => rcpVal a = ⟨sign, 0⟩ ∧ tanhVal a = ⟨sign + one, 0⟩ ∧ sinpiVal a = ⟨0x7FC00000, flagNV⟩ ∧ cospiVal a = ⟨0x7FC00000, flagNV⟩ ∧
      (if neg then rsqVal a = ⟨0x7FC00000, flagNV⟩ ∧ sqrtVal a = ⟨0x7FC00000, flagNV⟩ ∧ ex2Val a = ⟨0, 0⟩ ∧ lg2Val a = ⟨0x7FC00000, flagNV⟩
        else rsqVal a = ⟨0, 0⟩ ∧ sqrtVal a = ⟨0x7F800000, 0⟩ ∧ ex2Val a = ⟨0x7F800000, 0⟩ ∧ lg2Val a = ⟨0x7F800000, 0⟩)
  | .fin neg m e =>
      (m = 0 → rcpVal a = ⟨sign + 0x7F800000, flagDZ⟩ ∧ rsqVal a = ⟨sign + 0x7F800000, flagDZ⟩ ∧ sqrtVal a = ⟨sign, 0⟩ ∧ ex2Val a = ⟨one, 0⟩ ∧
        lg2Val a = ⟨0xFF800000, flagDZ⟩ ∧ tanhVal a = ⟨sign, 0⟩ ∧ sinpiVal a = ⟨sign, 0⟩ ∧ cospiVal a = ⟨one, 0⟩) ∧
      (m ≠ 0 → neg = true → rsqVal a = ⟨0x7FC00000, flagNV⟩ ∧ sqrtVal a = ⟨0x7FC00000, flagNV⟩ ∧ lg2Val a = ⟨0x7FC00000, flagNV⟩) ∧
      (128 ≤ exactVal neg m e → ex2Val a = ⟨0x7F800000, flagOF + flagNX⟩) ∧
      (exactVal neg m e < -150 → ex2Val a = ⟨0, flagUF + flagNX⟩) ∧
      (m ≠ 0 → |exactVal neg m e| ≤ (2 : ℚ) ^ (-128 : Int) → rcpVal a = ⟨sign + 0x7F800000, flagOF + flagNX⟩) ∧
      (9.011 ≤ |exactVal neg m e| → tanhVal a = ⟨sign + one, flagNX⟩))

/-- R170: each rounding mode, wherever the result does not overflow. RZ, RU and RD give the representable value next to the exact one on
their side; RNE gives a nearest one, and of two the one with an even last bit. An exact value that is representable stands, with no flag. -/
def Obligations.RoundingModes : Prop := ∀ fm ∈ [fp32, fp64, fp16, bf16], ∀ (mode : Nat) (neg : Bool) (m : Nat) (e : Int), m ≠ 0 →
  let x := exactVal neg m e
  let r := fm.roundExact mode neg m e
  r.flags &&& flagOF = 0 → mode < 4 →
  ∃ v, fm.holds r.bits v ∧
    ∀ y w, fm.holds y w →
      (w = x → v = x ∧ r.flags = 0) ∧
      (mode = 0 → |v - x| ≤ |w - x| ∧ (|v - x| = |w - x| → w ≠ v → r.bits % 2 = 0)) ∧
      (mode = 1 → |v| ≤ |x| ∧ (|w| ≤ |x| → |w| ≤ |v|)) ∧
      (mode = 2 → x ≤ v ∧ (x ≤ w → v ≤ w)) ∧
      (mode = 3 → v ≤ x ∧ (w ≤ x → w ≤ v))

/-- R236 to R239: FTOI rounds to an integer and clamps to the result's range with NV; ITOF and FCVT round the exact value once. -/
def Obligations.ConversionResults : Prop := ∀ o : GOp,
  let m := o.mod.toNat
  let wide := bitOf m 4
  let lo : Int := if bitOf m 2 then 0 else if wide then -(2 ^ 63) else -(2 ^ 31)
  let hi : Int := if bitOf m 2 then (if wide then 2 ^ 64 - 1 else 2 ^ 32 - 1) else (if wide then 2 ^ 63 - 1 else 2 ^ 31 - 1)
  let bits (x : Int) : Nat := (x % 2 ^ 64).toNat
  let toInteger (v : FVal) : FRes := match v with
    | .nan _ => ⟨0, flagNV⟩
    | .inf neg => ⟨bits (if neg then lo else hi), flagNV⟩
    | .fin neg k e =>
      let u := roundUnits (m % 4) neg k e 0
      let x : Int := if neg then -(u.1 : Int) else u.1
      if hi < x then ⟨bits hi, flagNV⟩ else if x < lo then ⟨bits lo, flagNV⟩ else ⟨bits x, if u.2 then flagNX else 0⟩
  let fmt (c : Nat) : FloatFmt := match c with
    | 0 => fp32
    | 1 => fp64
    | 2 => fp16
    | _ => bf16
  let sc := m / 4 % 4
  let dc := m / 16
  let cv (x : Nat) : FRes := match (fmt sc).decode x with
    | .nan sig => (fmt dc).nan sig
    | .inf neg => (fmt dc).inf neg
    | .fin neg k e => (fmt dc).roundExact (m % 4) neg k e
  let two (a b : FRes) : FRes := ⟨a.bits + 2 ^ 16 * b.bits, a.flags ||| b.flags⟩
  let src (s : State) (f : Fibre) (x : Src) : Nat :=
    if sc = 1 then (s.src64 f .f64 o.imm x).toNat else (s.src f (if sc = 0 then .f32 else .pk) o.imm x).toNat
  roundsThrough 0x108 (.ftoi o) o (fun s f => toInteger (if bitOf m 3 then fp64.decode (s.src64 f .f64 o.imm o.a).toNat
    else fp32.decode (s.src f .f32 o.imm o.a).toNat)) (if wide then to64 o else to32 o) ∧
  roundsThrough 0x109 (.itof o) o (fun s f =>
    let x : Int := if wide then (if bitOf m 2 then ((s.src64 f .int o.imm o.a).toNat : Int) else (s.src64 f .int o.imm o.a).toInt)
      else if bitOf m 2 then ((s.src f .int o.imm o.a).toNat : Int) else (s.src f .int o.imm o.a).toInt
    (if bitOf m 3 then fp64 else fp32).roundExact (m % 4) (decide (x < 0)) x.natAbs 0) (if bitOf m 3 then to64 o else to32 o) ∧
  roundsThrough 0x10A (.fcvt o) o (fun s f =>
    if sc < 2 ∧ 2 ≤ dc then two (cv (src s f o.a)) (cv (src s f o.b))
    else if 2 ≤ sc ∧ dc < 2 then cv (src s f o.a / 2 ^ (16 * (o.imm.toNat % 2)) % 2 ^ 16)
    else if 2 ≤ sc then two (cv (src s f o.a % 2 ^ 16)) (cv (src s f o.a / 2 ^ 16 % 2 ^ 16))
    else cv (src s f o.a)) (if dc = 1 then to64 o else to32 o)

/-! ### Group 3 -/

/-- R247 to R250: SHFL, QSWAP and QBCAST write what the source lane supplies, or the lane's own value where SHFL's source is outside;
with MOD[4] the validity mask is written in the bits of the issuing lanes whose guard passes. -/
def Obligations.LaneExchangeResults : Prop := ∀ o : GOp,
  let m := o.mod.toNat
  let shfl (s : State) (f : Fibre) : Option Nat :=
    let n := (s.src f .int o.imm o.b).toNat
    let w := 4 * 2 ^ (m / 4 % 4)
    let first := f.lane / w * w
    match m % 4 with
    | 0 => some (first + n % w)
    | 1 => if first + n ≤ f.lane then some (f.lane - n) else none
    | 2 => if f.lane + n < first + w then some (f.lane + n) else none
    | _ => some (f.lane ^^^ (n % w))
  let through (op : Nat) (i : Instr) (from_ : State → Fibre → Option Nat) : Prop :=
    crewThrough i o
      (fun s g f => s.clearLane op o f && (match o.a with
          | .v n true => f.full n.toNat
          | _ => true) && !s.supplyPending g o.a ((from_ s f).getD f.lane))
      (fun s g f => f.setDst o.dst (match from_ s f with
        | some l => (s.supply g o.a l).1
        | none => f.reg o.a.num))
      (fun s g => if bitOf m 4 then
          let valid := (g.passing o).filter fun f => match from_ s f with
            | some l => (s.supply g o.a l).2
            | none => false
          s.masked g (o.c.num % 16) ((match s.crew g.run.crew with
            | some c => c.masks.getD (o.c.num % 16) 0
            | none => 0) &&& ~~~(laneMask (g.passing o)) ||| laneMask valid)
        else s)
  through 0x180 (.shfl o) shfl ∧
  through 0x181 (.qswap o) (fun _ f => some (f.lane ^^^ (m % 4 + 1))) ∧
  through 0x182 (.qbcast o) (fun _ f => some (f.lane / 4 * 4 + m % 4))

/-- R251 to R255, R257: every receiving lane gets the same vote, reduction or sum of the contributing lanes (guard passes, no helper);
MATCH gives each lane the mask of its equals; MRD reads a mask, MACT the group. -/
def Obligations.VoteAndReductionResults : Prop := ∀ o : GOp,
  let m := o.mod.toNat
  let con (g : Group) : List Fibre := (g.passing o).filter fun f => !f.helper
  let gives (op : Nat) (i : Instr) (val : State → Group → Fibre → Word) : Prop :=
    crewThrough i o (fun s _ f => s.clearLane op o f) (fun s g f => f.setDst o.dst (val s g f)) (fun s _ => s)
  gives 0x183 (.vote o) (fun _ g _ =>
    let v (f : Fibre) : Bool := f.pred (BitVec.ofNat 3 (m / 4)) ^^ bitOf m 5
    match m % 4 with
    | 0 => if ∀ f ∈ con g, v f then 1 else 0
    | 1 => if ∃ f ∈ con g, v f then 1 else 0
    | _ => laneMask ((con g).filter v)) ∧
  gives 0x184 (.redux o) (fun s g _ =>
    let xs := (con g).map fun f => s.src f .int o.imm o.a
    match m % 8 with
    | 0 => xs.foldl (· + ·) 0
    | 1 => xs.foldl (fun a x => if x.toInt < a.toInt then x else a) 0x7FFFFFFF
    | 2 => xs.foldl (fun a x => if x.toNat < a.toNat then x else a) 0xFFFFFFFF
    | 3 => xs.foldl (fun a x => if a.toInt < x.toInt then x else a) 0x80000000
    | 4 => xs.foldl (fun a x => if a.toNat < x.toNat then x else a) 0
    | 5 => xs.foldl (· &&& ·) 0xFFFFFFFF
    | 6 => xs.foldl (· ||| ·) 0
    | _ => xs.foldl (· ^^^ ·) 0) ∧
  gives 0x186 (.matchl o) (fun s g f =>
    laneMask ((con g).filter fun x => if bitOf m 0 then s.src64 x .int o.imm o.a = s.src64 f .int o.imm o.a
      else s.src x .int o.imm o.a = s.src f .int o.imm o.a)) ∧
  gives 0x18F (.mrd o) (fun s g _ => match s.crew g.run.crew with
    | some c => c.masks.getD (o.imm.toNat % 16) 0
    | none => 0) ∧
  gives 0x191 (.mact o) (fun _ g _ => laneMask g.fs)

/-- R183, R254: FREDUX adds the contributing lanes' values over 32 positions in five butterfly rounds, −0.0 standing for every other
position, each sum rounded RNE; every flag raised by a step is set in each contributing lane. -/
def Obligations.FreduxResult : Prop := ∀ o : GOp,
  let con (g : Group) : List Fibre := (g.passing o).filter fun f => !f.helper
  let start (s : State) (g : Group) : List Nat := (List.range 32).map fun l => match (con g).find? fun f => f.lane == l with
    | some f => (s.src f .f32 o.imm o.a).toNat
    | none => 0x80000000
  let plus (t : List Nat) (d l : Nat) : FRes := fp32.add 0 (fp32.decode (t.getD l 0)) (fp32.decode (t.getD (l ^^^ d) 0))
  let round (x : List Nat × Nat) (d : Nat) : List Nat × Nat :=
    ((List.range 32).map fun l => (plus x.1 d l).bits, (List.range 32).foldl (fun a l => a ||| (plus x.1 d l).flags) x.2)
  let sum (s : State) (g : Group) : List Nat × Nat := [16, 8, 4, 2, 1].foldl round (start s g, 0)
  crewThrough (.fredux o) o (fun s g f => s.clearLane 0x185 o f && (f.helper || decide (f.trapped (sum s g).2 = 0)))
    (fun s g f => (if f.helper then f else f.raise (sum s g).2).setDst o.dst (BitVec.ofNat 32 ((sum s g).1.getD 0 0)))
    (fun s _ => s)

/-- R144, R256 to R258: CFENCE joins the stamps of its participants; the mask instructions write their mask once, when a guard passes,
ANDed with the crew's live mask, and the lanes that wait on it are tested again. -/
def Obligations.CrewFenceAndMaskResults : Prop := ∀ o : GOp,
  let mask (s : State) (g : Group) (i : Nat) : Word := match s.crew g.run.crew with
    | some c => c.masks.getD (o.imm.toNat / 16 ^ i % 16) 0
    | none => 0
  let writes (op : Nat) (i : Instr) (val : State → Group → Word) : Prop :=
    crewThrough i o (fun s _ f => s.clearLane op o f) (fun _ _ f => f)
      (fun s g => if (g.passing o).isEmpty then s else s.masked g (o.imm.toNat % 16) (val s g &&& s.liveMask g))
  crewThrough (.cfence o) o (fun s _ f => !s.unplaced f.key)
    (fun _ g f => ({ f with stamp := maxOf ((g.passing o).map Fibre.stamp) } : Fibre)) (fun s _ => s) ∧
  writes 0x188 (.join o) (fun s g => mask s g 0 ||| laneMask (g.passing o)) ∧
  writes 0x189 (.leave o) (fun s g => mask s g 0 &&& ~~~(laneMask (g.passing o))) ∧
  writes 0x18B (.mand o) (fun s g => mask s g 1 &&& mask s g 2) ∧
  writes 0x18C (.mor o) (fun s g => mask s g 1 ||| mask s g 2) ∧
  writes 0x18D (.mxor o) (fun s g => mask s g 1 ^^^ mask s g 2) ∧
  writes 0x18E (.mnot o) (fun s g => ~~~(mask s g 1)) ∧
  crewThrough (.mwr o) o
    (fun s g f => if (g.passing o).head?.map Fibre.key = some f.key then s.clearLane 0x190 o f
      else decide (s.srcEnc f 0x190 1 o.a = .go)) (fun _ _ f => f)
    (fun s g => match g.passing o with
      | f :: _ => s.masked g (o.imm.toNat % 16) (s.src f .int o.imm o.a &&& s.liveMask g)
      | [] => s)

/-! ### Group 4 -/

/-- R259, R190: a lane whose guard passes and whose condition holds goes to its checked target, every other lane to the next slot. -/
def Obligations.BranchesCompleteAtTheirTargets : Prop :=
  (∀ o : JOp, trailThrough (.bra o)
    (fun s f => !f.guard o.guard || decide (s.preJ f 0x200 o 0 none = .go ∧ s.checkTarget f.ctx (jumpTarget o f.pc) = none))
    (fun s f => f.goesTo (if f.guard o.guard then jumpTarget o f.pc else s.nextSlot f.ctx f.pc))) ∧
  (∀ o : JOp,
    let takes (s : State) (f : Fibre) : Bool :=
      let x := (s.src f .int o.imm o.a).toInt
      match o.mod.toNat % 8 with
      | 0 => decide (x = 0)
      | 1 => decide (x ≠ 0)
      | 2 => decide (x < 0)
      | 3 => decide (x ≥ 0)
      | 4 => decide (x > 0)
      | _ => decide (x ≤ 0)
    trailThrough (.brc o)
      (fun s f => !f.guard o.guard || decide (s.preJ f 0x201 o 1 none = .go ∧ (takes s f = true → s.checkTarget f.ctx (jumpTarget o f.pc) = none)))
      (fun s f => f.goesTo (if f.guard o.guard ∧ takes s f then jumpTarget o f.pc else s.nextSlot f.ctx f.pc))) ∧
  (∀ o : GOp, trailThrough (.brx o)
    (fun s f => !f.guard o.guard || (s.clearLane 0x202 o f && decide (s.checkTarget f.ctx (s.src64 f .int o.imm o.a) = none)))
    (fun s f => f.goesTo (if f.guard o.guard then s.src64 f .int o.imm o.a else s.nextSlot f.ctx f.pc)))

/-- R52, R57, R202: STOP's group awaits the registers it names, as one group; a lane whose bit in WAITM's mask is 1 waits on the mask,
every other lane goes on, and the release is tested. -/
def Obligations.StopAndWaitmComplete : Prop :=
  (∀ (o : SOp) (s : State) (g : Group), s.group = some g → (∀ f ∈ g.fs, f.late = none ∧ f.refs = []) →
    (∀ f ∈ g.fs, f.helper = false → ∀ n ∈ [o.d, o.a, o.b, o.c], ∀ r, n = some r → r.toNat < f.top.f) →
    exec (.stop o) s = .next ((({ s with nextKey := s.nextKey + 1 } : State).putFibres (g.fs.map fun f =>
      { f with pc := s.nextSlot f.ctx f.pc, awaitGrp := s.nextKey,
               awaits := ([o.d, o.a, o.b, o.c].filterMap (·.map BitVec.toNat)).filter fun n => n < f.top.f })).endSentence g [])) ∧
  (∀ (o : GOp) (s : State) (g : Group), s.group = some g → (∀ f ∈ g.fs, f.late = none ∧ f.refs = []) →
    let n := o.imm.toNat % 16
    let waits (f : Fibre) : Bool := f.guard o.guard && (match s.crew g.run.crew with
      | some c => (c.masks.getD n 0).getLsbD f.lane
      | none => false)
    exec (.waitm o) s = .next (((s.putFibres (g.fs.map fun f =>
      { f with pc := s.nextSlot f.ctx f.pc, conds := if waits f then f.conds ++ [Cond.waitm n] else f.conds })).retestWaitm
        g.run.crew n).endSentence g []))

/-- R262, R75, R104: NOP does nothing; HREM takes the frame's handler away; FPIN and FUNPIN set and clear its pin (no helper lane
acts); HINST installs tag, mask, checked entry and delivery registers in the current frame. -/
def Obligations.FrameMarksComplete : Prop :=
  (∀ o : GOp,
    goesThrough 0x207 (.nop o) o (fun _ f => f) ∧
    goesThrough 0x20A (.hrem o) o (fun _ f => if f.helper then f else f.setTop { f.top with handler := false }) ∧
    goesThrough 0x215 (.fpin o) o (fun _ f => if f.helper then f else f.setTop { f.top with pinned := true }) ∧
    goesThrough 0x216 (.funpin o) o (fun _ f => if f.helper then f else f.setTop { f.top with pinned := false })) ∧
  (∀ (o : JOp) (s : State) (g : Group), s.group = some g → g.sound s = true →
    (∀ f ∈ g.acting o.guard, o.dst.num + 4 ≤ f.top.f ∧ s.checkTarget f.ctx (jumpTarget o f.pc) = none) →
    ∃ t, exec (.hinst o) s = .next t ∧ s.groupStep t g fun f => if f.guard o.guard ∧ f.helper = false then
      f.setTop { f.top with
        handler := true, htag := BitVec.ofNat 16 o.imm.toNat, hmask := BitVec.ofNat 16 (o.a.num + 2048 * (o.mod.toNat % 32)),
        hslot := BitVec.ofNat 3 (jumpTarget o f.pc).toNat, hline := BitVec.ofNat 64 ((jumpTarget o f.pc).toNat / 64 * 64),
        hbase := BitVec.ofNat 11 o.dst.num }
      else f)

/-- R260, R261, R263: CALL and CALLX make the callee's frame in each lane, RET returns, EXIT ends the fibre; lanes act in ascending order. -/
def Obligations.CallsReturnsAndExitsComplete : Prop :=
  (∀ o : JOp,
    let n := o.mod.toNat
    let shape := o.dst.num + 1
    ordersThrough (.call o) o.guard
      (fun s f => (s.srcEnc f 0x203 n o.a).andThen fun _ => (callWindow n o.a.num shape).andThen fun _ => f.srcWait 0 n 0 o.a)
      (fun s f => s.callLane f n o.a.num shape (o.imm.toNat % 2 ^ 16) (jumpTarget o f.pc))) ∧
  (∀ o : GOp, ∀ r, gRow 0x204 = some r →
    let n := o.mod.toNat
    let shape := o.dst.num + 1
    ordersThrough (.callx o) o.guard
      (fun s f => (s.litPre f [o.b]).andThen fun _ => (callWindow n o.a.num shape).andThen fun _ => s.preG f 0x204 o r .go)
      (fun s f => s.callLane f n o.a.num shape (o.imm.toNat % 2 ^ 16) (s.src64 f .int o.imm o.b))) ∧
  (∀ (o : GOp) (r : GRow) (s : State) (g : Group) (t : State), gRow 0x205 = some r → s.group = some g →
    (∀ f ∈ g.fs, f.late = none ∧ f.refs = []) →
    let toRoot := g.fs.filter fun f => f.guard o.guard && f.returnsToRoot
    let performed := laneMask (toRoot.filter fun f => !s.dueReclaim f)
    lanesInOrder o.guard
      (fun s f => (s.preG f 0x205 o r .go).andThen fun _ => (s.retPre f o.mod.toNat).andThen fun _ => s.releasesNow f (f.chain.take 1))
      (fun s f =>
        let u := s.retLane f (f.regsFrom o.a.num o.mod.toNat) (laneMask g.fs) performed
        .ok (if toRoot.getLast?.map Fibre.key = some f.key ∧ performed ≠ 0 then { u with frag := u.frag + 1 } else u)) g.fs s = some t →
    exec (.ret o) s = .next (t.endSentence g [])) ∧
  (∀ o : GOp, ordersThrough (.exit o) o.guard (fun s f => s.releasesNow f f.chain) (fun s f => .ok (s.exitLane f)))

/-- R76, R264: PERFORM. Once every acting lane's fills have arrived, each acting lane, in ascending order, has its effect delivered with the
tag, its argument, its own pc and the masks of the lanes that issued and performed, to go on at the next slot; the sentence ends. -/
def Obligations.PerformCompletes : Prop := ∀ (o : GOp) (s : State) (g : Group), s.group = some g → (∀ f ∈ g.fs, f.late = none ∧ f.refs = []) →
  g.helpersFree 0x20B o = true → (∀ f ∈ g.acting o.guard, s.clearLane 0x20B o f = true ∧ s.noFill f.key = true ∧ s.nextNeeds f = none ∧ s.dueReclaim f = false) →
  let tag := BitVec.ofNat 16 (o.c.num + 2048 * (o.mod.toNat % 32))
  let on := s.putFibres (g.fs.map fun f => (if f.helper && f.guard o.guard then zeroOf 0x20B o f else f).goesTo (s.nextSlot f.ctx f.pc))
  let t := (g.acting o.guard).foldl (fun t f =>
    t.deliver f.key (t.record f tag (s.src f .int o.imm o.a) f.pc (laneMask g.fs) (laneMask (g.acting o.guard)) 0) (s.nextSlot f.ctx f.pc)
      g.run.word) on
  exec (.perform o) s = .next (({ t with frag := t.frag + 1 } : State).endSentence g [])

/-- R82, R83, R96, R501: RESUME, DROP and FGET act lane by lane and end the sentence; the fibres that resumed keep the pronouns restored.
The order of RESUME's checks is the model's (log 20). -/
def Obligations.ResumeDropAndFgetComplete : Prop := ∀ o : GOp,
  actsAndEnds 0x20C (.resume o) o
    (fun s f => (s.blockForm o.a f).isNone && (s.nextNeeds f).isNone && (s.performNeeds f.ctx (f.pair o.a)).isNone) (fun s f =>
    s.resumeLane f.key (f.pair o.a) (s.src f .int o.imm o.b) (s.nextSlot f.ctx f.pc) (match o.dst with
      | .v n => some n.toNat
      | _ => none)) ∧
  actsAndEnds 0x20D (.drop o) o (fun s f => (s.blockForm o.a f).isNone) (fun s f =>
    match s.dropLane f.key (f.pair o.a) with
    | (t, none) => (t.modFibre f.key fun x => { x with pc := s.nextSlot f.ctx f.pc }, none)
    | r => r) ∧
  actsAndEnds 0x210 (.fget o) o (fun s f => (s.cellForm f.ctx (f.pair o.a)).isNone) (fun s f => s.fgetLane o f)

/-- R95, R97, R501: SPAWN loads each lane's 64-byte record and files its task; FPARK parks each lane's continuation; lanes act in
ascending order, and when all do well the sentence goes on.
Which cell and segment are taken first is the model's where the spec gives no order (log 28). -/
def Obligations.SpawnAndFparkComplete : Prop :=
  (∀ (o : JOp) (s : State) (g : Group) (plan : Fibre → MemLane) (t : State), s.group = some g →
    g.run.done = [] → g.run.wait = .none → g.run.nth = 0 →
    (∀ f ∈ g.acting o.guard, s.preJ f 0x20F o 2 (some (o.dst.num, 2)) = .go ∧ s.spawnCheck o f = .ok (plan f) ∧
      s.mustWait f (plan f).spots = false ∧ (plan f).spots.any Spot.isPeer = false) →
    (∀ f ∈ g.fs, helperHolds o.guard (fun f => f.spawned o 0 false) f = false) →
    accessesInOrder noFar (fun t m => match t.fibre m.key with
        | none => some t
        | some f =>
          let r := t.loadSpots (t.who f) (f.agent 0) m.spots
          if r.err then some (r.s.stopFor f.ctx)
          else match (r.s.setStamp f.key r.ts).fibre f.key with
            | none => some r.s
            | some f => match (r.s.setStamp f.key r.ts).spawnLane o f (wordsOf r.data) with
              | (u, none) => some u
              | (_, some _) => none) ((g.acting o.guard).map plan) false
      (s.putFibres ((g.fs.filter fun f => f.helper && f.guard o.guard).map fun f => f.spawned o 0 false)) = some t →
    t.actedFaults g = [] →
    exec (.spawn o) s = .next (t.goOn g)) ∧
  (∀ (o : GOp) (s : State) (g : Group) (x : State × List Nat), s.group = some g →
    (∀ f ∈ g.acting o.guard, s.clearLane 0x211 o f = true ∧ s.unplaced f.key = false ∧ s.blockForm o.a f = none ∧
      (f.pair o.b = 0 ∨ s.cellForm f.ctx (f.pair o.b) = none)) → g.helpersFree 0x211 o = true →
    allActWell (fun t f => t.fparkLane o f) (g.acting o.guard)
      (s.putFibres ((g.fs.filter fun f => f.helper && f.guard o.guard).map (zeroOf 0x211 o)), []) = some x →
    exec (.fpark o) s = .next (x.1.goOn g))

/-- R81, R100, R101, R107, R264, R269, R270: the reference instructions change REACH and owned lists lane by lane, and FCANCEL cancels the fibre's
launch, behind an access of its lane that is not yet placed; CSTAT writes the state code of the block its handle names (a stale handle reads CONSUMED, a helper lane 0), each acting lane's read
being one access; the sentence goes on. -/
def Obligations.ReferencesCancelAndCstatComplete : Prop := ∀ (o : GOp) (s : State) (g : Group), s.group = some g →
  let refs (op : Nat) (i : Instr) (needs : Bool) (code : Nat) : Prop :=
    (∀ f ∈ g.acting o.guard, s.clearLane op o f = true ∧ s.cellForm f.ctx (f.pair o.a) = none) →
    ∀ x, allActWell (fun t f => match t.refLane f code (f.pair o.a) g.run.word needs with
        | .ok t => (t, none)
        | .error x => (t, some x)) (g.acting o.guard) (s, []) = some x →
      exec i s = .next (x.1.goOn g)
  refs 0x212 (.fref o) (bitOf o.mod.toNat 0) 0 ∧
  refs 0x213 (.funref o) false 1 ∧
  refs 0x214 (.fxfer o) (decide (o.mod.toNat % 4 = 2)) (o.mod.toNat % 4 + 2) ∧
  ((∀ f ∈ g.passing o, s.clearLane 0x217 o f = true) →
    exec (.fcancel o) s = .next (((g.acting o.guard).foldl (fun t f =>
      if t.unplaced f.key then t.modFibre f.key fun x => { x with refs := x.refs ++ [⟨cancelOp, 0, none, 0, f.pc⟩] }
      else match t.fibre f.key with
        | some x => (t.stampAccess f.key).cancel x.ctx x.launch
        | none => t) (s.putFibres g.fs)).goOn g)) ∧
  ((∀ f ∈ g.acting o.guard, s.clearLane 0x20E o f = true ∧ s.unplaced f.key = false ∧ s.blockForm o.a f = none) →
    g.helpersFree 0x20E o = true →
  let t := s.putFibres (g.fs.map fun f => if f.guard o.guard then
      f.setDst o.dst (if f.helper then 0 else s.cstatVal f.ctx (f.pair o.a)) else f)
  exec (.cstat o) s = .next (((g.acting o.guard).foldl (fun t f =>
    (t.blockWordErr f.ctx (handleAddr (f.pair o.a))).2.heapAccess f.key (handleAddr (f.pair o.a)) false) t).goOn g))

/-! ### Groups 5 and 6 -/

/-- R115, R147, R277, R280: LD and LDC. Once every lane has passed its checks, the loads are made in ascending lane order, those of the lane's page
walks first; the registers of the frame that issued a lane's load take its values, being empty till then, or stay empty when the read is uncorrectable
and the context is to stop. -/
def Obligations.LoadsComplete : Prop := ∀ o : GOp,
  let load (op : Nat) (host : MemLane → Bool) (vals : List Byte → List Word) (_ : List MemLane) (s : State) (m : MemLane) : Option State :=
    s.onFibre m fun f =>
      let r := s.loadSpots (s.who f) (f.agent 0) m.spots
      if r.err then (if f.top.addr = m.frame then (r.s.stopFor f.ctx).emptyFor f.key m.reg m.cnt else r.s.stopFor f.ctx)
      else (r.s.setStamp f.key r.ts).fillInto f.key m.frame op m.reg (vals r.data) (host m)
  accessesThrough 0x280 (.ld o) o false (fun s f => ldCheck s o f) (fun _ => True) noFar
    (load 0x280 (fun m => anyLoc2 m.spots) (loadWords (widthBytes o.mod) (bitOf o.mod.toNat 3))) (fun s _ _ => s) ∧
  accessesThrough 0x284 (.ldc o) o false (fun s f => ldcCheck s o f) (fun _ => True) noFar
    (load 0x284 (fun _ => false) wordsOf) (fun s _ _ => s)

/-- R281 to R284: ST. No block of a view is supplied in part; then the stores are made in ascending lane order, each after the loads of its page
walks, and a store that rounds stochastically steps its port's generator. In a device whose lines are all calm no walk fails, and the stores are made.
The alignment and the number of the registers are the model's reading (log 26). -/
def Obligations.StoresComplete : Prop := ∀ o : GOp,
  let whole (ms : List MemLane) : Prop := ∀ e ∈ sxElems ms, sxWhole (sxBlock (sxElems ms) e.home) = true
  accessesThrough 0x281 (.st o) o true (fun s f => stCheck s o f) whole noFar (fun ms s m => stPerform o s ms m none) (stAfter o) ∧
  (∀ (s : State) (g : Group) (m : Fibre → MemLane), g.reaches s 0x281 o true (fun s f => stCheck s o f) m → s.calm = true →
    let ms := (g.reaching o.guard true).map m
    whole ms → ∃ t, accessesInOrder noFar (fun s x => stPerform o s ms x none) ms false
        (s.putFibres ((g.fs.filter fun f => f.guard o.guard && f.helper).map (zeroOf 0x281 o))) = some t ∧
      exec (.st o) s = .next ((stAfter o t g ms).goOn g))

/-- R281, R282: a store fills the bytes it names and no others: every byte of memory outside them reads as before, when no access log
watches and no line is in an update state or holds an error. -/
def Obligations.StoresFillOnlyTheirBytes : Prop := ∀ (o : GOp) (s : State) (g : Group) (m : Fibre → MemLane),
  g.reaches s 0x281 o true (fun s f => stCheck s o f) m → g.sound s = true → s.calm = true →
  (∀ f ∈ g.reaching o.guard true, s.plain (m f) = true ∧ s.unwatched f.ctx = true) →
  (∀ e ∈ sxElems ((g.reaching o.guard true).map m), sxWhole (sxBlock (sxElems ((g.reaching o.guard true).map m)) e.home) = true) →
  ∃ t, exec (.st o) s = .next t ∧
    ∀ q : PA, (∀ f ∈ g.reaching o.guard true, (m f).fills q = false) → t.rawByte q = s.rawByte q

/-- R137, R277: one lane's load from a line that no first-level cache holds reads the bytes of memory at its address, extended as its
width says, and leaves every byte of memory. -/
def Obligations.LoadReadsMemory : Prop := ∀ (o : GOp) (s : State) (g : Group) (f : Fibre) (p : PA) (loc va : Nat) (m : MemLane),
  g.reaches s 0x280 o false (fun s f => ldCheck s o f) (fun _ => m) → g.fs = [f] → f.guard o.guard = true → s.fibre f.key = some f →
  m.spots = [⟨.mem p loc, va, widthBytes o.mod⟩] → s.calm = true → s.plain m = true → s.unwatched f.ctx = true →
  (s.lineOf p.line).copies = [] →
  ∃ t, exec (.ld o) s = .next t ∧
    t.fills = s.fills ++ [{ fibre := f.key, frame := f.top.addr, reg := o.dst.num, n := max 1 (widthBytes o.mod / 4),
                            vals := loadWords (widthBytes o.mod) (bitOf o.mod.toNat 3) (s.rawRead p (widthBytes o.mod)), producer := 0x280, loc2 := loc == 2 }] ∧
    ∀ q, t.rawByte q = s.rawByte q

/-- R281: one lane's store of registers fills its bytes with them, the least significant byte of the lowest register first. -/
def Obligations.StoreWritesItsRegisters : Prop := ∀ (o : GOp) (s : State) (g : Group) (f : Fibre) (p : PA) (loc va : Nat) (m : MemLane),
  g.reaches s 0x281 o true (fun s f => stCheck s o f) (fun _ => m) → g.fs = [f] → f.guard o.guard = true → f.helper = false →
  s.fibre f.key = some f → stFmt o.c = 0 → m.spots = [⟨.mem p loc, va, widthBytes o.mod⟩] → p.a % 128 + widthBytes o.mod ≤ 128 →
  s.calm = true → s.plain m = true → s.unwatched f.ctx = true →
  ∃ t, exec (.st o) s = .next t ∧ t.rawRead p (widthBytes o.mod) =
    (bytesOfWords (s.stWords f o (max 1 (widthBytes o.mod / 4)))).take (widthBytes o.mod)

/-- R279: LD and ST in the frame-relative form take their bytes from, and leave them in, the lane's own frame; no other memory changes. -/
def Obligations.FrameRelativeAccessesComplete : Prop := ∀ o : GOp,
  let n := widthBytes o.mod
  groupThrough (.ldFrame o) o (fun s _ f => s.clearLane 0x282 o f && (frameFault f.top o.imm.toNat n).isNone) (fun _ _ f => f)
    (fun _ g t => (g.passing o).foldl (fun t f =>
      (t.segTouch f.ctx f.core (f.top.local o.imm.toNat).toNat).fillFor f.key 0x282 o.dst.num
        (loadWords n (bitOf o.mod.toNat 3) (f.top.bytes o.imm.toNat n))) t) ∧
  groupThrough (.stFrame o) o (fun s _ f => f.helper || s.clearLane 0x283 o f && (frameFault f.top o.imm.toNat n).isNone)
    (fun s g f => if f.helper then f else f.setTop (f.top.setBytes o.imm.toNat
      (stBytes o (stFmt o.c) (s.gen f.ctx g.core g.p).toNat f.lane (s.stWords f o (stRegs o.mod (stFmt o.c))))))
    (fun _ g t =>
      let t := (g.acting o.guard).foldl (fun t f => t.segTouch f.ctx f.core (f.top.local o.imm.toNat).toNat) t
      match g.acting o.guard with
      | f :: _ => if stRnd o.c = 2 ∧ 2 ≤ stFmt o.c then t.setGen f.ctx g.core g.p (genStep (t.gen f.ctx g.core g.p)) else t
      | [] => t)

/-- R154, R155, R276, R285 to R288, R466: the read-modify-writes. Each lane's is made where R154 has it made: at host memory, at its core when
that holds the line, otherwise by a request that enters the queue of the home's banker; none is made here behind one that went to a banker.
When a far one is performed is the model's deduction (log 23). -/
def Obligations.ReadModifyWritesComplete : Prop := ∀ o : GOp,
  let none? (_ : List MemLane) : Prop := True
  let atomics (op : Nat) (i : Instr) (rmw : State → Fibre → Rmw) : Prop :=
    accessesThrough op i o true (fun s f => rmwCheck s o.dst (rmw s f) (effAddr f o) f) none? atomFar
      (fun _ s m => atomPerform op i s m none) (fun s _ _ => s)
  atomics 0x285 (.atom o) (fun s f => atomOf s o false f) ∧
  atomics 0x286 (.atom64 o) (fun s f => atomOf s o true f) ∧
  atomics 0x287 (.cas2 o) (fun _ f => .cas2 (f.quad o.b) (f.quad o.c)) ∧
  accessesThrough 0x288 (.red o) o true (fun s f =>
      let tag := BitVec.ofNat 4 o.mod.toNat
      rmwCheck s o.dst (.red tag (if tag = 1 then s.src64 f .int o.imm o.b else (s.src f .int o.imm o.b).setWidth 64)) (effAddr f o) f) none?
    (fun s m => match s.fibre m.key, m.acc, firstPlace m.spots with
      | some f, .rmw (.red tag _), .mem p loc => loc == 0 && s.redFar f p tag
      | _, _, _ => false)
    (fun _ s m => redPerform o s m none) (fun s _ _ => s) ∧
  (∀ (s u : State) (g : Group) (m : Fibre → MemLane) (t : State), (s.noteXop o).checkXop o = .inr u →
    g.reaches u 0x30B o true (fun s f => atomxCheck s o f) m →
    accessesInOrder (fun _ x => match firstPlace x.spots with
        | .mem _ _ => true
        | _ => false) (fun s x => match s.fibre x.key, x.acc, firstPlace x.spots with
        | some f, .rmw r, .mem p _ => s.goFar (.atomx o) f x p r
        | _, _, _ => some s) ((g.reaching o.guard true).map m) false
      (u.putFibres ((g.fs.filter fun f => f.guard o.guard && (f.helper && true)).map (zeroOf 0x30B o))) = some t →
    exec (.atomx o) s = .next (t.goOn g))

/-- R154, R285: a 32-bit atomic of one lane whose core holds the line: memory takes the operation's result on what it held and the
lane's operands, the destination what it held, and every other byte of memory stays.
Which core holds a line is the model's deduction (log 23). -/
def Obligations.NearAtomicResult : Prop := ∀ (o : GOp) (s : State) (g : Group) (f : Fibre) (p : PA) (va : Nat) (m : MemLane) (r : BitVec 5),
  g.reaches s 0x285 o true (fun s f => rmwCheck s o.dst (atomOf s o false f) (effAddr f o) f) (fun _ => m) → g.fs = [f] →
  f.guard o.guard = true → f.helper = false → s.fibre f.key = some f → m.spots = [⟨.mem p 0, va, 4⟩] → p.a % 4 = 0 →
  s.calm = true → s.plain m = true → s.unwatched f.ctx = true → (s.lineOf p.line).excl = some f.core → o.dst = .v (r.setWidth _) →
  let old := ofBytes (s.rawRead p 4)
  let b := (s.src f .int o.imm o.b).toNat
  let c := (s.src f .int o.imm o.c).toNat
  let i (x : Nat) : Int := (BitVec.ofNat 32 x).toInt
  let new : Nat := match o.mod.toNat % 8 with
    | 0 => (old + b) % 2 ^ 32
    | 1 => if bitOf o.mod.toNat 3 then min old b else if i b < i old then b else old
    | 2 => if bitOf o.mod.toNat 3 then max old b else if i old < i b then b else old
    | 3 => old &&& b
    | 4 => old ||| b
    | 5 => old ^^^ b
    | 6 => b
    | _ => if old = b then c else old
  ∃ t, exec (.atom o) s = .next t ∧ ofBytes (t.rawRead p 4) = new ∧
    t.fills = s.fills ++ [{ fibre := f.key, frame := f.top.addr, reg := r.toNat, n := 1, vals := [BitVec.ofNat 32 old], producer := 0x285, loc2 := false }] ∧
    ∀ q : PA, q.among p 4 = false → t.rawByte q = s.rawByte q

/-- R57, R130, R149, R290, R292, R307 to R309: WPWAIT and TIMEW give the fibre its condition, SRDCNT delivers the core's counter for the
context, SCRUBQ writes the core's scrub status. FENCE.SYS with no access on its way is one access of each lane when no lane has stores to
host memory outstanding; otherwise the port waits for their zero-length reads. MOVSW of a privileged launch joins the stamp, appends a trace
entry, or sets the port's generator (0 written as 1).
When the counters rise is the model's deduction (log 37). -/
def Obligations.SystemInstructionsComplete : Prop := ∀ o : GOp,
  goesThrough 0x28E (.wpwait o) o (fun s f => { f with conds := f.conds ++ [Cond.wptr (o.imm.toNat % 16) (f.pair o.a) (s.origin f)] }) ∧
  goesThrough 0x307 (.timew o) o (fun _ f => { f with conds := f.conds ++ [Cond.time (f.pair o.a).toNat] }) ∧
  fillsThrough 0x308 (.srdcnt o) o 2 (fun s f =>
    let c := (s.cc f.ctx f.core).counts.getD (o.imm.toNat % 8) 0
    [BitVec.ofNat 32 c, BitVec.ofNat 32 (c / 2 ^ 32)]) ∧
  goesThrough 0x30A (.scrubq o) o (fun s f => f.setDst o.dst (s.scrubWord f.core)) ∧
  (∀ (s : State) (g : Group), s.group = some g →
  (∀ f ∈ g.passing o, s.unplaced f.key = false ∧ (s.fills.any fun x => x.fibre == f.key && x.loc2) = false) →
  exec (.fenceSys o) s = .next (if (g.passing o).all (fun f => f.loc2 == 0) then ((g.passing o).foldl (fun t f => t.stampAccess f.key) s).goOn g
    else s.putPort g.core g.p { g.run with wait := .fence (((g.passing o).filter fun f => decide (0 < f.loc2)).map Fibre.key) })) ∧
  (let sel := o.imm.toNat % 32
  groupThrough (.movsw o) o (fun s _ f => s.clearLane 0x309 o f && decide (s.privFault f = .go))
    (fun s _ f => if sel = 10 then { f with stamp := max f.stamp (s.src64 f .int o.imm o.a).toNat } else f)
    (fun s g t => (g.passing o).foldl (fun t f =>
      let x := s.src f .int o.imm o.a
      if sel = 16 then (if f.helper then t else t.traceWrite f x)
      else if sel = 17 then t.setGen f.ctx g.core g.p (if x = 0 then 1 else x) else t) t))

/-- R123, R124, R130, R137: FIFOW appends every lane's bytes when all fit, after the bank's earlier FIFOWs and the FIFORs whose bytes it overwrites;
FIFOR reserves every lane's bytes, each in ascending lane order and
each one access; WPTR delivers the channel's write pointer and joins the fibre's stamp after the advance it reads. -/
def Obligations.FifosAndWritePointersComplete : Prop := ∀ o : GOp,
  let n := 4 * 2 ^ (o.mod.toNat % 4)
  let bank (s : State) (f : Fibre) : Nat := match s.fifoBank f (f.pair o.a) with
    | .ok b => b
    | .error _ => 0
  let usable (op : Nat) (s : State) (f : Fibre) : Bool := s.clearLane op o f && !s.unplaced f.key && (match s.fifoBank f (f.pair o.a) with
    | .ok b => s.changingBank f != some b
    | .error _ => false)
  let acting (g : Group) : List Fibre := (g.passing o).filter fun f => !f.helper
  let room (s : State) (g : Group) : Bool := (acting g).all fun f => s.firstAt g (32 + bank s f) &&
    let q := (s.cc f.ctx f.core).fifo (bank s f)
    decide (q.tail - q.head + n * ((acting g).filter fun x => bank s x == bank s f).length ≤ 65536)
  groupThrough (.fifow o) o (fun s g f => f.helper || usable 0x28A s f && room s g) (fun _ _ f => f)
    (fun s g t => (acting g).foldl (fun t f =>
      let q := (t.cc f.ctx f.core).fifo (bank s f)
      let t := (t.setStamp f.key (max q.stamp q.read)).stampAccess f.key
      let ts := (t.fibre f.key).elim f.stamp Fibre.stamp
      ((t.ringWrite f.ctx f.core (bank s f) q.tail (bytesOfWords (f.regsFrom o.b.num (n / 4)))).putFifo f.ctx f.core (bank s f)
        { q with tail := q.tail + n, stamp := max q.stamp ts }).feed f.ctx f.core (bank s f)) t) ∧
  groupThrough (.fifor o) o (fun s _ f => f.helper || usable 0x28B s f)
    (fun _ _ f => if f.helper then f.setRegs o.dst.num (List.replicate (n / 4) 0) else f)
    (fun s g t => (acting g).foldl (fun t f =>
      let t := t.stampAccess f.key
      let q := (t.cc f.ctx f.core).fifo (bank s f)
      let t := t.emptyFor f.key o.dst.num (n / 4)
      (({ t with fills := t.fills ++ [{ fibre := f.key, frame := f.top.addr, reg := o.dst.num, n := n / 4, vals := [], producer := 0x28B, loc2 := false }] } : State).putFifo
        f.ctx f.core (bank s f) { q with resv := q.resv ++
          [{ start := q.next, len := n, fibre := f.key, frame := f.top.addr, reg := o.dst.num, stamp := f.stamp }] }).feed
        f.ctx f.core (bank s f)) t) ∧
  groupThrough (.wptr o) o (fun s _ f => s.clearLane 0x28D o f && !s.unplaced f.key) (fun _ _ f => f)
    (fun _ g t => (g.passing o).foldl (fun t f =>
      let c := t.chan f.ctx (clusterOf f.core) (o.imm.toNat % 16)
      ((t.setStamp f.key c.ptrStamp).stampAccess f.key).fillFor f.key 0x28D o.dst.num [loWord c.pointer, hiWord c.pointer]) t)

/-- R118 to R120: BANKCFG of crew 0. A bank that has the role already answers 0; a cache way is kept, with the answer 1, when no more than
four are left; a bank in another role takes the new one and the answer is 0; a cache way that may go begins its change, the port waits, and the
answer is 0 once the change is over. -/
def Obligations.BankcfgCompletes : Prop := ∀ (o : GOp) (s : State) (g : Group) (f : Fibre) (r : List Fibre), s.group = some g →
  g.passing o = f :: r → (∀ f ∈ g.passing o, s.clearLane 0x28C o f = true) →
  (∀ c, s.crew g.run.crew = some c → c.isZero = true) →
  let bank := o.imm.toNat % 32
  let role := o.imm.toNat / 32 % 4
  let c := s.cc f.ctx f.core
  let answer (t : State) (v : Word) : State := (t.putFibres ((g.passing o).map fun f => f.setDst o.dst v)).goOn g
  let changed : Bool := match g.run.wait with
    | .role _ => true
    | _ => false
  c.changing = none → s.firstAt g bank = true →
  exec (.bankcfg o) s = .next (
    if changed ∨ c.role bank = role then answer s 0
    else if c.role bank = 0 ∧ c.ways ≤ 4 then answer s 1
    else if c.role bank = 0 then
      ((s.flushWays f.core (· == bank)).putCC f.ctx f.core { c with changing := some (bank, role) }).putPort g.core g.p { g.run with wait := .role bank }
    else answer (s.setRole f.ctx f.core bank role) 0)

/-- R294 to R297, R126, R127, R300: the team instructions. BARINIT sets the barrier's crews, expected arrivals and INIT; BARA and BARAW have
each lane arrive, in ascending order, with the phase as its token; BARW and RWAIT give the fibre its condition; RPOST flips each slot named once. -/
def Obligations.TeamInstructionsComplete : Prop := ∀ o : GOp,
  let n := o.imm.toNat % 16
  let team (s : State) (g : Group) : Option (Nat × Team × Crew) := s.groupTeam g
  let lead (g : Group) : Option Fibre := (g.passing o).head?
  let x (s : State) (g : Group) : Nat := (lead g).elim 0 fun f => (s.src f .int o.imm o.a).toNat
  let mask := o.imm.toNat / 16
  let slot (s : State) (f : Fibre) : Nat := (s.src f .int o.imm o.a).toNat
  let ring := o.mod.toNat % 8
  let inRing (op : Nat) (s : State) (g : Group) (f : Fibre) : Bool := s.clearLane op o f && (match team s g with
    | some (_, t, _) => decide (slot s f < (t.rings.getD ring ⟨0, 0, 0⟩).count)
    | none => false)
  let arrive (op : Nat) (i : Instr) (write : State → Word → Fibre → Fibre) : Prop :=
    ∀ (s u : State) (g : Group) (tk : Nat) (t : Team) (c : Crew), s.group = some g → g.run.done = [] → team s g = some (tk, t, c) →
      (t.bar n).init = true → (t.bar n).crews.getLsbD c.number = true →
      (∀ f ∈ g.passing o, s.clearLane op o f = true ∧ s.unplaced f.key = false) →
      ((g.passing o).map Fibre.key).foldlM (fun v k => match v.fibre k with
        | some f => (v.arriveLane tk n f).map fun y => y.1.modFibre k (write s y.2)
        | none => some v) s = some u →
      exec i s = .next (u.goOn g)
  groupThrough (.barinit o) o (fun s g f =>
      (if (lead g).map Fibre.key = some f.key then s.clearLane 0x300 o f else decide (s.srcEnc f 0x300 1 o.a = .go)) &&
      (match team s g with
        | some (_, t, c) => c.number == 0 && !s.barinitBad t n mask (x s g)
        | none => false)) (fun _ _ f => f)
    (fun s g t => match team t g, lead g with
      | some (tk, tm, _), some _ => t.putTeam tk (tm.putBar n { tm.bar n with
          crews := BitVec.ofNat 16 mask, expect := 32 * popcount mask + x s g, count := 0, broken := false, init := true, flags := [], cur := 0 })
      | _, _ => t) ∧
  arrive 0x301 (.bara o) (fun _ tok f => f.setDst o.dst tok) ∧
  arrive 0x303 (.baraw o) (fun s tok f => { f with conds := f.conds ++ [Cond.bar n tok (s.origin f)] }) ∧
  groupThrough (.barw o) o (fun s g f => s.clearLane 0x302 o f && (team s g).isSome)
    (fun s _ f => { f with conds := f.conds ++ [Cond.bar n (s.src f .int o.imm o.a) (s.origin f)] }) (fun _ _ t => t) ∧
  groupThrough (.rwait o) o (inRing 0x304)
    (fun s _ f => { f with conds := f.conds ++ [Cond.ring ring (slot s f) (bitOf o.mod.toNat 3)] }) (fun _ _ t => t) ∧
  groupThrough (.rpost o) o (fun s g f => inRing 0x305 s g f && !s.unplaced f.key) (fun _ _ f => f)
    (fun s g t => match team t g with
      | some (tk, tm, _) => if (g.passing o).isEmpty then t else
          (t.putTeam tk { tm with
            phases := (((g.passing o).map (slot s)).eraseDups).foldl (fun ps i =>
              if ps.contains (ring, i) then ps.filter (· != (ring, i)) else (ring, i) :: ps) tm.phases
            phaseStamp := max tm.phaseStamp (maxOf ((g.passing o).map Fibre.stamp)) }).judgeAll
      | none => t)


/-! ### Group 7 -/

/-- R318, R319, R328 to R334, R336, R338: the sequencer instructions that act at once: XCLAIM and XREL, XSUB, XUNSUB and XWAITS, XSET, XADDG,
XNOP, XJMP, XLOOP and XSTOP. XBARA arrives at an initialized barrier once for each phase, its loads and drains over, and keeps the phase as
its token; XBARW goes on once the token's phase is past. -/
def Obligations.SequencerControlCompletes : Prop :=
  (∀ slots tiles, seqThrough (.xclaim slots tiles)
    (fun s tk t => !(slots == 0 && tiles == 0) && (bitsSet 16 slots.toNat).all (fun i => (s.slotOf t i).owner.isNone) &&
      (bitsSet 8 tiles.toNat).all (fun i => (s.tileOf t i).owner.isNone) &&
      !s.claimBehind tk t (t.seqr.claimSince.elim s.ticks Prod.fst) slots tiles)
    (fun s tk t =>
      let s := (bitsSet 16 slots.toNat).foldl (fun (s : State) i =>
        s.newSeed.2.putSlot t.ctx t.core i { OpSlot.free with owner := some tk, seed := s.newSeed.1 }) s
      let s := (bitsSet 8 tiles.toNat).foldl (fun (s : State) i =>
        s.newSeed.2.putTile t.ctx t.core i { Tile.free with owner := some tk, seed := s.newSeed.1 }) s
      s.modSeqr tk fun q => { q with claimSince := none })) ∧
  (∀ slots tiles, seqThrough (.xrel slots tiles)
    (fun s tk t => (bitsSet 16 slots.toNat).all (fun i => s.hasSlot tk t i && !s.inSub tk t i) && (bitsSet 8 tiles.toNat).all (s.hasTile tk t) &&
      t.seqr.jobs.all fun j => (bitsSet 16 slots.toNat).all (fun i => !j.usesSlot i) && (bitsSet 8 tiles.toNat).all fun i => !j.usesTile i)
    (fun s _ t => (bitsSet 8 tiles.toNat).foldl (fun s i => s.putTile t.ctx t.core i Tile.free)
      ((bitsSet 16 slots.toNat).foldl (fun s i => s.putSlot t.ctx t.core i OpSlot.free) s))) ∧
  (∀ (fmt : BitVec 4) (st : BitVec 3) (base : BitVec 4) (count window : BitVec 5), seqThrough (.xsub fmt st base count window)
    (fun s tk t => decide (base.toNat + count.toNat ≤ 16) && decide (window.toNat ≤ count.toNat) && (s.subAt tk t st.toNat).isNone &&
      (List.range count.toNat).all fun i => s.hasSlot tk t (base.toNat + i) && !s.inSub tk t (base.toNat + i))
    (fun s tk t => s.newKey.2.putSubs t.ctx (clusterOf t.core) st.toNat fun l => l ++
      [{ id := s.newKey.1, team := tk, fmt := fmt, base := base.toNat, count := count.toNat, window := window.toNat, delivered := 0, retired := 0, current := false }])) ∧
  (∀ st, seqThrough (.xunsub st) (fun s tk t => (s.subAt tk t st.toNat).any fun x => !x.busy t)
    (fun s tk t =>
      let n := (s.subAt tk t st.toNat).elim (0, 0) fun x => (x.base, x.count)
      (List.range n.2).foldl (fun (s : State) i => s.putSlot t.ctx t.core (n.1 + i) { s.slotOf t (n.1 + i) with fmt := none })
        (let k := s.clc t.ctx (clusterOf t.core)
        s.putCLC t.ctx (clusterOf t.core) { k with streams := Tab.set k.streams st.toNat (leaveStream tk (k.stream st.toNat)) }))) ∧
  (∀ st, seqThrough (.xwaits st)
    (fun s tk t => (s.subAt tk t st.toNat).any fun x => !(x.current && x.busy t) && decide (x.retired + x.current.toNat < x.delivered))
    (fun s tk t => s.putSubs t.ctx (clusterOf t.core) st.toNat fun l => l.map fun y => if y.team = tk then
      { y with retired := (s.subAt tk t st.toNat).elim 0 (fun x => x.retired + x.current.toNat), current := true } else y)) ∧
  (∀ (d : BitVec 4) a imm v (s : State) (core n tk : Nat) (t : Team), s.actor = .seqr core n → s.seqTeam core n = some (tk, t) → t.seqr.halt = false →
    s.seqSrc t 0x38D a imm (decide (8 ≤ d.toNat)) = .ok v →
    exec (.xset d a imm) s = .next ((s.modSeqr tk fun q => if d.toNat < 4 then { q with l := setAt q.l d.toNat (v.setWidth 32) }
      else { q with g := setAt q.g (d.toNat - 8) v }).seqNext tk)) ∧
  (∀ (d ga : BitVec 3) b imm v (s : State) (core n tk : Nat) (t : Team), s.actor = .seqr core n → s.seqTeam core n = some (tk, t) →
    t.seqr.halt = false → s.seqSrc t 0x38E b imm true = .ok v →
    exec (.xaddg d ga b imm) s = .next ((s.modSeqr tk fun q => { q with g := setAt q.g d.toNat (q.g.getD ga.toNat 0 + v) }).seqNext tk)) ∧
  seqThrough .xnop (fun _ _ _ => true) (fun s _ _ => s) ∧
  (∀ tslot off, seqJumps (.xjmp tslot off) (fun s _ t => (s.checkTarget t.ctx (t.seqr.target tslot off)).isNone) (fun s _ _ => s)
    (fun _ t => t.seqr.target tslot off)) ∧
  (∀ ctr tslot off, seqThrough (.xloop ctr tslot off) (fun _ _ t => t.seqr.l.getD ctr.toNat 0 == 0) (fun s _ _ => s)) ∧
  (∀ ctr tslot off, seqJumps (.xloop ctr tslot off)
    (fun s _ t => t.seqr.l.getD ctr.toNat 0 != 0 && (s.checkTarget t.ctx (t.seqr.target tslot off)).isNone)
    (fun s tk _ => s.modSeqr tk fun q => { q with l := setAt q.l ctr.toNat (q.l.getD ctr.toNat 0 - 1) }) (fun _ t => t.seqr.target tslot off)) ∧
  seqJumps .xstop (fun _ _ t => !t.seqr.jobs.any SeqJob.isMem)
    (fun s tk t => (s.freeSeqr tk t).modSeqr tk fun q => { q with halt := true, jobs := [] }) (fun _ t => t.seqr.spc) ∧
  (∀ bar : BitVec 4,
  let n := bar.toNat
  seqThrough (.xbara bar)
    (fun _ _ t => !t.seqr.jobs.any SeqJob.isMem && (t.bar n).init && Tab.get t.seqr.xbaraPhase n != some (t.bar n).phase)
    (fun s tk t =>
      let u : State := { s with accesses := s.accesses + 1 }
      (u.modSeqr tk fun q => { q with
        tokens := setAt q.tokens n (t.bar n).phase, xbaraPhase := Tab.set q.xbaraPhase n (t.bar n).phase, sstamp := u.pip q.sstamp }).arriveBar
          tk n t.seqr.sstamp) ∧
  seqThrough (.xbarw bar) (fun _ _ t => (t.bar n).init && phasePast (t.bar n).phase (t.seqr.tokens.getD n 0))
    (fun s tk t => s.modSeqr tk fun q => { q with sstamp := max q.sstamp ((t.bar n).joinOf (t.seqr.tokens.getD n 0)) }))

/-- R322 to R327: XLOAD, its accesses made in order, fills a slot with the bytes they read; XMMA and XMMAZ leave the products in the tile; XDRAIN
stores the converted rows in order; XDRAINA leaves them in a slot; each begins its job. -/
def Obligations.MatrixInstructionsComplete : Prop :=
  let atHome (l : List (List Spot)) : Bool := l.all fun x => x.all fun y => !y.isPeer
  (∀ fmt cols slot ga off gb (s u : State) (core n tk ts : Nat) (t : Team) (l : List (List Spot)) (bytes : List Byte), s.actor = .seqr core n → s.seqTeam core n = some (tk, t) →
    t.seqr.halt = false → s.hasSlot tk t slot.toNat = true → s.inSub tk t slot.toNat = false →
    (∀ j ∈ t.seqr.jobs, j.readsSlot slot.toNat = false ∧ j.usesSlot slot.toNat = false) →
    let a := seqBase t.seqr ga off
    let p := seqPitch t.seqr gb
    let ps := loadPieces fmt.toNat cols a p
    seqAlign a p 2 ps = none → seqPlaces s (t.who tk) false ps [] = .ok l → atHome l = true → t.seqr.mem = none →
    seqRun tk t false (s.modSeqr tk fun q => { q with reqs := [], probed := true }) t.seqr.sstamp 0 l [] none = .all u ts bytes →
    let v := u.modSeqr tk fun q => { q with sstamp := ts }
    exec (.xload fmt cols slot ga off gb) s = .next
      (((v.newSeed.2.putSlot t.ctx t.core slot.toNat
          { owner := some tk, fmt := some fmt, seed := v.newSeed.1, data := tabOf bytes, filling := true }).addJob tk (.xload slot.toNat)).seqNext tk)) ∧
  (∀ (keep : Bool) (tile : BitVec 3) (sa sb : BitVec 4) (fa fb : BitVec 4) (s : State) (core n tk : Nat) (t : Team), s.actor = .seqr core n →
    s.seqTeam core n = some (tk, t) → t.seqr.halt = false →
    s.hasSlot tk t sa.toNat = true → s.hasSlot tk t sb.toNat = true → s.hasTile tk t tile.toNat = true →
    s.subOk tk t sa.toNat = true → s.subOk tk t sb.toNat = true →
    (s.slotOf t sa.toNat).fmt = some fa → (s.slotOf t sb.toNat).fmt = some fb → opK fa.toNat = opK fb.toNat →
    (s.slotOf t sa.toNat).filling = false → (s.slotOf t sb.toNat).filling = false →
    (∀ j ∈ t.seqr.jobs, (j.isDrain && j.usesTile tile.toNat) = false) →
    (∀ x ∈ s.teams, x.2.ctx = t.ctx → x.2.core = t.core → x.2.seqr.jobs.any SeqJob.isMma = false) →
    let d := s.tileOf t tile.toNat
    let word (i : Nat) : Word :=
      let r := i / 64
      let c := i % 64
      BitVec.ofNat 32 (accumulate (if keep then some (d.word r c).toNat else none) ((List.range (opK fa.toNat / 16)).map fun g =>
        (List.range 16).map fun e =>
          ((s.slotOf t sa.toNat).elem fa.toNat r (16 * g + e), (s.slotOf t sb.toNat).elem fb.toNat c (16 * g + e))))
    exec (if keep then .xmma tile sa sb else .xmmaz tile sa sb) s = .next
      (((s.putTile t.ctx t.core tile.toNat { d with data := tabOf ((List.range 4096).map word) }).addJob tk
        (.xmma tile.toNat sa.toNat sb.toNat)).seqNext tk)) ∧
  (∀ (fmt : BitVec 4) rnd sat tile ga off gb (s v : State) (core n tk ts : Nat) (t : Team) (l : List (List Spot)) (rest : List Byte),
    s.actor = .seqr core n → s.seqTeam core n = some (tk, t) → t.seqr.halt = false → s.hasTile tk t tile.toNat = true →
    (∀ j ∈ t.seqr.jobs, (j.isMma && j.usesTile tile.toNat) = false ∧ j.isDrain = false) →
    let a := seqBase t.seqr ga off
    let p := seqPitch t.seqr gb
    let ps := rowPieces a p (drainRow fmt.toNat)
    seqAlign a p 4 ps = none → seqPlaces s (t.who tk) true ps [] = .ok l → atHome l = true → t.seqr.mem = none →
    let g := s.gen t.ctx t.core t.seqNo
    let bytes := (List.range 64).flatMap fun r => rowBytes fmt.toNat rnd.toNat sat g.toNat r ((s.tileOf t tile.toNat).row r)
    let u := if rnd.toNat = 2 ∧ fmt.toNat ≠ 1 then s.setGen t.ctx t.core t.seqNo (genStep g) else s
    seqRun tk t true (u.modSeqr tk fun q => { q with reqs := [], probed := true }) t.seqr.sstamp 0 l bytes none = .all v ts rest →
    exec (.xdrain fmt rnd sat tile ga off gb) s = .next
      (((v.modSeqr tk fun q => { q with sstamp := ts }).addJob tk (.xdrain tile.toNat)).seqNext tk)) ∧
  (∀ (fmt : BitVec 4) (part : BitVec 2) (slot : BitVec 4) (tile : BitVec 3), seqThrough (.xdraina fmt part slot tile)
    (fun s tk t => s.hasSlot tk t slot.toNat && !s.inSub tk t slot.toNat && s.hasTile tk t tile.toNat && decide (part.toNat < opK fmt.toNat / 64) &&
      t.seqr.jobs.all fun j => !(j.isMma && j.usesTile tile.toNat) && !j.isDrain && !j.readsSlot slot.toNat && !j.usesSlot slot.toNat)
    (fun s tk t =>
      let o := s.slotOf t slot.toNat
      let base : OpSlot := if o.fmt = some fmt then o else { o with fmt := some fmt, seed := s.newSeed.1, data := [] }
      let data := (List.range 64).foldl (fun m r => tabWrite m (r * opRow fmt.toNat + part.toNat * drainRow fmt.toNat)
        (rowBytes fmt.toNat 0 false 0 r ((s.tileOf t tile.toNat).row r))) base.data
      (s.newSeed.2.putSlot t.ctx t.core slot.toNat { base with data := data, filling := true }).addJob tk (.xdraina slot.toNat tile.toNat)))

/-! ### Dyzil -/

/-- R346: queue programs: dA takes the value of the table, modulo 2^64, and STS a scratch entry; branches go to pc + k when their condition
on the registers holds; LOOP begins its body with its count. Every instruction counts one step. -/
def Obligations.DyzilProgramsComplete : Prop := ∀ (a b : BitVec 4) (imm : BitVec 16),
  let d (x : Queue) (n : BitVec 4) : DWord := x.d.getD n.toNat 0
  dyzilThrough (.dyzilLdp a imm) (fun x => x.gives a ((x.pkt.getD []).getD imm.toNat 0)) ∧
  dyzilThrough (.dyzilLds a imm) (fun x => x.gives a (x.scratch.getD imm.toNat 0)) ∧
  dyzilThrough (.dyzilSts imm b) (fun x => ({ x with scratch := setAt x.scratch imm.toNat (d x b) } : Queue).movesTo (x.pc + 1)) ∧
  dyzilThrough (.dyzilLdq a imm) (fun x => x.gives a (x.params.getD imm.toNat 0)) ∧
  dyzilThrough (.dyzilMovi a imm) (fun x => x.gives a (BitVec.ofInt 64 imm.toInt)) ∧
  dyzilThrough (.dyzilAdd a b) (fun x => x.gives a (BitVec.ofNat 64 ((d x a).toNat + (d x b).toNat))) ∧
  dyzilThrough (.dyzilAddi a imm) (fun x => x.gives a (BitVec.ofInt 64 ((d x a).toInt + imm.toInt))) ∧
  dyzilThrough (.dyzilSub a b) (fun x => x.gives a (BitVec.ofInt 64 ((d x a).toInt - (d x b).toInt))) ∧
  dyzilThrough (.dyzilAnd a b) (fun x => x.gives a (d x a &&& d x b)) ∧
  dyzilThrough (.dyzilOr a b) (fun x => x.gives a (d x a ||| d x b)) ∧
  (∀ n : BitVec 6, dyzilThrough (.dyzilShl a n) (fun x => x.gives a (BitVec.ofNat 64 ((d x a).toNat * 2 ^ n.toNat)))) ∧
  (∀ n : BitVec 6, dyzilThrough (.dyzilShr a n) (fun x => x.gives a (BitVec.ofNat 64 ((d x a).toNat / 2 ^ n.toNat)))) ∧
  (∀ (pos : BitVec 6) (len : BitVec 7), dyzilThrough (.dyzilExt a b pos len)
    (fun x => x.gives a ((d x b >>> pos.toNat) &&& BitVec.ofNat 64 (2 ^ len.toNat - 1)))) ∧
  (let branch (i : Instr) (holds : Queue → Bool) : Prop := dyzilThrough i fun x => x.movesTo (x.pc + if holds x then imm.toNat else 1)
  branch (.dyzilJmp imm) (fun _ => true) ∧
  branch (.dyzilBeq a b imm) (fun x => d x a == d x b) ∧
  branch (.dyzilBne a b imm) (fun x => d x a != d x b) ∧
  branch (.dyzilBltu a b imm) (fun x => decide ((d x a).toNat < (d x b).toNat)) ∧
  (∀ (c : BitVec 7) (n : BitVec 9), dyzilThrough (.dyzilLoop c n) fun x =>
    { x with pc := x.pc + 1, loop := some (x.pc + 1, x.pc + n.toNat, c.toNat) }))

/-- R348, R351 to R355: the emissions. LAUNCH that can be held reads its bank and queues one unit for each band under a new number; REC
sends its task to the node's dealer; SIGNAL stores at once or defers; WAITV whose condition holds goes on; CANCEL cancels the work
numbered in dA; ERR puts the queue into its error state; DONE consumes the packet and writes RIDX.
The faults of front-end accesses and the number a task gets are the model's (log 18, log 41). -/
def Obligations.DyzilEmissionsComplete : Prop :=
  (∀ a t (s u : State) (q : Nat) (x0 : Queue) (c c' : Ctx) (n ts : Nat) (bs : List Byte), s.runsPacket q x0 →
    let x := x0.stepped
    let l := Launch.ofDesc 0 x.ctx q false (x.grant t.toNat) [] x.args x.stamp
    let e := s.putQueue q x
    e.ctx x.ctx = some c → e.canHold c.d l = true → e.entriesOk l = true → e.freeNumber x.ctx c.nextLaunch = some n →
    e.feRead x.ctx q x.stamp l.cbankAt (4 * l.cwords) = .ok u ts bs → u.ctx x.ctx = some c' →
    let u := u.doneCode q
    let l : Launch := { l with num := n, cbank := wordsOf bs, stamp := ts }
    exec (.dyzilLaunch a t) s = .next
      (({ u.putCtx x.ctx { c' with nextLaunch := if n = 65535 then 16 else n + 1,
                                    order := c'.order ++ (List.range l.bands).map fun b => { launch := n, band := b, since := u.cycle } } with
          launches := u.launches ++ [l] } : State).putQueue q
        (({ x with stamp := ts, launches := x.launches ++ [n] } : Queue).gives a (BitVec.ofNat 64 n)))) ∧
  (∀ t (s : State) (q : Nat) (x0 : Queue) (l : Launch), s.runsPacket q x0 →
    let x := x0.stepped
    let e := (s.putQueue q x).doneCode q
    (s.putQueue q x).launch x.ctx t.toNat = some l → (s.putQueue q x).entriesOk l = true →
    exec (.dyzilRec t) s = .next (if l.cancel then e.putQueue q (x.movesTo (x.pc + 1)) else
      let u := e.newKey.2
      ((u.putLaunch { l with nextCluster := l.nextCluster + 1 }).arrive (l.dealer (u.cdesc x.ctx))
        { id := e.newKey.1, pc := l.entry, ctx := x.ctx, launch := l.num, fid := BitVec.ofNat 32 (Config.fibreId e.newKey.1 % 2 ^ 31),
          stamp := x.stamp, timer := l.gather, f := l.ef, l := l.el, args := x.args, handle := none }).putQueue q
        (({ x with tasks := x.tasks ++ [e.newKey.1] } : Queue).movesTo (x.pc + 1)))) ∧
  (∀ a b (s u : State) (q : Nat) (x0 : Queue) (ts : Nat) (bs : List Byte), s.runsPacket q x0 →
    let x := x0.stepped
    let e := s.putQueue q x
    x.inWindow (x.dreg a) = true → e.feStore x.ctx q x.stamp (x.dreg a) (leBytes 8 (x.dreg b).toNat) true = .ok u ts bs →
    exec (.dyzilSignal a b 0) s = .next (u.modQueue q fun y => ({ x with stamp := ts, woken := y.woken } : Queue).movesTo (x.pc + 1))) ∧
  (∀ a b (m : BitVec 16) (s : State) (q : Nat) (x0 : Queue), s.runsPacket q x0 → m ≠ 0 →
    let x := x0.stepped
    x.inWindow (x.dreg a) = true → x.deferred.length < 64 →
    exec (.dyzilSignal a b m) s = .next (s.putQueue q (({ x with deferred := x.deferred ++
      [{ addr := (x.dreg a).toNat, value := x.dreg b, launches := x.launches, tasks := x.tasks }] } : Queue).movesTo (x.pc + 1)))) ∧
  (∀ a b (cc : BitVec 16) (s u : State) (q : Nat) (x0 : Queue) (ts : Nat) (bs : List Byte) (p : PA), s.runsPacket q x0 →
    let x := x0.stepped
    let e := s.putQueue q x
    let v := x.dreg b
    let w := ofBytes bs
    x.inWindow (x.dreg a) = true → e.feLoad x.ctx q x.stamp (x.dreg a) 8 true = .ok u ts bs → e.fePlace x.ctx (x.dreg a) 8 false true = .ok p →
    (match cc.toNat with
      | 0 => w = v.toNat
      | 1 => w ≠ v.toNat
      | 2 => v.toNat ≤ w
      | _ => w < v.toNat) →
    exec (.dyzilWaitv a b cc) s = .next (u.putQueue q (({ x with stamp := ts } : Queue).movesTo (x.pc + 1)))) ∧
  (∀ a (s : State) (q : Nat) (x0 : Queue), s.runsPacket q x0 →
    let x := x0.stepped
    exec (.dyzilCancel a) s = .next ((s.putQueue q (x.movesTo (x.pc + 1))).cancel x.ctx ((x.dreg a).toNat % 65536))) ∧
  (∀ code (s : State) (q : Nat) (x0 : Queue), s.runsPacket q x0 →
    exec (.dyzilErr code) s = .next ((s.putQueue q x0.stepped).queueError q code.toNat x0.pc 0 0)) ∧
  (∀ (s u : State) (q : Nat) (x0 : Queue) (ts : Nat) (bs : List Byte), s.runsPacket q x0 →
    let x := x0.stepped
    let e := s.putQueue q x
    e.feStore x.ctx q x.stamp (BitVec.ofNat 64 x.status) (leBytes 8 (x.ridx + 1)) false = .ok u ts bs →
    exec .dyzilDone s = .next ((u.modQueue q fun y =>
      { x with stamp := ts, ridx := x.ridx + 1, pkt := none, loop := none, wait := .none, woken := y.woken }).tidyQueue q))

/-! ### Happenings -/

/-- R340 to R349, R353, R487: the happenings of the queue front end. A packet that is there and fresh starts; a wake reads what the entry
watches, ends the wait for a stale slot and restarts a queue in error; a deferred signal that is due is written; a creation that every
check passes leaves the queue running; a destruction begins; a packet's 257th step is the error 0x8001.
What creation does to node numbers, and the stamp of a deferred signal, are the model's choices (log 5, log 18). -/
def Obligations.QueueHappeningsComplete : Prop := ∀ (q : Nat) (s : State) (x : Queue), q < 256 →
  let word (a : Nat) : DWord := BitVec.ofNat 64 a
  (∀ (u v : State) (ts ts' : Nat) (bs bs' : List Byte) (p : PA), s.queue q = some x → s.nextQueue = some q → s.queueReady q x = true →
    s.feLoad x.ctx q x.stamp (word x.widx) 8 false = .ok u ts bs → x.ridx < ofBytes bs →
    let u := u.modQueue q fun y => { y with stamp := ts }
    u.feLoad x.ctx q ts (x.slotAddr x.ridx) 64 false = .ok v ts' bs' → u.fePlace x.ctx (x.slotAddr x.ridx) 64 false false = .ok p →
    x.fresh x.ridx (ofBytes (bs'.take 8)) = true →
    exec (.packetStart q) s = .next (({ v with lastQueue := q } : State).modQueue q fun y =>
      { y with stamp := ts', pkt := some (dwordsOf bs'), d := List.replicate 16 0, pc := 0, steps := 0, loop := none })) ∧
  (s.queue q = some x → x.woken = true → s.mgmt.ckpt = false → s.wakeWaits q x = false →
    let y := { x with woken := false }
    let e := s.putQueue q y
    (∀ u ts bs, (s.qreg q).state ≠ 2 → x.wait = .none → x.pkt = none → e.feLoad x.ctx q x.stamp (word x.widx) 8 false = .ok u ts bs →
      exec (.monitorWake q) s = .next (u.putQueue q { y with stamp := ts })) ∧
    (∀ u ts bs, (s.qreg q).state ≠ 2 → x.wait = .stale → e.feLoad x.ctx q x.stamp (x.slotAddr x.ridx) 64 false = .ok u ts bs →
      x.fresh x.ridx (ofBytes (bs.take 8)) = true →
      exec (.monitorWake q) s = .next (u.putQueue q { y with stamp := ts, wait := .none, watch := x.watch.take 1 })) ∧
    (∀ u ts bs p, (s.qreg q).state = 2 → x.errorInfo = none → e.feLoad x.ctx q x.stamp (word x.status + 16) 16 false = .ok u ts bs →
      e.fePlace x.ctx (word x.status) 8 true false = .ok p → bitOf (ofBytes (bs.drop 8)) 0 = true →
      exec (.monitorWake q) s = .next (u.queueRestart q y ts (ofBytes (bs.take 8)) p))) ∧
  (∀ d r u ts bs, s.queue q = some x → x.deferred = d :: r → s.deferredDue q x = true →
    (s.putQueue q { x with deferred := r }).feStore x.ctx q (max x.stamp s.afterAll) (word d.addr) (leBytes 8 d.value.toNat) true = .ok u ts bs →
    exec (.deferredSignalWrite q) s = .next ((u.modQueue q fun y => { y with stamp := ts }).tidyQueue q)) ∧
  (∀ mgmt u nodes, s.queue q = none → ((s.qreg q).create = false ∨ s.fromInbox = true) → s.mgmt.booted = true → s.mgmt.recovery = false →
    s.buildQueue q mgmt = (u, .ok (x, nodes)) →
    let u := u.doneIn.doneCode q
    exec (.queueCreate q mgmt) s = .next
      ((({ u with launches := u.launches.filter (fun y => !(y.ctx == x.ctx && nodes.any fun n => n.num == y.num)) ++ nodes } : State).putQueue
        q x).putQreg q { u.qreg q with create := false, state := 1, ecode := 0, epc := 0, report := 0 })) ∧
  (s.queue q = some x → exec (.queueDestroy q) s = .next
    (((s.putQueue q (if x.pkt.isNone then { x with stopping := true, wait := .none, watch := x.watch.take 1 } else { x with stopping := true })).putQreg
      q { s.qreg q with state := 3, ecode := 0, epc := 0, destroy := true }).tidyQueue q)) ∧
  (s.queue q = some x → x.pkt.isSome = true → x.steps = 256 → x.wait = .none →
    exec (.dyzilBudget q) s = .next (s.queueError q 0x8001 x.pc 0 0))

/-- R35, R38 to R40, R43 to R45, R351, R499: the dealers, placement and choice. The first waiting task whose segments can be taken is filed; a
bin whose timer has run out is formed; a crew that fits, and a team unit that fits, are placed whole; a free port takes the group chosen;
a crew that stood ready for 512 cycles is promoted.
The shape of helper lanes and the moments that order placement are the model's (log 19, log 59). -/
def Obligations.PlacementHappeningsComplete : Prop := ∀ (s : State) (cl : Nat), cl < 8 →
  (∀ (id : Nat) (u : State) (t : Task), ((s.cluster cl).waiting.findSome? fun w => (s.submitted w).map fun r => (w.id, r)) = some (id, u, t) →
    exec (.taskSubmit cl) s = .next
      ((u.putCluster cl { s.cluster cl with waiting := removeFirst (fun w => w.id == id) (s.cluster cl).waiting }).fileTask cl t)) ∧
  (∀ pc ctx b, (s.cluster cl).bins.find? (fun b => b.pc == pc && b.ctx == ctx) = some b → b.start + b.timer ≤ s.cycle →
    exec (.gatherTimerLapse cl pc ctx) s = .next (s.putCluster cl { (s.cluster cl).form s.cycle b.tasks with
      bins := (s.cluster cl).bins.filter fun x => !(x.pc == pc && x.ctx == ctx) })) ∧
  (∀ rank f core segs h, s.crewFit cl = some (rank, f, core) → s.teamFirst f.ctx cl f.since = false → s.helperSegs f = some (segs, h) →
    f.tasks.findSome? s.resumeNeeds = none →
    let c := s.cluster cl
    let e := ((s.putCluster cl { c with placement := c.placement.take rank ++ c.placement.drop (rank + 1) }).putHeap f.ctx h).placedOn f.ctx core
    let ck := e.newKey.1
    let e := e.newKey.2
    let l := e.launchOr f.ctx f.launch
    let p := e.placeTasks ck core f.tasks 0 []
    let r := p.1.placeLanes l (some 0xFFFFFFFF) ck core (f.shape l).1 (f.shape l).2 (List.replicate 16 0) (maxOf (f.tasks.map Task.stamp))
      ((f.tasks.head?.map Task.pc).getD 0) (helpersOf f.tasks.length) f.tasks.length segs []
    let lanes := (p.2 ++ r.2.1).map some
    exec (.placeCrew cl) s = .next (((f.tasks.zip p.2).foldl (fun s x => match x.1.body with
        | .resume k b _ => s.dealerResume x.2 k b
        | .fresh _ _ _ _ _ => s)
      (r.1.putCrew ck (Crew.fresh f.ctx f.launch core ((e.freeSlots core).headD 0) (lanes ++ List.replicate (32 - lanes.length) none) none 0 0 r.1.cycle))).doneCode (256 + cl))) ∧
  (∀ ctx u k cores segs h c, s.teamFit ctx = some (u, k, cores, segs, h) → s.ctx ctx = some c →
    (∀ rank f core, s.crewFit k = some (rank, f, core) → f.ctx = ctx → u.since < f.since) →
    let e := s.putCtx ctx { c with heap := h, order := c.order.drop 1 }
    exec (.placeTeam ctx) s = .next (e.placeTeams (e.launchOr ctx u.launch) u cores 0 segs)) ∧
  (∀ core port k c g, core < 384 → port < 4 → s.port core port = none → (∀ p < port, (s.port core p).isSome = true) →
    s.choose core = some (k, c, g) →
    exec (.issueSelect core port) s = .next
      ((let u := s.putCrew k { c with promoted := false, readySince := s.cycle + 1, cut := if g.cut.isSome then none else c.cut }
        if g.cut.isSome then u else u.bump c.ctx core 1 1).putPort
        core port { PortRun.fresh k (g.fibres.map Fibre.key) with count := g.cut.elim 0 Cut.count, done := g.cut.elim [] Cut.done })) ∧
  (∀ k c, s.crew k = some c → c.promoted = false → (s.readyGroups c).isEmpty = false → c.readySince + 512 ≤ s.cycle →
    exec (.crewPromote k) s = .next (s.putCrew k { c with promoted := true }))

/-- R32, R50, R54, R71, R103, R119, R149, R292, R339, R463: what reaches a fibre or a port. A fill writes its registers and sets them full; a time
reached meets TIMEW; a waiting fibre is reclaimed and a helper lane of a finished quad ends; a blocked fibre takes its fault; a sequencer's fault
goes to the team's lead fibre; a bank takes its new role; a zero-length read ends a lane's wait.
That a fill is written whole and that helper lanes end so is the model's deduction (log 53, log 67). -/
def Obligations.FibreHappeningsComplete : Prop := ∀ s : State,
  (∀ k x, s.fills[k]? = some x → x.vals.isEmpty = false →
    exec (.registerFill k) s = .next ((({ s with fills := s.fills.eraseIdx k } : State).modFibre x.fibre fun f =>
      (f.frameAt x.frame).elim f fun fr => f.putFrame (fr.setRegs x.reg x.vals)).settleAwaits)) ∧
  (∀ k f t, s.fibre k = some f → s.onPort k = false → Cond.time t ∈ f.conds → t ≤ s.time →
    exec (.timewExpire k) s = .next (s.putFibre { f with since := s.cycle, conds := f.conds.filter fun c => match c with
      | .time t => decide (s.time < t)
      | _ => true })) ∧
  (∀ k f, s.fibre k = some f → s.pastTrailer f = true → f.helper = true → s.quadDone f = true →
    exec (.fibreReclaim k) s = .next (s.endFibre f)) ∧
  (∀ k f, s.fibre k = some f → s.pastTrailer f = true → f.helper = false → f.reclaim = true → f.isPinned = false →
    exec (.fibreReclaim k) s = .next (s.reclaimFibre k)) ∧
  (∀ k f, s.fibre k = some f → s.blocked f = true → s.noFill k = true → f.helper = false → s.dueReclaim f = false → f.asyncs ≠ [] →
    exec (.asyncFaultDelivery k) s = .next (s.deliverPending k)) ∧
  (∀ core n tk t r f, core < 384 → n < 4 → s.seqTeam core n = some (tk, t) → t.seqr.fault = some r → s.leadFibre t = some f →
    let bit := 1#32 <<< f.lane
    let u := (s.modSeqr tk fun q => { q with fault := none }).forward f.key { rec_ := { r with issue := bit, performed := bit }, halts := none }
    exec (.sequencerFaultDelivery core n) s = .next (if u.blocked f ∧ u.noFill f.key then u.deliverPending f.key else u)) ∧
  (∀ core bank k x role, core < 384 → bank < 32 → x.changing = some (bank, role) →
    s.coreCtx.find? (fun (y : Nat × CoreCtx) => y.1 % 384 == core && y.2.changing.map Prod.fst == some bank) = some (k, x) →
    exec (.bankRoleChangeComplete core bank) s = .next (s.setRole (k / 384) core bank role)) ∧
  (∀ k, (s.ports.any fun p => match p.2.wait with
      | .fence left => left.contains k
      | _ => false) = true →
    exec (.zeroLengthReadComplete k) s = .next (({ s with ports := s.ports.map fun p => match p.2.wait with
      | .fence left => (p.1, { p.2 with wait := if (left.filter (· != k)).isEmpty then .none else .fence (left.filter (· != k)) })
      | _ => p } : State).modFibre k fun f => { f with loc2 := 0 }))

/-- R110, R128, R129, R151, R301 to R305, R331, R503: PUSH and the engines. PUSH enters each lane's command, or refuses it with 1 when the queue is full.
A channel's command reads its source until its next line of output is whole, then writes it; a gather reads an index, then its element; a
scatter reads an index and claims its element's lines; a fill writes its pattern. A stream reads its tile and replays it to its subscribers.
A command whose output is written completes with its bound arrival and completion write, and a sequencer's job ends.
That an event is one access, and when a scatter claims, is the model's deduction (log 24). -/
def Obligations.EngineHappeningsComplete : Prop :=
  (∀ o : GOp, groupThrough (.push o) o
    (fun s g f => f.helper || (gRow 0x306).any fun r => decide (prePush o s g r f = .go))
    (fun _ _ f => if f.helper then f.setDst o.dst 0 else f)
    (fun _ g t => t.pushLanes g o (o.imm.toNat % 32) ((t.crew g.run.crew).bind Crew.team) ((g.passing o).filter fun f => !f.helper) false)) ∧
  (∀ (cl ch ctx : Nat) (s u : State) (c : Cmd), cl < 8 → ch < 16 → s.turnOf cl = some ctx →
    let begun (op : Nat) : Prop := s.headCmd ctx cl ch op = some (u, c) ∧ c.bad = none
    let full (i : Instr) : Prop := ∀ t r v x, c.tgts = t :: r → t.n ≤ c.buf.length → u.writePiece cl ch c t (c.buf.take t.n) = (v, true, x) →
      exec i s = .next (v.pieceDone cl ch c t.n)
    let reads (i : Instr) : Prop := ∀ t r v bs ts, c.tgts = t :: r → c.buf.length < t.n →
      let i' := c.done + c.buf.length
      let x := c.srcAt i'
      let skip := if inScratch x.1 then (if c.op = 1 then i' % c.field 32 16 else i') % 4 else 0
      let want := min x.2 (t.n - c.buf.length)
      u.fetchPiece c (fun s c => s.putHead cl ch c) (u.chan c.ctx cl ch).stamp (cl * 32 + ch) (chanKey c.ctx cl ch) (x.1 - skip)
        (if inScratch x.1 then ceilDiv (skip + want) 4 * 4 else want) = .bytes v bs ts →
      exec i s = .next ((v.putHead cl ch { c with req := none, buf := c.buf ++ (bs.drop skip).take want }).chanStamp c.ctx cl ch ts)
    (begun 0 → full (.copyLinear cl ch) ∧ reads (.copyLinear cl ch)) ∧
    (begun 1 → full (.copy2d cl ch) ∧ reads (.copy2d cl ch)) ∧
    (begun 2 → full (.copyGather cl ch) ∧ (∀ t r, c.tgts = t :: r → c.buf.length < t.n →
      exec (.copyGather cl ch) s = .next (match c.idx with
        | none => u.readPart cl ch c (c.idxAt ((c.done + c.buf.length) / c.esize)) c.idxWidth
            (fun s c bs => s.putHead cl ch { c with idx := some (ofBytes bs) })
        | some x => u.readPart cl ch c ((c.src + x * c.esize) % 2 ^ 64) c.esize
            (fun s c bs => s.putHead cl ch { c with idx := none, buf := c.buf ++ bs })))) ∧
    (begun 3 → (c.idx = none → exec (.copyScatter cl ch) s = .next (u.readPart cl ch c (c.idxAt (c.done / c.esize)) c.idxWidth fun s c bs =>
        match s.claimAll c.who (engAgent (s.chan c.ctx cl ch).stamp c.ctx (cl * 32 + ch))
          ((linePieces 3 ((c.dst + ofBytes bs * c.esize) % 2 ^ 64) c.esize).map fun p => [p]) [] with
        | .fault t x => t.chanFault cl ch c x
        | .lost t => t
        | .wait => s.putHead cl ch { c with idx := some (ofBytes bs), due := true }
        | .got t ts l =>
          let x := t.takeClaims c.ctx (chanKey c.ctx cl ch) ts l
          (x.1.putHead cl ch { c with idx := some (ofBytes bs), due := false, tgts := x.2.2, buf := [] }).chanStamp c.ctx cl ch x.2.1)) ∧
      (∀ i t v x, c.idx = some i → c.due = false → c.buf ≠ [] → c.tgts = [t] → u.writePiece cl ch c t (c.buf.take t.n) = (v, true, x) →
        exec (.copyScatter cl ch) s = .next (v.pieceDone cl ch { c with idx := none, buf := [] } c.esize))) ∧
    (begun 4 → ∀ t r v x, c.tgts = t :: r →
      let d : Cmd := { c with buf := (List.range t.n).map fun i => c.pattern (c.done + i) }
      u.writePiece cl ch d t (d.buf.take t.n) = (v, true, x) → exec (.copyFill cl ch) s = .next (v.pieceDone cl ch d t.n))) ∧
  (∀ (cl q i ctx ts : Nat) (ans : BitVec 8) (c : Cmd) (r : List Cmd) (s : State), cl < 8 → s.turnOf cl = some ctx → c.moved = true →
    (q < 16 → (s.chan ctx cl q).cmds = c :: r → exec (.commandComplete cl q i ⟨ans, ts⟩) s =
      .next (s.completeLocal cl q c (s.chan ctx cl q).stamp (fun t c => t.putHead cl q c)
        (fun t => t.putChan ctx cl q { t.chan ctx cl q with cmds := (t.chan ctx cl q).cmds.drop 1 }) (fun t => t.haltChan ctx cl q))) ∧
    (16 < q → q < 25 → ((s.clc ctx cl).stream (q - 17)).1 = c :: r → exec (.commandComplete cl q i ⟨ans, ts⟩) s =
      .next (s.completeLocal cl q c c.stamp (fun t c => t.putStreamHead ctx cl (q - 17) c) (fun t => t.popStream ctx cl (q - 17)) (fun t => t.dropStream ctx cl (q - 17))))) ∧
  (∀ (cl i ts : Nat) (ans : BitVec 8) (c : Cmd) (v : Option DWord) (s : State), cl < 8 → s.link.sent[i]? = some (c, v) →
    let reason := if ans = 5 then 5 else 6
    let d := { c with stamp := max c.stamp ts }
    exec (.commandComplete cl 16 i ⟨ans, ts⟩) s = .next (match v with
      | some v => s.completeLink i c v
      | none => if ans = 0 then s.completeLink i d d.cval else s.completeLink i { d with fail := some reason } (reasonValue reason))) ∧
  (∀ (cl st : Nat) (c : Cmd) (s : State), cl < 8 → st < 8 → s.streamHead cl st = some c →
    let subs := ((s.clc c.ctx cl).stream st).2
    (c.dests = [] → subs ≠ [] → (∀ x ∈ subs, x.delivered - x.retired < x.window) →
      exec (.tileStream cl st) s = .next (s.putStream c.ctx cl st { c with began := true, dests := subs.map Sub.id, buf := [] })) ∧
    (∀ u bs ts, c.dests ≠ [] → c.buf.length < c.tileBytes →
      s.fetchPiece c (fun s c => s.putStream c.ctx cl st c) c.stamp (cl * 32 + 17 + st) (2 ^ 64) (c.tileAt c.buf.length).1
        (c.tileAt c.buf.length).2 = .bytes u bs ts →
      exec (.tileStream cl st) s = .next (u.putStream c.ctx cl st { c with req := none, buf := c.buf ++ bs, stamp := max c.stamp ts })) ∧
    (c.dests ≠ [] → c.tileBytes ≤ c.buf.length →
      let put (s : State) (id : Nat) : State := match ((s.clc c.ctx cl).stream st).2.find? (fun x => x.id == id) with
        | none => s
        | some x => (s.team x.team).elim s fun t => s.newSeed.2.putSlot t.ctx t.core (x.base + x.delivered % x.count)
            { owner := some x.team, fmt := some x.fmt, seed := s.newSeed.1, data := tabOf c.buf, filling := false }
      exec (.streamTileDeliver cl st) s = .next
        (((c.dests.foldl put s).putSubs c.ctx cl st fun l => l.map fun x =>
          if c.dests.contains x.id then { x with delivered := x.delivered + 1 } else x).putStream c.ctx cl st
          { c with done := c.done + 1, dests := [], buf := [], moved := c.idx.isSome || decide (c.field 256 16 ≤ c.done + 1) }))) ∧
  (∀ (core n tk : Nat) (t : Team) (s : State), core < 384 → n < 4 → s.seqTeam core n = some (tk, t) →
    let ended (p : SeqJob → Bool) : State := s.modSeqr tk fun q => { q with jobs := removeFirst p q.jobs }
    let isLoad : SeqJob → Bool := fun | .xload _ => true | _ => false
    let isDrain : SeqJob → Bool := fun | .xdrain _ => true | _ => false
    let isToSlot : SeqJob → Bool := fun | .xdraina _ _ => true | _ => false
    (∀ i, t.seqr.jobs.find? isLoad = some (.xload i) → exec (.xloadComplete core n) s = .next ((ended isLoad).slotReady t i)) ∧
    (t.seqr.jobs.any SeqJob.isMma = true → exec (.xmmaComplete core n) s = .next (ended SeqJob.isMma)) ∧
    (∀ i d, t.seqr.jobs.find? isToSlot = some (.xdraina i d) → exec (.xdrainaComplete core n) s = .next ((ended isToSlot).slotReady t i)) ∧
    (t.seqr.jobs.any isDrain = true → exec (.xdrainComplete core n) s = .next (ended isDrain)))

/-- R306, R371, R372, R374 to R376, R474: link commands and arrivals. A send's payload is read and sent; a receive-post stands ready; remote
reductions and calls are sent, performed or filed where they arrive, and acknowledged; a continuation that can be transferred is copied, consumed
when its copies stand at the other device, filed there and freed here, or freed there when no commit comes; an access of a peer is performed
here and answered, and an answer reaches whoever asked.
The answers of peers are the events' data, and failures are the model's choices (log 39, log 57). -/
def Obligations.LinkHappeningsComplete : Prop := ∀ (s : State) (c : Cmd),
  (s.linkHead 0 = some c → s.link.unreach.contains c.dev = false →
    (∀ u bs ts, c.buf.length < c.field 32 32 →
      s.fetchPiece { c with began := true } State.putLinkHead c.stamp 16 (2 ^ 64) ((c.src + c.buf.length) % 2 ^ 64) (c.field 32 32 - c.buf.length) = .bytes u bs ts →
      exec .linkSend s = .next (u.putLinkHead { c with began := true, req := none, buf := c.buf ++ bs, stamp := max c.stamp ts })) ∧
    (c.field 32 32 ≤ c.buf.length → exec .linkSend s = .next
      ((s.sendMsg (c.msg (.send (BitVec.ofNat 16 (c.field 208 16)) (c.buf.take (c.field 32 32))))).linkSent { c with buf := [] } none))) ∧
  (s.linkHead 1 = some c → exec .linkReceivePost s = .next { s with link := { s.link with
    queue := s.link.queue.drop 1,
    posts := s.link.posts ++ [{ cmd := c, ctx := c.ctx, dev := c.dev, key := BitVec.ofNat 16 (c.field 208 16), len := c.field 32 32, addr := c.src }] } }) ∧
  (s.linkHead 2 = some c → s.link.unreach.contains c.dev = false → exec .linkRemoteRed s = .next
    ((s.sendMsg (c.msg (.rred s.device (BitVec.ofNat 4 (c.field 32 4)) (BitVec.ofNat 64 c.dst) (BitVec.ofNat 64 (c.field 256 64))))).linkSent c none)) ∧
  (s.linkHead 3 = some c → s.link.unreach.contains c.dev = false → c.bad = none → c.req = none → exec .linkRemoteCall s = .next
    ((s.sendMsg (c.msg (.rcall (c.field 199 3) (c.field 224 16) (BitVec.ofNat 64 c.dst) c.record))).linkSent c none)) ∧
  (∀ u, s.linkHead 4 = some c → s.link.unreach.contains c.dev = false → s.xferCheck c = (none, u) →
    let h := BitVec.ofNat 64 c.src
    let id := u.link.nextId
    let v := u.sendMsg (c.msg (.xfer id (c.field 199 3) (c.field 224 16) (BitVec.ofNat 32 (c.field 256 32)) ((u.heap c.ctx).block (handleAddr h))))
    exec (.continuationTransfer none) s = .next { v with link := { v.link with
      nextId := id + 1, queue := v.link.queue.drop 1, xfers := v.link.xfers ++ [{ id := id, cmd := c, handle := h, committed := false }] } }) ∧
  (∀ id x v, s.link.xfers.find? (fun x => x.id == id && !x.committed) = some x → s.xferCheck x.cmd = (none, v) →
    let u := (v.consume x.cmd.ctx (handleAddr x.handle)).tell x.cmd.dev x.cmd.ctx x.cmd.stamp (.xferCommit id) x.cmd.tc
    exec (.continuationTransfer (some (id, 0))) s = .next { u with link := { u.link with
      xfers := u.link.xfers.map fun y => if y.id = id then { y with committed := true } else y } }) ∧
  (∀ id x, s.link.xfers.find? (fun x => x.id == id && x.committed) = some x →
    let a := handleAddr x.handle
    let h := s.heap x.cmd.ctx
    exec (.transferFilingAck id) s = .next ((s.putHeap x.cmd.ctx ((h.freeSegs (h.block a).segs).freeBlock a)).xferEnd x none)) ∧
  (∀ id x, s.link.xfersIn.find? (fun x => x.id == id) = some x →
    let a := handleAddr x.handle
    let h := s.heap x.ctx
    let b := h.block a
    let u := s.newKey.2
    exec (.transferCommitArrival id) s = .next (((u.arrive x.cluster
      { id := s.newKey.1, pc := b.resumepc, ctx := x.ctx, launch := x.launch, fid := b.eff.fid, stamp := b.eff.stamp,
        timer := launchTimer u x.ctx x.launch, f := 0, l := 0, args := [], handle := some (x.handle, x.b) }).dropXferIn id).tell x.src x.ctx
          b.eff.stamp (.xferFiled id) x.tc) ∧
    (x.since + linkWait ≤ s.cycle → exec (.transferCommitTimeout id) s = .next ((s.putHeap x.ctx ((h.freeSegs b.segs).freeBlock a)).dropXferIn id))) ∧
  (∀ src ctx key data (ts : Stamped (BitVec 2)) p l t v u d, (s.ctx ctx).isSome = true →
    s.earlierIn (fun i => match i with
      | .sendArrival a b k _ _ => a == src && b == ctx && k == key
      | _ => false) = false →
    s.postFor src ctx key = some p → p.cmd.idx = none →
    let bs := data.take p.len
    s.claimAll p.cmd.who (engAgent (max ts.ts p.cmd.stamp) p.cmd.ctx 16) ((linePieces (bs.length / 128 + 2) p.addr bs.length).map fun x => [x]) [] = .got v t l →
    let q := { p with cmd := { p.cmd with tgts := l, buf := bs, stamp := t, idx := some v.inboxNo } }
    (v.putPost p q).fillPost (l.length + 1) q.cmd = .done u d →
    exec (.sendArrival src ctx key data ts) s = .next (({ u with link := { u.link with
      posts := removeFirst (fun x => x == q) u.link.posts,
      sent := u.link.sent ++ [({ d with idx := none, req := none }, some (BitVec.ofNat 64 (bs.length % 2 ^ 32 + src % 128 * 2 ^ 32)))] } }
        : State).doneIn.tell src ctx d.stamp (.ack 0) ts.val.toNat)) ∧
  (∀ src ctx (op : BitVec 4) addr value (ts : Stamped (BitVec 2)) l, (s.ctx ctx).isSome = true → op.toNat ≤ 12 →
    let acc : PeerAcc := .rmw (.red op value)
    s.ownerCheck ctx addr acc = .ok l → (∀ k v, firstPlace l ≠ .peer k v) → s.ownerWaits src ctx addr.toNat acc l = false →
    let w := s.walkLoads (linkAgent ts.ts ctx src) addr.toNat
    let q := w.s.ownerPerform (linkAgent w.ts ctx src) src ctx addr acc l
    q.err = false → w.err = false →
    exec (.remoteRedArrival src ctx op addr value ts) s = .next (q.s.doneIn.tell src ctx q.ts (.ack 0) ts.val.toNat)) ∧
  (∀ src ctx cl launch entry args (ts : Stamped (BitVec 2)) l, s.launch ctx launch = some l → s.checkTarget ctx entry = none → cl < 8 →
    exec (.remoteCallArrival src ctx cl launch entry args ts) s = .next ((((s.newKey.2.arrive cl
      { id := s.newKey.1, pc := entry, ctx := ctx, launch := launch, fid := BitVec.ofNat 32 (Config.fibreId s.newKey.1 % 2 ^ 31),
        stamp := max ts.ts l.stamp, timer := l.gather, f := l.ef, l := l.el, args := args.take 16, handle := none }).doneIn).doneCode linkCode).tell
          src ctx ts.ts (.ack 0) ts.val.toNat)) ∧
  (∀ src id ctx va n ts hops l, (s.ctx ctx).isSome = true → s.ownerCheck ctx va (.load n) = .ok l → (∀ k v, firstPlace l ≠ .peer k v) →
    s.ownerWaits src ctx va.toNat (.load n) l = false →
    let w := s.walkLoads { linkAgent ts ctx src with peer := none } va.toNat
    let q := w.s.ownerPerform (linkAgent w.ts ctx src) src ctx va (.load n) l
    q.err = false → w.err = false →
    exec (.peerAccessRequest src id ctx va (.load n) ts hops) s = .next (q.s.doneIn.tell src ctx q.ts (.reply id (.done q.data)))) ∧
  (∀ id reply ts, exec (.peerAccessReply id reply ts) s = .next (s.answerAll id reply ts))

/-- R359, R373, R435, R471 to R473: ownership, routes and the clock. A page whose count has reached its threshold is claimed and its data sent; its
data is installed, held, and its receipt sent; the old owner's leaf then names the new one, which serves the page from the commit on. A
destination with no route fails what waits for it, until the route returns; a port goes down; the clock is set, and its lock lost and found.
The routes at reset and what is counted are the model's (log 14, log 50). -/
def Obligations.GangHappeningsComplete : Prop := ∀ s : State,
  (∀ ctx (va : DWord) peer c r i lf,
    let v := va.toNat / 65536 * 65536
    s.ctx ctx = some c → c.rangeOf v = some (r, i) → s.walk ctx v = .ok lf →
    (Tab.get r.reached i = some peer → lf.loc = 0 → lf.base = r.dback + 65536 * i → s.migratable ctx v r i lf = true → (pageLines .dev lf.base).any s.claimed = false →
      (s.link.hands.any fun h => h.ctx == ctx && h.va == v) = false → s.link.unreach.contains peer = false →
      let x := s.claimLines (handKey ctx v) 0 (pageLines .dev lf.base)
      let lift (y : State × Nat × List (List Byte) × List (Nat × Nat)) (p : PA × Nat) : State × Nat × List (List Byte) × List (Nat × Nat) :=
        let q := y.1.liftLine y.2.1 ctx p.1
        (q.1.s, q.1.ts, q.1.data :: y.2.2.1, (q.2.map fun k => (p.2, k)).toList ++ y.2.2.2)
      let y := (pageLines .dev lf.base).zipIdx.foldl lift (x.1, x.2, [], [])
      let data := MsgBody.handData (BitVec.ofNat 64 v) y.2.2.1.reverse.flatten y.2.2.2
      let w := y.1.sendMsg { dst := peer, tc := 0, ctx := ctx, stamp := y.2.1, body := data }
      exec (.ownershipHandover ctx va peer) s = .next { w with link := { w.link with
        hands := w.link.hands ++ [{ ctx := ctx, va := v, peer := peer, pending := false, since := w.cycle }] } }) ∧
    (∀ data (poison : List (Nat × Nat)) ts, s.migratable ctx v r i lf = true →
      let base := r.dback + 65536 * i
      let u := (List.range 512).foldl (fun (s : State) j =>
        let l := s.lineOf (PA.line ⟨.dev, base + 128 * j⟩)
        let bad := (poison.find? fun x => x.1 == j).map Prod.snd
        s.putLine (PA.line ⟨.dev, base + 128 * j⟩) { l with
        wts := max l.wts ts, rts := max l.rts ts, poison := bad.isSome, hidden := 0, sectors := BitVec.ofNat 8 (bad.getD 0), upd := none, copies := [], excl := none })
        ({ s with dev := cellsWrite s.dev base (data.take 65536) } : State)
      let x := u.claimLines (handKey ctx v) ts (pageLines .dev base)
      let w := (x.1.writeLeaf ctx x.2 lf.pte 0 (base / 256)).sendMsg
        { dst := peer, tc := 0, ctx := ctx, stamp := 0, body := .handReceipt va }
      exec (.handoverData peer ctx va ⟨data, ts⟩ poison) s = .next { w with link := { w.link with
        hands := w.link.hands ++ [{ ctx := ctx, va := v, peer := peer, pending := true, since := w.cycle }] } })) ∧
  (∀ ctx (va : DWord) h,
    let served := ((s.releaseClaims (handKey ctx h.va)).dropHand ctx h.va).clearPeers ctx h.va
    (∀ lf, s.handOf ctx va.toNat false = some h → s.walk ctx va.toNat = .ok lf →
      exec (.handoverReceipt ctx va h.peer) s = .next
        (((((s.writeLeaf ctx 0 lf.pte 3 h.peer).releaseClaims (handKey ctx h.va)).dropHand ctx h.va).clearPeers ctx h.va).sendMsg
          { dst := h.peer, tc := 0, ctx := ctx, stamp := 0, body := .handCommit va })) ∧
    (s.handOf ctx va.toNat true = some h → exec (.handoverCommit ctx va) s = .next served) ∧
    (s.handOf ctx va.toNat false = some h → h.since + linkWait ≤ s.cycle → exec (.handoverReceiptTimeout ctx va) s = .next served) ∧
    (s.handOf ctx va.toNat true = some h → s.link.unreach.contains h.peer = false → h.since + linkWait ≤ s.cycle →
      exec (.handoverCommitTimeout ctx va) s = .next (({ s with link := { s.link with
        hands := s.link.hands.map fun y => if y = h then { y with since := s.cycle } else y } } : State).sendMsg { dst := h.peer, tc := 0, ctx := ctx, stamp := 0, body := .handAsk va }))) ∧
  (∀ dev, dev < 127 → s.link.unreach.contains dev = false → s.routeGone dev = true →
    let u : State := { s with link := { s.link with
      unreach := dev :: s.link.unreach
      sent := s.link.sent.map fun x => if x.1.dev = dev ∧ x.2.isNone then ({ x.1 with fail := some 5 }, some (reasonValue 5)) else x } }
    let w := (u.link.xfers.filter fun x => x.cmd.dev == dev).foldl State.loseXfer u
    exec (.destinationUnreachable dev) s = .next
      ((w.openAsks.filter fun i => w.askedOf i == some dev).foldl (fun s i => s.answerAll i (.fault 0x10 9 0) 0) w)) ∧
  (∀ dev, dev < 127 → ∃ t, exec (.routeReturn dev) s = .next t ∧ t.link.unreach = s.link.unreach.filter (· != dev) ∧
    { t with link := s.link } = s) ∧
  (∀ port, port < 8 → ∃ t, exec (.linkPortDown port) s = .next t ∧ (∀ p, p ∈ t.link.downPorts ↔ p = port ∨ p ∈ s.link.downPorts) ∧
    { t with link := s.link } = s) ∧
  (∀ offset : Int, ∃ t, exec (.ptpMessage offset) s = .next t ∧ t.ptpBase = s.ptpBase + offset ∧ t.ptpOff = offset ∧ t.ptpLast = s.cycle ∧
    t.mgmt.gangsync = (s.mgmt.gangsync && !decide (1000 < offset.natAbs)) ∧
    t.ptpGood = (if 1000 < offset.natAbs ∨ 1000 < s.ptpOff.natAbs ∨ s.ptpLast + 800000000 ≤ s.cycle ∨ s.ptpLast = 0 then s.cycle else s.ptpGood)) ∧
  (1000 < s.ptpOff.natAbs ∨ s.ptpLast + 800000000 ≤ s.cycle →
    exec .ptpUnlock s = .next { s with mgmt := { s.mgmt with gangsync := false } }) ∧
  (s.ptpOff.natAbs ≤ 1000 → s.ptpGood + 8000000000 ≤ s.cycle → s.cycle < s.ptpLast + 800000000 →
    exec .ptpRelock s = .next { s with mgmt := { s.mgmt with gangsync := true } })

/-- R150, R155, R163, R165, R358, R360 to R366, R409, R421, R434, R453 to R457, R468 to R470, R492: partitions, the host port, homes and errors. A partition
whose ports are free changes to the context that is due; a valid schedule is pending until its first boundary; a valid layout is taken; the host's
accesses go where it reaches; a page that is due moves; the host link goes down and comes up; a banker performs its requests; errors are counted,
logged, hidden until they are read, or stop what they touch.
When a schedule takes effect, how errors are classed and how host accesses are logged are the model's (log 21, log 48, log 51). -/
def Obligations.DeviceHappeningsComplete : Prop := ∀ s : State,
  (∀ p, p < 8 → s.isPart p = true → ((s.part p).current s.time).switching = true →
    s.busyPorts p = [] →
    (((s.part p).current s.time).cur = none → exec (.turnSwitch p) s = .next (s.endSwitch p)) ∧
    (∀ o, ((s.part p).current s.time).cur = some o →
      let t := (List.range (2 ^ s.psz p)).foldl (fun s i => s.stopChans o (p + i)) s
      exec (.turnSwitch p) s = .next (if t.leaving p o then t else t.endSwitch p))) ∧
  (∀ p (epoch : BitVec 64) turns, p < 8 → s.isPart p = true → turns.length ≤ 16 →
    (∀ t ∈ turns, t.valid = true → 10 ≤ t.len.toNat ∧ ∃ y, s.ctx t.ctx.toNat = some y ∧ y.d.pfirst = p ∧ y.d.psize = 2 ^ s.psz p) →
    exec (.turnScheduleWrite p epoch turns) s = .next (s.putPart p { (s.part p).current s.time with
      pend := some (firstBoundary epoch.toNat turns s.time, epoch.toNat, turns) })) ∧
  (∀ word : BitVec 64,
    let w := word.toNat % 2 ^ 32
    layoutOk w = true → (∀ c ∈ s.ctxs, 2 ^ bitsOf w (4 * c.2.d.pfirst) 4 = c.2.d.psize) →
    exec (.partitionLayoutWrite word) s = .next { s with
      parts := s.parts.filter fun x => bitsOf w (4 * x.1) 4 == s.psz x.1
      mgmt := { s.mgmt with layout := BitVec.ofNat 64 w } }) ∧
  (∀ pa n (req : BitVec 25) (data : List Byte),
    let free (n : Nat) : Prop := ∀ x ∈ pieces pa n, s.hostWaits x.1 x.2 = false
    (n ≤ 128 → free n →
      let r := (pieces pa n).foldl (fun (x : State × List Byte × Bool) p =>
        let q := x.1.hostAccess req p.1 p.2 fun s ag va a => s.readAt ag va a p.2
        (q.1, x.2.1 ++ q.2.1, x.2.2 || q.2.2)) (s.doneIn, [], false)
      exec (.hostCxlMemAccess pa (.load req n)) s = .next { r.1 with hostData := r.2.1, hostPoison := r.2.2 }) ∧
    (data.length ≤ 128 → free data.length → exec (.hostCxlMemAccess pa (.store req data)) s = .next ((pieces pa data.length).foldl (fun s p =>
      (s.hostAccess req p.1 p.2 fun s ag va a => s.hostWriteSpan ag va a ((data.drop (p.1 - pa)).take p.2)).1) s.doneIn)) ∧
    (0 < data.length → pa % 128 + data.length ≤ 128 → s.hostWaits pa data.length = false → s.earlierIn isIoWrite = false →
      exec (.hostCxlIoWrite pa ⟨req, data⟩) s =
        .next (s.hostAccess req pa data.length fun s ag _ a => s.hostWriteSpan ag (2 ^ 57) a data).1.doneIn) ∧
    (s.hostReaches pa = true → s.hostUp = true → ∀ go,
      let ctx := (s.granOwner (pa / 65536)).getD 0
      let x := s.hostSpot ctx pa
      let ag := s.hostAgent ctx req.toNat
      let r : Acc := go s ag x.2 x.1
      s.hostAccess req pa n go = ({ r.s.logHost { ag with ts := r.ts } pa x.2 n with hostStamp := r.ts },
        if r.err then (List.range n).map (Config.undefByte (s.accesses + 2 ^ 50)) else r.data, r.err)) ∧
    ((s.hostReaches pa = false ∨ s.hostUp = false) → ∀ go, s.hostAccess req pa n go = (s, List.replicate n 0, false))) ∧
  (∀ ctx (va : DWord) c r i lf,
    let v := va.toNat / 65536 * 65536
    let d : PA := ⟨.dev, r.dback + 65536 * i⟩
    let h : PA := ⟨.host, r.hback + 65536 * i⟩
    s.ctx ctx = some c → c.rangeOf v = some (r, i) → s.walk ctx v = .ok lf → r.due.contains i = true →
    s.migratable ctx v r i lf = true →
    (lf.loc = 0 ∧ lf.base = d.a ∨ lf.loc = 1 ∧ lf.base = h.a) → s.hostUp = true → s.hostCache = true → s.claimed lf.pte = false → (∀ j < 512, s.claimed { d with a := d.a + 128 * j } = false ∧ s.claimed { h with a := h.a + 128 * j } = false) →
    let src := if lf.loc = 0 then d else h
    let dst := if lf.loc = 0 then h else d
    let c := (List.range 512).foldl (fun (x : State × Nat) j => x.1.placeClaim x.2 { src with a := src.a + 128 * j }) (s, 0)
    let u := (List.range 512).foldl (fun (x : State × Nat) j =>
      State.moveLine ctx x { src with a := src.a + 128 * j } { dst with a := dst.a + 128 * j }) c
    exec (.pageMove ctx va) s = .next (((u.1.writeLeaf ctx u.2 lf.pte (if lf.loc = 0 then 1 else 0) (dst.a / 256)).moveWatches src dst).modRange
      ctx v fun r i => { r with counters := Tab.erase r.counters i, due := r.due.filter (· != i) })) ∧
  exec .migrationCounterClear s = .next { s with ctxs := s.ctxs.map fun c =>
    (c.1, { c.2 with migr := c.2.migr.map fun r => { r with counters := [], peers := [] } }) } ∧
  (∀ pa, s.hostUp = true → s.claimed ⟨.host, pa⟩ = false →
    let lk := PA.line ⟨.host, pa⟩
    let u := s.doneIn.writeBack lk
    exec (.hostSnoop pa) s = .next ((u.putLine lk { u.lineOf lk with copies := [], excl := none }).wake lk)) ∧
  (s.hostUp = true → exec .hostLinkDown s = .next { s with
    hostUp := false
    hostDownAt := s.cycle
    stops := s.stops ++ (s.ctxs.map fun c => (c.1, 4)).filter fun x => x.1 != 0
    lines := s.lines.map fun l => (l.1, { l.2 with
      hostCopy := none, copies := if l.1 % 3 = 1 then [] else l.2.copies, excl := if l.1 % 3 = 1 then none else l.2.excl }) }) ∧
  (s.hostUp = false →
    let dropped (s : State) : State := { s with
      lines := s.lines.map fun l => (l.1, { l.2 with dirtyHost := none })
      mgmt := { s.mgmt with lostDirty := s.dirtyLines.length } }
    exec .hostLinkUp s = .next (if s.hostCache = true ∧ s.cycle < s.hostDownAt + 1600000000 then
      s.dirtyLines.foldl (fun s lk => s.writeBack lk) { s with hostUp := true } else dropped { s with hostUp := true }) ∧
    (s.hostDownAt + 1600000000 ≤ s.cycle → exec .dirtyHoldExpire s = .next (dropped s))) ∧
  (∀ cl, cl < 8 →
    let r := s.farTake cl (s.cluster cl).farBuf 32 (s.cluster cl).banker []
    let c := r.1.cluster cl
    exec (.bankerRequest cl) s = .next ((s.cluster cl).banker.foldl (fun s x => s.landed x.fibre x.ctx x.launch x.task) (r.1.putCluster cl { c with
      banker := r.2 ++ c.farBuf.take (512 - r.2.length), farBuf := c.farBuf.drop (512 - r.2.length) }))) ∧
  (∀ lk, exec (.homeMerge lk) s = .next (s.merge lk 6)) ∧
  (∀ hbm, exec (.hardwareError (.corrected hbm)) s = .next (s.countCorrected hbm)) ∧
  (∀ pa tag, pa < 618475290624 → exec (.hardwareError (.memLine pa tag)) s = .next (s.putLine (PA.line ⟨.dev, pa⟩)
    { s.lineOf (PA.line ⟨.dev, pa⟩) with hidden := if tag then 2 else 1, errCore := 0x1FF })) ∧
  (∀ k f, s.fibre k = some f → exec (.hardwareError (.regCache k)) s = .next ((s.logError 5 0 f.ctx 0 f.core).stopAll 1 [f.ctx])) ∧
  (∀ core, core < 384 → exec (.hardwareError (.unit core)) s = .next (s.unitError core)) ∧
  exec .thermalTrip s = .next { s with stops := s.stops ++ s.ctxs.map fun c => (c.1, 4) }

/-- R406 to R420, R475, R494, R497, R498: the mailbox, debug interface, keys, firmware and checkpoints. A descriptor that passes every check gives a
context, and a live one begins to be destroyed; the debug interface halts, releases, reads and writes a named fibre; a log ring in owned granules
begins anew; a report takes a one-time key; an image that verifies is taken; a checkpoint begins, and one with its table and keys is restored.
The order of the checks, the statuses of the debug interface and what module reset keeps are the model's (log 13, log 45, log 46). -/
def Obligations.TenancyHappeningsComplete : Prop := ∀ s : State,
  (s.mgmt.create = false → s.mgmt.destroy = false → s.serves = true → (∀ t ∈ s.descTests s.mgmt.descBits, t.2 = false) →
    let v := s.mgmt.descBits
    let d := CtxDesc.ofBits v
    let u := (s.putKey d.kslot { s.key d.kslot with ctx := some d.ctxid, monitors := [], log := LogRing.empty, summary := Summary.empty }).putCtx d.ctxid
      { d := d, heap := Heap.empty, migr := (List.range (bitsOf v 304 5)).map fun i => s.migEntry d (bitsOf v 320 64 + 32 * i),
        nextLaunch := 16, order := [], placedCores := [], lost := false, areaWritten := false }
    (s.key d.kslot).imported = true ∧ exec .contextCreate s = .next { u with mgmt := { u.mgmt with fail := false, ffield := 0 } }) ∧
  (s.mgmt.create = false → s.mgmt.destroy = false → (s.ctx s.mgmt.dctx).isSome = true →
    exec .contextDestroy s = .next { s with
      stops := s.stops ++ [(s.mgmt.dctx, 5)]
      mgmt := { s.mgmt with destroy := true, fail := false, ffield := 0, tstart := s.time, receipt := [], rpieces := 0,
                            scrubbing := s.mgmt.scrubbing ++ s.granulesOf s.mgmt.dctx } }) ∧
  (∀ f fr, s.mgmt.dbg.go = false →
    let d := s.mgmt.dbg
    let reg := d.reg.toNat
    (∀ op, s.debugTarget { d with op := op } = .ok (f, fr)) →
    let ends (s : State) (d : Debug) (op : BitVec 3) : State := { s with mgmt := { s.mgmt with dbg := { d with op := op, go := false, status := 0 } } }
    exec .debugHalt s = .next (ends (s.putFibre { f with halted := true }) d 1) ∧
    exec .debugRelease s = .next (ends (s.putFibre { f with halted := false, since := s.cycle }) d 2) ∧
    (f.halted = true → s.onPort f.key = false → reg < fr.f →
      exec .debugRead s = .next (ends s { d with value := fr.reg reg, full := fr.full reg } 3) ∧
      exec .debugWrite s = .next (ends ((s.putFibre (f.putFrame (fr.setReg reg d.value))).settleAwaits) d 4) ∧
      (fr.full reg = true →
        exec .debugReadWhenFull s = .next (ends s { d with value := fr.reg reg, full := true } 5) ∧
        exec .debugWriteWhenFull s = .next (ends ((s.putFibre (f.putFrame (fr.setReg reg d.value))).settleAwaits) d 6)))) ∧
  (s.mgmt.dbg.go = true → s.mgmt.dbg.since + 800000000 ≤ s.cycle →
    exec .debugTimeout s = .next { s with mgmt := { s.mgmt with dbg := { s.mgmt.dbg with go := false, status := 2 } } }) ∧
  (∀ k ctx (gr n : BitVec 24), k < 64 → (s.key k).ctx = some ctx → s.ownsGranules ctx gr.toNat n.toNat = true →
    exec (.logRingConfigure k gr n) s = .next (s.putKey k { s.key k with log := { LogRing.empty with gr := gr.toNat, n := n.toNat } })) ∧
  (∀ off (b : Byte), s.mgmt.create = false → s.mgmt.destroy = false → off < 0x40 →
    exec (.registerWrite 0 off [b]) s = .next { s with mgmt := { s.mgmt with desc := Tab.set s.mgmt.desc off b } }) ∧
  (∀ off (b : Byte), off < 0x10000 → exec (.registerWrite 2 off [b]) s = .next (s.putQreg (off / 256)
    { s.qreg (off / 256) with desc := Tab.set (s.qreg (off / 256)).desc (off % 256) b })) ∧
  (∀ nonce, s.mgmt.keyIndex < 2 ^ 40 → s.serves = true →
    ∃ t, exec (.attestationReportRequest nonce) s = .next t ∧ t.mgmt.nonce = some nonce ∧ t.mgmt.kek = none ∧ t.mgmt.keyIndex = s.mgmt.keyIndex + 1 ∧
      (s.mgmt.keyIndex + 1 = 2 ^ 40 → t.mgmt.replace = true) ∧ { t with mgmt := s.mgmt } = s ∧
      ∃ r, t.mgmt.report = some r ∧ r.nonce = nonce ∧ r.serial = Config.serialNumber ∧ r.measurement = s.mgmt.measurement ∧ r.secVer = s.mgmt.secVer ∧
        r.pubKey = ecPublic (Config.deviceKey (t.mgmt.reports - 1)) ∧ r.signature = Config.signature s.mgmt.keyIndex r.body) ∧
  (∀ nonce key, s.mgmt.nonce = some nonce → exec (.hostPublicKey key) s = .next { s with mgmt := { s.mgmt with
    kek := (ecShared (Config.deviceKey (s.mgmt.reports - 1)) key).map fun z => deriveKek z nonce } }) ∧
  (∀ slot wrapped kek, slot < 64 → s.mgmt.kek = some kek → (s.key slot).ctx = none →
    ∃ t, exec (.wrappedKeyImport slot wrapped) s = .next t ∧ t.mgmt.kek = none ∧ t.mgmt.nonce = none ∧
      (match unwrapKeys kek wrapped with
      | some b => t.key slot = { s.key slot with imported := true, k1 := keyOf (b.take 32), k2 := keyOf ((b.drop 32).take 32), km := keyOf (b.drop 64) }
      | none => (t.key slot).imported = false ∧ (t.key slot).k1 = 0 ∧ (t.key slot).k2 = 0 ∧ (t.key slot).km = 0)) ∧
  (∀ image : Firmware, image.sigOk = true → s.mgmt.fuseVer ≤ image.secVer →
    exec (.firmwareBoot image) s = .next { s with mgmt := { s.mgmt with
      booted := true, recovery := false, secVer := image.secVer, measurement := image.measurement } } ∧
    (s.mgmt.recovery = true → ∃ t, exec (.firmwareRecoveryImage image) s = .next t ∧ t.mgmt.recovery = false ∧ t.mgmt.booted = true ∧
      t.mgmt.secVer = image.secVer ∧ t.mgmt.measurement = image.measurement ∧ t.ctxs = [] ∧ t.dev = [])) ∧
  (∃ t, exec .moduleReset s = .next t ∧ t.ctxs = [] ∧ t.dev = [] ∧ t.fibres = [] ∧ t.queues = [] ∧ t.cycle = State.reset.cycle ∧
    t.mgmt.retcl = s.mgmt.retcl ++ s.mgmt.pendcl ∧ t.mgmt.retcores = s.mgmt.retcores ∧ t.mgmt.keyIndex = s.mgmt.keyIndex ∧ t.host = s.host) ∧
  (s.mgmt.ckpt = false → exec .checkpoint s = .next { s with
    stops := s.stops ++ s.ctxs.map fun c => (c.1, 6)
    mgmt := { s.mgmt with ckpt := true, ckptGrans := [], ckptSlots := [] } }) ∧
  (∀ granules, s.mgmt.ckpt = false → s.mgmt.ckptGrans ≠ [] → s.mgmt.ckptGrans = s.mgmt.grans →
    (∀ x ∈ s.mgmt.ckptSlots, (s.key x.2).imported = true) →
    exec (.checkpointRestore granules) s = .next ((granules.filter fun g => (s.granOwner g.gran).isSome).foldl State.restoreGranule s))

/-! ### Exceptions and address checks -/

/-- R55, R78, R173, R425, R447: a lane that issues alone takes the fault its instruction finds: at issue (an operand's register or literal, an
empty source with its wait bit), ARITH for an enabled flag (the flag is set, the destination stands), PRIV, ROLE, or an address check. -/
def Obligations.FaultsAreTaken : Prop := ∀ o : GOp,
  let m := o.mod.toNat
  let same : State → Fibre → Fibre := fun _ f => f
  let atIssue (op : Nat) (i : Instr) : Prop := traps i o same (faultsAtIssue op o)
  let arith (op : Nat) (i : Instr) (r : State → Fibre → FRes) : Prop := traps i o (fun s f => f.raise (r s f).flags) (raisesEnabled op o r)
  atIssue 0x000 (.iadd o) ∧ atIssue 0x001 (.isub o) ∧ atIssue 0x002 (.imul o) ∧ atIssue 0x004 (.imad o) ∧ atIssue 0x006 (.iadd64 o) ∧
  atIssue 0x00C (.andb o) ∧ atIssue 0x011 (.shl o) ∧ atIssue 0x01A (.isetp o) ∧ atIssue 0x01C (.mov o) ∧
  atIssue 0x080 (.fadd o) ∧ atIssue 0x082 (.fmul o) ∧ atIssue 0x083 (.ffma o) ∧
  arith 0x080 (.fadd o) (from32 .f32 o fun a b _ => fp32.add (m % 4) (modA m (fp32.decode a)) (modB m (fp32.decode b))) ∧
  arith 0x081 (.fsub o) (from32 .f32 o fun a b _ => fp32.add (m % 4) (modA m (fp32.decode a)) (modB m (fp32.decode b)).negate) ∧
  arith 0x082 (.fmul o) (from32 .f32 o fun a b _ => fp32.mul (m % 4) (modA m (fp32.decode a)) (modB m (fp32.decode b))) ∧
  arith 0x083 (.ffma o) (from32 .f32 o fun a b c =>
    fp32.fma (m % 4) (modA m (fp32.decode a)) (modB m (fp32.decode b)) (modC m (fp32.decode c))) ∧
  traps (.movsw o) o same (fun s _ f x => s.clearLane 0x309 o f = true ∧ (∀ l, s.launch f.ctx f.launch = some l → l.priv = false) ∧ x = ⟨0x32, 1, 0, 0⟩) ∧
  traps (.barinit o) o same (fun s g f x => s.clearLane 0x300 o f = true ∧
    (∃ c, s.crew g.run.crew = some c ∧ (c.team = none ∨ c.number ≠ 0)) ∧ x = ⟨0x33, 2, s.roleCode g.run.crew, 0⟩) ∧
  traps (.ld o) o same (fun s _ f x => s.clearLane 0x280 o f = true ∧ ldCheck s o f = .fault x ∧ s.roleWait (s.who f) x = false) ∧
  traps (.st o) o same (fun s _ f x => s.clearLane 0x281 o f = true ∧ stCheck s o f = .fault x ∧ s.roleWait (s.who f) x = false)

/-- R76, R77, R78, R79, R427: an effect goes to the nearest handler frame below the top one whose mask and value match; the frames above it,
their whole segments and the record stand in a LIVE block; the handler frame holds handle, tag and argument, full, and the fibre goes on at
its entry with the same predicates and FSTAT; nothing else of memory and no other fibre changes. With no handler it is unhandled and recorded. -/
def Obligations.EffectsReachTheirHandlers : Prop := ∀ (s : State) (k : Nat) (r : EffRec) (pc : DWord) (f : Fibre),
  s.fibre k = some f → f.key = k → (s.ctx f.ctx).isSome = true →
  (∀ (j : Nat) (hf : Frame) (a : Nat) (h : Heap), f.handlerFor r.tag = some j → f.chain[j]? = some hf →
    (s.heap f.ctx).takeBlock (s.cdesc f.ctx) = some (a, h) → s.heapFault f.ctx a = none →
    1 ≤ j ∧ hf.handler = true ∧ r.tag &&& hf.hmask = hf.htag ∧
    (∀ i fr, 1 ≤ i → i < j → f.chain[i]? = some fr → ¬(fr.handler = true ∧ r.tag &&& fr.hmask = fr.htag)) ∧
    ∃ (f' : Fibre) (hf' : Frame),
      let t := s.deliver k r pc
      let b := (t.heap f.ctx).block a
      let hd := handleOf a (h.block a).gen
      t.fibre k = some f' ∧ f'.chain = hf' :: f.chain.drop (j + 1) ∧
      hf'.reg hf.hbase.toNat = loWord hd ∧ hf'.reg (hf.hbase.toNat + 1) = hiWord hd ∧ hf'.reg (hf.hbase.toNat + 2) = r.tag.setWidth 32 ∧
      hf'.reg (hf.hbase.toNat + 3) = r.arg ∧ (∀ i < 4, hf'.full (hf.hbase.toNat + i) = true) ∧
      (∀ n, n < hf.hbase.toNat ∨ hf.hbase.toNat + 3 < n → hf'.reg n = hf.reg n ∧ hf'.full n = hf.full n) ∧
      f'.pc = hf.hline + hf.hslot.setWidth 64 ∧ f'.qbits = f.qbits ∧ f'.fstat = f.fstat ∧ f'.fid = f.fid ∧
      b.state = 0 ∧ b.frames = f.chain.take j ∧ b.resumepc = pc ∧ b.eff = { r with stamp := b.eff.stamp } ∧ f.stamp < b.eff.stamp ∧
      f'.stamp = b.eff.stamp ∧ b.ctxid = f.ctx ∧ b.homecore = f.core ∧ b.launch = f.launch ∧
      (r.psaved = true → ∀ i < 16, ∀ v, Tab.get f.prons i = some v → Tab.get b.prons i = some v) ∧
      (∀ k' ≠ k, t.fibre k' = s.fibre k') ∧ t.dev = s.dev ∧ t.host = s.host ∧ t.sram = s.sram ∧ t.frag = s.frag) ∧
  (f.handlerFor r.tag = none → s.deliver k r pc =
    (((s.putFibre { f with found := none }).bump f.ctx f.core 4 1).noteUnhandled f.ctx r).exitFibre k r.tag) ∧
  (∀ (ctx : Nat) (c : Ctx), s.ctx ctx = some c →
    let was := (s.key c.d.kslot).summary
    let now := ((s.noteUnhandled ctx r).key c.d.kslot).summary
    now.ucount = was.ucount + 1 ∧ now.last = some r ∧ now.first = some (was.first.getD r) ∧ now.dcount = was.dcount ∧ now.reflost = was.reflost)

/-- R82: a fibre that resumes a LIVE continuation stands in its frames again, the bottom one returning to the resuming frame, which is their
DELIM; it goes on at RESUMEPC, its stamp joined with the record's, with the pronouns a fault saved. The block is freed
with the next generation. -/
def Obligations.ResumesRestore : Prop := ∀ (s : State) (k a : Nat) (v : Word) (retpc : DWord) (vd : Option Nat) (f : Fibre) (c : Ctx),
  s.fibre k = some f → f.key = k → s.ctx f.ctx = some c →
  let b := c.heap.block a
  1 ≤ b.frames.length → cellOfFid b.eff.fid = none → b.eff.fault = true →
  ∃ f', let t := s.rejoin k a v retpc vd
    t.fibre k = some f' ∧ f'.pc = b.resumepc ∧ f'.prons = (if b.eff.psaved then b.prons else []) ∧ max f.stamp b.eff.stamp ≤ f'.stamp ∧
    f'.chain.length = b.frames.length + max 1 f.chain.length ∧ (∀ i, 1 ≤ i → f'.chain[b.frames.length + i]? = f.chain[i]?) ∧
    (∀ i fr, i + 1 < b.frames.length → b.frames[i]? = some fr → f'.chain[i]? = some fr) ∧
    (∀ fr, b.frames[b.frames.length - 1]? = some fr → f'.chain[b.frames.length - 1]? = some { fr with retpc := retpc }) ∧
    (∃ fr, f'.chain[b.frames.length]? = some fr ∧ fr.delim = true ∧ fr.addr = f.top.addr ∧ (∀ n, fr.reg n = f.top.reg n) ∧
      (∀ n, fr.full n = (f.top.full n && decide (vd ≠ some n)))) ∧
    f'.qbits = f.qbits ∧ f'.fstat = f.fstat ∧ f'.fid = f.fid ∧
    ((t.heap f.ctx).block a).state = 1 ∧ ((t.heap f.ctx).block a).gen = b.gen + 1 ∧ (t.heap f.ctx).freeBlocks.head? = some a ∧
    t.dev = s.dev ∧ t.host = s.host ∧ t.sram = s.sram

/-- R111, R115, R139, R407, R437 step 6: an address is checked in this order: PROT cause 1 for one of 2^57 or above; below the windows ALIGN, then
the walk's fault, then PROT cause 5 for a write to a page without W, cause 7 for a write to a frame heap or future-cell page, cause 9 for a device
granule of another owner; what passes is reached, the context's save area by no read (log 82). No check ever lets a context reach device memory in a
granule that it does not own, nor another context's scratchpad. -/
def Obligations.AddressesAreChecked : Prop :=
  (∀ (s : State) (w : Who) (a : DWord) (n al : Nat) (wr : Bool) (e : FaultInfo) (lf : Leaf),
    (2 ^ 57 ≤ a.toNat → s.resolve w a n al wr = .error ⟨0x11, 1, 0, a⟩) ∧
    (a.toNat < winBase → a.toNat % al ≠ 0 → s.resolve w a n al wr = .error ⟨0x34, 1, 0, a⟩) ∧
    (a.toNat < winBase → a.toNat % al = 0 →
      (s.walk w.ctx a.toNat = .error e → s.resolve w a n al wr = .error e) ∧
      (s.walk w.ctx a.toNat = .ok lf → lf.loc ≠ 3 → s.deadPage w.ctx a.toNat lf.pte = false →
        (wr = true → lf.w = false → s.resolve w a n al wr = .error ⟨0x11, 5, 0, a⟩) ∧
        (wr = true → lf.w = true → (lf.fh = true ∨ lf.fc = true) → s.resolve w a n al wr = .error ⟨0x11, 7, 0, a⟩) ∧
        (wr = false → lf.loc = 0 → lf.view = none → s.granOwner ((lf.base + a.toNat % lf.size) / 65536) ≠ some w.ctx →
          s.resolve w a n al wr = .error ⟨0x11, 9, 0, a⟩) ∧
        (wr = true → lf.w = true → lf.fh = false → lf.fc = false → lf.view = none → (s.cdesc w.ctx).inRegion a.toNat = false →
          (lf.loc = 0 → s.granOwner ((lf.base + a.toNat % lf.size) / 65536) = some w.ctx) →
          s.resolve w a n al wr = .ok (.mem ⟨if lf.loc = 0 then .dev else .host, lf.base + a.toNat % lf.size⟩ lf.loc)) ∧
        (wr = false → lf.view = none → (s.cdesc w.ctx).inRegion a.toNat = false →
          (lf.loc = 0 → s.granOwner ((lf.base + a.toNat % lf.size) / 65536) = some w.ctx ∧
            s.inSaveArea ((lf.base + a.toNat % lf.size) / 65536) = false) →
          s.resolve w a n al wr = .ok (.mem ⟨if lf.loc = 0 then .dev else .host, lf.base + a.toNat % lf.size⟩ lf.loc))))) ∧
  (∀ (s : State) (w : Who) (a : DWord) (n al : Nat) (wr : Bool) (p : PA) (loc : Nat), s.resolve w a n al wr = .ok (.mem p loc) →
    (p.sp = .dev → s.granOwner (p.a / 65536) = some w.ctx) ∧
    (p.sp = .sram → w.core < 384 → p.a / 2 ^ 21 / 384 = w.ctx ∧ loc = 4)) ∧
  (∀ (s : State) (w : Who) (a : DWord) (n al : Nat) (wr : Bool), a.toNat < winBase →
    (∀ va p, s.resolve w a n al wr = .ok (.region va p) → p.sp = .dev → s.granOwner (p.a / 65536) = some w.ctx) ∧
    (∀ v base size off, s.resolve w a n al wr = .ok (.view v base size off 0) →
      let b := v.span off (max n 4)
      s.granOwner ((base + b.1) / 65536) = some w.ctx ∧ s.granOwner ((base + b.1 + b.2 - 1) / 65536) = some w.ctx))

/-! ### The whole machine -/

/-- R195 to R202, R316, R346: decoding an instruction's own bits gives it back, every operand at every value its encoding admits; and bits that decode
are the bits of the well-formed instruction they decode to. -/
def Obligations.DecodeAndEncodeAgree : Prop :=
  (∀ (i : Instr) (x : Nat), i.wellFormed = true → encodeSlot i = some x → x < 2 ^ 96 ∧ decodeSlot x = .ok i) ∧
  (∀ (x : Nat) (i : Instr), x < 2 ^ 96 → decodeSlot x = .ok i → i.wellFormed = true ∧ encodeSlot i = some x) ∧
  (∀ (i : Instr) (w : Nat), encodeDyzil i = some w → w < 2 ^ 32 ∧ decodeDyzil w = some i) ∧
  (∀ (w : Nat) (i : Instr), decodeDyzil w = some i → encodeDyzil i = some w)

/-- Every step keeps the device's, the host's and the scratchpads' memory in canonical form.
The canonical form is the model's, what an unlisted byte reads as included (log 2). -/
def Obligations.StepKeepsMemory : Prop := ∀ s t : State, s.memOk = true → step s = .next t → t.memOk = true

/-- R17, R224, R409, R412, R428: the machine after module reset has its memories in canonical form and empty; CYCLE and the counts of the trace buffer, the
error log and the fault summaries are 0, one partition has all eight clusters, and of each core's banks 0 to 23 are cache ways and 24 to 31
scratchpad. That nothing is listed, exists or runs is the model's choice of an empty device (log 2, log 6). -/
def Obligations.ResetState : Prop :=
  State.reset.memOk = true ∧ State.reset.dev = [] ∧ State.reset.host = [] ∧ State.reset.sram = [] ∧
  State.reset.cycle = 0 ∧ State.reset.mgmt.layout = 0xFFFFFFF3 ∧ State.reset.mgmt.traceN = 0 ∧ State.reset.mgmt.errN = 0 ∧
  (∀ k, (State.reset.key k).summary.ucount = 0 ∧ (State.reset.key k).summary.dcount = 0 ∧ (State.reset.key k).summary.reflost = 0 ∧
    (State.reset.key k).imported = false) ∧
  (∀ ctx core b, b < 24 → (State.reset.cc ctx core).role b = 0) ∧
  (∀ ctx core b, 24 ≤ b → b < 32 → (State.reset.cc ctx core).role b = 1) ∧
  State.reset.fibres = [] ∧ State.reset.ctxs = [] ∧ State.reset.queues = []

/-- A step takes the next agent's turn and runs exec of what that turn fetched: a port the instruction that its group's line decodes to (the program
counters moved to its slot, the walks of lines that it comes to made, its first word noted, its registers passed through the register caches), a sequencer that of its stream's line, a Dyzil
engine that of its program counter, a queue whose wait is satisfied among them, and a happening itself; then time passes. A fault or a refusal of exec is the step's.
That one agent acts per step, and how the next is chosen, is the model's (log 6). -/
def Obligations.StepRunsWhatIsDecoded : Prop :=
  (∀ (s u : State) (a : Act) (i : Instr) (v : State), s.nextAct = (some a, u) → u.takeTurn a = .run i v →
    (∀ t, exec i v = .next t → step s = .next t.finish) ∧ (∀ r, exec i v = .fault r → step s = .fault r) ∧
    (∀ r, exec i v = .refused r → step s = .refused r)) ∧
  (∀ (s0 : State) (core p : Nat) (r : PortRun) (f : Fibre) (fs : List Fibre) (ws : List Word) (pa : PA) (k : Nat) (i : Instr),
    let s : State := { s0 with actor := .port core p }
    s.group = some ⟨core, p, r, f :: fs⟩ →
    s.fetchLine f.ctx (f.pc.toNat / 64 * 64) = .ok (ws, pa) → lineDefect ws false = none →
    slotFrom ws (f.pc.toNat % 64) = some k → k < 64 → decodeSlot (slotBits ws k) = .ok i → r.count < 24 →
    let la := f.pc.toNat / 64 * 64
    let fs' := (f :: fs).map fun x => x.goesTo (BitVec.ofNat 64 (la + k))
    let w := (s.putFibres fs').fetchWalks ⟨core, p, r, f :: fs⟩ la (slotLitNext (slotBits ws k))
    let u := (w.touchRegs ⟨core, p, r, fs'⟩ i (slotGuard (slotBits ws k))).putPort core p { r with word := BitVec.ofNat 32 (slotBits ws k), line := la }
    s0.takeTurn (.port core p) = .run i (if flushesFar i then u.flushFar r.fibres else u)) ∧
  (∀ (s0 : State) (core n tk : Nat) (t : Team) (ws : List Word) (pa : PA) (k : Nat) (i : Instr),
    let s1 : State := { s0 with actor := .seqr core n }
    s1.seqTeam core n = some (tk, t) → t.seqr.halt = false → s1.seqIdle t = false → (s1.seqStops t = false ∨ t.seqr.midway = true) →
    (t.seqr.entry = true → s1.checkTarget t.ctx t.seqr.spc = none) →
    let s : State := if t.seqr.entry then s1.modSeqr tk (fun q => { q with entry := false }) else s1
    s.fetchLine t.ctx (t.seqr.spc.toNat / 64 * 64) = .ok (ws, pa) → lineDefect ws true = none →
    slotFrom ws (t.seqr.spc.toNat % 64) = some k → 0x380 ≤ (ws.getD (3 * k) 0).toNat % 1024 → decodeSlot (slotBits ws k) = .ok i →
    s0.takeTurn (.seqr core n) = .run i ((s.modSeqr tk fun q => { q with spc := BitVec.ofNat 64 (t.seqr.spc.toNat / 64 * 64 + k) }).seqWalk tk t
      (t.seqr.spc.toNat / 64 * 64))) ∧
  (∀ (s : State) (q : Nat) (x : Queue) (i : Instr), s.queue q = some x → x.pkt.isSome = true → x.wait = .none → x.steps < 256 →
    decodeDyzil (x.prog.getD x.pc 0).toNat = some i →
    s.takeTurn (.dyzil q) = .run i (({ s with actor := .dyzil q } : State).putQueue q x)) ∧
  (∀ (s : State) (q : Nat) (x : Queue) (i : Instr), s.queue q = some x → x.satisfied = true → ({ s with actor := .dyzil q } : State).nextQueue = some q → x.steps < 256 →
    decodeDyzil (x.prog.getD x.pc 0).toNat = some i →
    s.takeTurn (.dyzil q) = .run i (({ s with actor := .dyzil q, lastQueue := q } : State).putQueue q (if x.wait = .resume then { x with wait := .none } else x))) ∧
  (∀ (s : State) (i : Instr), s.takeTurn (.event i) = .run i { s with actor := .none })

/-- R195, R201, R202, R316, R346: words laid out from the encoding tables decode to the instructions they stand for: `st.w32 [v2], v4`, `exit`, the third
coefficient's `ffma`, `shfl.down.w32 p0, v20, v23`, `barinit #0, #0b11, c1`, `fget.w1 v30, v18`, `perform v3, #0x0123, #7`, `xmmaz a1, s3, s2`
and `ldp d11, #4`; operation code 0x3FF is refused. -/
def Obligations.WordsDecode : Prop :=
  let g (mod : BitVec 6) (dst : Dst) (a b c : Src) (imm : BitVec 20) : GOp := ⟨.always, mod, dst, a, b, c, imm⟩
  let slot (w0 w1 w2 : Nat) : Except EncErr Instr := decodeSlot (w0 + 2 ^ 32 * w1 + 2 ^ 64 * w2)
  slot 0x58000A81 0x00001000 0 = .ok (.st (g 2 .none (.v 2 false) (.v 4 false) (.v 0 false) 0)) ∧
  slot 0x00000208 0 0 = .ok (.exit (g 0 (.v 0) (.v 0 false) (.v 0 false) (.v 0 false) 0)) ∧
  slot 0x08000083 0x00000100 0x3E80000C = .ok (.ffma (g 0 (.p 0) (.p 0) (.v 0 false) .imm 0x3E800)) ∧
  slot 0x88003980 0x00005C02 0 = .ok (.shfl (g 14 (.p 0) (.v 20 false) (.v 23 false) (.v 0 false) 0)) ∧
  slot 0x38000300 0x00000200 0x00030000 = .ok (.barinit (g 0 .none (.c 1) (.v 0 false) (.v 0 false) 0x30)) ∧
  slot 0x401E0210 0x00000002 0 = .ok (.fget (g 0 (.v 30) (.v 18 false) (.v 0 false) (.v 0 false) 0)) ∧
  slot 0x0003020B 0x91800300 0x00007000 = .ok (.perform (g 0 (.v 3) .imm (.v 0 false) (.v 0x123 false) 7)) ∧
  slot 0x60010384 0x00000800 0 = .ok (.xmmaz 1 3 2) ∧
  decodeDyzil 0x00040B01 = some (.dyzilLdp 11 4) ∧
  (∃ e, slot 0x3FF 0 0 = .error e)
end

