-- ==== Sys2Proof/Laws/Tables.lean ====
section
/-! SUPPORT. Laws of sparse tables and of memories in canonical form. -/

namespace Sys2Proof.Machine

@[simp] theorem Tab.get_set {α : Type} (t : Tab α) (k j : Nat) (a : α) :
    Tab.get (Tab.set t k a) j = if k = j then some a else Tab.get t j := by
  induction t with
  | nil => simp [Tab.set, Tab.get]
  | cons x r ih =>
    obtain ⟨i, b⟩ := x
    unfold Tab.set
    split_ifs with h1 h2 <;> simp only [Tab.get, ih] <;> split_ifs <;> simp_all

@[simp] theorem Tab.get_erase {α : Type} (t : Tab α) (k j : Nat) :
    Tab.get (Tab.erase t k) j = if k = j then none else Tab.get t j := by
  induction t with
  | nil => simp [Tab.erase, Tab.get]
  | cons x r ih =>
    obtain ⟨i, b⟩ := x
    simp only [Tab.erase, List.filter_cons] at ih ⊢
    by_cases h : i = k <;> simp only [Tab.get, h, bne_self_eq_false, bne_iff_ne, ne_eq, not_false_eq_true, if_true] <;>
      split_ifs <;> simp_all

/-! ### The canonical form of a memory -/

theorem risingFrom_le {m : List Host.Cell} {lo hi : Nat} (h : risingFrom hi m = true) (hl : lo ≤ hi) : risingFrom lo m = true := by
  cases m with
  | nil => rfl
  | cons x r =>
    obtain ⟨i, c⟩ := x
    simp only [risingFrom, Bool.and_eq_true, decide_eq_true_eq] at h ⊢
    exact ⟨⟨le_trans hl h.1.1, h.1.2⟩, h.2⟩

theorem risingFrom_set {m : List Host.Cell} {lo a : Nat} {b : Byte} (h : risingFrom lo m = true) (hl : lo ≤ a) (hb : b ≠ 0) :
    risingFrom lo (Tab.set m a b) = true := by
  induction m generalizing lo with
  | nil => simp [Tab.set, risingFrom, hl]; exact hb
  | cons x r ih =>
    obtain ⟨i, c⟩ := x
    simp only [risingFrom, Bool.and_eq_true, decide_eq_true_eq] at h
    unfold Tab.set
    split_ifs with h1 h2
    · subst h1; simp [risingFrom, h]; exact hb
    · simp only [risingFrom, Bool.and_eq_true, decide_eq_true_eq]
      exact ⟨⟨hl, hb⟩, ⟨h2, h.1.2⟩, h.2⟩
    · simp only [risingFrom, Bool.and_eq_true, decide_eq_true_eq]
      exact ⟨h.1, ih h.2 (by omega)⟩

theorem risingFrom_filter {m : List Host.Cell} {lo : Nat} (p : Host.Cell → Bool) (h : risingFrom lo m = true) :
    risingFrom lo (m.filter p) = true := by
  induction m generalizing lo with
  | nil => rfl
  | cons x r ih =>
    simp only [risingFrom, Bool.and_eq_true, decide_eq_true_eq] at h
    rw [List.filter_cons]
    split_ifs
    · simp only [risingFrom, Bool.and_eq_true, decide_eq_true_eq]
      exact ⟨h.1, ih h.2⟩
    · exact risingFrom_le (ih h.2) (by omega)

/-- Writing a byte keeps the canonical form. -/
theorem Memory.wf_cellWrite {m : List Host.Cell} (a : Nat) (b : Byte) (h : Memory.wf m = true) : Memory.wf (cellWrite m a b) = true := by
  unfold cellWrite Memory.wf
  split_ifs with hb
  · exact risingFrom_filter _ h
  · exact risingFrom_set h (Nat.zero_le a) hb

/-- Writing bytes keeps the canonical form. -/
theorem Memory.wf_cellsWrite {m : List Host.Cell} (a : Nat) (bs : List Byte) (h : Memory.wf m = true) :
    Memory.wf (cellsWrite m a bs) = true := by
  induction bs generalizing m a with
  | nil => exact h
  | cons b r ih => exact ih _ (Memory.wf_cellWrite a b h)

/-- Removing bytes keeps the canonical form. -/
theorem Memory.wf_filter {m : List Host.Cell} (p : Host.Cell → Bool) (h : Memory.wf m = true) : Memory.wf (m.filter p) = true :=
  risingFrom_filter p h

/-- A byte reads as it was last written. -/
@[simp] theorem cellRead_cellWrite (m : List Host.Cell) (a j : Nat) (b : Byte) :
    cellRead (cellWrite m a b) j = if a = j then b else cellRead m j := by
  unfold cellWrite cellRead
  split_ifs <;> simp_all

/-- Bytes written read back, and every other byte stands. -/
theorem cellRead_cellsWrite (m : List Host.Cell) (a j : Nat) (bs : List Byte) :
    cellRead (cellsWrite m a bs) j = if a ≤ j ∧ j < a + bs.length then bs.getD (j - a) 0 else cellRead m j := by
  induction bs generalizing m a with
  | nil => simp [cellsWrite]
  | cons b r ih =>
    rw [cellsWrite, ih, cellRead_cellWrite]
    by_cases h1 : a = j
    · subst h1; simp
    · by_cases h2 : a + 1 ≤ j ∧ j < a + 1 + r.length
      · have h3 : a ≤ j ∧ j < a + (b :: r).length := by simp; omega
        have h4 : j - a = (j - (a + 1)) + 1 := by omega
        rw [if_pos h2, if_pos h3, h4]; simp
      · have h3 : ¬ (a ≤ j ∧ j < a + (b :: r).length) := by simp; omega
        rw [if_neg h2, if_neg h1, if_neg h3]

theorem risesFrom_le {m : List Host.Cell} {lo hi : Nat} (h : risesFrom hi m = true) (hl : lo ≤ hi) : risesFrom lo m = true := by
  cases m with
  | nil => rfl
  | cons x r =>
    obtain ⟨i, c⟩ := x
    simp only [risesFrom, Bool.and_eq_true, decide_eq_true_eq] at h ⊢
    exact ⟨le_trans hl h.1, h.2⟩

theorem risesFrom_set {m : List Host.Cell} {lo a : Nat} {b : Byte} (h : risesFrom lo m = true) (hl : lo ≤ a) :
    risesFrom lo (Tab.set m a b) = true := by
  induction m generalizing lo with
  | nil => simp [Tab.set, risesFrom, hl]
  | cons x r ih =>
    obtain ⟨i, c⟩ := x
    simp only [risesFrom, Bool.and_eq_true, decide_eq_true_eq] at h
    unfold Tab.set
    split_ifs with h1 h2
    · subst h1; simp [risesFrom, h]
    · simp only [risesFrom, Bool.and_eq_true, decide_eq_true_eq]
      exact ⟨hl, h2, h.2⟩
    · simp only [risesFrom, Bool.and_eq_true, decide_eq_true_eq]
      exact ⟨h.1, ih h.2 (by omega)⟩

theorem risesFrom_filter {m : List Host.Cell} {lo : Nat} (p : Host.Cell → Bool) (h : risesFrom lo m = true) :
    risesFrom lo (m.filter p) = true := by
  induction m generalizing lo with
  | nil => rfl
  | cons x r ih =>
    simp only [risesFrom, Bool.and_eq_true, decide_eq_true_eq] at h
    rw [List.filter_cons]
    split_ifs
    · simp only [risesFrom, Bool.and_eq_true, decide_eq_true_eq]
      exact ⟨h.1, ih h.2⟩
    · exact risesFrom_le (ih h.2) (by omega)

theorem risesFrom_tabWrite {m : List Host.Cell} (a : Nat) (bs : List Byte) (h : risesFrom 0 m = true) :
    risesFrom 0 (tabWrite m a bs) = true := by
  induction bs generalizing m a with
  | nil => exact h
  | cons b r ih => exact ih _ (risesFrom_set h (Nat.zero_le a))

end Sys2Proof.Machine
end

