-- ==== Sys2Proof/Laws/State.lean ====
section
/-! SUPPORT. Each update of the state beside each field: one lemma per field per update, true by rfl. -/

namespace Sys2Proof.Machine

/-! ### putFibre -/

@[simp] theorem State.putFibre_agenda (s : State) (f : Fibre) : (s.putFibre f).agenda = s.agenda := rfl
@[simp] theorem State.putFibre_actor (s : State) (f : Fibre) : (s.putFibre f).actor = s.actor := rfl
@[simp] theorem State.putFibre_ticks (s : State) (f : Fibre) : (s.putFibre f).ticks = s.ticks := rfl
@[simp] theorem State.putFibre_seeds (s : State) (f : Fibre) : (s.putFibre f).seeds = s.seeds := rfl
@[simp] theorem State.putFibre_accesses (s : State) (f : Fibre) : (s.putFibre f).accesses = s.accesses := rfl
@[simp] theorem State.putFibre_nextKey (s : State) (f : Fibre) : (s.putFibre f).nextKey = s.nextKey := rfl
@[simp] theorem State.putFibre_frag (s : State) (f : Fibre) : (s.putFibre f).frag = s.frag := rfl
@[simp] theorem State.putFibre_cycle (s : State) (f : Fibre) : (s.putFibre f).cycle = s.cycle := rfl
@[simp] theorem State.putFibre_ptpBase (s : State) (f : Fibre) : (s.putFibre f).ptpBase = s.ptpBase := rfl
@[simp] theorem State.putFibre_ptpOff (s : State) (f : Fibre) : (s.putFibre f).ptpOff = s.ptpOff := rfl
@[simp] theorem State.putFibre_ptpLast (s : State) (f : Fibre) : (s.putFibre f).ptpLast = s.ptpLast := rfl
@[simp] theorem State.putFibre_ptpGood (s : State) (f : Fibre) : (s.putFibre f).ptpGood = s.ptpGood := rfl
@[simp] theorem State.putFibre_device (s : State) (f : Fibre) : (s.putFibre f).device = s.device := rfl
@[simp] theorem State.putFibre_dev (s : State) (f : Fibre) : (s.putFibre f).dev = s.dev := rfl
@[simp] theorem State.putFibre_host (s : State) (f : Fibre) : (s.putFibre f).host = s.host := rfl
@[simp] theorem State.putFibre_sram (s : State) (f : Fibre) : (s.putFibre f).sram = s.sram := rfl
@[simp] theorem State.putFibre_lines (s : State) (f : Fibre) : (s.putFibre f).lines = s.lines := rfl
@[simp] theorem State.putFibre_claims (s : State) (f : Fibre) : (s.putFibre f).claims = s.claims := rfl
@[simp] theorem State.putFibre_ports (s : State) (f : Fibre) : (s.putFibre f).ports = s.ports := rfl
@[simp] theorem State.putFibre_crews (s : State) (f : Fibre) : (s.putFibre f).crews = s.crews := rfl
@[simp] theorem State.putFibre_teams (s : State) (f : Fibre) : (s.putFibre f).teams = s.teams := rfl
@[simp] theorem State.putFibre_fills (s : State) (f : Fibre) : (s.putFibre f).fills = s.fills := rfl
@[simp] theorem State.putFibre_coreCtx (s : State) (f : Fibre) : (s.putFibre f).coreCtx = s.coreCtx := rfl
@[simp] theorem State.putFibre_clusterCtx (s : State) (f : Fibre) : (s.putFibre f).clusterCtx = s.clusterCtx := rfl
@[simp] theorem State.putFibre_clusters (s : State) (f : Fibre) : (s.putFibre f).clusters = s.clusters := rfl
@[simp] theorem State.putFibre_scrub (s : State) (f : Fibre) : (s.putFibre f).scrub = s.scrub := rfl
@[simp] theorem State.putFibre_ctxs (s : State) (f : Fibre) : (s.putFibre f).ctxs = s.ctxs := rfl
@[simp] theorem State.putFibre_launches (s : State) (f : Fibre) : (s.putFibre f).launches = s.launches := rfl
@[simp] theorem State.putFibre_queues (s : State) (f : Fibre) : (s.putFibre f).queues = s.queues := rfl
@[simp] theorem State.putFibre_qregs (s : State) (f : Fibre) : (s.putFibre f).qregs = s.qregs := rfl
@[simp] theorem State.putFibre_lastQueue (s : State) (f : Fibre) : (s.putFibre f).lastQueue = s.lastQueue := rfl
@[simp] theorem State.putFibre_keys (s : State) (f : Fibre) : (s.putFibre f).keys = s.keys := rfl
@[simp] theorem State.putFibre_parts (s : State) (f : Fibre) : (s.putFibre f).parts = s.parts := rfl
@[simp] theorem State.putFibre_mgmt (s : State) (f : Fibre) : (s.putFibre f).mgmt = s.mgmt := rfl
@[simp] theorem State.putFibre_link (s : State) (f : Fibre) : (s.putFibre f).link = s.link := rfl
@[simp] theorem State.putFibre_hostUp (s : State) (f : Fibre) : (s.putFibre f).hostUp = s.hostUp := rfl
@[simp] theorem State.putFibre_hostCache (s : State) (f : Fibre) : (s.putFibre f).hostCache = s.hostCache := rfl
@[simp] theorem State.putFibre_hostAtomics (s : State) (f : Fibre) : (s.putFibre f).hostAtomics = s.hostAtomics := rfl
@[simp] theorem State.putFibre_hostStamp (s : State) (f : Fibre) : (s.putFibre f).hostStamp = s.hostStamp := rfl
@[simp] theorem State.putFibre_stops (s : State) (f : Fibre) : (s.putFibre f).stops = s.stops := rfl
@[simp] theorem State.putFibre_rcache (s : State) (f : Fibre) : (s.putFibre f).rcache = s.rcache := rfl
@[simp] theorem State.putFibre_segLines (s : State) (f : Fibre) : (s.putFibre f).segLines = s.segLines := rfl
@[simp] theorem State.putFibre_codeAsks (s : State) (f : Fibre) : (s.putFibre f).codeAsks = s.codeAsks := rfl
@[simp] theorem State.putFibre_jobs (s : State) (f : Fibre) : (s.putFibre f).jobs = s.jobs := rfl
@[simp] theorem State.putFibre_hostStores (s : State) (f : Fibre) : (s.putFibre f).hostStores = s.hostStores := rfl
@[simp] theorem State.putFibre_hostData (s : State) (f : Fibre) : (s.putFibre f).hostData = s.hostData := rfl
@[simp] theorem State.putFibre_hostPoison (s : State) (f : Fibre) : (s.putFibre f).hostPoison = s.hostPoison := rfl
@[simp] theorem State.putFibre_hostDownAt (s : State) (f : Fibre) : (s.putFibre f).hostDownAt = s.hostDownAt := rfl
@[simp] theorem State.putFibre_inbox (s : State) (f : Fibre) : (s.putFibre f).inbox = s.inbox := rfl

/-! ### putCrew -/

@[simp] theorem State.putCrew_agenda (s : State) (k : Nat) (c : Crew) : (s.putCrew k c).agenda = s.agenda := rfl
@[simp] theorem State.putCrew_actor (s : State) (k : Nat) (c : Crew) : (s.putCrew k c).actor = s.actor := rfl
@[simp] theorem State.putCrew_ticks (s : State) (k : Nat) (c : Crew) : (s.putCrew k c).ticks = s.ticks := rfl
@[simp] theorem State.putCrew_seeds (s : State) (k : Nat) (c : Crew) : (s.putCrew k c).seeds = s.seeds := rfl
@[simp] theorem State.putCrew_accesses (s : State) (k : Nat) (c : Crew) : (s.putCrew k c).accesses = s.accesses := rfl
@[simp] theorem State.putCrew_nextKey (s : State) (k : Nat) (c : Crew) : (s.putCrew k c).nextKey = s.nextKey := rfl
@[simp] theorem State.putCrew_frag (s : State) (k : Nat) (c : Crew) : (s.putCrew k c).frag = s.frag := rfl
@[simp] theorem State.putCrew_cycle (s : State) (k : Nat) (c : Crew) : (s.putCrew k c).cycle = s.cycle := rfl
@[simp] theorem State.putCrew_ptpBase (s : State) (k : Nat) (c : Crew) : (s.putCrew k c).ptpBase = s.ptpBase := rfl
@[simp] theorem State.putCrew_ptpOff (s : State) (k : Nat) (c : Crew) : (s.putCrew k c).ptpOff = s.ptpOff := rfl
@[simp] theorem State.putCrew_ptpLast (s : State) (k : Nat) (c : Crew) : (s.putCrew k c).ptpLast = s.ptpLast := rfl
@[simp] theorem State.putCrew_ptpGood (s : State) (k : Nat) (c : Crew) : (s.putCrew k c).ptpGood = s.ptpGood := rfl
@[simp] theorem State.putCrew_device (s : State) (k : Nat) (c : Crew) : (s.putCrew k c).device = s.device := rfl
@[simp] theorem State.putCrew_dev (s : State) (k : Nat) (c : Crew) : (s.putCrew k c).dev = s.dev := rfl
@[simp] theorem State.putCrew_host (s : State) (k : Nat) (c : Crew) : (s.putCrew k c).host = s.host := rfl
@[simp] theorem State.putCrew_sram (s : State) (k : Nat) (c : Crew) : (s.putCrew k c).sram = s.sram := rfl
@[simp] theorem State.putCrew_lines (s : State) (k : Nat) (c : Crew) : (s.putCrew k c).lines = s.lines := rfl
@[simp] theorem State.putCrew_claims (s : State) (k : Nat) (c : Crew) : (s.putCrew k c).claims = s.claims := rfl
@[simp] theorem State.putCrew_ports (s : State) (k : Nat) (c : Crew) : (s.putCrew k c).ports = s.ports := rfl
@[simp] theorem State.putCrew_fibres (s : State) (k : Nat) (c : Crew) : (s.putCrew k c).fibres = s.fibres := rfl
@[simp] theorem State.putCrew_teams (s : State) (k : Nat) (c : Crew) : (s.putCrew k c).teams = s.teams := rfl
@[simp] theorem State.putCrew_fills (s : State) (k : Nat) (c : Crew) : (s.putCrew k c).fills = s.fills := rfl
@[simp] theorem State.putCrew_coreCtx (s : State) (k : Nat) (c : Crew) : (s.putCrew k c).coreCtx = s.coreCtx := rfl
@[simp] theorem State.putCrew_clusterCtx (s : State) (k : Nat) (c : Crew) : (s.putCrew k c).clusterCtx = s.clusterCtx := rfl
@[simp] theorem State.putCrew_clusters (s : State) (k : Nat) (c : Crew) : (s.putCrew k c).clusters = s.clusters := rfl
@[simp] theorem State.putCrew_scrub (s : State) (k : Nat) (c : Crew) : (s.putCrew k c).scrub = s.scrub := rfl
@[simp] theorem State.putCrew_ctxs (s : State) (k : Nat) (c : Crew) : (s.putCrew k c).ctxs = s.ctxs := rfl
@[simp] theorem State.putCrew_launches (s : State) (k : Nat) (c : Crew) : (s.putCrew k c).launches = s.launches := rfl
@[simp] theorem State.putCrew_queues (s : State) (k : Nat) (c : Crew) : (s.putCrew k c).queues = s.queues := rfl
@[simp] theorem State.putCrew_qregs (s : State) (k : Nat) (c : Crew) : (s.putCrew k c).qregs = s.qregs := rfl
@[simp] theorem State.putCrew_lastQueue (s : State) (k : Nat) (c : Crew) : (s.putCrew k c).lastQueue = s.lastQueue := rfl
@[simp] theorem State.putCrew_keys (s : State) (k : Nat) (c : Crew) : (s.putCrew k c).keys = s.keys := rfl
@[simp] theorem State.putCrew_parts (s : State) (k : Nat) (c : Crew) : (s.putCrew k c).parts = s.parts := rfl
@[simp] theorem State.putCrew_mgmt (s : State) (k : Nat) (c : Crew) : (s.putCrew k c).mgmt = s.mgmt := rfl
@[simp] theorem State.putCrew_link (s : State) (k : Nat) (c : Crew) : (s.putCrew k c).link = s.link := rfl
@[simp] theorem State.putCrew_hostUp (s : State) (k : Nat) (c : Crew) : (s.putCrew k c).hostUp = s.hostUp := rfl
@[simp] theorem State.putCrew_hostCache (s : State) (k : Nat) (c : Crew) : (s.putCrew k c).hostCache = s.hostCache := rfl
@[simp] theorem State.putCrew_hostAtomics (s : State) (k : Nat) (c : Crew) : (s.putCrew k c).hostAtomics = s.hostAtomics := rfl
@[simp] theorem State.putCrew_hostStamp (s : State) (k : Nat) (c : Crew) : (s.putCrew k c).hostStamp = s.hostStamp := rfl
@[simp] theorem State.putCrew_stops (s : State) (k : Nat) (c : Crew) : (s.putCrew k c).stops = s.stops := rfl
@[simp] theorem State.putCrew_rcache (s : State) (k : Nat) (c : Crew) : (s.putCrew k c).rcache = s.rcache := rfl
@[simp] theorem State.putCrew_segLines (s : State) (k : Nat) (c : Crew) : (s.putCrew k c).segLines = s.segLines := rfl
@[simp] theorem State.putCrew_codeAsks (s : State) (k : Nat) (c : Crew) : (s.putCrew k c).codeAsks = s.codeAsks := rfl
@[simp] theorem State.putCrew_jobs (s : State) (k : Nat) (c : Crew) : (s.putCrew k c).jobs = s.jobs := rfl
@[simp] theorem State.putCrew_hostStores (s : State) (k : Nat) (c : Crew) : (s.putCrew k c).hostStores = s.hostStores := rfl
@[simp] theorem State.putCrew_hostData (s : State) (k : Nat) (c : Crew) : (s.putCrew k c).hostData = s.hostData := rfl
@[simp] theorem State.putCrew_hostPoison (s : State) (k : Nat) (c : Crew) : (s.putCrew k c).hostPoison = s.hostPoison := rfl
@[simp] theorem State.putCrew_hostDownAt (s : State) (k : Nat) (c : Crew) : (s.putCrew k c).hostDownAt = s.hostDownAt := rfl
@[simp] theorem State.putCrew_inbox (s : State) (k : Nat) (c : Crew) : (s.putCrew k c).inbox = s.inbox := rfl

/-! ### putTeam -/

@[simp] theorem State.putTeam_agenda (s : State) (k : Nat) (x : Team) : (s.putTeam k x).agenda = s.agenda := rfl
@[simp] theorem State.putTeam_actor (s : State) (k : Nat) (x : Team) : (s.putTeam k x).actor = s.actor := rfl
@[simp] theorem State.putTeam_ticks (s : State) (k : Nat) (x : Team) : (s.putTeam k x).ticks = s.ticks := rfl
@[simp] theorem State.putTeam_seeds (s : State) (k : Nat) (x : Team) : (s.putTeam k x).seeds = s.seeds := rfl
@[simp] theorem State.putTeam_accesses (s : State) (k : Nat) (x : Team) : (s.putTeam k x).accesses = s.accesses := rfl
@[simp] theorem State.putTeam_nextKey (s : State) (k : Nat) (x : Team) : (s.putTeam k x).nextKey = s.nextKey := rfl
@[simp] theorem State.putTeam_frag (s : State) (k : Nat) (x : Team) : (s.putTeam k x).frag = s.frag := rfl
@[simp] theorem State.putTeam_cycle (s : State) (k : Nat) (x : Team) : (s.putTeam k x).cycle = s.cycle := rfl
@[simp] theorem State.putTeam_ptpBase (s : State) (k : Nat) (x : Team) : (s.putTeam k x).ptpBase = s.ptpBase := rfl
@[simp] theorem State.putTeam_ptpOff (s : State) (k : Nat) (x : Team) : (s.putTeam k x).ptpOff = s.ptpOff := rfl
@[simp] theorem State.putTeam_ptpLast (s : State) (k : Nat) (x : Team) : (s.putTeam k x).ptpLast = s.ptpLast := rfl
@[simp] theorem State.putTeam_ptpGood (s : State) (k : Nat) (x : Team) : (s.putTeam k x).ptpGood = s.ptpGood := rfl
@[simp] theorem State.putTeam_device (s : State) (k : Nat) (x : Team) : (s.putTeam k x).device = s.device := rfl
@[simp] theorem State.putTeam_dev (s : State) (k : Nat) (x : Team) : (s.putTeam k x).dev = s.dev := rfl
@[simp] theorem State.putTeam_host (s : State) (k : Nat) (x : Team) : (s.putTeam k x).host = s.host := rfl
@[simp] theorem State.putTeam_sram (s : State) (k : Nat) (x : Team) : (s.putTeam k x).sram = s.sram := rfl
@[simp] theorem State.putTeam_lines (s : State) (k : Nat) (x : Team) : (s.putTeam k x).lines = s.lines := rfl
@[simp] theorem State.putTeam_claims (s : State) (k : Nat) (x : Team) : (s.putTeam k x).claims = s.claims := rfl
@[simp] theorem State.putTeam_ports (s : State) (k : Nat) (x : Team) : (s.putTeam k x).ports = s.ports := rfl
@[simp] theorem State.putTeam_fibres (s : State) (k : Nat) (x : Team) : (s.putTeam k x).fibres = s.fibres := rfl
@[simp] theorem State.putTeam_crews (s : State) (k : Nat) (x : Team) : (s.putTeam k x).crews = s.crews := rfl
@[simp] theorem State.putTeam_fills (s : State) (k : Nat) (x : Team) : (s.putTeam k x).fills = s.fills := rfl
@[simp] theorem State.putTeam_coreCtx (s : State) (k : Nat) (x : Team) : (s.putTeam k x).coreCtx = s.coreCtx := rfl
@[simp] theorem State.putTeam_clusterCtx (s : State) (k : Nat) (x : Team) : (s.putTeam k x).clusterCtx = s.clusterCtx := rfl
@[simp] theorem State.putTeam_clusters (s : State) (k : Nat) (x : Team) : (s.putTeam k x).clusters = s.clusters := rfl
@[simp] theorem State.putTeam_scrub (s : State) (k : Nat) (x : Team) : (s.putTeam k x).scrub = s.scrub := rfl
@[simp] theorem State.putTeam_ctxs (s : State) (k : Nat) (x : Team) : (s.putTeam k x).ctxs = s.ctxs := rfl
@[simp] theorem State.putTeam_launches (s : State) (k : Nat) (x : Team) : (s.putTeam k x).launches = s.launches := rfl
@[simp] theorem State.putTeam_queues (s : State) (k : Nat) (x : Team) : (s.putTeam k x).queues = s.queues := rfl
@[simp] theorem State.putTeam_qregs (s : State) (k : Nat) (x : Team) : (s.putTeam k x).qregs = s.qregs := rfl
@[simp] theorem State.putTeam_lastQueue (s : State) (k : Nat) (x : Team) : (s.putTeam k x).lastQueue = s.lastQueue := rfl
@[simp] theorem State.putTeam_keys (s : State) (k : Nat) (x : Team) : (s.putTeam k x).keys = s.keys := rfl
@[simp] theorem State.putTeam_parts (s : State) (k : Nat) (x : Team) : (s.putTeam k x).parts = s.parts := rfl
@[simp] theorem State.putTeam_mgmt (s : State) (k : Nat) (x : Team) : (s.putTeam k x).mgmt = s.mgmt := rfl
@[simp] theorem State.putTeam_link (s : State) (k : Nat) (x : Team) : (s.putTeam k x).link = s.link := rfl
@[simp] theorem State.putTeam_hostUp (s : State) (k : Nat) (x : Team) : (s.putTeam k x).hostUp = s.hostUp := rfl
@[simp] theorem State.putTeam_hostCache (s : State) (k : Nat) (x : Team) : (s.putTeam k x).hostCache = s.hostCache := rfl
@[simp] theorem State.putTeam_hostAtomics (s : State) (k : Nat) (x : Team) : (s.putTeam k x).hostAtomics = s.hostAtomics := rfl
@[simp] theorem State.putTeam_hostStamp (s : State) (k : Nat) (x : Team) : (s.putTeam k x).hostStamp = s.hostStamp := rfl
@[simp] theorem State.putTeam_stops (s : State) (k : Nat) (x : Team) : (s.putTeam k x).stops = s.stops := rfl
@[simp] theorem State.putTeam_rcache (s : State) (k : Nat) (x : Team) : (s.putTeam k x).rcache = s.rcache := rfl
@[simp] theorem State.putTeam_segLines (s : State) (k : Nat) (x : Team) : (s.putTeam k x).segLines = s.segLines := rfl
@[simp] theorem State.putTeam_codeAsks (s : State) (k : Nat) (x : Team) : (s.putTeam k x).codeAsks = s.codeAsks := rfl
@[simp] theorem State.putTeam_jobs (s : State) (k : Nat) (x : Team) : (s.putTeam k x).jobs = s.jobs := rfl
@[simp] theorem State.putTeam_hostStores (s : State) (k : Nat) (x : Team) : (s.putTeam k x).hostStores = s.hostStores := rfl
@[simp] theorem State.putTeam_hostData (s : State) (k : Nat) (x : Team) : (s.putTeam k x).hostData = s.hostData := rfl
@[simp] theorem State.putTeam_hostPoison (s : State) (k : Nat) (x : Team) : (s.putTeam k x).hostPoison = s.hostPoison := rfl
@[simp] theorem State.putTeam_hostDownAt (s : State) (k : Nat) (x : Team) : (s.putTeam k x).hostDownAt = s.hostDownAt := rfl
@[simp] theorem State.putTeam_inbox (s : State) (k : Nat) (x : Team) : (s.putTeam k x).inbox = s.inbox := rfl

/-! ### putCtx -/

@[simp] theorem State.putCtx_agenda (s : State) (k : Nat) (x : Ctx) : (s.putCtx k x).agenda = s.agenda := rfl
@[simp] theorem State.putCtx_actor (s : State) (k : Nat) (x : Ctx) : (s.putCtx k x).actor = s.actor := rfl
@[simp] theorem State.putCtx_ticks (s : State) (k : Nat) (x : Ctx) : (s.putCtx k x).ticks = s.ticks := rfl
@[simp] theorem State.putCtx_seeds (s : State) (k : Nat) (x : Ctx) : (s.putCtx k x).seeds = s.seeds := rfl
@[simp] theorem State.putCtx_accesses (s : State) (k : Nat) (x : Ctx) : (s.putCtx k x).accesses = s.accesses := rfl
@[simp] theorem State.putCtx_nextKey (s : State) (k : Nat) (x : Ctx) : (s.putCtx k x).nextKey = s.nextKey := rfl
@[simp] theorem State.putCtx_frag (s : State) (k : Nat) (x : Ctx) : (s.putCtx k x).frag = s.frag := rfl
@[simp] theorem State.putCtx_cycle (s : State) (k : Nat) (x : Ctx) : (s.putCtx k x).cycle = s.cycle := rfl
@[simp] theorem State.putCtx_ptpBase (s : State) (k : Nat) (x : Ctx) : (s.putCtx k x).ptpBase = s.ptpBase := rfl
@[simp] theorem State.putCtx_ptpOff (s : State) (k : Nat) (x : Ctx) : (s.putCtx k x).ptpOff = s.ptpOff := rfl
@[simp] theorem State.putCtx_ptpLast (s : State) (k : Nat) (x : Ctx) : (s.putCtx k x).ptpLast = s.ptpLast := rfl
@[simp] theorem State.putCtx_ptpGood (s : State) (k : Nat) (x : Ctx) : (s.putCtx k x).ptpGood = s.ptpGood := rfl
@[simp] theorem State.putCtx_device (s : State) (k : Nat) (x : Ctx) : (s.putCtx k x).device = s.device := rfl
@[simp] theorem State.putCtx_dev (s : State) (k : Nat) (x : Ctx) : (s.putCtx k x).dev = s.dev := rfl
@[simp] theorem State.putCtx_host (s : State) (k : Nat) (x : Ctx) : (s.putCtx k x).host = s.host := rfl
@[simp] theorem State.putCtx_sram (s : State) (k : Nat) (x : Ctx) : (s.putCtx k x).sram = s.sram := rfl
@[simp] theorem State.putCtx_lines (s : State) (k : Nat) (x : Ctx) : (s.putCtx k x).lines = s.lines := rfl
@[simp] theorem State.putCtx_claims (s : State) (k : Nat) (x : Ctx) : (s.putCtx k x).claims = s.claims := rfl
@[simp] theorem State.putCtx_ports (s : State) (k : Nat) (x : Ctx) : (s.putCtx k x).ports = s.ports := rfl
@[simp] theorem State.putCtx_fibres (s : State) (k : Nat) (x : Ctx) : (s.putCtx k x).fibres = s.fibres := rfl
@[simp] theorem State.putCtx_crews (s : State) (k : Nat) (x : Ctx) : (s.putCtx k x).crews = s.crews := rfl
@[simp] theorem State.putCtx_teams (s : State) (k : Nat) (x : Ctx) : (s.putCtx k x).teams = s.teams := rfl
@[simp] theorem State.putCtx_fills (s : State) (k : Nat) (x : Ctx) : (s.putCtx k x).fills = s.fills := rfl
@[simp] theorem State.putCtx_coreCtx (s : State) (k : Nat) (x : Ctx) : (s.putCtx k x).coreCtx = s.coreCtx := rfl
@[simp] theorem State.putCtx_clusterCtx (s : State) (k : Nat) (x : Ctx) : (s.putCtx k x).clusterCtx = s.clusterCtx := rfl
@[simp] theorem State.putCtx_clusters (s : State) (k : Nat) (x : Ctx) : (s.putCtx k x).clusters = s.clusters := rfl
@[simp] theorem State.putCtx_scrub (s : State) (k : Nat) (x : Ctx) : (s.putCtx k x).scrub = s.scrub := rfl
@[simp] theorem State.putCtx_launches (s : State) (k : Nat) (x : Ctx) : (s.putCtx k x).launches = s.launches := rfl
@[simp] theorem State.putCtx_queues (s : State) (k : Nat) (x : Ctx) : (s.putCtx k x).queues = s.queues := rfl
@[simp] theorem State.putCtx_qregs (s : State) (k : Nat) (x : Ctx) : (s.putCtx k x).qregs = s.qregs := rfl
@[simp] theorem State.putCtx_lastQueue (s : State) (k : Nat) (x : Ctx) : (s.putCtx k x).lastQueue = s.lastQueue := rfl
@[simp] theorem State.putCtx_keys (s : State) (k : Nat) (x : Ctx) : (s.putCtx k x).keys = s.keys := rfl
@[simp] theorem State.putCtx_parts (s : State) (k : Nat) (x : Ctx) : (s.putCtx k x).parts = s.parts := rfl
@[simp] theorem State.putCtx_mgmt (s : State) (k : Nat) (x : Ctx) : (s.putCtx k x).mgmt = s.mgmt := rfl
@[simp] theorem State.putCtx_link (s : State) (k : Nat) (x : Ctx) : (s.putCtx k x).link = s.link := rfl
@[simp] theorem State.putCtx_hostUp (s : State) (k : Nat) (x : Ctx) : (s.putCtx k x).hostUp = s.hostUp := rfl
@[simp] theorem State.putCtx_hostCache (s : State) (k : Nat) (x : Ctx) : (s.putCtx k x).hostCache = s.hostCache := rfl
@[simp] theorem State.putCtx_hostAtomics (s : State) (k : Nat) (x : Ctx) : (s.putCtx k x).hostAtomics = s.hostAtomics := rfl
@[simp] theorem State.putCtx_hostStamp (s : State) (k : Nat) (x : Ctx) : (s.putCtx k x).hostStamp = s.hostStamp := rfl
@[simp] theorem State.putCtx_stops (s : State) (k : Nat) (x : Ctx) : (s.putCtx k x).stops = s.stops := rfl
@[simp] theorem State.putCtx_rcache (s : State) (k : Nat) (x : Ctx) : (s.putCtx k x).rcache = s.rcache := rfl
@[simp] theorem State.putCtx_segLines (s : State) (k : Nat) (x : Ctx) : (s.putCtx k x).segLines = s.segLines := rfl
@[simp] theorem State.putCtx_codeAsks (s : State) (k : Nat) (x : Ctx) : (s.putCtx k x).codeAsks = s.codeAsks := rfl
@[simp] theorem State.putCtx_jobs (s : State) (k : Nat) (x : Ctx) : (s.putCtx k x).jobs = s.jobs := rfl
@[simp] theorem State.putCtx_hostStores (s : State) (k : Nat) (x : Ctx) : (s.putCtx k x).hostStores = s.hostStores := rfl
@[simp] theorem State.putCtx_hostData (s : State) (k : Nat) (x : Ctx) : (s.putCtx k x).hostData = s.hostData := rfl
@[simp] theorem State.putCtx_hostPoison (s : State) (k : Nat) (x : Ctx) : (s.putCtx k x).hostPoison = s.hostPoison := rfl
@[simp] theorem State.putCtx_hostDownAt (s : State) (k : Nat) (x : Ctx) : (s.putCtx k x).hostDownAt = s.hostDownAt := rfl
@[simp] theorem State.putCtx_inbox (s : State) (k : Nat) (x : Ctx) : (s.putCtx k x).inbox = s.inbox := rfl

/-! ### putCC -/

@[simp] theorem State.putCC_agenda (s : State) (c k : Nat) (x : CoreCtx) : (s.putCC c k x).agenda = s.agenda := rfl
@[simp] theorem State.putCC_actor (s : State) (c k : Nat) (x : CoreCtx) : (s.putCC c k x).actor = s.actor := rfl
@[simp] theorem State.putCC_ticks (s : State) (c k : Nat) (x : CoreCtx) : (s.putCC c k x).ticks = s.ticks := rfl
@[simp] theorem State.putCC_seeds (s : State) (c k : Nat) (x : CoreCtx) : (s.putCC c k x).seeds = s.seeds := rfl
@[simp] theorem State.putCC_accesses (s : State) (c k : Nat) (x : CoreCtx) : (s.putCC c k x).accesses = s.accesses := rfl
@[simp] theorem State.putCC_nextKey (s : State) (c k : Nat) (x : CoreCtx) : (s.putCC c k x).nextKey = s.nextKey := rfl
@[simp] theorem State.putCC_frag (s : State) (c k : Nat) (x : CoreCtx) : (s.putCC c k x).frag = s.frag := rfl
@[simp] theorem State.putCC_cycle (s : State) (c k : Nat) (x : CoreCtx) : (s.putCC c k x).cycle = s.cycle := rfl
@[simp] theorem State.putCC_ptpBase (s : State) (c k : Nat) (x : CoreCtx) : (s.putCC c k x).ptpBase = s.ptpBase := rfl
@[simp] theorem State.putCC_ptpOff (s : State) (c k : Nat) (x : CoreCtx) : (s.putCC c k x).ptpOff = s.ptpOff := rfl
@[simp] theorem State.putCC_ptpLast (s : State) (c k : Nat) (x : CoreCtx) : (s.putCC c k x).ptpLast = s.ptpLast := rfl
@[simp] theorem State.putCC_ptpGood (s : State) (c k : Nat) (x : CoreCtx) : (s.putCC c k x).ptpGood = s.ptpGood := rfl
@[simp] theorem State.putCC_device (s : State) (c k : Nat) (x : CoreCtx) : (s.putCC c k x).device = s.device := rfl
@[simp] theorem State.putCC_dev (s : State) (c k : Nat) (x : CoreCtx) : (s.putCC c k x).dev = s.dev := rfl
@[simp] theorem State.putCC_host (s : State) (c k : Nat) (x : CoreCtx) : (s.putCC c k x).host = s.host := rfl
@[simp] theorem State.putCC_sram (s : State) (c k : Nat) (x : CoreCtx) : (s.putCC c k x).sram = s.sram := rfl
@[simp] theorem State.putCC_lines (s : State) (c k : Nat) (x : CoreCtx) : (s.putCC c k x).lines = s.lines := rfl
@[simp] theorem State.putCC_claims (s : State) (c k : Nat) (x : CoreCtx) : (s.putCC c k x).claims = s.claims := rfl
@[simp] theorem State.putCC_ports (s : State) (c k : Nat) (x : CoreCtx) : (s.putCC c k x).ports = s.ports := rfl
@[simp] theorem State.putCC_fibres (s : State) (c k : Nat) (x : CoreCtx) : (s.putCC c k x).fibres = s.fibres := rfl
@[simp] theorem State.putCC_crews (s : State) (c k : Nat) (x : CoreCtx) : (s.putCC c k x).crews = s.crews := rfl
@[simp] theorem State.putCC_teams (s : State) (c k : Nat) (x : CoreCtx) : (s.putCC c k x).teams = s.teams := rfl
@[simp] theorem State.putCC_fills (s : State) (c k : Nat) (x : CoreCtx) : (s.putCC c k x).fills = s.fills := rfl
@[simp] theorem State.putCC_clusterCtx (s : State) (c k : Nat) (x : CoreCtx) : (s.putCC c k x).clusterCtx = s.clusterCtx := rfl
@[simp] theorem State.putCC_clusters (s : State) (c k : Nat) (x : CoreCtx) : (s.putCC c k x).clusters = s.clusters := rfl
@[simp] theorem State.putCC_scrub (s : State) (c k : Nat) (x : CoreCtx) : (s.putCC c k x).scrub = s.scrub := rfl
@[simp] theorem State.putCC_ctxs (s : State) (c k : Nat) (x : CoreCtx) : (s.putCC c k x).ctxs = s.ctxs := rfl
@[simp] theorem State.putCC_launches (s : State) (c k : Nat) (x : CoreCtx) : (s.putCC c k x).launches = s.launches := rfl
@[simp] theorem State.putCC_queues (s : State) (c k : Nat) (x : CoreCtx) : (s.putCC c k x).queues = s.queues := rfl
@[simp] theorem State.putCC_qregs (s : State) (c k : Nat) (x : CoreCtx) : (s.putCC c k x).qregs = s.qregs := rfl
@[simp] theorem State.putCC_lastQueue (s : State) (c k : Nat) (x : CoreCtx) : (s.putCC c k x).lastQueue = s.lastQueue := rfl
@[simp] theorem State.putCC_keys (s : State) (c k : Nat) (x : CoreCtx) : (s.putCC c k x).keys = s.keys := rfl
@[simp] theorem State.putCC_parts (s : State) (c k : Nat) (x : CoreCtx) : (s.putCC c k x).parts = s.parts := rfl
@[simp] theorem State.putCC_mgmt (s : State) (c k : Nat) (x : CoreCtx) : (s.putCC c k x).mgmt = s.mgmt := rfl
@[simp] theorem State.putCC_link (s : State) (c k : Nat) (x : CoreCtx) : (s.putCC c k x).link = s.link := rfl
@[simp] theorem State.putCC_hostUp (s : State) (c k : Nat) (x : CoreCtx) : (s.putCC c k x).hostUp = s.hostUp := rfl
@[simp] theorem State.putCC_hostCache (s : State) (c k : Nat) (x : CoreCtx) : (s.putCC c k x).hostCache = s.hostCache := rfl
@[simp] theorem State.putCC_hostAtomics (s : State) (c k : Nat) (x : CoreCtx) : (s.putCC c k x).hostAtomics = s.hostAtomics := rfl
@[simp] theorem State.putCC_hostStamp (s : State) (c k : Nat) (x : CoreCtx) : (s.putCC c k x).hostStamp = s.hostStamp := rfl
@[simp] theorem State.putCC_stops (s : State) (c k : Nat) (x : CoreCtx) : (s.putCC c k x).stops = s.stops := rfl
@[simp] theorem State.putCC_rcache (s : State) (c k : Nat) (x : CoreCtx) : (s.putCC c k x).rcache = s.rcache := rfl
@[simp] theorem State.putCC_segLines (s : State) (c k : Nat) (x : CoreCtx) : (s.putCC c k x).segLines = s.segLines := rfl
@[simp] theorem State.putCC_codeAsks (s : State) (c k : Nat) (x : CoreCtx) : (s.putCC c k x).codeAsks = s.codeAsks := rfl
@[simp] theorem State.putCC_jobs (s : State) (c k : Nat) (x : CoreCtx) : (s.putCC c k x).jobs = s.jobs := rfl
@[simp] theorem State.putCC_hostStores (s : State) (c k : Nat) (x : CoreCtx) : (s.putCC c k x).hostStores = s.hostStores := rfl
@[simp] theorem State.putCC_hostData (s : State) (c k : Nat) (x : CoreCtx) : (s.putCC c k x).hostData = s.hostData := rfl
@[simp] theorem State.putCC_hostPoison (s : State) (c k : Nat) (x : CoreCtx) : (s.putCC c k x).hostPoison = s.hostPoison := rfl
@[simp] theorem State.putCC_hostDownAt (s : State) (c k : Nat) (x : CoreCtx) : (s.putCC c k x).hostDownAt = s.hostDownAt := rfl
@[simp] theorem State.putCC_inbox (s : State) (c k : Nat) (x : CoreCtx) : (s.putCC c k x).inbox = s.inbox := rfl

/-! ### putCLC -/

@[simp] theorem State.putCLC_agenda (s : State) (c k : Nat) (x : ClusterCtx) : (s.putCLC c k x).agenda = s.agenda := rfl
@[simp] theorem State.putCLC_actor (s : State) (c k : Nat) (x : ClusterCtx) : (s.putCLC c k x).actor = s.actor := rfl
@[simp] theorem State.putCLC_ticks (s : State) (c k : Nat) (x : ClusterCtx) : (s.putCLC c k x).ticks = s.ticks := rfl
@[simp] theorem State.putCLC_seeds (s : State) (c k : Nat) (x : ClusterCtx) : (s.putCLC c k x).seeds = s.seeds := rfl
@[simp] theorem State.putCLC_accesses (s : State) (c k : Nat) (x : ClusterCtx) : (s.putCLC c k x).accesses = s.accesses := rfl
@[simp] theorem State.putCLC_nextKey (s : State) (c k : Nat) (x : ClusterCtx) : (s.putCLC c k x).nextKey = s.nextKey := rfl
@[simp] theorem State.putCLC_frag (s : State) (c k : Nat) (x : ClusterCtx) : (s.putCLC c k x).frag = s.frag := rfl
@[simp] theorem State.putCLC_cycle (s : State) (c k : Nat) (x : ClusterCtx) : (s.putCLC c k x).cycle = s.cycle := rfl
@[simp] theorem State.putCLC_ptpBase (s : State) (c k : Nat) (x : ClusterCtx) : (s.putCLC c k x).ptpBase = s.ptpBase := rfl
@[simp] theorem State.putCLC_ptpOff (s : State) (c k : Nat) (x : ClusterCtx) : (s.putCLC c k x).ptpOff = s.ptpOff := rfl
@[simp] theorem State.putCLC_ptpLast (s : State) (c k : Nat) (x : ClusterCtx) : (s.putCLC c k x).ptpLast = s.ptpLast := rfl
@[simp] theorem State.putCLC_ptpGood (s : State) (c k : Nat) (x : ClusterCtx) : (s.putCLC c k x).ptpGood = s.ptpGood := rfl
@[simp] theorem State.putCLC_device (s : State) (c k : Nat) (x : ClusterCtx) : (s.putCLC c k x).device = s.device := rfl
@[simp] theorem State.putCLC_dev (s : State) (c k : Nat) (x : ClusterCtx) : (s.putCLC c k x).dev = s.dev := rfl
@[simp] theorem State.putCLC_host (s : State) (c k : Nat) (x : ClusterCtx) : (s.putCLC c k x).host = s.host := rfl
@[simp] theorem State.putCLC_sram (s : State) (c k : Nat) (x : ClusterCtx) : (s.putCLC c k x).sram = s.sram := rfl
@[simp] theorem State.putCLC_lines (s : State) (c k : Nat) (x : ClusterCtx) : (s.putCLC c k x).lines = s.lines := rfl
@[simp] theorem State.putCLC_claims (s : State) (c k : Nat) (x : ClusterCtx) : (s.putCLC c k x).claims = s.claims := rfl
@[simp] theorem State.putCLC_ports (s : State) (c k : Nat) (x : ClusterCtx) : (s.putCLC c k x).ports = s.ports := rfl
@[simp] theorem State.putCLC_fibres (s : State) (c k : Nat) (x : ClusterCtx) : (s.putCLC c k x).fibres = s.fibres := rfl
@[simp] theorem State.putCLC_crews (s : State) (c k : Nat) (x : ClusterCtx) : (s.putCLC c k x).crews = s.crews := rfl
@[simp] theorem State.putCLC_teams (s : State) (c k : Nat) (x : ClusterCtx) : (s.putCLC c k x).teams = s.teams := rfl
@[simp] theorem State.putCLC_fills (s : State) (c k : Nat) (x : ClusterCtx) : (s.putCLC c k x).fills = s.fills := rfl
@[simp] theorem State.putCLC_coreCtx (s : State) (c k : Nat) (x : ClusterCtx) : (s.putCLC c k x).coreCtx = s.coreCtx := rfl
@[simp] theorem State.putCLC_clusters (s : State) (c k : Nat) (x : ClusterCtx) : (s.putCLC c k x).clusters = s.clusters := rfl
@[simp] theorem State.putCLC_scrub (s : State) (c k : Nat) (x : ClusterCtx) : (s.putCLC c k x).scrub = s.scrub := rfl
@[simp] theorem State.putCLC_ctxs (s : State) (c k : Nat) (x : ClusterCtx) : (s.putCLC c k x).ctxs = s.ctxs := rfl
@[simp] theorem State.putCLC_launches (s : State) (c k : Nat) (x : ClusterCtx) : (s.putCLC c k x).launches = s.launches := rfl
@[simp] theorem State.putCLC_queues (s : State) (c k : Nat) (x : ClusterCtx) : (s.putCLC c k x).queues = s.queues := rfl
@[simp] theorem State.putCLC_qregs (s : State) (c k : Nat) (x : ClusterCtx) : (s.putCLC c k x).qregs = s.qregs := rfl
@[simp] theorem State.putCLC_lastQueue (s : State) (c k : Nat) (x : ClusterCtx) : (s.putCLC c k x).lastQueue = s.lastQueue := rfl
@[simp] theorem State.putCLC_keys (s : State) (c k : Nat) (x : ClusterCtx) : (s.putCLC c k x).keys = s.keys := rfl
@[simp] theorem State.putCLC_parts (s : State) (c k : Nat) (x : ClusterCtx) : (s.putCLC c k x).parts = s.parts := rfl
@[simp] theorem State.putCLC_mgmt (s : State) (c k : Nat) (x : ClusterCtx) : (s.putCLC c k x).mgmt = s.mgmt := rfl
@[simp] theorem State.putCLC_link (s : State) (c k : Nat) (x : ClusterCtx) : (s.putCLC c k x).link = s.link := rfl
@[simp] theorem State.putCLC_hostUp (s : State) (c k : Nat) (x : ClusterCtx) : (s.putCLC c k x).hostUp = s.hostUp := rfl
@[simp] theorem State.putCLC_hostCache (s : State) (c k : Nat) (x : ClusterCtx) : (s.putCLC c k x).hostCache = s.hostCache := rfl
@[simp] theorem State.putCLC_hostAtomics (s : State) (c k : Nat) (x : ClusterCtx) : (s.putCLC c k x).hostAtomics = s.hostAtomics := rfl
@[simp] theorem State.putCLC_hostStamp (s : State) (c k : Nat) (x : ClusterCtx) : (s.putCLC c k x).hostStamp = s.hostStamp := rfl
@[simp] theorem State.putCLC_stops (s : State) (c k : Nat) (x : ClusterCtx) : (s.putCLC c k x).stops = s.stops := rfl
@[simp] theorem State.putCLC_rcache (s : State) (c k : Nat) (x : ClusterCtx) : (s.putCLC c k x).rcache = s.rcache := rfl
@[simp] theorem State.putCLC_segLines (s : State) (c k : Nat) (x : ClusterCtx) : (s.putCLC c k x).segLines = s.segLines := rfl
@[simp] theorem State.putCLC_codeAsks (s : State) (c k : Nat) (x : ClusterCtx) : (s.putCLC c k x).codeAsks = s.codeAsks := rfl
@[simp] theorem State.putCLC_jobs (s : State) (c k : Nat) (x : ClusterCtx) : (s.putCLC c k x).jobs = s.jobs := rfl
@[simp] theorem State.putCLC_hostStores (s : State) (c k : Nat) (x : ClusterCtx) : (s.putCLC c k x).hostStores = s.hostStores := rfl
@[simp] theorem State.putCLC_hostData (s : State) (c k : Nat) (x : ClusterCtx) : (s.putCLC c k x).hostData = s.hostData := rfl
@[simp] theorem State.putCLC_hostPoison (s : State) (c k : Nat) (x : ClusterCtx) : (s.putCLC c k x).hostPoison = s.hostPoison := rfl
@[simp] theorem State.putCLC_hostDownAt (s : State) (c k : Nat) (x : ClusterCtx) : (s.putCLC c k x).hostDownAt = s.hostDownAt := rfl
@[simp] theorem State.putCLC_inbox (s : State) (c k : Nat) (x : ClusterCtx) : (s.putCLC c k x).inbox = s.inbox := rfl

/-! ### putCluster -/

@[simp] theorem State.putCluster_agenda (s : State) (k : Nat) (x : Cluster) : (s.putCluster k x).agenda = s.agenda := rfl
@[simp] theorem State.putCluster_actor (s : State) (k : Nat) (x : Cluster) : (s.putCluster k x).actor = s.actor := rfl
@[simp] theorem State.putCluster_ticks (s : State) (k : Nat) (x : Cluster) : (s.putCluster k x).ticks = s.ticks := rfl
@[simp] theorem State.putCluster_seeds (s : State) (k : Nat) (x : Cluster) : (s.putCluster k x).seeds = s.seeds := rfl
@[simp] theorem State.putCluster_accesses (s : State) (k : Nat) (x : Cluster) : (s.putCluster k x).accesses = s.accesses := rfl
@[simp] theorem State.putCluster_nextKey (s : State) (k : Nat) (x : Cluster) : (s.putCluster k x).nextKey = s.nextKey := rfl
@[simp] theorem State.putCluster_frag (s : State) (k : Nat) (x : Cluster) : (s.putCluster k x).frag = s.frag := rfl
@[simp] theorem State.putCluster_cycle (s : State) (k : Nat) (x : Cluster) : (s.putCluster k x).cycle = s.cycle := rfl
@[simp] theorem State.putCluster_ptpBase (s : State) (k : Nat) (x : Cluster) : (s.putCluster k x).ptpBase = s.ptpBase := rfl
@[simp] theorem State.putCluster_ptpOff (s : State) (k : Nat) (x : Cluster) : (s.putCluster k x).ptpOff = s.ptpOff := rfl
@[simp] theorem State.putCluster_ptpLast (s : State) (k : Nat) (x : Cluster) : (s.putCluster k x).ptpLast = s.ptpLast := rfl
@[simp] theorem State.putCluster_ptpGood (s : State) (k : Nat) (x : Cluster) : (s.putCluster k x).ptpGood = s.ptpGood := rfl
@[simp] theorem State.putCluster_device (s : State) (k : Nat) (x : Cluster) : (s.putCluster k x).device = s.device := rfl
@[simp] theorem State.putCluster_dev (s : State) (k : Nat) (x : Cluster) : (s.putCluster k x).dev = s.dev := rfl
@[simp] theorem State.putCluster_host (s : State) (k : Nat) (x : Cluster) : (s.putCluster k x).host = s.host := rfl
@[simp] theorem State.putCluster_sram (s : State) (k : Nat) (x : Cluster) : (s.putCluster k x).sram = s.sram := rfl
@[simp] theorem State.putCluster_lines (s : State) (k : Nat) (x : Cluster) : (s.putCluster k x).lines = s.lines := rfl
@[simp] theorem State.putCluster_claims (s : State) (k : Nat) (x : Cluster) : (s.putCluster k x).claims = s.claims := rfl
@[simp] theorem State.putCluster_ports (s : State) (k : Nat) (x : Cluster) : (s.putCluster k x).ports = s.ports := rfl
@[simp] theorem State.putCluster_fibres (s : State) (k : Nat) (x : Cluster) : (s.putCluster k x).fibres = s.fibres := rfl
@[simp] theorem State.putCluster_crews (s : State) (k : Nat) (x : Cluster) : (s.putCluster k x).crews = s.crews := rfl
@[simp] theorem State.putCluster_teams (s : State) (k : Nat) (x : Cluster) : (s.putCluster k x).teams = s.teams := rfl
@[simp] theorem State.putCluster_fills (s : State) (k : Nat) (x : Cluster) : (s.putCluster k x).fills = s.fills := rfl
@[simp] theorem State.putCluster_coreCtx (s : State) (k : Nat) (x : Cluster) : (s.putCluster k x).coreCtx = s.coreCtx := rfl
@[simp] theorem State.putCluster_clusterCtx (s : State) (k : Nat) (x : Cluster) : (s.putCluster k x).clusterCtx = s.clusterCtx := rfl
@[simp] theorem State.putCluster_scrub (s : State) (k : Nat) (x : Cluster) : (s.putCluster k x).scrub = s.scrub := rfl
@[simp] theorem State.putCluster_ctxs (s : State) (k : Nat) (x : Cluster) : (s.putCluster k x).ctxs = s.ctxs := rfl
@[simp] theorem State.putCluster_launches (s : State) (k : Nat) (x : Cluster) : (s.putCluster k x).launches = s.launches := rfl
@[simp] theorem State.putCluster_queues (s : State) (k : Nat) (x : Cluster) : (s.putCluster k x).queues = s.queues := rfl
@[simp] theorem State.putCluster_qregs (s : State) (k : Nat) (x : Cluster) : (s.putCluster k x).qregs = s.qregs := rfl
@[simp] theorem State.putCluster_lastQueue (s : State) (k : Nat) (x : Cluster) : (s.putCluster k x).lastQueue = s.lastQueue := rfl
@[simp] theorem State.putCluster_keys (s : State) (k : Nat) (x : Cluster) : (s.putCluster k x).keys = s.keys := rfl
@[simp] theorem State.putCluster_parts (s : State) (k : Nat) (x : Cluster) : (s.putCluster k x).parts = s.parts := rfl
@[simp] theorem State.putCluster_mgmt (s : State) (k : Nat) (x : Cluster) : (s.putCluster k x).mgmt = s.mgmt := rfl
@[simp] theorem State.putCluster_link (s : State) (k : Nat) (x : Cluster) : (s.putCluster k x).link = s.link := rfl
@[simp] theorem State.putCluster_hostUp (s : State) (k : Nat) (x : Cluster) : (s.putCluster k x).hostUp = s.hostUp := rfl
@[simp] theorem State.putCluster_hostCache (s : State) (k : Nat) (x : Cluster) : (s.putCluster k x).hostCache = s.hostCache := rfl
@[simp] theorem State.putCluster_hostAtomics (s : State) (k : Nat) (x : Cluster) : (s.putCluster k x).hostAtomics = s.hostAtomics := rfl
@[simp] theorem State.putCluster_hostStamp (s : State) (k : Nat) (x : Cluster) : (s.putCluster k x).hostStamp = s.hostStamp := rfl
@[simp] theorem State.putCluster_stops (s : State) (k : Nat) (x : Cluster) : (s.putCluster k x).stops = s.stops := rfl
@[simp] theorem State.putCluster_rcache (s : State) (k : Nat) (x : Cluster) : (s.putCluster k x).rcache = s.rcache := rfl
@[simp] theorem State.putCluster_segLines (s : State) (k : Nat) (x : Cluster) : (s.putCluster k x).segLines = s.segLines := rfl
@[simp] theorem State.putCluster_codeAsks (s : State) (k : Nat) (x : Cluster) : (s.putCluster k x).codeAsks = s.codeAsks := rfl
@[simp] theorem State.putCluster_jobs (s : State) (k : Nat) (x : Cluster) : (s.putCluster k x).jobs = s.jobs := rfl
@[simp] theorem State.putCluster_hostStores (s : State) (k : Nat) (x : Cluster) : (s.putCluster k x).hostStores = s.hostStores := rfl
@[simp] theorem State.putCluster_hostData (s : State) (k : Nat) (x : Cluster) : (s.putCluster k x).hostData = s.hostData := rfl
@[simp] theorem State.putCluster_hostPoison (s : State) (k : Nat) (x : Cluster) : (s.putCluster k x).hostPoison = s.hostPoison := rfl
@[simp] theorem State.putCluster_hostDownAt (s : State) (k : Nat) (x : Cluster) : (s.putCluster k x).hostDownAt = s.hostDownAt := rfl
@[simp] theorem State.putCluster_inbox (s : State) (k : Nat) (x : Cluster) : (s.putCluster k x).inbox = s.inbox := rfl

/-! ### putPort -/

@[simp] theorem State.putPort_agenda (s : State) (c p : Nat) (r : PortRun) : (s.putPort c p r).agenda = s.agenda := rfl
@[simp] theorem State.putPort_actor (s : State) (c p : Nat) (r : PortRun) : (s.putPort c p r).actor = s.actor := rfl
@[simp] theorem State.putPort_ticks (s : State) (c p : Nat) (r : PortRun) : (s.putPort c p r).ticks = s.ticks := rfl
@[simp] theorem State.putPort_seeds (s : State) (c p : Nat) (r : PortRun) : (s.putPort c p r).seeds = s.seeds := rfl
@[simp] theorem State.putPort_accesses (s : State) (c p : Nat) (r : PortRun) : (s.putPort c p r).accesses = s.accesses := rfl
@[simp] theorem State.putPort_nextKey (s : State) (c p : Nat) (r : PortRun) : (s.putPort c p r).nextKey = s.nextKey := rfl
@[simp] theorem State.putPort_frag (s : State) (c p : Nat) (r : PortRun) : (s.putPort c p r).frag = s.frag := rfl
@[simp] theorem State.putPort_cycle (s : State) (c p : Nat) (r : PortRun) : (s.putPort c p r).cycle = s.cycle := rfl
@[simp] theorem State.putPort_ptpBase (s : State) (c p : Nat) (r : PortRun) : (s.putPort c p r).ptpBase = s.ptpBase := rfl
@[simp] theorem State.putPort_ptpOff (s : State) (c p : Nat) (r : PortRun) : (s.putPort c p r).ptpOff = s.ptpOff := rfl
@[simp] theorem State.putPort_ptpLast (s : State) (c p : Nat) (r : PortRun) : (s.putPort c p r).ptpLast = s.ptpLast := rfl
@[simp] theorem State.putPort_ptpGood (s : State) (c p : Nat) (r : PortRun) : (s.putPort c p r).ptpGood = s.ptpGood := rfl
@[simp] theorem State.putPort_device (s : State) (c p : Nat) (r : PortRun) : (s.putPort c p r).device = s.device := rfl
@[simp] theorem State.putPort_dev (s : State) (c p : Nat) (r : PortRun) : (s.putPort c p r).dev = s.dev := rfl
@[simp] theorem State.putPort_host (s : State) (c p : Nat) (r : PortRun) : (s.putPort c p r).host = s.host := rfl
@[simp] theorem State.putPort_sram (s : State) (c p : Nat) (r : PortRun) : (s.putPort c p r).sram = s.sram := rfl
@[simp] theorem State.putPort_lines (s : State) (c p : Nat) (r : PortRun) : (s.putPort c p r).lines = s.lines := rfl
@[simp] theorem State.putPort_claims (s : State) (c p : Nat) (r : PortRun) : (s.putPort c p r).claims = s.claims := rfl
@[simp] theorem State.putPort_fibres (s : State) (c p : Nat) (r : PortRun) : (s.putPort c p r).fibres = s.fibres := rfl
@[simp] theorem State.putPort_crews (s : State) (c p : Nat) (r : PortRun) : (s.putPort c p r).crews = s.crews := rfl
@[simp] theorem State.putPort_teams (s : State) (c p : Nat) (r : PortRun) : (s.putPort c p r).teams = s.teams := rfl
@[simp] theorem State.putPort_fills (s : State) (c p : Nat) (r : PortRun) : (s.putPort c p r).fills = s.fills := rfl
@[simp] theorem State.putPort_coreCtx (s : State) (c p : Nat) (r : PortRun) : (s.putPort c p r).coreCtx = s.coreCtx := rfl
@[simp] theorem State.putPort_clusterCtx (s : State) (c p : Nat) (r : PortRun) : (s.putPort c p r).clusterCtx = s.clusterCtx := rfl
@[simp] theorem State.putPort_clusters (s : State) (c p : Nat) (r : PortRun) : (s.putPort c p r).clusters = s.clusters := rfl
@[simp] theorem State.putPort_scrub (s : State) (c p : Nat) (r : PortRun) : (s.putPort c p r).scrub = s.scrub := rfl
@[simp] theorem State.putPort_ctxs (s : State) (c p : Nat) (r : PortRun) : (s.putPort c p r).ctxs = s.ctxs := rfl
@[simp] theorem State.putPort_launches (s : State) (c p : Nat) (r : PortRun) : (s.putPort c p r).launches = s.launches := rfl
@[simp] theorem State.putPort_queues (s : State) (c p : Nat) (r : PortRun) : (s.putPort c p r).queues = s.queues := rfl
@[simp] theorem State.putPort_qregs (s : State) (c p : Nat) (r : PortRun) : (s.putPort c p r).qregs = s.qregs := rfl
@[simp] theorem State.putPort_lastQueue (s : State) (c p : Nat) (r : PortRun) : (s.putPort c p r).lastQueue = s.lastQueue := rfl
@[simp] theorem State.putPort_keys (s : State) (c p : Nat) (r : PortRun) : (s.putPort c p r).keys = s.keys := rfl
@[simp] theorem State.putPort_parts (s : State) (c p : Nat) (r : PortRun) : (s.putPort c p r).parts = s.parts := rfl
@[simp] theorem State.putPort_mgmt (s : State) (c p : Nat) (r : PortRun) : (s.putPort c p r).mgmt = s.mgmt := rfl
@[simp] theorem State.putPort_link (s : State) (c p : Nat) (r : PortRun) : (s.putPort c p r).link = s.link := rfl
@[simp] theorem State.putPort_hostUp (s : State) (c p : Nat) (r : PortRun) : (s.putPort c p r).hostUp = s.hostUp := rfl
@[simp] theorem State.putPort_hostCache (s : State) (c p : Nat) (r : PortRun) : (s.putPort c p r).hostCache = s.hostCache := rfl
@[simp] theorem State.putPort_hostAtomics (s : State) (c p : Nat) (r : PortRun) : (s.putPort c p r).hostAtomics = s.hostAtomics := rfl
@[simp] theorem State.putPort_hostStamp (s : State) (c p : Nat) (r : PortRun) : (s.putPort c p r).hostStamp = s.hostStamp := rfl
@[simp] theorem State.putPort_stops (s : State) (c p : Nat) (r : PortRun) : (s.putPort c p r).stops = s.stops := rfl
@[simp] theorem State.putPort_rcache (s : State) (c p : Nat) (r : PortRun) : (s.putPort c p r).rcache = s.rcache := rfl
@[simp] theorem State.putPort_segLines (s : State) (c p : Nat) (r : PortRun) : (s.putPort c p r).segLines = s.segLines := rfl
@[simp] theorem State.putPort_codeAsks (s : State) (c p : Nat) (r : PortRun) : (s.putPort c p r).codeAsks = s.codeAsks := rfl
@[simp] theorem State.putPort_jobs (s : State) (c p : Nat) (r : PortRun) : (s.putPort c p r).jobs = s.jobs := rfl
@[simp] theorem State.putPort_hostStores (s : State) (c p : Nat) (r : PortRun) : (s.putPort c p r).hostStores = s.hostStores := rfl
@[simp] theorem State.putPort_hostData (s : State) (c p : Nat) (r : PortRun) : (s.putPort c p r).hostData = s.hostData := rfl
@[simp] theorem State.putPort_hostPoison (s : State) (c p : Nat) (r : PortRun) : (s.putPort c p r).hostPoison = s.hostPoison := rfl
@[simp] theorem State.putPort_hostDownAt (s : State) (c p : Nat) (r : PortRun) : (s.putPort c p r).hostDownAt = s.hostDownAt := rfl
@[simp] theorem State.putPort_inbox (s : State) (c p : Nat) (r : PortRun) : (s.putPort c p r).inbox = s.inbox := rfl

/-! ### freePort -/

@[simp] theorem State.freePort_agenda (s : State) (c p : Nat) : (s.freePort c p).agenda = s.agenda := rfl
@[simp] theorem State.freePort_actor (s : State) (c p : Nat) : (s.freePort c p).actor = s.actor := rfl
@[simp] theorem State.freePort_ticks (s : State) (c p : Nat) : (s.freePort c p).ticks = s.ticks := rfl
@[simp] theorem State.freePort_seeds (s : State) (c p : Nat) : (s.freePort c p).seeds = s.seeds := rfl
@[simp] theorem State.freePort_accesses (s : State) (c p : Nat) : (s.freePort c p).accesses = s.accesses := rfl
@[simp] theorem State.freePort_nextKey (s : State) (c p : Nat) : (s.freePort c p).nextKey = s.nextKey := rfl
@[simp] theorem State.freePort_frag (s : State) (c p : Nat) : (s.freePort c p).frag = s.frag := rfl
@[simp] theorem State.freePort_cycle (s : State) (c p : Nat) : (s.freePort c p).cycle = s.cycle := rfl
@[simp] theorem State.freePort_ptpBase (s : State) (c p : Nat) : (s.freePort c p).ptpBase = s.ptpBase := rfl
@[simp] theorem State.freePort_ptpOff (s : State) (c p : Nat) : (s.freePort c p).ptpOff = s.ptpOff := rfl
@[simp] theorem State.freePort_ptpLast (s : State) (c p : Nat) : (s.freePort c p).ptpLast = s.ptpLast := rfl
@[simp] theorem State.freePort_ptpGood (s : State) (c p : Nat) : (s.freePort c p).ptpGood = s.ptpGood := rfl
@[simp] theorem State.freePort_device (s : State) (c p : Nat) : (s.freePort c p).device = s.device := rfl
@[simp] theorem State.freePort_dev (s : State) (c p : Nat) : (s.freePort c p).dev = s.dev := rfl
@[simp] theorem State.freePort_host (s : State) (c p : Nat) : (s.freePort c p).host = s.host := rfl
@[simp] theorem State.freePort_sram (s : State) (c p : Nat) : (s.freePort c p).sram = s.sram := rfl
@[simp] theorem State.freePort_lines (s : State) (c p : Nat) : (s.freePort c p).lines = s.lines := rfl
@[simp] theorem State.freePort_claims (s : State) (c p : Nat) : (s.freePort c p).claims = s.claims := rfl
@[simp] theorem State.freePort_fibres (s : State) (c p : Nat) : (s.freePort c p).fibres = s.fibres := rfl
@[simp] theorem State.freePort_crews (s : State) (c p : Nat) : (s.freePort c p).crews = s.crews := rfl
@[simp] theorem State.freePort_teams (s : State) (c p : Nat) : (s.freePort c p).teams = s.teams := rfl
@[simp] theorem State.freePort_fills (s : State) (c p : Nat) : (s.freePort c p).fills = s.fills := rfl
@[simp] theorem State.freePort_coreCtx (s : State) (c p : Nat) : (s.freePort c p).coreCtx = s.coreCtx := rfl
@[simp] theorem State.freePort_clusterCtx (s : State) (c p : Nat) : (s.freePort c p).clusterCtx = s.clusterCtx := rfl
@[simp] theorem State.freePort_clusters (s : State) (c p : Nat) : (s.freePort c p).clusters = s.clusters := rfl
@[simp] theorem State.freePort_scrub (s : State) (c p : Nat) : (s.freePort c p).scrub = s.scrub := rfl
@[simp] theorem State.freePort_ctxs (s : State) (c p : Nat) : (s.freePort c p).ctxs = s.ctxs := rfl
@[simp] theorem State.freePort_launches (s : State) (c p : Nat) : (s.freePort c p).launches = s.launches := rfl
@[simp] theorem State.freePort_queues (s : State) (c p : Nat) : (s.freePort c p).queues = s.queues := rfl
@[simp] theorem State.freePort_qregs (s : State) (c p : Nat) : (s.freePort c p).qregs = s.qregs := rfl
@[simp] theorem State.freePort_lastQueue (s : State) (c p : Nat) : (s.freePort c p).lastQueue = s.lastQueue := rfl
@[simp] theorem State.freePort_keys (s : State) (c p : Nat) : (s.freePort c p).keys = s.keys := rfl
@[simp] theorem State.freePort_parts (s : State) (c p : Nat) : (s.freePort c p).parts = s.parts := rfl
@[simp] theorem State.freePort_mgmt (s : State) (c p : Nat) : (s.freePort c p).mgmt = s.mgmt := rfl
@[simp] theorem State.freePort_link (s : State) (c p : Nat) : (s.freePort c p).link = s.link := rfl
@[simp] theorem State.freePort_hostUp (s : State) (c p : Nat) : (s.freePort c p).hostUp = s.hostUp := rfl
@[simp] theorem State.freePort_hostCache (s : State) (c p : Nat) : (s.freePort c p).hostCache = s.hostCache := rfl
@[simp] theorem State.freePort_hostAtomics (s : State) (c p : Nat) : (s.freePort c p).hostAtomics = s.hostAtomics := rfl
@[simp] theorem State.freePort_hostStamp (s : State) (c p : Nat) : (s.freePort c p).hostStamp = s.hostStamp := rfl
@[simp] theorem State.freePort_stops (s : State) (c p : Nat) : (s.freePort c p).stops = s.stops := rfl
@[simp] theorem State.freePort_rcache (s : State) (c p : Nat) : (s.freePort c p).rcache = s.rcache := rfl
@[simp] theorem State.freePort_segLines (s : State) (c p : Nat) : (s.freePort c p).segLines = s.segLines := rfl
@[simp] theorem State.freePort_codeAsks (s : State) (c p : Nat) : (s.freePort c p).codeAsks = s.codeAsks := rfl
@[simp] theorem State.freePort_jobs (s : State) (c p : Nat) : (s.freePort c p).jobs = s.jobs := rfl
@[simp] theorem State.freePort_hostStores (s : State) (c p : Nat) : (s.freePort c p).hostStores = s.hostStores := rfl
@[simp] theorem State.freePort_hostData (s : State) (c p : Nat) : (s.freePort c p).hostData = s.hostData := rfl
@[simp] theorem State.freePort_hostPoison (s : State) (c p : Nat) : (s.freePort c p).hostPoison = s.hostPoison := rfl
@[simp] theorem State.freePort_hostDownAt (s : State) (c p : Nat) : (s.freePort c p).hostDownAt = s.hostDownAt := rfl
@[simp] theorem State.freePort_inbox (s : State) (c p : Nat) : (s.freePort c p).inbox = s.inbox := rfl

/-! ### putKey -/

@[simp] theorem State.putKey_agenda (s : State) (k : Nat) (x : KeySlot) : (s.putKey k x).agenda = s.agenda := rfl
@[simp] theorem State.putKey_actor (s : State) (k : Nat) (x : KeySlot) : (s.putKey k x).actor = s.actor := rfl
@[simp] theorem State.putKey_ticks (s : State) (k : Nat) (x : KeySlot) : (s.putKey k x).ticks = s.ticks := rfl
@[simp] theorem State.putKey_seeds (s : State) (k : Nat) (x : KeySlot) : (s.putKey k x).seeds = s.seeds := rfl
@[simp] theorem State.putKey_accesses (s : State) (k : Nat) (x : KeySlot) : (s.putKey k x).accesses = s.accesses := rfl
@[simp] theorem State.putKey_nextKey (s : State) (k : Nat) (x : KeySlot) : (s.putKey k x).nextKey = s.nextKey := rfl
@[simp] theorem State.putKey_frag (s : State) (k : Nat) (x : KeySlot) : (s.putKey k x).frag = s.frag := rfl
@[simp] theorem State.putKey_cycle (s : State) (k : Nat) (x : KeySlot) : (s.putKey k x).cycle = s.cycle := rfl
@[simp] theorem State.putKey_ptpBase (s : State) (k : Nat) (x : KeySlot) : (s.putKey k x).ptpBase = s.ptpBase := rfl
@[simp] theorem State.putKey_ptpOff (s : State) (k : Nat) (x : KeySlot) : (s.putKey k x).ptpOff = s.ptpOff := rfl
@[simp] theorem State.putKey_ptpLast (s : State) (k : Nat) (x : KeySlot) : (s.putKey k x).ptpLast = s.ptpLast := rfl
@[simp] theorem State.putKey_ptpGood (s : State) (k : Nat) (x : KeySlot) : (s.putKey k x).ptpGood = s.ptpGood := rfl
@[simp] theorem State.putKey_device (s : State) (k : Nat) (x : KeySlot) : (s.putKey k x).device = s.device := rfl
@[simp] theorem State.putKey_dev (s : State) (k : Nat) (x : KeySlot) : (s.putKey k x).dev = s.dev := rfl
@[simp] theorem State.putKey_host (s : State) (k : Nat) (x : KeySlot) : (s.putKey k x).host = s.host := rfl
@[simp] theorem State.putKey_sram (s : State) (k : Nat) (x : KeySlot) : (s.putKey k x).sram = s.sram := rfl
@[simp] theorem State.putKey_lines (s : State) (k : Nat) (x : KeySlot) : (s.putKey k x).lines = s.lines := rfl
@[simp] theorem State.putKey_claims (s : State) (k : Nat) (x : KeySlot) : (s.putKey k x).claims = s.claims := rfl
@[simp] theorem State.putKey_ports (s : State) (k : Nat) (x : KeySlot) : (s.putKey k x).ports = s.ports := rfl
@[simp] theorem State.putKey_fibres (s : State) (k : Nat) (x : KeySlot) : (s.putKey k x).fibres = s.fibres := rfl
@[simp] theorem State.putKey_crews (s : State) (k : Nat) (x : KeySlot) : (s.putKey k x).crews = s.crews := rfl
@[simp] theorem State.putKey_teams (s : State) (k : Nat) (x : KeySlot) : (s.putKey k x).teams = s.teams := rfl
@[simp] theorem State.putKey_fills (s : State) (k : Nat) (x : KeySlot) : (s.putKey k x).fills = s.fills := rfl
@[simp] theorem State.putKey_coreCtx (s : State) (k : Nat) (x : KeySlot) : (s.putKey k x).coreCtx = s.coreCtx := rfl
@[simp] theorem State.putKey_clusterCtx (s : State) (k : Nat) (x : KeySlot) : (s.putKey k x).clusterCtx = s.clusterCtx := rfl
@[simp] theorem State.putKey_clusters (s : State) (k : Nat) (x : KeySlot) : (s.putKey k x).clusters = s.clusters := rfl
@[simp] theorem State.putKey_scrub (s : State) (k : Nat) (x : KeySlot) : (s.putKey k x).scrub = s.scrub := rfl
@[simp] theorem State.putKey_ctxs (s : State) (k : Nat) (x : KeySlot) : (s.putKey k x).ctxs = s.ctxs := rfl
@[simp] theorem State.putKey_launches (s : State) (k : Nat) (x : KeySlot) : (s.putKey k x).launches = s.launches := rfl
@[simp] theorem State.putKey_queues (s : State) (k : Nat) (x : KeySlot) : (s.putKey k x).queues = s.queues := rfl
@[simp] theorem State.putKey_qregs (s : State) (k : Nat) (x : KeySlot) : (s.putKey k x).qregs = s.qregs := rfl
@[simp] theorem State.putKey_lastQueue (s : State) (k : Nat) (x : KeySlot) : (s.putKey k x).lastQueue = s.lastQueue := rfl
@[simp] theorem State.putKey_parts (s : State) (k : Nat) (x : KeySlot) : (s.putKey k x).parts = s.parts := rfl
@[simp] theorem State.putKey_mgmt (s : State) (k : Nat) (x : KeySlot) : (s.putKey k x).mgmt = s.mgmt := rfl
@[simp] theorem State.putKey_link (s : State) (k : Nat) (x : KeySlot) : (s.putKey k x).link = s.link := rfl
@[simp] theorem State.putKey_hostUp (s : State) (k : Nat) (x : KeySlot) : (s.putKey k x).hostUp = s.hostUp := rfl
@[simp] theorem State.putKey_hostCache (s : State) (k : Nat) (x : KeySlot) : (s.putKey k x).hostCache = s.hostCache := rfl
@[simp] theorem State.putKey_hostAtomics (s : State) (k : Nat) (x : KeySlot) : (s.putKey k x).hostAtomics = s.hostAtomics := rfl
@[simp] theorem State.putKey_hostStamp (s : State) (k : Nat) (x : KeySlot) : (s.putKey k x).hostStamp = s.hostStamp := rfl
@[simp] theorem State.putKey_stops (s : State) (k : Nat) (x : KeySlot) : (s.putKey k x).stops = s.stops := rfl
@[simp] theorem State.putKey_rcache (s : State) (k : Nat) (x : KeySlot) : (s.putKey k x).rcache = s.rcache := rfl
@[simp] theorem State.putKey_segLines (s : State) (k : Nat) (x : KeySlot) : (s.putKey k x).segLines = s.segLines := rfl
@[simp] theorem State.putKey_codeAsks (s : State) (k : Nat) (x : KeySlot) : (s.putKey k x).codeAsks = s.codeAsks := rfl
@[simp] theorem State.putKey_jobs (s : State) (k : Nat) (x : KeySlot) : (s.putKey k x).jobs = s.jobs := rfl
@[simp] theorem State.putKey_hostStores (s : State) (k : Nat) (x : KeySlot) : (s.putKey k x).hostStores = s.hostStores := rfl
@[simp] theorem State.putKey_hostData (s : State) (k : Nat) (x : KeySlot) : (s.putKey k x).hostData = s.hostData := rfl
@[simp] theorem State.putKey_hostPoison (s : State) (k : Nat) (x : KeySlot) : (s.putKey k x).hostPoison = s.hostPoison := rfl
@[simp] theorem State.putKey_hostDownAt (s : State) (k : Nat) (x : KeySlot) : (s.putKey k x).hostDownAt = s.hostDownAt := rfl
@[simp] theorem State.putKey_inbox (s : State) (k : Nat) (x : KeySlot) : (s.putKey k x).inbox = s.inbox := rfl

/-! ### putPart -/

@[simp] theorem State.putPart_agenda (s : State) (k : Nat) (x : Part) : (s.putPart k x).agenda = s.agenda := rfl
@[simp] theorem State.putPart_actor (s : State) (k : Nat) (x : Part) : (s.putPart k x).actor = s.actor := rfl
@[simp] theorem State.putPart_ticks (s : State) (k : Nat) (x : Part) : (s.putPart k x).ticks = s.ticks := rfl
@[simp] theorem State.putPart_seeds (s : State) (k : Nat) (x : Part) : (s.putPart k x).seeds = s.seeds := rfl
@[simp] theorem State.putPart_accesses (s : State) (k : Nat) (x : Part) : (s.putPart k x).accesses = s.accesses := rfl
@[simp] theorem State.putPart_nextKey (s : State) (k : Nat) (x : Part) : (s.putPart k x).nextKey = s.nextKey := rfl
@[simp] theorem State.putPart_frag (s : State) (k : Nat) (x : Part) : (s.putPart k x).frag = s.frag := rfl
@[simp] theorem State.putPart_cycle (s : State) (k : Nat) (x : Part) : (s.putPart k x).cycle = s.cycle := rfl
@[simp] theorem State.putPart_ptpBase (s : State) (k : Nat) (x : Part) : (s.putPart k x).ptpBase = s.ptpBase := rfl
@[simp] theorem State.putPart_ptpOff (s : State) (k : Nat) (x : Part) : (s.putPart k x).ptpOff = s.ptpOff := rfl
@[simp] theorem State.putPart_ptpLast (s : State) (k : Nat) (x : Part) : (s.putPart k x).ptpLast = s.ptpLast := rfl
@[simp] theorem State.putPart_ptpGood (s : State) (k : Nat) (x : Part) : (s.putPart k x).ptpGood = s.ptpGood := rfl
@[simp] theorem State.putPart_device (s : State) (k : Nat) (x : Part) : (s.putPart k x).device = s.device := rfl
@[simp] theorem State.putPart_dev (s : State) (k : Nat) (x : Part) : (s.putPart k x).dev = s.dev := rfl
@[simp] theorem State.putPart_host (s : State) (k : Nat) (x : Part) : (s.putPart k x).host = s.host := rfl
@[simp] theorem State.putPart_sram (s : State) (k : Nat) (x : Part) : (s.putPart k x).sram = s.sram := rfl
@[simp] theorem State.putPart_lines (s : State) (k : Nat) (x : Part) : (s.putPart k x).lines = s.lines := rfl
@[simp] theorem State.putPart_claims (s : State) (k : Nat) (x : Part) : (s.putPart k x).claims = s.claims := rfl
@[simp] theorem State.putPart_ports (s : State) (k : Nat) (x : Part) : (s.putPart k x).ports = s.ports := rfl
@[simp] theorem State.putPart_fibres (s : State) (k : Nat) (x : Part) : (s.putPart k x).fibres = s.fibres := rfl
@[simp] theorem State.putPart_crews (s : State) (k : Nat) (x : Part) : (s.putPart k x).crews = s.crews := rfl
@[simp] theorem State.putPart_teams (s : State) (k : Nat) (x : Part) : (s.putPart k x).teams = s.teams := rfl
@[simp] theorem State.putPart_fills (s : State) (k : Nat) (x : Part) : (s.putPart k x).fills = s.fills := rfl
@[simp] theorem State.putPart_coreCtx (s : State) (k : Nat) (x : Part) : (s.putPart k x).coreCtx = s.coreCtx := rfl
@[simp] theorem State.putPart_clusterCtx (s : State) (k : Nat) (x : Part) : (s.putPart k x).clusterCtx = s.clusterCtx := rfl
@[simp] theorem State.putPart_clusters (s : State) (k : Nat) (x : Part) : (s.putPart k x).clusters = s.clusters := rfl
@[simp] theorem State.putPart_scrub (s : State) (k : Nat) (x : Part) : (s.putPart k x).scrub = s.scrub := rfl
@[simp] theorem State.putPart_ctxs (s : State) (k : Nat) (x : Part) : (s.putPart k x).ctxs = s.ctxs := rfl
@[simp] theorem State.putPart_launches (s : State) (k : Nat) (x : Part) : (s.putPart k x).launches = s.launches := rfl
@[simp] theorem State.putPart_queues (s : State) (k : Nat) (x : Part) : (s.putPart k x).queues = s.queues := rfl
@[simp] theorem State.putPart_qregs (s : State) (k : Nat) (x : Part) : (s.putPart k x).qregs = s.qregs := rfl
@[simp] theorem State.putPart_lastQueue (s : State) (k : Nat) (x : Part) : (s.putPart k x).lastQueue = s.lastQueue := rfl
@[simp] theorem State.putPart_keys (s : State) (k : Nat) (x : Part) : (s.putPart k x).keys = s.keys := rfl
@[simp] theorem State.putPart_mgmt (s : State) (k : Nat) (x : Part) : (s.putPart k x).mgmt = s.mgmt := rfl
@[simp] theorem State.putPart_link (s : State) (k : Nat) (x : Part) : (s.putPart k x).link = s.link := rfl
@[simp] theorem State.putPart_hostUp (s : State) (k : Nat) (x : Part) : (s.putPart k x).hostUp = s.hostUp := rfl
@[simp] theorem State.putPart_hostCache (s : State) (k : Nat) (x : Part) : (s.putPart k x).hostCache = s.hostCache := rfl
@[simp] theorem State.putPart_hostAtomics (s : State) (k : Nat) (x : Part) : (s.putPart k x).hostAtomics = s.hostAtomics := rfl
@[simp] theorem State.putPart_hostStamp (s : State) (k : Nat) (x : Part) : (s.putPart k x).hostStamp = s.hostStamp := rfl
@[simp] theorem State.putPart_stops (s : State) (k : Nat) (x : Part) : (s.putPart k x).stops = s.stops := rfl
@[simp] theorem State.putPart_rcache (s : State) (k : Nat) (x : Part) : (s.putPart k x).rcache = s.rcache := rfl
@[simp] theorem State.putPart_segLines (s : State) (k : Nat) (x : Part) : (s.putPart k x).segLines = s.segLines := rfl
@[simp] theorem State.putPart_codeAsks (s : State) (k : Nat) (x : Part) : (s.putPart k x).codeAsks = s.codeAsks := rfl
@[simp] theorem State.putPart_jobs (s : State) (k : Nat) (x : Part) : (s.putPart k x).jobs = s.jobs := rfl
@[simp] theorem State.putPart_hostStores (s : State) (k : Nat) (x : Part) : (s.putPart k x).hostStores = s.hostStores := rfl
@[simp] theorem State.putPart_hostData (s : State) (k : Nat) (x : Part) : (s.putPart k x).hostData = s.hostData := rfl
@[simp] theorem State.putPart_hostPoison (s : State) (k : Nat) (x : Part) : (s.putPart k x).hostPoison = s.hostPoison := rfl
@[simp] theorem State.putPart_hostDownAt (s : State) (k : Nat) (x : Part) : (s.putPart k x).hostDownAt = s.hostDownAt := rfl
@[simp] theorem State.putPart_inbox (s : State) (k : Nat) (x : Part) : (s.putPart k x).inbox = s.inbox := rfl

/-! ### putQueue -/

@[simp] theorem State.putQueue_agenda (s : State) (k : Nat) (x : Queue) : (s.putQueue k x).agenda = s.agenda := rfl
@[simp] theorem State.putQueue_actor (s : State) (k : Nat) (x : Queue) : (s.putQueue k x).actor = s.actor := rfl
@[simp] theorem State.putQueue_ticks (s : State) (k : Nat) (x : Queue) : (s.putQueue k x).ticks = s.ticks := rfl
@[simp] theorem State.putQueue_seeds (s : State) (k : Nat) (x : Queue) : (s.putQueue k x).seeds = s.seeds := rfl
@[simp] theorem State.putQueue_accesses (s : State) (k : Nat) (x : Queue) : (s.putQueue k x).accesses = s.accesses := rfl
@[simp] theorem State.putQueue_nextKey (s : State) (k : Nat) (x : Queue) : (s.putQueue k x).nextKey = s.nextKey := rfl
@[simp] theorem State.putQueue_frag (s : State) (k : Nat) (x : Queue) : (s.putQueue k x).frag = s.frag := rfl
@[simp] theorem State.putQueue_cycle (s : State) (k : Nat) (x : Queue) : (s.putQueue k x).cycle = s.cycle := rfl
@[simp] theorem State.putQueue_ptpBase (s : State) (k : Nat) (x : Queue) : (s.putQueue k x).ptpBase = s.ptpBase := rfl
@[simp] theorem State.putQueue_ptpOff (s : State) (k : Nat) (x : Queue) : (s.putQueue k x).ptpOff = s.ptpOff := rfl
@[simp] theorem State.putQueue_ptpLast (s : State) (k : Nat) (x : Queue) : (s.putQueue k x).ptpLast = s.ptpLast := rfl
@[simp] theorem State.putQueue_ptpGood (s : State) (k : Nat) (x : Queue) : (s.putQueue k x).ptpGood = s.ptpGood := rfl
@[simp] theorem State.putQueue_device (s : State) (k : Nat) (x : Queue) : (s.putQueue k x).device = s.device := rfl
@[simp] theorem State.putQueue_dev (s : State) (k : Nat) (x : Queue) : (s.putQueue k x).dev = s.dev := rfl
@[simp] theorem State.putQueue_host (s : State) (k : Nat) (x : Queue) : (s.putQueue k x).host = s.host := rfl
@[simp] theorem State.putQueue_sram (s : State) (k : Nat) (x : Queue) : (s.putQueue k x).sram = s.sram := rfl
@[simp] theorem State.putQueue_lines (s : State) (k : Nat) (x : Queue) : (s.putQueue k x).lines = s.lines := rfl
@[simp] theorem State.putQueue_claims (s : State) (k : Nat) (x : Queue) : (s.putQueue k x).claims = s.claims := rfl
@[simp] theorem State.putQueue_ports (s : State) (k : Nat) (x : Queue) : (s.putQueue k x).ports = s.ports := rfl
@[simp] theorem State.putQueue_fibres (s : State) (k : Nat) (x : Queue) : (s.putQueue k x).fibres = s.fibres := rfl
@[simp] theorem State.putQueue_crews (s : State) (k : Nat) (x : Queue) : (s.putQueue k x).crews = s.crews := rfl
@[simp] theorem State.putQueue_teams (s : State) (k : Nat) (x : Queue) : (s.putQueue k x).teams = s.teams := rfl
@[simp] theorem State.putQueue_fills (s : State) (k : Nat) (x : Queue) : (s.putQueue k x).fills = s.fills := rfl
@[simp] theorem State.putQueue_coreCtx (s : State) (k : Nat) (x : Queue) : (s.putQueue k x).coreCtx = s.coreCtx := rfl
@[simp] theorem State.putQueue_clusterCtx (s : State) (k : Nat) (x : Queue) : (s.putQueue k x).clusterCtx = s.clusterCtx := rfl
@[simp] theorem State.putQueue_clusters (s : State) (k : Nat) (x : Queue) : (s.putQueue k x).clusters = s.clusters := rfl
@[simp] theorem State.putQueue_scrub (s : State) (k : Nat) (x : Queue) : (s.putQueue k x).scrub = s.scrub := rfl
@[simp] theorem State.putQueue_ctxs (s : State) (k : Nat) (x : Queue) : (s.putQueue k x).ctxs = s.ctxs := rfl
@[simp] theorem State.putQueue_launches (s : State) (k : Nat) (x : Queue) : (s.putQueue k x).launches = s.launches := rfl
@[simp] theorem State.putQueue_qregs (s : State) (k : Nat) (x : Queue) : (s.putQueue k x).qregs = s.qregs := rfl
@[simp] theorem State.putQueue_lastQueue (s : State) (k : Nat) (x : Queue) : (s.putQueue k x).lastQueue = s.lastQueue := rfl
@[simp] theorem State.putQueue_keys (s : State) (k : Nat) (x : Queue) : (s.putQueue k x).keys = s.keys := rfl
@[simp] theorem State.putQueue_parts (s : State) (k : Nat) (x : Queue) : (s.putQueue k x).parts = s.parts := rfl
@[simp] theorem State.putQueue_mgmt (s : State) (k : Nat) (x : Queue) : (s.putQueue k x).mgmt = s.mgmt := rfl
@[simp] theorem State.putQueue_link (s : State) (k : Nat) (x : Queue) : (s.putQueue k x).link = s.link := rfl
@[simp] theorem State.putQueue_hostUp (s : State) (k : Nat) (x : Queue) : (s.putQueue k x).hostUp = s.hostUp := rfl
@[simp] theorem State.putQueue_hostCache (s : State) (k : Nat) (x : Queue) : (s.putQueue k x).hostCache = s.hostCache := rfl
@[simp] theorem State.putQueue_hostAtomics (s : State) (k : Nat) (x : Queue) : (s.putQueue k x).hostAtomics = s.hostAtomics := rfl
@[simp] theorem State.putQueue_hostStamp (s : State) (k : Nat) (x : Queue) : (s.putQueue k x).hostStamp = s.hostStamp := rfl
@[simp] theorem State.putQueue_stops (s : State) (k : Nat) (x : Queue) : (s.putQueue k x).stops = s.stops := rfl
@[simp] theorem State.putQueue_rcache (s : State) (k : Nat) (x : Queue) : (s.putQueue k x).rcache = s.rcache := rfl
@[simp] theorem State.putQueue_segLines (s : State) (k : Nat) (x : Queue) : (s.putQueue k x).segLines = s.segLines := rfl
@[simp] theorem State.putQueue_codeAsks (s : State) (k : Nat) (x : Queue) : (s.putQueue k x).codeAsks = s.codeAsks := rfl
@[simp] theorem State.putQueue_jobs (s : State) (k : Nat) (x : Queue) : (s.putQueue k x).jobs = s.jobs := rfl
@[simp] theorem State.putQueue_hostStores (s : State) (k : Nat) (x : Queue) : (s.putQueue k x).hostStores = s.hostStores := rfl
@[simp] theorem State.putQueue_hostData (s : State) (k : Nat) (x : Queue) : (s.putQueue k x).hostData = s.hostData := rfl
@[simp] theorem State.putQueue_hostPoison (s : State) (k : Nat) (x : Queue) : (s.putQueue k x).hostPoison = s.hostPoison := rfl
@[simp] theorem State.putQueue_hostDownAt (s : State) (k : Nat) (x : Queue) : (s.putQueue k x).hostDownAt = s.hostDownAt := rfl
@[simp] theorem State.putQueue_inbox (s : State) (k : Nat) (x : Queue) : (s.putQueue k x).inbox = s.inbox := rfl

/-! ### putQreg -/

@[simp] theorem State.putQreg_agenda (s : State) (k : Nat) (x : QRegs) : (s.putQreg k x).agenda = s.agenda := rfl
@[simp] theorem State.putQreg_actor (s : State) (k : Nat) (x : QRegs) : (s.putQreg k x).actor = s.actor := rfl
@[simp] theorem State.putQreg_ticks (s : State) (k : Nat) (x : QRegs) : (s.putQreg k x).ticks = s.ticks := rfl
@[simp] theorem State.putQreg_seeds (s : State) (k : Nat) (x : QRegs) : (s.putQreg k x).seeds = s.seeds := rfl
@[simp] theorem State.putQreg_accesses (s : State) (k : Nat) (x : QRegs) : (s.putQreg k x).accesses = s.accesses := rfl
@[simp] theorem State.putQreg_nextKey (s : State) (k : Nat) (x : QRegs) : (s.putQreg k x).nextKey = s.nextKey := rfl
@[simp] theorem State.putQreg_frag (s : State) (k : Nat) (x : QRegs) : (s.putQreg k x).frag = s.frag := rfl
@[simp] theorem State.putQreg_cycle (s : State) (k : Nat) (x : QRegs) : (s.putQreg k x).cycle = s.cycle := rfl
@[simp] theorem State.putQreg_ptpBase (s : State) (k : Nat) (x : QRegs) : (s.putQreg k x).ptpBase = s.ptpBase := rfl
@[simp] theorem State.putQreg_ptpOff (s : State) (k : Nat) (x : QRegs) : (s.putQreg k x).ptpOff = s.ptpOff := rfl
@[simp] theorem State.putQreg_ptpLast (s : State) (k : Nat) (x : QRegs) : (s.putQreg k x).ptpLast = s.ptpLast := rfl
@[simp] theorem State.putQreg_ptpGood (s : State) (k : Nat) (x : QRegs) : (s.putQreg k x).ptpGood = s.ptpGood := rfl
@[simp] theorem State.putQreg_device (s : State) (k : Nat) (x : QRegs) : (s.putQreg k x).device = s.device := rfl
@[simp] theorem State.putQreg_dev (s : State) (k : Nat) (x : QRegs) : (s.putQreg k x).dev = s.dev := rfl
@[simp] theorem State.putQreg_host (s : State) (k : Nat) (x : QRegs) : (s.putQreg k x).host = s.host := rfl
@[simp] theorem State.putQreg_sram (s : State) (k : Nat) (x : QRegs) : (s.putQreg k x).sram = s.sram := rfl
@[simp] theorem State.putQreg_lines (s : State) (k : Nat) (x : QRegs) : (s.putQreg k x).lines = s.lines := rfl
@[simp] theorem State.putQreg_claims (s : State) (k : Nat) (x : QRegs) : (s.putQreg k x).claims = s.claims := rfl
@[simp] theorem State.putQreg_ports (s : State) (k : Nat) (x : QRegs) : (s.putQreg k x).ports = s.ports := rfl
@[simp] theorem State.putQreg_fibres (s : State) (k : Nat) (x : QRegs) : (s.putQreg k x).fibres = s.fibres := rfl
@[simp] theorem State.putQreg_crews (s : State) (k : Nat) (x : QRegs) : (s.putQreg k x).crews = s.crews := rfl
@[simp] theorem State.putQreg_teams (s : State) (k : Nat) (x : QRegs) : (s.putQreg k x).teams = s.teams := rfl
@[simp] theorem State.putQreg_fills (s : State) (k : Nat) (x : QRegs) : (s.putQreg k x).fills = s.fills := rfl
@[simp] theorem State.putQreg_coreCtx (s : State) (k : Nat) (x : QRegs) : (s.putQreg k x).coreCtx = s.coreCtx := rfl
@[simp] theorem State.putQreg_clusterCtx (s : State) (k : Nat) (x : QRegs) : (s.putQreg k x).clusterCtx = s.clusterCtx := rfl
@[simp] theorem State.putQreg_clusters (s : State) (k : Nat) (x : QRegs) : (s.putQreg k x).clusters = s.clusters := rfl
@[simp] theorem State.putQreg_scrub (s : State) (k : Nat) (x : QRegs) : (s.putQreg k x).scrub = s.scrub := rfl
@[simp] theorem State.putQreg_ctxs (s : State) (k : Nat) (x : QRegs) : (s.putQreg k x).ctxs = s.ctxs := rfl
@[simp] theorem State.putQreg_launches (s : State) (k : Nat) (x : QRegs) : (s.putQreg k x).launches = s.launches := rfl
@[simp] theorem State.putQreg_queues (s : State) (k : Nat) (x : QRegs) : (s.putQreg k x).queues = s.queues := rfl
@[simp] theorem State.putQreg_lastQueue (s : State) (k : Nat) (x : QRegs) : (s.putQreg k x).lastQueue = s.lastQueue := rfl
@[simp] theorem State.putQreg_keys (s : State) (k : Nat) (x : QRegs) : (s.putQreg k x).keys = s.keys := rfl
@[simp] theorem State.putQreg_parts (s : State) (k : Nat) (x : QRegs) : (s.putQreg k x).parts = s.parts := rfl
@[simp] theorem State.putQreg_mgmt (s : State) (k : Nat) (x : QRegs) : (s.putQreg k x).mgmt = s.mgmt := rfl
@[simp] theorem State.putQreg_link (s : State) (k : Nat) (x : QRegs) : (s.putQreg k x).link = s.link := rfl
@[simp] theorem State.putQreg_hostUp (s : State) (k : Nat) (x : QRegs) : (s.putQreg k x).hostUp = s.hostUp := rfl
@[simp] theorem State.putQreg_hostCache (s : State) (k : Nat) (x : QRegs) : (s.putQreg k x).hostCache = s.hostCache := rfl
@[simp] theorem State.putQreg_hostAtomics (s : State) (k : Nat) (x : QRegs) : (s.putQreg k x).hostAtomics = s.hostAtomics := rfl
@[simp] theorem State.putQreg_hostStamp (s : State) (k : Nat) (x : QRegs) : (s.putQreg k x).hostStamp = s.hostStamp := rfl
@[simp] theorem State.putQreg_stops (s : State) (k : Nat) (x : QRegs) : (s.putQreg k x).stops = s.stops := rfl
@[simp] theorem State.putQreg_rcache (s : State) (k : Nat) (x : QRegs) : (s.putQreg k x).rcache = s.rcache := rfl
@[simp] theorem State.putQreg_segLines (s : State) (k : Nat) (x : QRegs) : (s.putQreg k x).segLines = s.segLines := rfl
@[simp] theorem State.putQreg_codeAsks (s : State) (k : Nat) (x : QRegs) : (s.putQreg k x).codeAsks = s.codeAsks := rfl
@[simp] theorem State.putQreg_jobs (s : State) (k : Nat) (x : QRegs) : (s.putQreg k x).jobs = s.jobs := rfl
@[simp] theorem State.putQreg_hostStores (s : State) (k : Nat) (x : QRegs) : (s.putQreg k x).hostStores = s.hostStores := rfl
@[simp] theorem State.putQreg_hostData (s : State) (k : Nat) (x : QRegs) : (s.putQreg k x).hostData = s.hostData := rfl
@[simp] theorem State.putQreg_hostPoison (s : State) (k : Nat) (x : QRegs) : (s.putQreg k x).hostPoison = s.hostPoison := rfl
@[simp] theorem State.putQreg_hostDownAt (s : State) (k : Nat) (x : QRegs) : (s.putQreg k x).hostDownAt = s.hostDownAt := rfl
@[simp] theorem State.putQreg_inbox (s : State) (k : Nat) (x : QRegs) : (s.putQreg k x).inbox = s.inbox := rfl

/-! ### putLine -/

@[simp] theorem State.putLine_agenda (s : State) (k : Nat) (x : Line) : (s.putLine k x).agenda = s.agenda := rfl
@[simp] theorem State.putLine_actor (s : State) (k : Nat) (x : Line) : (s.putLine k x).actor = s.actor := rfl
@[simp] theorem State.putLine_ticks (s : State) (k : Nat) (x : Line) : (s.putLine k x).ticks = s.ticks := rfl
@[simp] theorem State.putLine_seeds (s : State) (k : Nat) (x : Line) : (s.putLine k x).seeds = s.seeds := rfl
@[simp] theorem State.putLine_accesses (s : State) (k : Nat) (x : Line) : (s.putLine k x).accesses = s.accesses := rfl
@[simp] theorem State.putLine_nextKey (s : State) (k : Nat) (x : Line) : (s.putLine k x).nextKey = s.nextKey := rfl
@[simp] theorem State.putLine_frag (s : State) (k : Nat) (x : Line) : (s.putLine k x).frag = s.frag := rfl
@[simp] theorem State.putLine_cycle (s : State) (k : Nat) (x : Line) : (s.putLine k x).cycle = s.cycle := rfl
@[simp] theorem State.putLine_ptpBase (s : State) (k : Nat) (x : Line) : (s.putLine k x).ptpBase = s.ptpBase := rfl
@[simp] theorem State.putLine_ptpOff (s : State) (k : Nat) (x : Line) : (s.putLine k x).ptpOff = s.ptpOff := rfl
@[simp] theorem State.putLine_ptpLast (s : State) (k : Nat) (x : Line) : (s.putLine k x).ptpLast = s.ptpLast := rfl
@[simp] theorem State.putLine_ptpGood (s : State) (k : Nat) (x : Line) : (s.putLine k x).ptpGood = s.ptpGood := rfl
@[simp] theorem State.putLine_device (s : State) (k : Nat) (x : Line) : (s.putLine k x).device = s.device := rfl
@[simp] theorem State.putLine_dev (s : State) (k : Nat) (x : Line) : (s.putLine k x).dev = s.dev := rfl
@[simp] theorem State.putLine_host (s : State) (k : Nat) (x : Line) : (s.putLine k x).host = s.host := rfl
@[simp] theorem State.putLine_sram (s : State) (k : Nat) (x : Line) : (s.putLine k x).sram = s.sram := rfl
@[simp] theorem State.putLine_claims (s : State) (k : Nat) (x : Line) : (s.putLine k x).claims = s.claims := rfl
@[simp] theorem State.putLine_ports (s : State) (k : Nat) (x : Line) : (s.putLine k x).ports = s.ports := rfl
@[simp] theorem State.putLine_fibres (s : State) (k : Nat) (x : Line) : (s.putLine k x).fibres = s.fibres := rfl
@[simp] theorem State.putLine_crews (s : State) (k : Nat) (x : Line) : (s.putLine k x).crews = s.crews := rfl
@[simp] theorem State.putLine_teams (s : State) (k : Nat) (x : Line) : (s.putLine k x).teams = s.teams := rfl
@[simp] theorem State.putLine_fills (s : State) (k : Nat) (x : Line) : (s.putLine k x).fills = s.fills := rfl
@[simp] theorem State.putLine_coreCtx (s : State) (k : Nat) (x : Line) : (s.putLine k x).coreCtx = s.coreCtx := rfl
@[simp] theorem State.putLine_clusterCtx (s : State) (k : Nat) (x : Line) : (s.putLine k x).clusterCtx = s.clusterCtx := rfl
@[simp] theorem State.putLine_clusters (s : State) (k : Nat) (x : Line) : (s.putLine k x).clusters = s.clusters := rfl
@[simp] theorem State.putLine_scrub (s : State) (k : Nat) (x : Line) : (s.putLine k x).scrub = s.scrub := rfl
@[simp] theorem State.putLine_ctxs (s : State) (k : Nat) (x : Line) : (s.putLine k x).ctxs = s.ctxs := rfl
@[simp] theorem State.putLine_launches (s : State) (k : Nat) (x : Line) : (s.putLine k x).launches = s.launches := rfl
@[simp] theorem State.putLine_queues (s : State) (k : Nat) (x : Line) : (s.putLine k x).queues = s.queues := rfl
@[simp] theorem State.putLine_qregs (s : State) (k : Nat) (x : Line) : (s.putLine k x).qregs = s.qregs := rfl
@[simp] theorem State.putLine_lastQueue (s : State) (k : Nat) (x : Line) : (s.putLine k x).lastQueue = s.lastQueue := rfl
@[simp] theorem State.putLine_keys (s : State) (k : Nat) (x : Line) : (s.putLine k x).keys = s.keys := rfl
@[simp] theorem State.putLine_parts (s : State) (k : Nat) (x : Line) : (s.putLine k x).parts = s.parts := rfl
@[simp] theorem State.putLine_mgmt (s : State) (k : Nat) (x : Line) : (s.putLine k x).mgmt = s.mgmt := rfl
@[simp] theorem State.putLine_link (s : State) (k : Nat) (x : Line) : (s.putLine k x).link = s.link := rfl
@[simp] theorem State.putLine_hostUp (s : State) (k : Nat) (x : Line) : (s.putLine k x).hostUp = s.hostUp := rfl
@[simp] theorem State.putLine_hostCache (s : State) (k : Nat) (x : Line) : (s.putLine k x).hostCache = s.hostCache := rfl
@[simp] theorem State.putLine_hostAtomics (s : State) (k : Nat) (x : Line) : (s.putLine k x).hostAtomics = s.hostAtomics := rfl
@[simp] theorem State.putLine_hostStamp (s : State) (k : Nat) (x : Line) : (s.putLine k x).hostStamp = s.hostStamp := rfl
@[simp] theorem State.putLine_stops (s : State) (k : Nat) (x : Line) : (s.putLine k x).stops = s.stops := rfl
@[simp] theorem State.putLine_rcache (s : State) (k : Nat) (x : Line) : (s.putLine k x).rcache = s.rcache := rfl
@[simp] theorem State.putLine_segLines (s : State) (k : Nat) (x : Line) : (s.putLine k x).segLines = s.segLines := rfl
@[simp] theorem State.putLine_codeAsks (s : State) (k : Nat) (x : Line) : (s.putLine k x).codeAsks = s.codeAsks := rfl
@[simp] theorem State.putLine_jobs (s : State) (k : Nat) (x : Line) : (s.putLine k x).jobs = s.jobs := rfl
@[simp] theorem State.putLine_hostStores (s : State) (k : Nat) (x : Line) : (s.putLine k x).hostStores = s.hostStores := rfl
@[simp] theorem State.putLine_hostData (s : State) (k : Nat) (x : Line) : (s.putLine k x).hostData = s.hostData := rfl
@[simp] theorem State.putLine_hostPoison (s : State) (k : Nat) (x : Line) : (s.putLine k x).hostPoison = s.hostPoison := rfl
@[simp] theorem State.putLine_hostDownAt (s : State) (k : Nat) (x : Line) : (s.putLine k x).hostDownAt = s.hostDownAt := rfl
@[simp] theorem State.putLine_inbox (s : State) (k : Nat) (x : Line) : (s.putLine k x).inbox = s.inbox := rfl

/-! ### putLaunch -/

@[simp] theorem State.putLaunch_agenda (s : State) (l : Launch) : (s.putLaunch l).agenda = s.agenda := rfl
@[simp] theorem State.putLaunch_actor (s : State) (l : Launch) : (s.putLaunch l).actor = s.actor := rfl
@[simp] theorem State.putLaunch_ticks (s : State) (l : Launch) : (s.putLaunch l).ticks = s.ticks := rfl
@[simp] theorem State.putLaunch_seeds (s : State) (l : Launch) : (s.putLaunch l).seeds = s.seeds := rfl
@[simp] theorem State.putLaunch_accesses (s : State) (l : Launch) : (s.putLaunch l).accesses = s.accesses := rfl
@[simp] theorem State.putLaunch_nextKey (s : State) (l : Launch) : (s.putLaunch l).nextKey = s.nextKey := rfl
@[simp] theorem State.putLaunch_frag (s : State) (l : Launch) : (s.putLaunch l).frag = s.frag := rfl
@[simp] theorem State.putLaunch_cycle (s : State) (l : Launch) : (s.putLaunch l).cycle = s.cycle := rfl
@[simp] theorem State.putLaunch_ptpBase (s : State) (l : Launch) : (s.putLaunch l).ptpBase = s.ptpBase := rfl
@[simp] theorem State.putLaunch_ptpOff (s : State) (l : Launch) : (s.putLaunch l).ptpOff = s.ptpOff := rfl
@[simp] theorem State.putLaunch_ptpLast (s : State) (l : Launch) : (s.putLaunch l).ptpLast = s.ptpLast := rfl
@[simp] theorem State.putLaunch_ptpGood (s : State) (l : Launch) : (s.putLaunch l).ptpGood = s.ptpGood := rfl
@[simp] theorem State.putLaunch_device (s : State) (l : Launch) : (s.putLaunch l).device = s.device := rfl
@[simp] theorem State.putLaunch_dev (s : State) (l : Launch) : (s.putLaunch l).dev = s.dev := rfl
@[simp] theorem State.putLaunch_host (s : State) (l : Launch) : (s.putLaunch l).host = s.host := rfl
@[simp] theorem State.putLaunch_sram (s : State) (l : Launch) : (s.putLaunch l).sram = s.sram := rfl
@[simp] theorem State.putLaunch_lines (s : State) (l : Launch) : (s.putLaunch l).lines = s.lines := rfl
@[simp] theorem State.putLaunch_claims (s : State) (l : Launch) : (s.putLaunch l).claims = s.claims := rfl
@[simp] theorem State.putLaunch_ports (s : State) (l : Launch) : (s.putLaunch l).ports = s.ports := rfl
@[simp] theorem State.putLaunch_fibres (s : State) (l : Launch) : (s.putLaunch l).fibres = s.fibres := rfl
@[simp] theorem State.putLaunch_crews (s : State) (l : Launch) : (s.putLaunch l).crews = s.crews := rfl
@[simp] theorem State.putLaunch_teams (s : State) (l : Launch) : (s.putLaunch l).teams = s.teams := rfl
@[simp] theorem State.putLaunch_fills (s : State) (l : Launch) : (s.putLaunch l).fills = s.fills := rfl
@[simp] theorem State.putLaunch_coreCtx (s : State) (l : Launch) : (s.putLaunch l).coreCtx = s.coreCtx := rfl
@[simp] theorem State.putLaunch_clusterCtx (s : State) (l : Launch) : (s.putLaunch l).clusterCtx = s.clusterCtx := rfl
@[simp] theorem State.putLaunch_clusters (s : State) (l : Launch) : (s.putLaunch l).clusters = s.clusters := rfl
@[simp] theorem State.putLaunch_scrub (s : State) (l : Launch) : (s.putLaunch l).scrub = s.scrub := rfl
@[simp] theorem State.putLaunch_ctxs (s : State) (l : Launch) : (s.putLaunch l).ctxs = s.ctxs := rfl
@[simp] theorem State.putLaunch_queues (s : State) (l : Launch) : (s.putLaunch l).queues = s.queues := rfl
@[simp] theorem State.putLaunch_qregs (s : State) (l : Launch) : (s.putLaunch l).qregs = s.qregs := rfl
@[simp] theorem State.putLaunch_lastQueue (s : State) (l : Launch) : (s.putLaunch l).lastQueue = s.lastQueue := rfl
@[simp] theorem State.putLaunch_keys (s : State) (l : Launch) : (s.putLaunch l).keys = s.keys := rfl
@[simp] theorem State.putLaunch_parts (s : State) (l : Launch) : (s.putLaunch l).parts = s.parts := rfl
@[simp] theorem State.putLaunch_mgmt (s : State) (l : Launch) : (s.putLaunch l).mgmt = s.mgmt := rfl
@[simp] theorem State.putLaunch_link (s : State) (l : Launch) : (s.putLaunch l).link = s.link := rfl
@[simp] theorem State.putLaunch_hostUp (s : State) (l : Launch) : (s.putLaunch l).hostUp = s.hostUp := rfl
@[simp] theorem State.putLaunch_hostCache (s : State) (l : Launch) : (s.putLaunch l).hostCache = s.hostCache := rfl
@[simp] theorem State.putLaunch_hostAtomics (s : State) (l : Launch) : (s.putLaunch l).hostAtomics = s.hostAtomics := rfl
@[simp] theorem State.putLaunch_hostStamp (s : State) (l : Launch) : (s.putLaunch l).hostStamp = s.hostStamp := rfl
@[simp] theorem State.putLaunch_stops (s : State) (l : Launch) : (s.putLaunch l).stops = s.stops := rfl
@[simp] theorem State.putLaunch_rcache (s : State) (l : Launch) : (s.putLaunch l).rcache = s.rcache := rfl
@[simp] theorem State.putLaunch_segLines (s : State) (l : Launch) : (s.putLaunch l).segLines = s.segLines := rfl
@[simp] theorem State.putLaunch_codeAsks (s : State) (l : Launch) : (s.putLaunch l).codeAsks = s.codeAsks := rfl
@[simp] theorem State.putLaunch_jobs (s : State) (l : Launch) : (s.putLaunch l).jobs = s.jobs := rfl
@[simp] theorem State.putLaunch_hostStores (s : State) (l : Launch) : (s.putLaunch l).hostStores = s.hostStores := rfl
@[simp] theorem State.putLaunch_hostData (s : State) (l : Launch) : (s.putLaunch l).hostData = s.hostData := rfl
@[simp] theorem State.putLaunch_hostPoison (s : State) (l : Launch) : (s.putLaunch l).hostPoison = s.hostPoison := rfl
@[simp] theorem State.putLaunch_hostDownAt (s : State) (l : Launch) : (s.putLaunch l).hostDownAt = s.hostDownAt := rfl
@[simp] theorem State.putLaunch_inbox (s : State) (l : Launch) : (s.putLaunch l).inbox = s.inbox := rfl

/-! ### msix -/

@[simp] theorem State.msix_agenda (s : State) (v : Nat) : (s.msix v).agenda = s.agenda := rfl
@[simp] theorem State.msix_actor (s : State) (v : Nat) : (s.msix v).actor = s.actor := rfl
@[simp] theorem State.msix_ticks (s : State) (v : Nat) : (s.msix v).ticks = s.ticks := rfl
@[simp] theorem State.msix_seeds (s : State) (v : Nat) : (s.msix v).seeds = s.seeds := rfl
@[simp] theorem State.msix_accesses (s : State) (v : Nat) : (s.msix v).accesses = s.accesses := rfl
@[simp] theorem State.msix_nextKey (s : State) (v : Nat) : (s.msix v).nextKey = s.nextKey := rfl
@[simp] theorem State.msix_frag (s : State) (v : Nat) : (s.msix v).frag = s.frag := rfl
@[simp] theorem State.msix_cycle (s : State) (v : Nat) : (s.msix v).cycle = s.cycle := rfl
@[simp] theorem State.msix_ptpBase (s : State) (v : Nat) : (s.msix v).ptpBase = s.ptpBase := rfl
@[simp] theorem State.msix_ptpOff (s : State) (v : Nat) : (s.msix v).ptpOff = s.ptpOff := rfl
@[simp] theorem State.msix_ptpLast (s : State) (v : Nat) : (s.msix v).ptpLast = s.ptpLast := rfl
@[simp] theorem State.msix_ptpGood (s : State) (v : Nat) : (s.msix v).ptpGood = s.ptpGood := rfl
@[simp] theorem State.msix_device (s : State) (v : Nat) : (s.msix v).device = s.device := rfl
@[simp] theorem State.msix_dev (s : State) (v : Nat) : (s.msix v).dev = s.dev := rfl
@[simp] theorem State.msix_host (s : State) (v : Nat) : (s.msix v).host = s.host := rfl
@[simp] theorem State.msix_sram (s : State) (v : Nat) : (s.msix v).sram = s.sram := rfl
@[simp] theorem State.msix_lines (s : State) (v : Nat) : (s.msix v).lines = s.lines := rfl
@[simp] theorem State.msix_claims (s : State) (v : Nat) : (s.msix v).claims = s.claims := rfl
@[simp] theorem State.msix_ports (s : State) (v : Nat) : (s.msix v).ports = s.ports := rfl
@[simp] theorem State.msix_fibres (s : State) (v : Nat) : (s.msix v).fibres = s.fibres := rfl
@[simp] theorem State.msix_crews (s : State) (v : Nat) : (s.msix v).crews = s.crews := rfl
@[simp] theorem State.msix_teams (s : State) (v : Nat) : (s.msix v).teams = s.teams := rfl
@[simp] theorem State.msix_fills (s : State) (v : Nat) : (s.msix v).fills = s.fills := rfl
@[simp] theorem State.msix_coreCtx (s : State) (v : Nat) : (s.msix v).coreCtx = s.coreCtx := rfl
@[simp] theorem State.msix_clusterCtx (s : State) (v : Nat) : (s.msix v).clusterCtx = s.clusterCtx := rfl
@[simp] theorem State.msix_clusters (s : State) (v : Nat) : (s.msix v).clusters = s.clusters := rfl
@[simp] theorem State.msix_scrub (s : State) (v : Nat) : (s.msix v).scrub = s.scrub := rfl
@[simp] theorem State.msix_ctxs (s : State) (v : Nat) : (s.msix v).ctxs = s.ctxs := rfl
@[simp] theorem State.msix_launches (s : State) (v : Nat) : (s.msix v).launches = s.launches := rfl
@[simp] theorem State.msix_queues (s : State) (v : Nat) : (s.msix v).queues = s.queues := rfl
@[simp] theorem State.msix_qregs (s : State) (v : Nat) : (s.msix v).qregs = s.qregs := rfl
@[simp] theorem State.msix_lastQueue (s : State) (v : Nat) : (s.msix v).lastQueue = s.lastQueue := rfl
@[simp] theorem State.msix_keys (s : State) (v : Nat) : (s.msix v).keys = s.keys := rfl
@[simp] theorem State.msix_parts (s : State) (v : Nat) : (s.msix v).parts = s.parts := rfl
@[simp] theorem State.msix_link (s : State) (v : Nat) : (s.msix v).link = s.link := rfl
@[simp] theorem State.msix_hostUp (s : State) (v : Nat) : (s.msix v).hostUp = s.hostUp := rfl
@[simp] theorem State.msix_hostCache (s : State) (v : Nat) : (s.msix v).hostCache = s.hostCache := rfl
@[simp] theorem State.msix_hostAtomics (s : State) (v : Nat) : (s.msix v).hostAtomics = s.hostAtomics := rfl
@[simp] theorem State.msix_hostStamp (s : State) (v : Nat) : (s.msix v).hostStamp = s.hostStamp := rfl
@[simp] theorem State.msix_stops (s : State) (v : Nat) : (s.msix v).stops = s.stops := rfl
@[simp] theorem State.msix_rcache (s : State) (v : Nat) : (s.msix v).rcache = s.rcache := rfl
@[simp] theorem State.msix_segLines (s : State) (v : Nat) : (s.msix v).segLines = s.segLines := rfl
@[simp] theorem State.msix_codeAsks (s : State) (v : Nat) : (s.msix v).codeAsks = s.codeAsks := rfl
@[simp] theorem State.msix_jobs (s : State) (v : Nat) : (s.msix v).jobs = s.jobs := rfl
@[simp] theorem State.msix_hostStores (s : State) (v : Nat) : (s.msix v).hostStores = s.hostStores := rfl
@[simp] theorem State.msix_hostData (s : State) (v : Nat) : (s.msix v).hostData = s.hostData := rfl
@[simp] theorem State.msix_hostPoison (s : State) (v : Nat) : (s.msix v).hostPoison = s.hostPoison := rfl
@[simp] theorem State.msix_hostDownAt (s : State) (v : Nat) : (s.msix v).hostDownAt = s.hostDownAt := rfl
@[simp] theorem State.msix_inbox (s : State) (v : Nat) : (s.msix v).inbox = s.inbox := rfl

/-! ### bump -/

@[simp] theorem State.bump_agenda (s : State) (c k i n : Nat) : (s.bump c k i n).agenda = s.agenda := rfl
@[simp] theorem State.bump_actor (s : State) (c k i n : Nat) : (s.bump c k i n).actor = s.actor := rfl
@[simp] theorem State.bump_ticks (s : State) (c k i n : Nat) : (s.bump c k i n).ticks = s.ticks := rfl
@[simp] theorem State.bump_seeds (s : State) (c k i n : Nat) : (s.bump c k i n).seeds = s.seeds := rfl
@[simp] theorem State.bump_accesses (s : State) (c k i n : Nat) : (s.bump c k i n).accesses = s.accesses := rfl
@[simp] theorem State.bump_nextKey (s : State) (c k i n : Nat) : (s.bump c k i n).nextKey = s.nextKey := rfl
@[simp] theorem State.bump_frag (s : State) (c k i n : Nat) : (s.bump c k i n).frag = s.frag := rfl
@[simp] theorem State.bump_cycle (s : State) (c k i n : Nat) : (s.bump c k i n).cycle = s.cycle := rfl
@[simp] theorem State.bump_ptpBase (s : State) (c k i n : Nat) : (s.bump c k i n).ptpBase = s.ptpBase := rfl
@[simp] theorem State.bump_ptpOff (s : State) (c k i n : Nat) : (s.bump c k i n).ptpOff = s.ptpOff := rfl
@[simp] theorem State.bump_ptpLast (s : State) (c k i n : Nat) : (s.bump c k i n).ptpLast = s.ptpLast := rfl
@[simp] theorem State.bump_ptpGood (s : State) (c k i n : Nat) : (s.bump c k i n).ptpGood = s.ptpGood := rfl
@[simp] theorem State.bump_device (s : State) (c k i n : Nat) : (s.bump c k i n).device = s.device := rfl
@[simp] theorem State.bump_dev (s : State) (c k i n : Nat) : (s.bump c k i n).dev = s.dev := rfl
@[simp] theorem State.bump_host (s : State) (c k i n : Nat) : (s.bump c k i n).host = s.host := rfl
@[simp] theorem State.bump_sram (s : State) (c k i n : Nat) : (s.bump c k i n).sram = s.sram := rfl
@[simp] theorem State.bump_lines (s : State) (c k i n : Nat) : (s.bump c k i n).lines = s.lines := rfl
@[simp] theorem State.bump_claims (s : State) (c k i n : Nat) : (s.bump c k i n).claims = s.claims := rfl
@[simp] theorem State.bump_ports (s : State) (c k i n : Nat) : (s.bump c k i n).ports = s.ports := rfl
@[simp] theorem State.bump_fibres (s : State) (c k i n : Nat) : (s.bump c k i n).fibres = s.fibres := rfl
@[simp] theorem State.bump_crews (s : State) (c k i n : Nat) : (s.bump c k i n).crews = s.crews := rfl
@[simp] theorem State.bump_teams (s : State) (c k i n : Nat) : (s.bump c k i n).teams = s.teams := rfl
@[simp] theorem State.bump_fills (s : State) (c k i n : Nat) : (s.bump c k i n).fills = s.fills := rfl
@[simp] theorem State.bump_clusterCtx (s : State) (c k i n : Nat) : (s.bump c k i n).clusterCtx = s.clusterCtx := rfl
@[simp] theorem State.bump_clusters (s : State) (c k i n : Nat) : (s.bump c k i n).clusters = s.clusters := rfl
@[simp] theorem State.bump_scrub (s : State) (c k i n : Nat) : (s.bump c k i n).scrub = s.scrub := rfl
@[simp] theorem State.bump_ctxs (s : State) (c k i n : Nat) : (s.bump c k i n).ctxs = s.ctxs := rfl
@[simp] theorem State.bump_launches (s : State) (c k i n : Nat) : (s.bump c k i n).launches = s.launches := rfl
@[simp] theorem State.bump_queues (s : State) (c k i n : Nat) : (s.bump c k i n).queues = s.queues := rfl
@[simp] theorem State.bump_qregs (s : State) (c k i n : Nat) : (s.bump c k i n).qregs = s.qregs := rfl
@[simp] theorem State.bump_lastQueue (s : State) (c k i n : Nat) : (s.bump c k i n).lastQueue = s.lastQueue := rfl
@[simp] theorem State.bump_keys (s : State) (c k i n : Nat) : (s.bump c k i n).keys = s.keys := rfl
@[simp] theorem State.bump_parts (s : State) (c k i n : Nat) : (s.bump c k i n).parts = s.parts := rfl
@[simp] theorem State.bump_mgmt (s : State) (c k i n : Nat) : (s.bump c k i n).mgmt = s.mgmt := rfl
@[simp] theorem State.bump_link (s : State) (c k i n : Nat) : (s.bump c k i n).link = s.link := rfl
@[simp] theorem State.bump_hostUp (s : State) (c k i n : Nat) : (s.bump c k i n).hostUp = s.hostUp := rfl
@[simp] theorem State.bump_hostCache (s : State) (c k i n : Nat) : (s.bump c k i n).hostCache = s.hostCache := rfl
@[simp] theorem State.bump_hostAtomics (s : State) (c k i n : Nat) : (s.bump c k i n).hostAtomics = s.hostAtomics := rfl
@[simp] theorem State.bump_hostStamp (s : State) (c k i n : Nat) : (s.bump c k i n).hostStamp = s.hostStamp := rfl
@[simp] theorem State.bump_stops (s : State) (c k i n : Nat) : (s.bump c k i n).stops = s.stops := rfl
@[simp] theorem State.bump_rcache (s : State) (c k i n : Nat) : (s.bump c k i n).rcache = s.rcache := rfl
@[simp] theorem State.bump_segLines (s : State) (c k i n : Nat) : (s.bump c k i n).segLines = s.segLines := rfl
@[simp] theorem State.bump_codeAsks (s : State) (c k i n : Nat) : (s.bump c k i n).codeAsks = s.codeAsks := rfl
@[simp] theorem State.bump_jobs (s : State) (c k i n : Nat) : (s.bump c k i n).jobs = s.jobs := rfl
@[simp] theorem State.bump_hostStores (s : State) (c k i n : Nat) : (s.bump c k i n).hostStores = s.hostStores := rfl
@[simp] theorem State.bump_hostData (s : State) (c k i n : Nat) : (s.bump c k i n).hostData = s.hostData := rfl
@[simp] theorem State.bump_hostPoison (s : State) (c k i n : Nat) : (s.bump c k i n).hostPoison = s.hostPoison := rfl
@[simp] theorem State.bump_hostDownAt (s : State) (c k i n : Nat) : (s.bump c k i n).hostDownAt = s.hostDownAt := rfl
@[simp] theorem State.bump_inbox (s : State) (c k i n : Nat) : (s.bump c k i n).inbox = s.inbox := rfl

/-! ### putChan -/

@[simp] theorem State.putChan_agenda (s : State) (c k h : Nat) (x : Chan) : (s.putChan c k h x).agenda = s.agenda := rfl
@[simp] theorem State.putChan_actor (s : State) (c k h : Nat) (x : Chan) : (s.putChan c k h x).actor = s.actor := rfl
@[simp] theorem State.putChan_ticks (s : State) (c k h : Nat) (x : Chan) : (s.putChan c k h x).ticks = s.ticks := rfl
@[simp] theorem State.putChan_seeds (s : State) (c k h : Nat) (x : Chan) : (s.putChan c k h x).seeds = s.seeds := rfl
@[simp] theorem State.putChan_accesses (s : State) (c k h : Nat) (x : Chan) : (s.putChan c k h x).accesses = s.accesses := rfl
@[simp] theorem State.putChan_nextKey (s : State) (c k h : Nat) (x : Chan) : (s.putChan c k h x).nextKey = s.nextKey := rfl
@[simp] theorem State.putChan_frag (s : State) (c k h : Nat) (x : Chan) : (s.putChan c k h x).frag = s.frag := rfl
@[simp] theorem State.putChan_cycle (s : State) (c k h : Nat) (x : Chan) : (s.putChan c k h x).cycle = s.cycle := rfl
@[simp] theorem State.putChan_ptpBase (s : State) (c k h : Nat) (x : Chan) : (s.putChan c k h x).ptpBase = s.ptpBase := rfl
@[simp] theorem State.putChan_ptpOff (s : State) (c k h : Nat) (x : Chan) : (s.putChan c k h x).ptpOff = s.ptpOff := rfl
@[simp] theorem State.putChan_ptpLast (s : State) (c k h : Nat) (x : Chan) : (s.putChan c k h x).ptpLast = s.ptpLast := rfl
@[simp] theorem State.putChan_ptpGood (s : State) (c k h : Nat) (x : Chan) : (s.putChan c k h x).ptpGood = s.ptpGood := rfl
@[simp] theorem State.putChan_device (s : State) (c k h : Nat) (x : Chan) : (s.putChan c k h x).device = s.device := rfl
@[simp] theorem State.putChan_dev (s : State) (c k h : Nat) (x : Chan) : (s.putChan c k h x).dev = s.dev := rfl
@[simp] theorem State.putChan_host (s : State) (c k h : Nat) (x : Chan) : (s.putChan c k h x).host = s.host := rfl
@[simp] theorem State.putChan_sram (s : State) (c k h : Nat) (x : Chan) : (s.putChan c k h x).sram = s.sram := rfl
@[simp] theorem State.putChan_lines (s : State) (c k h : Nat) (x : Chan) : (s.putChan c k h x).lines = s.lines := rfl
@[simp] theorem State.putChan_claims (s : State) (c k h : Nat) (x : Chan) : (s.putChan c k h x).claims = s.claims := rfl
@[simp] theorem State.putChan_ports (s : State) (c k h : Nat) (x : Chan) : (s.putChan c k h x).ports = s.ports := rfl
@[simp] theorem State.putChan_fibres (s : State) (c k h : Nat) (x : Chan) : (s.putChan c k h x).fibres = s.fibres := rfl
@[simp] theorem State.putChan_crews (s : State) (c k h : Nat) (x : Chan) : (s.putChan c k h x).crews = s.crews := rfl
@[simp] theorem State.putChan_teams (s : State) (c k h : Nat) (x : Chan) : (s.putChan c k h x).teams = s.teams := rfl
@[simp] theorem State.putChan_fills (s : State) (c k h : Nat) (x : Chan) : (s.putChan c k h x).fills = s.fills := rfl
@[simp] theorem State.putChan_coreCtx (s : State) (c k h : Nat) (x : Chan) : (s.putChan c k h x).coreCtx = s.coreCtx := rfl
@[simp] theorem State.putChan_clusters (s : State) (c k h : Nat) (x : Chan) : (s.putChan c k h x).clusters = s.clusters := rfl
@[simp] theorem State.putChan_scrub (s : State) (c k h : Nat) (x : Chan) : (s.putChan c k h x).scrub = s.scrub := rfl
@[simp] theorem State.putChan_ctxs (s : State) (c k h : Nat) (x : Chan) : (s.putChan c k h x).ctxs = s.ctxs := rfl
@[simp] theorem State.putChan_launches (s : State) (c k h : Nat) (x : Chan) : (s.putChan c k h x).launches = s.launches := rfl
@[simp] theorem State.putChan_queues (s : State) (c k h : Nat) (x : Chan) : (s.putChan c k h x).queues = s.queues := rfl
@[simp] theorem State.putChan_qregs (s : State) (c k h : Nat) (x : Chan) : (s.putChan c k h x).qregs = s.qregs := rfl
@[simp] theorem State.putChan_lastQueue (s : State) (c k h : Nat) (x : Chan) : (s.putChan c k h x).lastQueue = s.lastQueue := rfl
@[simp] theorem State.putChan_keys (s : State) (c k h : Nat) (x : Chan) : (s.putChan c k h x).keys = s.keys := rfl
@[simp] theorem State.putChan_parts (s : State) (c k h : Nat) (x : Chan) : (s.putChan c k h x).parts = s.parts := rfl
@[simp] theorem State.putChan_mgmt (s : State) (c k h : Nat) (x : Chan) : (s.putChan c k h x).mgmt = s.mgmt := rfl
@[simp] theorem State.putChan_link (s : State) (c k h : Nat) (x : Chan) : (s.putChan c k h x).link = s.link := rfl
@[simp] theorem State.putChan_hostUp (s : State) (c k h : Nat) (x : Chan) : (s.putChan c k h x).hostUp = s.hostUp := rfl
@[simp] theorem State.putChan_hostCache (s : State) (c k h : Nat) (x : Chan) : (s.putChan c k h x).hostCache = s.hostCache := rfl
@[simp] theorem State.putChan_hostAtomics (s : State) (c k h : Nat) (x : Chan) : (s.putChan c k h x).hostAtomics = s.hostAtomics := rfl
@[simp] theorem State.putChan_hostStamp (s : State) (c k h : Nat) (x : Chan) : (s.putChan c k h x).hostStamp = s.hostStamp := rfl
@[simp] theorem State.putChan_stops (s : State) (c k h : Nat) (x : Chan) : (s.putChan c k h x).stops = s.stops := rfl
@[simp] theorem State.putChan_rcache (s : State) (c k h : Nat) (x : Chan) : (s.putChan c k h x).rcache = s.rcache := rfl
@[simp] theorem State.putChan_segLines (s : State) (c k h : Nat) (x : Chan) : (s.putChan c k h x).segLines = s.segLines := rfl
@[simp] theorem State.putChan_codeAsks (s : State) (c k h : Nat) (x : Chan) : (s.putChan c k h x).codeAsks = s.codeAsks := rfl
@[simp] theorem State.putChan_jobs (s : State) (c k h : Nat) (x : Chan) : (s.putChan c k h x).jobs = s.jobs := rfl
@[simp] theorem State.putChan_hostStores (s : State) (c k h : Nat) (x : Chan) : (s.putChan c k h x).hostStores = s.hostStores := rfl
@[simp] theorem State.putChan_hostData (s : State) (c k h : Nat) (x : Chan) : (s.putChan c k h x).hostData = s.hostData := rfl
@[simp] theorem State.putChan_hostPoison (s : State) (c k h : Nat) (x : Chan) : (s.putChan c k h x).hostPoison = s.hostPoison := rfl
@[simp] theorem State.putChan_hostDownAt (s : State) (c k h : Nat) (x : Chan) : (s.putChan c k h x).hostDownAt = s.hostDownAt := rfl
@[simp] theorem State.putChan_inbox (s : State) (c k h : Nat) (x : Chan) : (s.putChan c k h x).inbox = s.inbox := rfl

/-! ### Writing several fibres -/

theorem State.putFibres_eq (s : State) (fs : List Fibre) :
    s.putFibres fs = { s with fibres := fs.foldl (fun t f => Tab.set t f.key f) s.fibres } := by
  induction fs generalizing s with
  | nil => rfl
  | cons f r ih => rw [State.putFibres, ih]; rfl

@[simp] theorem State.putFibres_agenda (s : State) (fs : List Fibre) : (s.putFibres fs).agenda = s.agenda := by rw [State.putFibres_eq]
@[simp] theorem State.putFibres_actor (s : State) (fs : List Fibre) : (s.putFibres fs).actor = s.actor := by rw [State.putFibres_eq]
@[simp] theorem State.putFibres_ticks (s : State) (fs : List Fibre) : (s.putFibres fs).ticks = s.ticks := by rw [State.putFibres_eq]
@[simp] theorem State.putFibres_seeds (s : State) (fs : List Fibre) : (s.putFibres fs).seeds = s.seeds := by rw [State.putFibres_eq]
@[simp] theorem State.putFibres_accesses (s : State) (fs : List Fibre) : (s.putFibres fs).accesses = s.accesses := by rw [State.putFibres_eq]
@[simp] theorem State.putFibres_nextKey (s : State) (fs : List Fibre) : (s.putFibres fs).nextKey = s.nextKey := by rw [State.putFibres_eq]
@[simp] theorem State.putFibres_frag (s : State) (fs : List Fibre) : (s.putFibres fs).frag = s.frag := by rw [State.putFibres_eq]
@[simp] theorem State.putFibres_cycle (s : State) (fs : List Fibre) : (s.putFibres fs).cycle = s.cycle := by rw [State.putFibres_eq]
@[simp] theorem State.putFibres_ptpBase (s : State) (fs : List Fibre) : (s.putFibres fs).ptpBase = s.ptpBase := by rw [State.putFibres_eq]
@[simp] theorem State.putFibres_ptpOff (s : State) (fs : List Fibre) : (s.putFibres fs).ptpOff = s.ptpOff := by rw [State.putFibres_eq]
@[simp] theorem State.putFibres_ptpLast (s : State) (fs : List Fibre) : (s.putFibres fs).ptpLast = s.ptpLast := by rw [State.putFibres_eq]
@[simp] theorem State.putFibres_ptpGood (s : State) (fs : List Fibre) : (s.putFibres fs).ptpGood = s.ptpGood := by rw [State.putFibres_eq]
@[simp] theorem State.putFibres_device (s : State) (fs : List Fibre) : (s.putFibres fs).device = s.device := by rw [State.putFibres_eq]
@[simp] theorem State.putFibres_dev (s : State) (fs : List Fibre) : (s.putFibres fs).dev = s.dev := by rw [State.putFibres_eq]
@[simp] theorem State.putFibres_host (s : State) (fs : List Fibre) : (s.putFibres fs).host = s.host := by rw [State.putFibres_eq]
@[simp] theorem State.putFibres_sram (s : State) (fs : List Fibre) : (s.putFibres fs).sram = s.sram := by rw [State.putFibres_eq]
@[simp] theorem State.putFibres_lines (s : State) (fs : List Fibre) : (s.putFibres fs).lines = s.lines := by rw [State.putFibres_eq]
@[simp] theorem State.putFibres_claims (s : State) (fs : List Fibre) : (s.putFibres fs).claims = s.claims := by rw [State.putFibres_eq]
@[simp] theorem State.putFibres_ports (s : State) (fs : List Fibre) : (s.putFibres fs).ports = s.ports := by rw [State.putFibres_eq]
@[simp] theorem State.putFibres_crews (s : State) (fs : List Fibre) : (s.putFibres fs).crews = s.crews := by rw [State.putFibres_eq]
@[simp] theorem State.putFibres_teams (s : State) (fs : List Fibre) : (s.putFibres fs).teams = s.teams := by rw [State.putFibres_eq]
@[simp] theorem State.putFibres_fills (s : State) (fs : List Fibre) : (s.putFibres fs).fills = s.fills := by rw [State.putFibres_eq]
@[simp] theorem State.putFibres_coreCtx (s : State) (fs : List Fibre) : (s.putFibres fs).coreCtx = s.coreCtx := by rw [State.putFibres_eq]
@[simp] theorem State.putFibres_clusterCtx (s : State) (fs : List Fibre) : (s.putFibres fs).clusterCtx = s.clusterCtx := by rw [State.putFibres_eq]
@[simp] theorem State.putFibres_clusters (s : State) (fs : List Fibre) : (s.putFibres fs).clusters = s.clusters := by rw [State.putFibres_eq]
@[simp] theorem State.putFibres_scrub (s : State) (fs : List Fibre) : (s.putFibres fs).scrub = s.scrub := by rw [State.putFibres_eq]
@[simp] theorem State.putFibres_ctxs (s : State) (fs : List Fibre) : (s.putFibres fs).ctxs = s.ctxs := by rw [State.putFibres_eq]
@[simp] theorem State.putFibres_launches (s : State) (fs : List Fibre) : (s.putFibres fs).launches = s.launches := by rw [State.putFibres_eq]
@[simp] theorem State.putFibres_queues (s : State) (fs : List Fibre) : (s.putFibres fs).queues = s.queues := by rw [State.putFibres_eq]
@[simp] theorem State.putFibres_qregs (s : State) (fs : List Fibre) : (s.putFibres fs).qregs = s.qregs := by rw [State.putFibres_eq]
@[simp] theorem State.putFibres_lastQueue (s : State) (fs : List Fibre) : (s.putFibres fs).lastQueue = s.lastQueue := by rw [State.putFibres_eq]
@[simp] theorem State.putFibres_keys (s : State) (fs : List Fibre) : (s.putFibres fs).keys = s.keys := by rw [State.putFibres_eq]
@[simp] theorem State.putFibres_parts (s : State) (fs : List Fibre) : (s.putFibres fs).parts = s.parts := by rw [State.putFibres_eq]
@[simp] theorem State.putFibres_mgmt (s : State) (fs : List Fibre) : (s.putFibres fs).mgmt = s.mgmt := by rw [State.putFibres_eq]
@[simp] theorem State.putFibres_link (s : State) (fs : List Fibre) : (s.putFibres fs).link = s.link := by rw [State.putFibres_eq]
@[simp] theorem State.putFibres_hostUp (s : State) (fs : List Fibre) : (s.putFibres fs).hostUp = s.hostUp := by rw [State.putFibres_eq]
@[simp] theorem State.putFibres_hostCache (s : State) (fs : List Fibre) : (s.putFibres fs).hostCache = s.hostCache := by rw [State.putFibres_eq]
@[simp] theorem State.putFibres_hostAtomics (s : State) (fs : List Fibre) : (s.putFibres fs).hostAtomics = s.hostAtomics := by rw [State.putFibres_eq]
@[simp] theorem State.putFibres_hostStamp (s : State) (fs : List Fibre) : (s.putFibres fs).hostStamp = s.hostStamp := by rw [State.putFibres_eq]
@[simp] theorem State.putFibres_stops (s : State) (fs : List Fibre) : (s.putFibres fs).stops = s.stops := by rw [State.putFibres_eq]
@[simp] theorem State.putFibres_rcache (s : State) (fs : List Fibre) : (s.putFibres fs).rcache = s.rcache := by rw [State.putFibres_eq]
@[simp] theorem State.putFibres_segLines (s : State) (fs : List Fibre) : (s.putFibres fs).segLines = s.segLines := by rw [State.putFibres_eq]
@[simp] theorem State.putFibres_codeAsks (s : State) (fs : List Fibre) : (s.putFibres fs).codeAsks = s.codeAsks := by rw [State.putFibres_eq]
@[simp] theorem State.putFibres_jobs (s : State) (fs : List Fibre) : (s.putFibres fs).jobs = s.jobs := by rw [State.putFibres_eq]
@[simp] theorem State.putFibres_hostStores (s : State) (fs : List Fibre) : (s.putFibres fs).hostStores = s.hostStores := by rw [State.putFibres_eq]
@[simp] theorem State.putFibres_hostData (s : State) (fs : List Fibre) : (s.putFibres fs).hostData = s.hostData := by rw [State.putFibres_eq]
@[simp] theorem State.putFibres_hostPoison (s : State) (fs : List Fibre) : (s.putFibres fs).hostPoison = s.hostPoison := by rw [State.putFibres_eq]
@[simp] theorem State.putFibres_hostDownAt (s : State) (fs : List Fibre) : (s.putFibres fs).hostDownAt = s.hostDownAt := by rw [State.putFibres_eq]
@[simp] theorem State.putFibres_inbox (s : State) (fs : List Fibre) : (s.putFibres fs).inbox = s.inbox := by rw [State.putFibres_eq]

/-! ### Reading back -/

@[simp] theorem State.fibre_putFibre (s : State) (f : Fibre) (k : Nat) :
    (s.putFibre f).fibre k = if f.key = k then some f else s.fibre k := by
  simp [State.fibre, State.putFibre]
@[simp] theorem State.crew_putCrew (s : State) (k j : Nat) (c : Crew) : (s.putCrew k c).crew j = if k = j then some c else s.crew j := by
  simp [State.crew, State.putCrew]
@[simp] theorem State.team_putTeam (s : State) (k j : Nat) (c : Team) : (s.putTeam k c).team j = if k = j then some c else s.team j := by
  simp [State.team, State.putTeam]
@[simp] theorem State.ctx_putCtx (s : State) (k j : Nat) (c : Ctx) : (s.putCtx k c).ctx j = if k = j then some c else s.ctx j := by
  simp [State.ctx, State.putCtx]
@[simp] theorem State.queue_putQueue (s : State) (k j : Nat) (c : Queue) : (s.putQueue k c).queue j = if k = j then some c else s.queue j := by
  simp [State.queue, State.putQueue]
@[simp] theorem State.port_putPort (s : State) (c p d q : Nat) (r : PortRun) :
    (s.putPort c p r).port d q = if 4 * c + p = 4 * d + q then some r else s.port d q := by
  simp [State.port, State.putPort]
@[simp] theorem State.port_freePort (s : State) (c p d q : Nat) :
    (s.freePort c p).port d q = if 4 * c + p = 4 * d + q then none else s.port d q := by
  simp [State.port, State.freePort]
@[simp] theorem State.lineOf_putLine (s : State) (k j : Nat) (l : Line) : (s.putLine k l).lineOf j = if k = j then l else s.lineOf j := by
  simp only [State.lineOf, State.putLine, Tab.get_set]; split <;> rfl
@[simp] theorem State.key_putKey (s : State) (k j : Nat) (x : KeySlot) : (s.putKey k x).key j = if k = j then x else s.key j := by
  simp only [State.key, State.putKey, Tab.get_set]; split <;> rfl
@[simp] theorem State.part_putPart (s : State) (k j : Nat) (x : Part) : (s.putPart k x).part j = if k = j then x else s.part j := by
  simp only [State.part, State.putPart, Tab.get_set]; split <;> rfl
@[simp] theorem State.qreg_putQreg (s : State) (k j : Nat) (x : QRegs) : (s.putQreg k x).qreg j = if k = j then x else s.qreg j := by
  simp only [State.qreg, State.putQreg, Tab.get_set]; split <;> rfl
@[simp] theorem State.cluster_putCluster (s : State) (k j : Nat) (x : Cluster) :
    (s.putCluster k x).cluster j = if k = j then x else s.cluster j := by
  simp only [State.cluster, State.putCluster, Tab.get_set]; split <;> rfl
@[simp] theorem State.cc_putCC (s : State) (c k d j : Nat) (x : CoreCtx) :
    (s.putCC c k x).cc d j = if c * 384 + k = d * 384 + j then x else s.cc d j := by
  simp only [State.cc, State.putCC, Tab.get_set]; split <;> rfl
@[simp] theorem State.clc_putCLC (s : State) (c k d j : Nat) (x : ClusterCtx) :
    (s.putCLC c k x).clc d j = if c * 8 + k = d * 8 + j then x else s.clc d j := by
  simp only [State.clc, State.putCLC, Tab.get_set]; split <;> rfl

/-! ### Full bits and pending fills of a frame (R51, R67, R82) -/

@[simp] theorem Frame.full_setReg (fr : Frame) (n m : Nat) (x : Word) : (fr.setReg n x).full m = (fr.full m || decide (m = n)) := by
  by_cases h : m = n <;> simp [Frame.full, Frame.setReg, h]
@[simp] theorem Frame.full_markEmpty (fr : Frame) (n m : Nat) : (fr.markEmpty n).full m = (fr.full m && decide (m ≠ n)) := by
  by_cases h : m = n <;> simp [Frame.full, Frame.markEmpty, h]
@[simp] theorem Frame.full_markOwed (fr : Frame) (n m : Nat) : (fr.markOwed n).full m = (fr.full m && decide (m ≠ n)) := by
  by_cases h : m = n <;> simp [Frame.full, Frame.markOwed, h]
@[simp] theorem Frame.pending_markEmpty_self (fr : Frame) (n : Nat) : (fr.markEmpty n).pending n = true := by
  simp [Frame.pending, Frame.markEmpty]
@[simp] theorem Frame.pending_markOwed_self (fr : Frame) (n : Nat) : (fr.markOwed n).pending n = false := by
  simp [Frame.pending, Frame.markOwed]
/-- A write waits for no full register. -/
theorem Frame.pending_of_full (fr : Frame) (n : Nat) (h : fr.full n = true) : fr.pending n = false := by
  simp_all [Frame.pending, Frame.full]

end Sys2Proof.Machine
end

