-- ==== Sys2Proof/Laws/Issue.lean ====
section
/-! SUPPORT. What the shared operations of issue can do: fetching depends on memory and tables alone; a group whose lanes all go through
leaves their results and nothing else. -/

namespace Sys2Proof.Machine

/-! ### What a fetch reads -/

/-- Two states fetch alike: the same device and host memory, lines, tables, grants, unreachable devices and lines held by ports,
and the same lines claimed. -/
structure FetchAlike (s t : State) : Prop where
  dev : t.dev = s.dev
  host : t.host = s.host
  lines : t.lines = s.lines
  claims : t.claims = s.claims
  ctxs : t.ctxs = s.ctxs
  mgmt : t.mgmt = s.mgmt
  link : t.link = s.link
  code : ∀ ctx la, t.codeLine ctx la = s.codeLine ctx la

theorem FetchAlike.rawRead {s t : State} (h : FetchAlike s t) {p : PA} (hp : p.sp ≠ .sram) (n : Nat) : t.rawRead p n = s.rawRead p n := by
  unfold State.rawRead
  refine List.map_congr_left fun i _ => ?_
  unfold State.rawByte State.lineOf
  cases hs : p.sp <;> simp_all [h.dev, h.host, h.lines]

theorem lineBase_line_sp {p : PA} (hp : p.sp ≠ .sram) : (lineBase p.line).sp ≠ .sram := by
  unfold lineBase PA.line
  cases hs : p.sp <;> simp_all

theorem FetchAlike.peek {s t : State} (h : FetchAlike s t) {p : PA} (hp : p.sp ≠ .sram) (n : Nat) : t.peek p n = s.peek p n := by
  unfold State.peek State.lineOf
  rw [h.lines, h.rawRead hp, h.rawRead (lineBase_line_sp hp)]

theorem FetchAlike.granOwner {s t : State} (h : FetchAlike s t) (g : Nat) : t.granOwner g = s.granOwner g := by
  unfold State.granOwner; rw [h.mgmt]

theorem FetchAlike.walkFrom {s t : State} (h : FetchAlike s t) (ctx va : Nat) (lv : List (Nat × Nat × Nat)) {tab : PA}
    (hp : tab.sp ≠ .sram) : t.walkFrom ctx va lv tab = s.walkFrom ctx va lv tab := by
  induction lv generalizing tab with
  | nil => rfl
  | cons x r ih =>
    obtain ⟨lvl, sh, bits⟩ := x
    have hq : ({ tab with a := tab.a + 8 * bitsOf va sh bits } : PA).sp ≠ .sram := hp
    simp only [State.walkFrom, h.granOwner, h.peek hq]
    split
    · rfl
    · split
      · rfl
      · split
        · rfl
        · exact ih (by simp only []; split <;> simp)

theorem FetchAlike.walk {s t : State} (h : FetchAlike s t) (ctx va : Nat) : t.walk ctx va = s.walk ctx va := by
  unfold State.walk State.ctx
  rw [h.ctxs]
  cases Tab.get s.ctxs ctx with
  | none => rfl
  | some c => exact h.walkFrom ctx va _ (by dsimp only; split <;> simp)

theorem FetchAlike.deadPage {s t : State} (h : FetchAlike s t) (ctx va : Nat) (pte : PA) : t.deadPage ctx va pte = s.deadPage ctx va pte := by
  unfold State.deadPage State.ctx
  rw [h.ctxs]

theorem FetchAlike.walkEntries {s t : State} (h : FetchAlike s t) (ctx va : Nat) (lv : List (Nat × Nat × Nat)) {tab : PA}
    (hp : tab.sp ≠ .sram) : t.walkEntries ctx va lv tab = s.walkEntries ctx va lv tab := by
  induction lv generalizing tab with
  | nil => rfl
  | cons x r ih =>
    obtain ⟨lvl, sh, bits⟩ := x
    have hq : ({ tab with a := tab.a + 8 * bitsOf va sh bits } : PA).sp ≠ .sram := hp
    simp only [State.walkEntries, h.granOwner, h.peek hq]
    rw [ih (by dsimp only; split <;> simp)]

theorem FetchAlike.walkPath {s t : State} (h : FetchAlike s t) (ctx va : Nat) : t.walkPath ctx va = s.walkPath ctx va := by
  unfold State.walkPath State.ctx
  rw [h.ctxs]
  split
  · rfl
  · cases Tab.get s.ctxs ctx with
    | none => rfl
    | some c => exact h.walkEntries ctx va _ (by dsimp only; split <;> simp)

/-- Whether a read finds an error depends on the line alone. -/
theorem readCheck_fst (s : State) (p : PA) (n found : Nat) : (s.readCheck p n found).1 =
    (decide ((s.lineOf p.line).hidden ≠ 0) || (s.lineOf p.line).poison && (sectorsTouched p.a n).any fun i => !(s.lineOf p.line).sectors.getLsbD i) := by
  unfold State.readCheck
  simp only
  split
  · simp [*]
  · split <;> simp [*]

theorem FetchAlike.lineOf {s t : State} (h : FetchAlike s t) (lk : Nat) : t.lineOf lk = s.lineOf lk := by
  unfold State.lineOf; rw [h.lines]
theorem FetchAlike.walkUnready {s t : State} (h : FetchAlike s t) (ctx la : Nat) : t.walkUnready ctx la = s.walkUnready ctx la := by
  unfold State.walkUnready State.claimed
  simp only [h.walkPath, readCheck_fst, h.lineOf, h.claims]
theorem FetchAlike.lineUnready {s t : State} (h : FetchAlike s t) (p : PA) : t.lineUnready p = s.lineUnready p := by
  unfold State.lineUnready
  simp only [readCheck_fst, h.lineOf]

/-- A fetch reads the same line in states that fetch alike. -/
theorem FetchAlike.fetchLine {s t : State} (h : FetchAlike s t) (ctx la : Nat) : t.fetchLine ctx la = s.fetchLine ctx la := by
  unfold State.fetchLine
  rw [h.walk, h.walkUnready]
  cases s.walk ctx la with
  | error e => rfl
  | ok lf =>
    have hp : (⟨if lf.loc = 0 then Space.dev else .host, lf.base + la % lf.size⟩ : PA).sp ≠ .sram := by
      dsimp only; split <;> simp
    simp only [h.link, h.deadPage, h.code, h.granOwner, h.rawRead hp, h.lineUnready]

theorem FetchAlike.nextSlotFuel {s t : State} (h : FetchAlike s t) (n ctx la i : Nat) : t.nextSlotFuel n ctx la i = s.nextSlotFuel n ctx la i := by
  induction n generalizing la i with
  | zero => rfl
  | succ n ih =>
    simp only [State.nextSlotFuel, h.fetchLine]
    split
    · rfl
    · split
      · rfl
      · exact ih _ _

theorem FetchAlike.nextSlot {s t : State} (h : FetchAlike s t) (ctx : Nat) (pc : DWord) : t.nextSlot ctx pc = s.nextSlot ctx pc :=
  h.nextSlotFuel (2 ^ 51) ctx _ _

theorem FetchAlike.heapFault {s t : State} (h : FetchAlike s t) (ctx va : Nat) : t.heapFault ctx va = s.heapFault ctx va := by
  unfold State.heapFault
  simp only [h.walk, h.granOwner]

/-! ### Fibres written and read back -/

theorem State.fibre_putFibres_of_not_mem (s : State) {fs : List Fibre} {k : Nat} (h : ∀ f ∈ fs, f.key ≠ k) :
    (s.putFibres fs).fibre k = s.fibre k := by
  induction fs generalizing s with
  | nil => rfl
  | cons f r ih =>
    rw [State.putFibres, ih _ (fun x hx => h x (List.mem_cons_of_mem _ hx)), State.fibre_putFibre, if_neg (h f List.mem_cons_self)]

theorem State.fibre_putFibres_of_mem (s : State) {fs : List Fibre} (hn : (fs.map Fibre.key).Nodup) {f : Fibre} (hf : f ∈ fs) :
    (s.putFibres fs).fibre f.key = some f := by
  induction fs generalizing s with
  | nil => cases hf
  | cons g r ih =>
    rw [List.map_cons, List.nodup_cons] at hn
    rw [State.putFibres]
    rcases List.mem_cons.mp hf with rfl | hm
    · rw [State.fibre_putFibres_of_not_mem _ (fun x hx he => hn.1 (List.mem_map.mpr ⟨x, hx, he⟩)), State.fibre_putFibre, if_pos rfl]
    · exact ih _ hn.2 hm

/-! ### The lanes of a sound group -/

theorem State.group_fs {s : State} {g : Group} (h : s.group = some g) : g.fs = g.run.fibres.filterMap s.fibre := by
  unfold State.group at h
  split at h <;> first | cases h | skip
  split at h <;> cases h
  rfl

theorem Tab.mem_of_get {α : Type} {t : Tab α} {k : Nat} {a : α} (h : Tab.get t k = some a) : (k, a) ∈ t := by
  induction t with
  | nil => simp [Tab.get] at h
  | cons x r ih =>
    obtain ⟨i, b⟩ := x
    unfold Tab.get at h
    split_ifs at h with hi
    · cases h; subst hi; exact List.mem_cons_self
    · exact List.mem_cons_of_mem _ (ih h)

/-- Every fibre is kept under its own number. -/
theorem Group.sound_own {g : Group} {s : State} (hs : g.sound s = true) {k : Nat} {f : Fibre} (h : s.fibre k = some f) : f.key = k := by
  simp only [Group.sound, Bool.and_eq_true, List.all_eq_true] at hs
  simpa using hs.2 (k, f) (Tab.mem_of_get h)

theorem Group.sound_fibre {g : Group} {s : State} (hs : g.sound s = true) {k : Nat} (hk : k ∈ g.run.fibres) :
    ∃ f, s.fibre k = some f ∧ f.key = k := by
  have h := hs
  simp only [Group.sound, Bool.and_eq_true, List.all_eq_true] at h
  obtain ⟨f, hf⟩ := Option.isSome_iff_exists.mp (h.1.2 k hk)
  exact ⟨f, hf, Group.sound_own hs hf⟩

theorem Group.sound_keys {g : Group} {s : State} (hg : s.group = some g) (hs : g.sound s = true) : g.fs.map Fibre.key = g.run.fibres := by
  rw [State.group_fs hg]
  have h : ∀ l : List Nat, (∀ k ∈ l, ∃ f, s.fibre k = some f ∧ f.key = k) → (l.filterMap s.fibre).map Fibre.key = l := by
    intro l hl
    induction l with
    | nil => rfl
    | cons k r ih =>
      obtain ⟨f, hf, hk⟩ := hl k List.mem_cons_self
      rw [List.filterMap_cons, hf]
      simp only [List.map_cons, hk]
      rw [ih fun k hk => hl k (List.mem_cons_of_mem _ hk)]
  exact h _ fun k hk => Group.sound_fibre hs hk

theorem Group.sound_nodup {g : Group} {s : State} (hg : s.group = some g) (hs : g.sound s = true) : (g.fs.map Fibre.key).Nodup := by
  rw [Group.sound_keys hg hs]
  simp only [Group.sound, Bool.and_eq_true, decide_eq_true_eq] at hs
  exact hs.1.1.2

theorem Group.sound_mem {g : Group} {s : State} (hg : s.group = some g) (hs : g.sound s = true) {f : Fibre} (hf : f ∈ g.fs) :
    s.fibre f.key = some f ∧ f.key ∈ g.run.fibres := by
  have hk : f.key ∈ g.run.fibres := by rw [← Group.sound_keys hg hs]; exact List.mem_map_of_mem hf
  refine ⟨?_, hk⟩
  rw [State.group_fs hg, List.mem_filterMap] at hf
  obtain ⟨k, hk', hfk⟩ := hf
  obtain ⟨f', hf', hkey⟩ := Group.sound_fibre hs hk'
  rw [hfk] at hf'; cases hf'
  rw [hkey]; exact hfk

/-! ### Issue counters -/

theorem key384 {c k d j : Nat} (hk : k < 384) (hj : j < 384) (h : c * 384 + k = d * 384 + j) : c = d ∧ k = j := by omega

/-- Raising a counter changes nothing else that a core keeps. -/
theorem State.cc_bump (s : State) {c k d j : Nat} (i n : Nat) (hk : k < 384) (hj : j < 384) :
    { (s.bump c k i n).cc d j with counts := (s.cc d j).counts } = s.cc d j := by
  unfold State.bump
  simp only [State.cc_putCC]
  split
  · rename_i h
    obtain ⟨rfl, rfl⟩ := key384 hk hj h
    rfl
  · rfl

/-! ### A group whose lanes all go through -/

/-- The shared end of an instruction that goes through: once the group's fibres hold their results and nothing else has changed, the
sentence goes on. -/
theorem goOn_groupStep_of {s u : State} {g : Group} {res : Fibre → Fibre} (hkeys : g.fs.map Fibre.key = g.run.fibres)
    (hnd : (g.fs.map Fibre.key).Nodup) (hcore : g.core < 384)
    (hr : ∀ f ∈ g.fs, (res f).key = f.key ∧ (res f).ctx = f.ctx ∧ (res f).pc = f.pc)
    (h1 : ∀ f ∈ g.fs, u.fibre f.key = some (res f)) (h2 : ∀ k, k ∉ g.run.fibres → u.fibre k = s.fibre k)
    (h3 : { u with fibres := s.fibres } = s) : s.groupStep (u.goOn g) g res := by
  have hrk : (g.fs.map res).map Fibre.key = g.run.fibres := by
    rw [List.map_map, ← hkeys]
    exact List.map_congr_left fun f hf => (hr f hf).1
  obtain ⟨v, hv⟩ : ∃ v, v = u.counted g := ⟨_, rfl⟩
  have hvf : ∀ k, v.fibre k = u.fibre k := by
    intro k; rw [hv]; unfold State.counted; split <;> rfl
  have hvv : { v with fibres := s.fibres, coreCtx := s.coreCtx } = s := by
    rw [hv]
    have h4 : s.coreCtx = u.coreCtx := (congrArg State.coreCtx h3).symm
    unfold State.counted
    split
    · exact (show ({ u with fibres := s.fibres, coreCtx := s.coreCtx } : State) = s by rw [h4]; exact h3)
    · rw [h4]; exact h3
  have hural : FetchAlike s v := by
    have e := hvv
    refine ⟨?_, ?_, ?_, ?_, ?_, ?_, ?_, fun ctx la => ?_⟩
    · have h := congrArg State.dev e
      exact h
    · have h := congrArg State.host e
      exact h
    · have h := congrArg State.lines e
      exact h
    · have h := congrArg State.claims e
      exact h
    · have h := congrArg State.ctxs e
      exact h
    · have h := congrArg State.mgmt e
      exact h
    · have h := congrArg State.link e
      exact h
    · have hp : v.ports = s.ports := by
        have := congrArg State.ports e
        exact this
      have hc : v.crews = s.crews := by
        have := congrArg State.crews e
        exact this
      have ht : v.teams = s.teams := by
        have := congrArg State.teams e
        exact this
      have hq : v.codeAsks = s.codeAsks := by
        have := congrArg State.codeAsks e
        exact this
      unfold State.codeLine; rw [hp, hc, ht, hq]
  have hnow : g.now v = g.fs.map res := by
    unfold Group.now
    rw [← hrk, List.filterMap_map]
    have : ∀ l : List Fibre, (∀ f ∈ l, f ∈ g.fs.map res) → l.filterMap (v.fibre ∘ Fibre.key) = l := by
      intro l hl
      induction l with
      | nil => rfl
      | cons f r ih =>
        have h1 : v.fibre f.key = some f := by
          obtain ⟨x, hx, rfl⟩ := List.mem_map.mp (hl f List.mem_cons_self)
          rw [hvf, (hr x hx).1]; exact h1 x hx
        have h2 : (v.fibre ∘ Fibre.key) f = some f := h1
        rw [List.filterMap_cons, h2]
        dsimp only
        rw [ih fun x hx => hl x (List.mem_cons_of_mem _ hx)]
    exact this _ fun f hf => hf
  have hgo : u.goOn g = (v.putFibres ((g.fs.map res).map fun f => f.goesTo (v.nextSlot f.ctx f.pc))).putPort g.core g.p
        { g.run with count := g.run.count + 1, done := [], wait := .none, know := [], nth := 0, part := [], queued := none } := by
    unfold State.goOn
    simp only [← hv, hnow]
    rfl
  rw [hgo, List.map_map]
  have hfk : (List.map Fibre.key (List.map ((fun f : Fibre => f.goesTo (v.nextSlot f.ctx f.pc)) ∘ res) g.fs)) = g.run.fibres := by
    rw [← hrk, List.map_map, List.map_map]; rfl
  refine ⟨?_, ?_, ?_, ?_, ?_, ?_⟩
  · intro f hf
    have h := State.fibre_putFibres_of_mem v (fs := List.map ((fun f : Fibre => f.goesTo (v.nextSlot f.ctx f.pc)) ∘ res) g.fs)
      (by rw [hfk, ← hkeys]; exact hnd) (List.mem_map_of_mem hf)
    have h2 : ((fun f : Fibre => f.goesTo (v.nextSlot f.ctx f.pc)) ∘ res) f = (res f).goesTo (s.nextSlot f.ctx f.pc) := by
      simp only [Function.comp_apply, (hr f hf).2.1, (hr f hf).2.2, hural.nextSlot]
    have h3 : ((res f).goesTo (s.nextSlot f.ctx f.pc)).key = f.key := (hr f hf).1
    rw [h2, h3] at h
    exact h
  · intro k hk
    have h1 : (v.putFibres (List.map ((fun f : Fibre => f.goesTo (v.nextSlot f.ctx f.pc)) ∘ res) g.fs)).fibre k = v.fibre k :=
      State.fibre_putFibres_of_not_mem _ fun f hf he => hk (hfk ▸ List.mem_map.mpr ⟨f, hf, he⟩)
    exact h1.trans ((hvf k).trans (h2 k hk))
  · simp
  · intro c p hne
    rw [State.port_putPort, if_neg (Ne.symm hne)]
    have : v.ports = s.ports := by
        have := congrArg State.ports hvv
        exact this
    simp only [State.port, State.putFibres_ports, this]
  · intro ctx core hc
    have h4 : ∀ fs r, ((v.putFibres fs).putPort g.core g.p r).cc ctx core = v.cc ctx core := by
      intro fs r; simp [State.cc, State.ctx]
    have h0 : u.cc ctx core = s.cc ctx core := by
      have hc1 : u.coreCtx = s.coreCtx := by
        have := congrArg State.coreCtx h3
        exact this
      have hc2 : u.ctxs = s.ctxs := by
        have := congrArg State.ctxs h3
        exact this
      simp [State.cc, State.ctx, hc1, hc2]
    rw [h4, hv, ← h0]
    unfold State.counted
    split
    · exact State.cc_bump _ 0 1 hcore hc
    · rfl
  · rw [State.putFibres_eq]
    have hp : v.ports = s.ports := by
      have h := congrArg State.ports hvv
      exact h
    show ({ v with fibres := s.fibres, ports := s.ports, coreCtx := s.coreCtx } : State) = s
    rw [← hp]
    exact hvv

theorem Group.sound_core {g : Group} {s : State} (hs : g.sound s = true) : g.core < 384 := by
  simp only [Group.sound, Bool.and_eq_true, decide_eq_true_eq] at hs; exact hs.1.1.1

/-- What a group's fibres hold once their results are written. -/
theorem putFibres_results {s : State} {g : Group} (hg : s.group = some g) (hs : g.sound s = true) {res : Fibre → Fibre}
    (hr : ∀ f ∈ g.fs, (res f).key = f.key) (u : State) :
    (∀ f ∈ g.fs, (u.putFibres (g.fs.map res)).fibre f.key = some (res f)) ∧
    (∀ k, k ∉ g.run.fibres → (u.putFibres (g.fs.map res)).fibre k = u.fibre k) := by
  have hkeys := Group.sound_keys hg hs
  have hrk : (g.fs.map res).map Fibre.key = g.run.fibres := by
    rw [List.map_map, ← hkeys]
    exact List.map_congr_left fun f hf => hr f hf
  refine ⟨fun f hf => ?_, fun k hk => ?_⟩
  · rw [← hr f hf]
    exact State.fibre_putFibres_of_mem _ (by rw [hrk, ← hkeys]; exact Group.sound_nodup hg hs) (List.mem_map_of_mem hf)
  · exact State.fibre_putFibres_of_not_mem _ fun f hf he => hk (hrk ▸ List.mem_map.mpr ⟨f, hf, he⟩)

theorem goOn_groupStep {s : State} {g : Group} (hg : s.group = some g) (hs : g.sound s = true) (res : Fibre → Fibre)
    (hr : ∀ f ∈ g.fs, (res f).key = f.key ∧ (res f).ctx = f.ctx ∧ (res f).pc = f.pc) :
    s.groupStep ((s.putFibres (g.fs.map res)).goOn g) g res := by
  obtain ⟨h1, h2⟩ := putFibres_results hg hs (fun f hf => (hr f hf).1) s
  exact goOn_groupStep_of (Group.sound_keys hg hs) (Group.sound_nodup hg hs) (Group.sound_core hs) hr h1 h2 (by rw [State.putFibres_eq])

/-- The port goes on when no lane holds or waits. -/
theorem State.holdIf_none (s : State) (g : Group) {l : List (Fibre × LaneOut)} (h : ∀ x ∈ l, x.2.isHold = false ∧ x.2.isWait = false) :
    s.holdIf g l = none := by
  unfold State.holdIf
  rw [if_neg (by simpa using fun a b hx => (h (a, b) hx).1), if_neg (by simpa using fun a b hx => (h (a, b) hx).2)]
theorem State.holdIf_ok (s : State) (g : Group) (fs : List Fibre) (res : Fibre → Fibre) :
    s.holdIf g (fs.map fun f => (f, LaneOut.ok (res f))) = none :=
  s.holdIf_none g fun x hx => by obtain ⟨f, _, rfl⟩ := List.mem_map.mp hx; exact ⟨rfl, rfl⟩

/-- Lanes that all answer a fibre settle into those fibres. -/
theorem State.settleLanes_ok (s : State) (g : Group) (out : Fibre → LaneOut) (zero : Fibre → Fibre) (after : State → State)
    (res : Fibre → Fibre) (h : ∀ f ∈ g.fs, out f = .ok (res f)) :
    s.settleLanes g (g.fs.map (fun f => (f, out f))) zero after = after (s.putFibres (g.fs.map res)) := by
  have h1 : (g.fs.map (fun f => (f, out f))) = g.fs.map (fun f => (f, LaneOut.ok (res f))) :=
    List.map_congr_left fun f hf => by rw [h f hf]
  unfold State.settleLanes
  rw [h1, if_neg (by simp [LaneOut.isFault]), State.holdIf_ok]
  dsimp only
  congr 1
  rw [List.filterMap_map]
  congr 1
  induction g.fs with
  | nil => rfl
  | cons f r ih => simp [LaneOut.fibre?] at ih ⊢

theorem laneStep_go {zero : Fibre → Fibre} {guard : Bool} {pre : Pre} {f : Fibre} {op : Unit → LaneOut} {x : Fibre}
    (hpre : guard = true → pre = .go) (hop : guard = true → op () = .ok x) :
    laneStep zero guard pre f op = .ok (if guard = true then x else f) := by
  unfold laneStep
  cases guard with
  | false => simp
  | true => simp [hpre, hop]

theorem Group.clear_row {g : Group} {s : State} {op : Nat} {o : GOp} (h : g.clear s op o = true) :
    ∃ r, gRow op = some r ∧ ∀ f ∈ g.fs, f.guard o.guard = true → s.preG f op o r .go = .go := by
  unfold Group.clear at h
  split at h
  · rename_i r hr
    refine ⟨r, hr, fun f hf hg => ?_⟩
    rw [List.all_eq_true] at h
    have := h f hf
    simpa [hg] using this
  · cases h

/-- A format G instruction whose lanes act alone, in a group with nothing to find at issue: it goes through, each lane whose guard
passes holds its result, and nothing else changes. -/
theorem runG_groupStep {op : Nat} {o : GOp} {s : State} {g : Group} {lane : State → Fibre → LaneOut} (res : Fibre → Fibre)
    (hg : s.group = some g) (hs : g.sound s = true) (hc : g.clear s op o = true)
    (hl : ∀ f ∈ g.fs, f.guard o.guard = true → lane s f = .ok (res f))
    (hr : ∀ f ∈ g.fs, (res f).key = f.key ∧ (res f).ctx = f.ctx ∧ (res f).pc = f.pc) :
    ∃ t, runG op o s lane = .next t ∧ s.groupStep t g (fun f => if f.guard o.guard then res f else f) := by
  obtain ⟨r, hrow, hpre⟩ := Group.clear_row hc
  refine ⟨_, ?_, goOn_groupStep hg hs _ ?_⟩
  · unfold runG
    rw [hg, hrow]
    dsimp only
    rw [State.settleLanes_ok s g _ _ _ (fun f => if f.guard o.guard then res f else f) (fun f hf => laneStep_go (hpre f hf) (hl f hf))]
  · intro f hf
    split
    · exact hr f hf
    · exact ⟨rfl, rfl, rfl⟩

/-! ### What writing a destination leaves -/

@[simp] theorem Fibre.setDst_key (f : Fibre) (d : Dst) (x : Word) : (f.setDst d x).key = f.key := by cases d <;> rfl
@[simp] theorem Fibre.setDst_ctx (f : Fibre) (d : Dst) (x : Word) : (f.setDst d x).ctx = f.ctx := by cases d <;> rfl
@[simp] theorem Fibre.setDst_pc (f : Fibre) (d : Dst) (x : Word) : (f.setDst d x).pc = f.pc := by cases d <;> rfl
@[simp] theorem Fibre.setPair_key (f : Fibre) (n : Nat) (x : DWord) : (f.setPair n x).key = f.key := rfl
@[simp] theorem Fibre.setPair_ctx (f : Fibre) (n : Nat) (x : DWord) : (f.setPair n x).ctx = f.ctx := rfl
@[simp] theorem Fibre.setPair_pc (f : Fibre) (n : Nat) (x : DWord) : (f.setPair n x).pc = f.pc := rfl
@[simp] theorem Fibre.raise_key (f : Fibre) (n : Nat) : (f.raise n).key = f.key := rfl
@[simp] theorem Fibre.raise_ctx (f : Fibre) (n : Nat) : (f.raise n).ctx = f.ctx := rfl
@[simp] theorem Fibre.raise_pc (f : Fibre) (n : Nat) : (f.raise n).pc = f.pc := rfl
@[simp] theorem Fibre.setTop_key (f : Fibre) (x : Frame) : (f.setTop x).key = f.key := rfl
@[simp] theorem Fibre.setTop_ctx (f : Fibre) (x : Frame) : (f.setTop x).ctx = f.ctx := rfl
@[simp] theorem Fibre.setTop_pc (f : Fibre) (x : Frame) : (f.setTop x).pc = f.pc := rfl
theorem Fibre.markEmpty_same (f : Fibre) (n k : Nat) :
    (f.markEmpty n k).key = f.key ∧ (f.markEmpty n k).ctx = f.ctx ∧ (f.markEmpty n k).pc = f.pc := by
  induction k with
  | zero => exact ⟨rfl, rfl, rfl⟩
  | succ k ih => exact ih

theorem lane32_groupStep {op : Nat} {o : GOp} {s : State} {g : Group} {t : ImmTy} {k : Word → Word → Word → Word}
    (hg : s.group = some g) (hs : g.sound s = true) (hc : g.clear s op o = true) :
    ∃ u, runG op o s (lane32 t o k) = .next u ∧ s.groupStep u g (fun f => if f.guard o.guard then
      f.setDst o.dst (k (s.src f t o.imm o.a) (s.src f t o.imm o.b) (s.src f t o.imm o.c)) else f) :=
  runG_groupStep _ hg hs hc (fun _ _ _ => rfl) (fun f _ => ⟨by simp, by simp, by simp⟩)

theorem lane64_groupStep {op : Nat} {o : GOp} {s : State} {g : Group} {k : State → Fibre → DWord}
    (hg : s.group = some g) (hs : g.sound s = true) (hc : g.clear s op o = true) :
    ∃ u, runG op o s (lane64 o k) = .next u ∧ s.groupStep u g (fun f => if f.guard o.guard then f.setPair o.dst.num (k s f) else f) :=
  runG_groupStep _ hg hs hc (fun _ _ _ => rfl) (fun f _ => ⟨by simp, by simp, by simp⟩)

/-- An operation with flags, none of them enabled in a lane whose guard passes (R172, R173). -/
theorem flagged_groupStep {op : Nat} {o : GOp} {s : State} {g : Group} {lane : State → Fibre → LaneOut} (fl : Fibre → Nat)
    (write : Fibre → Fibre → Fibre)
    (hg : s.group = some g) (hs : g.sound s = true) (hc : g.clear s op o = true)
    (hl : ∀ f ∈ g.fs, lane s f = f.flagged (fl f) (write f))
    (ht : ∀ f ∈ g.fs, f.guard o.guard = true → f.trapped (fl f) = 0)
    (hw : ∀ f x, (write f x).key = x.key ∧ (write f x).ctx = x.ctx ∧ (write f x).pc = x.pc) :
    ∃ u, runG op o s lane = .next u ∧ s.groupStep u g (fun f => if f.guard o.guard then write f (f.raise (fl f)) else f) :=
  runG_groupStep _ hg hs hc (fun f hf hgd => by rw [hl f hf, Fibre.flagged, if_pos (ht f hf hgd)])
    (fun f _ => ⟨(hw f _).1, (hw f _).2.1, (hw f _).2.2⟩)

/-! ### Completion, by the shape of the meaning -/

theorem goesThrough_runG {op : Nat} {i : Instr} {o : GOp} {lane : State → Fibre → LaneOut} {res : State → Fibre → Fibre}
    (hx : ∀ s, exec i s = runG op o s lane) (hl : ∀ s f, lane s f = .ok (res s f))
    (hr : ∀ s f, (res s f).key = f.key ∧ (res s f).ctx = f.ctx ∧ (res s f).pc = f.pc) : goesThrough op i o res := fun s g hg hs hc => by
  rw [hx]
  exact runG_groupStep (res s) hg hs hc (fun f _ _ => hl s f) (fun f _ => hr s f)

theorem goesThrough_lane32 {op : Nat} {i : Instr} {o : GOp} {t : ImmTy} {k m : Word → Word → Word → Word}
    (hx : ∀ s, exec i s = runG op o s (lane32 t o k)) (hk : ∀ a b c, k a b c = m a b c) : goesThrough op i o (takes32 t o m) :=
  goesThrough_runG hx (fun s f => by simp [lane32, takes32, hk]) (fun s f => by simp [takes32])

theorem goesThrough_lane64 {op : Nat} {i : Instr} {o : GOp} {k m : State → Fibre → DWord}
    (hx : ∀ s, exec i s = runG op o s (lane64 o k)) (hk : ∀ s f, k s f = m s f) : goesThrough op i o (takes64 o m) :=
  goesThrough_runG hx (fun s f => by simp [lane64, takes64, hk]) (fun s f => by simp [takes64])

theorem roundsThrough_runG {op : Nat} {i : Instr} {o : GOp} {lane : State → Fibre → LaneOut} {r : State → Fibre → FRes}
    {write : Nat → Fibre → Fibre} (hx : ∀ s, exec i s = runG op o s lane)
    (hl : ∀ s f, lane s f = f.flagged (r s f).flags (write (r s f).bits))
    (hw : ∀ x f, (write x f).key = f.key ∧ (write x f).ctx = f.ctx ∧ (write x f).pc = f.pc) : roundsThrough op i o r write :=
  fun s g hg hs hc ht => by
    rw [hx]
    exact flagged_groupStep (fun f => (r s f).flags) (fun f => write (r s f).bits) hg hs hc (fun f _ => hl s f) ht (fun f x => hw _ x)

theorem to32_same (o : GOp) (x : Nat) (f : Fibre) : (to32 o x f).key = f.key ∧ (to32 o x f).ctx = f.ctx ∧ (to32 o x f).pc = f.pc := by
  simp [to32]
theorem to64_same (o : GOp) (x : Nat) (f : Fibre) : (to64 o x f).key = f.key ∧ (to64 o x f).ctx = f.ctx ∧ (to64 o x f).pc = f.pc := by
  simp [to64]

theorem roundsThrough_laneF {op : Nat} {i : Instr} {o : GOp} {t : ImmTy} {k m : Nat → Nat → Nat → FRes}
    (hx : ∀ s, exec i s = runG op o s (laneF t o k)) (hk : ∀ a b c, k a b c = m a b c) :
    roundsThrough op i o (from32 t o m) (to32 o) := by
  have : k = m := by funext a b c; exact hk a b c
  subst this
  exact roundsThrough_runG hx (fun s f => rfl) (to32_same o)

theorem roundsThrough_laneD {op : Nat} {i : Instr} {o : GOp} {k m : Nat → Nat → Nat → FRes}
    (hx : ∀ s, exec i s = runG op o s (laneD o k)) (hk : ∀ a b c, k a b c = m a b c) :
    roundsThrough op i o (from64 o m) (to64 o) := by
  have : k = m := by funext a b c; exact hk a b c
  subst this
  exact roundsThrough_runG hx (fun s f => rfl) (to64_same o)

/-- A sound group stays one, and is the group, in a state with the same actor, ports and fibres. -/
theorem Group.sound_congr {s u : State} {g : Group} (hf : u.fibres = s.fibres) : g.sound u = g.sound s := by
  simp only [Group.sound, State.fibre, hf]
theorem State.group_congr {s u : State} (ha : u.actor = s.actor) (hp : u.ports = s.ports) (hf : u.fibres = s.fibres) : u.group = s.group := by
  unfold State.group State.port
  rw [ha, hp]
  have : u.fibre = s.fibre := by funext k; simp only [State.fibre, hf]
  rw [this]

theorem fillsThrough_runFill {op : Nat} {i : Instr} {o : GOp} {n : Nat} {vals : State → Fibre → List Word}
    (hx : ∀ s, exec i s = runFill op o s n vals) : fillsThrough op i o n vals := fun s g hg hs hc => by
  obtain ⟨r, hrow, hpre⟩ := Group.clear_row hc
  rw [hx]
  unfold runFill
  rw [hg, hrow]
  dsimp only
  rw [State.settleLanes_ok s g _ _ _ (fun f => if f.guard o.guard then f.markEmpty o.dst.num n else f)
    (fun f hf => laneStep_go (hpre f hf) (fun _ => rfl))]
  refine ⟨_, rfl, ?_⟩
  have hfilter : (g.fs.filter fun f => f.guard o.guard && decide (s.preG f op o r .go = .go)) = g.fs.filter fun f => f.guard o.guard :=
    List.filter_congr fun f hf => by
      cases hgd : f.guard o.guard with
      | false => rfl
      | true => simp [hpre f hf hgd]
  simp only [hfilter]
  generalize hfl : List.map _ (List.filter _ g.fs) = fl
  have h1 : ∀ fs : List Fibre, ({ s.putFibres fs with fills := (s.putFibres fs).fills ++ fl } : State)
      = ({ s with fills := s.fills ++ fl } : State).putFibres fs := fun fs => by
    simp only [State.putFibres_eq]
  rw [h1]
  refine goOn_groupStep (s := { s with fills := s.fills ++ fl }) ?_ ?_ _ fun f _ => ?_
  · rw [← hg]; exact State.group_congr rfl rfl rfl
  · exact (Group.sound_congr (s := s) (g := g) rfl).trans hs
  · split
    · exact f.markEmpty_same _ _
    · exact ⟨rfl, rfl, rfl⟩

end Sys2Proof.Machine
end

