-- ==== Sys2Proof/Laws/Groups.lean ====
section
/-! SUPPORT. What the shared shapes of group 3 and 4 instructions can do: crews, trailers, lanes that act in order, effects of R501. -/

namespace Sys2Proof.Machine

theorem State.withLate_none {s : State} {g : Group} (k : State → Group → State) (h : ∀ f ∈ g.fs, f.late = none ∧ f.refs = []) :
    s.withLate g k = k s g := by
  unfold State.withLate
  rw [if_neg, if_neg]
  · simpa using fun f hf => (h f hf).1
  · simp only [List.any_eq_true, not_exists, not_and]
    intro f hf
    simp [(h f hf).2]

theorem State.clearLane_go {s : State} {op : Nat} {o : GOp} {f : Fibre} {r : GRow} (h : s.clearLane op o f = true) (hr : gRow op = some r) :
    s.preG f op o r .go = .go := by
  simpa [State.clearLane, hr] using h

theorem zeroOf_row {op : Nat} {o : GOp} {r : GRow} (hr : gRow op = some r) (f : Fibre) : zeroOf op o f = f.zeroDst o r := by
  simp [zeroOf, hr]

theorem map_ok {fs : List Fibre} {out : Fibre → LaneOut} {res : Fibre → Fibre} (h : ∀ f ∈ fs, out f = .ok (res f)) :
    (fs.map fun f => (f, out f)) = fs.map fun f => (f, LaneOut.ok (res f)) :=
  List.map_congr_left fun f hf => by rw [h f hf]
theorem noFault_map {fs : List Fibre} {res : Fibre → Fibre} :
    ¬ ((fs.map fun f => (f, LaneOut.ok (res f))).any fun x => x.2.isFault) = true := by
  simp [LaneOut.isFault]
theorem noHold_map {fs : List Fibre} {res : Fibre → Fibre} :
    ¬ ((fs.map fun f => (f, LaneOut.ok (res f))).any fun x => x.2.isHold) = true := by
  simp [LaneOut.isHold]
theorem okFibres_map {fs : List Fibre} {res : Fibre → Fibre} :
    (fs.map fun f => (f, LaneOut.ok (res f))).filterMap (fun x => x.2.fibre?) = fs.map res := by
  induction fs with
  | nil => rfl
  | cons f r ih => simp [LaneOut.fibre?]

/-! ### Trailers -/

/-- A trailer whose lanes all answer a fibre ends the sentence with them. -/
theorem State.settleTrailer_ok (s : State) (g : Group) (out : Fibre → LaneOut) (alone : Bool) (res : Fibre → Fibre)
    (h : ∀ f ∈ g.fs, out f = .ok (res f)) :
    s.settleTrailer g (g.fs.map fun f => (f, out f)) alone = (s.putFibres (g.fs.map res)).endSentence g [] := by
  have h1 : (g.fs.map fun f => (f, out f)) = g.fs.map fun f => (f, LaneOut.ok (res f)) := List.map_congr_left fun f hf => by rw [h f hf]
  unfold State.settleTrailer
  rw [h1, if_neg, State.holdIf_ok]
  · dsimp only
    rw [if_neg noFault_map, okFibres_map]
  · simp [LaneOut.isFault, LaneOut.needs]

/-- A branch of format J. -/
theorem trailThrough_branchJ {i : Instr} {op : Nat} {o : JOp} {span : Nat} {takes : State → Fibre → Bool} {ready : State → Fibre → Bool}
    {res : State → Fibre → Fibre} (hx : ∀ s, exec i s = runBranchJ op o s span takes)
    (hr : ∀ s f, ready s f = true → f.guard o.guard = true →
      s.preJ f op o span none = .go ∧ (takes s f = true → s.checkTarget f.ctx (jumpTarget o f.pc) = none))
    (hres : ∀ s f, res s f = f.goesTo (if f.guard o.guard = true ∧ takes s f = true then jumpTarget o f.pc else s.nextSlot f.ctx f.pc)) :
    trailThrough i ready res := fun s g hg _ h => by
  rw [hx, runBranchJ, hg]
  dsimp only
  rw [State.withLate_none _ fun f hf => ⟨(h f hf).1, (h f hf).2.1⟩, State.settleTrailer_ok _ _ _ _ (res s)]
  intro f hf
  cases hgd : f.guard o.guard with
  | false => simp [hres, hgd, State.onward, Fibre.goesTo]
  | true =>
    obtain ⟨h1, h2⟩ := hr s f (h f hf).2.2 hgd
    simp only [hgd, if_true, h1, laneStep, Bool.not_true, Bool.false_eq_true, if_false, hres, true_and]
    cases ht : takes s f with
    | false => simp [State.onward, Fibre.goesTo]
    | true => simp [h2 ht, Fibre.goesTo]

/-! ### Lanes in order -/

theorem foldLane_all {guard : Guard} {pre : State → Fibre → Pre} {act : State → Fibre → Except FaultInfo State} (fs : List Fibre)
    (s t : State) (done : List (Fibre × LaneOut)) (h : lanesInOrder guard pre act fs s = some t)
    (hd : ∀ x ∈ done, x.2.isFault = false ∧ x.2.isHold = false ∧ x.2.isWait = false) :
    (fs.foldl (foldLane guard pre act) (s, done)).1 = t ∧
      ∀ x ∈ (fs.foldl (foldLane guard pre act) (s, done)).2, x.2.isFault = false ∧ x.2.isHold = false ∧ x.2.isWait = false := by
  induction fs generalizing s done with
  | nil => simp only [lanesInOrder, Option.some.injEq] at h; exact ⟨h, hd⟩
  | cons f0 r ih =>
    have hd' : ∀ x ∈ done ++ [(f0, LaneOut.ok f0)], x.2.isFault = false ∧ x.2.isHold = false ∧ x.2.isWait = false := by
      intro x hx
      rcases List.mem_append.mp hx with h | h
      · exact hd x h
      · rw [List.mem_singleton] at h; subst h; exact ⟨rfl, rfl, rfl⟩
    rw [List.foldl_cons]
    simp only [lanesInOrder] at h
    cases hf : s.fibre f0.key with
    | none =>
      rw [hf] at h
      have : foldLane guard pre act (s, done) f0 = (s, done) := by simp [foldLane, hf]
      rw [this]; exact ih s done h hd
    | some f =>
      rw [hf] at h
      simp only at h
      by_cases hg : f.guard guard = true
      · simp only [hg, Bool.not_true, Bool.false_eq_true, if_false] at h
        cases hp : pre s f with
        | hold => simp [hp] at h
        | wait => simp [hp] at h
        | fault x =>
          simp only [hp] at h
          cases hh : f.helper && x.tag != 0 with
          | false => rw [hh, if_neg (by decide)] at h; cases h
          | true =>
            rw [hh, if_pos rfl] at h
            have : foldLane guard pre act (s, done) f0 = (s.putFibre (s.onward f), done ++ [(f0, LaneOut.ok f0)]) := by
              simp only [foldLane, hf, hg, hp, hh, Bool.not_true, Bool.false_eq_true, if_false, if_true]
            rw [this]; exact ih _ _ h hd'
        | go =>
          simp only [hp] at h
          cases ha : act s f with
          | ok t' =>
            simp only [ha] at h
            have : foldLane guard pre act (s, done) f0 = (t', done ++ [(f0, LaneOut.ok f0)]) := by
              simp [foldLane, hf, hg, hp, ha]
            rw [this]; exact ih _ _ h hd'
          | error e =>
            simp only [ha] at h
            cases hh : f.helper && e.tag != 0 with
            | false => rw [hh, if_neg (by decide)] at h; cases h
            | true =>
              rw [hh, if_pos rfl] at h
              have : foldLane guard pre act (s, done) f0 = (s.putFibre (s.onward f), done ++ [(f0, LaneOut.ok f0)]) := by
                simp only [foldLane, hf, hg, hp, ha, hh, Bool.not_true, Bool.false_eq_true, if_false, if_true]
              rw [this]; exact ih _ _ h hd'
      · have hg' : f.guard guard = false := by simpa using hg
        simp only [hg', Bool.not_false, if_true] at h
        have : foldLane guard pre act (s, done) f0 = (s.putFibre (s.onward f), done ++ [(f0, LaneOut.ok f0)]) := by
          simp [foldLane, hf, hg']
        rw [this]; exact ih _ _ h hd'

theorem ordersThrough_runFold {i : Instr} {guard : Guard} {pre : State → Fibre → Pre} {act : State → Fibre → Except FaultInfo State}
    (hx : ∀ s, exec i s = runFold s guard pre act) : ordersThrough i guard pre act := fun s g t hg hlate h => by
  rw [hx, runFold, hg]
  dsimp only
  rw [State.withLate_none _ hlate]
  obtain ⟨h1, h2⟩ := foldLane_all g.fs s t [] h (by simp)
  rw [if_neg, State.holdIf_none _ _ fun x hx => (h2 x hx).2, h1]
  · simp only [List.any_eq_true, not_exists, not_and]; intro x hx; simp [(h2 x hx).1]

/-! ### Effects of R501 -/

theorem actLanes_well {act : State → Fibre → State × Option FaultInfo} (fs : List Fibre) (x y : State × List Nat)
    (h : allActWell act fs x = some y) :
    fs.foldl (fun (a : Acted) f0 => match a.s.fibre f0.key with
      | none => a
      | some f => match act a.s f with
        | (t, none) => { s := t, bad := a.bad, good := a.good ++ [f0.key] }
        | (t, some x) => { s := t, bad := a.bad ++ [(f0.key, x)], good := a.good }) { s := x.1, bad := [], good := x.2 }
      = { s := y.1, bad := [], good := y.2 } := by
  induction fs generalizing x with
  | nil => simp only [allActWell, Option.some.injEq] at h; subst h; rfl
  | cons f r ih =>
    simp only [allActWell] at h
    simp only [List.foldl_cons]
    cases hf : x.1.fibre f.key with
    | none => rw [hf] at h; exact ih x h
    | some f' =>
      rw [hf] at h
      simp only at h
      rcases ha : act x.1 f' with ⟨t, _ | e⟩
      · rw [ha] at h; simp only at h
        simp only [ha]
        exact ih (t, x.2 ++ [f.key]) h
      · rw [ha] at h; simp at h

theorem actLanes_eq {act : State → Fibre → State × Option FaultInfo} {fs : List Fibre} {s : State} {y : State × List Nat}
    (h : allActWell act fs (s, []) = some y) : actLanes fs act s = { s := y.1, bad := [], good := y.2 } :=
  actLanes_well fs (s, []) y h

theorem Group.without_nil (g : Group) : g.without [] = g := by
  unfold Group.without
  simp

theorem actsAndEnds_runAlone {i : Instr} {op : Nat} {o : GOp} {form : State → Fibre → Option FaultInfo} {ok : State → Fibre → Bool}
    {act : State → Fibre → State × Option FaultInfo} (hx : ∀ s, exec i s = runAlone op o s form act) (hrow : (gRow op).isSome = true)
    (hok : ∀ s f, ok s f = true → form s f = none) : actsAndEnds op i o ok act := fun s g x hg hlate hz h hact => by
  obtain ⟨r, hr⟩ := Option.isSome_iff_exists.mp hrow
  rw [hx, runAlone, hg, hr]
  dsimp only
  rw [State.withLate_none _ hlate]
  rw [map_ok (res := id) fun f hf => ?_]
  rotate_left
  · rw [laneStep_go (x := f)]
    · simp
    · intro hgd
      have := h f (List.mem_filter.mpr ⟨hf, hgd⟩)
      simp [State.clearLane_go this.1 hr, this.2.1, Pre.andThen]
    · intro hgd
      have := h f (List.mem_filter.mpr ⟨hf, hgd⟩)
      simp [hok s f this.2.2]
  rw [if_neg noFault_map, State.holdIf_ok]
  dsimp only
  have h0 : s.putFibres ((g.fs.filter fun f => !(f.guard o.guard && !f.helper)).map fun f =>
      s.onward (if (f.helper && f.guard o.guard) = true then f.zeroDst o r else f)) = s.othersGoOn g o.guard (zeroOf op o) := by
    unfold State.othersGoOn
    congr 1
    refine List.map_congr_left fun f _ => ?_
    rw [zeroOf_row hr]
    have hz : (f.zeroDst o r).ctx = f.ctx ∧ (f.zeroDst o r).pc = f.pc := by
      unfold Fibre.zeroDst
      split <;> first | exact ⟨rfl, rfl⟩ | (split <;> exact ⟨rfl, rfl⟩)
    simp only [State.onward, Fibre.goesTo]
    split <;> simp [hz.1, hz.2]
  have hh : g.fs.any (helperHolds o.guard fun f => f.zeroDst o r) = false := by
    have e : (fun f => f.zeroDst o r) = zeroOf op o := funext fun f => (zeroOf_row hr f).symm
    rw [e]
    exact List.any_eq_false.mpr fun f hf => by simpa using List.all_eq_true.mp hz f hf
  rw [h0, hh, if_neg Bool.false_ne_true]
  have ha : actLanes (List.filter (fun f => f.guard o.guard && !f.helper) g.fs) act (s.othersGoOn g o.guard (zeroOf op o)) = _ :=
    actLanes_eq hact
  rw [ha]
  simp [Group.without_nil]

/-! ### Crews -/

/-- A crew instruction whose lanes all go through. -/
theorem runCrew_next {op : Nat} {o : GOp} {s : State} {g : Group} {pre : State → Group → GRow → Fibre → Pre}
    {lane : State → Group → Fibre → LaneOut} {after : State → Group → State} {r : GRow} (res : Fibre → Fibre)
    (hg : s.group = some g) (hr : gRow op = some r) (hp : ∀ f ∈ g.fs, f.guard o.guard = true → pre s g r f = .go)
    (hl : ∀ f ∈ g.fs, f.guard o.guard = true → lane s g f = .ok (res f)) :
    runCrew op o s pre lane after =
      .next ((after (s.putFibres (g.fs.map fun f => if f.guard o.guard then res f else f)) g).goOn g) := by
  unfold runCrew
  rw [hg, hr]
  dsimp only
  rw [State.settleLanes_ok s g _ _ _ (fun f => if f.guard o.guard then res f else f) (fun f hf => laneStep_go (hp f hf) (hl f hf))]

theorem guarded_same {o : GOp} {res : Fibre → Fibre} {f : Fibre}
    (h : (res f).key = f.key ∧ (res f).ctx = f.ctx ∧ (res f).pc = f.pc) :
    (if f.guard o.guard then res f else f).key = f.key ∧ (if f.guard o.guard then res f else f).ctx = f.ctx ∧
      (if f.guard o.guard then res f else f).pc = f.pc := by
  split
  · exact h
  · exact ⟨rfl, rfl, rfl⟩

/-- A crew instruction that leaves nothing but its lanes' results. -/
theorem crewThrough_plain {i : Instr} {op : Nat} {o : GOp} {ready : State → Group → Fibre → Bool} {res : State → Group → Fibre → Fibre}
    {pre : State → Group → GRow → Fibre → Pre} {lane : State → Group → Fibre → LaneOut}
    (hx : ∀ s, exec i s = runCrew op o s pre lane (fun t _ => t)) (hrow : (gRow op).isSome = true)
    (hp : ∀ s g r f, gRow op = some r → ready s g f = true → pre s g r f = .go)
    (hl : ∀ s g f, lane s g f = .ok (res s g f))
    (hs : ∀ s g f, (res s g f).key = f.key ∧ (res s g f).ctx = f.ctx ∧ (res s g f).pc = f.pc) :
    crewThrough i o ready res (fun s _ => s) := fun s g hg hsound h => by
  obtain ⟨r, hr⟩ := Option.isSome_iff_exists.mp hrow
  rw [hx, runCrew_next (res s g) hg hr (fun f hf hgd => hp s g r f hr ((h f hf).2 hgd)) (fun f _ _ => hl s g f)]
  exact ⟨_, rfl, goOn_groupStep hg hsound _ fun f _ => guarded_same (hs s g f)⟩

/-- The fibres of a crew that wait on a mask. -/
def State.waitersOn (s : State) (c : Crew) (n : Nat) : List Fibre := (s.crewFibres c).filter fun f => f.conds.any (Cond.isWaitm n)

/-- A test of a mask sees the fibres that wait on it, and nothing else. -/
theorem State.retestWaitm_eq (s : State) (ck n : Nat) : s.retestWaitm ck n = match s.crew ck with
    | none => s
    | some c => if ((List.range 32).all fun l => !bitOf (c.masks.getD n 0).toNat l || (s.waitersOn c n).any fun f => f.lane == l)
          && !(s.waitersOn c n).any (fun f => s.unplaced f.key) && !(s.waitersOn c n).isEmpty then
        s.putFibres ((s.waitersOn c n).map fun f => { f with
          conds := f.conds.filter fun x => !x.isWaitm n, stamp := maxOf ((s.waitersOn c n).map Fibre.stamp), since := s.cycle })
      else s := rfl

/-- Writing a mask and testing its waiters commutes with writing the results of a group that does not wait. -/
theorem masked_groupStep {s : State} {g : Group} {n : Nat} {m : Word} {res : Fibre → Fibre} (hg : s.group = some g)
    (hs : g.sound s = true) (hc : ∀ f ∈ g.fs, f.conds = [] ∧ (res f).conds = [])
    (hr : ∀ f ∈ g.fs, (res f).key = f.key ∧ (res f).ctx = f.ctx ∧ (res f).pc = f.pc) :
    (s.masked g n m).groupStep (((s.putFibres (g.fs.map res)).masked g n m).goOn g) g res := by
  have hkeys := Group.sound_keys hg hs
  have hnd := Group.sound_nodup hg hs
  unfold State.masked
  have hcr : (s.putFibres (g.fs.map res)).crew g.run.crew = s.crew g.run.crew := by simp [State.crew]
  rw [hcr]
  cases hcrew : s.crew g.run.crew with
  | none => exact goOn_groupStep hg hs _ hr
  | some c =>
    dsimp only
    obtain ⟨c', hc'⟩ : ∃ c' : Crew, c' = { c with masks := setAt c.masks n m } := ⟨_, rfl⟩
    rw [← hc']
    obtain ⟨t, ht⟩ : ∃ t, t = (s.putFibres (g.fs.map res)).putCrew g.run.crew c' := ⟨_, rfl⟩
    obtain ⟨u, hu⟩ : ∃ u, u = s.putCrew g.run.crew c' := ⟨_, rfl⟩
    rw [← ht, ← hu]
    have htu : t = u.putFibres (g.fs.map res) := by
      rw [ht, hu, State.putFibres_eq, State.putFibres_eq]; rfl
    obtain ⟨h1, h2⟩ := putFibres_results hg hs (fun f hf => (hr f hf).1) u
    rw [← htu] at h1 h2
    have huf : ∀ k, u.fibre k = s.fibre k := fun k => by rw [hu]; rfl
    -- a fibre of the group does not wait, before or after
    have hw : ∀ k, (t.fibre k).filter (fun f => f.conds.any (Cond.isWaitm n)) = (u.fibre k).filter (fun f => f.conds.any (Cond.isWaitm n)) := by
      intro k
      by_cases hk : k ∈ g.run.fibres
      · rw [← hkeys] at hk
        obtain ⟨f, hf, rfl⟩ := List.mem_map.mp hk
        rw [h1 f hf, huf, (Group.sound_mem hg hs hf).1]
        simp [Option.filter, (hc f hf).1, (hc f hf).2]
      · rw [h2 k hk]
    have hwait : t.waitersOn c' n = u.waitersOn c' n := by
      unfold State.waitersOn State.crewFibres
      rw [List.filter_filterMap, List.filter_filterMap]
      congr 1
      funext x
      cases x with
      | none => rfl
      | some k => exact hw k
    have hut : t.crew g.run.crew = some c' := by rw [ht]; simp
    have huu : u.crew g.run.crew = some c' := by rw [hu]; simp
    have hcyc : t.cycle = u.cycle := by rw [htu]; simp
    -- a fibre that waits is none of the group's, and has the same accesses to be placed in both
    have hnk : ∀ f ∈ u.waitersOn c' n, f.key ∉ g.run.fibres := fun f hf => by
      unfold State.waitersOn State.crewFibres at hf
      obtain ⟨h3, h4⟩ := List.mem_filter.mp hf
      obtain ⟨l, _, h5⟩ := List.mem_filterMap.mp h3
      cases l with
      | none => cases h5
      | some k =>
        have h6 : s.fibre k = some f := (huf k).symm.trans h5
        have hfk : f.key = k := Group.sound_own hs h6
        intro h7
        rw [hfk, ← hkeys] at h7
        obtain ⟨y, hy, rfl⟩ := List.mem_map.mp h7
        rw [(Group.sound_mem hg hs hy).1, Option.some.injEq] at h6
        rw [← h6, (hc y hy).1] at h4
        simp at h4
    have hunp : ((u.waitersOn c' n).any fun f => t.unplaced f.key) = (u.waitersOn c' n).any fun f => u.unplaced f.key := by
      have h3 : ∀ f ∈ u.waitersOn c' n, t.unplaced f.key = u.unplaced f.key := fun f hf => by
        unfold State.unplaced
        rw [h2 _ (hnk f hf), htu, State.putFibres_eq]
        rfl
      generalize u.waitersOn c' n = l at h3
      induction l with
      | nil => rfl
      | cons x r ih => rw [List.any_cons, List.any_cons, h3 x List.mem_cons_self, ih fun f hf => h3 f (List.mem_cons_of_mem _ hf)]
    rw [State.retestWaitm_eq, State.retestWaitm_eq, hut, huu]
    dsimp only
    rw [hwait, hcyc, hunp]
    split
    · -- the waiters are released in both
      obtain ⟨W, hW⟩ : ∃ W : List Fibre, W = (u.waitersOn c' n).map fun f => { f with
          conds := f.conds.filter fun x => !x.isWaitm n, stamp := maxOf ((u.waitersOn c' n).map Fibre.stamp), since := u.cycle } := ⟨_, rfl⟩
      rw [← hW]
      have hWk : ∀ x ∈ W, x.key ∉ g.run.fibres := by
        intro x hx hk
        rw [hW] at hx
        obtain ⟨f, hf, rfl⟩ := List.mem_map.mp hx
        exact hnk f hf hk
      refine goOn_groupStep_of hkeys hnd (Group.sound_core hs) hr (fun f hf => ?_) (fun k hk => ?_) ?_
      · have hk : f.key ∈ g.run.fibres := by rw [← hkeys]; exact List.mem_map_of_mem hf
        rw [State.fibre_putFibres_of_not_mem _ fun x hx he => hWk x hx (he ▸ hk)]
        exact h1 f hf
      · have h3 : ∀ (W : List Fibre) (a b : State), a.fibre k = b.fibre k → (a.putFibres W).fibre k = (b.putFibres W).fibre k := by
          intro W
          induction W with
          | nil => exact fun a b h => h
          | cons x r ih =>
            intro a b h
            refine ih _ _ ?_
            simp only [State.fibre_putFibre]
            split
            · rfl
            · exact h
        exact h3 W t u (h2 k hk)
      · rw [htu, State.putFibres_eq, State.putFibres_eq, State.putFibres_eq]
    · exact goOn_groupStep_of hkeys hnd (Group.sound_core hs) hr h1 h2 (by rw [htu, State.putFibres_eq])

end Sys2Proof.Machine
end

