-- ==== Sys2Proof/Laws/Accesses.lean ====
section
/-! SUPPORT. What a memory instruction of a group can do when every lane that makes an access passes its checks (R275, R276). -/

namespace Sys2Proof.Machine

/-- The lanes' accesses, made in ascending order as the port issues them, when each finds room and none waits in its turn. -/
theorem MemAct.issue_all {a : MemAct} {acts : List MemLane} (ms : List MemLane) (hp : ∀ m ∈ ms, m.spots.any Spot.isPeer = false)
    (behind : Bool) (s t : State) (h : accessesInOrder a.far (fun s m => a.perform s acts m none) ms behind s = some t) :
    a.issue acts [] ms behind s [] = (t, [], []) := by
  induction ms generalizing behind s with
  | nil => simp only [accessesInOrder, Option.some.injEq] at h; simp [MemAct.issue, h]
  | cons m r ih =>
    have hr : ∀ x ∈ r, x.spots.any Spot.isPeer = false := fun x hx => hp x (List.mem_cons_of_mem _ hx)
    simp only [accessesInOrder] at h
    simp only [MemAct.issue, hp m List.mem_cons_self, List.contains_nil, Bool.or_self, Bool.false_eq_true, if_false]
    rcases hw : s.laneWalks m.key 0 m.spots with ⟨u, _ | _⟩
    · rw [hw] at h
      by_cases hb : (behind && !a.far u m) = true
      · simp [hb] at h
      · simp only [hb, if_false, Bool.false_eq_true] at h ⊢
        cases hq : a.perform u acts m none with
        | none => simp [hq] at h
        | some v => rw [hq] at h; exact ih hr _ v h
    · rw [hw] at h; cases h
/-- What the issue of a group's accesses does when none of its lanes waits: all of them, and then the instruction finishes. -/
theorem State.runIssue_all {s t : State} {g : Group} {a : MemAct} {i : Instr} {acts todo : List MemLane} {fin : State → Group → List MemLane → State}
    (hb : ∀ m ∈ todo, s.laneBusy m = false) (hp : ∀ m ∈ todo, m.spots.any Spot.isPeer = false)
    (h : accessesInOrder a.far (fun s m => a.perform s acts m none) todo false s = some t) : s.runIssue g a i acts todo fin = fin t g acts := by
  have hf : todo.filter s.laneBusy = [] := List.filter_eq_nil_iff.mpr fun m hm => by simp [hb m hm]
  unfold State.runIssue
  rw [hf, List.map_nil, MemAct.issue_all todo hp false s t h]

/-- The plan of a lane at the first try, when it makes its access. -/
def reachPlan (guard : Guard) (keepsOut : Bool) (m : Fibre → MemLane) (f : Fibre) : Plan :=
  bif f.guard guard then (bif f.helper && keepsOut then .zero else .act (m f)) else .skip
theorem reachPlan_filterMap {β : Type} {guard : Guard} {keepsOut : Bool} {m : Fibre → MemLane} {fs : List Fibre} (pick : Fibre × Plan → Option β)
    (act : Fibre → Option β) (zero : Fibre → Option β) (h1 : ∀ f, pick (f, .act (m f)) = act f) (h2 : ∀ f, pick (f, .zero) = zero f)
    (h3 : ∀ f, pick (f, .skip) = none) :
    (fs.map fun f => (f, reachPlan guard keepsOut m f)).filterMap pick =
      fs.filterMap fun f => bif f.guard guard then (bif f.helper && keepsOut then zero f else act f) else none := by
  rw [List.filterMap_map]
  refine List.filterMap_congr fun f _ => ?_
  simp only [Function.comp, reachPlan]
  cases f.guard guard <;> cases f.helper && keepsOut <;> simp [h1, h2, h3]
theorem filterMap_reaching {guard : Guard} {keepsOut : Bool} {m : Fibre → MemLane} {fs : List Fibre} :
    (fs.filterMap fun f => bif f.guard guard then (bif f.helper && keepsOut then none else some (m f)) else none) =
      (fs.filter fun f => f.guard guard && !(f.helper && keepsOut)).map m := by
  induction fs with
  | nil => rfl
  | cons f r ih => cases h1 : f.guard guard <;> cases h2 : f.helper && keepsOut <;> simp only [List.filterMap_cons, List.filter_cons, h1, h2, ih] <;> rfl
theorem filterMap_keptOut {guard : Guard} {keepsOut : Bool} {z : Fibre → Fibre} {fs : List Fibre} :
    (fs.filterMap fun f => bif f.guard guard then (bif f.helper && keepsOut then some (z f) else none) else none) =
      (fs.filter fun f => f.guard guard && (f.helper && keepsOut)).map z := by
  induction fs with
  | nil => rfl
  | cons f r ih => cases h1 : f.guard guard <;> cases h2 : f.helper && keepsOut <;> simp [h1, h2, ih]
theorem filterMap_nothing {β : Type} {guard : Guard} {keepsOut : Bool} {fs : List Fibre} :
    (fs.filterMap fun f => bif f.guard guard then (bif f.helper && keepsOut then (none : Option β) else none) else none) = [] := by
  refine List.filterMap_eq_nil_iff.mpr fun f _ => ?_
  cases f.guard guard <;> cases f.helper && keepsOut <;> rfl

/-- A lane's plan at the group's first try. -/
theorem memPlan_reaching {s : State} {o : GOp} {keepsOut : Bool} {pre : Fibre → Pre} {check : Fibre → Plan} {m : Fibre → MemLane} {f : Fibre}
    (h : f.guard o.guard = true → (f.helper && keepsOut) = false → pre f = .go ∧ check f = .act (m f)) :
    memPlan s o keepsOut pre check f = reachPlan o.guard keepsOut m f := by
  unfold memPlan reachPlan
  by_cases hg : f.guard o.guard = true
  · by_cases hz : (f.helper && keepsOut) = true
    · simp [hg, hz]
    · have := h hg (by simpa using hz)
      simp [hg, hz, this.1, this.2]
  · simp [hg]

/-- Places here leave nothing to ask of an owner. -/
theorem State.unknown_none {s : State} {k : Nat} {l : List Spot} (h : l.any Spot.isPeer = false) : s.unknown k l = [] := by
  unfold State.unknown
  refine List.filter_eq_nil_iff.mpr fun x hx => ?_
  have := List.any_eq_false.mp h x hx
  unfold Spot.isPeer at this
  split at this
  · simp at this
  · next hp => cases hq : x.place <;> simp_all

/-- What an access waits for lies outside the fibres that the group writes. -/
theorem State.laneBusy_putFibres (s : State) (fs : List Fibre) (m : MemLane) : (s.putFibres fs).laneBusy m = s.laneBusy m := by
  rw [State.putFibres_eq]; rfl

/-- What a memory instruction does at its first try when no lane faults or waits and no owner is asked: the lanes kept out are zeroed, and its
accesses are made. -/
theorem State.memRun_through {s : State} {g : Group} {k : MemKind} {acts : List MemLane} {zeros : List Fibre}
    (hw : g.run.wait = .none) (hd : g.run.done = []) (hn : g.run.nth = 0)
    (hplan : ∀ f ∈ g.fs, k.plan s f = .skip ∨ (k.plan s f = .zero ∧ overEmpty k.zero f = false) ∨
      ∃ m, k.plan s f = .act m ∧ k.wait s f m.spots = false ∧ m.spots.any Spot.isPeer = false)
    (hacts : g.fs.filterMap (fun f => (k.plan s f).mem?) = acts)
    (hzeros : g.fs.filterMap (fun f => match k.plan s f with
      | .zero => some (k.zero f)
      | _ => none) = zeros)
    (hj : k.joint s acts = []) : s.memRun g k = k.act (s.putFibres zeros) g acts acts := by
  unfold State.memRun State.takeReplies
  rw [hw]
  dsimp only
  simp only [hd, List.contains_nil, Bool.false_eq_true, if_false, List.filterMap_map, List.flatMap_map, List.any_map, Function.comp_def]
  rw [hacts]
  have hbad : g.fs.filterMap (fun x => (k.plan s x).fault?.map (fun e => (x.key, e))) = [] := List.filterMap_eq_nil_iff.mpr fun f hf => by
    obtain h | ⟨h, -⟩ | ⟨y, h, -⟩ := hplan f hf <;> rw [h] <;> rfl
  rw [hbad, if_neg, if_neg, if_neg, if_neg]
  · rw [← hzeros]
    all_goals rfl
  · rw [Bool.not_eq_true, List.any_eq_false]
    intro f hf
    obtain h | ⟨h, hz⟩ | ⟨y, h, hq, -⟩ := hplan f hf <;> rw [h] <;> simp [*]
  · simp [hn, hj]
  · rw [List.flatMap_eq_nil_iff.mpr fun f hf => ?_]
    · simp
    · obtain h | ⟨h, -⟩ | ⟨y, h, -, hq⟩ := hplan f hf <;> rw [h]
      simp [State.unknown_none hq]
  · rw [Bool.and_eq_true, not_and]
    intro _
    rw [Bool.not_eq_true, List.any_eq_false]
    intro f hf
    obtain h | ⟨h, -⟩ | ⟨y, h, -⟩ := hplan f hf <;> rw [h] <;> simp

/-- THE LAW of memory instructions: with no joint fault, nothing to wait for and no owner to ask, the accesses are made in ascending lane order and
the sentence goes on. -/
theorem accessesThrough_runMem {op : Nat} {i : Instr} {o : GOp} {keepsOut : Bool} {check : State → Fibre → Plan}
    {jointF : State → List MemLane → List (Nat × FaultInfo)} {a : MemAct}
    {after : State → Group → List MemLane → State} {joint : List MemLane → Prop} {far : State → MemLane → Bool}
    {perform' : List MemLane → State → MemLane → Option State} {after' : State → Group → List MemLane → State}
    (hx : ∀ s, exec i s = runMem op o s i keepsOut check jointF a after) (hrow : (gRow op).isSome = true)
    (hj : ∀ s ms, joint ms → jointF s ms = []) (hf : a.far = far) (hp : ∀ ms s m, a.perform s ms m none = perform' ms s m)
    (ha : ∀ s g ms, after s g ms = after' s g ms) : accessesThrough op i o keepsOut check joint far perform' after' := by
  intro s g m t hreach ms hjoint hacc
  obtain ⟨hg, hd, hw, hn, hl, hz⟩ := hreach
  obtain ⟨r, hr⟩ := Option.isSome_iff_exists.mp hrow
  have hmem : ∀ f ∈ g.fs, f.guard o.guard = true → (f.helper && keepsOut) = false → f ∈ g.reaching o.guard keepsOut := fun f hf a b =>
    List.mem_filter.mpr ⟨hf, by simp [a, b]⟩
  have hplan : ∀ f ∈ g.fs, memPlan s o keepsOut (fun f => s.preG f op o r .go) (check s) f = reachPlan o.guard keepsOut m f := fun f hf =>
    memPlan_reaching (m := m) fun a b => ⟨State.clearLane_go (hl f (hmem f hf a b)).1 hr, (hl f (hmem f hf a b)).2.1⟩
  rw [hx]
  unfold runMem
  rw [hg, hr]
  dsimp only
  rw [State.memRun_through (acts := ms) (zeros := (g.fs.filter fun f => f.guard o.guard && (f.helper && keepsOut)).map (zeroOf op o)) hw hd hn]
  · dsimp only
    rw [State.runIssue_all (t := t), ha]
    · intro x hx
      obtain ⟨f, hf, rfl⟩ := List.mem_map.mp hx
      rw [State.laneBusy_putFibres]
      exact (hl f hf).2.2.2.2.1
    · intro x hx
      obtain ⟨f, hf, rfl⟩ := List.mem_map.mp hx
      exact (hl f hf).2.2.2.2.2
    · simpa only [hp, hf] using hacc
  · intro f hf
    dsimp only
    rw [hplan f hf]
    unfold reachPlan
    cases a : f.guard o.guard <;> cases b : f.helper && keepsOut <;> simp
    · have q := hl f (hmem f hf a b)
      exact ⟨q.2.2.2.1, fun x hx => by simpa using List.any_eq_false.mp q.2.2.2.2.2 x hx⟩
    · rw [Bool.and_eq_true] at b
      have q := List.all_eq_true.mp (hz b.2) f hf
      have e : (fun f => f.zeroDst o r) = zeroOf op o := funext fun f => (zeroOf_row hr f).symm
      rw [e]
      simpa [helperHolds, a, b.1] using q
  · refine Eq.trans (List.filterMap_congr fun f hf => ?_) filterMap_reaching
    dsimp only
    rw [hplan f hf]
    unfold reachPlan
    cases f.guard o.guard <;> cases f.helper && keepsOut <;> rfl
  · refine Eq.trans (List.filterMap_congr fun f hf => ?_) filterMap_keptOut
    dsimp only
    rw [hplan f hf, zeroOf_row hr f]
    unfold reachPlan
    cases f.guard o.guard <;> cases f.helper && keepsOut <;> rfl
  · exact hj s _ hjoint

end Sys2Proof.Machine
end

