-- ==== Sys2Proof/Laws/Memory.lean ====
section
/-! SUPPORT. Memories stay in canonical form: the write of bytes, merges, errors found, access logs, and the three single accesses. -/

namespace Sys2Proof.Machine

/-- The machine after reset has its memories in canonical form. -/
theorem State.reset_memOk : State.reset.memOk = true := rfl

/-- Memories in canonical form are a matter of the three memories only. -/
theorem State.memOk_congr {s t : State} (hd : t.dev = s.dev) (hh : t.host = s.host) (hs : t.sram = s.sram) : t.memOk = s.memOk := by
  unfold State.memOk; rw [hd, hh, hs]
theorem State.memOk_dev {s t : State} (h : s.memOk = true) (a : Nat) (bs : List Byte) (hd : t.dev = cellsWrite s.dev a bs)
    (hh : t.host = s.host) (hs : t.sram = s.sram) : t.memOk = true := by
  unfold State.memOk at *; rw [hd, hh, hs]
  simp only [Bool.and_eq_true] at *
  exact ⟨⟨Memory.wf_cellsWrite a bs h.1.1, h.1.2⟩, h.2⟩
theorem State.memOk_host {s t : State} (h : s.memOk = true) (a : Nat) (bs : List Byte) (hd : t.dev = s.dev)
    (hh : t.host = cellsWrite s.host a bs) (hs : t.sram = s.sram) : t.memOk = true := by
  unfold State.memOk at *; rw [hd, hh, hs]
  simp only [Bool.and_eq_true] at *
  exact ⟨⟨h.1.1, Memory.wf_cellsWrite a bs h.1.2⟩, h.2⟩
theorem State.memOk_sram {s t : State} (h : s.memOk = true) (a : Nat) (bs : List Byte) (hd : t.dev = s.dev)
    (hh : t.host = s.host) (hs : t.sram = tabWrite s.sram a bs) : t.memOk = true := by
  unfold State.memOk at *; rw [hd, hh, hs]
  simp only [Bool.and_eq_true] at *
  exact ⟨h.1, risesFrom_tabWrite a bs h.2⟩

theorem memOk_putLine (s : State) (lk : Nat) (l : Line) : (s.putLine lk l).memOk = s.memOk := State.memOk_congr rfl rfl rfl
theorem memOk_bump (s : State) (ctx core i n : Nat) : (s.bump ctx core i n).memOk = s.memOk := State.memOk_congr rfl rfl rfl
theorem memOk_rawWrite {s : State} (h : s.memOk = true) (p : PA) (bs : List Byte) : (s.rawWrite p bs).memOk = true := by
  unfold State.rawWrite
  split
  · exact State.memOk_dev h _ _ rfl rfl rfl
  · exact State.memOk_sram h _ _ rfl rfl rfl
  · exact h
theorem memOk_addStop (s : State) (ctx cls : Nat) : (s.addStop ctx cls).memOk = s.memOk := by
  unfold State.addStop; split <;> rfl
theorem memOk_stopFor (s : State) (ctx : Nat) : (s.stopFor ctx).memOk = s.memOk := memOk_addStop s ctx 1
theorem memOk_readCheck {s : State} (h : s.memOk = true) (p : PA) (n found : Nat) : (s.readCheck p n found).2.memOk = true := by
  unfold State.readCheck
  simp only
  split
  · exact h
  · split <;> exact h
theorem memOk_merge {s : State} (h : s.memOk = true) (lk found : Nat) : (s.merge lk found).memOk = true := by
  unfold State.merge
  simp only
  split
  · exact h
  · split
    · split
      · exact h
      · rw [memOk_stopFor]; exact h
    · exact memOk_rawWrite (by exact h) _ _
theorem memOk_logRecord {s : State} (h : s.memOk = true) (ks ts va kind mon req : Nat) : (s.logRecord ks ts va kind mon req).memOk = true := by
  unfold State.logRecord
  simp only
  split
  · exact h
  · split
    · exact h
    · generalize leBytes 64 _ = r
      generalize 65536 * _ + 64 * _ = a
      have hw : ({ s with dev := cellsWrite s.dev a r } : State).memOk = true := State.memOk_dev h a r rfl rfl rfl
      by_cases hp : (({ s with dev := cellsWrite s.dev a r } : State).lineOf (PA.line ⟨.dev, a⟩)).poison = true
      · simp only [hp, if_true]
        exact hw
      · simp only [hp]
        exact hw
theorem memOk_foldl {α : Type} (f : State → α → State) (hf : ∀ s a, s.memOk = true → (f s a).memOk = true) :
    ∀ (l : List α) (s : State), s.memOk = true → (l.foldl f s).memOk = true
  | [], _, h => h
  | a :: r, s, h => memOk_foldl f hf r (f s a) (hf s a h)
theorem memOk_logAccess {s : State} (h : s.memOk = true) (ag : Agent) (ts va n : Nat) : (s.logAccess ag ts va n).memOk = true := by
  unfold State.logAccess
  split
  · exact h
  · split
    · exact memOk_logRecord h _ _ _ _ _ _
    · exact h
theorem memOk_countAccess {s : State} (h : s.memOk = true) (ag : Agent) (va : Nat) (p : PA) : (s.countAccess ag va p).memOk = true := by
  unfold State.countAccess
  split
  · exact h
  · split <;> exact h
theorem memOk_wake {s : State} (h : s.memOk = true) (lk : Nat) : (s.wake lk).memOk = true := by
  unfold State.wake; split <;> exact h

theorem memOk_leafWritten {s : State} (h : s.memOk = true) (p : PA) (n : Nat) : (s.leafWritten p n).memOk = true := by
  unfold State.leafWritten; split <;> exact h
theorem memOk_areaWrite {s : State} (h : s.memOk = true) (p : PA) : (s.areaWrite p).memOk = true := by
  unfold State.areaWrite; split <;> exact h

theorem memOk_evictPartial {s : State} (h : s.memOk = true) (lk core : Nat) : (s.evictPartial lk core).memOk = true := by
  unfold State.evictPartial
  extract_lets cl has u l
  have hk : u.memOk = true := by
    show State.memOk (if _ then _ else _) = true
    split
    · exact h
    · split
      · exact memOk_merge h _ _
      · exact h
  clear_value u
  split <;> exact hk
theorem memOk_evictLine {s : State} (h : s.memOk = true) (lk core : Nat) : (s.evictLine lk core).memOk = true := memOk_evictPartial h lk core
theorem memOk_evictOne {s : State} (h : s.memOk = true) (core : Nat) : (s.evictOne core).memOk = true := by
  unfold State.evictOne
  simp only
  split
  · exact memOk_evictLine h _ _
  · exact h
theorem memOk_makeRoom {s : State} (h : s.memOk = true) (ctx core : Nat) : (s.makeRoom ctx core).2.memOk = true := by
  unfold State.makeRoom
  simp only
  split
  · exact memOk_evictOne h _
  · exact h
theorem memOk_install {s : State} (h : s.memOk = true) (ctx core lk till : Nat) (ok counts : Bool) :
    (s.install ctx core lk till ok counts).memOk = true := by
  unfold State.install
  simp only
  have hb : (if counts = true then s.bump ctx core 3 1 else s).memOk = true := by split <;> exact h
  split
  · exact hb
  · exact memOk_makeRoom (by exact hb) ctx core
/-- The home's grant of a read keeps every memory in canonical form. -/
theorem memOk_grant {s : State} (h : s.memOk = true) (ag : Agent) (p : PA) (ts : Nat) (ok miss : Bool) : (s.grant ag p ts ok miss).memOk = true := by
  unfold State.grant
  simp only
  split
  · split
    · exact memOk_install (by exact h) _ _ _ _ _ _
    · exact h
  · exact h

/-- A load keeps every memory in canonical form. -/
theorem memOk_readAt {s : State} (h : s.memOk = true) (ag : Agent) (va : Nat) (p : PA) (n : Nat) : (s.readAt ag va p n).s.memOk = true := by
  unfold State.readAt
  dsimp only
  split
  · exact memOk_countAccess (memOk_logAccess (by exact h) _ _ _ _) _ _ _
  · exact memOk_countAccess (memOk_logAccess (memOk_grant (memOk_readCheck (memOk_merge (by exact h) _ _) _ _ _) _ _ _ _ _) _ _ _ _) _ _ _
/-- A write at a line's home keeps every memory in canonical form. -/
theorem memOk_writeLine {s : State} (h : s.memOk = true) (ag : Agent) (p : PA) (ts : Nat) (bs : List Byte) : (s.writeLine ag p ts bs).memOk = true := by
  unfold State.writeLine
  extract_lets _ _ _ s1 _ _ s2 s3
  have h1 : s1.memOk = true := by
    show State.memOk (if _ then _ else _) = true
    split
    · exact memOk_readCheck h _ _ _
    · exact h
  have h2 : s2.memOk = true := (memOk_putLine _ _ _).trans h1
  have h3 : s3.memOk = true := memOk_areaWrite (memOk_leafWritten (memOk_wake (memOk_rawWrite h2 _ _) _) _ _) _
  clear_value s3
  split
  · split
    · exact memOk_install h3 _ _ _ _ _ _
    · exact h3
  · exact h3
theorem memOk_writeHome {s : State} (h : s.memOk = true) (ag : Agent) (va : Nat) (p : PA) (ts : Nat) (bs : List Byte) :
    (s.writeHome ag va p ts bs).memOk = true :=
  memOk_countAccess (memOk_logAccess (memOk_writeLine h _ _ _ _) _ _ _ _) _ _ _
/-- A store keeps every memory in canonical form. -/
theorem memOk_writeAt {s : State} (h : s.memOk = true) (ag : Agent) (va : Nat) (p : PA) (bs : List Byte) : (s.writeAt ag va p bs).s.memOk = true := by
  unfold State.writeAt
  exact memOk_writeHome (memOk_merge (by exact h) _ _) _ _ _ _ _
/-- A read-modify-write keeps every memory in canonical form. -/
theorem memOk_rmwAt {s : State} (h : s.memOk = true) (ag : Agent) (va : Nat) (p : PA) (n : Nat) (g : List Byte → List Byte) :
    (s.rmwAt ag va p n g).s.memOk = true := by
  have hc := memOk_readCheck (memOk_merge (show State.memOk { s with accesses := s.accesses + 1 } = true from h) p.line ag.found) p n ag.found
  unfold State.rmwAt
  simp only
  split
  · exact hc
  · exact memOk_writeHome hc _ _ _ _ _

end Sys2Proof.Machine
end

