-- ==== Sys2Proof/Laws/PerInstr.lean ====
section
/-! SUPPORT. Statements made once per instruction. Parts: which encoding an instruction belongs to, and that an operation code with its
operands names the instruction it was taken from. -/

namespace Sys2Proof.Laws.Parts

/-- What an instruction's parts are good for: format G and format J operation codes name it again, and no instruction has two encodings. -/
def Statement (i : Instr) : Prop :=
  (∀ op o, gParts i = some (op, o) → gInstr op o = some i ∧ (gRow op).isSome = true ∧ op < 0x380 ∧ op ∉ [0x206, 0x200, 0x201, 0x203, 0x209, 0x20F]) ∧
  (∀ op o, jParts i = some (op, o) → jInstr op o = some i ∧ op ∈ [0x200, 0x201, 0x203, 0x209, 0x20F]) ∧
  (gParts i = none ∨ (jParts i = none ∧ dyParts i = none)) ∧ (jParts i = none ∨ dyParts i = none)

theorem of_g {i : Instr} {op : Nat} {o : GOp} (h : gParts i = some (op, o)) (hi : gInstr op o = some i) (hr : (gRow op).isSome = true)
    (hb : (decide (op < 0x380) && decide (op ∉ [0x206, 0x200, 0x201, 0x203, 0x209, 0x20F])) = true) (hj : jParts i = none) (hd : dyParts i = none) :
    Statement i := by
  simp only [Bool.and_eq_true, decide_eq_true_eq] at hb
  refine ⟨fun p q e => ?_, fun p q e => ?_, .inr ⟨hj, hd⟩, .inl hj⟩
  · rw [h] at e; cases e; exact ⟨hi, hr, hb⟩
  · rw [hj] at e; cases e
theorem of_j {i : Instr} {op : Nat} {o : JOp} (h : jParts i = some (op, o)) (hi : jInstr op o = some i)
    (hb : decide (op ∈ [0x200, 0x201, 0x203, 0x209, 0x20F]) = true) (hg : gParts i = none) (hd : dyParts i = none) : Statement i := by
  refine ⟨fun p q e => ?_, fun p q e => ?_, .inl hg, .inr hd⟩
  · rw [hg] at e; cases e
  · rw [h] at e; cases e; exact ⟨hi, by simpa using hb⟩
theorem of_neither {i : Instr} (hg : gParts i = none) (hj : jParts i = none) : Statement i := by
  refine ⟨fun p q e => ?_, fun p q e => ?_, .inl hg, .inl hj⟩
  · rw [hg] at e; cases e
  · rw [hj] at e; cases e

theorem iadd (x0) : Statement (.iadd x0) := of_g rfl rfl rfl rfl rfl rfl
theorem isub (x0) : Statement (.isub x0) := of_g rfl rfl rfl rfl rfl rfl
theorem imul (x0) : Statement (.imul x0) := of_g rfl rfl rfl rfl rfl rfl
theorem imulh (x0) : Statement (.imulh x0) := of_g rfl rfl rfl rfl rfl rfl
theorem imad (x0) : Statement (.imad x0) := of_g rfl rfl rfl rfl rfl rfl
theorem imad64 (x0) : Statement (.imad64 x0) := of_g rfl rfl rfl rfl rfl rfl
theorem iadd64 (x0) : Statement (.iadd64 x0) := of_g rfl rfl rfl rfl rfl rfl
theorem lea (x0) : Statement (.lea x0) := of_g rfl rfl rfl rfl rfl rfl
theorem ineg (x0) : Statement (.ineg x0) := of_g rfl rfl rfl rfl rfl rfl
theorem iabs (x0) : Statement (.iabs x0) := of_g rfl rfl rfl rfl rfl rfl
theorem imin (x0) : Statement (.imin x0) := of_g rfl rfl rfl rfl rfl rfl
theorem imax (x0) : Statement (.imax x0) := of_g rfl rfl rfl rfl rfl rfl
theorem andb (x0) : Statement (.andb x0) := of_g rfl rfl rfl rfl rfl rfl
theorem orb (x0) : Statement (.orb x0) := of_g rfl rfl rfl rfl rfl rfl
theorem xorb (x0) : Statement (.xorb x0) := of_g rfl rfl rfl rfl rfl rfl
theorem andn (x0) : Statement (.andn x0) := of_g rfl rfl rfl rfl rfl rfl
theorem notb (x0) : Statement (.notb x0) := of_g rfl rfl rfl rfl rfl rfl
theorem shl (x0) : Statement (.shl x0) := of_g rfl rfl rfl rfl rfl rfl
theorem shr (x0) : Statement (.shr x0) := of_g rfl rfl rfl rfl rfl rfl
theorem sar (x0) : Statement (.sar x0) := of_g rfl rfl rfl rfl rfl rfl
theorem funshf (x0) : Statement (.funshf x0) := of_g rfl rfl rfl rfl rfl rfl
theorem bfe (x0) : Statement (.bfe x0) := of_g rfl rfl rfl rfl rfl rfl
theorem bfi (x0) : Statement (.bfi x0) := of_g rfl rfl rfl rfl rfl rfl
theorem popc (x0) : Statement (.popc x0) := of_g rfl rfl rfl rfl rfl rfl
theorem clz (x0) : Statement (.clz x0) := of_g rfl rfl rfl rfl rfl rfl
theorem brev (x0) : Statement (.brev x0) := of_g rfl rfl rfl rfl rfl rfl
theorem isetp (x0) : Statement (.isetp x0) := of_g rfl rfl rfl rfl rfl rfl
theorem isel (x0) : Statement (.isel x0) := of_g rfl rfl rfl rfl rfl rfl
theorem mov (x0) : Statement (.mov x0) := of_g rfl rfl rfl rfl rfl rfl
theorem movi (x0) : Statement (.movi x0) := of_g rfl rfl rfl rfl rfl rfl
theorem movs (x0) : Statement (.movs x0) := of_g rfl rfl rfl rfl rfl rfl
theorem idivq (x0) : Statement (.idivq x0) := of_g rfl rfl rfl rfl rfl rfl
theorem fadd (x0) : Statement (.fadd x0) := of_g rfl rfl rfl rfl rfl rfl
theorem fsub (x0) : Statement (.fsub x0) := of_g rfl rfl rfl rfl rfl rfl
theorem fmul (x0) : Statement (.fmul x0) := of_g rfl rfl rfl rfl rfl rfl
theorem ffma (x0) : Statement (.ffma x0) := of_g rfl rfl rfl rfl rfl rfl
theorem fmin (x0) : Statement (.fmin x0) := of_g rfl rfl rfl rfl rfl rfl
theorem fmax (x0) : Statement (.fmax x0) := of_g rfl rfl rfl rfl rfl rfl
theorem fminnum (x0) : Statement (.fminnum x0) := of_g rfl rfl rfl rfl rfl rfl
theorem fmaxnum (x0) : Statement (.fmaxnum x0) := of_g rfl rfl rfl rfl rfl rfl
theorem fsetp (x0) : Statement (.fsetp x0) := of_g rfl rfl rfl rfl rfl rfl
theorem fclass (x0) : Statement (.fclass x0) := of_g rfl rfl rfl rfl rfl rfl
theorem frnd (x0) : Statement (.frnd x0) := of_g rfl rfl rfl rfl rfl rfl
theorem fscale (x0) : Statement (.fscale x0) := of_g rfl rfl rfl rfl rfl rfl
theorem fcpysgn (x0) : Statement (.fcpysgn x0) := of_g rfl rfl rfl rfl rfl rfl
theorem dadd (x0) : Statement (.dadd x0) := of_g rfl rfl rfl rfl rfl rfl
theorem dmul (x0) : Statement (.dmul x0) := of_g rfl rfl rfl rfl rfl rfl
theorem dfma (x0) : Statement (.dfma x0) := of_g rfl rfl rfl rfl rfl rfl
theorem dsetp (x0) : Statement (.dsetp x0) := of_g rfl rfl rfl rfl rfl rfl
theorem hadd2 (x0) : Statement (.hadd2 x0) := of_g rfl rfl rfl rfl rfl rfl
theorem hmul2 (x0) : Statement (.hmul2 x0) := of_g rfl rfl rfl rfl rfl rfl
theorem hfma2 (x0) : Statement (.hfma2 x0) := of_g rfl rfl rfl rfl rfl rfl
theorem badd2 (x0) : Statement (.badd2 x0) := of_g rfl rfl rfl rfl rfl rfl
theorem bmul2 (x0) : Statement (.bmul2 x0) := of_g rfl rfl rfl rfl rfl rfl
theorem bfma2 (x0) : Statement (.bfma2 x0) := of_g rfl rfl rfl rfl rfl rfl
theorem fstatw (x0) : Statement (.fstatw x0) := of_g rfl rfl rfl rfl rfl rfl
theorem rcp (x0) : Statement (.rcp x0) := of_g rfl rfl rfl rfl rfl rfl
theorem rsq (x0) : Statement (.rsq x0) := of_g rfl rfl rfl rfl rfl rfl
theorem sqrt (x0) : Statement (.sqrt x0) := of_g rfl rfl rfl rfl rfl rfl
theorem ex2 (x0) : Statement (.ex2 x0) := of_g rfl rfl rfl rfl rfl rfl
theorem lg2 (x0) : Statement (.lg2 x0) := of_g rfl rfl rfl rfl rfl rfl
theorem tanh (x0) : Statement (.tanh x0) := of_g rfl rfl rfl rfl rfl rfl
theorem sinpi (x0) : Statement (.sinpi x0) := of_g rfl rfl rfl rfl rfl rfl
theorem cospi (x0) : Statement (.cospi x0) := of_g rfl rfl rfl rfl rfl rfl
theorem ftoi (x0) : Statement (.ftoi x0) := of_g rfl rfl rfl rfl rfl rfl
theorem itof (x0) : Statement (.itof x0) := of_g rfl rfl rfl rfl rfl rfl
theorem fcvt (x0) : Statement (.fcvt x0) := of_g rfl rfl rfl rfl rfl rfl
theorem shfl (x0) : Statement (.shfl x0) := of_g rfl rfl rfl rfl rfl rfl
theorem qswap (x0) : Statement (.qswap x0) := of_g rfl rfl rfl rfl rfl rfl
theorem qbcast (x0) : Statement (.qbcast x0) := of_g rfl rfl rfl rfl rfl rfl
theorem vote (x0) : Statement (.vote x0) := of_g rfl rfl rfl rfl rfl rfl
theorem redux (x0) : Statement (.redux x0) := of_g rfl rfl rfl rfl rfl rfl
theorem fredux (x0) : Statement (.fredux x0) := of_g rfl rfl rfl rfl rfl rfl
theorem matchl (x0) : Statement (.matchl x0) := of_g rfl rfl rfl rfl rfl rfl
theorem cfence (x0) : Statement (.cfence x0) := of_g rfl rfl rfl rfl rfl rfl
theorem join (x0) : Statement (.join x0) := of_g rfl rfl rfl rfl rfl rfl
theorem leave (x0) : Statement (.leave x0) := of_g rfl rfl rfl rfl rfl rfl
theorem waitm (x0) : Statement (.waitm x0) := of_g rfl rfl rfl rfl rfl rfl
theorem mand (x0) : Statement (.mand x0) := of_g rfl rfl rfl rfl rfl rfl
theorem mor (x0) : Statement (.mor x0) := of_g rfl rfl rfl rfl rfl rfl
theorem mxor (x0) : Statement (.mxor x0) := of_g rfl rfl rfl rfl rfl rfl
theorem mnot (x0) : Statement (.mnot x0) := of_g rfl rfl rfl rfl rfl rfl
theorem mrd (x0) : Statement (.mrd x0) := of_g rfl rfl rfl rfl rfl rfl
theorem mwr (x0) : Statement (.mwr x0) := of_g rfl rfl rfl rfl rfl rfl
theorem mact (x0) : Statement (.mact x0) := of_g rfl rfl rfl rfl rfl rfl
theorem bra (x0) : Statement (.bra x0) := of_j rfl rfl rfl rfl rfl
theorem brc (x0) : Statement (.brc x0) := of_j rfl rfl rfl rfl rfl
theorem brx (x0) : Statement (.brx x0) := of_g rfl rfl rfl rfl rfl rfl
theorem call (x0) : Statement (.call x0) := of_j rfl rfl rfl rfl rfl
theorem callx (x0) : Statement (.callx x0) := of_g rfl rfl rfl rfl rfl rfl
theorem ret (x0) : Statement (.ret x0) := of_g rfl rfl rfl rfl rfl rfl
theorem stop (x0) : Statement (.stop x0) := of_neither rfl rfl
theorem nop (x0) : Statement (.nop x0) := of_g rfl rfl rfl rfl rfl rfl
theorem exit (x0) : Statement (.exit x0) := of_g rfl rfl rfl rfl rfl rfl
theorem hinst (x0) : Statement (.hinst x0) := of_j rfl rfl rfl rfl rfl
theorem hrem (x0) : Statement (.hrem x0) := of_g rfl rfl rfl rfl rfl rfl
theorem perform (x0) : Statement (.perform x0) := of_g rfl rfl rfl rfl rfl rfl
theorem resume (x0) : Statement (.resume x0) := of_g rfl rfl rfl rfl rfl rfl
theorem drop (x0) : Statement (.drop x0) := of_g rfl rfl rfl rfl rfl rfl
theorem cstat (x0) : Statement (.cstat x0) := of_g rfl rfl rfl rfl rfl rfl
theorem spawn (x0) : Statement (.spawn x0) := of_j rfl rfl rfl rfl rfl
theorem fget (x0) : Statement (.fget x0) := of_g rfl rfl rfl rfl rfl rfl
theorem fpark (x0) : Statement (.fpark x0) := of_g rfl rfl rfl rfl rfl rfl
theorem fref (x0) : Statement (.fref x0) := of_g rfl rfl rfl rfl rfl rfl
theorem funref (x0) : Statement (.funref x0) := of_g rfl rfl rfl rfl rfl rfl
theorem fxfer (x0) : Statement (.fxfer x0) := of_g rfl rfl rfl rfl rfl rfl
theorem fpin (x0) : Statement (.fpin x0) := of_g rfl rfl rfl rfl rfl rfl
theorem funpin (x0) : Statement (.funpin x0) := of_g rfl rfl rfl rfl rfl rfl
theorem fcancel (x0) : Statement (.fcancel x0) := of_g rfl rfl rfl rfl rfl rfl
theorem ld (x0) : Statement (.ld x0) := of_g rfl rfl rfl rfl rfl rfl
theorem st (x0) : Statement (.st x0) := of_g rfl rfl rfl rfl rfl rfl
theorem ldFrame (x0) : Statement (.ldFrame x0) := of_g rfl rfl rfl rfl rfl rfl
theorem stFrame (x0) : Statement (.stFrame x0) := of_g rfl rfl rfl rfl rfl rfl
theorem ldc (x0) : Statement (.ldc x0) := of_g rfl rfl rfl rfl rfl rfl
theorem atom (x0) : Statement (.atom x0) := of_g rfl rfl rfl rfl rfl rfl
theorem atom64 (x0) : Statement (.atom64 x0) := of_g rfl rfl rfl rfl rfl rfl
theorem cas2 (x0) : Statement (.cas2 x0) := of_g rfl rfl rfl rfl rfl rfl
theorem red (x0) : Statement (.red x0) := of_g rfl rfl rfl rfl rfl rfl
theorem fenceSys (x0) : Statement (.fenceSys x0) := of_g rfl rfl rfl rfl rfl rfl
theorem fifow (x0) : Statement (.fifow x0) := of_g rfl rfl rfl rfl rfl rfl
theorem fifor (x0) : Statement (.fifor x0) := of_g rfl rfl rfl rfl rfl rfl
theorem bankcfg (x0) : Statement (.bankcfg x0) := of_g rfl rfl rfl rfl rfl rfl
theorem wptr (x0) : Statement (.wptr x0) := of_g rfl rfl rfl rfl rfl rfl
theorem wpwait (x0) : Statement (.wpwait x0) := of_g rfl rfl rfl rfl rfl rfl
theorem barinit (x0) : Statement (.barinit x0) := of_g rfl rfl rfl rfl rfl rfl
theorem bara (x0) : Statement (.bara x0) := of_g rfl rfl rfl rfl rfl rfl
theorem barw (x0) : Statement (.barw x0) := of_g rfl rfl rfl rfl rfl rfl
theorem baraw (x0) : Statement (.baraw x0) := of_g rfl rfl rfl rfl rfl rfl
theorem rwait (x0) : Statement (.rwait x0) := of_g rfl rfl rfl rfl rfl rfl
theorem rpost (x0) : Statement (.rpost x0) := of_g rfl rfl rfl rfl rfl rfl
theorem push (x0) : Statement (.push x0) := of_g rfl rfl rfl rfl rfl rfl
theorem timew (x0) : Statement (.timew x0) := of_g rfl rfl rfl rfl rfl rfl
theorem srdcnt (x0) : Statement (.srdcnt x0) := of_g rfl rfl rfl rfl rfl rfl
theorem movsw (x0) : Statement (.movsw x0) := of_g rfl rfl rfl rfl rfl rfl
theorem scrubq (x0) : Statement (.scrubq x0) := of_g rfl rfl rfl rfl rfl rfl
theorem atomx (x0) : Statement (.atomx x0) := of_g rfl rfl rfl rfl rfl rfl
theorem xclaim (x0 x1) : Statement (.xclaim x0 x1) := of_neither rfl rfl
theorem xrel (x0 x1) : Statement (.xrel x0 x1) := of_neither rfl rfl
theorem xload (x0 x1 x2 x3 x4 x5) : Statement (.xload x0 x1 x2 x3 x4 x5) := of_neither rfl rfl
theorem xmma (x0 x1 x2) : Statement (.xmma x0 x1 x2) := of_neither rfl rfl
theorem xmmaz (x0 x1 x2) : Statement (.xmmaz x0 x1 x2) := of_neither rfl rfl
theorem xdrain (x0 x1 x2 x3 x4 x5 x6) : Statement (.xdrain x0 x1 x2 x3 x4 x5 x6) := of_neither rfl rfl
theorem xdraina (x0 x1 x2 x3) : Statement (.xdraina x0 x1 x2 x3) := of_neither rfl rfl
theorem xsub (x0 x1 x2 x3 x4) : Statement (.xsub x0 x1 x2 x3 x4) := of_neither rfl rfl
theorem xunsub (x0) : Statement (.xunsub x0) := of_neither rfl rfl
theorem xbara (x0) : Statement (.xbara x0) := of_neither rfl rfl
theorem xbarw (x0) : Statement (.xbarw x0) := of_neither rfl rfl
theorem xloop (x0 x1 x2) : Statement (.xloop x0 x1 x2) := of_neither rfl rfl
theorem xjmp (x0 x1) : Statement (.xjmp x0 x1) := of_neither rfl rfl
theorem xset (x0 x1 x2) : Statement (.xset x0 x1 x2) := of_neither rfl rfl
theorem xaddg (x0 x1 x2 x3) : Statement (.xaddg x0 x1 x2 x3) := of_neither rfl rfl
theorem xstop : Statement .xstop := of_neither rfl rfl
theorem xnop : Statement .xnop := of_neither rfl rfl
theorem xwaits (x0) : Statement (.xwaits x0) := of_neither rfl rfl
theorem dyzilLdp (x0 x1) : Statement (.dyzilLdp x0 x1) := of_neither rfl rfl
theorem dyzilLds (x0 x1) : Statement (.dyzilLds x0 x1) := of_neither rfl rfl
theorem dyzilSts (x0 x1) : Statement (.dyzilSts x0 x1) := of_neither rfl rfl
theorem dyzilLdq (x0 x1) : Statement (.dyzilLdq x0 x1) := of_neither rfl rfl
theorem dyzilMovi (x0 x1) : Statement (.dyzilMovi x0 x1) := of_neither rfl rfl
theorem dyzilAdd (x0 x1) : Statement (.dyzilAdd x0 x1) := of_neither rfl rfl
theorem dyzilAddi (x0 x1) : Statement (.dyzilAddi x0 x1) := of_neither rfl rfl
theorem dyzilSub (x0 x1) : Statement (.dyzilSub x0 x1) := of_neither rfl rfl
theorem dyzilAnd (x0 x1) : Statement (.dyzilAnd x0 x1) := of_neither rfl rfl
theorem dyzilOr (x0 x1) : Statement (.dyzilOr x0 x1) := of_neither rfl rfl
theorem dyzilShl (x0 x1) : Statement (.dyzilShl x0 x1) := of_neither rfl rfl
theorem dyzilShr (x0 x1) : Statement (.dyzilShr x0 x1) := of_neither rfl rfl
theorem dyzilExt (x0 x1 x2 x3) : Statement (.dyzilExt x0 x1 x2 x3) := of_neither rfl rfl
theorem dyzilJmp (x0) : Statement (.dyzilJmp x0) := of_neither rfl rfl
theorem dyzilBeq (x0 x1 x2) : Statement (.dyzilBeq x0 x1 x2) := of_neither rfl rfl
theorem dyzilBne (x0 x1 x2) : Statement (.dyzilBne x0 x1 x2) := of_neither rfl rfl
theorem dyzilBltu (x0 x1 x2) : Statement (.dyzilBltu x0 x1 x2) := of_neither rfl rfl
theorem dyzilLoop (x0 x1) : Statement (.dyzilLoop x0 x1) := of_neither rfl rfl
theorem dyzilLaunch (x0 x1) : Statement (.dyzilLaunch x0 x1) := of_neither rfl rfl
theorem dyzilRec (x0) : Statement (.dyzilRec x0) := of_neither rfl rfl
theorem dyzilSignal (x0 x1 x2) : Statement (.dyzilSignal x0 x1 x2) := of_neither rfl rfl
theorem dyzilWaitv (x0 x1 x2) : Statement (.dyzilWaitv x0 x1 x2) := of_neither rfl rfl
theorem dyzilCancel (x0) : Statement (.dyzilCancel x0) := of_neither rfl rfl
theorem dyzilErr (x0) : Statement (.dyzilErr x0) := of_neither rfl rfl
theorem dyzilDone : Statement .dyzilDone := of_neither rfl rfl
theorem dyzilBudget (x0) : Statement (.dyzilBudget x0) := of_neither rfl rfl
theorem packetStart (x0) : Statement (.packetStart x0) := of_neither rfl rfl
theorem monitorWake (x0) : Statement (.monitorWake x0) := of_neither rfl rfl
theorem deferredSignalWrite (x0) : Statement (.deferredSignalWrite x0) := of_neither rfl rfl
theorem queueCreate (x0 x1) : Statement (.queueCreate x0 x1) := of_neither rfl rfl
theorem queueDestroy (x0) : Statement (.queueDestroy x0) := of_neither rfl rfl
theorem taskSubmit (x0) : Statement (.taskSubmit x0) := of_neither rfl rfl
theorem gatherTimerLapse (x0 x1 x2) : Statement (.gatherTimerLapse x0 x1 x2) := of_neither rfl rfl
theorem placeCrew (x0) : Statement (.placeCrew x0) := of_neither rfl rfl
theorem placeTeam (x0) : Statement (.placeTeam x0) := of_neither rfl rfl
theorem issueSelect (x0 x1) : Statement (.issueSelect x0 x1) := of_neither rfl rfl
theorem crewPromote (x0) : Statement (.crewPromote x0) := of_neither rfl rfl
theorem registerFill (x0) : Statement (.registerFill x0) := of_neither rfl rfl
theorem timewExpire (x0) : Statement (.timewExpire x0) := of_neither rfl rfl
theorem fibreReclaim (x0) : Statement (.fibreReclaim x0) := of_neither rfl rfl
theorem asyncFaultDelivery (x0) : Statement (.asyncFaultDelivery x0) := of_neither rfl rfl
theorem sequencerFaultDelivery (x0 x1) : Statement (.sequencerFaultDelivery x0 x1) := of_neither rfl rfl
theorem copyLinear (x0 x1) : Statement (.copyLinear x0 x1) := of_neither rfl rfl
theorem copy2d (x0 x1) : Statement (.copy2d x0 x1) := of_neither rfl rfl
theorem copyGather (x0 x1) : Statement (.copyGather x0 x1) := of_neither rfl rfl
theorem copyScatter (x0 x1) : Statement (.copyScatter x0 x1) := of_neither rfl rfl
theorem copyFill (x0 x1) : Statement (.copyFill x0 x1) := of_neither rfl rfl
theorem tileStream (x0 x1) : Statement (.tileStream x0 x1) := of_neither rfl rfl
theorem streamTileDeliver (x0 x1) : Statement (.streamTileDeliver x0 x1) := of_neither rfl rfl
theorem commandComplete (x0 x1 x2 x3) : Statement (.commandComplete x0 x1 x2 x3) := of_neither rfl rfl
theorem linkSend : Statement .linkSend := of_neither rfl rfl
theorem linkReceivePost : Statement .linkReceivePost := of_neither rfl rfl
theorem linkRemoteRed : Statement .linkRemoteRed := of_neither rfl rfl
theorem linkRemoteCall : Statement .linkRemoteCall := of_neither rfl rfl
theorem continuationTransfer (x0) : Statement (.continuationTransfer x0) := of_neither rfl rfl
theorem sendArrival (x0 x1 x2 x3 x4) : Statement (.sendArrival x0 x1 x2 x3 x4) := of_neither rfl rfl
theorem remoteRedArrival (x0 x1 x2 x3 x4 x5) : Statement (.remoteRedArrival x0 x1 x2 x3 x4 x5) := of_neither rfl rfl
theorem remoteCallArrival (x0 x1 x2 x3 x4 x5 x6) : Statement (.remoteCallArrival x0 x1 x2 x3 x4 x5 x6) := of_neither rfl rfl
theorem transferCommitArrival (x0) : Statement (.transferCommitArrival x0) := of_neither rfl rfl
theorem transferFilingAck (x0) : Statement (.transferFilingAck x0) := of_neither rfl rfl
theorem transferCommitTimeout (x0) : Statement (.transferCommitTimeout x0) := of_neither rfl rfl
theorem peerAccessRequest (x0 x1 x2 x3 x4 x5 x6) : Statement (.peerAccessRequest x0 x1 x2 x3 x4 x5 x6) := of_neither rfl rfl
theorem peerAccessReply (x0 x1 x2) : Statement (.peerAccessReply x0 x1 x2) := of_neither rfl rfl
theorem ownershipHandover (x0 x1 x2) : Statement (.ownershipHandover x0 x1 x2) := of_neither rfl rfl
theorem handoverData (x0 x1 x2 x3 x4) : Statement (.handoverData x0 x1 x2 x3 x4) := of_neither rfl rfl
theorem handoverReceipt (x0 x1 x2) : Statement (.handoverReceipt x0 x1 x2) := of_neither rfl rfl
theorem handoverCommit (x0 x1) : Statement (.handoverCommit x0 x1) := of_neither rfl rfl
theorem handoverReceiptTimeout (x0 x1) : Statement (.handoverReceiptTimeout x0 x1) := of_neither rfl rfl
theorem handoverCommitTimeout (x0 x1) : Statement (.handoverCommitTimeout x0 x1) := of_neither rfl rfl
theorem destinationUnreachable (x0) : Statement (.destinationUnreachable x0) := of_neither rfl rfl
theorem linkPortDown (x0) : Statement (.linkPortDown x0) := of_neither rfl rfl
theorem ptpMessage (x0) : Statement (.ptpMessage x0) := of_neither rfl rfl
theorem ptpUnlock : Statement .ptpUnlock := of_neither rfl rfl
theorem ptpRelock : Statement .ptpRelock := of_neither rfl rfl
theorem turnSwitch (x0) : Statement (.turnSwitch x0) := of_neither rfl rfl
theorem turnScheduleWrite (x0 x1 x2) : Statement (.turnScheduleWrite x0 x1 x2) := of_neither rfl rfl
theorem partitionLayoutWrite (x0) : Statement (.partitionLayoutWrite x0) := of_neither rfl rfl
theorem bankerRequest (x0) : Statement (.bankerRequest x0) := of_neither rfl rfl
theorem homeMerge (x0) : Statement (.homeMerge x0) := of_neither rfl rfl
theorem hardwareError (x0) : Statement (.hardwareError x0) := of_neither rfl rfl
theorem thermalTrip : Statement .thermalTrip := of_neither rfl rfl
theorem hostCxlMemAccess (x0 x1) : Statement (.hostCxlMemAccess x0 x1) := of_neither rfl rfl
theorem hostCxlIoWrite (x0 x1) : Statement (.hostCxlIoWrite x0 x1) := of_neither rfl rfl
theorem pageMove (x0 x1) : Statement (.pageMove x0 x1) := of_neither rfl rfl
theorem migrationCounterClear : Statement .migrationCounterClear := of_neither rfl rfl
theorem hostLinkDown : Statement .hostLinkDown := of_neither rfl rfl
theorem hostLinkUp : Statement .hostLinkUp := of_neither rfl rfl
theorem dirtyHoldExpire : Statement .dirtyHoldExpire := of_neither rfl rfl
theorem contextCreate : Statement .contextCreate := of_neither rfl rfl
theorem contextDestroy : Statement .contextDestroy := of_neither rfl rfl
theorem debugHalt : Statement .debugHalt := of_neither rfl rfl
theorem debugRelease : Statement .debugRelease := of_neither rfl rfl
theorem debugRead : Statement .debugRead := of_neither rfl rfl
theorem debugWrite : Statement .debugWrite := of_neither rfl rfl
theorem debugReadWhenFull : Statement .debugReadWhenFull := of_neither rfl rfl
theorem debugWriteWhenFull : Statement .debugWriteWhenFull := of_neither rfl rfl
theorem debugTimeout : Statement .debugTimeout := of_neither rfl rfl
theorem logRingConfigure (x0 x1 x2) : Statement (.logRingConfigure x0 x1 x2) := of_neither rfl rfl
theorem registerWrite (x0 x1 x2) : Statement (.registerWrite x0 x1 x2) := of_neither rfl rfl
theorem attestationReportRequest (x0) : Statement (.attestationReportRequest x0) := of_neither rfl rfl
theorem hostPublicKey (x0) : Statement (.hostPublicKey x0) := of_neither rfl rfl
theorem wrappedKeyImport (x0 x1) : Statement (.wrappedKeyImport x0 x1) := of_neither rfl rfl
theorem firmwareBoot (x0) : Statement (.firmwareBoot x0) := of_neither rfl rfl
theorem firmwareRecoveryImage (x0) : Statement (.firmwareRecoveryImage x0) := of_neither rfl rfl
theorem moduleReset : Statement .moduleReset := of_neither rfl rfl
theorem checkpoint : Statement .checkpoint := of_neither rfl rfl
theorem checkpointRestore (x0) : Statement (.checkpointRestore x0) := of_neither rfl rfl
theorem xloadComplete (x0 x1) : Statement (.xloadComplete x0 x1) := of_neither rfl rfl
theorem xdrainComplete (x0 x1) : Statement (.xdrainComplete x0 x1) := of_neither rfl rfl
theorem xmmaComplete (x0 x1) : Statement (.xmmaComplete x0 x1) := of_neither rfl rfl
theorem hostSnoop (x0) : Statement (.hostSnoop x0) := of_neither rfl rfl
theorem routeReturn (x0) : Statement (.routeReturn x0) := of_neither rfl rfl
theorem xdrainaComplete (x0 x1) : Statement (.xdrainaComplete x0 x1) := of_neither rfl rfl
theorem bankRoleChangeComplete (x0 x1) : Statement (.bankRoleChangeComplete x0 x1) := of_neither rfl rfl
theorem zeroLengthReadComplete (x0) : Statement (.zeroLengthReadComplete x0) := of_neither rfl rfl

end Sys2Proof.Laws.Parts
end

