-- ==== Sys2Proof/Machine/Registers.lean ====
section
/-! DEFINITION. What the host reads in BAR 0 and BAR 2 (R340, R409 to R412, R416, R419, R428, R454, R489, R496). A read changes nothing. -/

namespace Sys2Proof.Machine

/-- The context mailbox control word (R410). -/
def Mgmt.mailbox (m : Mgmt) : Nat :=
  packNat [(1, m.create.toNat), (1, m.destroy.toNat), (1, m.fail.toNat), (1, 0), (9, m.ffield), (3, 0), (16, m.dctx), (16, m.rpieces), (16, m.rpiece)]
/-- The device status word (R496). -/
def Mgmt.status (m : Mgmt) : Nat :=
  packNat [(1, m.replace.toNat), (1, m.gangsync.toNat), (1, m.recovery.toNat), (1, m.ckpt.toNat), (4, m.rcause.toNat),
    (8, maskOf (m.retcl ++ m.pendcl)), (9, ((List.range 384).filter (fun c => !m.retcores.contains c && !m.retcl.contains (clusterOf c))).length), (7, 0), (8, m.retpch.length), (24, m.corr)]
/-- The debug command block as it reads (R411). -/
def Debug.readBits (d : Debug) : Nat :=
  packNat [(16, d.ctx.toNat), (3, d.op.toNat), (1, d.go.toNat), (3, d.status), (9, 0), (32, d.fid.toNat), (64, d.frame.toNat), (11, d.reg.toNat),
    (1, d.full.toNat), (52, 0), (32, d.value.toNat)]
/-- An effect record as a number. -/
def EffRec.bits (r : Option EffRec) : Nat := match r with
  | some x => ofBytes (bytesOfWords x.words)
  | .none => 0
/-- The fault summary of a key slot (R428). -/
def Summary.bits (m : Summary) : Nat :=
  packNat [(32, m.ucount), (32, m.dcount), (32, m.reflost), (1, m.lost.toNat), (7, m.lcause), (1, m.stopped.toNat), (3, m.sclass), (20, 0),
    (512, EffRec.bits m.first), (512, EffRec.bits m.last)]
/-- The log ring control (R419). -/
def LogRing.bits (g : LogRing) : Nat := packNat [(24, g.gr), (8, 0), (24, g.n), (8, 0), (64, g.widx), (64, g.ridx), (32, g.drops)]
/-- Byte i of a number. -/
def byteAt (v i : Nat) : Byte := BitVec.ofNat 8 (v / 256 ^ i)
/-- The byte that a read of BAR 0 gives at an offset (R410); every other offset reads zero. -/
def State.bar0 (s : State) (off : Nat) : Byte :=
  let m := s.mgmt
  if off < 0x40 then (Tab.get m.desc off).getD 0
  else if off < 0x48 then byteAt m.mailbox (off - 0x40)
  else if 0x100 ≤ off ∧ off < 0x108 then byteAt m.layout.toNat (off - 0x100)
  else if 0x10000 ≤ off ∧ off < 0x20000 then
    let k := s.key ((off - 0x10000) / 0x400)
    let r := off % 0x400
    if r < 0x200 then byteAt (((Tab.get k.monitors (r / 32)).map Monitor.bits).getD 0) (r % 32)
    else if r < 0x240 then byteAt k.log.bits (r - 0x200)
    else 0
  else if 0x20000 ≤ off ∧ off < 0x20020 then byteAt m.dbg.readBits (off - 0x20000)
  else if 0x30000 ≤ off ∧ off < 0x38000 then (((Tab.get m.trace ((off - 0x30000) / 16)).getD []).getD (off % 16) 0)
  else if 0x38000 ≤ off ∧ off < 0x38008 then byteAt m.traceN (off - 0x38000)
  else if 0x40000 ≤ off ∧ off < 0x50000 then m.receipt.getD (65536 * m.rpiece + (off - 0x40000)) 0
  else if 0x80000 ≤ off ∧ off < 0x84000 then byteAt (s.key ((off - 0x80000) / 256)).summary.bits (off % 256)
  else if 0x90000 ≤ off ∧ off < 0x92000 then (((Tab.get m.errs ((off - 0x90000) / 32)).getD []).getD (off % 32) 0)
  else if 0x92000 ≤ off ∧ off < 0x92008 then byteAt m.errN (off - 0x92000)
  else if 0xA0000 ≤ off ∧ off < 0xA0008 then byteAt m.status (off - 0xA0000)
  else 0
/-- What the management endpoint shows beside BAR 0: the device indices that are unreachable and the link commands that failed (R471, R472), the dirty
host lines dropped (R470), the last report, and the certificate chain (R414, R415). -/
structure MgmtView where
  unreachable : List Nat
  failed : Nat
  lostDirty : Nat
  report : Option Report
  chain : List Byte
  deriving DecidableEq, Repr
def State.mgmtView (s : State) : MgmtView :=
  { unreachable := s.link.unreach, failed := s.link.failed, lostDirty := s.mgmt.lostDirty, report := s.mgmt.report, chain := Config.identityChain }
/-- A queue's control word (R340): ECODE and EPC read 0 unless STATE is 2. -/
def QRegs.control (x : QRegs) : Nat :=
  packNat [(1, x.create.toNat), (1, x.destroy.toNat), (2, x.state), (12, 0), (16, if x.state = 2 then x.ecode else 0), (10, if x.state = 2 then x.epc else 0)]
/-- The byte that a read of BAR 2 gives at an offset: descriptors, control words, creation reports (R340, R489). A descriptor byte that was
never written reads 0 (DESIGN CHOICE, log 12: R340 gives it no reset value). -/
def State.bar2 (s : State) (off : Nat) : Byte :=
  if off < 0x10000 then (Tab.get (s.qreg (off / 256)).desc (off % 256)).getD 0
  else if off < 0x10800 then byteAt (s.qreg ((off - 0x10000) / 8)).control (off % 8)
  else if 0x11000 ≤ off ∧ off < 0x11800 then byteAt (s.qreg ((off - 0x11000) / 8)).report.toNat (off % 8)
  else 0

end Sys2Proof.Machine
end

