-- ==== Sys2Proof/Tests/Slice0.lean ====
section
/-! SUPPORT. Tests: well-formedness, words laid out by hand from the spec's encoding tables, results from the spec's worked examples, and for
each statement a concrete state and operands that meet its hypotheses. -/

namespace Sys2Proof.Machine.Tests

-- One test after another: each kernel evaluation needs its own stack.
set_option Elab.async false

/-- A format G operand record with no guard, and a format J one. -/
def g (dst : Dst) (a b c : Src) (mod : BitVec 6 := 0) (imm : BitVec 20 := 0) : GOp := ⟨Guard.always, mod, dst, a, b, c, imm⟩
def j (dst : Dst) (a : Src) (tslot : BitVec 3 := 0) (off : BitVec 26 := 0) (mod : BitVec 6 := 0) (imm : BitVec 20 := 0) : JOp :=
  ⟨Guard.always, mod, dst, a, tslot, off, imm⟩
/-- Register n as a source; the unused source. -/
def r (n : BitVec 11) : Src := .v n false
def z : Src := .v 0 false

/-! ### Well-formedness: one ill-formed term for each check -/

theorem test_wf_guard : (Instr.iadd ⟨⟨false, 3, false⟩, 0, .v 4, r 0, r 2, z, 0⟩).wellFormed = false := by decide
theorem test_wf_two_kind3 : (Instr.iadd (g (.v 4) .imm (.lit 0 0 false) z)).wellFormed = false := by decide
theorem test_wf_mod_reserved : (Instr.iadd (g (.v 4) (r 0) (r 2) z 3)).wellFormed = false := by decide
theorem test_wf_mod_zero_field : (Instr.ld (g (.v 4) (r 0) z z 32)).wellFormed = false := by decide
theorem test_wf_dst_kind : (Instr.iadd (g (.q 1) (r 0) (r 2) z)).wellFormed = false := by decide
theorem test_wf_dst_pair : (Instr.iadd64 (g (.v 5) (r 0) (r 2) z)).wellFormed = false := by decide
theorem test_wf_src_pair : (Instr.iadd64 (g (.v 4) (r 1) (r 2) z)).wellFormed = false := by decide
theorem test_wf_src_unused : (Instr.ineg (g (.v 4) (r 0) (r 2) z)).wellFormed = false := by decide
theorem test_wf_imm_unused : (Instr.iadd (g (.v 4) (r 0) (r 2) z 0 7)).wellFormed = false := by decide
theorem test_wf_imm_zero_field : (Instr.movs (g (.v 4) z z z 0 32)).wellFormed = false := by decide
theorem test_wf_st_imm : (Instr.st (g .none (r 0) .imm z 2)).wellFormed = false := by decide
theorem test_wf_st_format : (Instr.st (g .none (r 0) (r 4) (r 9) 2)).wellFormed = false := by decide
theorem test_wf_bra_dst : (Instr.bra (j (.v 1) z)).wellFormed = false := by decide
theorem test_wf_brc_condition : (Instr.brc (j .none (r 0) 0 0 6)).wellFormed = false := by decide
theorem test_wf_brc_imm : (Instr.brc (j .none (r 0) 0 0 0 5)).wellFormed = false := by decide
theorem test_wf_call_args : (Instr.call (j (.v 63) (r 0) 0 0 33)).wellFormed = false := by decide
theorem test_wf_hinst_mask : (Instr.hinst (j (.v 8) (r 0) 0 0 32)).wellFormed = false := by decide
theorem test_wf_spawn_shape : (Instr.spawn (j (.v 8) (r 0) 0 0 0 14)).wellFormed = false := by decide
theorem test_wf_j_wait : (Instr.brc (j .none (.v 0 true))).wellFormed = false := by decide
theorem test_wf_xload_format : (Instr.xload 1 false 0 0 0 0).wellFormed = false := by decide
theorem test_wf_xdrain_saturate : (Instr.xdrain 1 0 true 0 0 0 0).wellFormed = false := by decide
theorem test_wf_xsub_count : (Instr.xsub 2 0 0 17 1).wellFormed = false := by decide
theorem test_wf_xset_source : (Instr.xset 0 (r 0) 0).wellFormed = false := by decide
theorem test_wf_dyzil_loop : (Instr.dyzilLoop 65 1).wellFormed = false := by decide
theorem test_wf_dyzil_err : (Instr.dyzilErr 0).wellFormed = false := by decide
theorem test_wf_good : ∀ i ∈ [Instr.iadd (g (.v 4) (r 0) (r 2) z), .brc (j .none (r 0) 2 1 5), .xsub 2 0 0 16 4, .dyzilLoop 64 3],
    i.wellFormed = true := by decide

/-! ### Decoding: words laid out from R195, R201, R202, R316 and R346, those of the spec's own examples among them -/

def slot (w0 w1 w2 : Nat) : Option Instr := (decodeSlot (w0 + 2 ^ 32 * w1 + 2 ^ 64 * w2)).toOption

/-- `movi p0` and `mov p0` of the program Horner; `funshf.l v4, v1, v2, #8`: MOD 1, CK 3, IMM 8. -/
theorem test_decode_group0 : slot 0x0800001D 0 0x3E000000 = some (.movi (g (.p 0) z z z 0 0x3E000)) ∧
    slot 0x6800001C 0x384 0 = some (.mov (g (.p 0) (.lit 3 0 true) z z)) ∧
    slot 0x20040414 0x800 0x0000800C = some (.funshf (g (.v 4) (r 1) (r 2) .imm 1 8)) := by decide
/-- The FFMA of the floating-point example (NEGC), and one with constant words. -/
theorem test_decode_group1 : slot 0x40068083 0x01800800 0 = some (.ffma (g (.v 6) (r 2) (r 2) (r 3) 0x20)) ∧
    slot 0x08000083 0x02401400 8 = some (.ffma (g (.p 0) (r 0) (.c 5) (.c 4))) := by decide
/-- `rcp v4, v3`. -/
theorem test_decode_group2 : slot 0x60040100 0 0 = some (.rcp (g (.v 4) (r 3) z z)) := by decide
/-- `shfl.down.w16.vm v6, v5, #2, m3`. -/
theorem test_decode_group3 : slot 0xA0066980 0x01E00000 0x2000 = some (.shfl (g (.v 6) (r 5) .imm (r 3) 0x1A 2)) := by decide
/-- `brx v10`, `perform v3, #0x0123, #7`, `exit`, a BRA to slot 2 of the next line, a STOP awaiting v6. -/
theorem test_decode_group4 : slot 0x58000202 1 0 = some (.brx (g .none (r 10) z z)) ∧
    slot 0x0003020B 0x91800300 0x7000 = some (.perform (g (.v 3) .imm z (r 0x123) 0 7)) ∧
    slot 0x00000208 0 0 = some (.exit (g (.v 0) z z z)) ∧
    slot 0x18000200 0x2800 0 = some (.bra (j .none z 2 1)) ∧
    slot 0x00060206 0x00600300 0xC = some (.stop ⟨some 6, none, none, none⟩) := by decide
/-- `st.w32 [v8], p0`, the guarded converting store of the ST example, `red.add.f32 [v18], v20`, `ld.w128 v20, [v2]`. -/
theorem test_decode_group5 : slot 0x18000A81 0x00200001 0 = some (.st (g .none (r 8) (.p 0) z 2)) ∧
    slot 0x18000A81 0x03803001 0x00040900 = some (.st ⟨⟨true, 2, false⟩, 2, .none, r 8, r 12, r 7, 0x40⟩) ∧
    slot 0x58000A88 0x5002 0 = some (.red (g .none (r 18) (r 20) z 2)) ∧
    slot 0x40141280 0 0 = some (.ld (g (.v 20) (r 2) z z 4)) := by decide
/-- `barinit #0, #0b11, c1`, `baraw #0`, `push q2, link, v16`. -/
theorem test_decode_group6 : slot 0x38000300 0x200 0x30000 = some (.barinit (g .none (.c 1) z z 0 0x30)) ∧
    slot 0x18000303 0 0 = some (.baraw (g .none z z z)) ∧
    slot 0x10020306 2 0x10000 = some (.push (g (.q 2) (r 16) z z 0 16)) := by decide
/-- `xmmaz a1, s3, s2`. -/
theorem test_decode_group7 : slot 0x60010384 0x800 0 = some (.xmmaz 1 3 2) := by decide
/-- `ldp d11, #4`, and a word whose OP is not in the table. -/
theorem test_decode_dyzil : decodeDyzil 0x00040B01 = some (.dyzilLdp 11 4) ∧ decodeDyzil 0xFF = none := by decide
/-- Unassigned codes, and zero fields that are not zero, are refused. -/
theorem test_decode_refuses : slot 0x3FF 0 0 = none ∧ slot 0x20 0 0 = none ∧ slot 0x60040100 0x400 0 = none ∧ slot 0x208 0 0x1000 = none := by decide

/-! ### One instruction on a small state -/

/-- A fibre on port 0 of core 0 at the instruction placed, its registers from v0 on as given. -/
def scene (i : Instr) (regs : List Word) : State :=
  ({ State.reset.placeSlot ((encodeSlot i).getD 0) with actor := .port 0 0 } : State).modFibre 1 fun f => f.setRegs 0 regs
/-- Register n of the fibre after the instruction. -/
def regAfter (i : Instr) (regs : List Word) (n : Nat) : Option Word :=
  match exec i (scene i regs) with
  | .next t => (t.fibre 1).map fun f => f.reg n
  | _ => none
def fstatAfter (i : Instr) (regs : List Word) : Option Word :=
  match exec i (scene i regs) with
  | .next t => (t.fibre 1).map Fibre.fstat
  | _ => none

/-- The example after R218's table. -/
theorem test_funshf : regAfter (.funshf (g (.v 4) (r 1) (r 2) .imm 0 8)) [0, 0x89ABCDEF, 0x01234567] 4 = some 0x6789ABCD ∧
    regAfter (.funshf (g (.v 4) (r 1) (r 2) .imm 1 8)) [0, 0x89ABCDEF, 0x01234567] 4 = some 0x23456789 := by decide +kernel
/-- Shift counts of 32 or more (R218). -/
theorem test_shifts_by_32 : regAfter (.shl (g (.v 4) (r 0) (r 1) z)) [0xFFFFFFFF, 32] 4 = some 0 ∧
    regAfter (.sar (g (.v 4) (r 0) (r 1) z)) [0x80000000, 0x100] 4 = some 0xFFFFFFFF := by decide +kernel
/-- `.sat` and `.usat` at the ends of the range (R217). -/
theorem test_iadd_clamps : regAfter (.iadd (g (.v 4) (r 0) (r 1) z 1)) [0x7FFFFFFF, 1] 4 = some 0x7FFFFFFF ∧
    regAfter (.isub (g (.v 4) (r 0) (r 1) z 2)) [0, 1] 4 = some 0 := by decide +kernel
/-- The FCVT example of R238: a tie goes to the even 0x3F80, with NX. -/
theorem test_fcvt_example : regAfter (.fcvt (g (.v 4) (r 1) (r 2) z 0x30)) [0, 0xBE99999A, 0x3F808000] 4 = some 0x3F80BE9A ∧
    fstatAfter (.fcvt (g (.v 4) (r 1) (r 2) z 0x30)) [0, 0xBE99999A, 0x3F808000] = some 0x10 := by decide +kernel
/-- The IDIVQ examples of R225: the pair is empty, and quotient and remainder are on their way. -/
theorem test_idivq_example : (match exec (.idivq (g (.v 4) (r 0) (r 1) z)) (scene (.idivq (g (.v 4) (r 0) (r 1) z)) [0xFFFFFFF9, 2]) with
    | .next t => t.fills.map (·.vals)
    | _ => []) = [[0xFFFFFFFD, 0xFFFFFFFF]] := by decide +kernel

/-- The example "abc" of FIPS 180-4 for the hash of R417. -/
theorem test_sha256_abc : ofBeBytes (shaDigest [0x61, 0x62, 0x63]) = 0xba7816bf8f01cfea414140de5dae2223b00361a396177a9cb410ff61f20015ad := by
  decide +kernel

/-! ### States that meet the statements' hypotheses -/

/-- The group on the port stands and the checks at issue find nothing in it, for a well-formed instruction of format G. -/
def clearB (i : Instr) (s : State) : Bool :=
  match s.group, gParts i with
  | some g, some (op, o) => i.wellFormed && !g.fs.isEmpty && g.sound s && g.clear s op o && g.fs.all fun f => f.guard o.guard
  | _, _ => false
/-- The same at the scene, whose fibre enables no flag. -/
def clearHere (i : Instr) : Bool := clearB i (scene i [])
/-- A fibre that enables no flag has no flag trapped, whatever is raised. -/
theorem test_no_flag_enabled (f : Fibre) (n : Nat) (h : f.fstat = 0) : f.trapped n = 0 := by simp [Fibre.trapped, h]
theorem test_scene_enables_none : ((scene (.fadd (g (.v 4) (r 0) (r 2) z)) []).fibre 1).map Fibre.fstat = some 0 := by decide +kernel

def o2 : GOp := g (.v 4) (r 0) (r 2) z
def o1 : GOp := g (.v 4) (r 0) z z
def o3 : GOp := g (.v 4) (r 0) (r 2) (r 6)

theorem witness_IntegerArithmeticResults : ∀ i ∈ [Instr.iadd o2, .isub o2, .imul o2, .imulh o2, .imad o3, .ineg o1, .iabs o1, .imin o2, .imax o2],
    clearHere i = true := by decide +kernel
theorem witness_WideIntegerResults : ∀ i ∈ [Instr.imad64 o3, .iadd64 o2, .lea o2], clearHere i = true := by decide +kernel
theorem witness_BitwiseResults : ∀ i ∈ [Instr.andb o2, .orb o2, .xorb o2, .andn o2, .notb o1, .popc o1, .clz o1, .brev o1],
    clearHere i = true := by decide +kernel
theorem witness_ShiftResults : ∀ i ∈ [Instr.shl o2, .shr o2, .sar o2, .funshf o3], clearHere i = true := by decide +kernel
theorem witness_BitFieldResults : ∀ i ∈ [Instr.bfe o2, .bfi o3], clearHere i = true := by decide +kernel
theorem witness_MoveAndCompareResults : ∀ i ∈ [Instr.isetp (g (.q 1) (r 0) (r 2) z), .isel o2, .mov o1, .movi (g (.v 4) z z z 0 5),
    .movs (g (.v 4) z z z 0 12)], clearHere i = true := by decide +kernel
theorem witness_DivisionAndClockFills : ∀ i ∈ [Instr.idivq o2, .movs (g (.v 4) z z z 0 13), .movs (g (.v 4) z z z 0 14)],
    clearHere i = true := by decide +kernel
theorem witness_Fp32Results : ∀ i ∈ [Instr.fadd o2, .fsub o2, .fmul o2, .ffma o3, .fscale o2, .fcpysgn o2, .frnd o1], clearHere i = true := by
  decide +kernel
theorem witness_MinimumAndMaximumResults : ∀ i ∈ [Instr.fmin o2, .fmax o2, .fminnum o2, .fmaxnum o2], clearHere i = true := by decide +kernel
theorem witness_CompareClassAndStatusResults : ∀ i ∈ [Instr.fsetp (g (.q 1) (r 0) (r 2) z 8), .dsetp (g (.q 1) (r 0) (r 2) z 8), .fclass o1, .fstatw o2],
    clearHere i = true := by decide +kernel
theorem witness_Fp64AndPackedResults : ∀ i ∈ [Instr.dadd o2, .dmul o2, .dfma o3, .hadd2 o2, .hmul2 o2, .hfma2 o3, .badd2 o2, .bmul2 o2, .bfma2 o3],
    clearHere i = true := by decide +kernel
theorem witness_SpecialFunctionResults : ∀ i ∈ [Instr.rcp o1, .rsq o1, .sqrt o1, .ex2 o1, .lg2 o1, .tanh o1, .sinpi o1, .cospi o1],
    clearHere i = true := by decide +kernel
/-- An operand for each row of R240's table. -/
theorem witness_SpecialFunctionValues : (fp32.decode 0x7F800001).isSig = true ∧ fp32.decode 0xFF800000 = .inf true ∧
    fp32.decode 0x80000000 = .fin true 0 (-149) ∧ fp32.decode 0xBF800000 = .fin true 0x800000 (-23) ∧
    fp32.decode 0x43000000 = .fin false 0x800000 (-16) ∧ (128 : ℚ) ≤ exactVal false 0x800000 (-16) :=
  ⟨by decide, by decide, by decide, by decide, by decide, by norm_num [exactVal]⟩
/-- 3 is representable; 1 + 2^-24 is not. -/
theorem witness_RoundingModes : (fp32.roundExact 0 false 3 0).flags &&& flagOF = 0 ∧ (fp32.roundExact 1 true 0x1000001 (-24)).flags &&& flagOF = 0 := by
  decide +kernel
theorem witness_ConversionResults : ∀ i ∈ [Instr.ftoi o1, .itof o1, .fcvt (g (.v 4) (r 0) (r 2) z 0x20)], clearHere i = true := by decide +kernel

/-! #### Crews and trailers -/

/-- The scene with a target line at 0x1_0040 (NOP, TMASK bit 0), the page writable and executable, a LIVE continuation at 0x20_8000 and a READY
future cell at 0x40_0000 that is referenced once, their pages in granules 8 to 10. -/
def block0 : Block := { Block.consumed 0 with
  state := 0, nsegs := 1, ctxid := 1, launch := 16, resumepc := 0x10000, eff := { EffRec.none with fid := 1, core := 0 }
  segs := [⟨0x204000, 0, 1, 0⟩], frames := [Frame.fresh 0x204020 7 8 0 0] }
def cell0 : Cell := { Cell.free with state := 1, live := true, ctxid := 1, reach := 1, fid := 0x80000000, result := [5, 6, 7, 8] }
def heap0 : Heap := { Heap.empty with
  carve := 0x10000, blockPieces := [0x208000], blkCur := 0x208100, blkEnd := 0x210000, blocks := [(0x208000, block0)], cellCarve := [(0, 1)]
  cells := [(0, cell0)] }
def hosted (s : State) (h : Heap) : State :=
  let m := cellsWrite (cellsWrite s.dev 0x20040 (leBytes 4 0x207)) 0x2007C (leBytes 4 0x80000001)
  let entry (m : List Host.Cell) (a attr base : Nat) : List Host.Cell := cellsWrite m a (leBytes 8 (1 + attr + 2 ^ 20 * (base / 256)))
  let m := entry (entry (entry (entry (entry (entry m 0x14008 14 0x20000) 0x13008 0 0x15000) 0x13010 0 0x16000) 0x15000 0x16 0x80000) 0x15008 0x16 0xA0000) 0x16000
    0x26 0x90000
  ({ s with dev := m, mgmt := { s.mgmt with grans := (8, 3, 1) :: s.mgmt.grans } } : State).putHeap 1 h
def stage (i : Instr) (regs : List Word) : State := hosted (scene i regs) heap0
/-- Every fibre of the group on the port meets a test, and there is one. -/
def onGroup (s : State) (test : Group → Fibre → Bool) : Bool :=
  match s.group with
  | some g => g.sound s && !g.fs.isEmpty && g.fs.all (test g)
  | none => false
/-- A crew instruction of format G whose lanes are ready: no conditions, checks at issue clear, nothing on its way. -/
def crewReady (i : Instr) : Bool :=
  let s := scene i []
  match gParts i with
  | some (op, o) => i.wellFormed && onGroup s fun g f => f.conds.isEmpty && f.guard o.guard && s.clearLane op o f && !s.unplaced f.key &&
      !s.supplyPending g o.a f.lane
  | none => false
def oAt (mod : BitVec 6) (imm : BitVec 20) : GOp := g (.v 4) (r 0) z z mod imm
def oMask (mod : BitVec 6) (imm : BitVec 20) : GOp := g .none z z z mod imm

/-- SHFL of lane 0 from lane 0, QSWAP and QBCAST (whose lane 1 is not there). -/
theorem witness_LaneExchangeResults : ∀ i ∈ [Instr.shfl (g (.v 4) (r 0) .imm z 12 0), .qswap (oAt 0 0), .qbcast (oAt 1 0)], crewReady i = true := by
  decide +kernel
theorem witness_VoteAndReductionResults : ∀ i ∈ [Instr.vote (g (.v 4) z z z 2 0), .redux (oAt 0 0), .matchl (oAt 0 0), .mrd (g (.v 4) z z z 0 3),
    .mact (g (.v 4) z z z)], crewReady i = true := by decide +kernel
theorem witness_FreduxResult : crewReady (.fredux (oAt 0 0)) = true := by decide +kernel
theorem witness_CrewFenceAndMaskResults : ∀ i ∈ [Instr.cfence (g (.v 0) z z z), .join (oMask 0 3), .leave (oMask 0 3), .mand (oMask 0 0x123),
    .mor (oMask 0 0x123), .mxor (oMask 0 0x123), .mnot (oMask 0 0x23), .mwr (g .none (r 0) z z 0 3)], crewReady i = true := by decide +kernel

/-- The next line's slot 0 is a target. -/
def toNext : JOp := j .none z 0 1
theorem witness_BranchesCompleteAtTheirTargets :
    (let s := stage (.bra toNext) []
     onGroup s fun _ f => f.late.isNone && f.refs.isEmpty && decide (s.preJ f 0x200 toNext 0 none = .go ∧ s.checkTarget f.ctx (jumpTarget toNext f.pc) = none)) = true ∧
    (let o := j .none (r 0) 0 1 0
     let s := stage (.brc o) [0]
     onGroup s fun _ f => f.late.isNone && f.refs.isEmpty && decide (s.src f .int o.imm o.a = 0) &&
       decide (s.preJ f 0x201 o 1 none = .go ∧ s.checkTarget f.ctx (jumpTarget o f.pc) = none)) = true ∧
    (let o := g .none (r 0) z z
     let s := stage (.brx o) [0x10040, 0]
     onGroup s fun _ f => f.late.isNone && f.refs.isEmpty && s.clearLane 0x202 o f && decide (s.checkTarget f.ctx (s.src64 f .int o.imm o.a) = none)) = true := by
  decide +kernel
theorem witness_StopAndWaitmComplete : onGroup (scene (.stop ⟨some 63, none, none, none⟩) []) (fun _ f => f.late.isNone && f.refs.isEmpty && decide (63 < f.top.f)) = true ∧
    onGroup (scene (.waitm (oMask 0 3)) []) (fun _ f => f.late.isNone && f.refs.isEmpty) = true := by decide +kernel
theorem witness_FrameMarksComplete : (∀ i ∈ [Instr.nop (g (.v 0) z z z), .hrem (oMask 0 0), .fpin (oMask 0 0), .funpin (oMask 0 0)],
      clearHere i = true) ∧
    (let o := j (.v 60) (r 0) 0 1 0 0x42
     let s := stage (.hinst o) []
     onGroup s fun _ f => decide (o.dst.num + 4 ≤ f.top.f) && !f.helper && decide (s.checkTarget f.ctx (jumpTarget o f.pc) = none)) = true := by
  decide +kernel
/-- CALL with two arguments, CALLX to the same line, RET to the root handler, EXIT. -/
theorem witness_CallsReturnsAndExitsComplete :
    (let o := j (.v 31) (r 2) 0 1 2
     let s := stage (.call o) []
     onGroup s fun gr f => f.late.isNone && f.refs.isEmpty && (lanesInOrder o.guard
       (fun s f => (s.srcEnc f 0x203 2 o.a).andThen fun _ => (callWindow 2 o.a.num 32).andThen fun _ => f.srcWait 0 2 0 o.a)
       (fun s f => s.callLane f 2 o.a.num 32 (o.imm.toNat % 2 ^ 16) (jumpTarget o f.pc)) gr.fs s).isSome) = true ∧
    (let o := g (.v 31) (r 2) (r 0) z 2
     let s := stage (.callx o) [0x10040, 0]
     onGroup s fun gr f => f.late.isNone && f.refs.isEmpty && (gRow 0x204).any fun r => (lanesInOrder o.guard
       (fun s f => (s.litPre f [o.b]).andThen fun _ => (callWindow 2 o.a.num 32).andThen fun _ => s.preG f 0x204 o r .go)
       (fun s f => s.callLane f 2 o.a.num 32 (o.imm.toNat % 2 ^ 16) (s.src64 f .int o.imm o.b)) gr.fs s).isSome) = true ∧
    (let o := g (.v 0) (r 4) z z 1
     let s := stage (.ret o) []
     onGroup s fun gr f => f.late.isNone && f.refs.isEmpty && (gRow 0x205).any fun r => (lanesInOrder o.guard
       (fun s f => (s.preG f 0x205 o r .go).andThen fun _ => (s.retPre f o.mod.toNat).andThen fun _ => s.releasesNow f (f.chain.take 1))
       (fun s f => .ok (s.retLane f (f.regsFrom o.a.num o.mod.toNat) (laneMask gr.fs)
         (laneMask (gr.fs.filter fun f => f.guard o.guard && f.returnsToRoot && !s.dueReclaim f)))) gr.fs s).isSome) = true ∧
    (let o := g (.v 0) z z z
     let s := stage (.exit o) []
     onGroup s fun gr f => f.late.isNone && f.refs.isEmpty && (lanesInOrder o.guard (fun s f => s.releasesNow f f.chain)
       (fun s f => .ok (s.exitLane f)) gr.fs s).isSome) = true := by decide +kernel
theorem witness_PerformCompletes :
    (let o := g (.v 4) .imm z (r 0x123) 0 7
     let s := stage (.perform o) []
     onGroup s fun _ f => f.late.isNone && f.refs.isEmpty && s.clearLane 0x20B o f && s.noFill f.key && !f.helper && (s.nextNeeds f).isNone && !s.dueReclaim f) = true := by decide +kernel
/-- A group whose one acting lane's action does well. -/
def actsWell (s : State) (op : Nat) (o : GOp) (form : State → Fibre → Bool) (act : State → Fibre → State × Option FaultInfo) : Bool :=
  onGroup s fun gr f => f.late.isNone && f.refs.isEmpty && gr.helpersFree op o && s.clearLane op o f && !s.unplaced f.key && form s f && !f.helper &&
    (allActWell act gr.fs (s, [])).isSome
/-- The LIVE continuation is resumed or dropped, the READY cell read. -/
theorem witness_ResumeDropAndFgetComplete :
    (let o := g (.v 4) (r 0) .imm z 0 9
     actsWell (stage (.resume o) [0x208000, 0]) 0x20C o
       (fun s f => (s.blockForm o.a f).isNone && (s.nextNeeds f).isNone && (s.performNeeds f.ctx (f.pair o.a)).isNone) fun s f =>
       s.resumeLane f.key (f.pair o.a) (s.src f .int o.imm o.b) (s.nextSlot f.ctx f.pc) (some 4)) = true ∧
    (let o := g .none (r 0) z z
     actsWell (stage (.drop o) [0x208000, 0]) 0x20D o (fun s f => (s.blockForm o.a f).isNone) fun s f => match s.dropLane f.key (f.pair o.a) with
       | (t, none) => (t.modFibre f.key fun x => { x with pc := s.nextSlot f.ctx f.pc }, none)
       | r => r) = true ∧
    (let o := g (.v 4) (r 0) z z 2
     actsWell (stage (.fget o) [0x400000, 0]) 0x210 o (fun s f => (s.cellForm f.ctx (f.pair o.a)).isNone) fun s f => s.fgetLane o f) = true := by
  decide +kernel
theorem witness_SpawnAndFparkComplete :
    (let o := j (.v 4) (r 0) 0 1 1 15
     let s := stage (.spawn o) [0x18000, 0]
     onGroup s fun gr f => !f.helper && gr.run.done.isEmpty && gr.run.wait == .none && gr.run.nth == 0 &&
       decide (s.preJ f 0x20F o 2 (some (o.dst.num, 2)) = .go) && (match s.spawnCheck o f with
         | .ok m => !s.mustWait f m.spots && !m.spots.any Spot.isPeer && (accessesInOrder noFar (fun t m => match t.fibre m.key with
             | none => some t
             | some f =>
               let r := t.loadSpots (t.who f) (f.agent 0) m.spots
               if r.err then some (r.s.stopFor f.ctx)
               else match (r.s.setStamp f.key r.ts).fibre f.key with
                 | none => some r.s
                 | some f => match (r.s.setStamp f.key r.ts).spawnLane o f (wordsOf r.data) with
                   | (u, none) => some u
                   | (_, some _) => none) [m] false s).any fun t => (t.actedFaults gr).isEmpty
         | .error _ => false)) = true ∧
    (let o := g (.q 1) (r 0) (r 2) z
     actsWell (stage (.fpark o) [0x208000, 0, 0x400000, 0]) 0x211 o (fun s f => (s.blockForm o.a f).isNone && (s.cellForm f.ctx (f.pair o.b)).isNone)
       fun t f => t.fparkLane o f) = true := by decide +kernel
theorem witness_ReferencesCancelAndCstatComplete :
    (let refs (op : Nat) (i : Instr) (o : GOp) (needs : Bool) (code : Nat) : Bool :=
       let s := stage i [0x400000, 0]
       actsWell s op o (fun s f => (s.cellForm f.ctx (f.pair o.a)).isNone) fun t f => match t.refLane f code (f.pair o.a) 0 needs with
         | .ok t => (t, none)
         | .error x => (t, some x)
     let o (m : BitVec 6) := g .none (r 0) z z m
     refs 0x212 (.fref (o 1)) (o 1) true 0 && refs 0x213 (.funref (o 0)) (o 0) false 1 && refs 0x214 (.fxfer (o 2)) (o 2) true 4) = true ∧
    (let o := g .none z z z
     let s := stage (.fcancel o) []
     onGroup s fun _ f => s.clearLane 0x217 o f && !s.unplaced f.key) = true ∧
    (let o := g (.v 4) (r 0) z z
     let s := stage (.cstat o) [0x208000, 0]
     onGroup s fun _ f => s.clearLane 0x20E o f && !s.unplaced f.key && (s.blockForm o.a f).isNone && !f.helper) = true := by decide +kernel

/-! #### Memory -/

/-- The one lane's access: its checks at issue and its address checks pass, nothing to wait for, no owner to ask; the rest is `more`. -/
def reachesAs (s : State) (op : Nat) (o : GOp) (check : State → Fibre → Plan) (more : Fibre → MemLane → Bool) : Bool :=
  onGroup s fun gr f => gr.run.done.isEmpty && gr.run.wait == .none && gr.run.nth == 0 && f.guard o.guard && !f.helper && s.clearLane op o f && (match check s f with
    | .act m => gr.helpersFree op o && m.key == f.key && !s.mustHold f m.spots && !s.laneBusy m && !m.spots.any Spot.isPeer && more f m
    | _ => false)
def plainAt (s : State) (spots : List Spot) (f : Fibre) (m : MemLane) : Bool :=
  m.spots == spots && s.calm && s.plain m && s.unwatched f.ctx && decide (s.fibre f.key = some f)
/-- The last word of a line: the boundary of `p.a % 128 + 4 ≤ 128`. -/
def spot7C : List Spot := [⟨.mem ⟨.dev, 0x2807C⟩ 0, 0x1807C, 4⟩]
def oLd : GOp := g (.v 4) (r 0) z z 2
def oSt : GOp := g .none (r 0) (r 4) z 2
def atSt : State := stage (.st oSt) [0x1807C, 0]

theorem witness_LoadsComplete :
    (let s := stage (.ld oLd) [0x1807C, 0]
     reachesAs s 0x280 oLd (fun s f => ldCheck s oLd f) fun _ _ => true) = true ∧
    (let o := g (.v 4) (r 0) z z 2
     let s := stage (.ldc o) [2044]
     reachesAs s 0x284 o (fun s f => ldcCheck s o f) fun _ _ => true) = true := by decide +kernel
theorem witness_StoresComplete : reachesAs atSt 0x281 oSt (fun s f => stCheck s oSt f) (fun _ m => atSt.calm && (sxElems [m]).isEmpty) = true := by decide +kernel
theorem witness_StoresFillOnlyTheirBytes : reachesAs atSt 0x281 oSt (fun s f => stCheck s oSt f)
    (fun f m => plainAt atSt spot7C f m && (sxElems [m]).isEmpty && !m.fills ⟨.dev, 0x28080⟩ && m.fills ⟨.dev, 0x2807F⟩) = true := by decide +kernel
theorem witness_LoadReadsMemory :
    (let s := stage (.ld oLd) [0x1807C, 0]
     reachesAs s 0x280 oLd (fun s f => ldCheck s oLd f) fun f m => plainAt s spot7C f m && (s.lineOf (PA.line ⟨.dev, 0x2807C⟩)).copies.isEmpty) = true := by
  decide +kernel
theorem witness_StoreWritesItsRegisters : reachesAs atSt 0x281 oSt (fun s f => stCheck s oSt f)
    (fun f m => plainAt atSt spot7C f m && decide (stFmt oSt.c = 0)) = true := by decide +kernel
/-- The last four local bytes of a frame with L 1. -/
theorem witness_FrameRelativeAccessesComplete :
    (let o := g (.v 4) z z z 2 28
     let s := stage (.ldFrame o) []
     onGroup s fun _ f => s.clearLane 0x282 o f && (frameFault f.top o.imm.toNat 4).isNone) = true ∧
    (let o := g .none z (r 4) z 2 28
     let s := stage (.stFrame o) []
     onGroup s fun _ f => s.clearLane 0x283 o f && (frameFault f.top o.imm.toNat 4).isNone) = true := by decide +kernel

/-- A scene whose launch is changed. -/
def launched (f : Launch → Launch) (s : State) : State := { s with launches := s.launches.map f }
/-- PRIV set; custom operation 0 registered and checked. -/
def privileged (l : Launch) : Launch := { l with desc := setAt l.desc 4 0x20000000 }
def custom0 (l : Launch) : Launch := { l with desc := setAt l.desc 13 1, xopState := [(0, true)] }
def performs (s : State) (op : Nat) (o : GOp) (check : State → Fibre → Plan) (far : State → MemLane → Bool) (perform : State → MemLane → Option State) : Bool :=
  reachesAs s op o check fun _ m => (accessesInOrder far perform [m] false s).isSome
theorem witness_ReadModifyWritesComplete :
    (let o := g (.v 4) (r 0) (r 2) z 0
     performs (stage (.atom o) [0x18000, 0]) 0x285 o (fun s f => rmwCheck s o.dst (atomOf s o false f) (effAddr f o) f) atomFar (fun s m => atomPerform 0x285 (.atom o) s m none)) = true ∧
    (let o := g (.v 4) (r 0) (r 2) z 0
     performs (stage (.atom64 o) [0x18000, 0]) 0x286 o (fun s f => rmwCheck s o.dst (atomOf s o true f) (effAddr f o) f) atomFar (fun s m => atomPerform 0x286 (.atom64 o) s m none)) = true ∧
    (let o := g (.v 12) (r 0) (r 4) (r 8)
     performs (stage (.cas2 o) [0x18000, 0]) 0x287 o (fun s f => rmwCheck s o.dst (.cas2 (f.quad o.b) (f.quad o.c)) (effAddr f o) f) atomFar
       (fun s m => atomPerform 0x287 (.cas2 o) s m none)) = true ∧
    (let o := g .none (r 0) (r 2) z 2
     performs (stage (.red o) [0x18000, 0]) 0x288 o (fun s f => rmwCheck s o.dst (.red 2 ((s.src f .int o.imm o.b).setWidth 64)) (effAddr f o) f)
       (fun s m => match s.fibre m.key, m.acc, firstPlace m.spots with
         | some f, .rmw (.red tag _), .mem p loc => loc == 0 && s.redFar f p tag
         | _, _, _ => false)
       (fun s m => redPerform o s m none)) = true ∧
    (let o := g (.v 8) (r 0) (r 4) z
     match ((launched custom0 (stage (.atomx o) [0x18000, 0])).noteXop o).checkXop o with
     | .inl _ => false
     | .inr s => performs s 0x30B o (fun s f => atomxCheck s o f) (fun _ x => match firstPlace x.spots with
         | .mem _ _ => true
         | _ => false) fun s x => match s.fibre x.key, x.acc, firstPlace x.spots with
       | some f, .rmw r, .mem p _ => s.goFar (.atomx o) f x p r
       | _, _, _ => some s) = true := by decide +kernel
theorem witness_NearAtomicResult :
    (let o := g (.v 4) (r 0) (r 2) z 1
     let s := stage (.atom o) [0x1807C, 0, 3]
     let s := s.putLine (PA.line ⟨.dev, 0x2807C⟩) { Line.fresh with excl := some 0 }
     reachesAs s 0x285 o (fun s f => rmwCheck s o.dst (atomOf s o false f) (effAddr f o) f) fun f m => plainAt s spot7C f m &&
       decide ((s.lineOf (PA.line ⟨.dev, 0x2807C⟩)).excl = some f.core)) = true := by decide +kernel
theorem witness_SystemInstructionsComplete : (∀ i ∈ [Instr.wpwait (g .none (r 0) z z 0 3), .timew (g .none (r 0) z z), .srdcnt (g (.v 4) z z z 0 2),
      .scrubq (g (.v 4) z z z)], clearHere i = true) ∧
    onGroup (stage (.fenceSys (g (.v 0) z z z)) []) (fun _ f => !(stage (.fenceSys (g (.v 0) z z z)) []).unplaced f.key) = true ∧
    (([10, 16, 17] : List (BitVec 20)).all fun sel =>
      let o := g .none (r 0) z z 0 sel
      let s := launched privileged (stage (.movsw o) [])
      onGroup s (fun _ f => s.clearLane 0x309 o f && decide (s.privFault f = .go))) = true := by decide +kernel

/-! #### Banks and teams -/

/-- Bank 24 of core 0 is a FIFO bank. -/
def fifo24 (s : State) : State := s.putCC 1 0 { s.cc 1 0 with roles := [(24, 2)] }
def fifoVA : List Word := [0x20180000, 0x01FFFFFF]
theorem witness_FifosAndWritePointersComplete :
    (∀ x ∈ [(0x28A, g .none (r 0) (r 4) z), (0x28B, g (.v 4) (r 0) z z)],
      let s := fifo24 (stage (if x.1 = 0x28A then .fifow x.2 else .fifor x.2) fifoVA)
      onGroup s (fun gr f => !f.helper && s.clearLane x.1 x.2 f && !s.unplaced f.key && (match s.fifoBank f (f.pair x.2.a) with
        | .ok b => s.firstAt gr (32 + b) && s.changingBank f != some b && decide (((s.cc f.ctx f.core).fifo b).tail = 0)
        | .error _ => false)) = true) ∧
    (let o := g (.v 4) z z z 0 3
     let s := stage (.wptr o) []
     onGroup s fun _ f => s.clearLane 0x28D o f && !s.unplaced f.key) = true := by decide +kernel
/-- The crew is crew 0 of a team with barrier 2 set up for it and a ring of four slots. -/
def teamed (s : State) : State :=
  let t : Team := {
    ctx := 1, launch := 16, core := 0, band := 0, index := 0, ofBand := true, crews := [2], seqNo := 0, seqr := Seqr.fresh 0x10000 0
    barriers := [(2, { expect := 32, count := 0, phase := 0, broken := false, init := true, crews := 1, flags := [], joins := [], cur := 0 })]
    rings := ⟨0, 4, 64⟩ :: List.replicate 7 ⟨0, 0, 0⟩, phases := [], phaseStamp := 0 }
  match s.crew 2 with
  | some c => (s.putCrew 2 { c with team := some 3, number := 0, role := 0 }).putTeam 3 t
  | none => s
theorem witness_BankcfgCompletes :
    (let o := g (.q 1) z z z 0 (24 + 32)
     let s := teamed (stage (.bankcfg o) [])
     onGroup s fun gr f => s.clearLane 0x28C o f && decide ((gr.passing o).map Fibre.key = [f.key]) && (s.crew gr.run.crew).any Crew.isZero &&
       decide ((s.cc f.ctx f.core).changing = none) && s.firstAt gr 24) = true := by decide +kernel
/-- Slot 3 of a ring of four is the last. -/
theorem witness_TeamInstructionsComplete :
    (let o := g .none (r 0) z z 0 0x10
     let s := teamed (stage (.barinit o) [1023])
     onGroup s fun gr f => s.clearLane 0x300 o f && (match s.groupTeam gr with
       | some (_, t, c) => c.number == 0 && !s.barinitBad t 0 1 (s.src f .int o.imm o.a).toNat
       | none => false)) = true ∧
    (∀ x ∈ [(0x301, g (.v 4) z z z 0 2), (0x303, g .none z z z 0 2)],
      let s := teamed (stage (if x.1 = 0x301 then .bara x.2 else .baraw x.2) [])
      onGroup s (fun gr f => gr.run.done.isEmpty && s.clearLane x.1 x.2 f && !s.unplaced f.key && (match s.groupTeam gr with
        | some (tk, t, c) => (t.bar 2).init && (t.bar 2).crews.getLsbD c.number && (s.arriveLane tk 2 f).isSome
        | none => false)) = true) ∧
    (let o := g .none (r 0) z z 0 2
     let s := teamed (stage (.barw o) [])
     onGroup s fun gr f => s.clearLane 0x302 o f && (s.groupTeam gr).isSome) = true ∧
    (∀ x ∈ [(0x304, g .none (r 0) z z), (0x305, g .none (r 0) z z)],
      let s := teamed (stage (if x.1 = 0x304 then .rwait x.2 else .rpost x.2) [3])
      onGroup s (fun gr f => s.clearLane x.1 x.2 f && !s.unplaced f.key && (match s.groupTeam gr with
        | some (_, t, _) => decide ((s.src f .int x.2.imm x.2.a).toNat < (t.rings.getD 0 ⟨0, 0, 0⟩).count)
        | none => false)) = true) := by decide +kernel

/-! #### Sequencers -/

/-- The scene of a sequencer instruction: the team of key 3, its registers g1 and g2 holding a page's address and a pitch of 512 bytes, g3 the address of its scratchpad, its slots 0
to 3 and tile 1 its own, one token, barrier 2 a phase further. -/
def opSlot (data : Tab Byte := []) : OpSlot := { OpSlot.free with owner := some 3, fmt := some 2, data := data }
def seqScene (i : Instr) : State :=
  let s := hosted { State.reset.placeSlot ((encodeSlot i).getD 0) with actor := .seqr 0 0 } heap0
  let s := [0, 1, 2, 3].foldl (fun (s : State) k => s.putSlot 1 0 k opSlot) s
  let s := s.putTile 1 0 1 { Tile.free with owner := some 3 }
  let s := s.modSeqr 3 fun q => { q with g := [0, 0x18000, 512, BitVec.ofNat 64 (winBase + 0x180000), 0, 0, 0, 0] }
  match s.team 3 with
  | some t => s.putTeam 3 { t with
      barriers := [(2, { expect := 32, count := 0, phase := 1, broken := false, init := true, crews := 1, flags := [], joins := [], cur := 0 })] }
  | none => s
/-- A running sequencer's team meets a test. -/
def onSeqr (s : State) (test : Nat → Team → Bool) : Bool :=
  match s.actor, s.seqTeam 0 0 with
  | .seqr 0 0, some (tk, t) => !t.seqr.halt && test tk t
  | _, _ => false
def atSeqr (i : Instr) (test : State → Nat → Team → Bool) : Bool := onSeqr (seqScene i) (test (seqScene i))
def sub5 (s : State) (delivered : Nat) : State := s.putSubs 1 0 5 fun l => l ++
  [{ id := 30, team := 3, fmt := 2, base := 0, count := 4, window := 4, delivered := delivered, retired := 0, current := false }]

/-- The last slots and tile that may be claimed; sixteen slots are not the team's to subscribe, four are. -/
theorem witness_SequencerControlCompletes :
    atSeqr (.xclaim 0x8010 0x80) (fun s tk t => (bitsSet 16 0x8010).all (fun i => (s.slotOf t i).owner.isNone) &&
      (bitsSet 8 0x80).all (fun i => (s.tileOf t i).owner.isNone) && !s.claimBehind tk t (t.seqr.claimSince.elim s.ticks Prod.fst) 0x8010 0x80) = true ∧
    atSeqr (.xrel 0xF 2) (fun s tk t => (bitsSet 16 0xF).all (fun i => s.hasSlot tk t i && !s.inSub tk t i) && (bitsSet 8 2).all (s.hasTile tk t) &&
      t.seqr.jobs.isEmpty) = true ∧
    atSeqr (.xsub 2 7 0 4 4) (fun s tk t => (s.subAt tk t 7).isNone && (List.range 4).all fun i => s.hasSlot tk t i && !s.inSub tk t i) = true ∧
    (let s := sub5 (seqScene (.xunsub 5)) 0
     onSeqr s fun tk t => (s.subAt tk t 5).any fun x => !x.busy t) = true ∧
    (let s := sub5 (seqScene (.xwaits 5)) 1
     onSeqr s fun tk t => (s.subAt tk t 5).any fun x => !(x.current && x.busy t) && decide (x.retired + x.current.toNat < x.delivered)) = true ∧
    (([0, 3, 8, 15] : List (BitVec 4)).all fun d => atSeqr (.xset d .imm 5) fun s _ t => (match s.seqSrc t 0x38D .imm 5 (decide (8 ≤ d.toNat)) with
      | .ok v => v == 5
      | .error _ => false)) = true ∧
    atSeqr (.xaddg 7 1 .imm 0xFFFFF) (fun s _ t => match s.seqSrc t 0x38E .imm 0xFFFFF true with
      | .ok v => v == 0xFFFFFFFFFFFFFFFF
      | .error _ => false) = true ∧
    atSeqr .xnop (fun _ _ _ => true) = true ∧
    atSeqr (.xjmp 0 1) (fun s _ t => (s.checkTarget t.ctx (t.seqr.target 0 1)).isNone) = true ∧
    atSeqr (.xloop 3 0 1) (fun _ _ t => t.seqr.l.getD 3 0 == 0) = true ∧
    (let s := (seqScene (.xloop 3 0 1)).modSeqr 3 fun q => { q with l := [0, 0, 0, 1] }
     onSeqr s fun _ t => t.seqr.l.getD 3 0 != 0 && (s.checkTarget t.ctx (t.seqr.target 0 1)).isNone) = true ∧
    atSeqr .xstop (fun _ _ t => !t.seqr.jobs.any SeqJob.isMem) = true ∧
    atSeqr (.xbara 2) (fun _ _ t => !t.seqr.jobs.any SeqJob.isMem && (t.bar 2).init && Tab.get t.seqr.xbaraPhase 2 != some (t.bar 2).phase) = true ∧
    atSeqr (.xbarw 2) (fun _ _ t => (t.bar 2).init && phasePast (t.bar 2).phase (t.seqr.tokens.getD 2 0)) = true := by decide +kernel
def atHome (l : List (List Spot)) : Bool := l.all fun x => x.all fun y => !y.isPeer
/-- A run of a sequencer's accesses that is made whole. -/
def runsWhole : SeqRun → Bool
  | .all _ _ _ => true
  | _ => false
/-- Rows 512 bytes apart from 0x18000 on; slots 0 and 1 of format 2, the tile's drain to the scratchpad, row over row. -/
theorem witness_MatrixInstructionsComplete :
    atSeqr (.xload 2 false 4 1 0 2) (fun s tk t =>
      let s := s.putSlot 1 0 4 opSlot
      s.hasSlot tk t 4 && !s.inSub tk t 4 && t.seqr.jobs.isEmpty &&
        (let ps := loadPieces 2 false (seqBase t.seqr 1 0) (seqPitch t.seqr 2)
         (seqAlign (seqBase t.seqr 1 0) (seqPitch t.seqr 2) 2 ps).isNone && t.seqr.mem.isNone && (match seqPlaces s (t.who tk) false ps [] with
          | .ok l => atHome l && runsWhole
              (seqRun tk t false (s.modSeqr tk fun q => { q with reqs := [], probed := true }) t.seqr.sstamp 0 l [] none)
          | .error _ => false))) = true ∧
    (([true, false]).all fun keep => atSeqr (if keep then .xmma 1 0 1 else .xmmaz 1 0 1) fun s tk t =>
      s.hasSlot tk t 0 && s.hasSlot tk t 1 && s.hasTile tk t 1 && s.subOk tk t 0 && s.subOk tk t 1 && (s.slotOf t 0).fmt == some 2 &&
        (s.slotOf t 1).fmt == some 2 && !(s.slotOf t 0).filling && !(s.slotOf t 1).filling && t.seqr.jobs.isEmpty &&
        s.teams.all fun x => !x.2.seqr.jobs.any SeqJob.isMma) = true ∧
    atSeqr (.xdrain 2 0 false 1 3 0 4) (fun s tk t => s.hasTile tk t 1 && t.seqr.jobs.isEmpty &&
      (let ps := rowPieces (seqBase t.seqr 3 0) (seqPitch t.seqr 4) (drainRow 2)
       let bytes := (List.range 64).flatMap fun r => rowBytes 2 0 false (s.gen t.ctx t.core t.seqNo).toNat r ((s.tileOf t 1).row r)
       (seqAlign (seqBase t.seqr 3 0) (seqPitch t.seqr 4) 4 ps).isNone && t.seqr.mem.isNone && (match seqPlaces s (t.who tk) true ps [] with
        | .ok l => atHome l && runsWhole
            (seqRun tk t true (s.modSeqr tk fun q => { q with reqs := [], probed := true }) t.seqr.sstamp 0 l bytes none)
        | .error _ => false))) = true ∧
    atSeqr (.xdraina 2 0 3 1) (fun s tk t => s.hasSlot tk t 3 && !s.inSub tk t 3 && s.hasTile tk t 1 && decide (0 < opK 2 / 64) && t.seqr.jobs.isEmpty) =
      true := by decide +kernel

/-! #### Queues -/

/-- A queue that runs a packet at instruction w. -/
def atDyzil (i : Instr) : State := { State.reset.placeDyzil ((encodeDyzil i).getD 0) with actor := .dyzil 0 }
def runsHere (s : State) (test : Queue → Bool) : Bool := match s.actor, s.queue 0 with
  | .dyzil 0, some x => x.pkt.isSome && test x
  | _, _ => false
theorem witness_DyzilProgramsComplete : ∀ i ∈ [Instr.dyzilLdp 15 7, .dyzilLds 0 31, .dyzilSts 31 0, .dyzilLdq 0 7, .dyzilMovi 0 0x8000, .dyzilAdd 0 15,
    .dyzilAddi 0 0x7FFF, .dyzilSub 0 15, .dyzilAnd 0 1, .dyzilOr 0 1, .dyzilShl 0 63, .dyzilShr 0 63, .dyzilExt 0 1 63 1, .dyzilJmp 1, .dyzilBeq 0 1 1,
    .dyzilBne 0 1 1, .dyzilBltu 0 1 1, .dyzilLoop 64 1], runsHere (atDyzil i) (fun _ => true) = true := by decide +kernel

/-- A team's descriptor: entry and root handler at 0x1_0040, one band of one team of one crew, a constant bank of one word. -/
def teamDesc : List Word := [0x10040, 0, 0x10040, 0, 63 + 2 ^ 27, 63, 0x10010, 0, 0, 0, 0x10000, 0, 1] ++ List.replicate 51 0
/-- A queue whose packet is at instruction i; d0 is the first word of the window and d1 the last, grant 0 a team's descriptor, node 3 a launch. -/
def emits (i : Instr) (g : Queue → Queue) : State :=
  let s := hosted (atDyzil i) heap0
  let s := s.modQueue 0 fun x => g { x with d := setAt (setAt x.d 0 0x10200) 1 0x10238, grants := [some teamDesc] }
  { s with launches := Launch.ofDesc 3 1 0 true teamDesc [] [] 0 :: s.launches }
def feOk : FeOut → Bool
  | .ok _ _ _ => true
  | _ => false
theorem witness_DyzilEmissionsComplete :
    (let s := emits (.dyzilLaunch 2 0) id
     runsHere s fun x => match s.ctx x.ctx with
       | some c =>
         let l := Launch.ofDesc 0 x.ctx 0 false (x.grant 0) [] x.args x.stamp
         let e := s.putQueue 0 x.stepped
         e.canHold c.d l && e.entriesOk l && (e.freeNumber x.ctx c.nextLaunch).isSome &&
           (match e.feRead x.ctx 0 x.stamp l.cbankAt (4 * l.cwords) with
             | .ok u _ _ => (u.ctx x.ctx).isSome
             | _ => false)
       | none => false) = true ∧
    (let s := emits (.dyzilRec 3) id
     runsHere s fun x => (s.launch x.ctx 3).any s.entriesOk) = true ∧
    (let s := emits (.dyzilSignal 1 2 0) id
     runsHere s fun x => x.inWindow (x.dreg 1) && feOk ((s.putQueue 0 x.stepped).feStore x.ctx 0 x.stamp (x.dreg 1) (leBytes 8 0) true)) = true ∧
    (let s := emits (.dyzilSignal 0 2 1) fun x => { x with deferred := List.replicate 63 { addr := 0x10200, value := 0, launches := [], tasks := [] } }
     runsHere s fun x => x.inWindow (x.dreg 0) && decide (x.deferred.length < 64)) = true ∧
    (let s := emits (.dyzilWaitv 0 2 2) id
     runsHere s fun x => let e := s.putQueue 0 x.stepped
       x.inWindow (x.dreg 0) && (match e.feLoad x.ctx 0 x.stamp (x.dreg 0) 8 true, e.fePlace x.ctx (x.dreg 0) 8 false true with
         | .ok _ _ bs, .ok _ => decide ((x.dreg 2).toNat ≤ ofBytes bs)
         | _, _ => false)) = true ∧
    runsHere (emits (.dyzilCancel 2) id) (fun _ => true) = true ∧ runsHere (emits (.dyzilErr 0x7FFF) id) (fun _ => true) = true ∧
    (let s := emits .dyzilDone id
     runsHere s fun x => feOk ((s.putQueue 0 x.stepped).feStore x.ctx 0 x.stamp (BitVec.ofNat 64 x.status) (leBytes 8 1) false)) = true := by
  decide +kernel

/-- Queue 0 as the module holds it, between packets, with a packet written behind its write index. -/
def idle (g : Queue → Queue) : State :=
  let s := emits .dyzilDone fun x => g { x with pkt := none, watch := [0] }
  { s with dev := cellsWrite s.dev 0x20080 (leBytes 8 1), actor := .none }
def ofQueue (s : State) (test : Queue → Bool) : Bool := (s.queue 0).any test
/-- The descriptor of a queue for context 1 with the program at 0x1_0100, in BAR 2. -/
def queueDesc : List Byte :=
  leBytes 8 0x10000 ++ leBytes 8 (1 + 2 ^ 16) ++ leBytes 8 0x10100 ++ leBytes 8 0x10180 ++ leBytes 8 0x10200 ++ leBytes 8 0 ++ leBytes 8 0x10400 ++
    leBytes 8 64
/-- Packet 0 is fresh with an even header. -/
theorem witness_QueueHappeningsComplete :
    (let s := idle id
     ofQueue s fun x => decide (s.nextQueue = some 0) && s.queueReady 0 x && (match ({ s with lastQueue := 0 } : State).feLoad x.ctx 0 x.stamp (BitVec.ofNat 64 x.widx) 8 false with
       | .ok u ts bs => decide (x.ridx < ofBytes bs) &&
         (let u := u.modQueue 0 fun y => { y with stamp := ts }
          match u.feLoad x.ctx 0 ts (x.slotAddr x.ridx) 64 false, u.fePlace x.ctx (x.slotAddr x.ridx) 64 false false with
          | .ok _ _ bs', .ok _ => x.fresh x.ridx (ofBytes (bs'.take 8))
          | _, _ => false)
       | _ => false)) = true ∧
    (let s := idle fun x => { x with woken := true }
     ofQueue s fun x => x.woken && !s.mgmt.ckpt && !s.wakeWaits 0 x && decide ((s.qreg 0).state ≠ 2) && decide (x.wait = .none) && x.pkt.isNone &&
       feOk ((s.putQueue 0 { x with woken := false }).feLoad x.ctx 0 x.stamp (BitVec.ofNat 64 x.widx) 8 false)) = true ∧
    (let s := idle fun x => { x with woken := true, wait := .stale }
     ofQueue s fun x => decide (x.wait = .stale) && x.woken && !s.mgmt.ckpt && !s.wakeWaits 0 x && decide ((s.qreg 0).state ≠ 2) && (match (s.putQueue 0 { x with woken := false }).feLoad x.ctx 0 x.stamp (x.slotAddr x.ridx) 64 false with
       | .ok _ _ bs => x.fresh x.ridx (ofBytes (bs.take 8))
       | _ => false)) = true ∧
    (let s := idle fun x => { x with woken := true }
     let s := { s.putQreg 0 { s.qreg 0 with state := 2 } with dev := cellsWrite s.dev 0x20118 (leBytes 8 1) }
     ofQueue s fun x => let e := s.putQueue 0 { x with woken := false }
       decide ((s.qreg 0).state = 2) && x.errorInfo.isNone && x.woken && !s.mgmt.ckpt && !s.wakeWaits 0 x && (match e.feLoad x.ctx 0 x.stamp (BitVec.ofNat 64 x.status + 16) 16 false,
           e.fePlace x.ctx (BitVec.ofNat 64 x.status) 8 true false with
         | .ok _ _ bs, .ok _ => bitOf (ofBytes (bs.drop 8)) 0
         | _, _ => false)) = true ∧
    (let s := idle fun x => { x with deferred := [{ addr := 0x10200, value := 5, launches := [], tasks := [] }] }
     ofQueue s fun x => s.deferredDue 0 x && feOk ((s.putQueue 0 { x with deferred := [] }).feStore x.ctx 0 (max x.stamp s.afterAll) 0x10200 (leBytes 8 5) true)) =
      true ∧
    (let s := idle id
     let s := { s with queues := [], dev := cellsWrite s.dev 0x20200 (leBytes 4 0x26) }
     let s := s.putQreg 0 { s.qreg 0 with desc := tabWrite [] 0 queueDesc }
     (s.queue 0).isNone && !(s.qreg 0).create && s.mgmt.booted && !s.mgmt.recovery && (match s.buildQueue 0 false with
       | (_, .ok _) => true
       | _ => false)) = true ∧
    (let s := emits (.dyzilAdd 0 0) fun x => { x with steps := 256 }
     ofQueue s fun x => x.pkt.isSome && decide (x.steps = 256) && decide (x.wait = .none)) = true := by decide +kernel

/-! #### Happenings -/

/-- A core with the scene's fibre on no port; the cluster holds work of node 3. -/
def world (c : Cluster → Cluster) : State :=
  let s := stage (.nop (g (.v 0) z z z)) []
  let s := { s with ports := [], actor := .none, launches := Launch.ofDesc 3 1 0 true teamDesc [7] [] 0 :: s.launches }
  s.putCluster 0 (c (s.cluster 0))
def task9 : WaitTask := { id := 9, pc := 0x10040, ctx := 1, launch := 3, fid := 9, stamp := 0, timer := 1600, f := 64, l := 0, args := [1, 2], handle := none }
def task8 : Task := { id := 8, pc := 0x10040, ctx := 1, launch := 3, fid := 8, stamp := 0, timer := 1600, body := .fresh ⟨0x204800, 0, 8, 0⟩ ⟨0x205000, 0, 8, 0⟩ 64 0 [1] }
/-- The bin's timer runs out now. -/
theorem witness_PlacementHappeningsComplete :
    (((world fun c => { c with waiting := [task9] }).cluster 0).waiting.findSome? fun w => (world id).submitted w).isSome = true ∧
    (let s := world fun c => { c with bins := [{ pc := 0x10040, ctx := 1, start := 0, timer := (world id).cycle, tasks := [task8] }] }
     ((s.cluster 0).bins.find? fun b => b.pc == 0x10040 && b.ctx == 1).any fun b => decide (b.start + b.timer ≤ s.cycle)) = true ∧
    (let s := world fun c => { c with placement := [{ ctx := 1, launch := 3, tasks := [task8], since := 0 }] }
     (match s.crewFit 0 with
       | some (_, f, _) => !s.teamFirst f.ctx 0 f.since && (s.helperSegs f).isSome && (f.tasks.findSome? s.resumeNeeds).isNone
       | none => false)) = true ∧
    (let s := world id
     let s := match s.ctx 1 with
       | some c => s.putCtx 1 { c with order := [{ launch := 3, band := 0, since := 0 }] }
       | none => s
     (match s.teamFit 1 with
       | some (_, k, _, _, _) => (s.ctx 1).isSome && (s.crewFit k).isNone
       | none => false)) = true ∧
    (let s := (world id).putPort 0 0 (PortRun.fresh 5 [])
     (s.port 0 1).isNone && (s.port 0 0).isSome && (s.choose 0).isSome) = true ∧
    (let s := { world id with cycle := 513 }
     (s.crew 2).any fun c => !c.promoted && !(s.readyGroups c).isEmpty && decide (c.readySince + 512 ≤ s.cycle)) = true := by decide +kernel

/-- The fibre, changed. -/
def withFibre (h : Fibre → Fibre) : State := (world id).modFibre 1 h
def ofFibre (s : State) (test : Fibre → Bool) : Bool := (s.fibre 1).any test
def pending1 : EffRec := { EffRec.none with tag := 0x11, fault := true }
theorem witness_FibreHappeningsComplete :
    (∃ x, ({ world id with fills := [{ fibre := 1, frame := 0x200820, reg := 4, n := 2, vals := [5, 6], producer := 0, loc2 := false }] } : State).fills[0]? = some x ∧
      x.vals.isEmpty = false) ∧
    (let s := withFibre fun f => { f with conds := [.time 0] }
     ofFibre s fun f => !s.onPort 1 && f.conds.contains (.time 0) && decide (0 ≤ s.time)) = true ∧
    (let s := withFibre fun f => { f with conds := [.fault], helper := true }
     ofFibre s fun f => s.pastTrailer f && f.helper && s.quadDone f) = true ∧
    (let s := withFibre fun f => { f with conds := [.fault], reclaim := true }
     ofFibre s fun f => s.pastTrailer f && !f.helper && f.reclaim && !f.isPinned) = true ∧
    (let s := withFibre fun f => { f with conds := [.time 99], asyncs := [{ rec_ := pending1, halts := none }] }
     ofFibre s fun f => s.blocked f && s.noFill 1 && !f.helper && !s.dueReclaim f && !f.asyncs.isEmpty) = true ∧
    (let s := (teamed (world id)).modSeqr 3 fun q => { q with fault := some pending1 }
     (match s.seqTeam 0 0 with
       | some (_, t) => t.seqr.fault.isSome && (s.leadFibre t).isSome
       | none => false)) = true ∧
    (let s := (world id).putCC 1 383 { (world id).cc 1 383 with changing := some (31, 2) }
     (s.coreCtx.find? fun (y : Nat × CoreCtx) => y.1 % 384 == 383 && y.2.changing.map Prod.fst == some 31).any fun y =>
       decide (y.2.changing = some (31, 2))) = true ∧
    (let s := (world id).putPort 0 3 { PortRun.fresh 2 [1] with count := 1, wait := .fence [1] }
     s.ports.any fun p => match p.2.wait with
       | .fence left => left.contains 1
       | _ => false) = true := by
  refine ⟨⟨_, rfl, rfl⟩, ?_⟩; decide +kernel

/-- A command of fibre 1 with these words, its output's one line and the bytes it has read. -/
def cmdOf (words : List Word) (buf : List Byte := []) (tgts : List Tgt := [⟨⟨.dev, 0x2C000⟩, 0, 0x1C000, 4, [(0x1C000, 4)], .placed, true⟩]) (idx : Option Nat := none) : Cmd :=
  { words := words ++ List.replicate (16 - words.length) 0, fibre := 1, fid := 1, ctx := 1, launch := 16, core := 0, team := none, pc := 0x10000, arg := 0,
    issue := 1, lane := 0, stamp := 0, record := [], began := false, due := false, done := 0, moved := false, bad := none, tgts := tgts, buf := buf, part := [],
    idx := idx, req := none, dests := [], fail := none, arrived := false }
def bs4 : List Byte := [1, 2, 3, 4]
def onChan (c : Cmd) : State :=
  let s := (world id).putChan 1 0 15 { (world id).chan 1 0 15 with cmds := [c] }
  { s with claims := c.tgts.map fun t => (t.pa.line, chanKey 1 0 15) }
/-- The command at the head of the channel begins, and a test holds of it. -/
def begins (op : Nat) (c : Cmd) (test : State → Cmd → Bool) : Bool :=
  let s := onChan c
  decide (s.turnOf 0 = some 1) && (match s.headCmd 1 0 15 op with
    | some (u, c) => c.bad.isNone && test u c
    | none => false)
def fullHere (u : State) (c : Cmd) : Bool := match c.tgts with
  | t :: _ => decide (t.n ≤ c.buf.length) && (u.writePiece 0 15 c t (c.buf.take t.n)).2.1
  | [] => false
def gotBytes : Got → Bool
  | .bytes _ _ _ => true
  | _ => false
def readsHere (u : State) (c : Cmd) : Bool := match c.tgts with
  | t :: _ => decide (c.buf.length < t.n) && (let x := c.srcAt (c.done + c.buf.length)
    let skip := if inScratch x.1 then (c.done + c.buf.length) % 4 else 0
    let want := min x.2 (t.n - c.buf.length)
    gotBytes (u.fetchPiece c (fun s c => s.putHead 0 15 c) (u.chan c.ctx 0 15).stamp 15 (chanKey c.ctx 0 15) (x.1 - skip)
      (if inScratch x.1 then ceilDiv (skip + want) 4 * 4 else want)))
  | [] => false
/-- Four bytes: linear, one row, one element, one pattern. -/
def lin : List Word := [0, 4, 0x18000, 0, 0x1C000, 0]
def scr : List Word := [0, 4, 0x00180000, 0x01FFFFFF, 0x1C000, 0]
def rows : List Word := [1, 4 + 2 ^ 16, 0x18000, 0, 0x1C000, 0]
def elems (op : Word) : List Word := [op, 2 + 256, 0x18000, 0, 0x1C000, 0]
def sub0 : Sub := { id := 30, team := 3, fmt := 2, base := 0, count := 2, window := 2, delivered := 0, retired := 0, current := false }
def onStream (c : Cmd) : State := (teamed (world id)).putCLC 1 0 { (world id).clc 1 0 with streams := Tab.set [] 7 ([c], [sub0]) }
def tileCmd (dests : List Nat) (buf : List Byte) : Cmd := { cmdOf [0, 2 + 2 ^ 17, 0x18000, 0, 64, 0, 0, 0, 1] buf [] with dests := dests }
def withJob (j : SeqJob) (test : Team → Bool) : Bool :=
  let s := (teamed (world id)).modSeqr 3 fun q => { q with jobs := [j] }
  match s.seqTeam 0 0 with
  | some (_, t) => test t
  | none => false
theorem witness_EngineHappeningsComplete :
    (let o := g (.q 2) (r 16) z z 0 0
     let s := stage (.push o) (List.replicate 16 0 ++ lin ++ List.replicate 10 0)
     onGroup s fun g f => !f.helper && (gRow 0x306).any fun r => decide (prePush o s g r f = .go)) = true ∧
    (begins 0 (cmdOf lin bs4) fullHere && begins 0 (cmdOf lin) readsHere && begins 0 (cmdOf scr (bs4.take 3)) readsHere) = true ∧
    (begins 1 (cmdOf rows bs4) fullHere && begins 1 (cmdOf rows) readsHere) = true ∧
    (begins 2 (cmdOf (elems 2) bs4) fullHere && begins 2 (cmdOf (elems 2)) (fun _ c => c.tgts.any fun t => decide (c.buf.length < t.n))) = true ∧
    (begins 3 (cmdOf (elems 3)) (fun _ c => c.idx.isNone) && begins 3 (cmdOf (elems 3) bs4 (idx := some 0)) (fun u c => c.idx.isSome && !c.due && c.tgts.length == 1 && fullHere u c)) = true ∧
    begins 4 (cmdOf [4, 4, 5, 0, 0x1C000, 0]) (fun u c => match c.tgts with
      | t :: _ => (u.writePiece 0 15 c t (((List.range t.n).map fun i => c.pattern (c.done + i)).take t.n)).2.1
      | [] => false) = true ∧
    (let s := onChan { cmdOf lin bs4 with moved := true }
     decide (s.turnOf 0 = some 1) && (s.chan 1 0 15).cmds.any fun c => c.moved) = true ∧
    (let s := onStream { tileCmd [] [] with moved := true }
     decide (s.turnOf 0 = some 1) && ((s.clc 1 0).stream 7).1.any fun c => c.moved) = true ∧
    (let s : State := { world id with link := { (world id).link with sent := [(cmdOf lin, none)] } }
     (s.link.sent[0]?).isSome) = true ∧
    (let s := onStream (tileCmd [] [])
     (s.streamHead 0 7).any fun c => c.dests.isEmpty && (let subs := ((s.clc c.ctx 0).stream 7).2
       !subs.isEmpty && subs.all fun x => decide (x.delivered - x.retired < x.window))) = true ∧
    (let s := onStream (tileCmd [3] [])
     (s.streamHead 0 7).any fun c => !c.dests.isEmpty && decide (c.buf.length < c.tileBytes) && gotBytes
       (s.fetchPiece c (fun s c => s.putStream c.ctx 0 7 c) c.stamp 24 (2 ^ 64) (c.tileAt c.buf.length).1 (c.tileAt c.buf.length).2)) = true ∧
    (let s := onStream (tileCmd [3] bs4)
     (s.streamHead 0 7).any fun c => !c.dests.isEmpty && decide (c.tileBytes ≤ c.buf.length)) = true ∧
    (withJob (.xload 15) (fun t => t.seqr.jobs.any fun j => match j with
        | .xload _ => true
        | _ => false) && withJob (.xmma 7 0 1) (fun t => t.seqr.jobs.any SeqJob.isMma) &&
      withJob (.xdraina 1 7) (fun t => t.seqr.jobs.any fun j => match j with
        | .xdraina _ _ => true
        | _ => false) &&
      withJob (.xdrain 7) (fun t => (t.seqr.jobs.any SeqJob.isDrain) && t.seqr.reqs.isEmpty)) = true := by decide +kernel

/-- Device 126 at the head of the link's queue. -/
def onLink (c : Cmd) : State := { world id with link := { (world id).link with queue := [c] } }
def linkCmd (op : Word) (w1 src : Word) (buf : List Byte := []) : Cmd := cmdOf [op, w1, src, 0, 0x1C000, 0, 0x7E] buf []
def atLink (op : Nat) (c : Cmd) (test : State → Cmd → Bool) : Bool :=
  let s := onLink c
  (s.linkHead op).any fun c => !s.link.unreach.contains c.dev && test s c
def xfer5 (committed : Bool) : Xfer := { id := 5, cmd := linkCmd 4 0 0x208000, handle := 0x208000, committed := committed }
def withLink (h : Link → Link) : State := { world id with link := h (world id).link }
/-- An access that device 126 asks for is performed here at once. -/
def owned (va : DWord) (acc : PeerAcc) (peer : Option Nat := some 0x7E) : Bool :=
  let s := world id
  (s.ctx 1).isSome && (match s.ownerCheck 1 va acc with
    | .ok l => !l.any Spot.isPeer && !s.ownerWaits 0x7E 1 va.toNat acc l && (let w := s.walkLoads { linkAgent 0 1 0x7E with peer := peer } va.toNat
        !w.err && !(w.s.ownerPerform (linkAgent w.ts 1 0x7E) 0x7E 1 va acc l).err)
    | .error _ => false)
theorem witness_LinkHappeningsComplete :
    atLink 0 (linkCmd 0 4 0x18000) (fun s c => decide (c.buf.length < c.field 32 32) && gotBytes
      (s.fetchPiece { c with began := true } State.putLinkHead c.stamp 16 (2 ^ 64) ((c.src + c.buf.length) % 2 ^ 64) (c.field 32 32 - c.buf.length))) = true ∧
    atLink 0 (linkCmd 0 4 0x18000 bs4) (fun _ c => decide (c.field 32 32 ≤ c.buf.length)) = true ∧
    ((onLink (linkCmd 1 4 0x18000)).linkHead 1).isSome = true ∧
    atLink 2 (linkCmd 2 0 0x18000) (fun _ _ => true) = true ∧
    atLink 3 (linkCmd 3 0 0x18000) (fun _ c => c.bad.isNone && c.req.isNone) = true ∧
    atLink 4 (linkCmd 4 0 0x208000) (fun s c => decide ((s.xferCheck c).1 = none)) = true ∧
    (let s := withLink fun l => { l with xfers := [xfer5 false] }
     (s.link.xfers.find? fun x => x.id == 5 && !x.committed).any fun x => decide ((s.xferCheck x.cmd).1 = none)) = true ∧
    (let s := withLink fun l => { l with xfers := [xfer5 true] }
     (s.link.xfers.find? fun x => x.id == 5 && x.committed).isSome) = true ∧
    (let s := withLink fun l => { l with xfersIn := [{ id := 5, src := 0x7E, ctx := 1, cluster := 0, launch := 3, b := 7, handle := 0x208000, tc := 1, since := 0 }] }
     let s := { s with cycle := linkWait }
     (s.link.xfersIn.find? fun x => x.id == 5).any fun x => decide (x.since + linkWait ≤ s.cycle)) = true ∧
    (let s := withLink fun l => { l with posts := [{ cmd := linkCmd 1 4 0x18000, ctx := 1, dev := 0x7F, key := 9, len := 2, addr := 0x1807F }] }
     (s.ctx 1).isSome && !(s.earlierIn fun i => match i with
       | .sendArrival a b k _ _ => a == 0x7E && b == 1 && k == 9
       | _ => false) && (s.postFor 0x7E 1 9).any fun p => p.cmd.idx.isNone &&
       (let bs := bs4.take p.len
        match s.claimAll p.cmd.who (engAgent p.cmd.stamp p.cmd.ctx 16) ((linePieces (bs.length / 128 + 2) p.addr bs.length).map fun x => [x]) [] with
        | .got v t l =>
          let q := { p with cmd := { p.cmd with tgts := l, buf := bs, stamp := t, idx := some v.inboxNo } }
          (match (v.putPost p q).fillPost (l.length + 1) q.cmd with
          | .done _ _ => true
          | _ => false)
        | _ => false)) = true ∧
    (([0, 12] : List (BitVec 4)).all fun op => owned 0x18000 (.rmw (.red op 5))) = true ∧
    (let s := world id
     (s.launch 1 3).isSome && (s.checkTarget 1 0x10040).isNone) = true ∧
    owned 0x1807C (.load 4) none = true := by decide +kernel

/-- The context has a migration range of the one page at 0x1_0000, which has reached its threshold for device 126. -/
def ranged (h : MigRange → MigRange) : State :=
  let s := world id
  let r : MigRange := { vbase := 0x10000, pages := 1, thresh := 256, dback := 0x20000, hback := 0x50000, counters := [(0, 256)], peers := [], pending := [], reached := [(0, 126)], due := [0] }
  match s.ctx 1 with
  | some c => s.putCtx 1 { c with migr := [h r] }
  | none => s
def inRange (s : State) (test : MigRange → Nat → Leaf → Bool) : Bool := match s.ctx 1 with
  | some c => (match c.rangeOf 0x10000, s.walk 1 0x10000 with
    | some (r, i), .ok lf => test r i lf
    | _, _ => false)
  | none => false
def handed (pending : Bool) : State := { ranged id with link := { (ranged id).link with hands := [{ ctx := 1, va := 0x10000, peer := 126, pending := pending, since := 0 }] } }
theorem witness_GangHappeningsComplete :
    (let s := ranged id
     inRange s fun r i lf => decide (Tab.get r.reached i = some 126 ∧ lf.loc = 0 ∧ lf.base = r.dback + 65536 * i) && s.migratable 1 0x10000 r i lf && !(pageLines .dev lf.base).any s.claimed &&
       s.link.hands.isEmpty && !s.link.unreach.contains 126) = true ∧
    (inRange (ranged id) fun r i lf => (ranged id).migratable 1 0x10000 r i lf) = true ∧
    ((handed false).handOf 1 0x18000 false).isSome = true ∧ inRange (handed false) (fun _ _ _ => true) = true ∧
    (let s := { handed true with cycle := linkWait }
     (s.handOf 1 0x1FFFF true).any fun h => !s.link.unreach.contains h.peer && decide (h.since + linkWait ≤ s.cycle)) = true ∧
    (let s := { withLink (fun l => { l with noRoute := [(126, 0)] }) with cycle := linkWait }
     !s.link.unreach.contains 126 && s.routeGone 126) = true ∧
    (let s := { world id with ptpOff := -1001 }
     decide (1000 < s.ptpOff.natAbs)) = true ∧
    (let s := { world id with ptpOff := 1000, ptpGood := 0, cycle := 8000000000, ptpLast := 8000000000 }
     decide (s.ptpOff.natAbs ≤ 1000 ∧ s.ptpGood + 8000000000 ≤ s.cycle ∧ s.cycle < s.ptpLast + 800000000)) = true := by decide +kernel

/-- The host reaches the granule of the page as the context's HDM. -/
def hosting : State :=
  let s := world id
  let s := match s.ctx 1 with
    | some c => s.putCtx 1 { c with d := { c.d with hdmbase := 0x20000, hdmsize := 1, savegr := 100 } }
    | none => s
  { s with hostUp := true, hostCache := true }
def mgmts (h : Mgmt → Mgmt) (s : State) : State := { s with mgmt := h s.mgmt }
/-- The longest host accesses, at the last bytes of the granule and of its line. -/
theorem witness_DeviceHappeningsComplete :
    (let s := { world id with ports := [] }
     let s := s.putPart 0 { s.part 0 with switching := true }
     s.isPart 0 && ((s.part 0).current s.time).switching && ((s.part 0).current s.time).cur == some 1 && (s.busyPorts 0).isEmpty) = true ∧
    (let s := { world id with ports := [] }
     let s := s.putPart 0 { s.part 0 with switching := true, cur := none }
     ((s.part 0).current s.time).switching && ((s.part 0).current s.time).cur.isNone && (s.busyPorts 0).isEmpty) = true ∧
    ((world id).isPart 0 && ([⟨1, 10, true⟩, ⟨5, 3, false⟩] : List Turn).all fun t => !t.valid || decide (10 ≤ t.len.toNat) &&
      ((world id).ctx t.ctx.toNat).any fun y => decide (y.d.pfirst = 0 ∧ y.d.psize = 2 ^ (world id).psz 0)) = true ∧
    (layoutOk 0xFFFFFFF3 && (world id).ctxs.all fun c => decide (2 ^ bitsOf 0xFFFFFFF3 (4 * c.2.d.pfirst) 4 = c.2.d.psize)) = true ∧
    (let s := hosting
     s.hostReaches 0x2FF80 && s.hostUp && ((pieces 0x2FF81 128).all fun y => !s.hostWaits y.1 y.2) && !s.hostWaits 0x2FF80 128 && !s.earlierIn isIoWrite &&
       !s.hostReaches 0x30000) = true ∧
    (let s := ranged id
     let s := { s with hostUp := true, hostCache := true }
     inRange s fun r i lf => r.due.contains i && s.migratable 1 0x10000 r i lf && decide (lf.loc = 0 ∧ lf.base = r.dback + 65536 * i) && s.claims.isEmpty) = true ∧
    hosting.hostUp = true ∧ hosting.claimed ⟨.host, 0x50000⟩ = false ∧
    (let s : State := { hosting with hostUp := false, hostDownAt := 5, cycle := 1600000005 }
     s.hostUp = false ∧ s.hostDownAt + 1600000000 ≤ s.cycle) ∧ (world id).fibre 1 ≠ none := by decide +kernel

/-- R51, R82: a write waits for a load's fill at v5, not for the return that a RESUME left v5 empty for; both read as empty. -/
theorem test_write_waits_for_a_fill_only :
    (Frame.none.markEmpty 5).pending 5 = true ∧ (Frame.none.markOwed 5).pending 5 = false ∧ (Frame.none.markOwed 5).full 5 = false ∧
    ((Frame.none.markOwed 5).markEmpty 5).pending 5 = true := by decide

/-- A descriptor of context 2 on cluster 0, key slot 5, its regions and save area in granules that it owns. -/
def newDesc : Nat := packNat [(16, 2), (6, 5), (3, 0), (2, 0), (5, 0), (32, 7), (64, 0x10000), (64, 0x200000), (32, 1), (64, 0x400000), (16, 1), (176, 0), (24, 1), (8, 0)]
def creating : State :=
  let s := { State.reset with mgmt := { State.reset.mgmt with layout := 0, grans := [(0, 2000, 2)], desc := tabWrite [] 0 (leBytes 64 newDesc) } }
  s.putKey 5 { s.key 5 with imported := true }
def debugged : State :=
  let s := withFibre fun f => { f with halted := true }
  mgmts (fun m => { m with dbg := { m.dbg with ctx := 1, fid := 1, frame := 0x200820, reg := 63, go := false } }) s
theorem witness_TenancyHappeningsComplete :
    (let s := creating
     !s.mgmt.create && !s.mgmt.destroy && s.serves && (s.descTests s.mgmt.descBits).all fun t => !t.2) = true ∧
    (let s := mgmts (fun m => { m with dctx := 1 }) (world id)
     !s.mgmt.create && !s.mgmt.destroy && (s.ctx s.mgmt.dctx).isSome) = true ∧
    (let s := debugged
     !s.mgmt.dbg.go && (match s.debugTarget s.mgmt.dbg with
       | .ok (f, fr) => f.halted && !s.onPort f.key && decide (s.mgmt.dbg.reg.toNat < fr.f) && fr.full 63
       | .error _ => false)) = true ∧
    (let s := mgmts (fun m => { m with dbg := { m.dbg with go := true, since := 0 } }) { world id with cycle := 800000000 }
     s.mgmt.dbg.go && decide (s.mgmt.dbg.since + 800000000 ≤ s.cycle)) = true ∧
    (let s := (world id).putKey 63 { (world id).key 63 with ctx := some 1 }
     decide ((s.key 63).ctx = some 1) && s.ownsGranules 1 1 2) = true ∧
    State.reset.mgmt.create = false ∧ State.reset.mgmt.destroy = false ∧
    (let s := mgmts (fun m => { m with keyIndex := 2 ^ 40 - 1 }) creating
     s.mgmt.keyIndex < 2 ^ 40 ∧ s.serves = true) ∧
    (let s := mgmts (fun m => { m with nonce := some 1, kek := some 2 }) State.reset
     s.mgmt.nonce = some 1 ∧ s.mgmt.kek = some 2 ∧ (s.key 63).ctx = none) ∧
    (let image : Firmware := ⟨true, State.reset.mgmt.fuseVer, 0⟩
     image.sigOk = true ∧ State.reset.mgmt.fuseVer ≤ image.secVer ∧ (mgmts (fun m => { m with recovery := true }) State.reset).mgmt.recovery = true) ∧
    State.reset.mgmt.ckpt = false ∧
    (let s := mgmts (fun m => { m with ckptGrans := [(0, 3, 1)], ckptSlots := [(1, 5)] }) (creating)
     let s := mgmts (fun m => { m with grans := [(0, 3, 1)] }) s
     s.mgmt.ckpt = false ∧ s.mgmt.ckptGrans ≠ [] ∧ s.mgmt.ckptGrans = s.mgmt.grans ∧ ∀ x ∈ s.mgmt.ckptSlots, (s.key x.2).imported = true) := by
  decide +kernel

/-! #### Exceptions and addresses -/

/-- The group's one lane can take an exception, whose tag every handler frame matches here, and a test holds of it. -/
def takes (s : State) (o : GOp) (test : Group → Fibre → Bool) : Bool :=
  match s.group with
  | some gr => (match gr.fs with
    | [f] => gr.sound s && gr.run.done.isEmpty && gr.run.wait == .none && !isTrailerOp (gr.run.word.toNat % 1024) && !f.helper && s.noFill f.key && (f.handlerFor 0x32).isSome && (f.handlerFor 0x31).isSome &&
      (f.handlerFor 0x20).isSome && (f.handlerFor 0x33).isSome && (f.handlerFor 0x34).isSome && ((s.heap f.ctx).takeBlock (s.cdesc f.ctx)).any (fun b => (s.heapFault f.ctx b.1).isNone) &&
      f.guard o.guard && test gr f
    | _ => false)
  | none => false
/-- Register v64 of a frame with F 64. -/
def atIssue (op : Nat) (i : Instr) (o : GOp) : Bool :=
  let s := stage i []
  takes s o fun _ f => (gRow op).any fun r => match s.preG f op o r .go with
    | .fault x => x.tag != 2 && x.tag != 0
    | _ => false
/-- Infinity less infinity, infinity times zero: NV, whose enable bit is set. -/
def arithAt (op : Nat) (i : Instr) (o : GOp) (r : State → Fibre → FRes) : Bool :=
  let s := (stage i [0x7F800000, 0, 0xFF800000, 0, 0x7F800000, 0, 0]).modFibre 1 fun f => { f with fstat := 0x100 }
  takes s o fun _ f => s.clearLane op o f && f.trapped (r s f).flags != 0
def b2 : GOp := g (.v 4) (r 64) (r 2) z
def b3 : GOp := g (.v 4) (r 64) (r 2) (r 6)
theorem witness_FaultsAreTaken :
    (atIssue 0x000 (.iadd b2) b2 && atIssue 0x001 (.isub b2) b2 && atIssue 0x002 (.imul b2) b2 && atIssue 0x004 (.imad b3) b3 &&
      atIssue 0x006 (.iadd64 b2) b2 && atIssue 0x00C (.andb b2) b2 && atIssue 0x011 (.shl b2) b2 &&
      (let o := g (.q 1) (r 64) (r 2) z
       atIssue 0x01A (.isetp o) o) && (let o := g (.v 4) (r 64) z z
       atIssue 0x01C (.mov o) o) && atIssue 0x080 (.fadd b2) b2 && atIssue 0x082 (.fmul b2) b2 && atIssue 0x083 (.ffma b3) b3) = true ∧
    (arithAt 0x080 (.fadd o2) o2 (from32 .f32 o2 fun a b _ => fp32.add 0 (modA 0 (fp32.decode a)) (modB 0 (fp32.decode b))) &&
      (let o := g (.v 8) (r 0) (r 4) z
       arithAt 0x081 (.fsub o) o (from32 .f32 o fun a b _ => fp32.add 0 (modA 0 (fp32.decode a)) (modB 0 (fp32.decode b)).negate)) &&
      (let o := g (.v 8) (r 0) (r 1) z
       arithAt 0x082 (.fmul o) o (from32 .f32 o fun a b _ => fp32.mul 0 (modA 0 (fp32.decode a)) (modB 0 (fp32.decode b)))) &&
      (let o := g (.v 8) (r 0) (r 1) (r 6)
       arithAt 0x083 (.ffma o) o (from32 .f32 o fun a b c => fp32.fma 0 (modA 0 (fp32.decode a)) (modB 0 (fp32.decode b)) (modC 0 (fp32.decode c))))) = true ∧
    (let o := g .none (r 0) z z 0 10
     let s := stage (.movsw o) []
     takes s o fun _ f => s.clearLane 0x309 o f && (s.launch f.ctx f.launch).all fun l => !l.priv) = true ∧
    (let o := g .none (r 0) z z 0 0x10
     let s := stage (.barinit o) []
     takes s o fun gr f => s.clearLane 0x300 o f && (s.crew gr.run.crew).any fun c => c.team.isNone) = true ∧
    (let o := g (.v 4) (r 0) z z 2
     let s := stage (.ld o) [0x18001, 0]
     takes s o fun _ f => s.clearLane 0x280 o f && (match ldCheck s o f with
       | .fault x => x.tag == 0x34 && !s.roleWait (s.who f) x
       | _ => false)) = true ∧
    (let o := g .none (r 0) (r 4) z 2
     let s := stage (.st o) [0x1807E, 0]
     takes s o fun _ f => s.clearLane 0x281 o f && (match stCheck s o f with
       | .fault x => x.tag == 0x34 && !s.roleWait (s.who f) x
       | _ => false)) = true := by decide +kernel
/-- The root handler is frame 1 of the chain; a fibre of one frame has none. -/
theorem witness_EffectsReachTheirHandlers :
    (let s := world id
     ofFibre s fun f => f.key == 1 && (s.ctx f.ctx).isSome && (f.handlerFor 0x11 == some 1) && f.chain[1]?.isSome &&
       ((s.heap f.ctx).takeBlock (s.cdesc f.ctx)).any fun b => (s.heapFault f.ctx b.1).isNone) = true ∧
    (let s := withFibre fun f => { f with chain := f.chain.take 1 }
     ofFibre s fun f => f.key == 1 && (s.ctx f.ctx).isSome && (f.handlerFor 0x11).isNone) = true := by decide +kernel
theorem witness_ResumesRestore :
    (let s := (world id).putHeap 1 { heap0 with blocks := [(0x208000, { block0 with eff := { block0.eff with fault := true } })] }
     ofFibre s fun f => f.key == 1 && (match s.ctx f.ctx with
       | some c => let b := c.heap.block 0x208000
         decide (1 ≤ b.frames.length) && (cellOfFid b.eff.fid).isNone && b.eff.fault
       | none => false)) = true := by decide +kernel
/-- The page at 0x2_0000 without W, a frame-heap page at 0x3_0000, a page of another owner's granule at 0x4_0000, none at 0x5_0000, a view
page of format 2 at 0x6_0000. -/
def paged : State :=
  let s := world id
  let leaf (a attr base : Nat) (m : List Host.Cell) : List Host.Cell := cellsWrite m a (leBytes 8 (3 + attr + 2 ^ 20 * (base / 256)))
  { s with dev := leaf 0x14010 0 0x20000 (leaf 0x14018 0x14 0x20000 (leaf 0x14020 4 0x30000 (leaf 0x14030 0x504 0x20000 s.dev))) }
theorem witness_AddressesAreChecked :
    (let s := paged
     let leaf (a : Nat) (test : Leaf → Bool) : Bool := match s.walk 1 a with
       | .ok lf => decide (a < winBase) && decide (lf.loc ≠ 3) && !s.deadPage 1 a lf.pte && test lf
       | .error _ => false
     (match s.walk 1 0x50000 with
       | .ok _ => false
       | .error _ => true) && leaf 0x20000 (fun lf => !lf.w) && leaf 0x30000 (fun lf => lf.w && (lf.fh || lf.fc)) &&
       leaf 0x4FFFF (fun lf => decide (lf.loc = 0) && lf.view.isNone && decide (s.granOwner ((lf.base + 0x4FFFF % lf.size) / 65536) ≠ some 1)) &&
       leaf 0x1FFFC (fun lf => lf.w && !lf.fh && !lf.fc && lf.view.isNone && !(s.cdesc 1).inRegion 0x1FFFC && decide (lf.loc = 0) &&
         decide (s.granOwner ((lf.base + 0x1FFFC % lf.size) / 65536) = some 1)) &&
       (match s.resolve ⟨1, 16, 0, none⟩ 0x1FFFC 4 4 true with
         | .ok (.mem _ _) => true
         | _ => false) &&
       (match s.resolve ⟨1, 16, 0, none⟩ 0x20FFFC 4 4 false, s.resolve ⟨1, 16, 0, none⟩ 0x6FFFC 4 4 true with
         | .ok (.region _ p), .ok (.view _ _ _ _ loc) => decide (p.sp = .dev ∧ loc = 0)
         | _, _ => false) &&
       (match s.resolve ⟨1, 16, 383, none⟩ (BitVec.ofNat 64 (winBase + 0x1FFFFC)) 4 4 true with
         | .ok (.mem p loc) => decide (p.sp = .sram ∧ loc = 4)
         | _ => false)) = true := by decide +kernel

/-! #### The whole machine -/

theorem witness_DecodeAndEncodeAgree : (Instr.iadd o2).wellFormed = true ∧ (encodeSlot (.iadd o2)).isSome = true ∧
    decodeSlot 0x384 = .ok (.xmmaz 0 0 0) ∧ (encodeDyzil .dyzilDone).isSome = true ∧ decodeDyzil 0x00040B01 = some (.dyzilLdp 11 4) := by decide
def goesOn (s : State) : Bool := match step s with
  | .next _ => true
  | _ => false
def placed : State := State.reset.placeSlot ((encodeSlot (.nop (g (.v 0) z z z))).getD 0)
theorem witness_StepKeepsMemory : State.reset.memOk = true ∧ placed.memOk = true ∧ goesOn placed = true := by decide +kernel
theorem witness_StepRunsWhatIsDecoded :
    (match placed.nextAct with
      | (some a, u) => (match u.takeTurn a with
        | .run i v => decide (i = .nop (g (.v 0) z z z)) && (match exec i v with
          | .next _ => true
          | _ => false)
        | _ => false)
      | _ => false) = true ∧
    (let s : State := { placed with actor := .port 0 0 }
     match s.group with
     | some ⟨0, 0, r, f :: _⟩ => (match s.fetchLine f.ctx (f.pc.toNat / 64 * 64) with
       | .ok (ws, _) => (lineDefect ws false).isNone && (match slotFrom ws (f.pc.toNat % 64) with
         | some k => decide (k < 64) && (match decodeSlot (slotBits ws k) with
           | .ok _ => decide (r.count < 24)
           | .error _ => false)
         | none => false)
       | .error _ => false)
     | _ => false) = true ∧
    (let s : State := { State.reset.placeSlot 0x384 with actor := .seqr 0 0 }
     match s.seqTeam 0 0 with
     | some (_, t) => !t.seqr.halt && !s.seqIdle t && !s.seqStops t && !t.seqr.entry && (match s.fetchLine t.ctx (t.seqr.spc.toNat / 64 * 64) with
       | .ok (ws, _) => (lineDefect ws true).isNone && (match slotFrom ws (t.seqr.spc.toNat % 64) with
         | some k => decide (0x380 ≤ (ws.getD (3 * k) 0).toNat % 1024) && (match decodeSlot (slotBits ws k) with
           | .ok _ => true
           | .error _ => false)
         | none => false)
       | .error _ => false)
     | none => false) = true ∧
    (let s := State.reset.placeDyzil 0x00040B01
     (s.queue 0).any fun x => x.pkt.isSome && decide (x.wait = .none) && decide (x.steps < 256) && (decodeDyzil (x.prog.getD x.pc 0).toNat).isSome) = true ∧
    (let s := (State.reset.placeDyzil 0x00040B01).modQueue 0 fun x => { x with wait := .resume }
     decide (({ s with actor := .dyzil 0 } : State).nextQueue = some 0) && (s.queue 0).any fun x => x.satisfied && decide (x.wait = .resume) && decide (x.steps < 256) &&
       (decodeDyzil (x.prog.getD x.pc 0).toNat).isSome) = true := by
  decide +kernel

end Sys2Proof.Machine.Tests
end

section
namespace Sys2Proof.Machine

/-!
## O57: every step keeps the memories in canonical form

`memOk_f` says that the function f of the model keeps the three memories in canonical form. Most of a turn changes no memory: the few functions that write
or drop bytes (`writeAt`, `hostWrite`, `ringWrite`, `setRole`, `writeBack`, `hostStore`, `execHandoverData`, `spoilSaved`, `eraseContext`, `afterReset`,
`restoreGranule`, `loseUnit`) do so by `cellsWrite`, `tabWrite`, `Tab.set` or a filter, which the lemmas about tables cover. Every other lemma follows the
branches of its function and cites the lemmas of what each branch runs, so that `memOk_exec`, `memOk_takeTurn` and `memOk_finish` give the step.

In some proofs `exists_eq` puts a name before a function whose value the kernel would otherwise compute on open terms while it compares two matches on it.
-/

/-! ### What a result carries -/

/-- The state of an outcome keeps its memories; a fault or a refusal carries none. -/
@[reducible] def Out.MemOk : Out → Prop
  | .next s => s.memOk
  | _ => True
@[reducible] def OutOk : Option Out → Prop
  | some o => Out.MemOk o
  | none => True
/-- The state that st finds in an optional result. -/
@[reducible] def SomeOk {α : Type} (st : α → State) : Option α → Prop
  | some x => (st x).memOk
  | none => True
/-- The state that st finds in a result that did not fail. -/
@[reducible] def DoneOk {α ε : Type} (st : α → State) : Except ε α → Prop
  | .ok x => (st x).memOk
  | .error _ => True
@[reducible] def ReadOk {α β : Type} : Except (α × State) (State × β) → Prop
  | .ok r => r.1.memOk
  | .error e => e.2.memOk
@[reducible] def EitherOk : State ⊕ State → Prop
  | .inl s => s.memOk
  | .inr s => s.memOk
@[reducible] def RefOut.MemOk : RefOut → Prop
  | .done s => s.memOk
  | .refcount s _ => s.memOk
@[reducible] def Got.MemOk : Got → Prop
  | .more s => s.memOk
  | .bytes s _ _ => s.memOk
  | .fault s _ => s.memOk
@[reducible] def EngRead.MemOk : EngRead → Prop
  | .data a => a.s.memOk
  | _ => True
@[reducible] def FeOut.MemOk : FeOut → Prop
  | .ok s _ _ => s.memOk
  | .err s => s.memOk
  | _ => True
@[reducible] def SeqOut.MemOk : SeqOut → Prop
  | .go s => s.memOk
  | .at_ s _ => s.memOk
  | .wait s => s.memOk
  | .fault _ => True
@[reducible] def SeqRun.MemOk : SeqRun → Prop
  | .all s _ _ => s.memOk
  | .later s _ _ _ => s.memOk
  | .err s => s.memOk
  | .bad _ => True
@[reducible] def CplOut.MemOk : CplOut → Prop
  | .made s => s.memOk
  | .ask s _ => s.memOk
  | _ => True
@[reducible] def Claimed.MemOk : Claimed → Prop
  | .got s _ _ => s.memOk
  | .fault s _ => s.memOk
  | .wait => True
  | .lost s => s.memOk
@[reducible] def Filled.MemOk : Filled → Prop
  | .done s _ => s.memOk
  | .wait s _ => s.memOk
  | .fault => True
@[reducible] def PeerOut.MemOk : PeerOut → Prop
  | .wait s => s.memOk
  | .fault _ => True
  | .go s _ => s.memOk
@[reducible] def TurnOut.MemOk : TurnOut → Prop
  | .run _ s => s.memOk
  | .done s => s.memOk

/-- What an instruction does for one lane of an access keeps the memories. -/
def MemAct.Keeps (a : MemAct) : Prop := ∀ s acts m x, s.memOk → SomeOk id (a.perform s acts m x)
/-- Both ways on of a memory instruction keep the memories. -/
structure MemKind.Keeps (k : MemKind) : Prop where
  act : ∀ s g acts todo, s.memOk → (k.act s g acts todo).memOk
  again : ∀ s g n, s.memOk → (k.again s g n).memOk

section
variable {s t : State} {α β ε : Type}

/-! ### Taking a result apart -/

theorem memOk_of_eq (st : α → State) {x y : α} (h : (st x).memOk) (e : x = y) : (st y).memOk := e ▸ h
theorem holds_of_eq {P : α → Prop} {x y : α} (h : P x) (e : x = y) : P y := e ▸ h
theorem memOk_of_fst {x : State × α} {a : α} (h : x.1.memOk) (e : x = (t, a)) : t.memOk := memOk_of_eq Prod.fst h e
theorem memOk_of_snd {x : α × State} {a : α} (h : x.2.memOk) (e : x = (a, t)) : t.memOk := memOk_of_eq Prod.snd h e
theorem memOk_of_some_by {st : α → State} {o : Option α} {a : α} (h : SomeOk st o) (e : o = some a) : (st a).memOk := holds_of_eq (P := SomeOk st) h e
theorem memOk_of_some {o : Option State} (h : SomeOk id o) (e : o = some t) : t.memOk := memOk_of_some_by h e
theorem memOk_of_some_fst {o : Option (State × α)} {a : α} (h : SomeOk Prod.fst o) (e : o = some (t, a)) : t.memOk := memOk_of_some_by h e
theorem memOk_of_ok {o : Except ε State} (h : DoneOk id o) (e : o = .ok t) : t.memOk := holds_of_eq (P := DoneOk id) h e

/-! ### Branches, folds and maps -/

theorem memOk_ite {c : Prop} [Decidable c] (h : s.memOk) (h' : t.memOk) : (if c then s else t).memOk := by
  split
  · exact h
  · exact h'
theorem outOk_ite {c : Prop} [Decidable c] {o o' : Out} (h : o.MemOk) (h' : o'.MemOk) : (if c then o else o').MemOk := by
  split
  · exact h
  · exact h'
theorem memOk_fold (st : β → State) {f : β → α → β} {l : List α} {b : β} (h : (st b).memOk) (hf : ∀ b a, (st b).memOk → (st (f b a)).memOk) :
    (st (l.foldl f b)).memOk :=
  List.foldlRecOn (motive := fun b => (st b).memOk) l f h fun b hb a _ => hf b a hb
theorem memOk_each {f : State → α → State} {l : List α} (h : s.memOk) (hf : ∀ s a, s.memOk → (f s a).memOk) : (l.foldl f s).memOk :=
  memOk_fold id h hf
theorem someOk_map {st : α → State} {st' : β → State} {f : α → β} {o : Option α} (h : SomeOk st o) (hf : ∀ a, (st a).memOk → (st' (f a)).memOk) :
    SomeOk st' (o.map f) := by
  cases o with
  | none => trivial
  | some a => exact hf a h
theorem someOk_mapAll {st : β → State} {f : α → β} {o : Option α} (hf : ∀ a, (st (f a)).memOk) : SomeOk st (o.map f) := by
  cases o with
  | none => trivial
  | some a => exact hf a
theorem someOk_findSome {st : β → State} {f : α → Option β} {l : List α} (h : ∀ a, SomeOk st (f a)) : SomeOk st (l.findSome? f) := by
  cases e : l.findSome? f with
  | none => trivial
  | some b =>
    obtain ⟨a, _, ha⟩ := List.exists_of_findSome?_eq_some e
    exact memOk_of_some_by (h a) ha

/-! ### The writes themselves -/

theorem memOk_iff : s.memOk ↔ (Memory.wf s.dev ∧ Memory.wf s.host) ∧ risesFrom 0 s.sram := by
  unfold State.memOk
  rw [Bool.and_eq_true, Bool.and_eq_true]
theorem memOk_hostBytes {a : Nat} {bs : List Byte} (h : s.memOk) : State.memOk { s with host := cellsWrite s.host a bs } :=
  State.memOk_host h a bs rfl rfl rfl
theorem memOk_devBytes {a : Nat} {bs : List Byte} (h : s.memOk) : State.memOk { s with dev := cellsWrite s.dev a bs } :=
  State.memOk_dev h a bs rfl rfl rfl
theorem memOk_devKept {p : Host.Cell → Bool} (h : s.memOk) : State.memOk { s with dev := s.dev.filter p } :=
  have ⟨⟨hdev, hhost⟩, hsram⟩ := memOk_iff.mp h
  memOk_iff.mpr ⟨⟨Memory.wf_filter p hdev, hhost⟩, hsram⟩
theorem memOk_sramOf {m : List Host.Cell} (h : s.memOk) (hm : risesFrom 0 m) : State.memOk { s with sram := m } :=
  memOk_iff.mpr ⟨(memOk_iff.mp h).1, hm⟩
theorem memOk_sramKept {p : Host.Cell → Bool} (h : s.memOk) : State.memOk { s with sram := s.sram.filter p } :=
  memOk_sramOf h (risesFrom_filter p (memOk_iff.mp h).2)
end

section
variable {s : State}

/-! ### Registers and tables -/
theorem memOk_putFibre {f : Fibre} (h : s.memOk) : (s.putFibre f).memOk := h
theorem memOk_putFibres {fs : List Fibre} (h : s.memOk) : (s.putFibres fs).memOk := by
  induction fs generalizing s with
  | nil => exact h
  | cons f r ih => exact ih (memOk_putFibre h)
theorem memOk_modFibre {k : Nat} {g : Fibre → Fibre} (h : s.memOk) : (s.modFibre k g).memOk := by
  unfold State.modFibre
  split
  · exact memOk_putFibre h
  · exact h
theorem memOk_putCrew {k : Nat} {c : Crew} (h : s.memOk) : (s.putCrew k c).memOk := h
theorem memOk_putTeam {k : Nat} {t : Team} (h : s.memOk) : (s.putTeam k t).memOk := h
theorem memOk_putCtx {c : Nat} {x : Ctx} (h : s.memOk) : (s.putCtx c x).memOk := h
theorem memOk_putLaunch {l : Launch} (h : s.memOk) : (s.putLaunch l).memOk := h
theorem memOk_putHeap {ctx : Nat} {y : Heap} (h : s.memOk) : (s.putHeap ctx y).memOk := by
  unfold State.putHeap
  split
  · exact memOk_putCtx h
  · exact h
theorem memOk_newKey (h : s.memOk) : s.newKey.2.memOk := h
theorem memOk_newSeed (h : s.memOk) : s.newSeed.2.memOk := h
theorem memOk_putCC {ctx core : Nat} {c : CoreCtx} (h : s.memOk) : (s.putCC ctx core c).memOk := h
theorem memOk_putCLC {ctx cl : Nat} {c : ClusterCtx} (h : s.memOk) : (s.putCLC ctx cl c).memOk := h
theorem memOk_putChan {ctx cl ch : Nat} {c : Chan} (h : s.memOk) : (s.putChan ctx cl ch c).memOk := memOk_putCLC h
theorem memOk_putCluster {cl : Nat} {c : Cluster} (h : s.memOk) : (s.putCluster cl c).memOk := h
theorem memOk_putPort {core p : Nat} {r : PortRun} (h : s.memOk) : (s.putPort core p r).memOk := h
theorem memOk_freePort {core p : Nat} (h : s.memOk) : (s.freePort core p).memOk := h
theorem memOk_putKey {k : Nat} {x : KeySlot} (h : s.memOk) : (s.putKey k x).memOk := h
theorem memOk_putPart {p : Nat} {x : Part} (h : s.memOk) : (s.putPart p x).memOk := h
theorem memOk_putQueue {q : Nat} {x : Queue} (h : s.memOk) : (s.putQueue q x).memOk := h
theorem memOk_putQreg {q : Nat} {x : QRegs} (h : s.memOk) : (s.putQreg q x).memOk := h
theorem memOk_msix {v : Nat} (h : s.memOk) : (s.msix v).memOk := h
theorem memOk_modSummary {ctx : Nat} {g : Summary → Summary} (h : s.memOk) : (s.modSummary ctx g).memOk := by
  unfold State.modSummary
  split
  · exact memOk_putKey h
  · exact h

/-! ### Lines, caches and walks -/
theorem memOk_logError {kind found ctx pa core : Nat} (h : s.memOk) : (s.logError kind found ctx pa core).memOk := memOk_msix h
theorem memOk_flushWays {core : Nat} {banks : Nat → Bool} (h : s.memOk) : (s.flushWays core banks).memOk := by
  unfold State.flushWays
  extract_lets s1 s2
  have h1 : s1.memOk := memOk_each h (fun _ _ h' => memOk_evictLine h' _ _)
  have h2 : s2.memOk := by
    unfold s2
    split <;> exact h1
  clear_value s1 s2
  split <;> exact h2
theorem memOk_segTouch {ctx core va : Nat} (h : s.memOk) : (s.segTouch ctx core va).memOk := by
  unfold State.segTouch
  extract_lets
  split
  · exact h
  · exact (memOk_bump _ _ _ _ _).trans (memOk_makeRoom h _ _)
theorem memOk_regTouch {f : Fibre} {write : Bool} {r : Nat} (h : s.memOk) : (s.regTouch f write r).memOk := by
  unfold State.regTouch
  extract_lets
  split
  · exact h
  · exact memOk_segTouch h
theorem memOk_regEvictable {ks : List Nat} (h : s.memOk) : (s.regEvictable ks).memOk := by
  unfold State.regEvictable; split <;> exact h
theorem memOk_regGone {k : Nat} (h : s.memOk) : (s.regGone k).memOk := by
  unfold State.regGone; split <;> exact h
theorem memOk_readParts {ag : Agent} {va : Nat} {p : PA} {n : Nat} {ps : List (PA × Nat)} (h : s.memOk) : (s.readParts ag va p n ps).s.memOk := by
  unfold State.readParts
  extract_lets s1 s2
  have h1 : s1.memOk := h
  have h2 : s2.memOk := memOk_each h1 (fun _ _ h' => memOk_merge h' _ _)
  clear_value s1 s2
  split
  next s3 e =>
    have h3 : s3.memOk := by
      refine memOk_of_snd ?_ e
      exact memOk_fold Prod.snd h2 (fun _ _ h' => memOk_readCheck h' _ _ _)
    exact memOk_countAccess (memOk_logAccess (memOk_each h3 (fun _ _ h' => memOk_grant h' _ _ _ _ _)) _ _ _ _) _ _ _
theorem memOk_readSpan {ag : Agent} {va : Nat} {p : PA} {n : Nat} (h : s.memOk) : (s.readSpan ag va p n).s.memOk := by
  unfold State.readSpan
  split
  · exact memOk_readAt h _ _ _ _
  · exact memOk_readParts h
theorem memOk_writeSpan {ag : Agent} {va : Nat} {p : PA} {bs : List Byte} (h : s.memOk) : (s.writeSpan ag va p bs).s.memOk := by
  unfold State.writeSpan
  split
  · exact memOk_writeAt h _ _ _ _
  · extract_lets s1 _ s2
    have h1 : s1.memOk := memOk_each h (fun _ _ h' => memOk_merge h' _ _)
    have h2 : s2.memOk := memOk_each h1 (fun _ _ h' => memOk_writeLine h' _ _ _ _)
    clear_value s1 s2
    exact memOk_countAccess (memOk_logAccess h2 _ _ _ _) _ _ _
theorem memOk_countBacking {ag : Agent} {p : PA} (h : s.memOk) : (s.countBacking ag p).memOk := by
  unfold State.countBacking
  split
  · exact h
  · extract_lets
    split
    · exact memOk_countAccess h _ _ _
    · exact h
theorem memOk_walkLoads {ag : Agent} {va : Nat} (h : s.memOk) : (s.walkLoads ag va).s.memOk :=
  memOk_fold Acc.s h (fun _ _ h' => memOk_countBacking ((memOk_putLine _ _ _).trans (memOk_readCheck (memOk_merge h' _ _) _ _ _)))
theorem memOk_prepLine {ag : Agent} {la : Nat} (h : s.memOk) : (s.prepLine ag la).memOk := by
  unfold State.prepLine
  split
  · exact h
  · extract_lets r1
    have h1 : r1.s.memOk := memOk_walkLoads h
    clear_value r1
    split
    · exact (memOk_stopFor _ _).trans h1
    · split
      · exact h1
      · split
        · exact h1
        · extract_lets
          split
          next e =>
            have h2 := memOk_of_snd (memOk_readCheck (memOk_merge h1 _ _) _ _ _) e
            split
            · exact (memOk_stopFor _ _).trans h2
            · exact h2

/-! ### Tasks, futures, continuations and what a fibre holds -/
theorem memOk_stampAccess {k : Nat} (h : s.memOk) : (s.stampAccess k).memOk := memOk_modFibre h
theorem memOk_placeAt {ctx va ts : Nat} {wr : Bool} (h : s.memOk) : (s.placeAt ctx va ts wr).2.memOk := by
  unfold State.placeAt
  split
  · exact h
  · exact (memOk_putLine _ _ _).trans h
theorem memOk_heapAccess {k va : Nat} {wr : Bool} (h : s.memOk) : (s.heapAccess k va wr).memOk := by
  unfold State.heapAccess
  split
  · exact h
  · exact memOk_modFibre (memOk_placeAt h)
theorem memOk_heapWrote {ctx va n : Nat} (h : s.memOk) : (s.heapWrote ctx va n).memOk := by
  unfold State.heapWrote
  split
  · exact h
  · extract_lets
    split
    · exact (memOk_putLine _ _ _).trans h
    · exact h
theorem memOk_retestWaitm {ck m : Nat} (h : s.memOk) : (s.retestWaitm ck m).memOk := by
  unfold State.retestWaitm
  split
  · exact h
  · extract_lets
    split
    · exact memOk_putFibres h
    · exact h
theorem memOk_retestMasks {ck : Nat} (h : s.memOk) : (s.retestMasks ck).memOk := memOk_each h (fun _ _ h' => memOk_retestWaitm h')
theorem memOk_judgeAll (h : s.memOk) : s.judgeAll.memOk := memOk_putFibres h
theorem memOk_arriveBar {tk n ts : Nat} (h : s.memOk) : (s.arriveBar tk n ts).memOk := by
  unfold State.arriveBar
  split
  · exact h
  · exact memOk_judgeAll (memOk_putTeam h)
theorem memOk_fileTask {cl : Nat} {t : Task} (h : s.memOk) : (s.fileTask cl t).memOk := memOk_putCluster h
theorem memOk_arrive {cl : Nat} {t : WaitTask} (h : s.memOk) : (s.arrive cl t).memOk := memOk_putCluster h
theorem memOk_handOver {ctx : Nat} {k : DWord} {b : Word} {ts : Nat} (h : s.memOk) : (s.handOver ctx k b ts).memOk := memOk_arrive (memOk_newKey h)
theorem memOk_modCell {ctx i : Nat} {g : Cell → Cell} (h : s.memOk) : (s.modCell ctx i g).memOk := memOk_putHeap h
theorem memOk_freeNodes {ctx : Nat} {ns : List Node} (h : s.memOk) : (s.freeNodes ctx ns).memOk := memOk_putHeap h
theorem memOk_handTaken {ctx : Nat} {ws : List Node} {ts : Nat} (h : s.memOk) : (s.handTaken ctx ws ts).memOk := by
  unfold State.handTaken
  extract_lets s1
  have h1 : s1.memOk := memOk_freeNodes h
  clear_value s1
  refine memOk_each h1 fun t2 _ h2 => ?_
  extract_lets s3
  have h3 : s3.memOk := memOk_handOver h2
  clear_value s3
  split
  · exact memOk_modCell h3
  · exact h3
theorem memOk_handWaiters {ctx i : Nat} (h : s.memOk) : (s.handWaiters ctx i).memOk := memOk_handTaken (memOk_modCell h)
theorem memOk_failCell {ctx i : Nat} {tag : BitVec 16} (h : s.memOk) : (s.failCell ctx i tag).memOk := by
  unfold State.failCell
  extract_lets
  split
  · exact memOk_handWaiters (memOk_modCell h)
  · exact h
theorem memOk_tidyCell {ctx i : Nat} (h : s.memOk) : (s.tidyCell ctx i).memOk := by
  unfold State.tidyCell
  extract_lets
  split
  · split
    · exact memOk_putHeap h
    · exact h
  · exact h
theorem memOk_endTask {id : Nat} (h : s.memOk) : (s.endTask id).memOk := by
  unfold State.endTask; split <;> exact h
theorem memOk_dropTasks {ctx : Nat} {p : Nat → Word → Bool} (h : s.memOk) : (s.dropTasks ctx p).memOk :=
  memOk_each h (fun _ _ h' => memOk_ite (memOk_each (memOk_ite h' (memOk_putCluster h')) (fun _ _ h'' => memOk_endTask h''))
    (memOk_putHeap (memOk_each (memOk_ite h' (memOk_putCluster h')) (fun _ _ h'' => memOk_endTask h''))))
theorem memOk_reopen {ctx : Nat} {k : DWord} (h : s.memOk) : (s.reopen ctx k).memOk := by
  unfold State.reopen
  refine memOk_each h fun t1 _ h1 => ?_
  split
  · exact h1
  · split
    · exact memOk_judgeAll (memOk_putCLC h1)
    · exact h1
theorem memOk_reopenQueue {ctx cl ch : Nat} (h : s.memOk) : (s.reopenQueue ctx cl ch).memOk := memOk_judgeAll (memOk_putCLC h)
theorem memOk_consume {ctx a : Nat} (h : s.memOk) : (s.consume ctx a).memOk := memOk_reopen (memOk_putHeap h)
theorem memOk_clearCont {ctx : Nat} {k : DWord} {fid : Word} (h : s.memOk) : (s.clearCont ctx k fid).memOk := by
  unfold State.clearCont
  split
  · split
    · exact memOk_tidyCell (memOk_modCell h)
    · exact h
  · exact h
theorem memOk_vaCheck {ctx va n : Nat} (h : s.memOk) : (s.vaCheck ctx va n).2.memOk := by
  unfold State.vaCheck
  split
  · split
    · exact memOk_fold Prod.snd h (fun _ _ h' => memOk_readCheck h' _ _ _)
    · exact h
  · exact h
theorem memOk_segsCheck {ctx : Nat} {gs : List Seg} (h : s.memOk) : (s.segsCheck ctx gs).2.memOk :=
  memOk_fold Prod.snd h (fun _ _ h' => memOk_fold Prod.snd h' (fun _ _ h'' => memOk_vaCheck h''))
theorem memOk_segsErr {ctx : Nat} {gs : List Seg} (h : s.memOk) : (s.segsErr ctx gs).2.memOk := by
  unfold State.segsErr
  split
  · exact memOk_segsCheck h
  · exact h
theorem memOk_blockErr {ctx a : Nat} (h : s.memOk) : (s.blockErr ctx a).2.memOk := by
  unfold State.blockErr
  split
  · exact memOk_vaCheck (memOk_vaCheck h)
  · exact h
theorem memOk_blockWordErr {ctx a : Nat} (h : s.memOk) : (s.blockWordErr ctx a).2.memOk := by
  unfold State.blockWordErr
  split
  · exact memOk_vaCheck h
  · exact h
theorem memOk_damage {ctx a : Nat} (h : s.memOk) : (s.damage ctx a).memOk := by
  unfold State.damage
  extract_lets _ _ s1 s2
  have h1 : s1.memOk := memOk_putHeap h
  have h2 : s2.memOk := memOk_modSummary (memOk_reopen h1)
  clear_value s1 s2
  split
  · split
    · exact memOk_tidyCell (memOk_failCell (memOk_modCell h2))
    · exact h2
  · exact h2
theorem memOk_freeCont {ctx a : Nat} (h : s.memOk) : (s.freeCont ctx a).memOk := memOk_putHeap h
theorem memOk_dropCont {ctx a : Nat} (h : s.memOk) : (s.dropCont ctx a).1.memOk := by
  unfold State.dropCont
  extract_lets
  split
  next e =>
    have h1 := memOk_of_snd (memOk_blockErr h) e
    split
    next e =>
      have h2 := memOk_of_snd (memOk_segsErr h1) e
      split
      · exact memOk_damage h2
      · exact memOk_clearCont (memOk_consume h2)
theorem memOk_unpark {ctx : Nat} {p : Nat → Node → Bool} (h : s.memOk) : (s.unpark ctx p).memOk := by
  unfold State.unpark
  extract_lets
  split
  · exact h
  · exact memOk_freeNodes (memOk_putHeap h)
theorem memOk_dropParked {ctx : Nat} {hs : List DWord} (h : s.memOk) : (s.dropParked ctx hs).1.memOk := by
  unfold State.dropParked
  refine memOk_fold Prod.fst h fun r1 _ h1 => ?_
  split
  · exact memOk_dropCont h1
  · exact h1
theorem memOk_reclaimCell {ctx i : Nat} (h : s.memOk) : (s.reclaimCell ctx i).1.memOk := by
  unfold State.reclaimCell
  extract_lets _ s1 s2 s3 s4
  have h1 : s1.memOk := memOk_modCell h
  have h2 : s2.memOk := by
    unfold s2
    split
    · exact memOk_putFibres h1
    · exact h1
  have h3 : s3.memOk := by
    unfold s3
    split
    · split
      · exact memOk_modCell (memOk_unpark h2)
      · exact h2
    · exact h2
  have h4 : s4.memOk := memOk_dropTasks h3
  clear_value s1 s2 s3 s4
  split
  next s5 _ e =>
    have h5 : s5.memOk := by
      refine memOk_of_fst ?_ e
      split
      · split
        · exact memOk_putHeap h4
        · exact memOk_dropCont h4
      · exact h4
    exact memOk_tidyCell (memOk_dropParked (memOk_unpark h5))
theorem memOk_releaseRef {ctx : Nat} {y : DWord} (h : s.memOk) : (s.releaseRef ctx y).1.memOk := by
  unfold State.releaseRef
  split
  · exact h
  · split
    · exact memOk_modSummary h
    · split
      · exact memOk_modSummary h
      · extract_lets s1
        have h1 : s1.memOk := memOk_modCell h
        clear_value s1
        split
        · exact memOk_reclaimCell h1
        · exact h1
theorem memOk_releaseFuel {n ctx : Nat} {ws : List Work} (h : s.memOk) : (State.releaseFuel n s ctx ws).memOk := by
  induction n generalizing s ws with
  | zero => exact h
  | succ n ih =>
    match ws with
    | [] => exact h
    | .free _ :: _ => exact ih (memOk_freeCont h)
    | .node _ :: _ => exact ih (memOk_freeNodes (memOk_releaseRef h))
theorem memOk_release {ctx : Nat} {ws : List Work} (h : s.memOk) : (s.release ctx ws).memOk := memOk_releaseFuel h
theorem memOk_releaseOwned {ctx : Nat} {k : Option Nat} {ns : List Node} (h : s.memOk) : (s.releaseOwned ctx k ns).memOk := by
  unfold State.releaseOwned
  extract_lets s1
  have h1 : s1.memOk := by
    unfold s1
    split
    · exact memOk_each h (fun _ _ h' => memOk_heapAccess h')
    · exact h
  clear_value s1
  exact memOk_release h1
theorem memOk_leaveMasks {ck lane : Nat} (h : s.memOk) : (s.leaveMasks ck lane).memOk := by
  unfold State.leaveMasks
  split
  · exact h
  · exact memOk_retestMasks (memOk_putCrew h)
theorem memOk_freeSeqr {tk : Nat} {t : Team} (h : s.memOk) : (s.freeSeqr tk t).memOk := memOk_putCLC (memOk_putCC h)
theorem memOk_retireTeam {tk : Nat} {t : Team} (h : s.memOk) : (s.retireTeam tk t).memOk := show (s.freeSeqr tk t).memOk from memOk_freeSeqr h
theorem memOk_tidyLaunch {ctx num : Nat} (h : s.memOk) : (s.tidyLaunch ctx num).memOk := by
  unfold State.tidyLaunch
  split
  · split <;> exact h
  · exact h
theorem memOk_landed {k ctx launch task : Nat} (h : s.memOk) : (s.landed k ctx launch task).memOk := by
  unfold State.landed
  split
  · exact h
  · exact memOk_tidyLaunch (memOk_endTask h)
theorem memOk_settleTeams (h : s.memOk) : s.settleTeams.memOk := memOk_each h (fun _ _ h' => memOk_tidyLaunch (memOk_retireTeam h'))
theorem memOk_leaveCrew {f : Fibre} (h : s.memOk) : (s.leaveCrew f).memOk := by
  unfold State.leaveCrew
  extract_lets s1
  have h1 : s1.memOk := memOk_regGone h
  clear_value s1
  split
  · exact h1
  · extract_lets _ s2 s3
    have h2 : s2.memOk := memOk_putCrew h1
    have h3 : s3.memOk := h2
    clear_value s2 s3
    split
    · split
      · exact h3
      · split
        · exact h3
        · extract_lets
          split
          · exact memOk_retireTeam h3
          · exact memOk_putTeam h3
    · exact h2
theorem memOk_noteUnhandled {ctx : Nat} {r : EffRec} (h : s.memOk) : (s.noteUnhandled ctx r).memOk := by
  unfold State.noteUnhandled
  extract_lets _ s1
  have h1 : s1.memOk := memOk_modSummary h
  clear_value s1
  split
  · exact memOk_msix h1
  · exact h1
theorem memOk_forward {k : Nat} {p : Pending} (h : s.memOk) : (s.forward k p).memOk := memOk_modFibre h
theorem memOk_passOn {ctx : Nat} {team : Option Nat} {p : Pending} (h : s.memOk) : (s.passOn ctx team p).memOk := by
  unfold State.passOn
  split
  · exact memOk_forward h
  · extract_lets s1 s2
    have h1 : s1.memOk := memOk_noteUnhandled h
    have h2 : s2.memOk := h1
    clear_value s1 s2
    split
    · exact memOk_reopenQueue h2
    · exact h2
theorem memOk_endFibre {f : Fibre} (h : s.memOk) : (s.endFibre f).memOk := by
  unfold State.endFibre
  extract_lets _ s1 s2 s3 s4 s5 s6 s7 s8 s9
  have h1 : s1.memOk := h
  have h2 : s2.memOk := memOk_leaveMasks h1
  have h3 : s3.memOk := by
    unfold s3
    split
    · split
      · exact memOk_putTeam h2
      · exact h2
    · exact h2
  have h4 : s4.memOk := memOk_releaseOwned h3
  have h5 : s5.memOk := memOk_putHeap h4
  have h6 : s6.memOk := memOk_judgeAll (memOk_leaveCrew h5)
  have h7 : s7.memOk := memOk_endTask h6
  have h8 : s8.memOk := memOk_each h7 (fun _ _ h' => memOk_passOn h')
  have h9 : s9.memOk := by
    unfold s9
    split
    · split
      · exact h8
      · exact memOk_tidyCell (memOk_modCell h8)
    · exact h8
  clear_value s1 s2 s3 s4 s5 s6 s7 s8 s9
  exact memOk_tidyLaunch h9
theorem memOk_exitFibre {k : Nat} {tag : BitVec 16} (h : s.memOk) : (s.exitFibre k tag).memOk := by
  unfold State.exitFibre
  split
  · exact h
  · extract_lets s1
    have h1 : s1.memOk := by
      unfold s1
      split
      · split
        · exact h
        · exact memOk_failCell h
      · exact h
    clear_value s1
    exact memOk_endFibre h1
theorem memOk_reclaimFibre {k : Nat} (h : s.memOk) : (s.reclaimFibre k).memOk := by
  unfold State.reclaimFibre
  split
  · exact h
  · extract_lets s1
    have h1 : s1.memOk := by
      unfold s1
      split
      · split
        · exact memOk_failCell h
        · exact h
      · exact h
    clear_value s1
    exact memOk_endFibre h1
theorem memOk_enforceCancel {ctx num : Nat} (h : s.memOk) : (s.enforceCancel ctx num).memOk := by
  unfold State.enforceCancel
  extract_lets _ s1 s2
  have h1 : s1.memOk := memOk_dropTasks h
  have h2 : s2.memOk := by
    unfold s2
    refine memOk_each h1 fun t3 _ h3 => ?_
    split
    · exact memOk_tidyCell (memOk_ite (memOk_failCell h3) h3)
    · exact h3
  clear_value s1 s2
  split
  · exact h2
  · exact memOk_release (memOk_dropParked (memOk_unpark h2))
theorem memOk_cancel {ctx num : Nat} (h : s.memOk) : (s.cancel ctx num).memOk := by
  unfold State.cancel
  split
  · exact h
  · split
    · exact h
    · exact memOk_tidyLaunch (memOk_enforceCancel (memOk_putLaunch h))
theorem memOk_settleCancel (h : s.memOk) : s.settleCancel.memOk := memOk_each h (fun _ _ h' => memOk_tidyLaunch (memOk_enforceCancel h'))

/-! ### Delivery, frames and resuming -/
theorem memOk_unhandled {f : Fibre} {r : EffRec} (h : s.memOk) : (s.unhandled f r).memOk := memOk_exitFibre (memOk_noteUnhandled h)
theorem memOk_deliver {k : Nat} {r : EffRec} {resumepc : DWord} {word : optParam Word r.arg} (h : s.memOk) : (s.deliver k r resumepc word).memOk := by
  unfold State.deliver
  split
  · exact h
  · extract_lets _ s1 f2
    have h1 : s1.memOk := (memOk_bump _ _ _ _ _).trans (memOk_putFibre h)
    have h2 : ∀ x0, (f2 x0).memOk := fun _ => memOk_unhandled h1
    clear_value s1 f2
    split
    · exact memOk_unhandled h1
    · split
      · exact h2 _
      · split
        · exact h2 _
        · split
          next e =>
            have h3 := memOk_of_snd (memOk_newSeed h1) e
            extract_lets s3 s4 _ _ _ _ _ _ _ _ s5 s6
            have h4 : s3.memOk := memOk_heapWrote (memOk_heapAccess (memOk_heapAccess h3))
            have h5 : s4.memOk := by
              unfold s4
              split
              · exact memOk_heapWrote h4
              · exact h4
            have h6 : s5.memOk := memOk_putHeap h5
            have h7 : s6.memOk := by
              unfold s6
              split
              · split
                · exact memOk_modCell h6
                · exact h6
              · exact h6
            clear_value s3 s4 s5 s6
            exact memOk_putFibre h7
theorem memOk_deliverReturn {k : Nat} {arg : Word} {pc : DWord} {issue performed : Word} (h : s.memOk) :
    (s.deliverReturn k arg pc issue performed).memOk := by
  unfold State.deliverReturn
  split
  · exact h
  · split
    · exact memOk_reclaimFibre h
    · extract_lets _ s1
      have h1 : s1.memOk := (memOk_bump _ _ _ _ _).trans h
      clear_value s1
      split
      · exact memOk_putFibre h1
      · exact memOk_unhandled h1
theorem memOk_newFrame {f : Fibre} {n l : Nat} {retpc target : DWord} (h : s.memOk) : DoneOk Prod.fst (s.newFrame f n l retpc target) := by
  unfold State.newFrame
  extract_lets
  split
  · trivial
  · split
    next e =>
      have h1 := memOk_of_snd (memOk_newSeed h) e
      split
      · exact h1
      · split
        · trivial
        · split
          · trivial
          · exact memOk_putHeap h1
theorem memOk_popFrame {k : Nat} (h : s.memOk) : (s.popFrame k).memOk := by
  unfold State.popFrame
  split
  · exact h
  · extract_lets _ d1 _ _ _ _ s2 s3
    have h1 : s2.memOk := memOk_putFibre h
    have h2 : s3.memOk := memOk_releaseOwned h1
    clear_value s2 s3 d1
    split
    · exact memOk_putHeap h2
    · exact h2
theorem memOk_rejoin {k a : Nat} {b : Word} {retpc : DWord} {vd : Option Nat} (h : s.memOk) : (s.rejoin k a b retpc vd).memOk := by
  unfold State.rejoin
  split
  · exact h
  · exact memOk_putHeap (memOk_putFibre (memOk_clearCont (memOk_consume h)))
theorem memOk_resumeLane {k : Nat} {y : DWord} {b : Word} {retpc : DWord} {vd : Option Nat} (h : s.memOk) : (s.resumeLane k y b retpc vd).1.memOk := by
  unfold State.resumeLane
  split
  · exact h
  · extract_lets _ s1
    have h1 : s1.memOk := memOk_heapAccess h
    clear_value s1
    split
    next e =>
      have h2 := memOk_of_snd (memOk_blockErr h1) e
      split
      · split
        · exact memOk_damage h2
        · exact h2
      · split
        · exact h2
        · extract_lets
          split
          · exact h2
          · split
            · exact memOk_damage h2
            · split
              next e =>
                have h3 := memOk_of_snd (memOk_segsErr h2) e
                split
                · exact memOk_damage h3
                · exact memOk_rejoin h3
theorem memOk_dropLane {k : Nat} {y : DWord} (h : s.memOk) : (s.dropLane k y).1.memOk := by
  unfold State.dropLane
  split
  · exact h
  · extract_lets _ s1
    have h1 : s1.memOk := memOk_heapAccess h
    clear_value s1
    split
    next e =>
      have h2 := memOk_of_snd (memOk_blockErr h1) e
      extract_lets _ s2
      have h3 : s2.memOk := memOk_each h2 (fun _ _ h' => memOk_heapAccess h')
      clear_value s2
      split
      · exact h2
      · exact memOk_release (memOk_dropCont h3)
theorem memOk_buildFresh {l : Launch} {root entry : Seg} {f lc : Nat} {args : List Word} {future : Bool} (h : s.memOk) :
    (s.buildFresh l root entry f lc args future).1.memOk :=
  memOk_newSeed (memOk_newSeed h)
theorem memOk_dealerResume {k : Nat} {y : DWord} {b : Word} (h : s.memOk) : (s.dealerResume k y b).memOk := by
  unfold State.dealerResume
  split
  · exact h
  · split
    next e =>
      have h1 := memOk_of_fst (memOk_resumeLane h) e
      split
      · exact memOk_modCell h1
      · exact h1
    next e =>
      have h1 := memOk_of_fst (memOk_resumeLane h) e
      extract_lets _ s1 s2
      have h2 : s1.memOk := memOk_noteUnhandled h1
      have h3 : s2.memOk := h2
      clear_value s1 s2
      split
      · exact memOk_endFibre h3
      · exact h3

/-! ### Groups: faults, holding and the end of a sentence -/
theorem memOk_heldAs {w : PortWait} {g : Group} (h : s.memOk) : (s.heldAs w g).memOk := by
  unfold State.heldAs
  split
  · split
    · exact memOk_putPort h
    · exact h
  · exact h
theorem memOk_held {g : Group} (h : s.memOk) : (s.held g).memOk := memOk_heldAs h
theorem memOk_stalled {g : Group} (h : s.memOk) : (s.stalled g).memOk := by
  unfold State.stalled
  refine memOk_heldAs ?_
  split
  · exact (memOk_bump _ _ _ _ _).trans h
  · exact h
theorem memOk_counted {g : Group} (h : s.memOk) : (s.counted g).memOk := by
  unfold State.counted
  split
  · exact (memOk_bump _ _ _ _ _).trans h
  · exact h
theorem memOk_goOn {g : Group} (h : s.memOk) : (s.goOn g).memOk := memOk_putPort (memOk_putFibres (memOk_counted h))
theorem memOk_deliverAll {word : Word} {pc : DWord} {issue performed : Word} {all : List LaneDeliv} (h : s.memOk) :
    (s.deliverAll word pc issue performed all).memOk := by
  unfold State.deliverAll
  extract_lets _ _ _ _ s1 s2
  have h1 : s1.memOk := memOk_each h (fun _ _ h' => memOk_reclaimFibre h')
  have h2 : s2.memOk := by
    unfold s2
    refine memOk_each h1 fun t3 _ h3 => ?_
    split
    · exact memOk_deliver h3
    · exact h3
  clear_value s1 s2
  exact h2
theorem memOk_performCond {o : Origin} {crew : Nat} (h : s.memOk) : (s.performCond o crew).memOk := by
  unfold State.performCond
  extract_lets
  split
  next s1 e =>
    have h1 : s1.memOk := by
      refine memOk_of_snd ?_ e
      split <;> exact h
    extract_lets _ s2
    have h2 : s2.memOk := memOk_putFibres h1
    clear_value s2
    refine memOk_each h2 fun t3 _ h3 => ?_
    split
    · exact memOk_deliver h3
    · exact h3
theorem memOk_deliverPending {k : Nat} (h : s.memOk) : (s.deliverPending k).memOk := by
  unfold State.deliverPending
  split
  · exact h
  · split
    · exact h
    · extract_lets s1 _ _ s2 s3 d4
      have h1 : s1.memOk := memOk_putFibre h
      have h2 : s2.memOk := memOk_deliver h1
      have h3 : s3.memOk := h2
      clear_value s1 s2 s3 d4
      split
      · exact h3
      · split
        · exact memOk_reopenQueue h3
        · extract_lets
          split
          · exact memOk_putChan h3
          · exact memOk_putCLC h3
theorem memOk_afterTrailer {k : Nat} (h : s.memOk) : (s.afterTrailer k).memOk := by
  unfold State.afterTrailer
  split
  · exact h
  · split
    · exact memOk_endFibre h
    · split
      · exact memOk_reclaimFibre h
      · split
        · split
          · exact memOk_deliverPending h
          · exact memOk_putFibre h
        · extract_lets _ s1
          have h1 : s1.memOk := memOk_putFibre h
          clear_value s1
          split
          · exact h1
          · split
            · exact h1
            · split
              · exact memOk_performCond h1
              · exact h1
theorem memOk_keepHelpers {g : Group} {word : Word} (h : s.memOk) : (s.keepHelpers g word).memOk := by
  unfold State.keepHelpers
  extract_lets _ _ s1 s2
  have h1 : s1.memOk := memOk_putFibres h
  have h2 : s2.memOk := h1
  clear_value s1 s2
  split
  · exact memOk_freePort h2
  · split
    · exact memOk_each (memOk_freePort h2) (fun _ _ h' => memOk_afterTrailer h')
    · exact memOk_putPort h2
theorem memOk_askLine {ctx ts found la : Nat} (h : s.memOk) : (s.askLine ctx ts found la).1.memOk := by
  unfold State.askLine
  split
  · exact memOk_prepLine h
  · split
    · split
      · exact memOk_prepLine h
      · exact h
    · exact h
theorem memOk_askCode {g : Group} {ctx ts la : Nat} (h : s.memOk) : (s.askCode g ctx ts la).memOk := by
  unfold State.askCode
  split
  · exact h
  · split
    · exact memOk_held h
    · split
      next e =>
        have h1 := memOk_of_fst (memOk_askLine h) e
        exact memOk_held (memOk_putPort h1)
      next e =>
        have h1 := memOk_of_fst (memOk_askLine h) e
        exact memOk_held h1
theorem memOk_askNeeds {g : Group} {res : List (Fibre × LaneOut)} (h : s.memOk) : SomeOk id (s.askNeeds g res) := by
  unfold State.askNeeds
  cases res.findSome? (fun x => x.2.needs.map (fun la => (x.1, la))) with
  | none => trivial
  | some _ => exact memOk_askCode h
theorem memOk_groupFault {g : Group} {word : Word} {res : List (Fibre × LaneOut)} {zero : Fibre → Fibre} (h : s.memOk) :
    (s.groupFault g word res zero).memOk := by
  unfold State.groupFault
  extract_lets _ d1 s2 s3
  have h1 : s2.memOk := memOk_putFibres h
  have h2 : s3.memOk := memOk_putFibres h1
  clear_value s2 s3 d1
  split
  next e =>
    have h3 := holds_of_eq (memOk_askNeeds h) e
    exact h3
  · split
    · exact memOk_held (memOk_putFibres h)
    · split
      · exact h
      · exact memOk_keepHelpers (memOk_deliverAll h2)
theorem memOk_holdIf {g : Group} {res : List (Fibre × LaneOut)} (h : s.memOk) : SomeOk id (s.holdIf g res) := by
  unfold State.holdIf
  split
  · exact memOk_stalled h
  · split
    · exact memOk_held h
    · trivial
theorem memOk_settleLanes {g : Group} {res : List (Fibre × LaneOut)} {zero : Fibre → Fibre} {after : State → State} (h : s.memOk)
    (hafter : ∀ t, t.memOk → (after t).memOk) : (s.settleLanes g res zero after).memOk := by
  unfold State.settleLanes
  split
  · exact memOk_groupFault h
  · split
    next e =>
      have h1 := holds_of_eq (memOk_holdIf h) e
      exact h1
    · exact hafter _ (memOk_putFibres h)
theorem memOk_runG {op : Nat} {o : GOp} {lane : State → Fibre → LaneOut} (h : s.memOk) : Out.MemOk (runG op o s lane) := by
  unfold runG
  split
  · exact memOk_settleLanes h (fun _ h' => memOk_goOn h')
  · trivial
theorem memOk_runGRole {op : Nat} {o : GOp} {role : State → Group → Pre} {lane : State → Fibre → LaneOut} (h : s.memOk) :
    Out.MemOk (runGRole op o s role lane) := by
  unfold runGRole
  split
  · exact memOk_settleLanes h (fun _ h' => memOk_goOn h')
  · trivial
theorem memOk_runCrew {op : Nat} {o : GOp} {pre : State → Group → GRow → Fibre → Pre} {lane : State → Group → Fibre → LaneOut}
    {after : State → Group → State} (h : s.memOk) (hafter : ∀ t x1, t.memOk → (after t x1).memOk) : Out.MemOk (runCrew op o s pre lane after) := by
  unfold runCrew
  split
  · exact memOk_settleLanes h (fun _ h' => memOk_goOn (hafter _ _ h'))
  · trivial
theorem memOk_endSentence {g : Group} {keep : List Nat} (h : s.memOk) : (s.endSentence g keep).memOk :=
  memOk_each (memOk_putFibres (memOk_freePort (memOk_counted h))) (fun _ _ h' => memOk_afterTrailer h')
theorem memOk_lateFaults {g : Group} (h : s.memOk) : (s.lateFaults g).memOk := by
  unfold State.lateFaults
  extract_lets _ s1 s2
  have h1 : s1.memOk := memOk_each h (fun _ _ h' => memOk_reclaimFibre h')
  have h2 : s2.memOk := by
    unfold s2
    refine memOk_each h1 fun t3 _ h3 => ?_
    split
    · exact memOk_deliver (memOk_putFibre h3)
    · exact h3
  clear_value s1 s2
  split <;> exact h2
theorem memOk_settleTrailer {g : Group} {res : List (Fibre × LaneOut)} {alone : Bool} (h : s.memOk) : (s.settleTrailer g res alone).memOk := by
  unfold State.settleTrailer
  split
  · exact memOk_groupFault h
  · split
    next e =>
      have h1 := holds_of_eq (memOk_holdIf h) e
      exact h1
    · split
      · split
        · exact memOk_held h
        · exact memOk_endSentence (memOk_deliverAll (memOk_putFibres h))
      · exact memOk_endSentence (memOk_putFibres h)
theorem memOk_withLate {g : Group} {k : State → Group → State} (h : s.memOk) (hk : ∀ t x1, t.memOk → (k t x1).memOk) : (s.withLate g k).memOk := by
  unfold State.withLate
  split
  · exact memOk_held h
  · split
    · split
      · exact memOk_held h
      · extract_lets _ s1
        have h1 : s1.memOk := memOk_lateFaults h
        clear_value s1
        split
        · exact memOk_freePort h1
        · exact hk _ _ (memOk_putPort h1)
    · exact hk _ _ h
theorem memOk_runTrailer {op : Nat} {o : GOp} {lane : State → Fibre → LaneOut} (h : s.memOk) : Out.MemOk (runTrailer op o s lane) := by
  unfold runTrailer
  split
  · exact memOk_withLate h (fun _ _ h' => memOk_settleTrailer h')
  · trivial

/-! ### Integer instructions -/
theorem memOk_runFill {op : Nat} {o : GOp} {n : Nat} {vals : State → Fibre → List Word} (h : s.memOk) : Out.MemOk (runFill op o s n vals) := by
  unfold runFill
  split
  · exact memOk_settleLanes h (fun _ h' => memOk_goOn h')
  · trivial
theorem memOk_execMovs {o : GOp} (h : s.memOk) : Out.MemOk (execMovs o s) := by
  unfold execMovs
  extract_lets
  split
  · exact memOk_runFill h
  · split <;> exact memOk_runG h

/-! ### Instructions across lanes and masks -/
theorem memOk_runExchange {op : Nat} {o : GOp} {src : State → Fibre → Option Nat} (h : s.memOk) : Out.MemOk (runExchange op o s src) := by
  unfold runExchange
  refine memOk_runCrew h fun _ _ h1 => ?_
  split
  · split
    · exact h1
    · exact memOk_retestWaitm (memOk_putCrew h1)
  · exact h1
theorem memOk_execMatchl {o : GOp} (h : s.memOk) : Out.MemOk (execMatchl o s) := by
  unfold execMatchl; exact memOk_runCrew h (fun _ _ h' => h')
theorem memOk_faultApart {g : Group} {bad : List (Fibre × FaultInfo)} (h : s.memOk) : (s.faultApart g bad).memOk := by
  unfold State.faultApart
  split
  · exact memOk_goOn h
  · extract_lets _ _ s1
    have h1 : s1.memOk := memOk_deliverAll h
    clear_value s1
    split
    · exact memOk_freePort h1
    · exact memOk_goOn h1
theorem memOk_execFredux {o : GOp} (h : s.memOk) : Out.MemOk (execFredux o s) := by
  unfold execFredux
  split
  · extract_lets
    split
    · exact memOk_held h
    · exact memOk_settleLanes h (fun _ h' => memOk_faultApart h')
  · trivial
theorem memOk_setMask {ck n : Nat} {m : Word} (h : s.memOk) : (s.setMask ck n m).memOk := by
  unfold State.setMask
  split
  · exact memOk_retestWaitm (memOk_putCrew h)
  · exact h
theorem memOk_runMask {op : Nat} {o : GOp} {k : State → Group → Word} (h : s.memOk) : Out.MemOk (runMask op o s k) := by
  unfold runMask
  refine memOk_runCrew h fun _ _ h1 => ?_
  split
  · split
    · exact memOk_setMask h1
    · exact h1
  · exact h1
theorem memOk_execMwr {o : GOp} (h : s.memOk) : Out.MemOk (execMwr o s) := by
  unfold execMwr
  extract_lets
  refine memOk_runCrew h fun _ _ h1 => ?_
  split
  · exact memOk_setMask h1
  · exact h1
theorem memOk_execWaitm {o : GOp} (h : s.memOk) : Out.MemOk (execWaitm o s) := by
  unfold execWaitm
  split
  · trivial
  · exact memOk_withLate h (fun _ _ h' => memOk_endSentence (memOk_retestWaitm (memOk_putFibres h')))

/-! ### Memory instructions: the lanes' accesses -/
theorem memOk_hostWrite {a : Nat} {bs : List Byte} (h : s.memOk) : (s.hostWrite a bs).memOk := by
  unfold State.hostWrite
  refine memOk_each h fun t x ht => ?_
  dsimp only
  split
  · exact memOk_wake (memOk_hostBytes (memOk_hostBytes ((memOk_putLine _ _ _).trans ht))) _
  · exact memOk_wake (memOk_hostBytes ht) _
theorem memOk_readView {ag : Agent} {va : Nat} {v : View} {base off loc n : Nat} (h : s.memOk) : (s.readView ag va v base off loc n).s.memOk := by
  unfold State.readView
  split
  · extract_lets _ r1
    have h1 : r1.s.memOk := by
      unfold r1
      split
      · exact h
      · exact memOk_readSpan h
    clear_value r1
    exact h1
theorem memOk_readRegion {ag : Agent} {va rva : Nat} {p : PA} {n : Nat} (h : s.memOk) : (s.readRegion ag va rva p n).s.memOk := by
  unfold State.readRegion
  extract_lets s1
  have h1 : s1.memOk := h
  clear_value s1
  exact memOk_countAccess (memOk_logAccess ((memOk_putLine _ _ _).trans (memOk_readCheck h1 _ _ _)) _ _ _ _) _ _ _
theorem memOk_loadSpot {w : Who} {ag : Agent} {x : Spot} (h : s.memOk) : (s.loadSpot w ag x).s.memOk := by
  unfold State.loadSpot
  split
  · split
    · exact h
    · exact memOk_readAt h _ _ _ _
  · exact memOk_readView h
  · extract_lets s1
    have h1 : s1.memOk := h
    clear_value s1
    exact memOk_logAccess h1 _ _ _ _
  · exact memOk_readRegion h
  · exact h
theorem memOk_loadSpots {w : Who} {ag : Agent} {l : List Spot} (h : s.memOk) : (s.loadSpots w ag l).s.memOk :=
  memOk_fold Acc.s h (fun _ _ h' => memOk_loadSpot h')
theorem memOk_storeSpots {ag : Agent} {l : List Spot} {bs : List Byte} (h : s.memOk) : (s.storeSpots ag l bs).s.memOk := by
  unfold State.storeSpots
  refine memOk_fold (fun r : Acc × List Byte => r.1.s) h fun r x hr => ?_
  dsimp only
  split
  · split
    · exact memOk_hostWrite hr
    · exact memOk_writeAt hr _ _ _ _
  · exact hr
theorem memOk_storeView {ag : Agent} {va : Nat} {p : PA} {loc : Nat} {bs : List Byte} (h : s.memOk) : (s.storeView ag va p loc bs).s.memOk := by
  unfold State.storeView
  split
  · exact memOk_hostWrite h
  · exact memOk_writeSpan h
theorem memOk_countLoc2 {k : Nat} {l : List Spot} (h : s.memOk) : (s.countLoc2 k l).memOk := by
  unfold State.countLoc2
  split
  · exact memOk_modFibre h
  · exact h
theorem memOk_setStamp {k ts : Nat} (h : s.memOk) : (s.setStamp k ts).memOk := memOk_modFibre h
theorem memOk_sendAsks {g : Group} {asks : List PeerAsk} {probing : Bool} {upd : PortRun → PortRun} (h : s.memOk) :
    (s.sendAsks g asks probing upd).memOk :=
  memOk_putPort h
theorem memOk_takeReplies {g : Group} (h : s.memOk) : (s.takeReplies g).MemOk := by
  unfold State.takeReplies
  split
  · split
    · exact memOk_held h
    · split
      · exact memOk_putPort h
      · split
        · extract_lets s1
          have h1 : s1.memOk := by
            unfold s1
            refine memOk_each h fun t2 _ h2 => ?_
            split
            · exact memOk_setStamp h2
            · exact h2
          clear_value s1
          exact memOk_putPort h1
        · trivial
  · exact h
theorem memOk_partHere {f : Fibre} {x : MemPart} (h : s.memOk) : (s.partHere f x).s.memOk := by
  unfold State.partHere
  split
  · exact memOk_loadSpot h
  · exact memOk_storeSpots h
  · exact h
theorem memOk_runParts {g : Group} {k : Nat} {l : List MemPart} {n : Nat} {bs : List Byte} (h : s.memOk) : (State.runParts g k l s n bs).1.memOk := by
  induction l generalizing s n bs with
  | nil => exact h
  | cons x r ih =>
    unfold State.runParts
    split
    · exact h
    · split
      · exact memOk_sendAsks h
      · dsimp only
        split
        · exact (memOk_stopFor _ _).trans (memOk_partHere h)
        · exact ih (memOk_setStamp (memOk_partHere h))
theorem memOk_laneWalks {k kind : Nat} {l : List Spot} (h : s.memOk) : (s.laneWalks k kind l).1.memOk := by
  unfold State.laneWalks
  split
  · exact h
  · extract_lets _ r1
    have h1 : r1.s.memOk := memOk_fold Acc.s h (fun _ _ h' => memOk_walkLoads h')
    clear_value r1
    split
    · exact (memOk_stopFor _ _).trans h1
    · exact memOk_setStamp h1
theorem memOk_emptyFor {k reg n : Nat} (h : s.memOk) : (s.emptyFor k reg n).memOk := memOk_modFibre h
theorem memOk_issue {a : MemAct} {acts : List MemLane} {busy : List Nat} {l : List MemLane} {behind : Bool} {kept : List MemLane} (ha : a.Keeps)
    (h : s.memOk) : (a.issue acts busy l behind s kept).1.memOk := by
  induction l generalizing behind s kept with
  | nil => exact h
  | cons m r ih =>
    unfold MemAct.issue
    split
    · exact ih (memOk_emptyFor h)
    · split
      next e => exact ih (memOk_emptyFor (memOk_of_fst (memOk_laneWalks h) e))
      next e =>
        have ht := memOk_of_fst (memOk_laneWalks h) e
        split
        · exact ih (memOk_emptyFor h)
        · split
          next e => exact ih (memOk_of_some (ha _ _ _ _ ht) e)
          next => exact h
theorem memOk_runIssue {g : Group} {a : MemAct} {i : Instr} {acts todo : List MemLane} {fin : State → Group → List MemLane → State} (h : s.memOk)
    (ha : a.Keeps) (hfin : ∀ t g l, t.memOk → (fin t g l).memOk) : (s.runIssue g a i acts todo fin).memOk := by
  unfold State.runIssue
  split
  next e => exact hfin _ _ _ (memOk_of_fst (memOk_issue ha h) e)
  next e =>
    have ht := memOk_of_fst (memOk_issue ha h) e
    dsimp only
    split
    · exact hfin _ _ _ ht
    · exact memOk_putPort ht
theorem memOk_runRoom {g : Group} {a : MemAct} {n : Nat} {fin : State → Group → List MemLane → State} (h : s.memOk) (ha : a.Keeps)
    (hfin : ∀ t g l, t.memOk → (fin t g l).memOk) : (s.runRoom g a n fin).memOk := by
  unfold State.runRoom
  split
  · exact hfin _ _ _ h
  · have ht {l : List MemLane} {j : MemJob} := memOk_issue (acts := j.acts) (busy := []) (l := l) (behind := true) (kept := []) ha h
    dsimp only
    split
    · exact hfin _ _ _ ht
    · exact memOk_held (show State.memOk { (a.issue _ _ _ _ _ _).1 with jobs := _ } = true from ht)
theorem memOk_lane {a : MemAct} {g : Group} {acts : List MemLane} {first : Bool} {m : MemLane} (ha : a.Keeps) (h : s.memOk) :
    (a.lane g acts first s m).1.memOk := by
  unfold MemAct.lane
  dsimp only
  have hw : ∀ n : Nat, (if n = 0 then s.laneWalks m.key 0 m.spots else (s, false)).1.memOk := fun n => by
    split
    · exact memOk_laneWalks h
    · exact h
  split
  next e => exact memOk_of_fst (hw _) e
  next e =>
    have h1 := memOk_of_fst (hw _) e
    split
    · split
      next e => exact memOk_of_fst (memOk_runParts h1) e
      next e =>
        have h2 := memOk_of_fst (memOk_runParts h1) e
        split
        next e => exact memOk_of_some (ha _ _ _ _ h2) e
        next => exact h2
    · split
      next e => exact memOk_of_some (ha _ _ _ _ h1) e
      next => exact h1
theorem memOk_lanes {a : MemAct} {g : Group} {acts l : List MemLane} {first : Bool} {done : List Nat} (ha : a.Keeps) (h : s.memOk) :
    (a.lanes g acts l first s done).1.memOk := by
  induction l generalizing first s done with
  | nil => exact h
  | cons m r ih =>
    unfold MemAct.lanes
    split
    next e => exact ih (memOk_of_fst (memOk_lane ha h) e)
    next e => exact memOk_of_fst (memOk_lane ha h) e
theorem memOk_keepDone {g : Group} {done : List Nat} (h : s.memOk) : (s.keepDone g done).memOk := by
  unfold State.keepDone
  split
  · exact h
  · exact memOk_held (memOk_putPort h)
theorem memOk_runHeld {g : Group} {a : MemAct} {acts todo : List MemLane} {fin : State → Group → List MemLane → State} (h : s.memOk) (ha : a.Keeps)
    (hfin : ∀ t g l, t.memOk → (fin t g l).memOk) : (s.runHeld g a acts todo fin).memOk := by
  unfold State.runHeld
  split
  next e => exact hfin _ _ _ (memOk_of_fst (memOk_lanes ha h) e)
  next e => exact memOk_keepDone (memOk_of_fst (memOk_lanes ha h) e)
theorem memOk_memRun {g : Group} {k : MemKind} (h : s.memOk) (hk : k.Keeps) : (s.memRun g k).memOk := by
  unfold State.memRun
  split
  · exact hk.again _ _ _ h
  · split
    next e => exact holds_of_eq (P := PeerOut.MemOk) (memOk_takeReplies h) e
    next => exact memOk_groupFault h
    next e =>
      have ht := holds_of_eq (P := PeerOut.MemOk) (memOk_takeReplies h) e
      exact memOk_ite (memOk_stalled ht) (memOk_ite (memOk_sendAsks ht) (memOk_ite (memOk_groupFault ht)
        (memOk_ite (memOk_held ht) (hk.act _ _ _ _ (memOk_putFibres ht)))))
theorem memOk_runMem {op : Nat} {o : GOp} {i : Instr} {suppress : Bool} {check : State → Fibre → Plan}
    {joint : State → List MemLane → List (Nat × FaultInfo)} {a : MemAct} {after : State → Group → List MemLane → State} (h : s.memOk) (ha : a.Keeps)
    (hafter : ∀ t g l, t.memOk → (after t g l).memOk) : Out.MemOk (runMem op o s i suppress check joint a after) := by
  unfold runMem
  split
  · have hfin : ∀ (t : State) (g : Group) (l : List MemLane), t.memOk → ((after t g l).goOn g).memOk := fun t g l ht => memOk_goOn (hafter t g l ht)
    exact memOk_memRun h { act := fun t g acts todo ht => memOk_runIssue ht ha hfin, again := fun t g n ht => memOk_runRoom ht ha hfin }
  · trivial
theorem memOk_fillFor {k op reg : Nat} {vals : List Word} {loc2 : optParam Bool false} (h : s.memOk) : (s.fillFor k op reg vals loc2).memOk := by
  unfold State.fillFor
  split
  · exact h
  · extract_lets s1
    have h1 : s1.memOk := memOk_putFibre h
    clear_value s1
    exact h1
theorem memOk_fillInto {k frame op reg : Nat} {vals : List Word} {loc2 : optParam Bool false} (h : s.memOk) :
    (s.fillInto k frame op reg vals loc2).memOk := by
  unfold State.fillInto
  split
  · exact h
  · split
    · exact memOk_fillFor h
    · exact h

/-! ### Control flow, frames and continuations -/
theorem memOk_runBranchJ {op : Nat} {o : JOp} {span : Nat} {takes : State → Fibre → Bool} (h : s.memOk) : Out.MemOk (runBranchJ op o s span takes) := by
  unfold runBranchJ
  split
  · trivial
  · exact memOk_withLate h (fun _ _ h' => memOk_settleTrailer h')
theorem memOk_foldLane {guard : Guard} {pre : State → Fibre → Pre} {act : State → Fibre → Except FaultInfo State} {r : State × List (Fibre × LaneOut)}
    {f0 : Fibre} (h : r.1.memOk) (hact : ∀ t f, t.memOk → DoneOk id (act t f)) : (foldLane guard pre act r f0).1.memOk := by
  unfold foldLane
  split
  · exact h
  · dsimp only
    split
    · exact memOk_putFibre h
    · split
      · exact h
      · exact h
      · split
        · exact memOk_putFibre h
        · exact h
      · split
        next e => exact memOk_of_ok (hact _ _ h) e
        next =>
          split
          · exact memOk_putFibre h
          · exact h
theorem memOk_runFold {guard : Guard} {pre : State → Fibre → Pre} {act : State → Fibre → Except FaultInfo State} (h : s.memOk)
    (hact : ∀ t x1, t.memOk → DoneOk id (act t x1)) : Out.MemOk (runFold s guard pre act) := by
  unfold runFold
  split
  · trivial
  · change State.memOk _ = true
    refine memOk_withLate ?_ ?_
    · exact h
    · intro t1 x2 h1
      extract_lets r3
      have h2 : r3.1.memOk := memOk_fold Prod.fst h1 (fun _ _ h' => memOk_foldLane h' (fun _ _ h'' => hact _ _ h''))
      clear_value r3
      split
      · exact memOk_groupFault h1
      · split
        next e =>
          have h3 := holds_of_eq (memOk_holdIf h1) e
          exact h3
        · exact memOk_endSentence h2
theorem memOk_callLane {f : Fibre} {n a fr l : Nat} {target : DWord} (h : s.memOk) : DoneOk id (s.callLane f n a fr l target) := by
  unfold State.callLane
  split
  · trivial
  · extract_lets
    split
    next e =>
      have h1 := holds_of_eq (memOk_newFrame h) e
      exact h1
    next e =>
      have h1 := holds_of_eq (memOk_newFrame h) e
      exact memOk_putFibre h1
theorem memOk_execCallx {o : GOp} (h : s.memOk) : Out.MemOk (execCallx o s) := by
  unfold execCallx
  split
  · trivial
  · exact memOk_runFold h (fun _ _ h' => memOk_callLane h')
theorem memOk_readyCell {f : Fibre} {words : List Word} (h : s.memOk) : (s.readyCell f words).1.memOk := by
  unfold State.readyCell
  split
  · exact h
  · extract_lets s1
    have h1 : s1.memOk := memOk_heapAccess h
    clear_value s1
    split
    · exact memOk_modCell h1
    · exact h1
theorem memOk_exitLane {f : Fibre} (h : s.memOk) : (s.exitLane f).memOk := by
  unfold State.exitLane
  split
  · exact memOk_reclaimFibre h
  · extract_lets s1
    have h1 : s1.memOk := by
      unfold s1
      split
      · split
        · exact memOk_heapAccess h
        · exact h
      · exact h
    clear_value s1
    exact memOk_exitFibre h1
theorem memOk_retLane {f : Fibre} {words : List Word} {issue performed : Word} (h : s.memOk) : (s.retLane f words issue performed).memOk := by
  unfold State.retLane
  split
  · split
    next s1 _ _ e =>
      have h1 : s1.memOk := by
        refine memOk_of_fst ?_ e
        split
        · exact memOk_readyCell h
        · exact h
      extract_lets s2 _ s3
      have h2 : s2.memOk := memOk_popFrame h1
      have h3 : s3.memOk := by
        unfold s3
        split
        · split
          · split
            · exact memOk_endFibre h2
            · exact memOk_deliverReturn h2
          · exact h2
        · exact memOk_modFibre h2
      clear_value s2 s3
      split
      · exact h3
      · exact memOk_handTaken h3
  · exact memOk_exitLane h
theorem memOk_retDone {performed : Word} (h : s.memOk) : (s.retDone performed).memOk := by
  unfold State.retDone; split <;> exact h
theorem memOk_execRet {o : GOp} (h : s.memOk) : Out.MemOk (execRet o s) := by
  unfold execRet
  split
  · exact memOk_runFold h (fun _ _ h' => memOk_ite (memOk_retDone (memOk_retLane h')) (memOk_retLane h'))
  · trivial
theorem memOk_execStop {o : SOp} (h : s.memOk) : Out.MemOk (execStop o s) := by
  unfold execStop
  split
  · trivial
  · exact memOk_withLate h (fun _ _ h' => memOk_ite (memOk_groupFault h') (memOk_endSentence (memOk_putFibres (memOk_newKey h'))))
theorem memOk_execHinst {o : JOp} (h : s.memOk) : Out.MemOk (execHinst o s) := by
  unfold execHinst
  split
  · trivial
  · exact memOk_settleLanes h (fun _ h' => memOk_goOn h')
theorem memOk_execPerform {o : GOp} (h : s.memOk) : Out.MemOk (execPerform o s) := by
  unfold execPerform
  split
  · change State.memOk _ = true
    refine memOk_withLate ?_ ?_
    · exact h
    · intro t1 x2 h1
      extract_lets _ _ _ _ _ _ s3 s4 s5
      have h2 : s3.memOk := memOk_putFibres h1
      have h3 : s4.memOk := memOk_each h2 (fun _ _ h' => memOk_reclaimFibre h')
      have h4 : s5.memOk := memOk_each h3 (fun _ _ h' => memOk_deliver h')
      clear_value s3 s4 s5
      split
      · exact memOk_groupFault h1
      · split
        next e =>
          have h5 := holds_of_eq (memOk_holdIf h1) e
          exact h5
        · split
          · exact memOk_stalled h1
          · split
            · exact memOk_held h1
            · exact memOk_endSentence h4
  · trivial
theorem memOk_actLanes {fs : List Fibre} {act : State → Fibre → State × Option FaultInfo} {s : State} (hact : ∀ t x1, t.memOk → (act t x1).1.memOk)
    (h : s.memOk) : (actLanes fs act s).s.memOk := by
  unfold actLanes
  refine memOk_fold Acted.s h fun r1 _ h1 => ?_
  split
  · exact h1
  · split
    next e =>
      have h2 := memOk_of_fst (hact _ _ h1) e
      exact h2
    next e =>
      have h2 := memOk_of_fst (hact _ _ h1) e
      exact h2
theorem memOk_runAlone {op : Nat} {o : GOp} {form : State → Fibre → Option FaultInfo} {act : State → Fibre → State × Option FaultInfo} (h : s.memOk)
    (hact : ∀ t x1, t.memOk → (act t x1).1.memOk) : Out.MemOk (runAlone op o s form act) := by
  unfold runAlone
  split
  · change State.memOk _ = true
    refine memOk_withLate ?_ ?_
    · exact h
    · intro t1 x2 h1
      extract_lets _ _ _ s3 r4 _ s5
      have h2 : s3.memOk := memOk_putFibres h1
      have h3 : r4.s.memOk := memOk_actLanes (fun _ _ h' => hact _ _ h') h2
      have h4 : s5.memOk := by
        unfold s5
        split
        · exact h3
        · exact memOk_deliverAll h3
      clear_value s3 r4 s5
      split
      · exact memOk_groupFault h1
      · split
        next e =>
          have h5 := holds_of_eq (memOk_holdIf h1) e
          exact h5
        · split
          · exact memOk_stalled h1
          · split
            · exact memOk_held h1
            · exact memOk_endSentence h4
  · trivial
theorem memOk_execDrop {o : GOp} (h : s.memOk) : Out.MemOk (execDrop o s) := by
  unfold execDrop
  refine memOk_runAlone h fun _ _ h1 => ?_
  split
  next e =>
    have h2 := memOk_of_fst (memOk_dropLane h1) e
    exact memOk_modFibre h2
  · exact memOk_dropLane h1
theorem memOk_execCstat {o : GOp} (h : s.memOk) : Out.MemOk (execCstat o s) := by
  unfold execCstat
  exact memOk_runCrew h (fun _ _ h' => memOk_each h' (fun _ _ h'' => memOk_heapAccess (memOk_blockWordErr h'')))

/-! ### Futures, references and SPAWN -/
theorem memOk_spawnLane {o : JOp} {f : Fibre} {args : List Word} (h : s.memOk) : (s.spawnLane o f args).1.memOk := by
  unfold State.spawnLane
  split
  · exact h
  · extract_lets
    split
    · split
      · exact h
      · split
        · exact h
        · extract_lets f1
          have h1 : ∀ t, t.memOk → (f1 t).memOk := fun _ h' => memOk_putHeap h'
          clear_value f1
          split
          · exact memOk_modFibre (h1 _ (memOk_stampAccess h))
          · split
            · exact h1 _ (memOk_stampAccess h)
            · split
              · exact h1 _ (memOk_stampAccess h)
              · exact memOk_fileTask (memOk_newKey (memOk_modFibre (memOk_putHeap (memOk_heapAccess h))))
theorem memOk_settleActed {g : Group} {done : List Nat} {bad : List (Nat × FaultInfo)} (h : s.memOk) : (s.settleActed g done bad).memOk := by
  unfold State.settleActed
  split
  · exact memOk_goOn h
  · extract_lets
    split
    · exact memOk_keepDone h
    · exact memOk_keepHelpers (memOk_deliverAll h)
theorem memOk_loadRecord {f : Fibre} {m : MemLane} {reply : Option (List Byte × Nat)} (h : s.memOk) : (s.loadRecord f m reply).s.memOk := by
  unfold State.loadRecord
  split
  · exact h
  · exact memOk_loadSpots h
theorem memOk_noteActed {g : Group} {k : Nat} {x : FaultInfo} (h : s.memOk) : (s.noteActed g k x).memOk := by
  unfold State.noteActed
  split
  · exact memOk_putPort h
  · exact h
theorem memOk_spawnPerform {o : JOp} {g : Group} {m : MemLane} {reply : Option (List Byte × Nat)} (h : s.memOk) :
    SomeOk id (spawnPerform o g s m reply) := by
  unfold spawnPerform
  split
  · exact h
  · extract_lets r1
    have h1 : r1.s.memOk := memOk_loadRecord h
    clear_value r1
    split
    · exact (memOk_stopFor _ _).trans h1
    · split
      · exact h1
      · split
        next e =>
          have h2 := memOk_of_fst (memOk_spawnLane (memOk_setStamp h1)) e
          exact h2
        next e =>
          have h2 := memOk_of_fst (memOk_spawnLane (memOk_setStamp h1)) e
          exact memOk_noteActed h2
theorem memOk_execSpawn {o : JOp} (h : s.memOk) : Out.MemOk (execSpawn o s) := by
  unfold execSpawn
  split
  · trivial
  · exact memOk_memRun h
      { act := fun t g acts todo ht => memOk_runHeld ht (fun _ _ _ _ hu => memOk_spawnPerform hu) fun _ _ _ hu => memOk_settleActed hu
        again := fun _ _ _ ht => ht }
theorem memOk_fgetLane {o : GOp} {f : Fibre} (h : s.memOk) : (s.fgetLane o f).1.memOk := by
  unfold State.fgetLane
  extract_lets _ s1
  have h1 : s1.memOk := memOk_heapAccess h
  clear_value s1
  split
  · exact h1
  · split
    · exact h1
    · split
      · exact h1
      · exact memOk_modFibre (memOk_fillFor (memOk_setStamp h1))
theorem memOk_fparkLane {o : GOp} {f : Fibre} (h : s.memOk) : (s.fparkLane o f).1.memOk := by
  unfold State.fparkLane
  extract_lets _ _ f1
  have h1 : ∀ t, t.memOk → (f1 t).1.memOk := fun _ h' => memOk_modFibre (memOk_handOver h')
  clear_value f1
  split
  next e =>
    have h2 := memOk_of_snd (memOk_blockWordErr h) e
    extract_lets s2 s3
    have h3 : s2.memOk := memOk_heapAccess h2
    have h4 : s3.memOk := by
      unfold s3
      split
      · exact memOk_stampAccess h3
      · exact memOk_heapAccess h3
    clear_value s2 s3
    split
    · exact h3
    · split
      · exact h3
      · split
        · exact h1 _ h4
        · split
          · exact h4
          · split
            · exact h1 _ (memOk_setStamp h4)
            · split
              · exact h4
              · extract_lets s4 s5
                have h5 : s4.memOk := memOk_modCell (memOk_putHeap h4)
                have h6 : s5.memOk := by
                  unfold s5
                  split
                  · exact memOk_modCell h5
                  · exact h5
                clear_value s4 s5
                exact memOk_modFibre h6
theorem memOk_execFpark {o : GOp} (h : s.memOk) : Out.MemOk (execFpark o s) := by
  unfold execFpark
  split
  · extract_lets _ _ _ s1 r2
    have h1 : s1.memOk := memOk_putFibres h
    have h2 : r2.s.memOk := memOk_actLanes (fun _ _ h' => memOk_fparkLane h') h1
    clear_value s1 r2
    split
    · exact memOk_groupFault h
    · split
      next e =>
        have h3 := holds_of_eq (memOk_holdIf h) e
        exact h3
      · split
        · exact memOk_stalled h
        · split
          · exact memOk_held h
          · exact memOk_settleActed h2
  · trivial
theorem memOk_pushOwned {f : Fibre} {node : Nat} {y : DWord} (h : s.memOk) : (s.pushOwned f node y).memOk := memOk_modFibre h
theorem memOk_setOwned {f : Fibre} {l : List Node} (h : s.memOk) : (s.setOwned f l).memOk := memOk_modFibre h
theorem memOk_overflow {ctx i : Nat} (h : s.memOk) : (s.overflow ctx i).memOk := by
  unfold State.overflow
  extract_lets
  split
  · exact memOk_handWaiters (memOk_modCell h)
  · exact h
theorem memOk_frefLane {f : Fibre} {y : DWord} {node : Option Nat} (h : s.memOk) : (s.frefLane f y node).MemOk := by
  unfold State.frefLane
  split
  · exact h
  · split
    · exact memOk_overflow h
    · extract_lets s1
      have h1 : s1.memOk := memOk_modCell h
      clear_value s1
      change State.memOk _ = true
      split
      · exact memOk_pushOwned h1
      · exact h1
theorem memOk_funrefLane {f : Fibre} {y : DWord} (h : s.memOk) : (s.funrefLane f y).MemOk := by
  unfold State.funrefLane
  split
  · exact h
  · extract_lets s1
    have h1 : s1.memOk := by
      unfold s1
      split
      · exact memOk_freeNodes (memOk_setOwned h)
      · exact h
    clear_value s1
    split
    next e =>
      have h2 := memOk_of_fst (memOk_releaseRef h1) e
      exact memOk_release h2
theorem memOk_fxferLane {f : Fibre} {y : DWord} {mode : Nat} {node : Option Nat} (h : s.memOk) : (s.fxferLane f y mode node).MemOk := by
  unfold State.fxferLane
  split
  · exact h
  · split
    · change State.memOk _ = true
      split
      · exact memOk_pushOwned h
      · exact h
    · split
      · exact h
      · split
        · exact memOk_modFibre h
        · exact memOk_freeNodes (memOk_setOwned h)
      · split
        · exact h
        · exact memOk_freeNodes (memOk_setOwned h)
theorem memOk_refAct {f : Fibre} {r : RefOp} (h : s.memOk) : (s.refAct f r).MemOk := by
  unfold State.refAct
  split
  · exact memOk_frefLane h
  · exact memOk_funrefLane h
  · exact memOk_fxferLane h
theorem memOk_doCancel {k : Nat} (h : s.memOk) : (s.doCancel k).memOk := by
  unfold State.doCancel
  split
  · exact memOk_cancel (memOk_stampAccess h)
  · exact h
theorem memOk_doRef {k : Nat} {r : RefOp} (h : s.memOk) : (s.doRef k r).memOk := by
  unfold State.doRef
  split
  · exact memOk_doCancel h
  · extract_lets s1
    have h1 : s1.memOk := memOk_heapAccess h
    clear_value s1
    split
    · exact h1
    · split
      next e =>
        have h2 := holds_of_eq (memOk_refAct h1) e
        exact h2
      next e =>
        have h2 := holds_of_eq (memOk_refAct h1) e
        extract_lets s2
        have h3 : s2.memOk := by
          unfold s2
          split
          · exact memOk_putHeap h2
          · exact h2
        clear_value s2
        exact memOk_modFibre h3
theorem memOk_settleRefs (h : s.memOk) : s.settleRefs.memOk :=
  memOk_each h (fun _ _ h' => memOk_each (memOk_modFibre h') (fun _ _ h'' => memOk_doRef h''))
theorem memOk_refLane {f : Fibre} {op : Nat} {y : DWord} {word : Word} {needs : Bool} (h : s.memOk) : DoneOk id (s.refLane f op y word needs) := by
  unfold State.refLane
  cases needs with
  | false => exact memOk_ite (memOk_modFibre h) (memOk_doRef h)
  | true =>
    dsimp only
    cases (s.heap f.ctx).takeNode (s.cdesc f.ctx) with
    | none => trivial
    | some x => exact memOk_ite (memOk_modFibre (memOk_putHeap h)) (memOk_doRef (memOk_putHeap h))
theorem memOk_runRef {op : Nat} {o : GOp} {needs : Bool} {code : Nat} (h : s.memOk) : Out.MemOk (runRef op o s needs code) := by
  unfold runRef
  split
  · extract_lets _ _ r1
    have h1 : r1.s.memOk := by
      unfold r1
      refine memOk_actLanes ?_ ?_
      · intro t2 x3 h2
        split
        next e =>
          have h3 := holds_of_eq (memOk_refLane h2) e
          exact h3
        · exact h2
      · exact h
    clear_value r1
    split
    · exact memOk_groupFault h
    · split
      next e =>
        have h4 := holds_of_eq (memOk_holdIf h) e
        exact h4
      · split
        · exact memOk_goOn h1
        · exact memOk_groupFault h
  · trivial

/-! ### Loads, stores and read-modify-writes -/
theorem memOk_loadInto {f : Fibre} {m : MemLane} {op : Nat} {loc2 : Bool} {r : Acc} {vals : List Byte → List Word} (hr : r.s.memOk) :
    (loadInto f m op loc2 r vals).memOk := by
  unfold loadInto
  split
  · split
    · exact memOk_emptyFor ((memOk_stopFor _ _).trans hr)
    · exact (memOk_stopFor _ _).trans hr
  · exact memOk_fillInto (memOk_setStamp hr)
theorem memOk_ldPerform {o : GOp} {m : MemLane} {reply : Option (List Byte × Nat)} (h : s.memOk) : SomeOk id (ldPerform o s m reply) := by
  unfold ldPerform
  split
  · exact h
  · exact memOk_loadInto (memOk_loadRecord h)
theorem memOk_noAfter {g : Group} {l : List MemLane} (h : s.memOk) : (noAfter s g l).memOk := h
theorem memOk_plainAct {perform : State → MemLane → Option (List Byte × Nat) → Option State}
    (h : ∀ s m r, s.memOk → SomeOk id (perform s m r)) : (plainAct perform).Keeps := fun _ _ _ _ ht => h _ _ _ ht
theorem memOk_ldAct {o : GOp} : (ldAct o).Keeps := memOk_plainAct fun _ _ _ h => memOk_ldPerform h
theorem memOk_execLdFrame {o : GOp} (h : s.memOk) : Out.MemOk (execLdFrame o s) := by
  unfold execLdFrame
  exact memOk_runCrew h (fun _ _ h' => memOk_each h' (fun _ _ h'' => memOk_ite h'' (memOk_fillFor (memOk_segTouch h''))))
theorem memOk_ldcAct : ldcAct.Keeps := memOk_plainAct fun s m r h => by
  split
  · exact h
  · exact memOk_loadInto (memOk_loadRecord h)
theorem memOk_setGen {ctx core p : Nat} {x : Word} (h : s.memOk) : (s.setGen ctx core p x).memOk := memOk_putCC h
theorem memOk_stPerform {o : GOp} {ms : List MemLane} {m : MemLane} {reply : Option (List Byte × Nat)} (h : s.memOk) :
    SomeOk id (stPerform o s ms m reply) := by
  unfold stPerform
  split
  · exact h
  · split
    · exact memOk_setStamp h
    · split
      · split
        · exact memOk_countLoc2 (memOk_setStamp (memOk_storeView h))
        · refine memOk_countLoc2 (memOk_each h fun t b ht => ?_)
          dsimp only
          split
          · exact ht
          · exact memOk_setStamp (memOk_storeView ht)
      · exact memOk_countLoc2 (memOk_setStamp (memOk_storeSpots h))
theorem memOk_stAfter {o : GOp} {g : Group} {ms : List MemLane} (h : s.memOk) : (stAfter o s g ms).memOk := by
  unfold stAfter
  split
  · split
    · exact memOk_setGen h
    · exact h
  · exact h
theorem memOk_stAct {o : GOp} : (stAct o).Keeps := fun _ _ _ _ h => memOk_stPerform h
theorem memOk_execStFrame {o : GOp} (h : s.memOk) : Out.MemOk (execStFrame o s) := by
  unfold execStFrame
  extract_lets
  refine memOk_runCrew h fun _ _ h1 => ?_
  extract_lets d3 s4
  have h2 : s4.memOk := memOk_each h1 (fun _ _ h' => memOk_segTouch h')
  clear_value s4 d3
  split
  · split
    · exact memOk_setGen h2
    · exact h2
  · exact h2
theorem memOk_sendFar {cl : Nat} {r : FarReq} (h : s.memOk) : SomeOk id (s.sendFar cl r) := by
  unfold State.sendFar
  extract_lets
  split
  · exact (memOk_bump _ _ _ _ _).trans (memOk_putCluster h)
  · exact (memOk_bump _ _ _ _ _).trans (memOk_putCluster h)
  · trivial
theorem memOk_rmwInto {f : Fibre} {m : MemLane} {op : Nat} {loc2 : Bool} {r : Acc} (hr : r.s.memOk) : (rmwInto f m op loc2 r).memOk := by
  unfold rmwInto
  split
  · split
    · exact (memOk_stopFor _ _).trans hr
    · exact memOk_setStamp hr
  · exact memOk_loadInto hr
theorem memOk_goFar {i : Instr} {f : Fibre} {m : MemLane} {p : PA} {r : Rmw} (h : s.memOk) : SomeOk id (s.goFar i f m p r) :=
  someOk_map (memOk_sendFar h) fun _ ht => memOk_ite (memOk_emptyFor ht) ht
theorem memOk_atomPerform {op : Nat} {i : Instr} {m : MemLane} {reply : Option (List Byte × Nat)} (h : s.memOk) :
    SomeOk id (atomPerform op i s m reply) := by
  unfold atomPerform
  split
  · extract_lets
    split
    · exact memOk_rmwInto h
    · split
      · exact memOk_rmwInto (memOk_hostWrite h)
      · split
        · exact memOk_goFar h
        · exact memOk_rmwInto (memOk_rmwAt h _ _ _ _ _)
    · exact h
  · exact h
theorem memOk_atomAct {op : Nat} {i : Instr} : (atomAct op i).Keeps := fun _ _ _ _ h => memOk_atomPerform h
theorem memOk_redPartial {f : Fibre} {va : Nat} {p : PA} {tag v : Nat} (h : s.memOk) : (s.redPartial f va p tag v).memOk := by
  unfold State.redPartial
  extract_lets s1 _ s2
  have h1 : s1.memOk := h
  have h2 : s2.memOk := (memOk_putLine _ _ _).trans h1
  clear_value s1 s2
  split
  next s3 e =>
    have h3 : s3.memOk := by
      refine memOk_of_snd ?_ e
      split
      · exact h2
      · exact memOk_makeRoom h2 _ _
    exact memOk_setStamp (memOk_wake (memOk_countAccess (memOk_logAccess
      ((memOk_bump _ _ _ _ _).trans ((memOk_putLine _ _ _).trans h3)) _ _ _ _) _ _ _) _)
theorem memOk_redPerform {o : GOp} {m : MemLane} {reply : Option (List Byte × Nat)} (h : s.memOk) : SomeOk id (redPerform o s m reply) := by
  unfold redPerform
  split
  · extract_lets
    split
    · exact memOk_setStamp h
    · split
      · exact memOk_countLoc2 (memOk_hostWrite h)
      · split
        · exact memOk_ite ((memOk_stopFor _ _).trans (memOk_rmwAt h _ _ _ _ _)) (memOk_setStamp (memOk_rmwAt h _ _ _ _ _))
        · extract_lets s1
          have h1 : s1.memOk := by
            unfold s1
            split
            · split
              · exact h
              · exact memOk_merge h _ _
            · exact h
          clear_value s1
          split
          · exact memOk_goFar h1
          · exact memOk_redPartial h1
    · exact h
  · exact h
theorem memOk_redAct {o : GOp} : (redAct o).Keeps := fun _ _ _ _ h => memOk_redPerform h
theorem memOk_execFenceSys {o : GOp} (h : s.memOk) : Out.MemOk (execFenceSys o s) := by
  unfold execFenceSys
  split
  · trivial
  · extract_lets
    split
    · exact memOk_held h
    · split
      · exact memOk_goOn (memOk_each h (fun _ _ h' => memOk_stampAccess h'))
      · exact memOk_putPort h

/-! ### Bank FIFOs, write pointers and barriers -/
theorem memOk_ringWrite {ctx core bank x : Nat} {bs : List Byte} (h : s.memOk) : (s.ringWrite ctx core bank x bs).memOk :=
  memOk_sramOf h (List.foldlRecOn (motive := fun m => risesFrom 0 m = true) _ _ (memOk_iff.mp h).2 fun _ hm _ _ => risesFrom_set hm (Nat.zero_le _))
theorem memOk_putFifo {ctx core bank : Nat} {q : Fifo} (h : s.memOk) : (s.putFifo ctx core bank q).memOk := memOk_putCC h
theorem memOk_feedOne {r : Resv} {vals : List Word} {ts : Nat} (h : s.memOk) : (s.feedOne r vals ts).memOk := memOk_setStamp h
theorem memOk_feedFuel {n : Nat} {ctx core bank : Nat} (h : s.memOk) : (State.feedFuel n s ctx core bank).memOk := by
  induction n generalizing s with
  | zero => exact h
  | succ n ih =>
    unfold State.feedFuel
    dsimp only
    split
    · exact h
    · split
      · exact ih (memOk_feedOne (memOk_putFifo h))
      · exact h
theorem memOk_feed {ctx core bank : Nat} (h : s.memOk) : (s.feed ctx core bank).memOk := memOk_feedFuel h
theorem memOk_heldAt {g : Group} {qs : List Nat} (h : s.memOk) : (s.heldAt g qs).memOk := by
  unfold State.heldAt
  split
  · exact memOk_held (memOk_putPort h)
  · exact h
theorem memOk_execFifow {o : GOp} (h : s.memOk) : Out.MemOk (execFifow o s) := by
  unfold execFifow
  extract_lets
  split
  · split
    · exact memOk_heldAt h
    · exact memOk_runCrew h (fun _ _ h' => memOk_each h' (fun _ _ h'' =>
        memOk_feed (memOk_putFifo (memOk_ringWrite (memOk_stampAccess (memOk_setStamp h''))))))
  · trivial
theorem memOk_execFifor {o : GOp} (h : s.memOk) : Out.MemOk (execFifor o s) := by
  unfold execFifor
  exact memOk_runCrew h (fun _ _ h' => memOk_each h' (fun _ _ h'' => memOk_feed (memOk_putFifo (memOk_emptyFor (memOk_stampAccess h'')))))
theorem memOk_setRole {ctx core bank role : Nat} (h : s.memOk) : (s.setRole ctx core bank role).memOk :=
  memOk_sramKept (memOk_putCC (memOk_newSeed (memOk_each h fun _ _ ht => memOk_feedOne ht)))
theorem memOk_execBankcfg {o : GOp} (h : s.memOk) : Out.MemOk (execBankcfg o s) := by
  unfold execBankcfg
  split
  · extract_lets _ _ d1 _ f2
    have h1 : ∀ t x1, t.memOk → (f2 t x1).memOk := fun _ _ h' => memOk_goOn (memOk_putFibres h')
    clear_value f2 d1
    split
    · exact memOk_groupFault h
    · split
      next e =>
        have h2 := holds_of_eq (memOk_holdIf h) e
        exact h2
      · split
        · exact memOk_goOn h
        · extract_lets
          split
          · exact memOk_held h
          · exact memOk_heldAt h
          · exact h1 _ _ h
          · split
            · exact memOk_heldAt h
            · split
              · exact h1 _ _ h
              · split
                · exact h1 _ _ h
                · split
                  · exact memOk_putPort (memOk_putCC (memOk_flushWays h))
                  · exact h1 _ _ (memOk_setRole h)
  · trivial
theorem memOk_execWptr {o : GOp} (h : s.memOk) : Out.MemOk (execWptr o s) := by
  unfold execWptr
  exact memOk_runCrew h (fun _ _ h' => memOk_each h' (fun _ _ h'' => memOk_fillFor (memOk_stampAccess (memOk_setStamp h''))))
theorem memOk_execBarinit {o : GOp} (h : s.memOk) : Out.MemOk (execBarinit o s) := by
  unfold execBarinit
  extract_lets
  refine memOk_runCrew h fun _ _ h1 => ?_
  split
  · exact memOk_putTeam h1
  · exact h1
theorem memOk_arriveLane {tk n : Nat} {f : Fibre} (h : s.memOk) : SomeOk Prod.fst (s.arriveLane tk n f) := by
  unfold State.arriveLane
  split
  · trivial
  · extract_lets _ s1
    have h1 : s1.memOk := memOk_putTeam h
    clear_value s1
    split
    · trivial
    · exact memOk_arriveBar h1
theorem memOk_arriveLanes {tk n : Nat} {write : Word → Fibre → Fibre} {l : List Nat} {r : State × List Nat} (h : r.1.memOk) :
    (arriveLanes tk n write l r).1.memOk := by
  induction l generalizing r with
  | nil => exact h
  | cons k rest ih =>
    unfold arriveLanes
    split
    · exact ih h
    · split
      · exact h
      next e => exact ih (memOk_modFibre (memOk_of_some_fst (memOk_arriveLane h) e))
theorem memOk_runArrive {op : Nat} {o : GOp} {write : Word → Fibre → Fibre} (h : s.memOk) : Out.MemOk (runArrive op o s write) := by
  unfold runArrive
  split
  · refine outOk_ite (memOk_groupFault h) ?_
    split
    next e => exact memOk_of_some (memOk_holdIf h) e
    next =>
      split
      · exact memOk_goOn h
      · exact outOk_ite (memOk_goOn (memOk_arriveLanes h)) (memOk_held (memOk_putPort (memOk_arriveLanes h)))
  · trivial
theorem memOk_execRpost {o : GOp} (h : s.memOk) : Out.MemOk (execRpost o s) := by
  unfold execRpost
  refine memOk_runCrew h fun _ _ h1 => ?_
  split
  · exact h1
  · extract_lets
    split
    · exact h1
    · exact memOk_judgeAll (memOk_putTeam h1)
theorem memOk_traceWrite {f : Fibre} {x : Word} (h : s.memOk) : (s.traceWrite f x).memOk := h
theorem memOk_execMovsw {o : GOp} (h : s.memOk) : Out.MemOk (execMovsw o s) := by
  unfold execMovsw
  exact memOk_runCrew h (fun _ _ h' => memOk_each h' (fun _ _ h'' =>
    memOk_ite (memOk_ite h'' (memOk_traceWrite h'')) (memOk_ite (memOk_setGen h'') h'')))

/-! ### Command queues and the copy engines -/
theorem memOk_engLoad {ag : Agent} {va : Nat} {p : PA} {n : Nat} (h : s.memOk) : (s.engLoad ag va p n).s.memOk :=
  memOk_readAt (memOk_walkLoads h) _ _ _ _
theorem memOk_engStore {ag : Agent} {va : Nat} {p : PA} {loc : Nat} {bs : List (Nat × List Byte)} (h : s.memOk) : (s.engStore ag va p loc bs).s.memOk := by
  unfold State.engStore
  extract_lets s1 _ s2 s3
  have h1 : s1.memOk := by
    unfold s1
    refine memOk_merge ?_ _ _
    exact h
  have h2 : s2.memOk := memOk_each h1 (fun _ _ h' => memOk_writeLine h' _ _ _ _)
  have h3 : s3.memOk := memOk_countAccess (memOk_logAccess h2 _ _ _ _) _ _ _
  clear_value s1 s2 s3
  split
  · exact memOk_each h3 (fun _ _ h' => memOk_hostWrite h')
  · exact h3
theorem memOk_engRead {w : Who} {ag : Agent} {key va n : Nat} (h : s.memOk) : (s.engRead w ag key va n).MemOk := by
  unfold State.engRead
  split
  · trivial
  · split
    · split <;> trivial
    · split
      · trivial
      · exact memOk_engLoad h
    · exact memOk_readRegion (memOk_walkLoads h)
    · trivial
    · trivial
theorem memOk_engAsk {ctx ts owner va : Nat} {acc : PeerAcc} (h : s.memOk) : (s.engAsk ctx ts owner va acc).2.memOk := h
theorem memOk_claimPiece {w : Who} {ag : Agent} {xs : List (Nat × Nat)} (h : s.memOk) : (s.claimPiece w ag xs).MemOk := by
  unfold State.claimPiece
  dsimp only
  split
  · trivial
  · split
    · exact (memOk_stopFor _ _).trans (memOk_walkLoads h)
    · split
      · split
        · trivial
        · exact memOk_walkLoads h
      · split
        · trivial
        · exact memOk_walkLoads h
      · exact memOk_walkLoads h
      · exact memOk_walkLoads h
theorem memOk_claimAll {w : Who} {ag : Agent} {xs : List (List (Nat × Nat))} {l : List Tgt} (h : s.memOk) : (s.claimAll w ag xs l).MemOk := by
  induction xs generalizing s ag l with
  | nil => exact h
  | cons x r ih =>
    unfold State.claimAll
    split
    next e => exact ih (holds_of_eq (P := Claimed.MemOk) (memOk_claimPiece h) e)
    next => exact memOk_claimPiece h
theorem memOk_placeClaim {ts : Nat} {p : PA} (h : s.memOk) : (s.placeClaim ts p).1.memOk := by
  unfold State.placeClaim
  extract_lets s1
  have h1 : s1.memOk := by
    unfold s1
    refine memOk_merge ?_ _ _
    exact h
  clear_value s1
  exact (memOk_putLine _ _ _).trans h1
theorem memOk_placeClaims {key ts : Nat} {l : List Tgt} (h : s.memOk) : (s.placeClaims key ts l).1.memOk := by
  unfold State.placeClaims
  refine memOk_fold Prod.fst h fun r1 _ h1 => ?_
  split
  · exact memOk_placeClaim h1
  · exact h1
theorem memOk_takeClaims {ctx key ts : Nat} {l : List Tgt} (h : s.memOk) : (s.takeClaims ctx key ts l).1.memOk := by
  unfold State.takeClaims
  extract_lets s1
  have h1 : s1.memOk := h
  clear_value s1
  split
  next s2 _ e =>
    have h2 : s2.memOk := by
      refine memOk_of_fst ?_ e
      refine memOk_fold Prod.fst h1 fun r3 _ h3 => ?_
      split
      · exact memOk_engAsk h3
      · exact h3
    exact memOk_placeClaims h2
theorem memOk_claimCmd {key : Nat} {c : Cmd} (h : s.memOk) : (s.claimCmd key c).1.memOk := by
  unfold State.claimCmd
  split
  next e => exact holds_of_eq (P := Claimed.MemOk) (memOk_claimAll h) e
  next => exact h
  next e => exact holds_of_eq (P := Claimed.MemOk) (memOk_claimAll h) e
  next e => exact memOk_setStamp (memOk_takeClaims (holds_of_eq (P := Claimed.MemOk) (memOk_claimAll h) e))
theorem memOk_settleChan {ctx cl ch : Nat} (h : s.memOk) : (s.settleChan ctx cl ch).memOk := by
  unfold State.settleChan
  extract_lets
  split
  next s1 _ _ e =>
    have h1 : s1.memOk := by
      refine memOk_of_fst ?_ e
      refine memOk_fold Prod.fst h fun r2 _ h2 => ?_
      split
      next s3 _ e =>
        have h3 : s3.memOk := by
          refine memOk_of_fst ?_ e
          split
          · exact memOk_claimCmd h2
          · exact h2
        extract_lets r4
        have h4 : r4.1.memOk := h3
        clear_value r4
        split
        next e =>
          have h5 := memOk_of_fst (memOk_placeClaims h4) e
          split
          · exact h5
          · split
            · exact h5
            · exact memOk_setStamp h5
    exact memOk_putChan h1
theorem memOk_settleClaims (h : s.memOk) : s.settleClaims.memOk := memOk_each h (fun _ _ h' => memOk_settleChan h')
theorem memOk_readRecord {c : Cmd} (h : s.memOk) : (s.readRecord c).1.memOk := by
  unfold State.readRecord
  split
  next e =>
    have h1 := holds_of_eq (memOk_engRead h) e
    split
    · exact (memOk_stopFor _ _).trans h1
    · exact h1
  · exact h
  · exact h
  · exact memOk_engAsk h
theorem memOk_enqueue {cl q : Nat} {c : Cmd} (h : s.memOk) : (s.enqueue cl q c).memOk := by
  unfold State.enqueue
  split
  · exact memOk_putChan (memOk_claimCmd h)
  · split
    · split
      next s1 _ e =>
        have h1 : s1.memOk := by
          refine memOk_of_fst ?_ e
          split
          · exact memOk_readRecord h
          · exact h
        exact h1
    · exact memOk_putCLC h
theorem memOk_pushLanes {g : Group} {o : GOp} {q : Nat} {team : Option Nat} {l : List Fibre} {full : Bool} (h : s.memOk) :
    (s.pushLanes g o q team l full).memOk := by
  induction l generalizing s full with
  | nil => exact h
  | cons f r ih =>
    unfold State.pushLanes
    dsimp only
    split
    · exact ih (memOk_modFibre h)
    · exact ih (memOk_enqueue ((memOk_bump _ _ _ _ _).trans (memOk_modFibre (memOk_stampAccess h))))
theorem memOk_breakBar {tk n : Nat} (h : s.memOk) : (s.breakBar tk n).memOk := by
  unfold State.breakBar
  split
  · exact h
  · exact memOk_each (memOk_putTeam h) (fun _ _ h' => memOk_afterTrailer h')
theorem memOk_breakBound {c : Cmd} (h : s.memOk) : (s.breakBound c).memOk := by
  unfold State.breakBound
  split
  · split
    · exact memOk_breakBar h
    · exact h
  · exact h
theorem memOk_bindArrive {c : Cmd} {ts : Nat} (h : s.memOk) : (s.bindArrive c ts).memOk := by
  unfold State.bindArrive
  split
  · split
    · exact memOk_arriveBar h
    · exact h
  · exact h
theorem memOk_reportCmd {c : Cmd} {x : FaultInfo} {halts : Option (Nat × Nat)} (h : s.memOk) : (s.reportCmd c x halts).memOk := by
  unfold State.reportCmd
  extract_lets
  split
  · exact memOk_forward h
  · exact memOk_passOn h
theorem memOk_completionStore {c : Cmd} {ts req : Nat} {v : DWord} (h : s.memOk) : (s.completionStore c ts req v).MemOk := by
  unfold State.completionStore
  extract_lets _ r1
  have h1 : r1.s.memOk := memOk_walkLoads h
  clear_value r1
  split
  · exact h
  · split
    · trivial
    · split
      · trivial
      · split
        · trivial
        · split
          · trivial
          · exact memOk_ite ((memOk_stopFor _ _).trans h1) (memOk_engStore h1)
        · split
          · exact h
          · trivial
          · trivial
          · exact h
        · trivial
theorem memOk_haltStream {ctx cl q : Nat} (h : s.memOk) : (s.haltStream ctx cl q).memOk := memOk_putCLC h
theorem memOk_releaseClaims {key : Nat} (h : s.memOk) : (s.releaseClaims key).memOk := h
theorem memOk_releasePeers {ctx key ts : Nat} {cs : List Cmd} (h : s.memOk) : (s.releasePeers ctx key ts cs).memOk :=
  memOk_each h (fun _ _ h' => memOk_engAsk h')
theorem memOk_haltChan {ctx cl ch : Nat} (h : s.memOk) : (s.haltChan ctx cl ch).memOk :=
  memOk_each (memOk_releaseClaims (memOk_putChan (memOk_releasePeers h))) (fun _ _ h' => memOk_tidyLaunch (memOk_breakBound h'))
theorem memOk_chanFault {cl ch : Nat} {c : Cmd} {x : FaultInfo} (h : s.memOk) : (s.chanFault cl ch c x).memOk :=
  memOk_tidyLaunch (memOk_reportCmd (memOk_breakBound (memOk_haltChan h)))
theorem memOk_putHead {cl ch : Nat} {c : Cmd} (h : s.memOk) : (s.putHead cl ch c).memOk := memOk_putChan h
theorem memOk_chanStamp {ctx cl ch ts : Nat} (h : s.memOk) : (s.chanStamp ctx cl ch ts).memOk := memOk_putChan h
theorem memOk_fetchPiece {c : Cmd} {put : State → Cmd → State} {ts req key va n : Nat} (h : s.memOk) (hput : ∀ t x1, t.memOk → (put t x1).memOk) :
    (s.fetchPiece c put ts req key va n).MemOk := by
  unfold State.fetchPiece
  extract_lets
  split
  · exact h
  · exact hput _ _ h
  · exact hput _ _ h
  · exact hput _ _ h
  · split
    next e =>
      have h1 := holds_of_eq (memOk_engRead h) e
      split
      · exact (memOk_stopFor _ _).trans h1
      · exact h1
    · exact h
    · exact h
    · exact hput _ _ (memOk_engAsk h)
theorem memOk_advance {ctx cl ch n ts : Nat} (h : s.memOk) : (s.advance ctx cl ch n ts).memOk := memOk_judgeAll (memOk_putChan h)
theorem memOk_unclaim {key : Nat} {p : PA} (h : s.memOk) : (s.unclaim key p).memOk := h
theorem memOk_writePiece {cl ch : Nat} {c : Cmd} {t : Tgt} {bs : List Byte} (h : s.memOk) : (s.writePiece cl ch c t bs).1.memOk := by
  unfold State.writePiece
  extract_lets _ _ r1
  have h1 : r1.s.memOk := memOk_engStore h
  clear_value r1
  split
  · split
    · exact memOk_putHead (memOk_engAsk h)
    · exact h
    · exact memOk_putHead h
    · exact memOk_chanStamp (memOk_putHead h)
  · split
    · exact h
    · split
      · exact h
      · exact memOk_chanStamp (memOk_ite (memOk_unclaim h1) h1)
theorem memOk_pieceDone {cl ch : Nat} {c : Cmd} {n : Nat} (h : s.memOk) : (s.pieceDone cl ch c n).memOk := memOk_advance (memOk_putHead h)
theorem memOk_flushPiece {cl ch : Nat} {c : Cmd} {t : Tgt} (h : s.memOk) : (s.flushPiece cl ch c t).memOk := by
  unfold State.flushPiece
  split
  next e =>
    have h1 := memOk_of_fst (memOk_writePiece h) e
    exact memOk_pieceDone h1
  next e =>
    have h1 := memOk_of_fst (memOk_writePiece h) e
    exact memOk_chanFault h1
  next e =>
    have h1 := memOk_of_fst (memOk_writePiece h) e
    exact h1
theorem memOk_headCmd {ctx cl ch op : Nat} (h : s.memOk) : SomeOk Prod.fst (s.headCmd ctx cl ch op) := by
  unfold State.headCmd
  extract_lets
  split
  · split
    · trivial
    · exact memOk_ite (memOk_putChan h) (memOk_judgeAll (memOk_putChan h))
  · trivial
theorem memOk_stepCopy {op ctx cl ch : Nat} {go : State → Cmd → State} (h : s.memOk) (hgo : ∀ t x1, t.memOk → (go t x1).memOk) :
    (s.stepCopy op ctx cl ch go).memOk := by
  unfold State.stepCopy
  split
  · exact h
  next e =>
    have h1 := holds_of_eq (memOk_headCmd h) e
    split
    · exact memOk_chanFault h1
    · exact hgo _ _ h1
theorem memOk_runCopy {op cl ch : Nat} {go : State → Cmd → State} (h : s.memOk) (hgo : ∀ t x1, t.memOk → (go t x1).memOk) :
    Out.MemOk (runCopy op cl ch s go) := by
  unfold runCopy
  split
  · trivial
  · split
    · exact h
    · exact memOk_stepCopy h (fun _ _ h' => hgo _ _ h')
theorem memOk_copyGo {cl ch : Nat} {c : Cmd} (h : s.memOk) : (s.copyGo cl ch c).memOk := by
  unfold State.copyGo
  split
  · exact memOk_putHead h
  · split
    · exact memOk_flushPiece h
    · extract_lets
      split
      next e =>
        have h1 := holds_of_eq (memOk_fetchPiece h (fun _ _ h' => memOk_putHead h')) e
        exact h1
      next e =>
        have h1 := holds_of_eq (memOk_fetchPiece h (fun _ _ h' => memOk_putHead h')) e
        exact memOk_chanFault h1
      next e =>
        have h1 := holds_of_eq (memOk_fetchPiece h (fun _ _ h' => memOk_putHead h')) e
        exact memOk_chanStamp (memOk_putHead h1)
theorem memOk_fillGo {cl ch : Nat} {c : Cmd} (h : s.memOk) : (s.fillGo cl ch c).memOk := by
  unfold State.fillGo
  split
  · exact memOk_putHead h
  · exact memOk_flushPiece h
theorem memOk_readPart {cl ch : Nat} {c : Cmd} {va n : Nat} {fin : State → Cmd → List Byte → State} (h : s.memOk)
    (hfin : ∀ t x1 x2, t.memOk → (fin t x1 x2).memOk) : (s.readPart cl ch c va n fin).memOk := by
  unfold State.readPart
  split
  next e =>
    have h1 := holds_of_eq (memOk_fetchPiece h (fun _ _ h' => memOk_putHead h')) e
    exact h1
  next e =>
    have h1 := holds_of_eq (memOk_fetchPiece h (fun _ _ h' => memOk_putHead h')) e
    exact memOk_chanFault h1
  next e =>
    have h1 := holds_of_eq (memOk_fetchPiece h (fun _ _ h' => memOk_putHead h')) e
    extract_lets _ s1
    have h2 : s1.memOk := memOk_chanStamp h1
    clear_value s1
    split
    · exact hfin _ _ _ h2
    · exact memOk_putHead h2
theorem memOk_gatherGo {cl ch : Nat} {c : Cmd} (h : s.memOk) : (s.gatherGo cl ch c).memOk := by
  unfold State.gatherGo
  split
  · exact memOk_putHead h
  · split
    · exact memOk_flushPiece h
    · extract_lets
      split <;> exact memOk_readPart h (fun _ _ _ h' => memOk_putHead h')
theorem memOk_scatterClaim {cl ch : Nat} {c : Cmd} {x : Nat} (h : s.memOk) : (s.scatterClaim cl ch c x).memOk := by
  unfold State.scatterClaim
  dsimp only
  split
  next e => exact memOk_chanFault (holds_of_eq (P := Claimed.MemOk) (memOk_claimAll h) e)
  next e => exact holds_of_eq (P := Claimed.MemOk) (memOk_claimAll h) e
  next => exact memOk_putHead h
  next e => exact memOk_chanStamp (memOk_putHead (memOk_takeClaims (holds_of_eq (P := Claimed.MemOk) (memOk_claimAll h) e)))
theorem memOk_scatterGo {cl ch : Nat} {c : Cmd} (h : s.memOk) : (s.scatterGo cl ch c).memOk := by
  unfold State.scatterGo
  extract_lets
  split
  · exact memOk_readPart h (fun _ _ _ h' => memOk_scatterClaim h')
  · split
    · exact memOk_scatterClaim h
    · split
      · exact memOk_readPart h (fun _ _ _ h' => memOk_putHead h')
      · split
        · exact h
        · split
          next e =>
            have h1 := memOk_of_fst (memOk_writePiece h) e
            split
            · exact memOk_pieceDone h1
            · exact memOk_putHead h1
          next e =>
            have h1 := memOk_of_fst (memOk_writePiece h) e
            exact memOk_chanFault h1
          next e =>
            have h1 := memOk_of_fst (memOk_writePiece h) e
            exact h1
theorem memOk_chanStep {ctx cl ch : Nat} (h : s.memOk) : (s.chanStep ctx cl ch).memOk := by
  unfold State.chanStep
  split
  · split
    · exact memOk_stepCopy h (fun _ _ h' => memOk_gatherGo h')
    · split
      · exact memOk_stepCopy h (fun _ _ h' => memOk_scatterGo h')
      · split
        · exact memOk_stepCopy h (fun _ _ h' => memOk_fillGo h')
        · exact memOk_stepCopy h (fun _ _ h' => memOk_copyGo h')
  · exact h
theorem memOk_runToStop {n : Nat} {ctx cl ch : Nat} (h : s.memOk) : (State.runToStop n s ctx cl ch).memOk := by
  induction n generalizing s with
  | zero => exact h
  | succ n ih =>
    unfold State.runToStop
    split
    · split
      · exact h
      · exact ih (memOk_chanStep (memOk_putHead h))
    · exact h
theorem memOk_stopChans {ctx cl : Nat} (h : s.memOk) : (s.stopChans ctx cl).memOk := memOk_each h fun _ _ ht => memOk_runToStop ht

/-! ### What a port fetches -/
theorem memOk_fetchFault {g : Group} {x : FaultInfo} {lit : Option FaultInfo} {bits : Nat} {fetching : Bool} (h : s.memOk) :
    (s.fetchFault g x lit bits fetching).memOk := by
  unfold State.fetchFault
  extract_lets _ _ s1 _ _ _ _ _ s2
  have h1 : s1.memOk := memOk_each h (fun _ _ h' => memOk_endFibre h')
  have h2 : s2.memOk := memOk_putFibres h
  clear_value s1 s2
  split
  · split
    · exact memOk_held h
    · split
      · exact memOk_freePort h1
      · exact memOk_groupFault h1
  · split
    · exact memOk_groupFault h
    · split
      · exact memOk_stalled h
      · split
        · exact memOk_withLate h2 (fun _ _ h' => memOk_endSentence (memOk_putFibres h'))
        · exact memOk_goOn h2
theorem memOk_touchRegs {g : Group} {i : Instr} {guard : Guard} (h : s.memOk) : (s.touchRegs g i guard).memOk :=
  memOk_each h (fun _ _ h' => memOk_each h' (fun _ _ h'' => memOk_each h'' (fun _ _ h''' => memOk_ite (memOk_regTouch h''') h''')))
theorem memOk_fetchWalk {g : Group} {la : Nat} (h : s.memOk) : (s.fetchWalk g la).memOk := by
  unfold State.fetchWalk
  split
  · exact h
  · exact memOk_each (memOk_walkLoads h) (fun _ _ h' => memOk_setStamp h')
theorem memOk_fetchWalks {g : Group} {la : Nat} {next : Bool} (h : s.memOk) : (s.fetchWalks g la next).memOk := by
  unfold State.fetchWalks
  extract_lets s1
  have h1 : s1.memOk := by
    unfold s1
    split
    · exact h
    · exact memOk_fetchWalk h
  clear_value s1
  split
  · exact memOk_fetchWalk h1
  · exact h1
theorem memOk_portTurn {core p : Nat} (h : s.memOk) : (s.portTurn core p).MemOk := by
  unfold State.portTurn
  extract_lets s1
  have h1 : s1.memOk := h
  clear_value s1
  split
  · exact h1
  · split
    · exact memOk_freePort h1
    · extract_lets f2
      have h2 : ∀ t x1, t.memOk → (f2 t x1).memOk := fun _ _ h' => memOk_putFibres h'
      clear_value f2
      split
      · exact h2 _ _ h1
      · extract_lets s3 _ d4
        have h3 : s3.memOk := h2 _ _ h1
        clear_value s3 d4
        split
        · exact memOk_askCode h3
        · change State.memOk _ = true
          split
          · split
            · exact memOk_askCode h3
            · exact memOk_fetchFault h3
          · exact memOk_fetchFault h3
      · exact memOk_putPort (memOk_touchRegs (memOk_fetchWalks (h2 _ _ h1)))

/-! ### The bankers and far read-modify-writes -/
theorem memOk_bankerOp {i : Instr} (h : s.memOk) : OutOk (bankerOp i s) := by
  cases i with
  | iadd _ | isub _ | imul _ | imulh _ | imad _ | imad64 _ | iadd64 _ | lea _ | ineg _ | iabs _ | imin _ | imax _ | andb _ | orb _ | xorb _ | andn _
  | notb _ | shl _ | shr _ | sar _ | funshf _ | bfe _ | bfi _ | popc _ | clz _ | brev _ | isetp _ | isel _ | mov _ | movi _ | fadd _ | fsub _
  | fmul _ | ffma _ | fmin _ | fmax _ | fminnum _ | fmaxnum _ | fsetp _ | fclass _ | frnd _ | fscale _ | fcpysgn _ | dadd _ | dmul _ | dfma _
  | dsetp _ | hadd2 _ | hmul2 _ | hfma2 _ | badd2 _ | bmul2 _ | bfma2 _ | fstatw _ | rcp _ | rsq _ | sqrt _ | ex2 _ | lg2 _ | tanh _ | sinpi _
  | cospi _ | ftoi _ | itof _ | fcvt _ | nop _ | hrem _ | fpin _ | funpin _ | wpwait _ | timew _ | scrubq _ => exact memOk_runG h
  | movs _ => exact memOk_execMovs h
  | shfl _ | qswap _ | qbcast _ => exact memOk_runExchange h
  | vote _ | redux _ | cfence _ | mrd _ | mact _ | rwait _ => exact memOk_runCrew h (fun _ _ h' => h')
  | fredux _ => exact memOk_execFredux h
  | matchl _ => exact memOk_execMatchl h
  | join _ | leave _ | mand _ | mor _ | mxor _ | mnot _ => exact memOk_runMask h
  | mwr _ => exact memOk_execMwr h
  | fenceSys _ => exact memOk_execFenceSys h
  | bankcfg _ => exact memOk_execBankcfg h
  | barinit _ => exact memOk_execBarinit h
  | bara _ | baraw _ => exact memOk_runArrive h
  | barw _ => exact memOk_runGRole h
  | rpost _ => exact memOk_execRpost h
  | movsw _ => exact memOk_execMovsw h
  | hinst _ => exact memOk_execHinst h
  | _ => trivial
theorem memOk_bankerState {ctx launch core : Nat} {entry va : DWord} {ops : List Word} (h : s.memOk) :
    (s.bankerState ctx launch core entry va ops).memOk :=
  h
theorem memOk_afterBanker {s t : State} (h : s.memOk) : (s.afterBanker t).memOk := h
theorem memOk_bankerNext {core : Nat} {f : Fibre} (h : s.memOk) : (s.bankerNext core f).memOk := by
  unfold State.bankerNext
  split
  · exact memOk_putPort (memOk_putFibre h)
  · exact h
theorem memOk_bankerStep {core va : Nat} {line : List Byte} (h : s.memOk) : SomeOk Prod.fst (bankerStep s core va line) := by
  unfold bankerStep
  split
  · split
    · exact memOk_putFibre h
    · dsimp only
      split
      · split
        · exact memOk_putPort (memOk_putFibre h)
        · trivial
      · split
        · exact memOk_bankerNext (memOk_putPort (memOk_putFibre h))
        · split
          · split
            · exact someOk_mapAll fun _ => memOk_bankerNext (memOk_putPort (memOk_putFibre h))
            · trivial
          · trivial
      · split
        · exact memOk_bankerNext (memOk_putPort (memOk_putFibre h))
        · split
          · split
            · exact someOk_mapAll fun _ => memOk_bankerNext (memOk_ite (memOk_setGen (memOk_putPort (memOk_putFibre h)))
                (memOk_putPort (memOk_putFibre h)))
            · trivial
          · trivial
      · split
        next e =>
          have ht := holds_of_eq (P := OutOk) (memOk_bankerOp (memOk_putPort (memOk_putFibre h))) e
          split
          · split
            · exact ht
            · trivial
          · trivial
        next => trivial
    · trivial
  · trivial
theorem memOk_bankerRun {n : Nat} {core va : Nat} {line : List Byte} (h : s.memOk) : SomeOk Prod.fst (bankerRun n s core va line) := by
  induction n generalizing s line with
  | zero => trivial
  | succ n ih =>
    unfold bankerRun
    split
    · trivial
    next e => exact someOk_mapAll fun _ => memOk_of_some_fst (memOk_bankerStep h) e
    next e => exact ih (memOk_of_some_fst (memOk_bankerStep h) e)
theorem memOk_customRun {ctx launch core : Nat} {entry va : BitVec 64} {ops : List Word} {line : List Byte} (h : s.memOk) :
    SomeOk Prod.fst (s.customRun ctx launch core entry va ops line) :=
  someOk_map (memOk_bankerRun (memOk_bankerState h)) fun _ _ => memOk_afterBanker h
theorem memOk_checkXop {o : GOp} (h : s.memOk) : EitherOk (s.checkXop o) := by
  unfold State.checkXop
  split
  · extract_lets
    split
    · exact h
    · split
      · split
        · exact h
        · split
          · exact memOk_askCode h
          · exact memOk_putLaunch h
      · exact h
  · exact h
theorem memOk_atomxAct {o : GOp} : (atomxAct o).Keeps := fun s acts m x h => by
  dsimp only [atomxAct]
  split
  · split
    · exact memOk_rmwInto h
    · exact memOk_goFar h
    · exact h
  · exact h
theorem memOk_noteXop {o : GOp} (h : s.memOk) : (s.noteXop o).memOk := by
  unfold State.noteXop
  split
  · split
    · split
      · split
        · exact memOk_putLaunch h
        · exact h
      · exact h
    · exact h
  · exact h
theorem memOk_execAtomx {o : GOp} (h : s.memOk) : Out.MemOk (execAtomx o s) := by
  unfold execAtomx
  split
  next e => exact holds_of_eq (P := EitherOk) (memOk_checkXop (memOk_noteXop h)) e
  next e => exact memOk_runMem (holds_of_eq (P := EitherOk) (memOk_checkXop (memOk_noteXop h)) e) memOk_atomxAct fun _ _ _ ht => ht
theorem memOk_bankerRmw {ag : Agent} {ctx launch cl va : Nat} {p : PA} {r : Rmw} (h : s.memOk) : (s.bankerRmw ag ctx launch cl va p r).1.s.memOk := by
  unfold State.bankerRmw
  split
  · extract_lets
    split
    next e =>
      have h1 := holds_of_eq (memOk_customRun h) e
      extract_lets r1
      have h2 : r1.s.memOk := memOk_rmwAt h1 _ _ _ _ _
      clear_value r1
      split
      · exact memOk_rmwAt h _ _ _ _ _
      · exact h2
    · exact memOk_rmwAt h _ _ _ _ _
  · exact memOk_rmwAt h _ _ _ _ _
theorem memOk_farOne {cl : Nat} {r : FarReq} (h : s.memOk) : (s.farOne cl r).memOk := by
  unfold State.farOne
  extract_lets
  split
  next e =>
    have h1 := memOk_of_eq (fun r => r.1.s) (memOk_bankerRmw h) e
    split
    · exact (memOk_stopFor _ _).trans h1
    · extract_lets s1
      have h2 : s1.memOk := memOk_setStamp h1
      clear_value s1
      split <;> exact h2
theorem memOk_askFor {agent ctx ts la : Nat} (h : s.memOk) : (s.askFor agent ctx ts la).memOk := by
  unfold State.askFor
  split
  · exact h
  · split
    next e =>
      have h1 := memOk_of_fst (memOk_askLine h) e
      exact h1
    next e =>
      have h1 := memOk_of_fst (memOk_askLine h) e
      exact h1
theorem memOk_doneCode {agent : Nat} (h : s.memOk) : (s.doneCode agent).memOk := by
  unfold State.doneCode; split <;> exact h
theorem memOk_farAway {r : FarReq} {owner : Nat} (h : s.memOk) : (s.farAway r owner).memOk := h
theorem memOk_farMoved {r : FarReq} {p : PA} (h : s.memOk) : (s.farMoved r p).1.memOk := by
  unfold State.farMoved
  split
  · exact h
  · exact memOk_walkLoads h
theorem memOk_farTake {cl : Nat} {buf : List FarReq} {n : Nat} {l kept : List FarReq} (h : s.memOk) : (State.farTake s cl buf n l kept).1.memOk := by
  fun_induction State.farTake s cl buf n l kept with
  | case1 | case2 => exact h
  | case3 | case6 | case8 => rename_i ih; exact ih h
  | case4 => rename_i ih; exact ih (memOk_askFor h)
  | case5 => rename_i ih; exact ih (memOk_farAway h)
  | case7 => rename_i e ih; exact ih (memOk_doneCode (memOk_farOne (memOk_of_fst (memOk_farMoved h) e)))
theorem memOk_execBankerRequest {cluster : Nat} (h : s.memOk) : Out.MemOk (execBankerRequest cluster s) := by
  unfold execBankerRequest
  split
  · trivial
  · exact memOk_each (memOk_putCluster (memOk_farTake h)) (fun _ _ h' => memOk_landed h')
theorem memOk_memAct {i : Instr} : (memAct i).Keeps := by
  cases i with
  | ld _ => exact memOk_ldAct
  | ldc _ => exact memOk_ldcAct
  | st _ => exact memOk_stAct
  | atom _ | atom64 _ | cas2 _ => exact memOk_atomAct
  | red _ => exact memOk_redAct
  | atomx _ => exact memOk_atomxAct
  | _ => exact memOk_plainAct fun _ _ _ h => h
theorem memOk_lateFault {f : Fibre} {m : MemLane} {word : Word} {x : FaultInfo} (h : s.memOk) : (s.lateFault f m word x).memOk :=
  memOk_modFibre (memOk_ite (memOk_newSeed h) (memOk_fillInto (memOk_newSeed h)))
theorem memOk_asLane {f : Fibre} {act : State → State} (h : s.memOk) (hact : ∀ t, t.memOk → (act t).memOk) : (s.asLane f act).memOk := by
  unfold State.asLane
  split
  · exact hact _ h
  · exact hact _ (memOk_putFibre h)
theorem memOk_putJob {i : Nat} {j : MemJob} (h : s.memOk) : (s.putJob i j).memOk := h
theorem memOk_jobLane {i : Nat} {j : MemJob} {m : MemLane} {f : Fibre} (h : s.memOk) : (s.jobLane i j m f).memOk := by
  unfold State.jobLane
  extract_lets a done perform m1 part
  have hp : ∀ {t m r}, t.memOk → (perform t m r).memOk := fun {t m r} ht => by
    dsimp only [perform]
    split
    next e => exact memOk_putJob (memOk_of_some (memOk_memAct _ _ _ _ ht) e)
    next => exact ht
  clear_value a done perform m1 part
  split
  · split
    · exact h
    · exact memOk_lateFault (memOk_putJob h)
    · exact memOk_putJob (memOk_setStamp h)
  · have hw : ∀ k l, (if j.nth = 0 then s.laneWalks k 0 l else (s, false)).1.memOk := fun k l => by
      split
      · exact memOk_laneWalks h
      · exact h
    split
    · exact memOk_lateFault (memOk_putJob h)
    · split
      next e => exact memOk_putJob (memOk_of_fst (hw _ _) e)
      next e =>
        have ht := memOk_of_fst (hw _ _) e
        split
        · exact hp ht
        · split
          · exact hp ht
          · split
            · exact memOk_putJob ht
            · extract_lets q
              exact memOk_ite (memOk_putJob ((memOk_stopFor _ _).trans (memOk_partHere ht))) (memOk_putJob (memOk_setStamp (memOk_partHere ht)))
theorem memOk_jobTurn {i : Nat} (h : s.memOk) : (s.jobTurn i).memOk := by
  unfold State.jobTurn
  split
  · exact h
  · split
    · exact h
    · split
      · exact h
      · split
        · exact memOk_putJob h
        · exact memOk_landed (memOk_asLane h (fun _ h' => memOk_jobLane h'))

/-! ### The link between devices -/
theorem memOk_sendMsg {m : Msg} (h : s.memOk) : (s.sendMsg m).memOk := h
theorem memOk_tell {dst ctx ts : Nat} {b : MsgBody} {tc : optParam Nat 1} (h : s.memOk) : (s.tell dst ctx ts b tc).memOk := memOk_sendMsg h
theorem memOk_putLinkHead {c : Cmd} (h : s.memOk) : (s.putLinkHead c).memOk := h
theorem memOk_linkSent {c : Cmd} {v : Option DWord} (h : s.memOk) : (s.linkSent c v).memOk := h
theorem memOk_linkFail {c : Cmd} {r : Nat} (h : s.memOk) : (s.linkFail c r).memOk := memOk_linkSent h
theorem memOk_linkSourceFault {c : Cmd} {x : FaultInfo} (h : s.memOk) : (s.linkSourceFault c x).memOk := memOk_linkFail (memOk_reportCmd h)
theorem memOk_execLinkSend (h : s.memOk) : Out.MemOk (execLinkSend s) := by
  unfold execLinkSend
  split
  · exact h
  · extract_lets
    split
    · exact memOk_linkFail h
    · split
      · exact memOk_linkSent (memOk_sendMsg h)
      · split
        next e =>
          have h1 := holds_of_eq (memOk_fetchPiece h (fun _ _ h' => memOk_putLinkHead h')) e
          exact h1
        next e =>
          have h1 := holds_of_eq (memOk_fetchPiece h (fun _ _ h' => memOk_putLinkHead h')) e
          exact memOk_linkSourceFault h1
        next e =>
          have h1 := holds_of_eq (memOk_fetchPiece h (fun _ _ h' => memOk_putLinkHead h')) e
          exact memOk_putLinkHead h1
theorem memOk_execLinkReceivePost (h : s.memOk) : Out.MemOk (execLinkReceivePost s) := by
  unfold execLinkReceivePost; split <;> exact h
theorem memOk_execLinkRemoteRed (h : s.memOk) : Out.MemOk (execLinkRemoteRed s) := by
  unfold execLinkRemoteRed
  split
  · exact h
  · split
    · exact memOk_linkFail h
    · exact memOk_linkSent (memOk_sendMsg h)
theorem memOk_execLinkRemoteCall (h : s.memOk) : Out.MemOk (execLinkRemoteCall s) := by
  unfold execLinkRemoteCall
  split
  · exact h
  · extract_lets f1
    have h1 : ∀ x0, (f1 x0).memOk := fun _ => memOk_linkSent (memOk_sendMsg h)
    clear_value f1
    split
    · exact memOk_linkSourceFault h
    · exact h
    · exact h1 _
    · exact memOk_linkSourceFault h
    · exact memOk_linkSourceFault h
    · split
      · exact memOk_linkFail h
      · exact h1 _
theorem memOk_xferCheck {c : Cmd} (h : s.memOk) : (s.xferCheck c).2.memOk := by
  unfold State.xferCheck
  extract_lets
  split
  next e =>
    have h1 := memOk_of_snd (memOk_blockErr h) e
    extract_lets
    split
    · split
      · exact memOk_damage h1
      · exact h1
    · split
      · exact h1
      · split
        · exact h1
        · split
          · exact memOk_damage h1
          · split
            next e =>
              have h2 := memOk_of_snd (memOk_segsErr h1) e
              split
              · exact memOk_damage h2
              · split <;> exact h2
theorem memOk_dropXfer {id : Nat} (h : s.memOk) : (s.dropXfer id).memOk := h
theorem memOk_xferEnd {x : Xfer} {r : Option Nat} (h : s.memOk) : (s.xferEnd x r).memOk := show (s.dropXfer x.id).memOk from memOk_dropXfer h
theorem memOk_execContinuationTransfer {answer : Option (Nat × BitVec 8)} (h : s.memOk) : Out.MemOk (execContinuationTransfer answer s) := by
  unfold execContinuationTransfer
  split
  · split
    · exact h
    · split
      · exact memOk_linkFail h
      · split
        next e =>
          have h1 := memOk_of_snd (memOk_xferCheck h) e
          exact memOk_linkFail h1
        next e =>
          have h1 := memOk_of_snd (memOk_xferCheck h) e
          extract_lets _ _ _ s1
          have h2 : s1.memOk := memOk_sendMsg h1
          clear_value s1
          exact h2
  · split
    · exact h
    · extract_lets
      split
      · exact memOk_xferEnd h
      · split
        next e =>
          have h1 := memOk_of_snd (memOk_xferCheck h) e
          exact memOk_xferEnd h1
        next e =>
          have h1 := memOk_of_snd (memOk_xferCheck h) e
          extract_lets s1
          have h2 : s1.memOk := memOk_tell (memOk_consume h1)
          clear_value s1
          exact h2
theorem memOk_execTransferFilingAck {id : Nat} (h : s.memOk) : Out.MemOk (execTransferFilingAck id s) := by
  unfold execTransferFilingAck
  split
  · exact h
  · exact memOk_xferEnd (memOk_putHeap h)
theorem memOk_takeXfer {src id ctx cluster launch : Nat} {b : Word} {blk : Block} {tc : Nat} (h : s.memOk) :
    (s.takeXfer src id ctx cluster launch b blk tc).memOk := by
  unfold State.takeXfer
  extract_lets f1
  have h1 : ∀ x0, (f1 x0).memOk := fun _ => memOk_tell h
  clear_value f1
  split
  · split
    · exact h1 _
    · split
      · exact h1 _
      · split
        · exact h1 _
        · extract_lets _ _ s2
          have h2 : s2.memOk := memOk_tell (memOk_putHeap h)
          clear_value s2
          exact h2
  · exact h1 _
theorem memOk_dropXferIn {id : Nat} (h : s.memOk) : (s.dropXferIn id).memOk := h
theorem memOk_execTransferCommitArrival {id : Nat} (h : s.memOk) : Out.MemOk (execTransferCommitArrival id s) := by
  unfold execTransferCommitArrival
  split
  · exact h
  · exact memOk_tell (memOk_dropXferIn (memOk_arrive h))
theorem memOk_execTransferCommitTimeout {id : Nat} (h : s.memOk) : Out.MemOk (execTransferCommitTimeout id s) := by
  unfold execTransferCommitTimeout
  split
  · exact h
  · split
    · exact h
    · exact memOk_dropXferIn (memOk_putHeap h)
theorem memOk_waitIn {i : Instr} (h : s.memOk) : Out.MemOk (s.waitIn i) := by
  unfold State.waitIn; split <;> exact h
theorem memOk_doneIn (h : s.memOk) : s.doneIn.memOk := by
  unfold State.doneIn; split <;> exact h
theorem memOk_putPost {old new : Post} (h : s.memOk) : (s.putPost old new).memOk := h
theorem memOk_fillPost {n : Nat} {c : Cmd} (h : s.memOk) : (State.fillPost n s c).MemOk := by
  induction n generalizing s c with
  | zero => exact h
  | succ n ih =>
    unfold State.fillPost
    split
    · exact h
    · extract_lets rest
      split
      · split
        · exact memOk_engAsk h
        · exact h
        · trivial
        · exact ih h
      · split
        · exact h
        · split
          · trivial
          · exact ih (memOk_engStore h)
theorem memOk_execSendArrival {src ctx : Nat} {key : BitVec 16} {data : List Byte} {ts : Stamped (BitVec 2)} (h : s.memOk) :
    Out.MemOk (execSendArrival src ctx key data ts s) := by
  unfold execSendArrival
  extract_lets _ _ f1 f2
  have h1 : ∀ t x1 x2 x3 x4 x5, t.memOk → Out.MemOk (f1 t x1 x2 x3 x4 x5) := fun _ _ _ _ _ _ h' => memOk_tell (memOk_doneIn h')
  have h2 : ∀ t x1, t.memOk → Out.MemOk (f2 t x1) := fun _ _ h' => h1 _ _ _ _ _ _ h'
  clear_value f1 f2
  split
  · exact memOk_tell (memOk_doneIn h)
  · split
    · exact memOk_waitIn h
    · split
      · exact memOk_waitIn h
      · extract_lets _ f3
        have h3 : ∀ t x1, t.memOk → Out.MemOk (f3 t x1) := by
          unfold f3
          intro t4 x5 h4
          split
          · exact h2 _ _ h4
          next e =>
            have h5 := holds_of_eq (memOk_fillPost h4) e
            exact memOk_waitIn (memOk_putPost h5)
          next e =>
            have h5 := holds_of_eq (memOk_fillPost h4) e
            exact h1 _ _ _ _ _ _ h5
        clear_value f3
        split
        · exact h3 _ _ h
        · split
          next e =>
            have h6 := holds_of_eq (memOk_claimAll h) e
            exact h2 _ _ h6
          · exact memOk_waitIn h
          next e =>
            have h6 := holds_of_eq (memOk_claimAll h) e
            exact memOk_waitIn h6
          next e =>
            have h6 := holds_of_eq (memOk_claimAll h) e
            exact h3 _ _ (memOk_putPost h6)
theorem memOk_ownerPerform {ag : Agent} {src ctx : Nat} {va : BitVec 64} {acc : PeerAcc} {l : List Spot} (h : s.memOk) :
    (s.ownerPerform ag src ctx va acc l).s.memOk := by
  unfold State.ownerPerform
  split
  · exact memOk_loadSpots h
  · exact memOk_storeSpots h
  · exact memOk_storeView h
  · split
    · exact memOk_hostWrite h
    · exact memOk_bankerRmw h
  · exact memOk_readCheck h _ _ _
  · exact memOk_readSpan h
  · exact memOk_engStore h
  · exact memOk_readRegion h
  · extract_lets r1
    have h1 : r1.s.memOk := memOk_engStore h
    clear_value r1
    split
    · split
      · exact memOk_unclaim h1
      · exact h1
    · exact h1
  · exact memOk_placeClaim h
  · exact h
theorem memOk_execPeerAccessRequest {src id ctx : Nat} {va : BitVec 64} {acc : PeerAcc} {ts hops : Nat} (h : s.memOk) :
    Out.MemOk (execPeerAccessRequest src id ctx va acc ts hops s) := by
  unfold execPeerAccessRequest
  extract_lets _ f1 f2
  have h1 : ∀ t x1 x2, t.memOk → Out.MemOk (f1 t x1 x2) := fun _ _ _ h' => memOk_tell (memOk_doneIn h')
  have h2 : ∀ x0, Out.MemOk (f2 x0) := fun _ => h1 _ _ _ h
  clear_value f1 f2
  split
  · exact memOk_releaseClaims (memOk_doneIn h)
  · split
    · exact h2 _
    · split
      · exact memOk_waitIn (memOk_askFor h)
      · split
        · split
          · exact memOk_waitIn h
          · exact h2 _
        · split
          · split
            · exact h2 _
            · exact memOk_tell (memOk_doneIn h)
          · split
            · exact h1 _ _ _ h
            · exact h1 _ _ _ h
            · extract_lets s3 r4 r5
              have h3 : s3.memOk := by
                unfold s3
                split
                · split <;> exact h
                · exact h
              have h4 : r4.s.memOk := memOk_walkLoads h3
              have h5 : r5.s.memOk := memOk_ownerPerform h4
              clear_value s3 r4 r5
              split
              · exact memOk_waitIn h3
              · split
                · exact (memOk_stopFor _ _).trans (memOk_doneIn h4)
                · split
                  · exact (memOk_stopFor _ _).trans (memOk_doneIn h5)
                  · exact h1 _ _ _ h5
theorem memOk_claimStamps {id ts : Nat} (h : s.memOk) : (s.claimStamps id ts).memOk := by
  unfold State.claimStamps
  refine memOk_each h fun t1 _ h1 => ?_
  refine memOk_each h1 fun t2 _ h2 => ?_
  split
  · exact h2
  · split
    · exact memOk_chanStamp h2
    · exact memOk_setStamp h2
theorem memOk_answerAll {id : Nat} {r : PeerReply} {ts : Nat} (h : s.memOk) : (s.answerAll id r ts).memOk := memOk_claimStamps h
theorem memOk_execRemoteRedArrival {src ctx : Nat} {op : BitVec 4} {addr value : BitVec 64} {ts : Stamped (BitVec 2)} (h : s.memOk) :
    Out.MemOk (execRemoteRedArrival src ctx op addr value ts s) := by
  unfold execRemoteRedArrival
  extract_lets _ _ f1 r2
  have h1 : ∀ t, t.memOk → Out.MemOk (f1 t) := fun _ h' => memOk_tell (memOk_doneIn h')
  have h2 : r2.s.memOk := memOk_walkLoads h
  clear_value f1 r2
  split
  · exact h1 _ h
  · split
    · split
      · exact memOk_waitIn h
      · exact h1 _ h
    · split
      · exact memOk_tell (memOk_doneIn h)
      · split
        · exact memOk_waitIn h
        · split
          · exact (memOk_stopFor _ _).trans (memOk_doneIn h2)
          · extract_lets r3
            have h3 : r3.s.memOk := memOk_ownerPerform h2
            clear_value r3
            split
            · exact (memOk_stopFor _ _).trans (memOk_doneIn h3)
            · exact memOk_tell (memOk_doneIn h3)
theorem memOk_execRemoteCallArrival {src ctx cluster launch : Nat} {entry : BitVec 64} {args : List Word} {ts : Stamped (BitVec 2)} {s : State}
    (h : s.memOk) : Out.MemOk (execRemoteCallArrival src ctx cluster launch entry args ts s) := by
  unfold execRemoteCallArrival
  extract_lets _ f1
  have h1 : ∀ t, t.memOk → Out.MemOk (f1 t) := fun _ h' => memOk_tell (memOk_doneCode (memOk_doneIn h'))
  clear_value f1
  split
  · exact h1 _ h
  · split
    · split
      · exact memOk_waitIn (memOk_askFor h)
      · exact h1 _ h
    · split
      · exact h1 _ h
      · exact memOk_tell (memOk_doneCode (memOk_doneIn (memOk_arrive h)))
theorem memOk_modRange {ctx va : Nat} {g : MigRange → Nat → MigRange} (h : s.memOk) : (s.modRange ctx va g).memOk := by
  unfold State.modRange
  split
  · exact h
  · exact memOk_putCtx h
theorem memOk_writeLeaf {ctx ts : Nat} {pte : PA} {loc addr : Nat} (h : s.memOk) : (s.writeLeaf ctx ts pte loc addr).memOk := memOk_writeAt h _ _ _ _
theorem memOk_claimLines {key ts : Nat} {ls : List PA} (h : s.memOk) : (s.claimLines key ts ls).1.memOk :=
  memOk_fold Prod.fst h (fun _ _ h' => memOk_placeClaim h')
theorem memOk_dropHand {ctx va : Nat} (h : s.memOk) : (s.dropHand ctx va).memOk := h
theorem memOk_clearPeers {ctx va : Nat} (h : s.memOk) : (s.clearPeers ctx va).memOk := memOk_modRange h
theorem memOk_liftLine {ts ctx : Nat} {p : PA} (h : s.memOk) : (s.liftLine ts ctx p).1.s.memOk := memOk_readAt h _ _ _ _
theorem memOk_execOwnershipHandover {ctx : Nat} {va : BitVec 64} {peer : Nat} (h : s.memOk) : Out.MemOk (execOwnershipHandover ctx va peer s) := by
  unfold execOwnershipHandover
  extract_lets
  split
  · extract_lets
    split
    · exact h
    · split
      next e =>
        have h1 := memOk_of_fst (memOk_claimLines h) e
        split
        next s1 _ _ _ e =>
          have h2 : s1.memOk := by
            refine memOk_of_fst ?_ e
            exact memOk_fold Prod.fst h1 (fun _ _ h' => memOk_liftLine h')
          extract_lets _ s2
          have h3 : s2.memOk := memOk_sendMsg h2
          clear_value s2
          exact h3
  · exact h
theorem memOk_execHandoverData {src ctx : Nat} {va : BitVec 64} {data : Stamped (List Byte)} {poison : List (Nat × Nat)} (h : s.memOk) :
    Out.MemOk (execHandoverData src ctx va data poison s) := by
  unfold execHandoverData
  extract_lets v
  split
  · extract_lets base s1 s2
    split
    · exact h
    · have h1 : s1.memOk := memOk_devBytes h
      have h2 : s2.memOk := memOk_each h1 fun _ _ ht => (memOk_putLine _ _ _).trans ht
      clear_value s1 s2
      split
      next e =>
        extract_lets s3 s4
        have h3 : s3.memOk := memOk_writeLeaf (memOk_of_fst (memOk_claimLines h2) e)
        clear_value s3
        have h4 : s4.memOk := memOk_sendMsg h3
        clear_value s4
        exact h4
  · exact h
theorem memOk_execHandoverReceipt {ctx : Nat} {va : BitVec 64} {peer : Nat} (h : s.memOk) : Out.MemOk (execHandoverReceipt ctx va peer s) := by
  unfold execHandoverReceipt
  split
  · split
    · exact h
    · exact memOk_sendMsg (memOk_clearPeers (memOk_dropHand (memOk_releaseClaims (memOk_writeLeaf h))))
  · exact h
theorem memOk_execHandoverCommit {ctx : Nat} {va : BitVec 64} (h : s.memOk) : Out.MemOk (execHandoverCommit ctx va s) := by
  unfold execHandoverCommit
  split
  · exact memOk_clearPeers (memOk_dropHand (memOk_releaseClaims h))
  · exact h
theorem memOk_execHandoverReceiptTimeout {ctx : Nat} {va : BitVec 64} (h : s.memOk) : Out.MemOk (execHandoverReceiptTimeout ctx va s) := by
  unfold execHandoverReceiptTimeout
  split
  · split
    · exact h
    · exact memOk_clearPeers (memOk_dropHand (memOk_releaseClaims h))
  · exact h
theorem memOk_execHandoverCommitTimeout {ctx : Nat} {va : BitVec 64} (h : s.memOk) : Out.MemOk (execHandoverCommitTimeout ctx va s) := by
  unfold execHandoverCommitTimeout
  split
  · exact h
  · split
    · exact h
    · split
      · split
        · exact memOk_modRange (memOk_dropHand (memOk_releaseClaims h))
        · exact memOk_dropHand (memOk_releaseClaims h)
      · exact memOk_sendMsg h
theorem memOk_loseXfer {x : Xfer} (h : s.memOk) : (s.loseXfer x).memOk := memOk_xferEnd (memOk_ite (memOk_modSummary (memOk_putHeap h)) h)
theorem memOk_routeLost {dev : Nat} (h : s.memOk) : (s.routeLost dev).memOk := by
  unfold State.routeLost; split <;> exact h
theorem memOk_execDestinationUnreachable {dev : Nat} (h : s.memOk) : Out.MemOk (execDestinationUnreachable dev s) := by
  unfold execDestinationUnreachable
  split
  · trivial
  · split
    · exact h
    · exact memOk_each (memOk_each h (fun _ _ h' => memOk_loseXfer h')) (fun _ _ h' => memOk_answerAll h')
theorem memOk_execRouteReturn {dev : Nat} (h : s.memOk) : Out.MemOk (execRouteReturn dev s) := by
  unfold execRouteReturn
  split
  · trivial
  · exact h
theorem memOk_execLinkPortDown {port : Nat} (h : s.memOk) : Out.MemOk (execLinkPortDown port s) := by
  unfold execLinkPortDown
  split
  · trivial
  · exact h
theorem memOk_completeLink {i : Nat} {c : Cmd} {v : DWord} (h : s.memOk) : (s.completeLink i c v).memOk := by
  unfold State.completeLink
  extract_lets f1 f2 f3
  have h1 : ∀ t, t.memOk → (f1 t).memOk := fun _ h' => memOk_ite (memOk_breakBound h') (memOk_bindArrive h')
  have h2 : ∀ t, t.memOk → (f2 t).memOk := fun _ h' => memOk_tidyLaunch h'
  have h3 : ∀ t, t.memOk → (f3 t).memOk := fun _ h' => h'
  clear_value f1 f2 f3
  split
  next e =>
    have h4 := holds_of_eq (memOk_completionStore h) e
    exact h2 _ (memOk_ite (h3 _ (h1 _ h4)) (h1 _ h4))
  · exact h2 _ (h3 _ (h1 _ h))
  · exact h
  next e =>
    have h4 := holds_of_eq (memOk_completionStore h) e
    exact h1 _ h4
theorem memOk_completeLocal {cl q : Nat} {c : Cmd} {ts : Nat} {put : State → Cmd → State} {pop halt : State → State} (h : s.memOk)
    (hput : ∀ t x1, t.memOk → (put t x1).memOk) (hpop : ∀ t, t.memOk → (pop t).memOk) (hhalt : ∀ t, t.memOk → (halt t).memOk) :
    (s.completeLocal cl q c ts put pop halt).memOk := by
  unfold State.completeLocal
  split
  next e =>
    have h1 := holds_of_eq (memOk_completionStore h) e
    exact memOk_tidyLaunch (hpop _ (memOk_bindArrive h1))
  · exact memOk_tidyLaunch (memOk_reportCmd (hhalt _ (memOk_bindArrive h)))
  · exact h
  next e =>
    have h1 := holds_of_eq (memOk_completionStore h) e
    exact hput _ _ (memOk_bindArrive h1)
theorem memOk_popStream {ctx cl st : Nat} (h : s.memOk) : (s.popStream ctx cl st).memOk := memOk_putCLC h
theorem memOk_putStreamHead {ctx cl st : Nat} {c : Cmd} (h : s.memOk) : (s.putStreamHead ctx cl st c).memOk := memOk_putCLC h
theorem memOk_dropStream {ctx cl st : Nat} (h : s.memOk) : (s.dropStream ctx cl st).memOk :=
  memOk_each (memOk_haltStream (memOk_putCLC h)) (fun _ _ h' => memOk_tidyLaunch (memOk_breakBound h'))
theorem memOk_execCommandComplete {cluster queue index : Nat} {answer : Stamped (BitVec 8)} (h : s.memOk) :
    Out.MemOk (execCommandComplete cluster queue index answer s) := by
  unfold execCommandComplete
  split
  · trivial
  · split
    · split
      · exact h
      · exact memOk_completeLink h
      · exact memOk_ite (memOk_completeLink h) (memOk_completeLink h)
    · split
      · exact h
      · split
        · extract_lets
          split
          · split
            · exact h
            · exact memOk_completeLocal h (fun _ _ h' => memOk_putHead h') (fun _ h' => memOk_putChan h') (fun _ h' => memOk_haltChan h')
          · exact h
        · split
          · split
            · exact h
            · exact memOk_completeLocal h (fun _ _ h' => memOk_putStreamHead h') (fun _ h' => memOk_popStream h') (fun _ h' => memOk_dropStream h')
          · exact h

/-! ### The Dyzil engines -/
theorem memOk_feLoad {ctx q ts : Nat} {a : DWord} {n : Nat} {win : Bool} (h : s.memOk) : (s.feLoad ctx q ts a n win).MemOk := by
  unfold State.feLoad
  split
  · trivial
  · split
    · trivial
    · extract_lets r1 _ r2
      have h1 : r1.s.memOk := memOk_walkLoads h
      have h2 : r2.s.memOk := by
        unfold r2
        split
        · exact memOk_readRegion h1
        · exact memOk_readAt h1 _ _ _ _
      clear_value r1 r2
      split <;> exact h2
theorem memOk_feStore {ctx q ts : Nat} {a : DWord} {bs : List Byte} {win : Bool} (h : s.memOk) : (s.feStore ctx q ts a bs win).MemOk := by
  unfold State.feStore
  split
  · trivial
  · split
    · trivial
    · extract_lets r1 r2
      have h1 : r1.s.memOk := memOk_walkLoads h
      have h2 : r2.s.memOk := memOk_writeAt h1 _ _ _ _
      clear_value r1 r2
      split
      · exact h1
      · exact h2
theorem memOk_feAsk {q ctx ts owner va n : Nat} (h : s.memOk) : (s.feAsk q ctx ts owner va n).memOk :=
  show (s.engAsk ctx ts owner va (PeerAcc.load n)).2.memOk from memOk_engAsk h
theorem memOk_feReadPieces {ctx q : Nat} {l : List (Nat × Nat)} {ts : Nat} {acc : List Byte} (h : s.memOk) :
    (State.feReadPieces ctx q l s ts acc).MemOk := by
  induction l generalizing s ts acc with
  | nil => exact h
  | cons x r ih =>
    unfold State.feReadPieces
    split
    · trivial
    · split
      · split
        · trivial
        · split
          · trivial
          · exact ih h
          · trivial
          · trivial
      · split
        · trivial
        · split
          · trivial
          · extract_lets w a
            split
            · exact memOk_loadSpots (memOk_walkLoads h)
            · exact ih (memOk_loadSpots (memOk_walkLoads h))
theorem memOk_feRead {ctx q ts va n : Nat} (h : s.memOk) : (s.feRead ctx q ts va n).MemOk := memOk_feReadPieces h
theorem memOk_modQueue {q : Nat} {g : Queue → Queue} (h : s.memOk) : (s.modQueue q g).memOk := by
  unfold State.modQueue
  split
  · exact memOk_putQueue h
  · exact h
theorem memOk_tidyQueue {q : Nat} (h : s.memOk) : (s.tidyQueue q).memOk := by
  unfold State.tidyQueue
  split
  · exact h
  · split
    · exact memOk_putQreg (memOk_each h (fun _ _ h' => memOk_tidyLaunch h'))
    · exact h
theorem memOk_queueError {q code epc etag ecause : Nat} (h : s.memOk) : (s.queueError q code epc etag ecause).memOk := by
  unfold State.queueError
  split
  · exact h
  · extract_lets s1 _ _ s2 _ r3
    have h1 : s1.memOk := memOk_doneCode h
    have h2 : s2.memOk := memOk_putQreg h1
    have h3 : r3.s.memOk := memOk_walkLoads h2
    clear_value s1 s2 r3
    split
    · exact memOk_tidyQueue (memOk_putQueue h1)
    · split
      · exact memOk_putQueue h2
      · split
        · exact memOk_putQueue h2
        · exact memOk_putQueue (memOk_writeAt h3 _ _ _ _)
theorem memOk_queueFault {q epc : Nat} {x : FaultInfo} (h : s.memOk) : (s.queueFault q epc x).memOk := memOk_queueError h
theorem memOk_runD {go : State → Nat → Queue → State} (h : s.memOk) (hgo : ∀ t x1 x2, t.memOk → (go t x1 x2).memOk) : Out.MemOk (runD s go) := by
  unfold runD
  split
  · split
    · split
      · exact hgo _ _ _ h
      · trivial
    · trivial
  · trivial
theorem memOk_regD {g : Queue → Queue} (h : s.memOk) : Out.MemOk (regD s g) := memOk_runD h (fun _ _ _ h' => memOk_putQueue h')
theorem memOk_branchD {k : BitVec 16} {c : Queue → Bool} (h : s.memOk) : Out.MemOk (branchD s k c) := memOk_runD h (fun _ _ _ h' => memOk_putQueue h')
theorem memOk_execDyzilLaunch {a : BitVec 4} {t : BitVec 16} (h : s.memOk) : Out.MemOk (execDyzilLaunch a t s) :=
  memOk_runD h fun u q x hu => by
    split
    · exact memOk_putQueue hu
    next c _ =>
      extract_lets +onlyGivenNames l s
      have hs : s.memOk := memOk_putQueue hu
      clear_value l s
      obtain ⟨need, hneed⟩ := exists_eq (a' := State.entriesNeed s)
      obtain ⟨number, hnumber⟩ := exists_eq (a' := State.freeNumber s)
      obtain ⟨read, hread, hok⟩ : ∃ f, f = State.feRead s ∧ ∀ c q t v n, (f c q t v n).MemOk := ⟨_, rfl, fun _ _ _ _ _ => memOk_feRead hs⟩
      rw [← hneed, ← hnumber, ← hread]
      refine memOk_ite (memOk_queueError hs) ?_
      split
      · exact memOk_askFor (memOk_putQueue hs)
      · refine memOk_ite (memOk_queueError hs) ?_
        split
        · exact memOk_putQueue (memOk_doneCode hs)
        · split
          next => exact memOk_queueFault hs
          next e => exact memOk_queueError (holds_of_eq (P := FeOut.MemOk) (hok _ _ _ _ _) e)
          next => exact memOk_putQueue hs
          next => exact memOk_feAsk (memOk_putQueue hs)
          next v _ _ e =>
            have hv : v.memOk := holds_of_eq (P := FeOut.MemOk) (hok _ _ _ _ _) e
            extract_lets s2 l2 us s3 s4
            have h3 : s3.memOk := by
              dsimp only [s3]
              split
              · exact memOk_putCtx (memOk_doneCode hv)
              · exact memOk_doneCode hv
            have h4 : s4.memOk := h3
            exact memOk_putQueue h4
theorem memOk_execDyzilRec {t : BitVec 16} (h : s.memOk) : Out.MemOk (execDyzilRec t s) :=
  memOk_runD h fun u q x hu => by
    extract_lets +onlyGivenNames s
    have hs : s.memOk := memOk_putQueue hu
    clear_value s
    obtain ⟨need, hneed⟩ := exists_eq (a' := State.entriesNeed s)
    rw [← hneed]
    split
    · exact memOk_putQueue hs
    · split
      · exact memOk_askFor (memOk_putQueue hs)
      · have hs2 : (s.doneCode q).memOk := memOk_doneCode hs
        exact memOk_ite (memOk_queueError hs2) (memOk_ite (memOk_putQueue hs2)
          (memOk_putQueue (memOk_arrive (memOk_putLaunch (memOk_newKey hs2)))))
theorem memOk_execDyzilSignal {a b : BitVec 4} {m : BitVec 16} (h : s.memOk) : Out.MemOk (execDyzilSignal a b m s) := by
  unfold execDyzilSignal
  refine memOk_runD h fun _ _ _ h1 => ?_
  extract_lets s4
  have h2 : s4.memOk := memOk_putQueue h1
  clear_value s4
  split
  · exact memOk_queueError h2
  · split
    · split
      · exact memOk_queueFault h2
      next e =>
        have h3 := holds_of_eq (memOk_feStore h2) e
        exact memOk_queueError h3
      next e =>
        have h3 := holds_of_eq (memOk_feStore h2) e
        exact memOk_modQueue h3
      · exact memOk_putQueue h2
    · split <;> exact memOk_putQueue h2
theorem memOk_execDyzilWaitv {a b : BitVec 4} {cc : BitVec 16} (h : s.memOk) : Out.MemOk (execDyzilWaitv a b cc s) := by
  unfold execDyzilWaitv
  refine memOk_runD h fun _ _ _ h1 => ?_
  extract_lets s4
  have h2 : s4.memOk := memOk_putQueue h1
  clear_value s4
  split
  · exact memOk_queueError h2
  · split
    next e _ =>
      have h3 := holds_of_eq (memOk_feLoad h2) e
      extract_lets
      split <;> exact memOk_putQueue h3
    · exact memOk_queueFault h2
    next e =>
      have h3 := holds_of_eq (memOk_feLoad h2) e
      exact memOk_queueError h3
    next e _ =>
      have h3 := holds_of_eq (memOk_feLoad h2) e
      exact memOk_queueFault h3
    · exact memOk_putQueue h2
theorem memOk_execDyzilDone (h : s.memOk) : Out.MemOk (execDyzilDone s) := by
  unfold execDyzilDone
  refine memOk_runD h fun _ _ _ h1 => ?_
  extract_lets s4
  have h2 : s4.memOk := memOk_putQueue h1
  clear_value s4
  split
  · exact memOk_queueFault h2
  next e =>
    have h3 := holds_of_eq (memOk_feStore h2) e
    exact memOk_queueError h3
  · exact memOk_putQueue h2
  · exact memOk_putQueue h2
  next e =>
    have h3 := holds_of_eq (memOk_feStore h2) e
    exact memOk_tidyQueue (memOk_modQueue h3)
theorem memOk_execDyzilBudget {q : Nat} (h : s.memOk) : Out.MemOk (execDyzilBudget q s) := by
  unfold execDyzilBudget
  split
  · trivial
  · split
    · split
      · exact memOk_queueError h
      · exact h
    · exact h

/-! ### Queues: wakes, creation and destruction -/
theorem memOk_execPacketStart {q : Nat} (h : s.memOk) : Out.MemOk (execPacketStart q s) := by
  unfold execPacketStart
  split
  · trivial
  · split
    · exact h
    · split
      · exact h
      · change State.memOk _ = true
        split
        · exact memOk_queueFault h
        next e =>
          have h1 := holds_of_eq (memOk_feLoad h) e
          exact memOk_queueError h1
        · exact h
        · exact h
        next e =>
          have h1 := holds_of_eq (memOk_feLoad h) e
          extract_lets s1
          have h2 : s1.memOk := memOk_modQueue h1
          clear_value s1
          split
          · exact h2
          · split
            next e _ =>
              have h3 := holds_of_eq (memOk_feLoad h2) e
              split <;> exact memOk_modQueue h3
            · exact memOk_queueFault h2
            next e =>
              have h3 := holds_of_eq (memOk_feLoad h2) e
              exact memOk_queueError h3
            next e _ =>
              have h3 := holds_of_eq (memOk_feLoad h2) e
              exact memOk_queueFault h3
            · exact h2
theorem memOk_queueRestart {q : Nat} {x : Queue} {ts idx : Nat} {p : PA} (h : s.memOk) : (s.queueRestart q x ts idx p).memOk :=
  memOk_putQueue (memOk_putQreg (memOk_writeAt (memOk_walkLoads h) _ _ _ _))
theorem memOk_wakeError {q : Nat} {x : Queue} (h : s.memOk) : (s.wakeError q x).memOk := by
  unfold State.wakeError
  extract_lets
  split
  next e _ =>
    have h1 := holds_of_eq (memOk_feLoad h) e
    split
    · exact memOk_queueRestart h1
    · exact memOk_putQueue h1
  next e =>
    have h1 := holds_of_eq (memOk_feLoad h) e
    exact memOk_queueError h1
  · exact h
  · exact memOk_putQueue (memOk_putQreg h)
theorem memOk_wakeStale {q : Nat} {x : Queue} (h : s.memOk) : (s.wakeStale q x).memOk := by
  unfold State.wakeStale
  split
  · exact memOk_queueFault h
  next e =>
    have h1 := holds_of_eq (memOk_feLoad h) e
    exact memOk_queueError h1
  · exact h
  · exact h
  next e =>
    have h1 := holds_of_eq (memOk_feLoad h) e
    split <;> exact memOk_putQueue h1
theorem memOk_wakeIndex {q : Nat} {x : Queue} (h : s.memOk) : (s.wakeIndex q x).memOk := by
  unfold State.wakeIndex
  split
  · exact memOk_queueFault h
  next e =>
    have h1 := holds_of_eq (memOk_feLoad h) e
    exact memOk_queueError h1
  · exact h
  · exact h
  next e =>
    have h1 := holds_of_eq (memOk_feLoad h) e
    exact memOk_putQueue h1
theorem memOk_wakeWord {q : Nat} {x : Queue} (h : s.memOk) : Out.MemOk (s.wakeWord q x) := by
  unfold State.wakeWord
  split
  · have hw : ∀ a b c, Out.MemOk (execDyzilWaitv a b c { s with actor := .dyzil q }) := fun _ _ _ => memOk_execDyzilWaitv h
    split
    next e =>
      rename_i t
      exact memOk_modQueue (s := t) (holds_of_eq (P := Out.MemOk) (hw _ _ _) e)
    next => exact hw _ _ _
  · exact h
theorem memOk_execMonitorWake {q : Nat} (h : s.memOk) : Out.MemOk (execMonitorWake q s) := by
  unfold execMonitorWake
  split
  · trivial
  · split
    · exact h
    · split
      · exact h
      · extract_lets _ s1
        have h1 : s1.memOk := memOk_putQueue h
        clear_value s1
        split
        · change State.memOk _ = true
          split
          · exact memOk_queueError h1
          · exact memOk_wakeError h1
        · split
          · exact memOk_wakeStale h1
          · exact memOk_wakeWord h1
          · exact memOk_wakeIndex h1
          · exact h1
theorem memOk_execDeferredSignalWrite {q : Nat} (h : s.memOk) : Out.MemOk (execDeferredSignalWrite q s) := by
  unfold execDeferredSignalWrite
  split
  · trivial
  · split
    · exact h
    · split
      · exact h
      · split
        · exact h
        · extract_lets s1
          have h1 : s1.memOk := memOk_putQueue h
          clear_value s1
          change State.memOk _ = true
          split
          next e =>
            have h2 := holds_of_eq (memOk_feStore h1) e
            exact memOk_tidyQueue (memOk_modQueue h2)
          next e =>
            have h2 := holds_of_eq (memOk_feStore h1) e
            exact memOk_queueError h2
          · exact memOk_putQueue h1
          · exact memOk_putQueue h1
          · exact memOk_modQueue (memOk_queueFault h1)
theorem memOk_createRead {ctx q ts va n loc : Nat} (h : s.memOk) : ReadOk (s.createRead ctx q ts va n loc) := by
  unfold State.createRead
  split
  next e => exact holds_of_eq (P := FeOut.MemOk) (memOk_feRead h) e
  next => exact h
  next e => exact holds_of_eq (P := FeOut.MemOk) (memOk_feRead h) e
  next => exact memOk_feAsk h
  next => exact h
theorem memOk_readGrants {ctx q : Nat} {l : List (Nat × Nat)} {ts : Nat} {acc : List GrantRead} (h : s.memOk) :
    (State.readGrants ctx q l s ts acc).1.memOk := by
  induction l generalizing s ts acc with
  | nil => exact h
  | cons x r ih =>
    unfold State.readGrants
    split
    · exact ih h
    · split
      next e => exact ih (holds_of_eq (P := ReadOk) (memOk_createRead h) e)
      next e => exact ih (holds_of_eq (P := ReadOk) (memOk_createRead h) e)
/-- The equation of a grant that was read. The checks of a grant are numbers of its words, so they are named before the recursion is unfolded. -/
theorem takeGrants_cons {d : CtxDesc} {mgmt : Bool} {q t : Nat} {ws : List Word} {r : List (Nat × GrantRead)} {ts : Nat} {acc : List Launch} :
    State.takeGrants d mgmt q ((t, some (.ok ws)) :: r) s ts acc =
      (let l := Launch.ofDesc t d.ctxid q true ws [] [] ts
       match s.grantBad d mgmt t l with
       | some n => (s, ts, .error ⟨4, n, t⟩)
       | none =>
         if l.isTeam then State.takeGrants d mgmt q r s ts acc
         else match s.createRead d.ctxid q ts l.cbankAt (4 * l.cwords) (32 + t) with
           | .error (e, s) => (s, ts, .error e)
           | .ok (s, ts, bs) => State.takeGrants d mgmt q r s ts (acc ++ [{ l with cbank := wordsOf bs, stamp := ts }])) := by
  obtain ⟨bad, hbad⟩ := exists_eq (a' := @State.grantBad)
  obtain ⟨read, hread⟩ := exists_eq (a' := @State.createRead)
  obtain ⟨team, hteam⟩ := exists_eq (a' := @Launch.isTeam)
  obtain ⟨take, htake⟩ := exists_eq (a' := @State.takeGrants)
  rw [← hbad, ← hread, ← hteam, ← htake]
  delta State.takeGrants State.takeGrants._f at htake
  rw [← hbad, ← hread, ← hteam] at htake
  subst htake
  rfl
theorem memOk_takeGrants {d : CtxDesc} {mgmt : Bool} {q : Nat} {l : List (Nat × GrantRead)} {ts : Nat} {acc : List Launch} (h : s.memOk) :
    (State.takeGrants d mgmt q l s ts acc).1.memOk := by
  induction l generalizing s ts acc with
  | nil => exact h
  | cons x r ih =>
    obtain ⟨t, _ | (_ | ws)⟩ := x
    · exact ih h
    · exact h
    · rw [takeGrants_cons]
      obtain ⟨bad, hbad⟩ := exists_eq (a' := State.grantBad s)
      obtain ⟨read, hread, hok⟩ : ∃ f, f = State.createRead s ∧ ∀ c q t v n l, ReadOk (f c q t v n l) :=
        ⟨_, rfl, fun _ _ _ _ _ _ => memOk_createRead h⟩
      rw [← hbad, ← hread]
      extract_lets l
      split
      · exact h
      · split
        · exact ih h
        · split
          next e => exact holds_of_eq (P := ReadOk) (hok _ _ _ _ _ _) e
          next e => exact ih (holds_of_eq (P := ReadOk) (hok _ _ _ _ _ _) e)
theorem memOk_buildQueue {q : Nat} {mgmt : Bool} (h : s.memOk) : (s.buildQueue q mgmt).1.memOk := by
  obtain ⟨build, hbuild⟩ := exists_eq (a' := @State.buildQueue)
  rw [← hbuild]
  delta State.buildQueue at hbuild
  obtain ⟨descBad, hdescBad⟩ := exists_eq (a' := @queueDescBad)
  obtain ⟨progBad, hprogBad⟩ := exists_eq (a' := @programBad)
  obtain ⟨place, hplace⟩ := exists_eq (a' := @State.structPlace)
  obtain ⟨read, hread, hok⟩ : ∃ f, f = @State.createRead ∧ ∀ s c q t v n l, s.memOk → ReadOk (f s c q t v n l) :=
    ⟨_, rfl, fun _ _ _ _ _ _ _ => memOk_createRead⟩
  obtain ⟨grants, hgrants, hgs⟩ : ∃ f, f = @State.readGrants ∧ ∀ c q l s t a, s.memOk → (f c q l s t a).1.memOk :=
    ⟨_, rfl, fun _ _ _ _ _ _ => memOk_readGrants⟩
  obtain ⟨take, htake, hts⟩ : ∃ f, f = @State.takeGrants ∧ ∀ d m q l s t a, s.memOk → (f d m q l s t a).1.memOk :=
    ⟨_, rfl, fun _ _ _ _ _ _ _ => memOk_takeGrants⟩
  rw [← hdescBad, ← hprogBad, ← hplace, ← hread, ← hgrants, ← htake] at hbuild
  subst hbuild
  beta_reduce
  extract_lets +onlyGivenNames ws f
  split
  · exact h
  · extract_lets +onlyGivenNames ctx d fail
    clear_value fail
    split
    · exact h
    · split
      next e => exact holds_of_eq (P := ReadOk) (hok _ _ _ _ _ _ _ h) e
      next e =>
        have h1 := holds_of_eq (P := ReadOk) (hok _ _ _ _ _ _ _ h) e
        extract_lets +onlyGivenNames prog addrs
        split
        next e =>
          have h2 := memOk_of_fst (hgs _ _ _ _ _ _ h1) e
          extract_lets +onlyGivenNames kind bad unread
          clear_value bad
          split
          · exact h2
          · split
            next e => exact memOk_of_fst (hts _ _ _ _ _ _ _ h2) e
            next e =>
              have h3 := memOk_of_fst (hts _ _ _ _ _ _ _ h2) e
              split
              · exact h3
              · split
                · exact h3
                · exact h3
theorem memOk_execQueueCreate {q : Nat} {mgmt : Bool} (h : s.memOk) : Out.MemOk (execQueueCreate q mgmt s) := by
  obtain ⟨create, hcreate⟩ := exists_eq (a' := @execQueueCreate)
  rw [← hcreate]
  delta execQueueCreate at hcreate
  obtain ⟨build, hbuild, hok⟩ : ∃ f, f = @State.buildQueue ∧ ∀ s q m, s.memOk → (f s q m).1.memOk := ⟨_, rfl, fun _ _ _ => memOk_buildQueue⟩
  rw [← hbuild] at hcreate
  subst hcreate
  beta_reduce
  split
  · trivial
  · split
    · exact h
    · extract_lets report
      have ht := hok s q mgmt h
      obtain ⟨⟨t, b⟩, hr⟩ : ∃ r, r = build s q mgmt := ⟨_, rfl⟩
      rw [← hr] at ht ⊢
      refine outOk_ite (memOk_waitIn (memOk_putQreg h)) ?_
      cases b with
      | error e => exact memOk_putQreg (memOk_doneCode (memOk_doneIn ht))
      | ok x => exact memOk_putQreg (memOk_putQueue (memOk_doneCode (memOk_doneIn ht)))
theorem memOk_execQueueDestroy {q : Nat} (h : s.memOk) : Out.MemOk (execQueueDestroy q s) := by
  unfold execQueueDestroy
  split
  · trivial
  · split
    · exact h
    · exact memOk_tidyQueue (memOk_putQreg (memOk_putQueue h))

/-! ### Matrix sequencers and tile streams -/
theorem memOk_modSeqr {tk : Nat} {g : Seqr → Seqr} (h : s.memOk) : (s.modSeqr tk g).memOk := by
  unfold State.modSeqr
  split
  · exact memOk_putTeam h
  · exact h
theorem memOk_seqFault {tk : Nat} {x : FaultInfo} {word : Word} (h : s.memOk) : (s.seqFault tk x word).memOk := by
  unfold State.seqFault
  split
  · exact h
  · exact memOk_each (memOk_modSeqr h) (fun _ _ h' => memOk_breakBar h')
theorem memOk_seqGoto {tk : Nat} {pc : DWord} (h : s.memOk) : (s.seqGoto tk pc).memOk := memOk_modSeqr h
theorem memOk_seqNext {tk : Nat} (h : s.memOk) : (s.seqNext tk).memOk := by
  unfold State.seqNext
  split
  · exact memOk_seqGoto h
  · exact h
theorem memOk_seqNeeds {tk : Nat} {t : Team} {la : Nat} (h : s.memOk) : (s.seqNeeds tk t la).memOk := by
  unfold State.seqNeeds
  split
  · exact h
  · split
    next e => exact memOk_modSeqr (memOk_of_fst (memOk_askLine h) e)
    next e => exact memOk_of_fst (memOk_askLine h) e
theorem memOk_runX {op : Nat} {go : State → Nat → Team → SeqOut} (h : s.memOk) (hgo : ∀ s n t, s.memOk → (go s n t).MemOk) : Out.MemOk (runX op s go) := by
  unfold runX
  split
  · split
    · exact memOk_groupFault h
    · trivial
  · split
    · trivial
    · split
      · exact h
      · split
        next e => exact memOk_seqNext (holds_of_eq (P := SeqOut.MemOk) (hgo _ _ _ h) e)
        next e => exact memOk_seqGoto (holds_of_eq (P := SeqOut.MemOk) (hgo _ _ _ h) e)
        next e => exact holds_of_eq (P := SeqOut.MemOk) (hgo _ _ _ h) e
        next => exact memOk_ite (memOk_seqNeeds h) (memOk_seqFault h)
  · trivial
theorem memOk_seqWalk {tk : Nat} {t : Team} {la : Nat} (h : s.memOk) : (s.seqWalk tk t la).memOk := by
  unfold State.seqWalk
  split
  · exact h
  · exact memOk_modSeqr (memOk_walkLoads h)
theorem memOk_seqTurn {core n : Nat} (h : s.memOk) : (s.seqTurn core n).MemOk := by
  unfold State.seqTurn
  extract_lets s1
  have h1 : s1.memOk := h
  clear_value s1
  split
  · exact h1
  · split
    · exact h1
    · extract_lets _ _ d2 s3
      have h2 : s3.memOk := by
        unfold s3
        split
        · exact memOk_modSeqr h1
        · exact h1
      clear_value s3 d2
      split
      · exact memOk_ite (memOk_seqNeeds h1) (memOk_seqFault h1)
      · split
        · exact memOk_ite (memOk_seqFault h2) (memOk_seqNeeds h2)
        · split
          · exact memOk_seqGoto h2
          · extract_lets s4
            have h3 : s4.memOk := memOk_modSeqr h2
            clear_value s4
            split
            · exact memOk_seqFault h3
            · split
              · exact memOk_seqFault h3
              · split
                · exact memOk_seqFault h3
                · exact memOk_seqWalk h3
theorem memOk_putSlot {ctx core i : Nat} {x : OpSlot} (h : s.memOk) : (s.putSlot ctx core i x).memOk := memOk_putCC h
theorem memOk_putTile {ctx core i : Nat} {x : Tile} (h : s.memOk) : (s.putTile ctx core i x).memOk := memOk_putCC h
theorem memOk_addJob {tk : Nat} {j : SeqJob} (h : s.memOk) : (s.addJob tk j).memOk := memOk_modSeqr h
theorem memOk_execXclaim {slots : BitVec 16} {tiles : BitVec 8} (h : s.memOk) : Out.MemOk (execXclaim slots tiles s) := by
  unfold execXclaim
  refine memOk_runX h fun _ _ _ h1 => ?_
  extract_lets _ _ _ _ s4 _ s5
  have h2 : s4.memOk := memOk_each h1 (fun _ _ h' => memOk_putSlot (memOk_newSeed h'))
  have h3 : s5.memOk := memOk_each h2 (fun _ _ h' => memOk_putTile (memOk_newSeed h'))
  clear_value s4 s5
  split
  · trivial
  · split
    · exact memOk_modSeqr h1
    · exact memOk_modSeqr h3
theorem memOk_execXrel {slots : BitVec 16} {tiles : BitVec 8} (h : s.memOk) : Out.MemOk (execXrel slots tiles s) := by
  unfold execXrel
  refine memOk_runX h fun _ _ _ h1 => ?_
  extract_lets _ _ s4
  have h2 : s4.memOk := memOk_each h1 (fun _ _ h' => memOk_putSlot h')
  clear_value s4
  split
  · trivial
  · split
    · exact h1
    · exact memOk_each h2 (fun _ _ h' => memOk_putTile h')
theorem memOk_seqAsks {tk : Nat} {t : Team} {ts : Nat} {l : List (Nat × Nat × PeerAcc)} (h : s.memOk) : (s.seqAsks tk t ts l).memOk :=
  memOk_each h (fun _ _ h' => memOk_modSeqr (memOk_engAsk h'))
theorem memOk_seqAccess {ag : Agent} {l : List Spot} {bs : Option (List Byte)} (h : s.memOk) : (s.seqAccess ag l bs).s.memOk := by
  unfold State.seqAccess
  extract_lets va n w ag r
  have hw : w.s.memOk := memOk_walkLoads h
  have hr : r.s.memOk := by
    dsimp only [r]
    split
    · exact memOk_readSpan hw
    · exact memOk_readRegion hw
    · exact memOk_readParts hw
    · exact memOk_storeSpots hw
    · exact memOk_loadSpots hw
  exact hr
theorem memOk_seqRun {tk : Nat} {t : Team} {wr : Bool} {ts n : Nat} {l : List (List Spot)} {bytes : List Byte} {ans : Option (PeerReply × Nat)}
    (h : s.memOk) : (seqRun tk t wr s ts n l bytes ans).MemOk := by
  induction l generalizing s ts n bytes ans with
  | nil => exact h
  | cons x l ih =>
    unfold seqRun
    extract_lets len
    split
    · split
      · trivial
      · exact ih h
      · trivial
      · exact memOk_seqAsks h
    · split
      · exact h
      · extract_lets r
        split
        · exact memOk_seqAccess h
        · exact ih (memOk_seqAccess h)
theorem memOk_seqMem {tk : Nat} {t : Team} {wr : Bool} {l : List (List Spot)} {start : State → State × List Byte} {fin : State → Nat → List Byte → State}
    (h : s.memOk) (hstart : ∀ t, t.memOk → (start t).1.memOk) (hfin : ∀ t n b, t.memOk → (fin t n b).memOk) : (seqMem tk t wr s l start fin).MemOk := by
  unfold seqMem
  extract_lets far go
  have hgo : ∀ u ans, u.memOk → (go u ans).MemOk := fun u ans hu => by
    dsimp only [go]
    have hv : (match t.seqr.mem with | some x => (u, x) | none => ((start u).1, 0, (start u).2)).1.memOk := by
      split
      · exact hu
      · exact hstart u hu
    split
    next e => exact hfin _ _ _ (memOk_modSeqr (holds_of_eq (P := SeqRun.MemOk) (memOk_seqRun (memOk_modSeqr hv)) e))
    next e => exact memOk_modSeqr (holds_of_eq (P := SeqRun.MemOk) (memOk_seqRun (memOk_modSeqr hv)) e)
    next e => exact (memOk_stopFor _ _).trans (holds_of_eq (P := SeqRun.MemOk) (memOk_seqRun (memOk_modSeqr hv)) e)
    next => trivial
  clear_value go
  split
  · exact hgo _ _ h
  · split
    · exact memOk_seqAsks h
    · exact hgo _ _ h
    · split
      · exact h
      · trivial
      · exact hgo _ _ h
    · split
      · exact h
      · trivial
      · split
        · trivial
        · exact hgo _ _ h
theorem memOk_execXload {fmt : BitVec 4} {cols : Bool} {slot : BitVec 4} {ga : BitVec 3} {off : BitVec 20} {gb : BitVec 3} {s : State} (h : s.memOk) :
    Out.MemOk (execXload fmt cols slot ga off gb s) := by
  unfold execXload
  refine memOk_runX h fun _ _ _ h1 => ?_
  extract_lets
  split
  · trivial
  · split
    · exact h1
    · split
      · trivial
      · split
        · exact h1
        · trivial
      · exact memOk_seqMem h1 (fun _ h' => h') (fun _ _ _ h' => memOk_addJob (memOk_putSlot (memOk_newSeed h')))
theorem memOk_runXmma {op : Nat} {keep : Bool} {tile : BitVec 3} {sa sb : BitVec 4} (h : s.memOk) : Out.MemOk (runXmma op keep tile sa sb s) :=
  memOk_runX h fun s tk t hs => by
    extract_lets i j d
    split
    · trivial
    · split
      · split
        · trivial
        · split
          · exact hs
          · exact memOk_addJob (memOk_putTile hs)
      · trivial
theorem memOk_drainBytes {t : Team} {fmt rnd : Nat} {sat : Bool} {d : Nat} (h : s.memOk) : (s.drainBytes t fmt rnd sat d).1.memOk := by
  unfold State.drainBytes
  extract_lets
  split
  · exact memOk_setGen h
  · exact h
theorem memOk_execXdrain {fmt : BitVec 4} {rnd : BitVec 2} {sat : Bool} {tile ga : BitVec 3} {off : BitVec 20} {gb : BitVec 3} {s : State} (h : s.memOk) :
    Out.MemOk (execXdrain fmt rnd sat tile ga off gb s) := by
  unfold execXdrain
  refine memOk_runX h fun _ _ _ h1 => ?_
  extract_lets
  split
  · trivial
  · split
    · exact h1
    · split
      · trivial
      · split
        · exact h1
        · trivial
      · exact memOk_seqMem h1 (fun _ h' => memOk_drainBytes h') (fun _ _ _ h' => memOk_addJob h')
theorem memOk_execXdraina {fmt : BitVec 4} {part : BitVec 2} {slot : BitVec 4} {tile : BitVec 3} (h : s.memOk) :
    Out.MemOk (execXdraina fmt part slot tile s) := by
  unfold execXdraina
  refine memOk_runX h fun _ _ _ h1 => ?_
  extract_lets
  split
  · trivial
  · split
    · exact h1
    · exact memOk_addJob (memOk_putSlot h1)
theorem memOk_execXset {d : BitVec 4} {a : Src} {imm : BitVec 20} (h : s.memOk) : Out.MemOk (execXset d a imm s) := by
  unfold execXset
  refine memOk_runX h fun _ _ _ h1 => ?_
  split
  · trivial
  · exact memOk_modSeqr h1
theorem memOk_execXaddg {d ga : BitVec 3} {b : Src} {imm : BitVec 20} (h : s.memOk) : Out.MemOk (execXaddg d ga b imm s) := by
  unfold execXaddg
  refine memOk_runX h fun _ _ _ h1 => ?_
  split
  · trivial
  · exact memOk_modSeqr h1
theorem memOk_seqJump {t : Team} {tslot : BitVec 3} {off : BitVec 17} (h : s.memOk) : (s.seqJump t tslot off).MemOk := by
  unfold State.seqJump
  extract_lets
  split
  · trivial
  · exact h
theorem memOk_execXloop {ctr : BitVec 2} {tslot : BitVec 3} {off : BitVec 17} (h : s.memOk) : Out.MemOk (execXloop ctr tslot off s) := by
  unfold execXloop
  refine memOk_runX h fun _ _ _ h1 => ?_
  extract_lets
  split
  · exact h1
  · split
    next e =>
      have h2 := holds_of_eq (memOk_seqJump h1) e
      exact memOk_modSeqr h2
    · exact memOk_seqJump h1
theorem memOk_execXstop (h : s.memOk) : Out.MemOk (execXstop s) := by
  unfold execXstop
  refine memOk_runX h fun _ _ _ h1 => ?_
  split
  · exact h1
  · exact memOk_modSeqr (memOk_freeSeqr h1)
theorem memOk_execXbara {bar : BitVec 4} (h : s.memOk) : Out.MemOk (execXbara bar s) := by
  unfold execXbara
  refine memOk_runX h fun _ _ _ h1 => ?_
  extract_lets _ _ s4 s5
  have h2 : s4.memOk := h1
  have h3 : s5.memOk := memOk_modSeqr h2
  clear_value s4 s5
  split
  · exact h1
  · exact memOk_arriveBar h3
theorem memOk_execXbarw {bar : BitVec 4} (h : s.memOk) : Out.MemOk (execXbarw bar s) := by
  unfold execXbarw
  refine memOk_runX h fun _ _ _ h1 => ?_
  extract_lets
  split
  · exact memOk_modSeqr h1
  · split
    · trivial
    · exact h1
theorem memOk_putSubs {ctx cl st : Nat} {g : List Sub → List Sub} (h : s.memOk) : (s.putSubs ctx cl st g).memOk := memOk_putCLC h
theorem memOk_execXsub {fmt : BitVec 4} {st : BitVec 3} {base : BitVec 4} {count window : BitVec 5} (h : s.memOk) :
    Out.MemOk (execXsub fmt st base count window s) := by
  unfold execXsub
  refine memOk_runX h fun _ _ _ h1 => ?_
  extract_lets
  split
  · trivial
  · exact memOk_putSubs h1
theorem memOk_execXunsub {st : BitVec 3} (h : s.memOk) : Out.MemOk (execXunsub st s) := by
  unfold execXunsub
  refine memOk_runX h fun _ _ _ h1 => ?_
  split
  · trivial
  · split
    · exact h1
    · exact memOk_each (memOk_putCLC h1) (fun _ _ h' => memOk_putSlot h')
theorem memOk_execXwaits {st : BitVec 3} (h : s.memOk) : Out.MemOk (execXwaits st s) := by
  unfold execXwaits
  refine memOk_runX h fun _ _ _ h1 => ?_
  split
  · trivial
  · split
    · exact h1
    · extract_lets _ _ s4
      have h2 : s4.memOk := memOk_putSubs h1
      clear_value s4
      split <;> exact h2
theorem memOk_putStream {ctx cl st : Nat} {c : Cmd} (h : s.memOk) : (s.putStream ctx cl st c).memOk := memOk_putCLC h
theorem memOk_execTileStream {cluster st : Nat} (h : s.memOk) : Out.MemOk (execTileStream cluster st s) := by
  unfold execTileStream
  split
  · trivial
  · split
    · exact h
    · extract_lets
      split
      · split
        · exact h
        · exact memOk_putStream h
      · split
        · exact h
        · split
          next e =>
            have h1 := holds_of_eq (memOk_fetchPiece h (fun _ _ h' => memOk_putStream h')) e
            exact h1
          next e =>
            have h1 := holds_of_eq (memOk_fetchPiece h (fun _ _ h' => memOk_putStream h')) e
            exact memOk_tidyLaunch (memOk_reportCmd (memOk_breakBound (memOk_dropStream h1)))
          next e =>
            have h1 := holds_of_eq (memOk_fetchPiece h (fun _ _ h' => memOk_putStream h')) e
            exact memOk_putStream h1
theorem memOk_execStreamTileDeliver {cluster st : Nat} (h : s.memOk) : Out.MemOk (execStreamTileDeliver cluster st s) := by
  unfold execStreamTileDeliver
  split
  · trivial
  · split
    · exact h
    · split
      · exact h
      · extract_lets f1 s2 s3
        have h1 : ∀ t x1, t.memOk → (f1 t x1).memOk := by
          unfold f1
          intro t4 x5 h2
          split
          · exact h2
          · split
            · exact memOk_putSlot (memOk_newSeed h2)
            · exact h2
        have h3 : s2.memOk := memOk_each h (fun _ _ h' => h1 _ _ h')
        have h4 : s3.memOk := memOk_putSubs h3
        clear_value f1 s2 s3
        exact memOk_putStream h4
theorem memOk_endJob {core n : Nat} {p : SeqJob → Bool} {after : State → Team → SeqJob → State} (h : s.memOk)
    (hafter : ∀ t x1 x2, t.memOk → (after t x1 x2).memOk) : Out.MemOk (s.endJob core n p after) := by
  unfold State.endJob
  split
  · trivial
  · split
    · exact h
    · split
      · exact h
      · exact hafter _ _ _ (memOk_modSeqr h)
theorem memOk_slotReady {t : Team} {i : Nat} (h : s.memOk) : (s.slotReady t i).memOk := memOk_putSlot h
theorem memOk_execXloadComplete {core n : Nat} (h : s.memOk) : Out.MemOk (execXloadComplete core n s) := by
  unfold execXloadComplete
  refine memOk_endJob ?_ ?_
  · exact h
  · intro t1 x2 x3 h1
    split
    · exact memOk_slotReady h1
    · exact h1
theorem memOk_execXdrainaComplete {core n : Nat} (h : s.memOk) : Out.MemOk (execXdrainaComplete core n s) := by
  unfold execXdrainaComplete
  refine memOk_endJob ?_ ?_
  · exact h
  · intro t1 x2 x3 h1
    split
    · exact memOk_slotReady h1
    · exact h1
theorem memOk_execSequencerFaultDelivery {core n : Nat} (h : s.memOk) : Out.MemOk (execSequencerFaultDelivery core n s) := by
  unfold execSequencerFaultDelivery
  split
  · trivial
  · split
    · exact h
    · split
      · exact memOk_ite (memOk_deliverPending (memOk_forward (memOk_modSeqr h))) (memOk_forward (memOk_modSeqr h))
      · exact h

/-! ### Placement of tasks, crews and teams -/
theorem memOk_submitted {t : WaitTask} (h : s.memOk) : SomeOk Prod.fst (s.submitted t) := by
  unfold State.submitted
  extract_lets
  split
  · split
    · trivial
    · extract_lets
      split
      · exact memOk_putHeap h
      · split
        · trivial
        · exact memOk_putHeap h
theorem memOk_execTaskSubmit {cluster : Nat} (h : s.memOk) : Out.MemOk (execTaskSubmit cluster s) := by
  unfold execTaskSubmit
  split
  · trivial
  · extract_lets c
    split
    · exact h
    next e =>
      have ht := memOk_of_some_by (st := fun r : Nat × State × Task => r.2.1)
        (someOk_findSome fun _ => someOk_map (memOk_submitted h) fun _ hr => hr) e
      exact memOk_fileTask (memOk_putCluster ht)
theorem memOk_execGatherTimerLapse {cluster : Nat} {entry : BitVec 64} {ctx : Nat} (h : s.memOk) :
    Out.MemOk (execGatherTimerLapse cluster entry ctx s) := by
  unfold execGatherTimerLapse
  split
  · trivial
  · extract_lets
    split
    · exact h
    · split
      · exact h
      · exact memOk_putCluster h
theorem memOk_placedOn {ctx core : Nat} (h : s.memOk) : (s.placedOn ctx core).memOk := by
  unfold State.placedOn
  split
  · split
    · exact h
    · exact memOk_putCtx h
  · exact h
theorem memOk_placeTask {t : Task} {ck lane core : Nat} (h : s.memOk) : (s.placeTask t ck lane core).2.memOk := by
  unfold State.placeTask
  split
  next e =>
    have h1 := memOk_of_snd (memOk_newKey h) e
    extract_lets _ _ f1
    have h2 : ∀ t, t.memOk → (f1 t).memOk := by
      unfold f1
      intro t2 h3
      split
      · exact memOk_modCell h3
      · exact h3
    clear_value f1
    split
    · exact h2 _ (memOk_putFibre (memOk_buildFresh h1))
    · exact memOk_putFibre (memOk_newSeed h1)
theorem memOk_placeTasks {ck core : Nat} {l : List Task} {lane : Nat} {acc : List Nat} (h : s.memOk) : (s.placeTasks ck core l lane acc).1.memOk := by
  induction l generalizing s lane acc with
  | nil => exact h
  | cons t r ih => exact ih (memOk_placeTask h)
theorem memOk_placeFibre {l : Launch} {fid : Option Word} {ck lane core : Nat} {segs : List (Nat × Nat)} {f lc : Nat} {args : List Word} {stamp : Nat}
    {pc : DWord} (h : s.memOk) : (s.placeFibre l fid ck lane core segs f lc args stamp pc).2.memOk := by
  unfold State.placeFibre; exact memOk_putFibre (memOk_buildFresh (memOk_newKey h))
theorem memOk_placeLanes {l : Launch} {fid : Option Word} {ck core f lc : Nat} {args : List Word} {stamp : Nat} {pc : DWord} {n lane : Nat}
    {segs : List (Nat × Nat)} {acc : List Nat} (h : s.memOk) : (s.placeLanes l fid ck core f lc args stamp pc n lane segs acc).1.memOk := by
  induction n generalizing s lane segs acc with
  | zero => exact h
  | succ n ih => exact ih (memOk_placeFibre h)
theorem memOk_execPlaceCrew {cluster : Nat} (h : s.memOk) : Out.MemOk (execPlaceCrew cluster s) := by
  unfold execPlaceCrew
  split
  · trivial
  · split
    · exact h
    · split
      · exact h
      · split
        · exact h
        · split
          · exact memOk_askFor h
          · extract_lets _ s1 s2
            have h1 : s1.memOk := memOk_putCluster h
            have h2 : s2.memOk := memOk_placedOn (memOk_putHeap h1)
            clear_value s1 s2
            split
            next e =>
              have h3 := memOk_of_snd (memOk_newKey h2) e
              extract_lets
              split
              · split
                next e =>
                  have h4 := memOk_of_fst (memOk_placeTasks h3) e
                  split
                  next e =>
                    have h5 := memOk_of_fst (memOk_placeLanes h4) e
                    extract_lets _ s3
                    have h6 : s3.memOk := memOk_putCrew h5
                    clear_value s3
                    change State.memOk _ = true
                    refine memOk_doneCode ?_
                    refine memOk_each h6 fun t4 _ h7 => ?_
                    split
                    · exact memOk_dealerResume h7
                    · exact h7
theorem memOk_placeCrews {l : Launch} {tk core n i : Nat} {segs : List (Nat × Nat)} {acc : List Nat} (h : s.memOk) :
    (s.placeCrews l tk core n i segs acc).1.memOk := by
  induction n generalizing s i segs acc with
  | zero => exact h
  | succ n ih =>
    unfold State.placeCrews
    split
    next e =>
      have hk := memOk_of_snd (memOk_newKey h) e
      split
      next e => exact ih (memOk_putCrew (memOk_of_fst (memOk_placeLanes hk) e))
theorem memOk_placeTeam {l : Launch} {u : TeamUnit} {core index : Nat} {segs : List (Nat × Nat)} (h : s.memOk) :
    (s.placeTeam l u core index segs).1.memOk := by
  obtain ⟨place, hplace⟩ := exists_eq (a' := @State.placeTeam)
  obtain ⟨crews, hcrews, hok⟩ : ∃ f, f = @State.placeCrews ∧ ∀ s l k c n i a b, s.memOk → (f s l k c n i a b).1.memOk :=
    ⟨_, rfl, fun _ _ _ _ _ _ _ _ => memOk_placeCrews⟩
  obtain ⟨check, hcheck⟩ := exists_eq (a' := @State.checkTarget)
  rw [← hplace]
  delta State.placeTeam at hplace
  rw [← hcrews, ← hcheck] at hplace
  subst hplace
  beta_reduce
  split
  next e =>
    have hk := memOk_of_snd (memOk_newKey h) e
    extract_lets +onlyGivenNames sq
    split
    next e =>
      have hc := memOk_of_fst (hok _ _ _ _ _ _ _ _ hk) e
      extract_lets +onlyGivenNames t s1 s2
      have h1 : s1.memOk := memOk_placedOn (memOk_putTeam hc)
      have h2 : s2.memOk := by
        dsimp only [s2]
        split
        · exact h1
        · split
          · exact memOk_ite h1 (memOk_seqFault h1)
          · exact memOk_modSeqr h1
      exact h2
/-- The equation of one team placed, the placement of a team named before the recursion is unfolded. -/
theorem placeTeams_cons {l : Launch} {u : TeamUnit} {c : Nat} {cs : List Nat} {i : Nat} {segs : List (Nat × Nat)} :
    s.placeTeams l u (c :: cs) i segs = (s.placeTeam l u c i segs).1.placeTeams l u cs (i + 1) (s.placeTeam l u c i segs).2 := by
  obtain ⟨place, hplace⟩ := exists_eq (a' := @State.placeTeam)
  obtain ⟨all, hall⟩ := exists_eq (a' := @State.placeTeams)
  rw [← hplace, ← hall]
  delta State.placeTeams State.placeTeams._f at hall
  rw [← hplace] at hall
  subst hall
  rfl
theorem memOk_placeTeams {l : Launch} {u : TeamUnit} {cs : List Nat} {i : Nat} {segs : List (Nat × Nat)} (h : s.memOk) :
    (s.placeTeams l u cs i segs).memOk := by
  induction cs generalizing s i segs with
  | nil => exact h
  | cons c r ih => rw [placeTeams_cons]; exact ih (memOk_placeTeam h)
theorem memOk_execPlaceTeam {ctx : Nat} (h : s.memOk) : Out.MemOk (execPlaceTeam ctx s) := by
  unfold execPlaceTeam
  split
  · exact h
  · split
    · split
      · exact h
      · split
        · exact h
        · exact memOk_placeTeams (memOk_putCtx h)
    · split
      · exact h
      · split
        · exact h
        · exact memOk_placeTeams (memOk_putCtx h)

/-! ### Issue selection, promotion and fills -/
theorem memOk_settleAwaits (h : s.memOk) : s.settleAwaits.memOk := memOk_putFibres h
theorem memOk_execIssueSelect {core port : Nat} (h : s.memOk) : Out.MemOk (execIssueSelect core port s) := by
  unfold execIssueSelect
  split
  · trivial
  · split
    · exact h
    · split
      · exact h
      · exact memOk_putPort (memOk_ite (memOk_putCrew h) ((memOk_bump _ _ _ _ _).trans (memOk_putCrew h)))
theorem memOk_execCrewPromote {crew : Nat} (h : s.memOk) : Out.MemOk (execCrewPromote crew s) := by
  unfold execCrewPromote
  split
  · exact h
  · split
    · exact h
    · exact memOk_putCrew h
theorem memOk_settleReady {before : Nat} (h : s.memOk) : (s.settleReady before).memOk := h
theorem memOk_execRegisterFill {k : Nat} (h : s.memOk) : Out.MemOk (execRegisterFill k s) := by
  unfold execRegisterFill
  split
  · exact h
  · split
    · exact h
    · exact memOk_settleAwaits (memOk_modFibre h)
theorem memOk_execTimewExpire {fibre : Nat} (h : s.memOk) : Out.MemOk (execTimewExpire fibre s) := by
  unfold execTimewExpire
  split
  · exact h
  · split
    · exact h
    · exact memOk_putFibre h
theorem memOk_execFibreReclaim {fibre : Nat} (h : s.memOk) : Out.MemOk (execFibreReclaim fibre s) := by
  unfold execFibreReclaim
  split
  · exact h
  · split
    · exact h
    · split
      · exact memOk_endFibre h
      · split
        · exact memOk_reclaimFibre h
        · exact h
theorem memOk_execAsyncFaultDelivery {fibre : Nat} (h : s.memOk) : Out.MemOk (execAsyncFaultDelivery fibre s) := by
  unfold execAsyncFaultDelivery
  split
  · exact h
  · split
    · exact memOk_afterTrailer h
    · exact h
theorem memOk_execBankRoleChangeComplete {core bank : Nat} (h : s.memOk) : Out.MemOk (execBankRoleChangeComplete core bank s) := by
  unfold execBankRoleChangeComplete
  split
  · trivial
  · split
    · split
      · exact memOk_setRole h
      · exact h
    · exact h
theorem memOk_execZeroLengthReadComplete {fibre : Nat} (h : s.memOk) : Out.MemOk (execZeroLengthReadComplete fibre s) := by
  unfold execZeroLengthReadComplete
  extract_lets
  split
  · exact memOk_modFibre h
  · exact h

/-! ### The host's accesses and page moves -/
theorem memOk_logHost {ag : Agent} {pa mva n : Nat} (h : s.memOk) : (s.logHost ag pa mva n).memOk := by
  unfold State.logHost
  split
  · exact h
  · split
    · exact h
    · exact memOk_each h (fun _ _ h' => memOk_logAccess h' _ _ _ _)
theorem memOk_hostAccess {req : BitVec 25} {pa n : Nat} {go : State → Agent → Nat → PA → Acc} (h : s.memOk)
    (hgo : ∀ t x1 x2 x3, t.memOk → (go t x1 x2 x3).s.memOk) : (s.hostAccess req pa n go).1.memOk := by
  unfold State.hostAccess
  split
  · exact h
  · exact memOk_logHost (hgo _ _ _ _ h)
theorem memOk_hostRead {req : BitVec 25} {ps : List (Nat × Nat)} (h : s.memOk) : (s.hostRead req ps).1.memOk :=
  memOk_fold Prod.fst h (fun _ _ h' => memOk_hostAccess h' (fun _ _ _ _ h'' => memOk_readAt h'' _ _ _ _))
theorem memOk_patchBlocks {pa : Nat} {bs : List Byte} (h : s.memOk) : (s.patchBlocks pa bs).memOk := by
  unfold State.patchBlocks
  refine memOk_each h fun t1 _ h1 => ?_
  refine memOk_each h1 fun t2 _ h2 => ?_
  split
  · exact memOk_putHeap h2
  · exact h2
theorem memOk_hostWriteSpan {ag : Agent} {va : Nat} {p : PA} {bs : List Byte} (h : s.memOk) : (s.hostWriteSpan ag va p bs).s.memOk := by
  unfold State.hostWriteSpan
  extract_lets r1
  have h1 : r1.s.memOk := memOk_writeSpan h
  clear_value r1
  split
  · exact memOk_patchBlocks h1
  · exact h1
theorem memOk_hostStoreAt {req : BitVec 25} {pa : Nat} {data : List Byte} {ps : List (Nat × Nat)} (h : s.memOk) : (s.hostStoreAt req pa data ps).memOk :=
  memOk_each h (fun _ _ h' => memOk_hostAccess h' (fun _ _ _ _ h'' => memOk_hostWriteSpan h''))
theorem memOk_execHostCxlMemAccess {pa : Nat} {acc : HostAcc} (h : s.memOk) : Out.MemOk (execHostCxlMemAccess pa acc s) := by
  unfold execHostCxlMemAccess
  split
  · exact memOk_waitIn h
  · extract_lets s1
    have h1 : s1.memOk := memOk_doneIn h
    clear_value s1
    split
    · split
      next e =>
        have h2 := memOk_of_fst (memOk_hostRead h1) e
        exact h2
    · exact memOk_hostStoreAt h1
theorem memOk_ioPieces {pa : Nat} {data : HostWrite} {l : List (Nat × Nat)} (h : s.memOk) : (State.ioPieces pa data l s).1.memOk := by
  induction l generalizing s with
  | nil => exact h
  | cons x r ih =>
    unfold State.ioPieces
    split
    · exact h
    · exact ih (memOk_hostAccess h fun _ _ _ _ ht => memOk_hostWriteSpan ht)
theorem memOk_execHostCxlIoWrite {pa : Nat} {data : HostWrite} (h : s.memOk) : Out.MemOk (execHostCxlIoWrite pa data s) := by
  unfold execHostCxlIoWrite
  split
  · exact memOk_waitIn h
  · split
    next e =>
      have h1 := memOk_of_fst (memOk_ioPieces h) e
      exact memOk_doneIn h1
    next e =>
      have h1 := memOk_of_fst (memOk_ioPieces h) e
      exact memOk_waitIn h1
theorem memOk_writeBack {lk : Nat} (h : s.memOk) : (s.writeBack lk).memOk := by
  unfold State.writeBack
  split
  · exact State.memOk_host h _ _ rfl rfl rfl
  · exact h
theorem memOk_letGo {lk : Nat} (h : s.memOk) : (s.letGo lk).memOk := memOk_wake ((memOk_putLine _ _ _).trans (memOk_writeBack h)) _
theorem memOk_execHostSnoop {pa : Nat} (h : s.memOk) : Out.MemOk (execHostSnoop pa s) := by
  unfold execHostSnoop
  split
  · exact memOk_waitIn h
  · exact memOk_ite (memOk_letGo (memOk_doneIn h)) (memOk_doneIn h)
theorem memOk_hostStore {pa : Nat} {data : List Byte} (h : s.memOk) : (s.hostStore pa data).memOk := by
  unfold State.hostStore
  extract_lets +onlyGivenNames ps
  split
  · exact h
  · refine memOk_each (show State.memOk { s with hostStores := _ } = true from h) fun t x ht => ?_
    extract_lets +onlyGivenNames lk s1 s2
    have h1 : s1.memOk := memOk_ite (memOk_letGo ht) ht
    have h2 : s2.memOk := memOk_leafWritten (memOk_hostBytes h1) _ _
    exact memOk_ite h2 h2
theorem memOk_execHostLinkDown (h : s.memOk) : Out.MemOk (execHostLinkDown s) := by
  unfold execHostLinkDown; split <;> exact h
theorem memOk_dropDirty (h : s.memOk) : s.dropDirty.memOk := h
theorem memOk_execHostLinkUp (h : s.memOk) : Out.MemOk (execHostLinkUp s) := by
  unfold execHostLinkUp
  split
  · exact h
  · split
    · exact memOk_each h (fun _ _ h' => memOk_writeBack h')
    · exact memOk_dropDirty h
theorem memOk_hostOffers {cache : Bool} {atomics : List Nat} (h : s.memOk) : (s.hostOffers cache atomics).memOk := by
  unfold State.hostOffers; split <;> exact h
theorem memOk_moveLine {ctx : Nat} {x : State × Nat} {a b : PA} (h : x.1.memOk) : (State.moveLine ctx x a b).1.memOk := by
  unfold State.moveLine
  split
  next e =>
    have hr := memOk_of_eq (fun y : Acc × Option Nat => y.1.s) (memOk_liftLine h) e
    dsimp only
    split
    · exact (memOk_putLine _ _ _).trans (memOk_writeAt hr _ _ _ _)
    · exact memOk_writeAt hr _ _ _ _
theorem memOk_moveWatches {src dst : PA} (h : s.memOk) : (s.moveWatches src dst).memOk := h
theorem memOk_execPageMove {ctx : Nat} {va : BitVec 64} (h : s.memOk) : Out.MemOk (execPageMove ctx va s) := by
  unfold execPageMove
  extract_lets +onlyGivenNames v
  split
  · extract_lets +onlyGivenNames d hst toHost toDev src dst
    refine outOk_ite h (outOk_ite (memOk_modRange h) (outOk_ite h ?_))
    extract_lets +onlyGivenNames c m s2
    have hc : c.1.memOk := memOk_fold Prod.fst h fun _ _ hx => memOk_placeClaim hx
    have hm : m.1.memOk := memOk_fold Prod.fst hc fun _ _ hx => memOk_moveLine hx
    exact memOk_modRange (memOk_moveWatches (memOk_writeLeaf hm))
  · exact h
theorem memOk_clearCounters (h : s.memOk) : s.clearCounters.memOk := h

/-! ### Turns, layouts and precision time -/
theorem memOk_cutPort {x : Nat × PortRun} (h : s.memOk) : (s.cutPort x).memOk := by
  unfold State.cutPort
  extract_lets _ s1
  have h1 : s1.memOk := by
    unfold s1
    split
    · exact memOk_putCrew h
    · exact h
  clear_value s1
  exact h1
theorem memOk_execTurnScheduleWrite {part : Nat} {epoch : BitVec 64} {turns : List Turn} (h : s.memOk) :
    Out.MemOk (execTurnScheduleWrite part epoch turns s) := by
  unfold execTurnScheduleWrite
  split
  · trivial
  · extract_lets
    split
    · exact h
    · exact memOk_putPart h
theorem memOk_setAside {p ctx : Nat} (h : s.memOk) : (s.setAside p ctx).memOk := memOk_regEvictable (memOk_putFibres h)
theorem memOk_saveArea {ctx : Nat} (h : s.memOk) : (s.saveArea ctx).memOk := by
  unfold State.saveArea
  split
  · exact h
  · exact memOk_putCtx (memOk_each h (fun _ _ h' => (memOk_putLine _ _ _).trans h'))
theorem memOk_spoilSaved {p ctx : Nat} (h : s.memOk) : (s.spoilSaved p ctx).memOk := memOk_sramKept (s := s.newSeed.2) (memOk_newSeed h)
theorem memOk_bringBack {p ctx : Nat} (h : s.memOk) : (s.bringBack p ctx).memOk := h
theorem memOk_startDestroy {ctx cls : Nat} (h : s.memOk) : (s.startDestroy ctx cls).memOk := h
theorem memOk_lose {ctx cls : Nat} (h : s.memOk) : (s.lose ctx cls).memOk := by
  unfold State.lose
  split
  · exact h
  · split
    · exact h
    · extract_lets s1
      have h1 : s1.memOk := memOk_putCtx h
      clear_value s1
      split
      · exact h1
      · exact memOk_startDestroy h1
theorem memOk_restoreArea {p ctx : Nat} (h : s.memOk) : (s.restoreArea p ctx).memOk := by
  unfold State.restoreArea
  split
  · exact h
  · extract_lets
    split
    · exact h
    · split
      · exact memOk_lose (memOk_each h (fun _ _ h' => memOk_readCheck h' _ _ _))
      · split
        · exact memOk_putCtx (memOk_spoilSaved h)
        · exact h
theorem memOk_finishJobs {p ctx : Nat} (h : s.memOk) : (s.finishJobs p ctx).memOk := by
  unfold State.finishJobs
  refine memOk_each h fun t1 _ h1 => ?_
  refine memOk_modSeqr ?_
  refine memOk_each h1 fun t2 _ h2 => ?_
  split
  · exact memOk_slotReady h2
  · exact memOk_slotReady h2
  · exact h2
theorem memOk_leaveParts {p ctx : Nat} (h : s.memOk) : (s.leaveParts p ctx).memOk :=
  memOk_each (memOk_finishJobs h) (fun _ _ h' => memOk_flushWays h')
theorem memOk_endSwitch {p : Nat} (h : s.memOk) : (s.endSwitch p).memOk := by
  unfold State.endSwitch
  extract_lets _ d1 s2
  have h1 : s2.memOk := by
    unfold s2
    split
    · exact memOk_saveArea (memOk_leaveParts (memOk_setAside h))
    · exact h
  clear_value s2 d1
  split
  · exact memOk_putPart h1
  · extract_lets s3
    have h2 : s3.memOk := memOk_restoreArea h1
    clear_value s3
    split
    · exact memOk_putPart h2
    · exact memOk_bringBack (memOk_putPart h2)
theorem memOk_trySwitch {p : Nat} {cur : Option Nat} (h : s.memOk) : (s.trySwitch p cur).memOk := by
  unfold State.trySwitch
  split
  · exact h
  · split
    · exact memOk_endSwitch h
    · extract_lets s1
      have h1 : s1.memOk := memOk_each h (fun _ _ h' => memOk_stopChans h')
      clear_value s1
      split
      · exact h1
      · exact memOk_endSwitch h1
theorem memOk_execTurnSwitch {part : Nat} (h : s.memOk) : Out.MemOk (execTurnSwitch part s) := by
  unfold execTurnSwitch
  split
  · trivial
  · split
    · exact h
    · extract_lets _ s1 s2 s3
      have h1 : s1.memOk := memOk_each h (fun _ _ h' => memOk_cutPort h')
      have h2 : s2.memOk := memOk_putPart h
      have h3 : s3.memOk := memOk_each h2 (fun _ _ h' => memOk_cutPort h')
      clear_value s1 s2 s3
      split
      · exact memOk_trySwitch h1
      · split
        · exact memOk_putPart h
        · change State.memOk _ = true
          refine memOk_trySwitch ?_
          split
          · exact memOk_setAside h3
          · exact h3
theorem memOk_execPartitionLayoutWrite {word : BitVec 64} (h : s.memOk) : Out.MemOk (execPartitionLayoutWrite word s) := by
  unfold execPartitionLayoutWrite
  extract_lets
  split <;> exact h
theorem memOk_execPtpUnlock (h : s.memOk) : Out.MemOk (execPtpUnlock s) := by
  unfold execPtpUnlock; split <;> exact h
theorem memOk_execPtpRelock (h : s.memOk) : Out.MemOk (execPtpRelock s) := by
  unfold execPtpRelock; split <;> exact h

/-! ### Stops of contexts -/
theorem memOk_needService {cause : Nat} (h : s.memOk) : (s.needService cause).memOk := h
theorem memOk_retireCluster {cl : Nat} (h : s.memOk) : (s.retireCluster cl).memOk := by
  unfold State.retireCluster
  split
  · exact h
  · exact memOk_needService h
theorem memOk_retireCore {core : Nat} (h : s.memOk) : (s.retireCore core).memOk := by
  unfold State.retireCore
  split
  · exact h
  · extract_lets _ s1
    have h1 : s1.memOk := memOk_needService h
    clear_value s1
    split
    · exact memOk_retireCluster h1
    · exact h1
theorem memOk_discardWork {ctx : Nat} (h : s.memOk) : (s.discardWork ctx).memOk :=
  memOk_each (memOk_each (memOk_putHeap h) (fun _ _ h' => memOk_ite (memOk_each h' (fun _ _ h'' => memOk_releasePeers h'')) h'))
    (fun _ _ h' => memOk_xferEnd h')
theorem memOk_endSessions {ctx : Nat} (h : s.memOk) : (s.endSessions ctx).memOk := by
  unfold State.endSessions
  extract_lets s1 _ s2
  have h1 : s1.memOk := memOk_each h (fun _ _ h' => memOk_tell h')
  have h2 : s2.memOk := memOk_each h1 (fun _ _ h' => memOk_tell h')
  clear_value s1 s2
  split
  · exact h1
  · exact h2
theorem memOk_discardAll {ctx : Nat} (h : s.memOk) : (s.discardAll ctx).memOk := by
  unfold State.discardAll
  extract_lets s1 _ s2
  have h1 : s1.memOk := memOk_discardWork (memOk_endSessions h)
  have h2 : s2.memOk := by
    unfold s2
    split
    · exact memOk_putCtx h1
    · exact h1
  clear_value s1 s2
  exact h2
theorem memOk_freeQueue {q : Nat} (h : s.memOk) : (s.freeQueue q).memOk := by
  unfold State.freeQueue
  split
  · exact h
  · exact memOk_putQreg h
theorem memOk_stopContext {ctx cls : Nat} (h : s.memOk) : (s.stopContext ctx cls).memOk :=
  memOk_msix (memOk_modSummary (memOk_ite (memOk_each (memOk_discardAll h) (fun _ _ h' => memOk_queueError h'))
    (memOk_each (memOk_discardAll h) (fun _ _ h' => memOk_freeQueue h'))))
theorem memOk_eraseContext {ctx : Nat} (h : s.memOk) : (s.eraseContext ctx).memOk :=
  memOk_sramKept (memOk_devKept (memOk_each h fun _ _ ht => memOk_freeQueue ht))
theorem memOk_useKey (h : s.memOk) : s.useKey.memOk := by
  unfold State.useKey
  extract_lets _ s1
  have h1 : s1.memOk := h
  split
  · exact memOk_needService h1
  · exact h1
theorem memOk_scrubbed {ctx : Nat} {c : Ctx} {counts : List Nat} (h : s.memOk) : (s.scrubbed ctx c counts).memOk := by
  unfold State.scrubbed
  extract_lets _ _ _ s1 s2 s3 s4 _ s5
  have h1 : s1.memOk := memOk_eraseContext h
  have h2 : s2.memOk := h1
  have h3 : s3.memOk := memOk_each h2 (fun _ _ h' => memOk_retireCore h')
  have h4 : s4.memOk := memOk_putKey h3
  have h5 : s5.memOk := memOk_putKey h3
  clear_value s1 s2 s3 s4 s5
  split
  · exact h4
  · exact memOk_useKey h5
theorem memOk_finishDestroy {ctx : Nat} {c : Ctx} {counts : List Nat} (h : s.memOk) : (s.finishDestroy ctx c counts).memOk := by
  unfold State.finishDestroy
  extract_lets s1
  have h1 : s1.memOk := memOk_scrubbed h
  clear_value s1
  split
  · exact memOk_startDestroy h1
  · exact h1
theorem memOk_loseContext {ctx cls : Nat} {c : Ctx} {counts : List Nat} (h : s.memOk) : (s.loseContext ctx cls c counts).memOk :=
  memOk_msix (memOk_finishDestroy (memOk_modSummary h))
theorem memOk_streamAll (h : s.memOk) : s.streamAll.memOk :=
  memOk_each (memOk_sendMsg (memOk_each (memOk_each h (fun _ _ h' => memOk_discardWork h')) (fun _ _ h' => memOk_merge h' _ _)))
    (fun _ _ h' => memOk_sendMsg h')
theorem memOk_actStop {ctx cls : Nat} (h : s.memOk) : (s.actStop ctx cls).memOk := by
  unfold State.actStop
  split
  · exact h
  · split
    · exact memOk_stopContext h
    · extract_lets +onlyGivenNames counts s1 s2
      have h1 : s1.memOk := memOk_discardAll h
      clear_value s1
      have h2 : s2.memOk := h1
      clear_value s2
      split
      · exact h2
      · exact memOk_ite (memOk_finishDestroy h2) (memOk_loseContext h2)
theorem memOk_stopOne {x : Nat × Nat} (h : s.memOk) : (s.stopOne x).memOk := by
  unfold State.stopOne
  split
  · exact h
  · extract_lets s1
    have h1 : s1.memOk := memOk_each h (fun _ _ h' => memOk_cutPort h')
    clear_value s1
    split
    · exact h1
    · exact memOk_actStop h1
theorem memOk_settleStops (h : s.memOk) : s.settleStops.memOk := by
  unfold State.settleStops
  extract_lets _ _ s1 s2
  have h1 : s1.memOk := by
    unfold s1
    split <;> exact h
  have h2 : s2.memOk := memOk_each h1 (fun _ _ h' => memOk_stopOne h')
  clear_value s1 s2
  split
  · exact memOk_streamAll h2
  · exact h2

/-! ### Contexts, registers, keys and resets -/
theorem memOk_createMgmt {v : Nat} (h : s.memOk) : (s.createMgmt v).memOk := by
  unfold State.createMgmt
  extract_lets
  split
  · exact h
  · exact memOk_putCtx (memOk_putKey h)
theorem memOk_execContextCreate (h : s.memOk) : Out.MemOk (execContextCreate s) := by
  unfold execContextCreate
  split
  · exact h
  · split
    · exact h
    · extract_lets _ _ _ _ s1 s2
      have h1 : s1.memOk := memOk_putKey h
      have h2 : s2.memOk := memOk_putCtx h1
      clear_value s1 s2
      split
      · exact h
      · exact h2
theorem memOk_execContextDestroy (h : s.memOk) : Out.MemOk (execContextDestroy s) := by
  unfold execContextDestroy
  split
  · exact h
  · split
    · exact h
    · exact show (s.startDestroy s.mgmt.dctx 5).memOk from memOk_startDestroy h
theorem memOk_debugEnd {d : Debug} {status : Nat} (h : s.memOk) : (s.debugEnd d status).memOk := h
theorem memOk_debugRun {d : Debug} (h : s.memOk) : (s.debugRun d).memOk := by
  unfold State.debugRun
  extract_lets
  split
  · exact memOk_debugEnd h
  · split
    · exact memOk_debugEnd h
    · split
      · exact memOk_debugEnd (memOk_putFibre h)
      · split
        · exact memOk_debugEnd (memOk_putFibre h)
        · split
          · exact memOk_debugEnd h
          · split
            · exact memOk_debugEnd h
            · split
              · exact h
              · split
                · exact memOk_debugEnd h
                · exact memOk_debugEnd (memOk_settleAwaits (memOk_putFibre h))
theorem memOk_debugGo {op : BitVec 3} (h : s.memOk) : (s.debugGo op).memOk := by
  unfold State.debugGo
  split
  · exact h
  · exact memOk_debugRun h
theorem memOk_debugWait {op : BitVec 3} (h : s.memOk) : (s.debugWait op).memOk := by
  unfold State.debugWait
  split
  · exact memOk_debugRun h
  · exact memOk_debugGo h
theorem memOk_setRing {kslot gr n : Nat} (h : s.memOk) : (s.setRing kslot gr n).memOk := memOk_putKey h
theorem memOk_execLogRingConfigure {kslot : Nat} {loggr logn : BitVec 24} (h : s.memOk) : Out.MemOk (execLogRingConfigure kslot loggr logn s) := by
  unfold execLogRingConfigure
  split
  · trivial
  · exact memOk_setRing h
theorem memOk_writeBar0 {off : Nat} {b : Byte} (h : s.memOk) : (s.writeBar0 off b).memOk := by
  have hm {m : Mgmt} : State.memOk { s with mgmt := m } = true := h
  have hk {i : Nat} {k : KeySlot} : (s.putKey i k).memOk := memOk_putKey h
  unfold State.writeBar0
  exact memOk_ite (memOk_ite h hm) (memOk_ite hm (memOk_ite hm (memOk_ite (memOk_ite hk (memOk_ite hk (memOk_ite hk (memOk_ite hk h))))
    (memOk_ite (memOk_ite h hm) h))))
theorem memOk_writeBytes {f : State → Nat → Byte → State} {off : Nat} {l : List Byte} (h : s.memOk) (hf : ∀ t n b, t.memOk → (f t n b).memOk) :
    (writeBytes f s off l).memOk := by
  induction l generalizing s off with
  | nil => exact h
  | cons b r ih => exact ih (hf _ _ _ h)
theorem memOk_andDo {act : State → Out} (h : s.memOk) (hact : ∀ t, t.memOk → Out.MemOk (act t)) : (s.andDo act).memOk := by
  unfold State.andDo
  split
  next e =>
    have h1 := holds_of_eq (hact _ h) e
    exact h1
  · exact h
theorem memOk_writeBar2 {off : Nat} {b : Byte} (h : s.memOk) : (s.writeBar2 off b).memOk := by
  unfold State.writeBar2
  split
  · exact memOk_putQreg h
  · split
    · extract_lets _ s1
      have h1 : s1.memOk := by
        unfold s1
        split
        · exact memOk_andDo h (fun _ h' => memOk_execQueueCreate h')
        · exact h
      clear_value s1
      split
      · exact memOk_andDo h1 (fun _ h' => memOk_execQueueDestroy h')
      · exact h1
    · exact h
theorem memOk_startBar0 {off : Nat} {data : List Byte} {dbgBusy : Bool} (h : s.memOk) : (s.startBar0 off data dbgBusy).memOk := by
  unfold State.startBar0
  extract_lets _ s1 s2 s3
  have h1 : s1.memOk := by
    unfold s1
    split
    · exact memOk_andDo h (fun _ h' => memOk_execContextCreate h')
    · exact h
  have h2 : s2.memOk := by
    unfold s2
    split
    · exact memOk_andDo h1 (fun _ h' => memOk_execContextDestroy h')
    · exact h1
  have h3 : s3.memOk := memOk_each h2 (fun _ _ h' => memOk_ite (memOk_setRing h') h')
  clear_value s1 s2 s3
  split
  · exact memOk_debugRun h3
  · exact h3
theorem memOk_execRegisterWrite {bar off : Nat} {data : List Byte} (h : s.memOk) : Out.MemOk (execRegisterWrite bar off data s) := by
  unfold execRegisterWrite
  split
  · exact memOk_startBar0 (memOk_writeBytes h (fun _ _ _ h' => memOk_writeBar0 h'))
  · split
    · exact memOk_writeBytes h (fun _ _ _ h' => memOk_writeBar2 h')
    · exact h
theorem memOk_execAttestationReportRequest {nonce : BitVec 256} (h : s.memOk) : Out.MemOk (execAttestationReportRequest nonce s) := by
  unfold execAttestationReportRequest
  split
  · exact h
  · exact memOk_useKey h
theorem memOk_execHostPublicKey {key : List Byte} (h : s.memOk) : Out.MemOk (execHostPublicKey key s) := by
  unfold execHostPublicKey; split <;> exact h
theorem memOk_execWrappedKeyImport {kslot : Nat} {wrapped : List Byte} (h : s.memOk) : Out.MemOk (execWrappedKeyImport kslot wrapped s) := by
  unfold execWrappedKeyImport
  split
  · trivial
  · split
    · exact h
    · extract_lets _ s1
      have h1 : s1.memOk := h
      clear_value s1
      split
      · exact h1
      · exact memOk_putKey h1
theorem memOk_afterReset (h : s.memOk) : s.afterReset.memOk := memOk_iff.mpr ⟨⟨rfl, (memOk_iff.mp h).1.2⟩, rfl⟩
theorem memOk_execFirmwareBoot {image : Firmware} (h : s.memOk) : Out.MemOk (execFirmwareBoot image s) := by
  unfold execFirmwareBoot
  split
  · exact h
  · exact memOk_afterReset h
theorem memOk_execFirmwareRecoveryImage {image : Firmware} (h : s.memOk) : Out.MemOk (execFirmwareRecoveryImage image s) := by
  unfold execFirmwareRecoveryImage
  split
  · exact memOk_afterReset h
  · exact h
theorem memOk_execCheckpoint (h : s.memOk) : Out.MemOk (execCheckpoint s) := by
  unfold execCheckpoint; split <;> exact h
theorem memOk_restoreGranule {g : SavedGranule} (h : s.memOk) : (s.restoreGranule g).memOk := by
  unfold State.restoreGranule
  extract_lets +onlyGivenNames base k ls s1 s2 keys s3 mark
  have h1 : s1.memOk := memOk_devKept h
  have h2 : s2.memOk := memOk_each h1 fun _ _ ht => memOk_devBytes ht
  have h3 : s3.memOk := memOk_each h2 fun _ _ ht => (memOk_putLine _ _ _).trans ht
  have hm : ∀ t i n, t.memOk → (mark t i n).memOk := fun _ _ _ ht => (memOk_putLine _ _ _).trans ht
  exact memOk_ite (memOk_each h3 fun _ _ ht => hm _ _ _ ht) (memOk_each h3 fun _ _ ht => hm _ _ _ ht)
theorem memOk_execCheckpointRestore {granules : List SavedGranule} (h : s.memOk) : Out.MemOk (execCheckpointRestore granules s) := by
  unfold execCheckpointRestore
  split
  · exact h
  · exact memOk_each h (fun _ _ h' => memOk_restoreGranule h')

/-! ### Hardware errors -/
theorem memOk_stopAll {cls : Nat} {l : List Nat} (h : s.memOk) : (s.stopAll cls l).memOk := h
theorem memOk_countCorrected {hbm : Bool} (h : s.memOk) : (s.countCorrected hbm).memOk := by
  unfold State.countCorrected
  extract_lets _ _ s1
  have h1 : s1.memOk := h
  clear_value s1
  split
  · exact memOk_needService h1
  · exact h1
theorem memOk_loseUnit {kind core i ctx : Nat} (h : s.memOk) : (s.loseUnit kind core i ctx).memOk := by
  unfold State.loseUnit
  split
  next e =>
    have ht := memOk_of_snd (memOk_newSeed h) e
    exact memOk_ite (memOk_sramKept (memOk_putCC ht)) (memOk_ite (memOk_putCC ht) (memOk_putCC ht))
theorem memOk_storageError {kind core i ctx : Nat} (h : s.memOk) : (s.storageError kind core i ctx).memOk := by
  unfold State.storageError
  extract_lets _ s1
  have h1 : s1.memOk := memOk_loseUnit (memOk_stopAll (memOk_logError h))
  clear_value s1
  split
  · exact memOk_retireCore h1
  · exact h1
theorem memOk_lineError {pa core : Nat} (h : s.memOk) : (s.lineError pa core).memOk := by
  unfold State.lineError
  extract_lets
  split
  · exact (memOk_putLine _ _ _).trans h
  · split
    · exact memOk_logError ((memOk_putLine _ _ _).trans h)
    · split
      · exact memOk_countCorrected ((memOk_putLine _ _ _).trans h)
      · exact h
theorem memOk_unitError {core : Nat} (h : s.memOk) : (s.unitError core).memOk := by
  unfold State.unitError
  extract_lets s1 d2 _ s3
  have h1 : s1.memOk := memOk_stopAll h
  have h2 : s3.memOk := h1
  clear_value s1 s3 d2
  split
  · split
    · exact memOk_retireCore h2
    · exact h2
  · exact h2
theorem memOk_execHardwareError {err : HwError} (h : s.memOk) : Out.MemOk (execHardwareError err s) := by
  unfold execHardwareError
  split
  · exact memOk_countCorrected h
  · exact memOk_ite ((memOk_putLine _ _ _).trans h) h
  · exact memOk_ite ((memOk_putLine _ _ _).trans h) h
  · split
    · trivial
    · exact memOk_lineError h
  · split
    · exact memOk_stopAll (memOk_logError h)
    · exact h
  · split
    · trivial
    · split
      · exact memOk_ite (memOk_countCorrected h) (memOk_storageError h)
      · exact h
  · split
    · trivial
    · split
      · exact memOk_ite (memOk_storageError h) h
      · exact h
  · split
    · trivial
    · split
      · exact memOk_ite (memOk_storageError h) h
      · exact h
  · split
    · trivial
    · exact memOk_unitError h
  · split
    · trivial
    · exact memOk_retireCluster (memOk_stopAll h)
  · split
    · trivial
    · exact memOk_needService (show (s.stopAll 3 (List.map Prod.fst s.ctxs)).memOk from memOk_stopAll h)
  · extract_lets _ s1
    have h1 : s1.memOk := memOk_stopAll h
    clear_value s1
    exact memOk_needService h1
  · exact memOk_lose h
  · exact memOk_lose h
  · split
    · trivial
    · split
      · exact h
      · exact memOk_logError h

/-! ### The instructions together -/
theorem memOk_exec {i : Instr} (h : s.memOk) : Out.MemOk (exec i s) := by
  unfold exec
  cases i with
  | iadd _ | isub _ | imul _ | imulh _ | imad _ | imad64 _ | iadd64 _ | lea _ | ineg _ | iabs _ | imin _ | imax _ | andb _ | orb _ | xorb _ | andn _
  | notb _ | shl _ | shr _ | sar _ | funshf _ | bfe _ | bfi _ | popc _ | clz _ | brev _ | isetp _ | isel _ | mov _ | movi _ | fadd _ | fsub _
  | fmul _ | ffma _ | fmin _ | fmax _ | fminnum _ | fmaxnum _ | fsetp _ | fclass _ | frnd _ | fscale _ | fcpysgn _ | dadd _ | dmul _ | dfma _
  | dsetp _ | hadd2 _ | hmul2 _ | hfma2 _ | badd2 _ | bmul2 _ | bfma2 _ | fstatw _ | rcp _ | rsq _ | sqrt _ | ex2 _ | lg2 _ | tanh _ | sinpi _
  | cospi _ | ftoi _ | itof _ | fcvt _ | nop _ | hrem _ | fpin _ | funpin _ | wpwait _ | timew _ | scrubq _ => exact memOk_runG h
  | movs _ => exact memOk_execMovs h
  | idivq _ | srdcnt _ => exact memOk_runFill h
  | shfl _ | qswap _ | qbcast _ => exact memOk_runExchange h
  | vote _ | redux _ | cfence _ | mrd _ | mact _ | rwait _ => exact memOk_runCrew h (fun _ _ h' => h')
  | fredux _ => exact memOk_execFredux h
  | matchl _ => exact memOk_execMatchl h
  | join _ | leave _ | mand _ | mor _ | mxor _ | mnot _ => exact memOk_runMask h
  | waitm _ => exact memOk_execWaitm h
  | mwr _ => exact memOk_execMwr h
  | bra _ | brc _ => exact memOk_runBranchJ h
  | brx _ => exact memOk_runTrailer h
  | call _ => exact memOk_runFold h (fun _ _ h' => memOk_callLane h')
  | callx _ => exact memOk_execCallx h
  | ret _ => exact memOk_execRet h
  | stop _ => exact memOk_execStop h
  | exit _ => exact memOk_runFold h (fun _ _ h' => memOk_exitLane h')
  | hinst _ => exact memOk_execHinst h
  | perform _ => exact memOk_execPerform h
  | resume _ => exact memOk_runAlone h (fun _ _ h' => memOk_resumeLane h')
  | drop _ => exact memOk_execDrop h
  | cstat _ => exact memOk_execCstat h
  | spawn _ => exact memOk_execSpawn h
  | fget _ => exact memOk_runAlone h (fun _ _ h' => memOk_fgetLane h')
  | fpark _ => exact memOk_execFpark h
  | fref _ | funref _ | fxfer _ => exact memOk_runRef h
  | fcancel _ => exact memOk_runCrew h (fun _ _ h' => memOk_each h' (fun _ _ h'' => memOk_ite (memOk_modFibre h'') (memOk_doCancel h'')))
  | ld _ => exact memOk_runMem h memOk_ldAct (fun _ _ _ h' => memOk_noAfter h')
  | st _ => exact memOk_runMem h memOk_stAct (fun _ _ _ h' => memOk_stAfter h')
  | ldFrame _ => exact memOk_execLdFrame h
  | stFrame _ => exact memOk_execStFrame h
  | ldc _ => exact memOk_runMem h memOk_ldcAct (fun _ _ _ h' => memOk_noAfter h')
  | atom _ | atom64 _ | cas2 _ => exact memOk_runMem h memOk_atomAct (fun _ _ _ h' => memOk_noAfter h')
  | red _ => exact memOk_runMem h memOk_redAct (fun _ _ _ h' => memOk_noAfter h')
  | fenceSys _ => exact memOk_execFenceSys h
  | fifow _ => exact memOk_execFifow h
  | fifor _ => exact memOk_execFifor h
  | bankcfg _ => exact memOk_execBankcfg h
  | wptr _ => exact memOk_execWptr h
  | barinit _ => exact memOk_execBarinit h
  | bara _ | baraw _ => exact memOk_runArrive h
  | barw _ => exact memOk_runGRole h
  | rpost _ => exact memOk_execRpost h
  | push _ => exact memOk_runCrew h (fun _ _ h' => memOk_pushLanes h')
  | movsw _ => exact memOk_execMovsw h
  | atomx _ => exact memOk_execAtomx h
  | xclaim _ _ => exact memOk_execXclaim h
  | xrel _ _ => exact memOk_execXrel h
  | xload _ _ _ _ _ _ => exact memOk_execXload h
  | xmma _ _ _ | xmmaz _ _ _ => exact memOk_runXmma h
  | xdrain _ _ _ _ _ _ _ => exact memOk_execXdrain h
  | xdraina _ _ _ _ => exact memOk_execXdraina h
  | xsub _ _ _ _ _ => exact memOk_execXsub h
  | xunsub _ => exact memOk_execXunsub h
  | xbara _ => exact memOk_execXbara h
  | xbarw _ => exact memOk_execXbarw h
  | xloop _ _ _ => exact memOk_execXloop h
  | xjmp _ _ => exact memOk_runX h (fun _ _ _ h' => memOk_seqJump h')
  | xset _ _ _ => exact memOk_execXset h
  | xaddg _ _ _ _ => exact memOk_execXaddg h
  | xstop => exact memOk_execXstop h
  | xnop => exact memOk_runX h (fun _ _ _ h' => h')
  | xwaits _ => exact memOk_execXwaits h
  | dyzilLdp _ _ | dyzilLds _ _ | dyzilSts _ _ | dyzilLdq _ _ | dyzilMovi _ _ | dyzilAdd _ _ | dyzilAddi _ _ | dyzilSub _ _ | dyzilAnd _ _
  | dyzilOr _ _ | dyzilShl _ _ | dyzilShr _ _ | dyzilExt _ _ _ _ => exact memOk_regD h
  | dyzilJmp _ | dyzilBeq _ _ _ | dyzilBne _ _ _ | dyzilBltu _ _ _ => exact memOk_branchD h
  | dyzilLoop _ _ => exact memOk_runD h (fun _ _ _ h' => memOk_putQueue h')
  | dyzilLaunch _ _ => exact memOk_execDyzilLaunch h
  | dyzilRec _ => exact memOk_execDyzilRec h
  | dyzilSignal _ _ _ => exact memOk_execDyzilSignal h
  | dyzilWaitv _ _ _ => exact memOk_execDyzilWaitv h
  | dyzilCancel _ => exact memOk_runD h (fun _ _ _ h' => memOk_cancel (memOk_putQueue h'))
  | dyzilErr _ => exact memOk_runD h (fun _ _ _ h' => memOk_queueError (memOk_putQueue h'))
  | dyzilDone => exact memOk_execDyzilDone h
  | dyzilBudget _ => exact memOk_execDyzilBudget h
  | packetStart _ => exact memOk_execPacketStart h
  | monitorWake _ => exact memOk_execMonitorWake h
  | deferredSignalWrite _ => exact memOk_execDeferredSignalWrite h
  | queueCreate _ _ => exact memOk_execQueueCreate h
  | queueDestroy _ => exact memOk_execQueueDestroy h
  | taskSubmit _ => exact memOk_execTaskSubmit h
  | gatherTimerLapse _ _ _ => exact memOk_execGatherTimerLapse h
  | placeCrew _ => exact memOk_execPlaceCrew h
  | placeTeam _ => exact memOk_execPlaceTeam h
  | issueSelect _ _ => exact memOk_execIssueSelect h
  | crewPromote _ => exact memOk_execCrewPromote h
  | registerFill _ => exact memOk_execRegisterFill h
  | timewExpire _ => exact memOk_execTimewExpire h
  | fibreReclaim _ => exact memOk_execFibreReclaim h
  | asyncFaultDelivery _ => exact memOk_execAsyncFaultDelivery h
  | sequencerFaultDelivery _ _ => exact memOk_execSequencerFaultDelivery h
  | copyLinear _ _ | copy2d _ _ => exact memOk_runCopy h (fun _ _ h' => memOk_copyGo h')
  | copyGather _ _ => exact memOk_runCopy h (fun _ _ h' => memOk_gatherGo h')
  | copyScatter _ _ => exact memOk_runCopy h (fun _ _ h' => memOk_scatterGo h')
  | copyFill _ _ => exact memOk_runCopy h (fun _ _ h' => memOk_fillGo h')
  | tileStream _ _ => exact memOk_execTileStream h
  | streamTileDeliver _ _ => exact memOk_execStreamTileDeliver h
  | commandComplete _ _ _ _ => exact memOk_execCommandComplete h
  | linkSend => exact memOk_execLinkSend h
  | linkReceivePost => exact memOk_execLinkReceivePost h
  | linkRemoteRed => exact memOk_execLinkRemoteRed h
  | linkRemoteCall => exact memOk_execLinkRemoteCall h
  | continuationTransfer _ => exact memOk_execContinuationTransfer h
  | sendArrival _ _ _ _ _ => exact memOk_execSendArrival h
  | remoteRedArrival _ _ _ _ _ _ => exact memOk_execRemoteRedArrival h
  | remoteCallArrival _ _ _ _ _ _ _ => exact memOk_execRemoteCallArrival h
  | transferCommitArrival _ => exact memOk_execTransferCommitArrival h
  | transferFilingAck _ => exact memOk_execTransferFilingAck h
  | transferCommitTimeout _ => exact memOk_execTransferCommitTimeout h
  | peerAccessRequest _ _ _ _ _ _ _ => exact memOk_execPeerAccessRequest h
  | peerAccessReply _ _ _ => exact memOk_answerAll h
  | ownershipHandover _ _ _ => exact memOk_execOwnershipHandover h
  | handoverData _ _ _ _ _ => exact memOk_execHandoverData h
  | handoverReceipt _ _ _ => exact memOk_execHandoverReceipt h
  | handoverCommit _ _ => exact memOk_execHandoverCommit h
  | handoverReceiptTimeout _ _ => exact memOk_execHandoverReceiptTimeout h
  | handoverCommitTimeout _ _ => exact memOk_execHandoverCommitTimeout h
  | destinationUnreachable _ => exact memOk_execDestinationUnreachable h
  | linkPortDown _ => exact memOk_execLinkPortDown h
  | ptpMessage _ => exact h
  | ptpUnlock => exact memOk_execPtpUnlock h
  | ptpRelock => exact memOk_execPtpRelock h
  | turnSwitch _ => exact memOk_execTurnSwitch h
  | turnScheduleWrite _ _ _ => exact memOk_execTurnScheduleWrite h
  | partitionLayoutWrite _ => exact memOk_execPartitionLayoutWrite h
  | bankerRequest _ => exact memOk_execBankerRequest h
  | homeMerge _ => exact memOk_merge h _ _
  | hardwareError _ => exact memOk_execHardwareError h
  | thermalTrip => exact memOk_stopAll h
  | hostCxlMemAccess _ _ => exact memOk_execHostCxlMemAccess h
  | hostCxlIoWrite _ _ => exact memOk_execHostCxlIoWrite h
  | pageMove _ _ => exact memOk_execPageMove h
  | migrationCounterClear => exact memOk_clearCounters h
  | hostLinkDown => exact memOk_execHostLinkDown h
  | hostLinkUp => exact memOk_execHostLinkUp h
  | dirtyHoldExpire => exact memOk_ite h (memOk_dropDirty h)
  | contextCreate => exact memOk_execContextCreate h
  | contextDestroy => exact memOk_execContextDestroy h
  | debugHalt | debugRelease | debugRead | debugWrite => exact memOk_debugGo h
  | debugReadWhenFull | debugWriteWhenFull => exact memOk_debugWait h
  | debugTimeout => exact memOk_ite (memOk_debugEnd h) h
  | logRingConfigure _ _ _ => exact memOk_execLogRingConfigure h
  | registerWrite _ _ _ => exact memOk_execRegisterWrite h
  | attestationReportRequest _ => exact memOk_execAttestationReportRequest h
  | hostPublicKey _ => exact memOk_execHostPublicKey h
  | wrappedKeyImport _ _ => exact memOk_execWrappedKeyImport h
  | firmwareBoot _ => exact memOk_execFirmwareBoot h
  | firmwareRecoveryImage _ => exact memOk_execFirmwareRecoveryImage h
  | moduleReset => exact memOk_afterReset h
  | checkpoint => exact memOk_execCheckpoint h
  | checkpointRestore _ => exact memOk_execCheckpointRestore h
  | xloadComplete _ _ => exact memOk_execXloadComplete h
  | xdrainComplete _ _ | xmmaComplete _ _ => exact memOk_endJob h (fun _ _ _ h' => h')
  | hostSnoop _ => exact memOk_execHostSnoop h
  | routeReturn _ => exact memOk_execRouteReturn h
  | xdrainaComplete _ _ => exact memOk_execXdrainaComplete h
  | bankRoleChangeComplete _ _ => exact memOk_execBankRoleChangeComplete h
  | zeroLengthReadComplete _ => exact memOk_execZeroLengthReadComplete h

/-! ### A turn -/
theorem memOk_nextAct (h : s.memOk) : s.nextAct.2.memOk := by
  unfold State.nextAct; split <;> exact h
theorem memOk_flushFar {ks : List Nat} (h : s.memOk) : (s.flushFar ks).memOk :=
  memOk_each h (fun _ _ h' => memOk_ite (memOk_each (memOk_putCluster (memOk_farTake h')) (fun _ _ h'' => memOk_landed h'')) h')
theorem memOk_portGo {core p : Nat} (h : s.memOk) : (s.portGo core p).MemOk := by
  unfold State.portGo
  split
  next e =>
    have h1 := holds_of_eq (memOk_portTurn h) e
    exact memOk_ite (memOk_flushFar h1) h1
  · exact memOk_portTurn h
theorem memOk_dyzilTurn {q : Nat} (h : s.memOk) : (s.dyzilTurn q).MemOk := by
  unfold State.dyzilTurn
  extract_lets s1
  have h1 : s1.memOk := h
  clear_value s1
  split
  · exact h1
  · split
    · exact h1
    · extract_lets s2 _ s3
      have h2 : s2.memOk := by
        unfold s2
        split <;> exact h1
      have h3 : s3.memOk := memOk_putQueue h2
      clear_value s2 s3
      split
      · exact h3
      · split <;> exact h3
theorem memOk_assignGranules {first count ctx : Nat} (h : s.memOk) : (s.assignGranules first count ctx).memOk := by
  unfold State.assignGranules; split <;> exact h
theorem memOk_takeTurn {a : Act} (h : s.memOk) : (s.takeTurn a).MemOk := by
  unfold State.takeTurn
  split
  · exact memOk_portGo h
  · exact memOk_seqTurn h
  · exact memOk_dyzilTurn h
  · exact h
  · split <;> exact h
  · exact memOk_assignGranules h
  · exact memOk_hostStore h
  · exact memOk_takeXfer h
  · exact memOk_ite h h
  · exact memOk_routeLost h
  · exact memOk_jobTurn h
  · exact memOk_hostOffers h
  · exact memOk_createMgmt h
theorem memOk_settleMasks (h : s.memOk) : s.settleMasks.memOk := memOk_each h (fun _ _ h' => memOk_retestMasks h')
theorem memOk_finish (h : s.memOk) : s.finish.memOk := by
  unfold State.finish
  extract_lets s1 s2
  have h1 : s1.memOk :=
    memOk_settleStops (memOk_settleTeams (memOk_settleAwaits (memOk_settleMasks (memOk_settleCancel (memOk_settleRefs (memOk_settleClaims h))))))
  clear_value s1
  have h2 : s2.memOk := memOk_settleReady h1
  clear_value s2
  exact h2
end

/-! ### The obligations -/

/-- Settles O57, by what each part of a step keeps: the choice of a turn, the turn, the instruction that it runs, and what time does after it. -/
theorem stepKeepsMemory : Obligations.StepKeepsMemory := by
  intro s t h hst
  have hn : s.nextAct.2.memOk := memOk_nextAct h
  have hnext : Out.MemOk (step s) := by
    unfold step
    split
    next e => exact memOk_finish (memOk_of_snd hn e)
    next a u e =>
      have hu := memOk_of_snd hn e
      split
      next e => exact memOk_finish (holds_of_eq (P := TurnOut.MemOk) (memOk_takeTurn hu) e)
      next i v e =>
        have hv := holds_of_eq (P := TurnOut.MemOk) (memOk_takeTurn hu) e
        split
        next e => exact memOk_finish (holds_of_eq (P := Out.MemOk) (memOk_exec hv) e)
        · trivial
        · trivial
  exact holds_of_eq (P := Out.MemOk) hnext hst

/-- Settles O58: each clause is read off `State.reset`, the roles of banks from the fresh core context that an unlisted core has. -/
theorem resetState : Obligations.ResetState := by
  have hrole (ctx core b : Nat) : (State.reset.cc ctx core).role b = if b < 24 then 0 else 1 := rfl
  refine ⟨State.reset_memOk, rfl, rfl, rfl, rfl, rfl, rfl, rfl, fun _ => ⟨rfl, rfl, rfl, rfl⟩, fun ctx core b hb => ?_, fun ctx core b hb _ => ?_,
    rfl, rfl, rfl⟩
  · rw [hrole, if_pos hb]
  · rw [hrole, if_neg (Nat.not_lt.mpr hb)]

end Sys2Proof.Machine
end

section
namespace Sys2Proof.Machine

/-! ## Fibres, crews and issue

### A fault of a lane that issues alone (O52) -/

/-- The delivery of an effect that finds its handler and a block leaves the fibre the kind of lane it was. -/
theorem State.deliver_fibre {s : State} {k j a : Nat} {r : EffRec} {pc : DWord} {word : Word} {f : Fibre} {h : Heap} (hf : s.fibre k = some f)
    (hk : f.key = k) (hj : f.handlerFor r.tag = some j) (hb : (s.heap f.ctx).takeBlock (s.cdesc f.ctx) = some (a, h))
    (ha : s.heapFault f.ctx a = none) : ∃ f', (s.deliver k r pc word).fibre k = some f' ∧ f'.helper = f.helper := by
  have hj' : ({ f with found := none } : Fibre).handlerFor r.tag = some j := hj
  have hb' : ((((s.putFibre { f with found := none }).bump f.ctx f.core 4 1).heap f.ctx).takeBlock
      (((s.putFibre { f with found := none }).bump f.ctx f.core 4 1).cdesc f.ctx)) = some (a, h) := hb
  have hlike : FetchAlike s ((s.putFibre { f with found := none }).bump f.ctx f.core 4 1) :=
    ⟨rfl, rfl, rfl, rfl, rfl, rfl, rfl, fun _ _ => rfl⟩
  have ha' := (hlike.heapFault f.ctx a).trans ha
  unfold State.deliver
  simp only [hf, hj', hb', ha']
  exact ⟨_, (State.fibre_putFibre _ _ _).trans (if_pos hk), rfl⟩

/-- A port whose group has left it, with no helper lane behind, is free. -/
theorem State.keepHelpers_none {s : State} {g : Group} (word : Word) (h : (g.now s).filter Fibre.helper = []) :
    s.keepHelpers g word = s.freePort g.core g.p := by
  unfold State.keepHelpers
  rw [h]
  rfl

/-- One lane's own fault, at an instruction that is no trailer, is delivered with a record of its own and counts one FRAG. -/
theorem State.deliverAll_one {s : State} {word : Word} {pc : DWord} {issue performed : Word} {f : Fibre} {x : FaultInfo} {k : Nat}
    (hw : isTrailerOp (word.toNat % 1024) = false) (hf : s.fibre k = some f) (ht : x.tag ≠ 2) :
    s.deliverAll word pc issue performed [⟨k, x, false, f.pc⟩] =
      let t := s.deliver k (s.faultRec f x false true word pc issue performed) f.pc word
      { t with frag := t.frag + 1 } := by
  unfold State.deliverAll
  extract_lets due gone lanes ds s0 s1 t
  have hd (d : LaneDeliv) : due d = false := by simp [due, hw]
  have hgone : gone = [] := by simp [gone, hd]
  have hds : ds = [⟨k, x, false, f.pc⟩] := by simp [ds, hd]
  have hlanes : lanes = performed := by
    have : ~~~laneMask [] = BitVec.allOnes 32 := by decide
    simp only [lanes, hgone, List.filterMap_nil, this, BitVec.and_allOnes]
  have hs0 : s0 = s := by simp [s0, hgone]
  have hs1 : s1 = t := by
    simp only [s1, hds, hs0, List.foldl_cons, List.foldl_nil, hf]
    rw [if_neg ht, hlanes]
  rw [hs1]

theorem State.canTake_group {s : State} {g : Group} {f : Fibre} {tag : BitVec 16} (h : s.canTake g f tag) : s.group = some g := h.1
theorem State.canTake_fs {s : State} {g : Group} {f : Fibre} {tag : BitVec 16} (h : s.canTake g f tag) : g.fs = [f] := h.2.1
theorem State.canTake_helper {s : State} {g : Group} {f : Fibre} {tag : BitVec 16} (h : s.canTake g f tag) : f.helper = false := by
  obtain ⟨-, -, -, -, -, -, hh, -⟩ := h
  exact hh

/-- A fault of a group of one lane, no helper, whose fills have arrived: that lane's fibre as the fault leaves it, its delivery, and the port. -/
theorem State.groupFault_one {s : State} {g : Group} {f f' : Fibre} {x : FaultInfo} (word : Word) (zero : Fibre → Fibre) (hfs : g.fs = [f])
    (hh : f.helper = false) (hn : s.noFill f.key = true) (hx : x.tag ≠ 0) :
    s.groupFault g word [(f, .fault x f')] zero =
      ((s.putFibre f').deliverAll word f.pc (laneMask [f]) (laneMask [f]) [⟨f.key, x, false, f.pc⟩]).keepHelpers g word := by
  have hneeds : s.askNeeds g [(f, .fault x f')] = none := by
    simp only [State.askNeeds, List.findSome?_cons, LaneOut.needs, if_neg hx]
    rfl
  unfold State.groupFault
  simp only [hneeds, List.filter_cons, hh, hfs, Bool.not_false, if_true, List.filter_nil, List.any_cons, hn, Bool.not_true, List.any_nil,
    Bool.false_and, Bool.or_false, Bool.false_eq_true, if_false, List.findSome?_cons, List.map_cons, List.map_nil, List.filterMap_cons,
    List.filterMap_nil, List.headD_cons, State.putFibres]

/-- THE LAW of a fault found by a lane that issues alone, which may leave flags raised: the group's fault is this lane's exception, taken. -/
theorem State.groupFault_alone {s : State} {g : Group} {f : Fibre} {x : FaultInfo} (flags : Word) (zero : Fibre → Fibre) (h : s.canTake g f x.tag) :
    s.groupFault g g.run.word [(f, .fault x { f with fstat := flags })] zero =
      (s.putFibre { f with fstat := flags }).tookFault g { f with fstat := flags } x := by
  obtain ⟨hg, hfs, hs, -, -, hword, hh, hnf, h0, h2, hj, a, hp, hb, ha⟩ := h
  obtain ⟨j, hj⟩ := Option.isSome_iff_exists.mp hj
  have hkeys : g.run.fibres = [f.key] := by rw [← Group.sound_keys hg hs, hfs]; rfl
  obtain ⟨f', hf'⟩ : ∃ f' : Fibre, f' = { f with fstat := flags } := ⟨_, rfl⟩
  have hkey : f'.key = f.key := by rw [hf']
  have hput : (s.putFibre f').fibre f.key = some f' := by rw [State.fibre_putFibre, if_pos hkey]
  have hlike : FetchAlike s (s.putFibre f') := ⟨rfl, rfl, rfl, rfl, rfl, rfl, rfl, fun _ _ => rfl⟩
  have hmask : laneMask [f'] = laneMask [f] := by rw [hf']; rfl
  have hpc : f'.pc = f.pc := by rw [hf']
  obtain ⟨u, hu⟩ : ∃ u, u = (s.putFibre f').deliver f.key
      ((s.putFibre f').faultRec f' x false true g.run.word f.pc (laneMask [f]) (laneMask [f])) f.pc g.run.word := ⟨_, rfl⟩
  obtain ⟨f'', hf'', hhelper⟩ : ∃ f'', u.fibre f.key = some f'' ∧ f''.helper = f'.helper := by
    rw [hu]
    refine State.deliver_fibre (j := j) (a := a) (h := hp) hput hkey ?_ ?_ ?_
    · rw [hf']; exact hj
    · rw [hf']; exact hb
    · rw [hf']; exact (hf' ▸ hlike.heapFault f.ctx a).trans ha
  rw [← hf', State.groupFault_one _ _ hfs hh hnf h0, ← hpc, State.deliverAll_one hword hput h2, hpc, ← hu, State.keepHelpers_none]
  · rw [hu, State.tookFault, hkey, hpc, hmask]
    rfl
  · have : f''.helper = false := by rw [hhelper, hf', hh]
    show (g.run.fibres.filterMap u.fibre).filter Fibre.helper = []
    simp [hkeys, hf'', this]

/-- A lane that issues alone ends in its fault, wherever its guard passes and what it comes to is that fault. -/
theorem State.settleLanes_alone {s : State} {g : Group} {f : Fibre} {x : FaultInfo} (flags : Word) (zero : Fibre → Fibre) (after : State → State)
    {out : Fibre → LaneOut} (h : s.canTake g f x.tag) (ho : out f = .fault x { f with fstat := flags }) :
    s.settleLanes g (g.fs.map fun f => (f, out f)) zero after =
      (s.putFibre { f with fstat := flags }).tookFault g { f with fstat := flags } x := by
  rw [State.canTake_fs h, List.map_cons, List.map_nil, ho]
  exact State.groupFault_alone flags zero h

theorem laneStep_preFault {zero : Fibre → Fibre} {guard : Bool} {pre : Pre} {f : Fibre} {op : Unit → LaneOut} {x : FaultInfo}
    (hg : guard = true) (hh : f.helper = false) (hp : pre = .fault x) : laneStep zero guard pre f op = .fault x f := by
  subst hg hp
  simp [laneStep, hh]
theorem laneStep_opFault {zero : Fibre → Fibre} {guard : Bool} {pre : Pre} {f f' : Fibre} {op : Unit → LaneOut} {x : FaultInfo}
    (hg : guard = true) (hh : f.helper = false) (hp : pre = .go) (ho : op () = .fault x f') : laneStep zero guard pre f op = .fault x f' := by
  subst hg hp
  simp [laneStep, hh, ho]

/-- An instruction whose checks, or the instruction's own, find the fault at issue. -/
theorem traps_runCrew {i : Instr} {op : Nat} {o : GOp} {fault : State → Group → Fibre → FaultInfo → Prop}
    {pre : State → Group → GRow → Fibre → Pre} {lane : State → Group → Fibre → LaneOut} {after : State → State → Group → State}
    (hx : ∀ s, exec i s = runCrew op o s pre lane (after s)) (hrow : (gRow op).isSome = true)
    (hp : ∀ s g f x r, gRow op = some r → s.canTake g f x.tag → f.guard o.guard = true → fault s g f x → pre s g r f = .fault x) :
    traps i o (fun _ f => f) fault := fun s g f x h hgd hf => by
  obtain ⟨r, hr⟩ := Option.isSome_iff_exists.mp hrow
  rw [hx, runCrew, State.canTake_group h, hr]
  dsimp only
  rw [State.settleLanes_alone f.fstat _ _ h (laneStep_preFault hgd (State.canTake_helper h) (hp s g f x r hr h hgd hf))]

/-- An instruction whose lanes act alone is one whose lanes do not look at each other. -/
theorem runG_eq_runCrew (op : Nat) (o : GOp) (s : State) (lane : State → Fibre → LaneOut) :
    runG op o s lane = runCrew op o s (fun s _ r f => s.preG f op o r .go) (fun s _ f => lane s f) (fun t _ => t) := rfl

theorem traps_atIssue {i : Instr} {op : Nat} {o : GOp} {lane : State → Fibre → LaneOut} (hx : ∀ s, exec i s = runG op o s lane)
    (hrow : (gRow op).isSome = true) : traps i o (fun _ f => f) (faultsAtIssue op o) :=
  traps_runCrew (fun s => (hx s).trans (runG_eq_runCrew op o s lane)) hrow fun s g f x r hr _ _ hf => by
    obtain ⟨r', hr', hp⟩ := hf
    cases hr.symm.trans hr'
    exact hp

/-- ARITH (R173, R447): the flags are set, and the destination stands. -/
theorem traps_arith {i : Instr} {op : Nat} {o : GOp} {t : ImmTy} {k m : Nat → Nat → Nat → FRes} (hx : ∀ s, exec i s = runG op o s (laneF t o k))
    (hrow : (gRow op).isSome = true) (hk : ∀ a b c, k a b c = m a b c) :
    traps i o (fun s f => f.raise (from32 t o m s f).flags) (raisesEnabled op o (from32 t o m)) := fun s g f x h hgd hf => by
  obtain rfl : k = m := by funext a b c; exact hk a b c
  obtain ⟨hc, ht, rfl⟩ := hf
  obtain ⟨r, hr⟩ := Option.isSome_iff_exists.mp hrow
  have hlane : laneF t o k s f = .fault ⟨0x20, f.trapped (from32 t o k s f).flags, (from32 t o k s f).flags % 32, 0⟩
      (f.raise (from32 t o k s f).flags) := if_neg ht
  rw [hx, runG, State.canTake_group h, hr]
  dsimp only
  rw [State.settleLanes_alone (f.fstat ||| BitVec.ofNat 32 ((from32 t o k s f).flags % 32)) _ _ h
    (laneStep_opFault hgd (State.canTake_helper h) (State.clearLane_go hc hr) hlane)]
  rfl

/-! ### PRIV and ROLE, after what issue tests first (R437) -/

@[simp] theorem Pre.andThen_go (b : Unit → Pre) : Pre.go.andThen b = b () := rfl
@[simp] theorem Pre.andThen_fault (x : FaultInfo) (b : Unit → Pre) : (Pre.fault x).andThen b = .fault x := rfl
theorem Pre.andThen_eq_go {a : Pre} {b : Unit → Pre} : a.andThen b = .go ↔ a = .go ∧ b () = .go := by
  cases a <;> simp [Pre.andThen]

/-- Where the checks at issue find nothing, a test of the launch or the crew that fails is what the lane finds (R437 step 3). -/
theorem State.preG_role {s : State} {f : Fibre} {op : Nat} {o : GOp} {r : GRow} {x : FaultInfo} (h : s.preG f op o r .go = .go) :
    s.preG f op o r (.fault x) = .fault x := by
  unfold State.preG at h ⊢
  simp only [Pre.andThen_eq_go] at h
  obtain ⟨hlit, ha, hb, hc, hd, -⟩ := h
  simp only [hlit, ha, hb, hc, hd, Pre.andThen_go, Pre.andThen_fault]

theorem State.privFault_unprivileged {s : State} {f : Fibre} (h : ∀ l, s.launch f.ctx f.launch = some l → l.priv = false) :
    s.privFault f = .fault ⟨0x32, 1, 0, 0⟩ := by
  unfold State.privFault
  split
  next l hl => rw [h l hl]; rfl
  next => rfl

theorem State.roleFault_isZero {s : State} {g : Group} {cause : Nat} {c : Crew} (hc : s.crew g.run.crew = some c)
    (h : c.team = none ∨ c.number ≠ 0) : s.roleFault g cause Crew.isZero = .fault ⟨0x33, cause, s.roleCode g.run.crew, 0⟩ := by
  have hz : c.isZero = false := by
    rcases h with h | h <;> simp [Crew.isZero, h]
  unfold State.roleFault
  rw [hc]
  dsimp only
  rw [hz]
  rfl

/-- What MOVSW leaves of a lane, and what it does to the device (R308). -/
def movswLane (o : GOp) (s : State) (_ : Group) (f : Fibre) : Fibre :=
  if o.imm.toNat % 32 = 10 then { f with stamp := max f.stamp (s.src64 f .int o.imm o.a).toNat } else f
def movswGroup (o : GOp) (s : State) (g : Group) (t : State) : State :=
  (g.passing o).foldl (fun t f =>
    let x := s.src f .int o.imm o.a
    if o.imm.toNat % 32 = 16 then (if f.helper then t else t.traceWrite f x)
    else if o.imm.toNat % 32 = 17 then t.setGen f.ctx g.core g.p (if x = 0 then 1 else x) else t) t
theorem exec_movsw (o : GOp) (s : State) : exec (.movsw o) s = runCrew 0x309 o s (fun s _ r f => s.preG f 0x309 o r (s.privFault f))
    (fun s g f => .ok (movswLane o s g f)) (fun t g => movswGroup o s g t) := rfl

theorem traps_movsw (o : GOp) : traps (.movsw o) o (fun _ f => f) fun s _ f x =>
    s.clearLane 0x309 o f = true ∧ (∀ l, s.launch f.ctx f.launch = some l → l.priv = false) ∧ x = ⟨0x32, 1, 0, 0⟩ :=
  traps_runCrew (exec_movsw o) rfl fun s g f x r hr _ _ hf => by
    obtain ⟨hc, hl, rfl⟩ := hf
    rw [State.privFault_unprivileged hl]
    exact State.preG_role (State.clearLane_go hc hr)

/-- The lane that issues alone is the one that BARINIT reads. -/
theorem traps_barinit (o : GOp) : traps (.barinit o) o (fun _ f => f) fun s g f x =>
    s.clearLane 0x300 o f = true ∧ (∃ c, s.crew g.run.crew = some c ∧ (c.team = none ∨ c.number ≠ 0)) ∧
      x = ⟨0x33, 2, s.roleCode g.run.crew, 0⟩ :=
  traps_runCrew (op := 0x300) (fun _ => rfl) rfl fun s g f x r hr h hgd hf => by
    obtain ⟨hc, ⟨c, hcrew, hnot⟩, rfl⟩ := hf
    have hlead : (g.fs.find? fun f => f.guard o.guard) = some f := by rw [State.canTake_fs h, List.find?_cons, hgd]
    simp only [hlead, Option.map_some, BEq.rfl, if_true, State.roleFault_isZero hcrew hnot]
    rw [State.preG_role (State.clearLane_go hc hr)]
    rfl

/-! ### Address checks (R276) -/

/-- A memory instruction at its first try, of a lane that issues alone and that its checks fail: no access is made. -/
theorem State.memRun_alone {s : State} {g : Group} {k : MemKind} {f : Fibre} {x : FaultInfo} (h : s.canTake g f x.tag)
    (hk : k.plan s f = .fault x) : s.memRun g k = (s.putFibre f).tookFault g f x := by
  have htake := State.groupFault_alone f.fstat k.zero h
  obtain ⟨-, hfs, -, hd, hw, -⟩ := h
  unfold State.memRun State.takeReplies
  rw [hw]
  dsimp only
  rw [← htake, hfs, hd]
  simp [hk, Plan.fault?, faultsOf]

theorem memPlan_fault {s : State} {o : GOp} {keepsOut : Bool} {pre : Fibre → Pre} {check : Fibre → Plan} {f : Fibre} {x : FaultInfo}
    (hg : f.guard o.guard = true) (hh : f.helper = false) (hp : pre f = .go) (hc : check f = .fault x) (hw : s.roleWait (s.who f) x = false) :
    memPlan s o keepsOut pre check f = .fault x := by
  simp [memPlan, hg, hh, hp, hc, hw]

theorem traps_runMem {op : Nat} {i : Instr} {o : GOp} {keepsOut : Bool} {check : State → Fibre → Plan}
    {jointF : State → List MemLane → List (Nat × FaultInfo)} {a : MemAct} {after : State → Group → List MemLane → State}
    (hx : ∀ s, exec i s = runMem op o s i keepsOut check jointF a after) (hrow : (gRow op).isSome = true) :
    traps i o (fun _ f => f) fun s _ f x => s.clearLane op o f = true ∧ check s f = .fault x ∧ s.roleWait (s.who f) x = false :=
  fun s g f x h hgd hf => by
    obtain ⟨hc, hck, hw⟩ := hf
    obtain ⟨r, hr⟩ := Option.isSome_iff_exists.mp hrow
    rw [hx, runMem, State.canTake_group h, hr]
    dsimp only
    rw [State.memRun_alone h]
    exact memPlan_fault (pre := fun f => s.preG f op o r .go) (check := check s) hgd (State.canTake_helper h) (State.clearLane_go hc hr) hck hw

/-- The checks of LD's and ST's lanes (R275, R282). -/
theorem traps_ld (o : GOp) : traps (.ld o) o (fun _ f => f) fun s _ f x =>
    s.clearLane 0x280 o f = true ∧ ldCheck s o f = .fault x ∧ s.roleWait (s.who f) x = false :=
  traps_runMem (check := fun s f => ldCheck s o f) (fun _ => rfl) rfl
theorem traps_st (o : GOp) : traps (.st o) o (fun _ f => f) fun s _ f x =>
    s.clearLane 0x281 o f = true ∧ stCheck s o f = .fault x ∧ s.roleWait (s.who f) x = false :=
  traps_runMem (check := fun s f => stCheck s o f) (fun _ => rfl) rfl

/-- Settles O52: at issue and in ARITH by what a lane alone finds, PRIV and ROLE by the order of R437, address checks by the plan of a memory
instruction's lane. -/
theorem faultsAreTaken : Obligations.FaultsAreTaken := by
  intro o m same atIssue arith
  have hIssue {op : Nat} {i : Instr} {lane : State → Fibre → LaneOut} (hx : ∀ s, exec i s = runG op o s lane)
      (hrow : (gRow op).isSome = true) : atIssue op i := traps_atIssue hx hrow
  have hArith {op : Nat} {i : Instr} {k n : Nat → Nat → Nat → FRes} (hx : ∀ s, exec i s = runG op o s (laneF .f32 o k))
      (hrow : (gRow op).isSome = true) (hk : ∀ a b c, k a b c = n a b c) : arith op i (from32 .f32 o n) := traps_arith hx hrow hk
  refine ⟨?_, ?_, ?_, ?_, ?_, ?_, ?_, ?_, ?_, ?_, ?_, ?_, ?_, ?_, ?_, ?_, traps_movsw o, traps_barinit o, traps_ld o, traps_st o⟩
  iterate 12 exact hIssue (fun _ => rfl) rfl
  iterate 4 exact hArith (fun _ => rfl) rfl fun _ _ _ => rfl

/-! ### STOP and WAITM (O21) -/

theorem bitOf_toNat (x : Word) (i : Nat) : bitOf x.toNat i = x.getLsbD i := by
  rw [bitOf, BitVec.getLsbD, Nat.testBit_eq_decide_div_mod_eq]
  rfl
theorem maskNo_zero (o : GOp) : maskNo o 0 = o.imm.toNat % 16 := by
  simp [maskNo, bitsOf]

/-- A lane of a STOP whose registers lie below F where it is no helper finds none beyond (R200). -/
theorem SOp.find?_regs {o : SOp} {f : Fibre} (h : f.helper = false → ∀ n ∈ [o.d, o.a, o.b, o.c], ∀ r, n = some r → r.toNat < f.top.f) :
    f.helper = true ∨ (SOp.regs o).find? (fun n => decide (f.top.f ≤ n)) = none := by
  cases hh : f.helper with
  | true => exact .inl rfl
  | false =>
    refine .inr (List.find?_eq_none.mpr fun n hn => ?_)
    obtain ⟨x, hx, hxn⟩ := List.mem_filterMap.mp hn
    obtain ⟨r, rfl, rfl⟩ := Option.map_eq_some_iff.mp hxn
    simpa using h hh _ hx r rfl

/-- STOP in a group that finds nothing late: every lane awaits the registers that lie in its frame, as one group. -/
theorem exec_stop {o : SOp} {s : State} {g : Group} (hg : s.group = some g) (hlate : ∀ f ∈ g.fs, f.late = none ∧ f.refs = [])
    (h : ∀ f ∈ g.fs, f.helper = false → ∀ n ∈ [o.d, o.a, o.b, o.c], ∀ r, n = some r → r.toNat < f.top.f) :
    exec (.stop o) s = .next ((({ s with nextKey := s.nextKey + 1 } : State).putFibres (g.fs.map fun f =>
      { f with pc := s.nextSlot f.ctx f.pc, awaitGrp := s.nextKey, awaits := (SOp.regs o).filter fun n => n < f.top.f })).endSentence g []) := by
  have hlike : FetchAlike s { s with nextKey := s.nextKey + 1 } := ⟨rfl, rfl, rfl, rfl, rfl, rfl, rfl, fun _ _ => rfl⟩
  show execStop o s = _
  unfold execStop
  rw [hg]
  dsimp only
  rw [State.withLate_none _ hlate, if_neg]
  · simp only [State.newKey, State.onward, hlike.nextSlot]
  · rw [List.any_map, Bool.not_eq_true, List.any_eq_false]
    intro f hf
    rcases SOp.find?_regs (h f hf) with hh | hn
    · simp only [Function.comp, hh, if_true]
      split <;> exact Bool.false_ne_true
    · simp only [Function.comp, hn]
      exact Bool.false_ne_true

/-- WAITM in a group that finds nothing late, the mask's bits being those of the group's crew. -/
theorem exec_waitm {o : GOp} {s : State} {g : Group} (hg : s.group = some g) (hlate : ∀ f ∈ g.fs, f.late = none ∧ f.refs = []) :
    exec (.waitm o) s = .next (((s.putFibres (g.fs.map fun f => { f with
      pc := s.nextSlot f.ctx f.pc
      conds := if f.guard o.guard && (s.mask g.run.crew (o.imm.toNat % 16)).getLsbD f.lane then f.conds ++ [Cond.waitm (o.imm.toNat % 16)]
        else f.conds })).retestWaitm g.run.crew (o.imm.toNat % 16)).endSentence g []) := by
  show execWaitm o s = _
  unfold execWaitm
  rw [hg]
  dsimp only
  rw [State.withLate_none _ hlate, maskNo_zero]
  congr 5
  funext f
  rw [bitOf_toNat, apply_ite (fun c => ({ f with pc := s.nextSlot f.ctx f.pc, conds := c } : Fibre))]
  rfl

/-- Settles O21: neither trailer finds anything late, STOP's registers lie in the frames, and WAITM reads its mask's bits. -/
theorem stopAndWaitmComplete : Obligations.StopAndWaitmComplete := by
  refine ⟨fun o s g hg hlate h => exec_stop hg hlate h, ?_⟩
  intro o s g hg hlate n waits
  have hw (f : Fibre) : waits f = (f.guard o.guard && (s.mask g.run.crew n).getLsbD f.lane) := by
    simp only [waits, State.mask]
    cases s.crew g.run.crew <;> simp
  simp only [hw]
  exact exec_waitm hg hlate

/-! ### System instructions (O36) -/

/-- A lane that comes to wait for something at its next trailer. -/
theorem Fibre.addCond_same (f : Fibre) (c : Cond) : (f.addCond c).key = f.key ∧ (f.addCond c).ctx = f.ctx ∧ (f.addCond c).pc = f.pc :=
  ⟨rfl, rfl, rfl⟩

/-- FENCE.SYS with no access on its way: it goes on where no lane has stores to host memory outstanding, and waits for those lanes otherwise. -/
theorem exec_fenceSys {o : GOp} {s : State} {g : Group} (hg : s.group = some g)
    (h : ∀ f ∈ g.passing o, s.unplaced f.key = false ∧ (s.fills.any fun x => x.fibre == f.key && x.loc2) = false) :
    exec (.fenceSys o) s = .next (if (g.passing o).all (fun f => f.loc2 == 0) then ((g.passing o).foldl (fun t f => t.stampAccess f.key) s).goOn g
      else s.putPort g.core g.p { g.run with wait := .fence (((g.passing o).filter fun f => decide (0 < f.loc2)).map Fibre.key) }) := by
  have hready : ¬((g.passing o).any fun f => s.unplaced f.key || s.fills.any (fun x => x.fibre == f.key && x.loc2)) = true := by
    rw [Bool.not_eq_true, List.any_eq_false]
    intro f hf
    rw [(h f hf).1, (h f hf).2]
    exact Bool.false_ne_true
  have hall : (g.passing o).all (fun f => f.loc2 == 0) = ((g.passing o).filter fun f => decide (0 < f.loc2)).isEmpty := by
    rw [Bool.eq_iff_iff, List.isEmpty_iff, List.filter_eq_nil_iff, List.all_eq_true]
    simp
  show execFenceSys o s = _
  unfold execFenceSys
  rw [hg]
  dsimp only
  unfold Group.passing at hready hall ⊢
  rw [if_neg hready, hall]
  generalize List.filter (fun f : Fibre => decide (0 < f.loc2)) _ = lanes
  cases lanes <;> rfl

/-- Settles O36: four are shapes of lanes that act alone or fill; FENCE.SYS has nothing on its way; MOVSW finds its launch privileged. -/
theorem systemInstructionsComplete : Obligations.SystemInstructionsComplete := by
  intro o
  refine ⟨goesThrough_runG (fun _ => rfl) (fun _ _ => rfl) fun s f => f.addCond_same _,
    goesThrough_runG (fun _ => rfl) (fun _ _ => rfl) fun s f => f.addCond_same _,
    fillsThrough_runFill fun _ => rfl,
    goesThrough_runG (fun _ => rfl) (fun _ _ => rfl) fun s f => ⟨by simp, by simp, by simp⟩,
    fun s g hg h => exec_fenceSys hg h, ?_⟩
  intro sel s g hg h
  obtain ⟨r, hr⟩ : ∃ r, gRow 0x309 = some r := ⟨_, rfl⟩
  rw [exec_movsw, runCrew_next (movswLane o s g) hg hr (fun f hf hgd => ?_) fun f _ _ => rfl]
  · rfl
  · obtain ⟨hclear, hpriv⟩ : s.clearLane 0x309 o f = true ∧ s.privFault f = .go := by simpa using h f hf hgd
    rw [hpriv]
    exact State.clearLane_go hclear hr

/-! ### Dealers, placement and the choice of work (O45) -/

theorem exec_taskSubmit {s u : State} {cl id : Nat} {t : Task} (hcl : cl < 8)
    (h : ((s.cluster cl).waiting.findSome? fun w => (s.submitted w).map fun r => (w.id, r)) = some (id, u, t)) :
    exec (.taskSubmit cl) s = .next
      ((u.putCluster cl { s.cluster cl with waiting := removeFirst (fun w => w.id == id) (s.cluster cl).waiting }).fileTask cl t) := by
  show execTaskSubmit cl s = _
  unfold execTaskSubmit
  rw [if_neg (Nat.not_le.mpr hcl)]
  simp only [h]

theorem exec_gatherTimerLapse {s : State} {cl ctx : Nat} {pc : DWord} {b : Bin} (hcl : cl < 8)
    (hb : (s.cluster cl).bins.find? (fun b => b.pc == pc && b.ctx == ctx) = some b) (ht : b.start + b.timer ≤ s.cycle) :
    exec (.gatherTimerLapse cl pc ctx) s = .next (s.putCluster cl { (s.cluster cl).form s.cycle b.tasks with
      bins := (s.cluster cl).bins.filter fun x => !(x.pc == pc && x.ctx == ctx) }) := by
  show execGatherTimerLapse cl pc ctx s = _
  unfold execGatherTimerLapse
  rw [if_neg (Nat.not_le.mpr hcl)]
  simp only [hb, if_neg (Nat.not_lt.mpr ht)]

theorem exec_placeTeam {s : State} {ctx k : Nat} {u : TeamUnit} {cores : List Nat} {segs : List (Nat × Nat)} {h : Heap} {c : Ctx}
    (hfit : s.teamFit ctx = some (u, k, cores, segs, h)) (hc : s.ctx ctx = some c)
    (hfirst : ∀ rank f core, s.crewFit k = some (rank, f, core) → f.ctx = ctx → u.since < f.since) :
    exec (.placeTeam ctx) s = .next ((s.putCtx ctx { c with heap := h, order := c.order.drop 1 }).placeTeams
      ((s.putCtx ctx { c with heap := h, order := c.order.drop 1 }).launchOr ctx u.launch) u cores 0 segs) := by
  show execPlaceTeam ctx s = _
  unfold execPlaceTeam
  cases hcrew : s.crewFit k with
  | none => simp only [hfit, hc, hcrew, Bool.false_eq_true, if_false]
  | some x =>
    obtain ⟨rank, f, core⟩ := x
    have hlater : (f.ctx == ctx && decide (f.since ≤ u.since)) = false := by
      simpa using hfirst rank f core hcrew
    simp only [hfit, hc, hcrew, hlater, Bool.false_eq_true, if_false]

theorem exec_issueSelect {s : State} {core port k : Nat} {c : Crew} {g : ReadyGroup} (hcore : core < 384) (hport : port < 4)
    (hfree : s.port core port = none) (hlow : ∀ p < port, (s.port core p).isSome = true) (hg : s.choose core = some (k, c, g)) :
    exec (.issueSelect core port) s = .next
      ((let u := s.putCrew k { c with promoted := false, readySince := s.cycle + 1, cut := if g.cut.isSome then none else c.cut }
        if g.cut.isSome then u else u.bump c.ctx core 1 1).putPort
        core port { PortRun.fresh k (g.fibres.map Fibre.key) with count := g.cut.elim 0 Cut.count, done := g.cut.elim [] Cut.done }) := by
  have hthere : ¬(384 ≤ core ∨ 4 ≤ port) := by omega
  have hlowest : ¬((s.port core port).isSome || (List.range port).any fun p => (s.port core p).isNone) = true := by
    rw [hfree, Bool.not_eq_true, Option.isSome_none, Bool.false_or, List.any_eq_false]
    intro p hp
    rw [Option.isNone_iff_eq_none, ← Option.not_isSome_iff_eq_none, not_not]
    exact hlow p (List.mem_range.mp hp)
  show execIssueSelect core port s = _
  unfold execIssueSelect
  rw [if_neg hthere, if_neg hlowest]
  simp only [hg]
  cases g.cut <;> rfl

theorem exec_crewPromote {s : State} {k : Nat} {c : Crew} (hc : s.crew k = some c) (hp : c.promoted = false)
    (hr : (s.readyGroups c).isEmpty = false) (ht : c.readySince + 512 ≤ s.cycle) :
    exec (.crewPromote k) s = .next (s.putCrew k { c with promoted := true }) := by
  show execCrewPromote k s = _
  unfold execCrewPromote
  simp [hc, hp, hr, Nat.not_lt.mpr ht]

/-- The resume tasks among those placed in fibres ks resume, in their order (R98, R502). -/
def State.resumePlaced (s : State) (tasks : List Task) (ks : List Nat) : State :=
  (tasks.zip ks).foldl (fun s x => match x.1.body with
    | .resume k b _ => s.dealerResume x.2 k b
    | .fresh _ _ _ _ _ => s) s

/-- A crew that fits is placed whole: its tasks' fibres, its helper lanes, itself, and then what its resume tasks do. -/
theorem exec_placeCrew {s : State} {cl rank core : Nat} {f : Formed} {segs : List (Nat × Nat)} {h : Heap} (hcl : cl < 8)
    (hfit : s.crewFit cl = some (rank, f, core)) (hfirst : s.teamFirst f.ctx cl f.since = false) (hsegs : s.helperSegs f = some (segs, h))
    (hneeds : f.tasks.findSome? s.resumeNeeds = none) :
    let c := s.cluster cl
    let e := ((s.putCluster cl { c with placement := c.placement.take rank ++ c.placement.drop (rank + 1) }).putHeap f.ctx h).placedOn f.ctx core
    let ck := e.newKey.1
    let e := e.newKey.2
    let l := e.launchOr f.ctx f.launch
    let p := e.placeTasks ck core f.tasks 0 []
    let r := p.1.placeLanes l (some 0xFFFFFFFF) ck core (f.shape l).1 (f.shape l).2 (List.replicate 16 0) (maxOf (f.tasks.map Task.stamp))
      ((f.tasks.head?.map Task.pc).getD 0) (helpersOf f.tasks.length) f.tasks.length segs []
    let lanes := (p.2 ++ r.2.1).map some
    exec (.placeCrew cl) s = .next (((r.1.putCrew ck (Crew.fresh f.ctx f.launch core ((e.freeSlots core).headD 0)
      (lanes ++ List.replicate (32 - lanes.length) none) none 0 0 r.1.cycle)).resumePlaced f.tasks p.2).doneCode (256 + cl)) := by
  show execPlaceCrew cl s = _
  unfold execPlaceCrew
  rw [if_neg (Nat.not_le.mpr hcl)]
  simp only [hfit, hfirst, hsegs, hneeds]
  rfl

/-- Settles O45: each happening of a dealer, of placement or of a port's choice, where what it looks for is there. -/
theorem placementHappeningsComplete : Obligations.PlacementHappeningsComplete := by
  intro s cl hcl
  refine ⟨fun _ _ _ h => exec_taskSubmit hcl h, fun _ _ _ hb ht => exec_gatherTimerLapse hcl hb ht,
    fun _ _ _ _ _ hfit hfirst hsegs hneeds => exec_placeCrew hcl hfit hfirst hsegs hneeds,
    fun _ _ _ _ _ _ _ hfit hc hfirst => exec_placeTeam hfit hc hfirst,
    fun _ _ _ _ _ hcore hport hfree hlow hg => exec_issueSelect hcore hport hfree hlow hg,
    fun _ _ hc hp hr ht => exec_crewPromote hc hp hr ht⟩

/-! ### What reaches a fibre or a port (O46) -/

theorem exec_registerFill {s : State} {k : Nat} {x : Fill} (hx : s.fills[k]? = some x) (hv : x.vals.isEmpty = false) :
    exec (.registerFill k) s = .next ((({ s with fills := s.fills.eraseIdx k } : State).modFibre x.fibre fun f =>
      (f.frameAt x.frame).elim f fun fr => f.putFrame (fr.setRegs x.reg x.vals)).settleAwaits) := by
  show execRegisterFill k s = _
  unfold execRegisterFill
  simp only [hx, hv, Bool.false_eq_true, if_false]
  congr 3
  funext f
  cases f.frameAt x.frame <;> rfl

theorem exec_fibreReclaim {s : State} {k : Nat} {f : Fibre} (hf : s.fibre k = some f) (hp : s.pastTrailer f = true) :
    exec (.fibreReclaim k) s = .next (if f.helper && s.quadDone f then s.endFibre f else if s.dueReclaim f then s.reclaimFibre k else s) := by
  show execFibreReclaim k s = _
  unfold execFibreReclaim
  simp only [hf, hp, Bool.not_true, Bool.false_eq_true, if_false]
  split
  · rfl
  · split <;> rfl

theorem State.dueReclaim_of_reclaim {s : State} {f : Fibre} (hh : f.helper = false) (hr : f.reclaim = true) (hp : f.isPinned = false) :
    s.dueReclaim f = true := by
  simp [State.dueReclaim, hh, hr, hp]

/-- A fibre past its trailer with a pending fault, its fills arrived, takes the oldest one (R54, R463). -/
theorem State.afterTrailer_pending {s : State} {k : Nat} {f : Fibre} (hf : s.fibre k = some f) (hn : s.noFill k = true) (hh : f.helper = false)
    (hd : s.dueReclaim f = false) (ha : f.asyncs ≠ []) : s.afterTrailer k = s.deliverPending k := by
  unfold State.afterTrailer
  simp [hf, hn, hh, hd, ha]

/-- Whether TIMEW's condition is met at a time; any other condition stays (R292). -/
def Cond.reached (now : Nat) : Cond → Bool
  | .time t => decide (t ≤ now)
  | _ => false
def Cond.outlasts (now : Nat) : Cond → Bool
  | .time t => decide (now < t)
  | _ => true

theorem exec_timewExpire {s : State} {k t : Nat} {f : Fibre} (hf : s.fibre k = some f) (hp : s.onPort k = false) (hc : Cond.time t ∈ f.conds)
    (ht : t ≤ s.time) :
    exec (.timewExpire k) s = .next (s.putFibre { f with since := s.cycle, conds := f.conds.filter (Cond.outlasts s.time) }) := by
  have hmet : f.conds.any (Cond.reached s.time) = true := List.any_eq_true.mpr ⟨_, hc, decide_eq_true ht⟩
  have hexec : exec (.timewExpire k) s = .next (s.putFibre { f with
      conds := f.conds.filter (Cond.outlasts s.time), since := if f.conds.any (Cond.reached s.time) then s.cycle else f.since }) := by
    show execTimewExpire k s = _
    unfold execTimewExpire
    rw [hf]
    dsimp only
    rw [hp]
    rfl
  rw [hexec, hmet]
  rfl

theorem exec_asyncFaultDelivery {s : State} {k : Nat} {f : Fibre} (hf : s.fibre k = some f) (hb : s.blocked f = true) (hn : s.noFill k = true)
    (hh : f.helper = false) : exec (.asyncFaultDelivery k) s = .next (s.afterTrailer k) := by
  show execAsyncFaultDelivery k s = _
  unfold execAsyncFaultDelivery
  simp [hf, hb, hn, hh]

theorem exec_sequencerFaultDelivery {s : State} {core n tk : Nat} {t : Team} {r : EffRec} {f : Fibre} (hcore : core < 384) (hn : n < 4)
    (ht : s.seqTeam core n = some (tk, t)) (hr : t.seqr.fault = some r) (hf : s.leadFibre t = some f) :
    let bit := 1#32 <<< f.lane
    let u := (s.modSeqr tk fun q => { q with fault := none }).forward f.key { rec_ := { r with issue := bit, performed := bit }, halts := none }
    exec (.sequencerFaultDelivery core n) s = .next (if u.blocked f ∧ u.noFill f.key then u.deliverPending f.key else u) := by
  intro bit u
  have hthere : ¬(384 ≤ core ∨ 4 ≤ n) := by omega
  show execSequencerFaultDelivery core n s = _
  unfold execSequencerFaultDelivery
  rw [if_neg hthere]
  simp only [ht, hr, hf, Bool.and_eq_true]
  rfl

theorem exec_bankRoleChangeComplete {s : State} {core bank k role : Nat} {x : CoreCtx} (hcore : core < 384) (hbank : bank < 32)
    (hx : x.changing = some (bank, role))
    (hk : s.coreCtx.find? (fun (y : Nat × CoreCtx) => y.1 % 384 == core && y.2.changing.map Prod.fst == some bank) = some (k, x)) :
    exec (.bankRoleChangeComplete core bank) s = .next (s.setRole (k / 384) core bank role) := by
  have hthere : ¬(384 ≤ core ∨ 32 ≤ bank) := by omega
  show execBankRoleChangeComplete core bank s = _
  unfold execBankRoleChangeComplete
  rw [if_neg hthere]
  simp only [hk, hx]

/-- Settles O46: each happening that reaches a fibre or a port, where the fibre or port waits for it. -/
theorem fibreHappeningsComplete : Obligations.FibreHappeningsComplete := by
  intro s
  refine ⟨fun _ _ hx hv => exec_registerFill hx hv, fun _ _ _ hf hp hc ht => exec_timewExpire hf hp hc ht, ?_, ?_, ?_,
    fun _ _ _ _ _ _ hcore hn ht hr hf => exec_sequencerFaultDelivery hcore hn ht hr hf,
    fun _ _ _ _ _ hcore hbank hx hk => exec_bankRoleChangeComplete hcore hbank hx hk, ?_⟩
  · intro k f hf hp hh hq
    rw [exec_fibreReclaim hf hp, hh, hq]
    rfl
  · intro k f hf hp hh hr hpin
    rw [exec_fibreReclaim hf hp, hh, State.dueReclaim_of_reclaim hh hr hpin]
    rfl
  · intro k f hf hb hn hh hd ha
    rw [exec_asyncFaultDelivery hf hb hn hh, State.afterTrailer_pending hf hn hh hd ha]
  · intro k hwaits
    show execZeroLengthReadComplete k s = _
    unfold execZeroLengthReadComplete
    exact if_pos hwaits

/-! ### A step runs what its turn decoded (O59) -/

/-- The lines of a program counter and of a slot on its line. -/
theorem lineOf_slot {pc : DWord} {k : Nat} (hk : k < 64) :
    (BitVec.ofNat 64 (pc.toNat / 64 * 64 + k)).toNat / 64 * 64 = pc.toNat / 64 * 64 := by
  have := pc.isLt
  rw [BitVec.toNat_ofNat, Nat.mod_eq_of_lt (by omega)]
  omega

/-- Where the line of a program counter can be fetched and has no defect, its next slot is the instruction that it decodes to (R189, R441). -/
theorem State.fetchAt_run {s : State} {ctx count k : Nat} {pc : DWord} {ws : List Word} {pa : PA} {i : Instr}
    (hl : s.fetchLine ctx (pc.toNat / 64 * 64) = .ok (ws, pa)) (hd : lineDefect ws false = none) (hk : slotFrom ws (pc.toNat % 64) = some k)
    (hi : decodeSlot (slotBits ws k) = .ok i) (hc : count < 24) :
    s.fetchAt ctx pc count = .run i (slotBits ws k) (BitVec.ofNat 64 (pc.toNat / 64 * 64 + k)) := by
  obtain ⟨n, hn⟩ : ∃ n, 2 ^ 51 = n + 1 := ⟨2 ^ 51 - 1, rfl⟩
  unfold State.fetchAt
  rw [hn, State.fetchFuel]
  simp only [hl, hk, hd, fetchedSlot, hi]
  exact if_neg (Nat.not_le.mpr hc)

theorem State.group_port {s : State} {core p core' p' : Nat} {r : PortRun} {fs : List Fibre} (ha : s.actor = .port core p)
    (hg : s.group = some ⟨core', p', r, fs⟩) : s.port core p = some r := by
  unfold State.group at hg
  rw [ha] at hg
  dsimp only at hg
  split at hg
  next x hx => cases hg; exact hx
  next => cases hg

/-- A port's turn whose fetch gives an instruction (R43, R187). -/
theorem State.portTurn_run {s0 : State} {core p : Nat} {r : PortRun} {f : Fibre} {fs : List Fibre} {i : Instr} {bits : Nat} {pc : DWord}
    (hg : ({ s0 with actor := .port core p } : State).group = some ⟨core, p, r, f :: fs⟩)
    (hf : ({ s0 with actor := .port core p } : State).fetchAt f.ctx f.pc r.count = .run i bits pc) :
    s0.portTurn core p =
      let g : Group := ⟨core, p, r, f :: fs⟩
      let la := pc.toNat / 64 * 64
      let fs' := (f :: fs).map fun x => x.goesTo pc
      .run i ((((({ s0 with actor := .port core p } : State).putFibres fs').fetchWalks g la (slotLitNext bits)).touchRegs
        ⟨core, p, r, fs'⟩ i (slotGuard bits)).putPort core p { r with word := BitVec.ofNat 32 bits, line := la }) := by
  unfold State.portTurn
  simp only [hg, hf]
  rfl

/-- What a fetched instruction's turn takes of the port: the run as it stood, its far requests performed first where they must be. -/
theorem State.portGo_run {s0 v : State} {core p : Nat} {r : PortRun} {i : Instr} (hp : s0.port core p = some r)
    (ht : s0.portTurn core p = .run i v) : s0.portGo core p = .run i (if flushesFar i then v.flushFar r.fibres else v) := by
  unfold State.portGo
  rw [ht, hp]
  rfl

/-- A sequencer's turn whose fetch gives a group 7 instruction (R314, R316), its entry judged first where that is still to be done (R312). -/
theorem State.seqTurn_run {s0 s : State} {core n tk k : Nat} {t : Team} {ws : List Word} {pa : PA} {i : Instr}
    (hteam : ({ s0 with actor := .seqr core n } : State).seqTeam core n = some (tk, t)) (hhalt : t.seqr.halt = false)
    (hidle : ({ s0 with actor := .seqr core n } : State).seqIdle t = false)
    (hstops : ({ s0 with actor := .seqr core n } : State).seqStops t = false ∨ t.seqr.midway = true)
    (hentry : t.seqr.entry = true → ({ s0 with actor := .seqr core n } : State).checkTarget t.ctx t.seqr.spc = none)
    (hs : s = if t.seqr.entry then ({ s0 with actor := .seqr core n } : State).modSeqr tk (fun q => { q with entry := false })
      else { s0 with actor := .seqr core n })
    (hl : s.fetchLine t.ctx (t.seqr.spc.toNat / 64 * 64) = .ok (ws, pa)) (hd : lineDefect ws true = none)
    (hk : slotFrom ws (t.seqr.spc.toNat % 64) = some k) (hop : 0x380 ≤ (ws.getD (3 * k) 0).toNat % 1024)
    (hi : decodeSlot (slotBits ws k) = .ok i) :
    s0.seqTurn core n = .run i ((s.modSeqr tk fun q => { q with spc := BitVec.ofNat 64 (t.seqr.spc.toNat / 64 * 64 + k) }).seqWalk tk t
      (t.seqr.spc.toNat / 64 * 64)) := by
  have hgo : (t.seqr.halt || ({ s0 with actor := .seqr core n } : State).seqIdle t ||
      (({ s0 with actor := .seqr core n } : State).seqStops t && !t.seqr.midway)) = false := by
    rcases hstops with h | h <;> simp [hhalt, hidle, h]
  have hjudged : (if t.seqr.entry then ({ s0 with actor := .seqr core n } : State).checkTarget t.ctx t.seqr.spc else none) = none := by
    split
    next h => exact hentry h
    next => rfl
  unfold State.seqTurn
  simp only [hteam, hgo, hjudged, ← hs, hl, hk, hd, hi, Bool.false_eq_true, if_false, if_neg (Nat.not_lt.mpr hop)]

/-- A Dyzil engine's turn within its budget: the queue has not waited, or its wait is satisfied and it is the queue's turn (R345). -/
theorem State.dyzilTurn_run {s0 s : State} {q : Nat} {x x' : Queue} {i : Instr} (hx : s0.queue q = some x)
    (hgo : x.onEngine = true ∨ x.satisfied = true ∧ ({ s0 with actor := .dyzil q } : State).nextQueue = some q)
    (hs : s = if x.satisfied then { s0 with actor := .dyzil q, lastQueue := q } else { s0 with actor := .dyzil q })
    (hx' : x' = if x.wait = .resume then { x with wait := .none } else x) (hsteps : x.steps < 256)
    (hi : decodeDyzil (x.prog.getD x.pc 0).toNat = some i) : s0.dyzilTurn q = .run i (s.putQueue q x') := by
  have hmay : (x.onEngine || (x.satisfied && ({ s0 with actor := .dyzil q } : State).nextQueue == some q)) = true := by
    rcases hgo with h | ⟨h, h'⟩
    · simp [h]
    · simp [h, h']
  have hsame : x'.steps = x.steps ∧ x'.prog = x.prog ∧ x'.pc = x.pc := by
    rw [hx']
    split <;> exact ⟨rfl, rfl, rfl⟩
  obtain ⟨hst, hprog, hpc⟩ := hsame
  have hqueue : ({ s0 with actor := .dyzil q } : State).queue q = some x := hx
  have hbudget : ¬(x'.steps = 256 ∧ x'.wait = .none) := fun h => absurd hsteps (by omega)
  unfold State.dyzilTurn
  simp only [hqueue, hmay, ← hs, ← hx', hprog, hpc, hi, if_neg hbudget, Bool.not_true, Bool.false_eq_true, if_false]

/-- A step whose turn comes to an instruction is what exec makes of it; time passes when it goes on. -/
theorem step_run {s u v : State} {a : Act} {i : Instr} (ha : s.nextAct = (some a, u)) (ht : u.takeTurn a = .run i v) :
    (∀ t, exec i v = .next t → step s = .next t.finish) ∧ (∀ r, exec i v = .fault r → step s = .fault r) ∧
      (∀ r, exec i v = .refused r → step s = .refused r) := by
  unfold step
  simp only [ha, ht]
  exact ⟨fun t e => by rw [e], fun r e => by rw [e], fun r e => by rw [e]⟩

/-- Settles O59: a step is its agent's turn and exec of what that fetched; the turns of a port, a sequencer and a Dyzil engine are followed to the
instruction that their line or program decodes to. -/
theorem stepRunsWhatIsDecoded : Obligations.StepRunsWhatIsDecoded := by
  refine ⟨fun s u a i v ha ht => step_run ha ht, ?_, ?_, ?_, ?_, fun _ _ => rfl⟩
  · intro s0 core p r f fs ws pa k i s hg hl hd hk hk64 hi hc
    have h := State.portGo_run (State.group_port (s := s) rfl hg) (State.portTurn_run hg (State.fetchAt_run hl hd hk hi hc))
    simp only [lineOf_slot hk64] at h
    exact h
  · intro s0 core n tk t ws pa k i s1 hteam hhalt hidle hstops hentry s hl hd hk hop hi
    exact State.seqTurn_run hteam hhalt hidle hstops hentry rfl hl hd hk hop hi
  · intro s q x i hx hpkt hwait hsteps hi
    have hsat : x.satisfied = false := by simp [Queue.satisfied, hwait]
    exact State.dyzilTurn_run hx (.inl (by simp [Queue.onEngine, hpkt, hwait])) (by rw [hsat]; rfl) (by rw [hwait]; rfl) hsteps hi
  · intro s q x i hx hsat hnext hsteps hi
    exact State.dyzilTurn_run hx (.inr ⟨hsat, hnext⟩) (by rw [hsat]; rfl) rfl hsteps hi

end Sys2Proof.Machine
end


section
namespace Sys2Proof.Machine

/-! ## Frames, effects and continuations -/

/-! ### What frames and tables hold after a write -/

@[simp] theorem Frame.reg_setReg (fr : Frame) (n m : Nat) (x : Word) : (fr.setReg n x).reg m = if n = m then x else fr.reg m := by
  unfold Frame.reg Frame.setReg
  rw [Tab.get_set]
  split <;> rfl

/-- A table that lists a value for every number below n. -/
theorem Tab.get_map_range {α : Type} (g : Nat → α) {n i : Nat} (h : i < n) : Tab.get ((List.range n).map fun i => (i, g i)) i = some (g i) := by
  have hfrom : ∀ m l, l ≤ i → i < l + m → Tab.get ((List.range' l m).map fun i => (i, g i)) i = some (g i) := by
    intro m
    induction m with
    | zero => intro l h1 h2; omega
    | succ m ih =>
      intro l h1 h2
      rw [List.range'_succ, List.map_cons, Tab.get]
      split
      next e => rw [e]
      next e => exact ih (l + 1) (by omega) (by omega)
  rw [List.range_eq_range']
  exact hfrom n 0 (Nat.zero_le i) (by omega)

@[simp] theorem State.fibre_putHeap (s : State) (ctx k : Nat) (h : Heap) : (s.putHeap ctx h).fibre k = s.fibre k := by
  unfold State.putHeap; split <;> rfl

theorem State.heap_putHeap {s : State} {ctx : Nat} (h : Heap) (hc : (s.ctx ctx).isSome = true) : (s.putHeap ctx h).heap ctx = h := by
  obtain ⟨c, hc⟩ := Option.isSome_iff_exists.mp hc
  simp [State.putHeap, State.heap, hc]

theorem Heap.block_putBlock (h : Heap) (a : Nat) (b : Block) : (h.putBlock a b).block a = b := by
  simp [Heap.putBlock, Heap.block]

/-! ### Accesses to the frame heap (R77, R81) -/

/-- What accesses of fibre k to its blocks leave of s: that fibre with its stamp raised, every other fibre, the contexts, the memories, and the
number of effects. -/
structure State.Accessed (k : Nat) (s t : State) : Prop where
  own : ∀ f, s.fibre k = some f → ∃ ts, f.stamp ≤ ts ∧ t.fibre k = some { f with stamp := ts }
  others : ∀ j, j ≠ k → t.fibre j = s.fibre j
  ctxs : t.ctxs = s.ctxs
  dev : t.dev = s.dev
  host : t.host = s.host
  sram : t.sram = s.sram
  frag : t.frag = s.frag

/-- A change that leaves fibres, contexts, memories and the number of effects alone. -/
theorem State.Accessed.of_same {k : Nat} {s t : State} (hf : t.fibres = s.fibres) (hc : t.ctxs = s.ctxs) (hd : t.dev = s.dev)
    (hh : t.host = s.host) (hs : t.sram = s.sram) (hg : t.frag = s.frag) : State.Accessed k s t :=
  have hfib : t.fibre = s.fibre := by funext j; unfold State.fibre; rw [hf]
  ⟨fun f h => ⟨f.stamp, le_rfl, by rw [hfib, h]⟩, fun j _ => by rw [hfib], hc, hd, hh, hs, hg⟩

theorem State.Accessed.trans {k : Nat} {s t u : State} (h1 : State.Accessed k s t) (h2 : State.Accessed k t u) : State.Accessed k s u where
  own f hf := by
    obtain ⟨a, ha, hta⟩ := h1.own f hf
    obtain ⟨b, hb, hub⟩ := h2.own _ hta
    exact ⟨b, ha.trans hb, hub⟩
  others j hj := (h2.others j hj).trans (h1.others j hj)
  ctxs := h2.ctxs.trans h1.ctxs
  dev := h2.dev.trans h1.dev
  host := h2.host.trans h1.host
  sram := h2.sram.trans h1.sram
  frag := h2.frag.trans h1.frag

theorem State.accessed_heapWrote (k : Nat) (s : State) (ctx va n : Nat) : State.Accessed k s (s.heapWrote ctx va n) := by
  unfold State.heapWrote
  split
  · exact .of_same rfl rfl rfl rfl rfl rfl
  · dsimp only
    split
    · exact .of_same rfl rfl rfl rfl rfl rfl
    · exact .of_same rfl rfl rfl rfl rfl rfl

/-- An access is placed no earlier than its agent's stamp; fibres stand. -/
theorem State.placeAt_spec (s : State) (ctx va ts : Nat) (wr : Bool) : ts ≤ (s.placeAt ctx va ts wr).1 ∧
    ∃ l, (s.placeAt ctx va ts wr).2 = { s with lines := l } := by
  unfold State.placeAt
  split
  · exact ⟨le_rfl, _, rfl⟩
  · refine ⟨?_, _, rfl⟩
    dsimp only
    split
    · exact le_max_left _ _
    · exact le_max_left _ _

/-- One access raises the fibre's stamp (R140). -/
theorem State.heapAccess_own {s : State} {k : Nat} {f : Fibre} (va : Nat) (wr : Bool) (hf : s.fibre k = some f) (hk : f.key = k) :
    State.Accessed k s (s.heapAccess k va wr) ∧ ∃ ts, f.stamp < ts ∧ (s.heapAccess k va wr).fibre k = some { f with stamp := ts } := by
  obtain ⟨hle, l, hl⟩ := s.placeAt_spec f.ctx va f.stamp wr
  obtain ⟨t, ht⟩ : ∃ t, t = (s.placeAt f.ctx va f.stamp wr).1 := ⟨_, rfl⟩
  have hacc : s.heapAccess k va wr = { ({ s with lines := l } : State).putFibre { f with stamp := s.pip t } with accesses := s.accesses + 1 } := by
    unfold State.heapAccess State.modFibre
    simp only [hf, hl, ← ht]
    rw [show ({ s with lines := l } : State).fibre k = some f from hf]
    rfl
  have hget (j : Nat) : (s.heapAccess k va wr).fibre j = if k = j then some { f with stamp := s.pip t } else s.fibre j := by
    rw [hacc, ← hk]
    exact State.fibre_putFibre _ _ _
  have hlt : f.stamp < s.pip t := by
    have : f.stamp ≤ t := ht ▸ hle
    unfold State.pip
    omega
  refine ⟨⟨fun f' hf' => ?_, fun j hj => ?_, ?_, ?_, ?_, ?_, ?_⟩, _, hlt, (hget k).trans (if_pos rfl)⟩
  · obtain rfl : f = f' := Option.some.inj (hf.symm.trans hf')
    exact ⟨_, hlt.le, (hget k).trans (if_pos rfl)⟩
  · rw [hget, if_neg (Ne.symm hj)]
  all_goals rw [hacc]; rfl

/-! ### The delivery of an effect (R76 to R79) -/

/-- The state in which a delivery's search begins: the fault found at issue is forgotten, counter 4 raised (R307). -/
def State.performing (s : State) (f : Fibre) : State := (s.putFibre { f with found := none }).bump f.ctx f.core 4 1
/-- That state once block a of the capture has been written (R77). -/
def State.captureAt (s : State) (f : Fibre) (r : EffRec) (k a : Nat) : State :=
  let u := (((s.performing f).newSeed.2.heapAccess k a true).heapAccess k (a + 128) true).heapWrote f.ctx a 128
  if r.psaved then u.heapWrote f.ctx (a + 128) 64 else u
/-- The continuation block that the frames above frame j are captured in (R78, R80). -/
def Fibre.capture (f : Fibre) (r : EffRec) (pc : DWord) (j device seed : Nat) (gen : BitVec 7) : Block :=
  let segs := f.segs.takeWhile fun g => !g.holds (f.chain.getD j Frame.none).addr
  { state := 0, gen := gen, nsegs := segs.length, ctxid := f.ctx, homecore := f.core, homedev := device, top := f.top.addr,
    bottom := ((f.chain.take j).getLastD Frame.none).addr, resumepc := pc, eff := r, prons := if r.psaved then f.savedProns seed else [],
    segs := segs, frames := f.chain.take j, launch := f.launch, check := 0, patch := [], marked := false }
/-- The fibre as it enters its handler, frame j (R76). -/
def Fibre.entersHandler (f : Fibre) (r : EffRec) (j cycle : Nat) (hd : DWord) : Fibre :=
  let hf := f.chain.getD j Frame.none
  { f with
    found := none, chain := hf.delivered hd r.tag r.arg :: f.chain.drop (j + 1),
    segs := f.segs.drop (f.segs.takeWhile fun g => !g.holds hf.addr).length, pc := hf.handlerPc, prons := [], conds := [], awaits := [],
    since := cycle, stamp := r.stamp }
/-- CONT of a future's cell names the continuation that holds its entry frame (R90). -/
def State.noteCont (s : State) (f : Fibre) (j : Nat) (hd : DWord) : State :=
  if f.isFuture && (f.chain.take j).any Frame.entry then (match cellOfFid f.fid with
    | some i => s.modCell f.ctx i fun c => { c with cont := hd }
    | none => s) else s

theorem State.performing_like (s : State) (f : Fibre) : FetchAlike s (s.performing f) := ⟨rfl, rfl, rfl, rfl, rfl, rfl, rfl, fun _ _ => rfl⟩

section
variable {s : State} {k j a : Nat} {r : EffRec} {pc : DWord} {word : Word} {f : Fibre} {h : Heap}

/-- The capture's stores raise the fibre's stamp, and leave the rest. -/
theorem State.accessed_captureAt (r : EffRec) (a : Nat) (hk : f.key = k) : State.Accessed k (s.performing f) (s.captureAt f r k a) ∧
    ∃ ts, f.stamp < ts ∧ (s.captureAt f r k a).fibre k = some { f with found := none, stamp := ts } := by
  obtain ⟨s1, hs1⟩ : ∃ s1, s1 = (s.performing f).newSeed.2 := ⟨_, rfl⟩
  have h1 : State.Accessed k (s.performing f) s1 := by rw [hs1]; exact .of_same rfl rfl rfl rfl rfl rfl
  have hf1 : s1.fibre k = some { f with found := none } := by
    rw [hs1]
    exact (State.fibre_putFibre _ _ _).trans (if_pos hk)
  obtain ⟨h2, t2, hlt, hf2⟩ := State.heapAccess_own a true hf1 hk
  obtain ⟨h3, t3, hlt', hf3⟩ := State.heapAccess_own (a + 128) true hf2 hk
  have h4 : State.Accessed k ((s1.heapAccess k a true).heapAccess k (a + 128) true) (s.captureAt f r k a) := by
    unfold State.captureAt
    dsimp only
    rw [← hs1]
    split
    · exact (State.accessed_heapWrote k _ _ _ _).trans (State.accessed_heapWrote k _ _ _ _)
    · exact State.accessed_heapWrote k _ _ _ _
  obtain ⟨t4, hle, hf4⟩ := h4.own _ hf3
  exact ⟨((h1.trans h2).trans h3).trans h4, t4, lt_of_lt_of_le (lt_trans hlt hlt') hle, hf4⟩

/-- THE LAW of a delivery that finds its handler and a block to write: the capture's stores, the block, the future's cell, the fibre at its handler. -/
theorem State.deliver_handled {ts : Nat} (hf : s.fibre k = some f) (hj : f.handlerFor r.tag = some j)
    (hb : (s.heap f.ctx).takeBlock (s.cdesc f.ctx) = some (a, h)) (ha : s.heapFault f.ctx a = none)
    (hts : (s.captureAt f r k a).fibre k = some { f with found := none, stamp := ts }) :
    s.deliver k r pc word =
      let u := s.captureAt f r k a
      let e : EffRec := { r with stamp := ts }
      let hd := handleOf a (h.block a).gen
      let t := (u.putHeap f.ctx (h.putBlock a ((f.capture e pc j u.device s.seeds (h.block a).gen).sealed a))).noteCont f j hd
      t.putFibre ((f.entersHandler e j t.cycle hd).stampAge t.age) := by
  have hj' : ({ f with found := none } : Fibre).handlerFor r.tag = some j := hj
  have hb' : ((s.performing f).heap f.ctx).takeBlock ((s.performing f).cdesc f.ctx) = some (a, h) := hb
  have ha' := ((s.performing_like f).heapFault f.ctx a).trans ha
  unfold State.deliver
  unfold State.performing at hb' ha'
  unfold State.captureAt State.performing at hts
  simp only [hf, hj', hb', ha']
  simp only [State.newSeed] at hts ⊢
  rw [hts]
  rfl

end

/-- Writing a context's heap changes the table of contexts alone. -/
theorem State.putHeap_eq (s : State) (ctx : Nat) (h : Heap) : ∃ l, s.putHeap ctx h = { s with ctxs := l } := by
  unfold State.putHeap
  split
  · exact ⟨_, rfl⟩
  · exact ⟨_, rfl⟩

/-- A cell written leaves the continuation blocks. -/
theorem State.block_modCell (s : State) (ctx i : Nat) (g : Cell → Cell) (a : Nat) :
    ((s.modCell ctx i g).heap ctx).block a = (s.heap ctx).block a := by
  unfold State.modCell
  cases hc : s.ctx ctx with
  | none => simp [State.putHeap, hc]
  | some c => rw [State.heap_putHeap _ (by rw [hc]; rfl)]; rfl

theorem State.noteCont_spec (s : State) (f : Fibre) (j : Nat) (hd : DWord) :
    (∃ l, s.noteCont f j hd = { s with ctxs := l }) ∧ ∀ a, ((s.noteCont f j hd).heap f.ctx).block a = (s.heap f.ctx).block a := by
  unfold State.noteCont
  split
  · split
    · exact ⟨s.putHeap_eq _ _, fun a => s.block_modCell _ _ _ a⟩
    · exact ⟨⟨_, rfl⟩, fun _ => rfl⟩
  · exact ⟨⟨_, rfl⟩, fun _ => rfl⟩

/-- What is written once the capture's stores are made: the block, the cell, the fibre. -/
theorem State.captured_spec {u : State} {f f' : Fibre} {j : Nat} {hd : DWord} {h : Heap} {a : Nat} {b : Block} (hc : (u.ctx f.ctx).isSome = true) :
    let t := ((u.putHeap f.ctx (h.putBlock a b)).noteCont f j hd).putFibre f'
    (t.heap f.ctx).block a = b ∧ (∀ i, t.fibre i = if f'.key = i then some f' else u.fibre i) ∧
      t.dev = u.dev ∧ t.host = u.host ∧ t.sram = u.sram ∧ t.frag = u.frag := by
  obtain ⟨l, hl⟩ := u.putHeap_eq f.ctx (h.putBlock a b)
  obtain ⟨⟨m, hm⟩, hblock⟩ := (u.putHeap f.ctx (h.putBlock a b)).noteCont_spec f j hd
  refine ⟨?_, fun i => ?_, ?_⟩
  · exact (hblock a).trans (by rw [State.heap_putHeap _ hc, Heap.block_putBlock])
  · rw [State.fibre_putFibre, hm, hl]
    rfl
  · rw [hm, hl]
    exact ⟨rfl, rfl, rfl, rfl⟩

/-- What a delivery to handler frame j leaves: block a holds the capture, the fibre stands at its handler with the block's stamp, and the other fibres, the
memories and the number of effects are as they were. -/
theorem State.deliver_spec {s : State} {k j a : Nat} {r : EffRec} {pc : DWord} {word : Word} {f : Fibre} {h : Heap} (hf : s.fibre k = some f)
    (hk : f.key = k) (hctx : (s.ctx f.ctx).isSome = true) (hj : f.handlerFor r.tag = some j)
    (hb : (s.heap f.ctx).takeBlock (s.cdesc f.ctx) = some (a, h)) (ha : s.heapFault f.ctx a = none) :
    ∃ ts device seed cycle age, f.stamp < ts ∧
      let t := s.deliver k r pc word
      let e : EffRec := { r with stamp := ts }
      (t.heap f.ctx).block a = (f.capture e pc j device seed (h.block a).gen).sealed a ∧
      (∀ i, t.fibre i = if k = i then some ((f.entersHandler e j cycle (handleOf a (h.block a).gen)).stampAge age) else s.fibre i) ∧
      t.dev = s.dev ∧ t.host = s.host ∧ t.sram = s.sram ∧ t.frag = s.frag := by
  obtain ⟨hacc, ts, hlt, hts⟩ := State.accessed_captureAt (s := s) r a hk
  have hhere : ((s.captureAt f r k a).ctx f.ctx).isSome = true := by
    unfold State.ctx
    rw [hacc.ctxs]
    exact hctx
  obtain ⟨t, ht⟩ : ∃ t, t = ((s.captureAt f r k a).putHeap f.ctx (h.putBlock a ((f.capture { r with stamp := ts } pc j
    (s.captureAt f r k a).device s.seeds (h.block a).gen).sealed a))).noteCont f j (handleOf a (h.block a).gen) := ⟨_, rfl⟩
  refine ⟨ts, (s.captureAt f r k a).device, s.seeds, t.cycle, t.age, hlt, ?_⟩
  rw [State.deliver_handled hf hj hb ha hts, ht]
  obtain ⟨hblock, hfibre, hdev, hhost, hsram, hfrag⟩ := State.captured_spec (u := s.captureAt f r k a) hhere
  refine ⟨hblock, fun i => (hfibre i).trans ?_, hdev.trans hacc.dev, hhost.trans hacc.host, hsram.trans hacc.sram, hfrag.trans hacc.frag⟩
  subst hk
  show (if f.key = i then _ else _) = _
  split
  next => rfl
  next hi => exact (hacc.others i (Ne.symm hi)).trans ((State.fibre_putFibre _ _ _).trans (if_neg hi))

/-! ### Handlers and their frames (R75, R76) -/

/-- The handler taken is the nearest below the top frame that matches (R76). -/
theorem Fibre.handlerFor_spec {f : Fibre} {tag : BitVec 16} {j : Nat} {hf : Frame} (h : f.handlerFor tag = some j) (hj : f.chain[j]? = some hf) :
    1 ≤ j ∧ hf.handler = true ∧ tag &&& hf.hmask = hf.htag ∧
      ∀ i fr, 1 ≤ i → i < j → f.chain[i]? = some fr → ¬(fr.handler = true ∧ tag &&& fr.hmask = fr.htag) := by
  obtain ⟨n, hn, rfl⟩ := Option.map_eq_some_iff.mp h
  obtain ⟨hlen, hmatch, hnone⟩ := List.findIdx?_eq_some_iff_getElem.mp hn
  have hbelow {i : Nat} {fr : Frame} (hi : i < (f.chain.drop 1).length) (hfr : f.chain[i + 1]? = some fr) : (f.chain.drop 1)[i] = fr := by
    rw [← Option.some_inj, ← hfr, ← List.getElem?_eq_getElem, List.getElem?_drop, Nat.add_comm]
  rw [hbelow hlen hj, Bool.and_eq_true, beq_iff_eq] at hmatch
  refine ⟨Nat.le_add_left 1 n, hmatch.1, hmatch.2, fun i fr hi hin hfr hm => ?_⟩
  obtain ⟨m, rfl⟩ : ∃ m, i = m + 1 := ⟨i - 1, by omega⟩
  refine hnone m (by omega) ?_
  rw [hbelow (by omega) hfr, Bool.and_eq_true, beq_iff_eq]
  exact hm

/-- The four delivery registers hold handle, tag and argument, full; every other register stands (R76). -/
theorem Frame.delivered_spec (fr : Frame) (hd : DWord) (tag : BitVec 16) (arg : Word) :
    let fr' := fr.delivered hd tag arg
    let n := fr.hbase.toNat
    fr'.reg n = loWord hd ∧ fr'.reg (n + 1) = hiWord hd ∧ fr'.reg (n + 2) = tag.setWidth 32 ∧ fr'.reg (n + 3) = arg ∧
      (∀ i < 4, fr'.full (n + i) = true) ∧ ∀ m, m < n ∨ n + 3 < m → fr'.reg m = fr.reg m ∧ fr'.full m = fr.full m := by
  dsimp only [Frame.delivered]
  refine ⟨by simp, by simp, by simp, by simp, fun i hi => ?_, fun m hm => ?_⟩
  · simp only [Frame.full_setReg, Bool.or_eq_true, decide_eq_true_eq]
    omega
  · obtain ⟨h0, h1, h2, h3⟩ : m ≠ fr.hbase.toNat ∧ m ≠ fr.hbase.toNat + 1 ∧ m ≠ fr.hbase.toNat + 2 ∧ m ≠ fr.hbase.toNat + 3 := by omega
    simp [h0, h1, h2, h3, h0.symm, h1.symm, h2.symm, h3.symm]

/-- A fault saves every pronoun that holds a value (R424). -/
theorem Fibre.get_savedProns (f : Fibre) (seed : Nat) {i : Nat} {v : Word} (hi : i < 16) (hv : Tab.get f.prons i = some v) :
    Tab.get (f.savedProns seed) i = some v := by
  unfold Fibre.savedProns
  rw [Tab.get_map_range _ hi, hv]
  rfl

/-! ### Effects reach their handlers (O53) -/

section
variable {s : State} {k j a : Nat} {r : EffRec} {pc : DWord} {f : Fibre} {h : Heap}

/-- An effect with no handler is recorded, and its fibre ends (R427). -/
theorem State.deliver_unhandled (hf : s.fibre k = some f) (hk : f.key = k) (hn : f.handlerFor r.tag = none) :
    s.deliver k r pc = ((s.performing f).noteUnhandled f.ctx r).exitFibre k r.tag := by
  have hn' : ({ f with found := none } : Fibre).handlerFor r.tag = none := hn
  subst hk
  unfold State.deliver
  simp only [hf, hn']
  rfl

/-- The fault summary counts an unhandled effect and keeps the first record and the last (R427, R428). -/
theorem State.summary_noteUnhandled {ctx : Nat} {c : Ctx} (hc : s.ctx ctx = some c) :
    ((s.noteUnhandled ctx r).key c.d.kslot).summary =
      let was := (s.key c.d.kslot).summary
      { was with ucount := was.ucount + 1, first := some (was.first.getD r), last := some r } := by
  unfold State.noteUnhandled State.modSummary
  simp only [hc]
  split
  · exact congrArg KeySlot.summary ((State.key_putKey _ _ _ _).trans (if_pos rfl))
  · rw [State.key_putKey, if_pos rfl]
end

/-- Settles O53: the delivery is the capture's stores, the block, the cell and the fibre at its handler; each part is read off that law. -/
theorem effectsReachTheirHandlers : Obligations.EffectsReachTheirHandlers := by
  intro s k r pc f hf hk hctx
  refine ⟨fun j hf0 a h hj hjf hb ha => ?_, fun hn => State.deliver_unhandled hf hk hn, fun ctx c hc => ?_⟩
  · obtain ⟨hle, hhandler, hmatch, hnearest⟩ := Fibre.handlerFor_spec hj hjf
    refine ⟨hle, hhandler, hmatch, hnearest, ?_⟩
    have hframe : f.chain.getD j Frame.none = hf0 := by rw [List.getD_eq_getElem?_getD, hjf]; rfl
    obtain ⟨ts, device, seed, cycle, age, hlt, hblock, hfibre, hmem⟩ := State.deliver_spec hf hk hctx hj hb ha (pc := pc) (word := r.arg)
    obtain ⟨hlo, hhi, htag, harg, hfull, hothers⟩ := hf0.delivered_spec (handleOf a (h.block a).gen) r.tag r.arg
    refine ⟨_, _, (hfibre k).trans (if_pos rfl), congrArg (fun x : Frame => x.delivered _ r.tag r.arg :: f.chain.drop (j + 1)) hframe, hlo, hhi,
      htag, harg, hfull, hothers, congrArg Frame.handlerPc hframe, rfl, rfl, rfl, ?_⟩
    rw [hblock]
    refine ⟨rfl, rfl, rfl, rfl, hlt, rfl, rfl, rfl, rfl, fun hp i hi v hv => ?_, fun i hi => (hfibre i).trans (if_neg hi.symm), hmem⟩
    show Tab.get (if r.psaved then f.savedProns seed else []) i = some v
    rw [hp]
    exact f.get_savedProns seed hi hv
  · dsimp only
    rw [State.summary_noteUnhandled hc]
    exact ⟨rfl, rfl, rfl, rfl, rfl⟩

/-! ### Continuations resumed (O54) -/

/-- The bottom frame of a resumed chain returns to the resumer, and bears the mark that its return ends the delimiter (R75, R82). -/
theorem setBottomRet_concat (retpc : DWord) (l : List Frame) (x : Frame) :
    setBottomRet retpc (l ++ [x]) = l ++ [{ x with retpc := retpc, bottom := true }] := by
  induction l with
  | nil => rfl
  | cons y r ih =>
    cases r with
    | nil => rfl
    | cons z r => exact congrArg (y :: ·) ih

/-- The chain of a fibre that resumes the continuation of a fault: the captured frames, the bottom one bound, above its own. -/
theorem State.rejoin_chain {s : State} {k a : Nat} {v : Word} {retpc : DWord} {vd : Option Nat} {f : Fibre} (hf : s.fibre k = some f)
    (hk : f.key = k) (hb : ((s.heap f.ctx).block a).eff.fault = true) :
    ∃ f' base, (s.rejoin k a v retpc vd).fibre k = some f' ∧
      f'.chain = setBottomRet retpc ((s.heap f.ctx).block a).frames ++ base :: f.chain.drop 1 := by
  unfold State.rejoin
  simp only [hf, hb, if_true, State.fibre_putHeap]
  exact ⟨_, _, (State.fibre_putFibre _ _ _).trans (if_pos hk), rfl⟩

/-- A heap with the LIVE continuation of a fault at 0, of one frame that no RESUME has bound yet. -/
def heapWithFault : Heap := { Heap.empty with
  blocks := [(0, { Block.consumed 0 with state := 0, frames := [Frame.none], eff := { EffRec.none with fault := true } })] }
/-- A fibre of one frame in a context with that heap. -/
def besideFault : State := { State.reset with
  fibres := [(1, Fibre.make 1 0 false 0 0 0 0 0 [Frame.none] [] 0 0 0 0)]
  ctxs := [(0, { d := CtxDesc.zero, heap := heapWithFault, migr := [], nextLaunch := 0, order := [], placedCores := [], lost := false,
                 areaWritten := false })] }

/-- Refutes O54: it has the bottom captured frame back with nothing but its RETPC changed, while a resume also marks it as the one whose return ends
the delimiter (`Frame.bottom`); a frame captured for the first time, as here, does not bear that mark. -/
theorem not_resumesRestore : ¬ Obligations.ResumesRestore := by
  intro h
  obtain ⟨f', hf', -, -, -, -, -, -, hbottom, -⟩ := h besideFault 1 0 0 0 none _ _ rfl rfl rfl le_rfl rfl rfl
  obtain ⟨g, base, hg, hchain⟩ := State.rejoin_chain (s := besideFault) (k := 1) (a := 0) (v := 0) (retpc := 0) (vd := none) rfl rfl rfl
  obtain rfl : f' = g := Option.some.inj (hf'.symm.trans hg)
  have hmarked : f'.chain[0]? = some { Frame.none with retpc := 0, bottom := true } := by
    rw [hchain]
    exact congrArg (fun l => (l ++ _)[0]?) (setBottomRet_concat 0 [] Frame.none)
  have hplain : f'.chain[0]? = some { Frame.none with retpc := 0 } := hbottom Frame.none rfl
  exact absurd (hmarked.symm.trans hplain) (by decide)

/-! ### PERFORM (O24) -/

/-- A suppressed destination leaves the lane's context and program counter. -/
theorem zeroOf_same (op : Nat) (o : GOp) (f : Fibre) : (zeroOf op o f).ctx = f.ctx ∧ (zeroOf op o f).pc = f.pc := by
  unfold zeroOf
  split
  · unfold Fibre.zeroDst
    cases o.dst with
    | v n => dsimp only; split <;> exact ⟨rfl, rfl⟩
    | p n => exact ⟨rfl, rfl⟩
    | q n => exact ⟨rfl, rfl⟩
    | none => exact ⟨rfl, rfl⟩
  · exact ⟨rfl, rfl⟩

/-- A lane goes on at its next slot, whether or not its destination is suppressed. -/
theorem State.onward_zero {s : State} {op : Nat} {o : GOp} {r : GRow} (hr : gRow op = some r) (f : Fibre) :
    s.onward (if (f.helper && f.guard o.guard) = true then f.zeroDst o r else f) =
      (if (f.helper && f.guard o.guard) = true then zeroOf op o f else f).goesTo (s.nextSlot f.ctx f.pc) := by
  obtain ⟨hctx, hpc⟩ := zeroOf_same op o f
  rw [← zeroOf_row hr]
  unfold State.onward Fibre.goesTo
  split
  · rw [hctx, hpc]
  · rfl

/-- Helper lanes hold nothing back at an instruction whose row is r. -/
theorem Group.helpersFree_row {g : Group} {op : Nat} {o : GOp} {r : GRow} (hr : gRow op = some r) (h : g.helpersFree op o = true) :
    g.fs.any (helperHolds o.guard fun f => f.zeroDst o r) = false := by
  have hzero : (fun f => f.zeroDst o r) = zeroOf op o := funext fun f => (zeroOf_row hr f).symm
  rw [hzero, List.any_eq_false]
  intro f hf
  have := List.all_eq_true.mp h f hf
  simpa using this

theorem Group.mem_acting {g : Group} {guard : Guard} {f : Fibre} (hf : f ∈ g.fs) (ha : (f.guard guard && !f.helper) = true) : f ∈ g.acting guard :=
  List.mem_filter.mpr ⟨hf, ha⟩

/-- PERFORM in a group in which nothing is late: the lanes go on at the next slot, and the effects of the acting lanes are delivered in their order. -/
theorem exec_perform {o : GOp} {s : State} {g : Group} (hg : s.group = some g) (hlate : ∀ f ∈ g.fs, f.late = none ∧ f.refs = [])
    (hfree : g.helpersFree 0x20B o = true)
    (h : ∀ f ∈ g.acting o.guard, s.clearLane 0x20B o f = true ∧ s.noFill f.key = true ∧ s.nextNeeds f = none ∧ s.dueReclaim f = false) :
    let t := (g.acting o.guard).foldl (fun t f => t.deliver f.key
        (t.record f (BitVec.ofNat 16 (o.c.num + 2048 * (o.mod.toNat % 32))) (s.src f .int o.imm o.a) f.pc (laneMask g.fs)
          (laneMask (g.acting o.guard)) 0) (s.nextSlot f.ctx f.pc) g.run.word)
      (s.putFibres (g.fs.map fun f => (if f.helper && f.guard o.guard then zeroOf 0x20B o f else f).goesTo (s.nextSlot f.ctx f.pc)))
    exec (.perform o) s = .next (({ t with frag := t.frag + 1 } : State).endSentence g []) := by
  obtain ⟨r, hr⟩ : ∃ r, gRow 0x20B = some r := ⟨_, rfl⟩
  have hon := List.map_congr_left (l := g.fs) fun f _ => State.onward_zero (s := s) (o := o) hr f
  have hfills : (g.acting o.guard).any (fun f => !s.noFill f.key) = false := List.any_eq_false.mpr fun f hf => by
    obtain ⟨-, hn, -⟩ := h f hf
    simp [hn]
  have hgone : (g.acting o.guard).filter s.dueReclaim = [] := List.filter_eq_nil_iff.mpr fun f hf => by
    obtain ⟨-, -, -, hd⟩ := h f hf
    simp [hd]
  have hstay : (g.acting o.guard).filter (fun f => !s.dueReclaim f) = g.acting o.guard := List.filter_eq_self.mpr fun f hf => by
    obtain ⟨-, -, -, hd⟩ := h f hf
    simp [hd]
  have htag : 2048 * (o.mod.toNat % 32) = 2 ^ 11 * modBits o.mod 0 5 := by simp [modBits]
  rw [htag]
  show execPerform o s = _
  unfold execPerform
  rw [hg, hr]
  dsimp only
  rw [State.withLate_none _ hlate, map_ok (res := id) fun f hf => ?_, if_neg noFault_map, State.holdIf_ok]
  rotate_left
  · rw [laneStep_go (x := f) (fun ha => State.clearLane_go (h f (Group.mem_acting hf ha)).1 hr) fun ha => ?_, ite_self]
    · rfl
    · obtain ⟨-, -, hn, -⟩ := h f (Group.mem_acting hf ha)
      rw [hn]
  dsimp only
  rw [Group.helpersFree_row hr hfree, hon, if_neg Bool.false_ne_true]
  unfold Group.acting at hfills hgone hstay ⊢
  rw [hfills, if_neg Bool.false_ne_true, hgone, hstay]
  rfl

/-- Settles O24: PERFORM finds nothing at issue, no lane to be reclaimed and no fill on its way, and delivers. -/
theorem performCompletes : Obligations.PerformCompletes :=
  fun _ _ _ hg hlate hfree h => exec_perform hg hlate hfree h

/-! ### RESUME, DROP and FGET (O25) -/

/-- Settles O25: the three are effect trailers of R501; none of the three tests of RESUME's form finds a fault. -/
theorem resumeDropAndFgetComplete : Obligations.ResumeDropAndFgetComplete := by
  refine fun o => ⟨actsAndEnds_runAlone (fun _ => rfl) rfl fun s f h => ?_, actsAndEnds_runAlone (fun _ => rfl) rfl fun s f h => ?_,
    actsAndEnds_runAlone (fun _ => rfl) rfl fun s f h => ?_⟩
  · rw [Bool.and_eq_true, Bool.and_eq_true] at h
    obtain ⟨⟨hform, hnext⟩, hline⟩ := h
    rw [Option.isNone_iff_eq_none] at hform hnext hline
    rw [hform, hnext, hline]
    rfl
  · exact Option.isNone_iff_eq_none.mp h
  · exact Option.isNone_iff_eq_none.mp h

/-! ### References, FCANCEL and CSTAT (O27) -/

/-- A fibre that bears number k and stands at pc. -/
def Fibre.numbered (k : Nat) (pc : DWord) : Fibre := Fibre.make k 0 false 0 0 0 0 0 [] [] 0 pc 0 0
/-- A group of two fibres that bear the same number, the first kept under another one, with an access of that number not yet placed (R124). -/
def sharedNumber : State := { State.reset with
  actor := .port 0 0
  ports := [(0, PortRun.fresh 0 [1, 5])]
  fibres := [(1, Fibre.numbered 5 1), (5, Fibre.numbered 5 0)]
  fills := [{ fibre := 5, frame := 0, reg := 0, n := 1, vals := [], producer := 0, loc2 := false }] }
/-- Operand fields that name nothing, under no guard. -/
def GOp.bare : GOp := { guard := ⟨false, 0, false⟩, mod := 0, dst := .none, a := .imm, b := .imm, c := .imm, imm := 0 }
/-- The program counters of the operations that wait in fibre k of an outcome's state. -/
def Out.waitingAt (k : Nat) : Out → List DWord
  | .next t => (t.fibre k).elim [] fun f => f.refs.map RefOp.pc
  | _ => []

/-- Refutes O27, by its clause on FCANCEL: a cancel that waits has the program counter of the fibre that stands under the lane's number, where the
statement writes that of the lane in the group's list. The statement asks for no sound group (`Group.sound`), so the two may differ: here both waiting
cancels have program counter 0 in the model, and the statement gives the first of them 1. -/
theorem not_referencesCancelAndCstatComplete : ¬ Obligations.ReferencesCancelAndCstatComplete := by
  intro h
  obtain ⟨-, -, -, hcancel, -⟩ := h GOp.bare sharedNumber _ rfl
  have hsame := congrArg (Out.waitingAt 5) (hcancel (by decide +kernel))
  have hmodel : Out.waitingAt 5 (exec (.fcancel GOp.bare) sharedNumber) = [0, 0] := by decide +kernel
  exact absurd (hmodel.symm.trans hsame) (by decide +kernel)

end Sys2Proof.Machine
end

section
namespace Sys2Proof.Machine

/-! ## Futures: SPAWN and FPARK (O26)

### Memory instructions that hold their port for their data (R271, R276) -/

/-- A lane that asks no owner makes its access at its turn, when its walk succeeds and it acts well. -/
theorem MemAct.lane_made {a : MemAct} {g : Group} {acts : List MemLane} {first : Bool} {s t u : State} {m : MemLane} (hn : g.run.nth = 0)
    (hp : m.spots.any Spot.isPeer = false) (hwalk : s.laneWalks m.key 0 m.spots = (t, false)) (hdo : a.perform t acts m none = some u) :
    a.lane g acts first s m = (u, true) := by
  have hfirst : (if first = true then g.run.nth else 0) = 0 := by rw [hn, ite_self]
  unfold MemAct.lane
  simp only [hfirst, if_true, hwalk, hp, Bool.false_eq_true, if_false, hdo]

/-- Lanes that ask no owner and act well make all their accesses in ascending order; `perform` need only say what a lane that acts well leaves. -/
theorem MemAct.lanes_made {a : MemAct} {g : Group} {acts : List MemLane} {perform : State → MemLane → Option State} (hn : g.run.nth = 0)
    (hdo : ∀ s m u, perform s m = some u → a.perform s acts m none = some u) (ms : List MemLane) (hp : ∀ m ∈ ms, m.spots.any Spot.isPeer = false)
    (first : Bool) (s t : State) (done : List Nat) (h : accessesInOrder noFar perform ms false s = some t) :
    a.lanes g acts ms first s done = (t, done ++ ms.map MemLane.key, true) := by
  induction ms generalizing first s done with
  | nil =>
    obtain rfl : s = t := Option.some.inj h
    simp [MemAct.lanes]
  | cons m r ih =>
    rcases hwalk : s.laneWalks m.key 0 m.spots with ⟨u, _ | _⟩
    · cases hact : perform u m with
      | none => simp [accessesInOrder, hwalk, hact] at h
      | some v =>
        have hrest : accessesInOrder noFar perform r false v = some t := by simpa [accessesInOrder, hwalk, hact, noFar] using h
        have hlane : a.lane g acts first s m = (v, true) := MemAct.lane_made hn (hp m List.mem_cons_self) hwalk (hdo u m v hact)
        simp only [MemAct.lanes, hlane]
        rw [ih (fun x hx => hp x (List.mem_cons_of_mem _ hx)) false v _ hrest, List.map_cons, List.append_assoc, List.singleton_append]
    · simp [accessesInOrder, hwalk] at h

/-- Accesses that hold their port for their data finish at one try when every lane acts well and none asks an owner (R271). -/
theorem State.runHeld_made {s t : State} {g : Group} {a : MemAct} {acts todo : List MemLane} {fin : State → Group → List MemLane → State}
    {perform : State → MemLane → Option State} (hn : g.run.nth = 0)
    (hdo : ∀ s m u, perform s m = some u → a.perform s acts m none = some u) (hp : ∀ m ∈ todo, m.spots.any Spot.isPeer = false)
    (h : accessesInOrder noFar perform todo false s = some t) : s.runHeld g a acts todo fin = fin t g acts := by
  unfold State.runHeld
  rw [MemAct.lanes_made hn hdo todo hp true s t _ h]

/-- A memory instruction that keeps helper lanes out, at its first try: where no lane finds anything to wait for or an owner to ask, the helper
lanes' destinations are 0 and the acting lanes' accesses are made (R31, R276). -/
theorem State.memRun_reaching {s : State} {g : Group} {k : MemKind} {guard : Guard} {plan : Fibre → MemLane} (hw : g.run.wait = .none)
    (hd : g.run.done = []) (hn : g.run.nth = 0) (hplan : ∀ f ∈ g.fs, k.plan s f = reachPlan guard true plan f)
    (hfinds : ∀ f ∈ g.acting guard, k.wait s f (plan f).spots = false ∧ (plan f).spots.any Spot.isPeer = false)
    (hfree : ∀ f ∈ g.fs, helperHolds guard k.zero f = false) (hj : k.joint s ((g.acting guard).map plan) = []) :
    s.memRun g k = k.act (s.putFibres ((g.fs.filter fun f => f.helper && f.guard guard).map k.zero)) g
      ((g.acting guard).map plan) ((g.acting guard).map plan) := by
  refine State.memRun_through hw hd hn (fun f hf => ?_) ?_ ?_ hj
  · rw [hplan f hf, reachPlan]
    cases hgd : f.guard guard with
    | false => exact .inl rfl
    | true =>
      cases hh : f.helper with
      | true => exact .inr (.inl ⟨rfl, by simpa [helperHolds, hgd, hh] using hfree f hf⟩)
      | false => exact .inr (.inr ⟨plan f, rfl, hfinds f (Group.mem_acting hf (by rw [hgd, hh]; rfl))⟩)
  · refine (List.filterMap_congr fun f hf => ?_).trans ((filterMap_reaching (guard := guard) (keepsOut := true) (m := plan)).trans ?_)
    · rw [hplan f hf, reachPlan]
      cases f.guard guard <;> cases f.helper <;> rfl
    · simp only [Bool.and_true]
      rfl
  · refine (List.filterMap_congr fun f hf => ?_).trans ((filterMap_keptOut (guard := guard) (keepsOut := true) (z := k.zero)).trans ?_)
    · rw [hplan f hf, reachPlan]
      cases f.guard guard <;> cases f.helper <;> rfl
    · simp only [Bool.and_comm, Bool.true_and]

/-! ### SPAWN (R95, R501) -/

/-- With no lane at fault the sentence of SPAWN and FPARK goes on (R501). -/
@[simp] theorem State.settleActed_nil (s : State) (g : Group) (done : List Nat) : s.settleActed g done [] = s.goOn g := rfl

/-- One lane of SPAWN on a record of this device, when its future is made without a fault (R95). -/
def spawnWell (o : JOp) (t : State) (m : MemLane) : Option State :=
  match t.fibre m.key with
  | none => some t
  | some f =>
    let r := t.loadSpots (t.who f) (f.agent 0) m.spots
    if r.err then some (r.s.stopFor f.ctx)
    else match (r.s.setStamp f.key r.ts).fibre f.key with
      | none => some r.s
      | some f => match (r.s.setStamp f.key r.ts).spawnLane o f (wordsOf r.data) with
        | (u, none) => some u
        | (_, some _) => none

/-- Where a lane of SPAWN acts well, that is what it does. -/
theorem spawnPerform_of_spawnWell {o : JOp} {g : Group} {s u : State} {m : MemLane} (h : spawnWell o s m = some u) :
    spawnPerform o g s m none = some u := by
  unfold spawnWell at h
  unfold spawnPerform
  cases hf : s.fibre m.key with
  | none => rwa [hf] at h
  | some f =>
    rw [hf] at h
    dsimp only [State.loadRecord] at h ⊢
    obtain ⟨r, hr⟩ : ∃ r, r = s.loadSpots (s.who f) (f.agent 0) m.spots := ⟨_, rfl⟩
    rw [← hr] at h ⊢
    by_cases herr : r.err = true
    · rwa [if_pos herr] at h ⊢
    · rw [if_neg herr] at h ⊢
      cases hmine : (r.s.setStamp f.key r.ts).fibre f.key with
      | none => rwa [hmine] at h
      | some f' =>
        rw [hmine] at h
        dsimp only at h ⊢
        rcases hact : (r.s.setStamp f'.key r.ts).spawnLane o f' (wordsOf r.data) with ⟨v, _ | x⟩
        · rwa [hact] at h
        · rw [hact] at h
          cases h

/-- The plan of a lane of SPAWN whose checks find nothing where it acts. -/
theorem State.spawnPlan_eq {s : State} {o : JOp} {plan : Fibre → MemLane} {f : Fibre}
    (h : f.guard o.guard = true → f.helper = false → s.preJ f 0x20F o 2 (some (o.dst.num, 2)) = .go ∧ s.spawnCheck o f = .ok (plan f)) :
    s.spawnPlan o f = reachPlan o.guard true plan f := by
  unfold State.spawnPlan reachPlan
  cases hg : f.guard o.guard with
  | false => rfl
  | true =>
    cases hh : f.helper with
    | true => rfl
    | false =>
      obtain ⟨hpre, hcheck⟩ := h hg hh
      rw [hpre, hcheck]
      rfl

/-- SPAWN at its first try, in a group whose acting lanes' checks find nothing: helper lanes' destinations are 0, and every lane makes its future. -/
theorem exec_spawn {o : JOp} {s t : State} {g : Group} {plan : Fibre → MemLane} (hg : s.group = some g) (hd : g.run.done = [])
    (hw : g.run.wait = .none) (hn : g.run.nth = 0)
    (hlane : ∀ f ∈ g.acting o.guard, s.preJ f 0x20F o 2 (some (o.dst.num, 2)) = .go ∧ s.spawnCheck o f = .ok (plan f) ∧
      s.mustWait f (plan f).spots = false ∧ (plan f).spots.any Spot.isPeer = false)
    (hfree : ∀ f ∈ g.fs, helperHolds o.guard (fun f => f.spawned o 0 false) f = false)
    (hacc : accessesInOrder noFar (spawnWell o) ((g.acting o.guard).map plan) false
      (s.putFibres ((g.fs.filter fun f => f.helper && f.guard o.guard).map fun f => f.spawned o 0 false)) = some t) :
    exec (.spawn o) s = .next (t.settleActed g (g.fs.map Fibre.key) (t.actedFaults g)) := by
  have hplan : ∀ f ∈ g.fs, s.spawnPlan o f = reachPlan o.guard true plan f := fun f hf => State.spawnPlan_eq fun hgd hh =>
    have ⟨hpre, hcheck, _⟩ := hlane f (Group.mem_acting hf (by rw [hgd, hh]; rfl))
    ⟨hpre, hcheck⟩
  have hfinds : ∀ f ∈ g.acting o.guard, s.mustWait f (plan f).spots = false ∧ (plan f).spots.any Spot.isPeer = false := fun f hf =>
    have ⟨_, _, hfinds⟩ := hlane f hf
    hfinds
  have hpeer : ∀ m ∈ (g.acting o.guard).map plan, m.spots.any Spot.isPeer = false := fun m hm => by
    obtain ⟨f, hf, rfl⟩ := List.mem_map.mp hm
    exact (hfinds f hf).2
  show execSpawn o s = _
  unfold execSpawn
  rw [hg]
  dsimp only
  rw [State.memRun_reaching hw hd hn hplan hfinds hfree rfl]
  dsimp only
  rw [State.runHeld_made hn (fun _ _ _ => spawnPerform_of_spawnWell) hpeer hacc]

/-! ### FPARK (R97, R501) -/

/-- FPARK in a group whose acting lanes' checks find nothing and whose lanes act well (R97): the sentence goes on. -/
theorem exec_fpark {o : GOp} {s : State} {g : Group} {x : State × List Nat} (hg : s.group = some g)
    (hlane : ∀ f ∈ g.acting o.guard, s.clearLane 0x211 o f = true ∧ s.unplaced f.key = false ∧ s.blockForm o.a f = none ∧
      (f.pair o.b = 0 ∨ s.cellForm f.ctx (f.pair o.b) = none)) (hfree : g.helpersFree 0x211 o = true)
    (hact : allActWell (fun t f => t.fparkLane o f) (g.acting o.guard)
      (s.putFibres ((g.fs.filter fun f => f.helper && f.guard o.guard).map (zeroOf 0x211 o)), []) = some x) :
    exec (.fpark o) s = .next (x.1.goOn g) := by
  obtain ⟨r, hr⟩ : ∃ r, gRow 0x211 = some r := ⟨_, rfl⟩
  have hzero : (fun f => f.zeroDst o r) = zeroOf 0x211 o := funext fun f => (zeroOf_row hr f).symm
  show execFpark o s = _
  unfold execFpark
  rw [hg, hr]
  dsimp only
  rw [map_ok (res := id) fun f hf => ?_, if_neg noFault_map, State.holdIf_ok]
  rotate_left
  · rw [laneStep_go (x := f) (fun ha => ?_) fun ha => ?_, ite_self]
    · rfl
    · obtain ⟨hclear, hplaced, -⟩ := hlane f (Group.mem_acting hf ha)
      rw [State.clearLane_go hclear hr, hplaced]
      rfl
    · obtain ⟨-, -, hblock, hcell⟩ := hlane f (Group.mem_acting hf ha)
      have hform : (if f.pair o.b = 0 then none else s.cellForm f.ctx (f.pair o.b)) = none := by
        rcases hcell with h | h
        · rw [if_pos h]
        · rw [h, ite_self]
      rw [hblock, hform]
      rfl
  dsimp only
  rw [Group.helpersFree_row hr hfree, if_neg Bool.false_ne_true, hzero]
  unfold Group.acting at hact
  rw [actLanes_eq hact]
  rfl

/-- Settles O26: SPAWN is a memory instruction whose lanes make their futures in order, FPARK an instruction of R501; no lane has a fault to settle. -/
theorem spawnAndFparkComplete : Obligations.SpawnAndFparkComplete := by
  refine ⟨fun o s g plan t hg hd hw hn hlane hfree hacc hno => ?_, fun o s g x hg hlane hfree hact => exec_fpark hg hlane hfree hact⟩
  rw [exec_spawn hg hd hw hn hlane hfree hacc, hno, State.settleActed_nil]

end Sys2Proof.Machine
end

section
namespace Sys2Proof.Machine

/-! ## Memory spaces and banks

### Loads (O28) -/

/-- What LD does for one lane with its places here: their bytes, loaded, go to the registers of the frame that issued it (R71, R277). -/
theorem ldPerform_here (o : GOp) (s : State) (m : MemLane) : ldPerform o s m none = s.onFibre m fun f =>
    loadInto f m 0x280 (anyLoc2 m.spots) (s.loadSpots (s.who f) (f.agent 0) m.spots) (loadWords (widthBytes o.mod) (bitOf o.mod.toNat 3)) := by
  unfold ldPerform State.onFibre
  cases s.fibre m.key <;> rfl

/-- The same for LDC, whose places lie in the constant window (R280). -/
theorem ldcAct_here (ms : List MemLane) (s : State) (m : MemLane) : ldcAct.perform s ms m none = s.onFibre m fun f =>
    loadInto f m 0x284 false (s.loadSpots (s.who f) (f.agent 0) m.spots) wordsOf := by
  unfold ldcAct plainAct State.onFibre
  dsimp only
  cases s.fibre m.key <;> rfl

/-- Settles O28: LD and LDC are memory instructions with no joint fault, no far access and nothing to do after their loads. -/
theorem loadsComplete : Obligations.LoadsComplete := by
  intro o load
  exact ⟨accessesThrough_runMem (a := ldAct o) (fun _ => rfl) rfl (fun _ _ _ => rfl) rfl (fun _ s m => ldPerform_here o s m) fun _ _ _ => rfl,
    accessesThrough_runMem (a := ldcAct) (fun _ => rfl) rfl (fun _ _ _ => rfl) rfl ldcAct_here fun _ _ _ => rfl⟩

/-! ### The checks of an address (O55)

Below the windows an address comes to a page of its context's tables; in the windows to a scratchpad or the constant bank. Each way is said once: what
the checks answer where they find nothing, and what an address that they pass can be. -/

theorem winBase_lt : winBase < 2 ^ 57 := by decide
theorem FaultInfo.prot_toNat (a : DWord) (cause : Nat) : FaultInfo.prot a.toNat cause = ⟨0x11, cause, 0, a⟩ := by
  rw [FaultInfo.prot, BitVec.ofNat_toNat, BitVec.setWidth_eq]
theorem FaultInfo.align_toNat (a : DWord) (cause : Nat) : FaultInfo.align a.toNat cause = ⟨0x34, cause, 0, a⟩ := by
  rw [FaultInfo.align, BitVec.ofNat_toNat, BitVec.setWidth_eq]

/-- A context that is not there has no frame heap and no future cells. -/
theorem State.inRegion_cdesc (s : State) (ctx va : Nat) :
    (match s.ctx ctx with
      | some c => c.d.inRegion va
      | none => false) = (s.cdesc ctx).inRegion va := by
  unfold State.cdesc
  cases s.ctx ctx with
  | some c => rfl
  | none => simp [CtxDesc.inRegion, CtxDesc.zero]

section
variable {s : State} {w : Who} {a : DWord} {n al va : Nat} {wr : Bool} {lf : Leaf} {e : FaultInfo}

theorem State.resolveLeaf_error (h : s.walk w.ctx va = .error e) : s.resolveLeaf w va wr = .error e := by
  unfold State.resolveLeaf
  rw [h]

/-- A page of this device that a walk finds: PROT cause 5 comes before cause 7, and both before the page itself (R437). -/
theorem State.resolveLeaf_ok (h : s.walk w.ctx va = .ok lf) (hloc : lf.loc ≠ 3) (hd : s.deadPage w.ctx va lf.pte = false) :
    s.resolveLeaf w va wr =
      if (wr && !lf.w) = true then .error (FaultInfo.prot va 5)
      else if (wr && (lf.fh || lf.fc || (s.cdesc w.ctx).inRegion va)) = true then .error (FaultInfo.prot va 7)
      else .ok (lf, (s.cdesc w.ctx).inRegion va) := by
  unfold State.resolveLeaf
  rw [h]
  dsimp only
  rw [if_neg fun hp => hloc hp.1, hd, if_neg Bool.false_ne_true, ← State.inRegion_cdesc] <;> rfl

theorem State.resolve_high (h : 2 ^ 57 ≤ a.toNat) : s.resolve w a n al wr = .error ⟨0x11, 1, 0, a⟩ := by
  unfold State.resolve
  dsimp only
  rw [if_pos h, FaultInfo.prot_toNat]

theorem State.resolve_unaligned (hb : a.toNat < winBase) (h : a.toNat % al ≠ 0) : s.resolve w a n al wr = .error ⟨0x34, 1, 0, a⟩ := by
  have := winBase_lt
  unfold State.resolve
  dsimp only
  rw [if_neg (by omega), if_neg (by omega), if_pos h, FaultInfo.align_toNat]

/-- Below the windows an aligned address is judged by its leaf. -/
theorem State.resolve_leafError (hb : a.toNat < winBase) (hal : a.toNat % al = 0) (h : s.resolveLeaf w a.toNat wr = .error e) :
    s.resolve w a n al wr = .error e := by
  have := winBase_lt
  unfold State.resolve
  dsimp only
  rw [if_neg (by omega), if_neg (by omega), if_neg (by omega), h]

/-- A page of another device goes to its owner (R371). -/
theorem State.resolve_peer {inReg : Bool} (hb : a.toNat < winBase) (hal : a.toNat % al = 0) (h : s.resolveLeaf w a.toNat wr = .ok (lf, inReg))
    (hloc : lf.loc = 3) : s.resolve w a n al wr = .ok (.peer lf.base none) := by
  have := winBase_lt
  unfold State.resolve
  dsimp only
  rw [if_neg (by omega), if_neg (by omega), if_neg (by omega), h]
  exact if_pos hloc

/-- A view page of this device: PROT cause 9, or the view (R132, R408). -/
theorem State.resolve_view {inReg : Bool} {v : View} (hb : a.toNat < winBase) (hal : a.toNat % al = 0)
    (h : s.resolveLeaf w a.toNat wr = .ok (lf, inReg)) (hloc : lf.loc ≠ 3) (hv : lf.view = some v) :
    s.resolve w a n al wr =
      let x := v.span (a.toNat % lf.size) (max n 4)
      if lf.loc = 0 ∧ s.owns w.ctx (lf.base + x.1) x.2 = false then .error (FaultInfo.prot a.toNat 9)
      else .ok (.view v lf.base lf.size (a.toNat % lf.size) lf.loc) := by
  have := winBase_lt
  unfold State.resolve
  dsimp only
  rw [if_neg (by omega), if_neg (by omega), if_neg (by omega), h]
  dsimp only
  rw [if_neg hloc, hv]

/-- Another page of this device: PROT cause 9, what the regions and the save area are read as, or the memory (R407, R408). -/
theorem State.resolve_page {inReg : Bool} (hb : a.toNat < winBase) (hal : a.toNat % al = 0) (h : s.resolveLeaf w a.toNat wr = .ok (lf, inReg))
    (hloc : lf.loc ≠ 3) (hv : lf.view = none) :
    s.resolve w a n al wr =
      let p : PA := ⟨if lf.loc = 0 then .dev else .host, lf.base + a.toNat % lf.size⟩
      if lf.loc = 0 ∧ s.granOwner (p.a / 65536) ≠ some w.ctx then .error (FaultInfo.prot a.toNat 9)
      else if (inReg || (!wr && lf.loc == 0 && s.inSaveArea (p.a / 65536))) = true then .ok (.region a.toNat p)
      else .ok (.mem p lf.loc) := by
  have := winBase_lt
  unfold State.resolve
  dsimp only
  rw [if_neg (by omega), if_neg (by omega), if_neg (by omega), h]
  dsimp only
  rw [if_neg hloc, hv]

/-- What an address below the windows comes to when it passes: its page's owner, a view of what the context owns, or memory that it owns, read as a
region where it is one. -/
theorem State.resolve_below {q : Place} (hb : a.toNat < winBase) (h : s.resolve w a n al wr = .ok q) :
    ∃ lf : Leaf, let off := a.toNat % lf.size
      let p : PA := ⟨if lf.loc = 0 then .dev else .host, lf.base + off⟩
      q = .peer lf.base none ∨
      (∃ v, q = .view v lf.base lf.size off lf.loc ∧
        (lf.loc = 0 → s.owns w.ctx (lf.base + (v.span off (max n 4)).1) (v.span off (max n 4)).2 = true)) ∨
      ((lf.loc = 0 → s.granOwner (p.a / 65536) = some w.ctx) ∧ (q = .region a.toNat p ∨ q = .mem p lf.loc)) := by
  by_cases hal : a.toNat % al = 0
  case neg => rw [State.resolve_unaligned hb hal] at h; cases h
  cases hl : s.resolveLeaf w a.toNat wr with
  | error e => rw [State.resolve_leafError hb hal hl] at h; cases h
  | ok x =>
    obtain ⟨lf, inReg⟩ := x
    refine ⟨lf, ?_⟩
    by_cases hloc : lf.loc = 3
    · rw [State.resolve_peer hb hal hl hloc] at h
      exact .inl (Except.ok.inj h).symm
    · cases hv : lf.view with
      | some v =>
        rw [State.resolve_view hb hal hl hloc hv] at h
        dsimp only at h
        split_ifs at h with hown
        exact .inr (.inl ⟨v, (Except.ok.inj h).symm, fun h0 => by simpa [h0] using hown⟩)
      | none =>
        rw [State.resolve_page hb hal hl hloc hv] at h
        dsimp only at h
        by_cases hown : lf.loc = 0 ∧ s.granOwner ((lf.base + a.toNat % lf.size) / 65536) ≠ some w.ctx
        · rw [if_pos hown] at h
          cases h
        · rw [if_neg hown] at h
          refine .inr (.inr ⟨fun h0 => by simpa [h0] using hown, ?_⟩)
          split at h
          · exact .inl (Except.ok.inj h).symm
          · exact .inr (Except.ok.inj h).symm

theorem State.scratch_ok {core off : Nat} {q : Place} (h : s.scratch w core off va n = .ok q) : q = .mem ⟨.sram, sramBase w.ctx core + off⟩ 4 := by
  unfold State.scratch at h
  split_ifs at h
  exact (Except.ok.inj h).symm

/-- What an address of the windows comes to: the constant bank, or the context's scratchpad of a core, one of the device's where the asking one is. -/
theorem State.window_ok {q : Place} (h : s.window w va n wr = .ok q) : (∃ off, q = .const off) ∨
    ∃ core off, q = .mem ⟨.sram, sramBase w.ctx core + off⟩ 4 ∧ off < 2 ^ 21 ∧ (w.core < 384 → core < 384) := by
  unfold State.window at h
  dsimp only at h
  split_ifs at h with hown hcluster hrole hfifo hconst hwr hal
  · exact .inr ⟨_, _, State.scratch_ok h, hown, id⟩
  · cases ht : w.team with
    | none => rw [ht] at h; cases h
    | some t =>
      rw [ht] at h
      dsimp only at h
      split_ifs at h
      refine .inr ⟨_, _, State.scratch_ok h, Nat.mod_lt _ (by decide), fun hw => ?_⟩
      unfold clusterOf
      omega
  · exact .inl ⟨_, (Except.ok.inj h).symm⟩

/-- The context of a scratchpad address, from the model's SRAM store. -/
theorem sramBase_ctx {ctx core off : Nat} (hc : core < 384) (ho : off < 2 ^ 21) : (sramBase ctx core + off) / 2 ^ 21 / 384 = ctx := by
  unfold sramBase
  omega

/-- Memory that an address comes to: device memory that the context owns, host memory, or a scratchpad of the context's. -/
theorem State.resolve_mem {p : PA} {loc : Nat} (h : s.resolve w a n al wr = .ok (.mem p loc)) :
    (p.sp = .dev → s.granOwner (p.a / 65536) = some w.ctx) ∧ (p.sp = .sram → w.core < 384 → p.a / 2 ^ 21 / 384 = w.ctx ∧ loc = 4) := by
  by_cases hb : a.toNat < winBase
  · obtain ⟨lf, hp | ⟨v, hp, -⟩ | ⟨hown, hp | hp⟩⟩ := State.resolve_below hb h
    · cases hp
    · cases hp
    · cases hp
    · obtain ⟨rfl, rfl⟩ := Place.mem.inj hp
      by_cases h0 : lf.loc = 0
      · exact ⟨fun _ => hown h0, fun hs => by simp [h0] at hs⟩
      · exact ⟨fun hs => by simp [h0] at hs, fun hs => by simp [h0] at hs⟩
  · by_cases hh : 2 ^ 57 ≤ a.toNat
    · rw [State.resolve_high hh] at h
      cases h
    · unfold State.resolve at h
      dsimp only at h
      rw [if_neg hh, if_pos (by omega)] at h
      obtain ⟨off, hp⟩ | ⟨core, off, hp, hoff, hcore⟩ := State.window_ok h
      · cases hp
      · obtain ⟨rfl, rfl⟩ := Place.mem.inj hp
        exact ⟨nofun, fun _ hw => ⟨sramBase_ctx (hcore hw) hoff, rfl⟩⟩
end

/-- The order of the checks below the windows, of a page of this device (R437 step 6). -/
theorem State.resolve_order (s : State) (w : Who) (a : DWord) (n al : Nat) (wr : Bool) (lf : Leaf) (hb : a.toNat < winBase) (hal : a.toNat % al = 0)
    (hw : s.walk w.ctx a.toNat = .ok lf) (hloc : lf.loc ≠ 3) (hd : s.deadPage w.ctx a.toNat lf.pte = false) :
    let p : PA := ⟨if lf.loc = 0 then .dev else .host, lf.base + a.toNat % lf.size⟩
    (wr = true → lf.w = false → s.resolve w a n al wr = .error ⟨0x11, 5, 0, a⟩) ∧
    (wr = true → lf.w = true → (lf.fh = true ∨ lf.fc = true) → s.resolve w a n al wr = .error ⟨0x11, 7, 0, a⟩) ∧
    (wr = false → lf.loc = 0 → lf.view = none → s.granOwner (p.a / 65536) ≠ some w.ctx → s.resolve w a n al wr = .error ⟨0x11, 9, 0, a⟩) ∧
    (wr = true → lf.w = true → lf.fh = false → lf.fc = false → lf.view = none → (s.cdesc w.ctx).inRegion a.toNat = false →
      (lf.loc = 0 → s.granOwner (p.a / 65536) = some w.ctx) → s.resolve w a n al wr = .ok (.mem p lf.loc)) ∧
    (wr = false → lf.view = none → (s.cdesc w.ctx).inRegion a.toNat = false →
      (lf.loc = 0 → s.granOwner (p.a / 65536) = some w.ctx ∧ s.inSaveArea (p.a / 65536) = false) →
      s.resolve w a n al wr = .ok (.mem p lf.loc)) := by
  have hleaf := State.resolveLeaf_ok (wr := wr) hw hloc hd
  refine ⟨?_, ?_, ?_, ?_, ?_⟩
  · rintro rfl hr
    rw [← FaultInfo.prot_toNat]
    exact State.resolve_leafError hb hal (by simp [hleaf, hr])
  · rintro rfl hr hf
    rw [← FaultInfo.prot_toNat]
    exact State.resolve_leafError hb hal (by rcases hf with hf | hf <;> simp [hleaf, hr, hf])
  · rintro rfl h0 hv hown
    rw [State.resolve_page hb hal (by simpa using hleaf) hloc hv, ← FaultInfo.prot_toNat]
    exact if_pos ⟨h0, hown⟩
  · rintro rfl hr hfh hfc hv hreg hown
    rw [State.resolve_page hb hal (by simpa [hr, hfh, hfc, hreg] using hleaf) hloc hv]
    dsimp only
    rw [if_neg fun h => h.2 (hown h.1), if_neg (by simp)]
  · rintro rfl hv hreg hown
    rw [State.resolve_page hb hal (by simpa [hreg] using hleaf) hloc hv]
    dsimp only
    rw [if_neg fun h => h.2 (hown h.1).1, if_neg]
    by_cases h0 : lf.loc = 0
    · simp [(hown h0).2]
    · simp [h0]

/-- Settles O55: the order of the checks, then what an address that passes them can be. -/
theorem addressesAreChecked : Obligations.AddressesAreChecked := by
  unfold Obligations.AddressesAreChecked
  refine ⟨fun s w a n al wr e lf => ⟨State.resolve_high, State.resolve_unaligned, fun hb hal =>
      ⟨fun hw => State.resolve_leafError hb hal (State.resolveLeaf_error hw), fun hw hloc hd => State.resolve_order s w a n al wr lf hb hal hw hloc hd⟩⟩,
    fun s w a n al wr p loc => State.resolve_mem, fun s w a n al wr hb => ⟨fun va p hr hsp => ?_, fun v base size off hr => ?_⟩⟩
  · obtain ⟨lf, hp | ⟨v, hp, -⟩ | ⟨hown, hp | hp⟩⟩ := State.resolve_below hb hr
    · cases hp
    · cases hp
    · obtain ⟨-, rfl⟩ := Place.region.inj hp
      by_cases h0 : lf.loc = 0
      · exact hown h0
      · simp [h0] at hsp
    · cases hp
  · obtain ⟨lf, hp | ⟨v', hp, hown⟩ | ⟨-, hp | hp⟩⟩ := State.resolve_below hb hr
    · cases hp
    · obtain ⟨rfl, rfl, rfl, rfl, h0⟩ := Place.view.inj hp
      simpa [State.owns] using hown h0.symm
    · cases hp
    · cases hp

/-! ### Groups whose lanes are all ready -/

/-- THE LAW of instructions whose lanes see each other and are ready: each lane that passes comes to its result, the group does its part, and the
sentence goes on. -/
theorem groupThrough_runCrew {i : Instr} {op : Nat} {o : GOp} {ready : State → Group → Fibre → Bool} {res : State → Group → Fibre → Fibre}
    {pre : State → Group → GRow → Fibre → Pre} {after' : State → State → Group → State} {after : State → Group → State → State}
    (hx : ∀ s g, s.group = some g → (∀ f ∈ g.fs, f.guard o.guard = true → ready s g f = true) →
      exec i s = runCrew op o s pre (fun s g f => .ok (res s g f)) (after' s))
    (hrow : (gRow op).isSome = true) (hp : ∀ s g r f, gRow op = some r → ready s g f = true → pre s g r f = .go)
    (ha : ∀ s g t, after' s t g = after s g t) : groupThrough i o ready res after := fun s g hg h => by
  obtain ⟨r, hr⟩ := Option.isSome_iff_exists.mp hrow
  rw [hx s g hg h, runCrew_next (res s g) hg hr (fun f hf hgd => hp s g r f hr (h f hf hgd)) fun _ _ _ => rfl, ha]

/-- The lanes that act are those that pass and are no helpers. -/
theorem Group.passing_filter (g : Group) (o : GOp) : ((g.passing o).filter fun f => !f.helper) = g.acting o.guard := by
  unfold Group.passing Group.acting
  rw [List.filter_filter]
  exact List.filter_congr fun f _ => Bool.and_comm _ _

/-! ### FIFOs and write pointers (O37) -/

theorem fifoBytes_eq (o : GOp) : fifoBytes o = 4 * 2 ^ (o.mod.toNat % 4) := by
  simp [fifoBytes, modBits]

theorem lanesBank_eq : lanesBank = fun s o f => (s.fifoBank f (f.pair o.a)).toOption.getD 0 := by
  delta lanesBank
  funext s o f
  generalize s.fifoBank f (f.pair o.a) = x
  cases x <;> rfl

/-- Whether a FIFO instruction's lane is ready: issue finds nothing, its earlier accesses are placed, its bank is a FIFO that stays one (R120, R137). -/
def State.fifoReady (s : State) (op : Nat) (o : GOp) (f : Fibre) : Bool :=
  s.clearLane op o f && !s.unplaced f.key && (s.fifoBank f (f.pair o.a)).toOption.any fun b => s.changingBank f != some b
/-- Whether each acting lane of a FIFOW is first at its bank, which has room for n bytes of each (R123). -/
def State.fifoRoom (s : State) (g : Group) (o : GOp) (n : Nat) : Bool := ((g.passing o).filter fun f => !f.helper).all fun f =>
  s.firstAt g (32 + lanesBank s o f) &&
    let q := (s.cc f.ctx f.core).fifo (lanesBank s o f)
    decide (q.tail - q.head + n * (((g.passing o).filter fun f => !f.helper).filter fun x => lanesBank s o x == lanesBank s o f).length ≤ 65536)

theorem preFifo_of_ready {op : Nat} {o : GOp} {s : State} {r : GRow} {f : Fibre} (hr : gRow op = some r) (h : s.fifoReady op o f = true) :
    preFifo op o s r f = .go := by
  unfold State.fifoReady at h
  simp only [Bool.and_eq_true, Bool.not_eq_true'] at h
  obtain ⟨⟨hclear, hplaced⟩, hbank⟩ := h
  unfold preFifo
  rw [State.clearLane_go hclear hr, Pre.andThen_go, hplaced]
  generalize s.fifoBank f (f.pair o.a) = bank at hbank ⊢
  cases bank with
  | error x => cases hbank
  | ok b => simpa [Except.toOption] using hbank

/-- A helper lane of a FIFO instruction is always ready: it reserves and appends nothing (R276). -/
theorem preFifo_lane {op : Nat} {o : GOp} {s : State} {r : GRow} {f : Fibre} (hr : gRow op = some r)
    (h : (f.helper || s.fifoReady op o f) = true) : (if f.helper then Pre.go else preFifo op o s r f) = .go := by
  cases hh : f.helper with
  | true => rfl
  | false => exact preFifo_of_ready hr (by simpa [hh] using h)

/-- One lane's FIFOW at bank b (R123, R137): after the bank's earlier FIFOWs and the FIFORs whose bytes it overwrites, its n bytes enter at the tail. -/
def State.appendFifo (t : State) (o : GOp) (n b : Nat) (f : Fibre) : State :=
  let q := (t.cc f.ctx f.core).fifo b
  let t := (t.setStamp f.key (max q.stamp q.read)).stampAccess f.key
  let ts := (t.fibre f.key).elim f.stamp Fibre.stamp
  ((t.ringWrite f.ctx f.core b q.tail (bytesOfWords (f.regsFrom o.b.num (n / 4)))).putFifo f.ctx f.core b
    { q with tail := q.tail + n, stamp := max q.stamp ts }).feed f.ctx f.core b

/-- FIFOW waits for nothing where its acting lanes are ready, first at their banks, and the group's bytes fit (R123). -/
theorem exec_fifow {o : GOp} {s : State} {g : Group} (hg : s.group = some g)
    (h : ∀ f ∈ g.acting o.guard, s.fifoRoom g o (fifoBytes o) = true) :
    exec (.fifow o) s = runCrew 0x28A o s (fun s _ r f => if f.helper then .go else preFifo 0x28A o s r f) (fun _ _ f => .ok f)
      (fun t g => (g.acting o.guard).foldl (fun t f => t.appendFifo o (fifoBytes o) (lanesBank s o f) f) t) := by
  obtain ⟨r, hr⟩ : ∃ r, gRow 0x28A = some r := ⟨_, rfl⟩
  have hbanks : ∀ f ∈ g.acting o.guard, s.firstAt g (32 + lanesBank s o f) = true ∧
      (let q := (s.cc f.ctx f.core).fifo (lanesBank s o f)
       decide (q.tail - q.head + fifoBytes o * ((g.acting o.guard).filter fun x => lanesBank s o x == lanesBank s o f).length ≤ 65536)) = true :=
    fun f hf => by
      have hroom := h f hf
      unfold State.fifoRoom at hroom
      rw [Group.passing_filter] at hroom
      have := List.all_eq_true.mp hroom f hf
      rwa [Bool.and_eq_true] at this
  have hfirst : ((g.acting o.guard).map (lanesBank s o)).eraseDups.all (fun b => s.firstAt g (32 + b)) = true := by
    rw [List.all_eq_true]
    intro b hb
    obtain ⟨f, hf, rfl⟩ := List.mem_map.mp (List.mem_eraseDups.mp hb)
    exact (hbanks f hf).1
  have hroom := List.all_eq_true.mpr fun f hf => (hbanks f hf).2
  dsimp only at hroom
  show execFifow o s = _
  unfold execFifow
  rw [hg, hr]
  dsimp only
  unfold Group.acting at hfirst hroom
  rw [if_neg (by simp only [hfirst, hroom, Bool.and_true, Bool.not_true, Bool.and_false, Bool.false_eq_true, not_false_eq_true])]
  congr 1
  funext t g
  congr 1
  funext t f
  unfold State.appendFifo
  dsimp only
  cases ((t.setStamp f.key _).stampAccess f.key).fibre f.key <;> rfl

theorem fifow_through {o : GOp} {n : Nat} (hn : fifoBytes o = n) :
    groupThrough (.fifow o) o (fun s g f => f.helper || s.fifoReady 0x28A o f && s.fifoRoom g o n) (fun _ _ f => f)
      (fun s g t => ((g.passing o).filter fun f => !f.helper).foldl (fun t f => t.appendFifo o n (lanesBank s o f) f) t) := by
  subst hn
  refine groupThrough_runCrew (op := 0x28A) (fun s g hg h => exec_fifow hg fun f hf => ?_) rfl (fun s g r f hr h => preFifo_lane hr ?_)
    fun s g t => by rw [Group.passing_filter]
  · obtain ⟨hmem, hact⟩ := List.mem_filter.mp hf
    rw [Bool.and_eq_true, Bool.not_eq_true'] at hact
    have hready := h f hmem hact.1
    rw [hact.2, Bool.false_or, Bool.and_eq_true] at hready
    exact hready.2
  · cases hh : f.helper with
    | true => rfl
    | false =>
      rw [hh, Bool.false_or, Bool.and_eq_true] at h
      exact h.1

/-- One lane's FIFOR at bank b (R124): a fill with no value yet, and n bytes reserved behind those reserved before. -/
def State.reserveFifo (t : State) (o : GOp) (n b : Nat) (f : Fibre) : State :=
  let t := t.stampAccess f.key
  let q := (t.cc f.ctx f.core).fifo b
  let t := t.emptyFor f.key o.dst.num (n / 4)
  (({ t with
      fills := t.fills ++ [{ fibre := f.key, frame := f.top.addr, reg := o.dst.num, n := n / 4, vals := [], producer := 0x28B, loc2 := false }] } : State).putFifo
    f.ctx f.core b { q with resv := q.resv ++
      [{ start := q.next, len := n, fibre := f.key, frame := f.top.addr, reg := o.dst.num, stamp := f.stamp }] }).feed f.ctx f.core b

theorem fifor_through {o : GOp} {n : Nat} (hn : fifoBytes o = n) :
    groupThrough (.fifor o) o (fun s _ f => f.helper || s.fifoReady 0x28B o f)
      (fun _ _ f => if f.helper then f.setRegs o.dst.num (List.replicate (n / 4) 0) else f)
      (fun s g t => ((g.passing o).filter fun f => !f.helper).foldl (fun t f => t.reserveFifo o n (lanesBank s o f) f) t) := by
  subst hn
  refine groupThrough_runCrew (op := 0x28B) (fun s g hg h => rfl) rfl (fun s g r f hr h => preFifo_lane hr h) fun s g t => ?_
  rw [Group.passing_filter]
  rfl

theorem wptr_through (o : GOp) : groupThrough (.wptr o) o (fun s _ f => s.clearLane 0x28D o f && !s.unplaced f.key) (fun _ _ f => f)
    (fun _ g t => (g.passing o).foldl (fun t f =>
      let c := t.chan f.ctx (clusterOf f.core) (o.imm.toNat % 16)
      ((t.setStamp f.key c.ptrStamp).stampAccess f.key).fillFor f.key 0x28D o.dst.num [loWord c.pointer, hiWord c.pointer]) t) := by
  refine groupThrough_runCrew (op := 0x28D) (fun s g hg h => rfl) rfl (fun s g r f hr h => ?_) fun s g t => rfl
  rw [Bool.and_eq_true, Bool.not_eq_true'] at h
  rw [State.clearLane_go h.1 hr, Pre.andThen_go, h.2]
  rfl

/-- Settles O37: the three are instructions whose lanes see each other; a FIFOW whose lanes are ready finds room at its banks. The case split on the
bank's answer spares the kernel from computing it. -/
theorem fifosAndWritePointersComplete : Obligations.FifosAndWritePointersComplete := by
  intro o n bank usable acting room
  have hbank : bank = fun s f => lanesBank s o f := by
    funext s f
    rw [lanesBank_eq]
    simp only [bank]
    generalize s.fifoBank f (f.pair o.a) = x
    cases x <;> rfl
  have husable : usable = fun op s f => s.fifoReady op o f := by
    funext op s f
    simp only [usable, State.fifoReady]
    generalize s.fifoBank f (f.pair o.a) = x
    cases x <;> rfl
  clear_value bank usable
  subst hbank husable
  exact ⟨fifow_through (fifoBytes_eq o), fifor_through (fifoBytes_eq o), wptr_through o⟩

/-! ### BANKCFG (O38) -/

theorem ite_out_next {p : Prop} [Decidable p] {t u : State} : (if p then (.next t : Out) else .next u) = .next (if p then t else u) :=
  (apply_ite Host.Outcome.next p t u).symm

theorem State.roleFault_go {s : State} {g : Group} {cause : Nat} {ok : Crew → Bool} (h : ∀ c, s.crew g.run.crew = some c → ok c = true) :
    s.roleFault g cause ok = .go := by
  unfold State.roleFault
  cases hc : s.crew g.run.crew with
  | none => rfl
  | some c => exact if_pos (h c hc)

/-- Settles O38: no lane finds anything at issue, the core changes no bank, and the port is first; then the four outcomes are the instruction's own. -/
theorem bankcfgCompletes : Obligations.BankcfgCompletes := by
  intro o s g f r hg hacts hclear hzero bank role c answer changed hch hfirst
  obtain ⟨row, hr⟩ : ∃ row, gRow 0x28C = some row := ⟨_, rfl⟩
  have hlane : ∀ f ∈ g.fs, laneStep (fun f => f.zeroDst o row) (f.guard o.guard) (s.preG f 0x28C o row (s.roleFault g 1 Crew.isZero)) f
      (fun _ => .ok f) = .ok (id f) := fun f hf => by
    rw [laneStep_go (x := f) (fun hgd => ?_) fun _ => rfl, ite_self]
    · rfl
    · rw [State.roleFault_go hzero]
      exact State.clearLane_go (hclear f (List.mem_filter.mpr ⟨hf, hgd⟩)) hr
  show execBankcfg o s = _
  unfold execBankcfg
  rw [hg, hr]
  dsimp only
  rw [map_ok hlane, if_neg noFault_map, State.holdIf_ok]
  have hfilter : (g.fs.filter fun f => f.guard o.guard) = f :: r := hacts
  dsimp only
  rw [hfilter]
  dsimp only
  rw [show (s.cc f.ctx f.core).changing = none from hch, show s.firstAt g (o.imm.toNat % 32) = true from hfirst]
  have hanswer : answer = fun t v => (t.putFibres ((f :: r).map fun f => f.setDst o.dst v)).goOn g :=
    funext fun t => funext fun v => by rw [← hacts]
  rw [hanswer]
  cases hw : g.run.wait
  case role => simp [changed, hw]
  all_goals
    simp only [changed, hw, Bool.not_true, Bool.false_eq_true, if_false, false_or, ite_out_next]
    rfl

/-! ### PUSH (O47) -/

/-- A helper lane alone on its port, with a value on its way to its v0 (R50, R51). -/
def helperAwaits : State := { State.reset with
  actor := .port 0 0
  ports := [(0, PortRun.fresh 0 [1])]
  fibres := [(1, Fibre.make 1 0 true 0 0 0 0 0 [Frame.none.markEmpty 0] [] 0 0 0 0)] }
/-- How many instructions of its sentence a port has issued in an outcome's state. -/
def Out.issued (core p : Nat) : Out → Option Nat
  | .next t => (t.port core p).map PortRun.count
  | _ => none

/-- Refutes O47, by its clause on PUSH: it has every helper lane ready, while a helper lane's destination that waits for a value holds the port (R31, R51).
The statement ranges over all operand records, so its destination may be a register, as here; that of a PUSH which decodes is a predicate (R301). -/
theorem not_engineHappeningsComplete : ¬ Obligations.EngineHappeningsComplete := by
  intro h
  obtain ⟨hpush, -⟩ := h
  have hsame := congrArg (Out.issued 0 0) (hpush { GOp.bare with dst := .v 0 } helperAwaits _ rfl (by decide +kernel))
  have hmodel : Out.issued 0 0 (exec (.push { GOp.bare with dst := .v 0 }) helperAwaits) = some 0 := by decide +kernel
  exact absurd (hmodel.symm.trans hsame) (by decide +kernel)

end Sys2Proof.Machine
end

section
namespace Sys2Proof.Machine

/-! ## The crew fence and masks, loads and read-modify-writes

### CFENCE and the mask instructions (O19) -/

/-- What a mask instruction does to its crew: nothing, or one write of a mask register, the same before the lanes' fibres are written and after. -/
def writesMask (n : Nat) (after : State → State → Group → State) (base : State → Group → State) : Prop := ∀ s g,
  (base s g = s ∧ ∀ fs, after s (s.putFibres fs) g = s.putFibres fs) ∨
    ∃ w, base s g = s.masked g n w ∧ ∀ fs, after s (s.putFibres fs) g = (s.putFibres fs).masked g n w

/-- A crew instruction that leaves its lanes as they are and writes a mask register (R257, R258). -/
theorem crewThrough_masked {i : Instr} {op n : Nat} {o : GOp} {ready : State → Group → Fibre → Bool}
    {pre : State → Group → GRow → Fibre → Pre} {after : State → State → Group → State} {base : State → Group → State}
    (hx : ∀ s, exec i s = runCrew op o s pre (fun _ _ f => .ok f) (after s)) (hrow : (gRow op).isSome = true)
    (hp : ∀ s g r f, gRow op = some r → ready s g f = true → pre s g r f = .go) (ha : writesMask n after base) :
    crewThrough i o ready (fun _ _ f => f) base := fun s g hg hsound h => by
  obtain ⟨r, hr⟩ := Option.isSome_iff_exists.mp hrow
  rw [hx, runCrew_next id hg hr (fun f hf hgd => hp s g r f hr ((h f hf).2 hgd)) fun _ _ _ => rfl]
  simp only [id, ite_self]
  refine ⟨_, rfl, ?_⟩
  obtain ⟨hbase, hafter⟩ | ⟨w, hbase, hafter⟩ := ha s g
  · rw [hbase, hafter]
    exact goOn_groupStep hg hsound _ fun f _ => ⟨rfl, rfl, rfl⟩
  · rw [hbase, hafter]
    exact masked_groupStep hg hsound (fun f hf => ⟨(h f hf).1, (h f hf).1⟩) fun f _ => ⟨rfl, rfl, rfl⟩

/-- The model's write of a mask, ANDed with the live mask of the crew that it finds, is the write of `masked` (R258). -/
theorem State.setMask_live (s : State) (g : Group) (n : Nat) (fs : List Fibre) (w : Word) :
    (match (s.putFibres fs).crew g.run.crew with
      | some c => (s.putFibres fs).setMask g.run.crew n (w &&& c.live)
      | none => s.putFibres fs) = (s.putFibres fs).masked g n (w &&& s.liveMask g) := by
  have hcrew : (s.putFibres fs).crew g.run.crew = s.crew g.run.crew := by simp [State.crew]
  unfold State.masked State.setMask State.liveMask
  rw [hcrew]
  cases s.crew g.run.crew <;> rfl

theorem any_passing (g : Group) (o : GOp) : (g.fs.any fun f => f.guard o.guard) = !(g.passing o).isEmpty := by
  unfold Group.passing
  rw [Bool.eq_iff_iff]
  simp [List.filter_eq_nil_iff]

/-- A mask instruction that writes once for its issue, when a guard passes (R257, R258). -/
theorem crewThrough_runMask {i : Instr} {op : Nat} {o : GOp} {k val : State → Group → Word} (hx : ∀ s, exec i s = runMask op o s k)
    (hrow : (gRow op).isSome = true) (hk : ∀ s g, k s g = val s g) :
    crewThrough i o (fun s _ f => s.clearLane op o f) (fun _ _ f => f)
      (fun s g => if (g.passing o).isEmpty then s else s.masked g (o.imm.toNat % 16) (val s g &&& s.liveMask g)) := by
  refine crewThrough_masked (n := o.imm.toNat % 16) hx hrow (fun s g r f hr h => State.clearLane_go h hr) fun s g => ?_
  simp only [any_passing, hk, maskNo_zero]
  cases (g.passing o).isEmpty with
  | true => exact .inl ⟨rfl, fun fs => rfl⟩
  | false => exact .inr ⟨_, rfl, fun fs => s.setMask_live g _ fs _⟩

/-- MWR's lead lane is the lowest-numbered lane that passes. -/
theorem find_passing (g : Group) (o : GOp) : (g.fs.find? fun f => f.guard o.guard) = (g.passing o).head? :=
  List.head?_filter.symm

theorem crewThrough_mwr (o : GOp) : crewThrough (.mwr o) o
    (fun s g f => if (g.passing o).head?.map Fibre.key = some f.key then s.clearLane 0x190 o f
      else decide (s.srcEnc f 0x190 1 o.a = .go)) (fun _ _ f => f)
    (fun s g => match g.passing o with
      | f :: _ => s.masked g (o.imm.toNat % 16) (s.src f .int o.imm o.a &&& s.liveMask g)
      | [] => s) := by
  refine crewThrough_masked (n := o.imm.toNat % 16) (op := 0x190) (fun s => rfl) rfl (fun s g r f hr h => ?_) fun s g => ?_
  · by_cases hlead : (g.passing o).head?.map Fibre.key = some f.key
    · rw [if_pos hlead] at h
      simpa [find_passing, hlead] using State.clearLane_go h hr
    · rw [if_neg hlead] at h
      simpa [find_passing, hlead] using h
  · dsimp only
    simp only [find_passing, maskNo_zero]
    cases g.passing o with
    | nil => exact .inl ⟨rfl, fun fs => rfl⟩
    | cons f r => exact .inr ⟨_, rfl, fun fs => Eq.trans (by cases (s.putFibres fs).crew g.run.crew <;> rfl) (s.setMask_live g _ fs _)⟩

theorem crewThrough_cfence (o : GOp) : crewThrough (.cfence o) o (fun s _ f => !s.unplaced f.key)
    (fun _ g f => ({ f with stamp := maxOf ((g.passing o).map Fibre.stamp) } : Fibre)) (fun s _ => s) :=
  crewThrough_plain (op := 0x187) (fun _ => rfl) rfl (fun s g r f _ h => if_neg (by simpa using h)) (fun _ _ _ => rfl)
    fun _ _ _ => ⟨rfl, rfl, rfl⟩

/-- Settles O19: CFENCE changes its lanes' stamps and nothing else; the others leave their lanes as they are and write one mask register. -/
theorem crewFenceAndMaskResults : Obligations.CrewFenceAndMaskResults := by
  intro o mask writes
  have hmask : ∀ (s : State) (g : Group) (i : Nat), s.mask g.run.crew (maskNo o i) = mask s g i := fun s g i => by
    simp only [mask, State.mask, maskNo, bitsOf, pow_mul]
    rfl
  have hwrites {op : Nat} {i : Instr} {k val : State → Group → Word} (hx : ∀ s, exec i s = runMask op o s k) (hrow : (gRow op).isSome = true)
      (hk : ∀ s g, k s g = val s g) : writes op i val := crewThrough_runMask hx hrow hk
  refine ⟨crewThrough_cfence o, ?_, ?_, ?_, ?_, ?_, ?_, crewThrough_mwr o⟩
  all_goals exact hwrites (fun _ => rfl) rfl fun s g => by simp only [hmask, Group.passing]

/-! ### What a lane's access leaves of a calm device

In a device whose lines are in no update state and hold no error, an access merges nothing and finds no error: beside the bytes that it writes it changes
stamps, leases, first-level copies and counters. -/

/-- A line in no update state that holds no error (R161, R455). -/
def Line.isCalm (l : Line) : Prop := l.upd = none ∧ l.hidden = 0 ∧ l.poison = false
def State.linesCalm (s : State) : Prop := ∀ lk, (s.lineOf lk).isCalm

theorem State.linesCalm_of_calm {s : State} (h : s.calm = true) : s.linesCalm := fun lk => by
  unfold State.lineOf
  cases hl : Tab.get s.lines lk with
  | none => exact ⟨rfl, rfl, rfl⟩
  | some l =>
    have := List.all_eq_true.mp h _ (Tab.mem_of_get hl)
    simpa [Line.isCalm, and_assoc] using this

/-- What an access to the memory of a calm device leaves of s: the bytes `mem`, the fibres, the fills on their way, calm lines, and the contexts that an
access log watches. -/
structure State.AfterAccess (s t : State) (mem : PA → Byte) : Prop where
  bytes : ∀ q, t.rawByte q = mem q
  fibres : t.fibres = s.fibres
  fills : t.fills = s.fills
  unwatched : ∀ ctx, t.unwatched ctx = s.unwatched ctx
  calm : t.linesCalm
/-- The same of an access that writes nothing. -/
abbrev State.KeepsMemory (s t : State) : Prop := s.AfterAccess t s.rawByte

theorem State.AfterAccess.trans {s t u : State} {m n : PA → Byte} (h1 : s.AfterAccess t m) (h2 : t.AfterAccess u n) : s.AfterAccess u n where
  bytes := h2.bytes
  fibres := h2.fibres.trans h1.fibres
  fills := h2.fills.trans h1.fills
  unwatched ctx := (h2.unwatched ctx).trans (h1.unwatched ctx)
  calm := h2.calm
/-- What writes nothing leaves the bytes that it finds. -/
theorem State.AfterAccess.keep {s t u : State} {m : PA → Byte} (h1 : s.AfterAccess t m) (h2 : t.KeepsMemory u) : s.AfterAccess u m :=
  ⟨fun q => (h2.bytes q).trans (h1.bytes q), (h1.trans h2).fibres, (h1.trans h2).fills, (h1.trans h2).unwatched, h2.calm⟩

/-- A change of what neither memory nor fibres nor fills nor watches are read from. -/
theorem State.keepsMemory_of_rfl {s t : State} (h : s.linesCalm) (hb : t.rawByte = s.rawByte) (hf : t.fibres = s.fibres) (hp : t.fills = s.fills)
    (hu : t.unwatched = s.unwatched) (hl : t.lines = s.lines) : s.KeepsMemory t :=
  ⟨congrFun hb, hf, hp, congrFun hu, fun lk => by unfold State.lineOf; rw [hl]; exact h lk⟩

/-- Whether a context is watched is a matter of its key slot. -/
theorem State.unwatched_eq (s : State) (ctx : Nat) :
    s.unwatched ctx = ((s.ctx ctx).map Ctx.d).elim true fun d => (s.key d.kslot).monitors.isEmpty := by
  unfold State.unwatched
  cases s.ctx ctx <;> rfl

/-- A counter rises: the seeds of what scratchpads held stay (R119, R307). -/
theorem State.rawByte_bump (s : State) (ctx core i n : Nat) (q : PA) : (s.bump ctx core i n).rawByte q = s.rawByte q := by
  unfold State.rawByte
  cases q.sp
  case sram =>
    dsimp only
    unfold State.sramByte
    rw [State.bump_sram]
    congr 2
    unfold State.bump State.putCC State.cc
    simp only [Tab.get_set]
    by_cases hk : ctx * 384 + core = q.a / 2 ^ 21
    · rw [if_pos hk, hk]
      cases Tab.get s.coreCtx (q.a / 2 ^ 21) <;> rfl
    · rw [if_neg hk]
  all_goals rfl

section
variable {s : State} (h : s.linesCalm)
include h

theorem State.keepsMemory_refl : s.KeepsMemory s := s.keepsMemory_of_rfl h rfl rfl rfl rfl rfl
theorem State.keepsMemory_accesses (n : Nat) : s.KeepsMemory { s with accesses := n } := State.keepsMemory_of_rfl h rfl rfl rfl rfl rfl
theorem State.keepsMemory_segLines (t : Tab (List SegLine)) : s.KeepsMemory { s with segLines := t } := State.keepsMemory_of_rfl h rfl rfl rfl rfl rfl
theorem State.keepsMemory_queues (t : Tab Queue) : s.KeepsMemory { s with queues := t } := State.keepsMemory_of_rfl h rfl rfl rfl rfl rfl

/-- A line's state changes, and it stays calm and keeps the bytes that it holds of host memory. -/
theorem State.keepsMemory_putLine {lk : Nat} {l : Line} (hl : l.isCalm) (hd : l.dirtyHost = (s.lineOf lk).dirtyHost) : s.KeepsMemory (s.putLine lk l) where
  bytes q := by
    unfold State.rawByte
    cases q.sp
    case host =>
      have : ((s.putLine lk l).lineOf q.line).dirtyHost = (s.lineOf q.line).dirtyHost := by
        rw [State.lineOf_putLine]
        split
        next e => rw [hd, e]
        next => rfl
      dsimp only
      rw [this]
      rfl
    all_goals rfl
  fibres := rfl
  fills := rfl
  unwatched _ := rfl
  calm k := by
    rw [State.lineOf_putLine]
    split
    · exact hl
    · exact h k

/-- Contexts change, and keep their descriptors. -/
theorem State.keepsMemory_ctxs {t : Tab Ctx} (ht : ∀ c, (Tab.get t c).map Ctx.d = (Tab.get s.ctxs c).map Ctx.d) : s.KeepsMemory { s with ctxs := t } where
  bytes _ := rfl
  fibres := rfl
  fills := rfl
  unwatched c := by
    rw [State.unwatched_eq, State.unwatched_eq, State.ctx, ht c]
    rfl
  calm := h

theorem State.keepsMemory_bump (ctx core i n : Nat) : s.KeepsMemory (s.bump ctx core i n) :=
  State.keepsMemory_of_rfl h (funext fun q => s.rawByte_bump ctx core i n q) rfl rfl rfl rfl

omit h in
/-- A line in no update state is not merged. -/
theorem State.merge_calm {lk : Nat} (hl : (s.lineOf lk).isCalm) (found : Nat) : s.merge lk found = s := by
  unfold State.merge
  dsimp only
  rw [hl.1]

omit h in
/-- A read of a line without an error finds none. -/
theorem State.readCheck_calm {p : PA} (hl : (s.lineOf p.line).isCalm) (n found : Nat) : s.readCheck p n found = (false, s) := by
  obtain ⟨-, hhidden, hpoison⟩ := hl
  unfold State.readCheck
  simp [hhidden, hpoison]

/-- A calm line has no partial to evict, and no slot is merged for one. -/
theorem State.evictPartial_calm (lk core : Nat) : s.evictPartial lk core = s := by
  unfold State.evictPartial
  extract_lets cl has s1 l
  have hs1 : s1 = s := by
    unfold s1
    split
    · rfl
    · split
      · exact State.merge_calm (h _) 6
      · rfl
  have hl : l.upd = none := by
    unfold l
    rw [hs1]
    exact (h lk).1
  rw [hl]
  exact hs1

theorem State.keepsMemory_evictLine (lk core : Nat) : s.KeepsMemory (s.evictLine lk core) := by
  unfold State.evictLine
  rw [State.evictPartial_calm h]
  exact State.keepsMemory_putLine h (h lk) rfl

theorem State.keepsMemory_evictOne (core : Nat) : s.KeepsMemory (s.evictOne core) := by
  unfold State.evictOne
  dsimp only
  split
  · exact State.keepsMemory_evictLine h _ _
  · exact State.keepsMemory_segLines h _

theorem State.keepsMemory_makeRoom (ctx core : Nat) : s.KeepsMemory (s.makeRoom ctx core).2 := by
  unfold State.makeRoom
  dsimp only
  split
  · exact State.keepsMemory_evictOne h core
  · exact State.keepsMemory_refl h

/-- The install of a copy: the line keeps its bytes whatever leaves the cache for it. -/
theorem State.keepsMemory_install (ctx core lk till : Nat) (ok counts : Bool) : s.KeepsMemory (s.install ctx core lk till ok counts) := by
  unfold State.install
  extract_lets s1 _ s2
  have h1 : s.KeepsMemory s1 := by
    show s.KeepsMemory (if _ then _ else _)
    split
    · exact State.keepsMemory_bump h _ _ _ _
    · exact State.keepsMemory_refl h
  have h2 : s.KeepsMemory s2 := h1.keep (State.keepsMemory_putLine h1.calm (h1.calm lk) rfl)
  have h3 := h2.keep (State.keepsMemory_makeRoom h2.calm ctx core)
  split
  · exact h1
  · exact h3.keep (State.keepsMemory_putLine h3.calm (h3.calm lk) rfl)

theorem State.keepsMemory_grant (ag : Agent) (p : PA) (ts : Nat) (ok miss : Bool) : s.KeepsMemory (s.grant ag p ts ok miss) := by
  unfold State.grant
  extract_lets l s1
  have h1 : s.KeepsMemory s1 := State.keepsMemory_putLine h (h p.line) rfl
  split
  · split
    · exact h1.keep (State.keepsMemory_install h1.calm _ _ _ _ _ _)
    · exact h1
  · exact h1

omit h in
/-- No access log watches: nothing is logged (R417). -/
theorem State.logAccess_unwatched {ag : Agent} (hu : s.unwatched ag.ctx = true) (ts va n : Nat) : s.logAccess ag ts va n = s := by
  unfold State.logAccess
  unfold State.unwatched at hu
  cases hc : s.ctx ag.ctx with
  | none => rfl
  | some c =>
    rw [hc] at hu
    dsimp only at hu ⊢
    rw [List.isEmpty_iff.mp hu]
    rfl

theorem State.keepsMemory_putCtx {ctx : Nat} {c c' : Ctx} (hc : s.ctx ctx = some c) (hd : c'.d = c.d) : s.KeepsMemory (s.putCtx ctx c') :=
  State.keepsMemory_ctxs h fun k => by
    rw [Tab.get_set]
    split
    next e =>
      rw [← e, show Tab.get s.ctxs ctx = some c from hc, Option.map_some, Option.map_some, hd]
    next => rfl

theorem State.keepsMemory_countAccess (ag : Agent) (va : Nat) (p : PA) : s.KeepsMemory (s.countAccess ag va p) := by
  unfold State.countAccess
  split
  · exact State.keepsMemory_refl h
  next hc =>
    split
    · exact State.keepsMemory_refl h
    · exact State.keepsMemory_putCtx h hc rfl

theorem State.keepsMemory_countBacking (ag : Agent) (p : PA) : s.KeepsMemory (s.countBacking ag p) := by
  unfold State.countBacking
  split
  · exact State.keepsMemory_refl h
  · extract_lets
    split
    · exact State.keepsMemory_countAccess h _ _ _
    · exact State.keepsMemory_refl h

/-- What an access notes of itself when it is made: nothing in the log, a count in the migration counters. -/
theorem State.keepsMemory_noted {ag : Agent} (hu : s.unwatched ag.ctx = true) (ts va n : Nat) (p : PA) :
    s.KeepsMemory ((s.logAccess ag ts va n).countAccess ag va p) := by
  rw [State.logAccess_unwatched hu]
  exact State.keepsMemory_countAccess h _ _ _

/-- A load of a line that no first-level cache holds reads its bytes of memory and leaves them (R137, R139). -/
theorem State.readAt_calm {ag : Agent} {p : PA} (va n : Nat) (hu : s.unwatched ag.ctx = true) (hc : (s.lineOf p.line).copies = []) :
    (s.readAt ag va p n).err = false ∧ (s.readAt ag va p n).data = s.rawRead p n ∧ s.KeepsMemory (s.readAt ag va p n).s := by
  unfold State.readAt
  extract_lets l hit s1 s2
  have hhit : hit = none := by
    unfold hit
    split
    · split
      · unfold l; rw [hc]; rfl
      · rfl
    · rfl
  rw [hhit]
  have h1 : s.KeepsMemory s1 := State.keepsMemory_accesses h _
  have hs2 : s2 = s1 := State.merge_calm (h1.calm p.line) _
  dsimp only
  rw [hs2, State.readCheck_calm (h1.calm p.line)]
  dsimp only
  generalize max ag.ts (s1.lineOf p.line).wts = ts
  have h2 := h1.keep (State.keepsMemory_grant h1.calm ag p ts (!false) (l.excl != ag.core))
  refine ⟨rfl, List.map_congr_left fun i _ => h2.bytes _, h2.keep (State.keepsMemory_noted h2.calm ?_ _ _ _ _)⟩
  rw [h2.unwatched]
  exact hu

end

/-! ### The loads of page walks (R115) -/

/-- Lines differ in their leases only. -/
def State.leasesOnly (s t : State) : Prop := ∀ lk, ∃ n, t.lineOf lk = { s.lineOf lk with rts := n }

theorem State.leasesOnly_refl (s : State) : s.leasesOnly s := fun _ => ⟨_, rfl⟩
theorem State.leasesOnly.trans {s t u : State} (h1 : s.leasesOnly t) (h2 : t.leasesOnly u) : s.leasesOnly u := fun lk => by
  obtain ⟨a, ha⟩ := h1 lk
  obtain ⟨b, hb⟩ := h2 lk
  exact ⟨b, hb.trans (by rw [ha])⟩

theorem State.countAccess_lines (s : State) (ag : Agent) (va : Nat) (p : PA) : (s.countAccess ag va p).lines = s.lines := by
  unfold State.countAccess
  split
  · rfl
  · split <;> rfl
theorem State.countBacking_lines (s : State) (ag : Agent) (p : PA) : (s.countBacking ag p).lines = s.lines := by
  unfold State.countBacking
  split
  · rfl
  · extract_lets
    split
    · exact State.countAccess_lines _ _ _ _
    · rfl

/-- What the loads of walks leave of a calm device: no error, and of its lines only leases changed. -/
structure State.Walked (s : State) (r : Acc) : Prop where
  err : r.err = false
  keeps : s.KeepsMemory r.s
  leases : s.leasesOnly r.s

theorem State.Walked.trans {s : State} {r q : Acc} (h1 : s.Walked r) (h2 : r.s.Walked q) : s.Walked q :=
  ⟨h2.err, h1.keeps.keep h2.keeps, h1.leases.trans h2.leases⟩

/-- One entry's load. -/
theorem State.walked_entry {s : State} (h : s.linesCalm) (ag : Agent) (p : PA) (n ts : Nat) :
    s.Walked ⟨(s.putLine p.line { s.lineOf p.line with rts := n }).countBacking ag p, ts, [], false⟩ := by
  have h1 : s.KeepsMemory (s.putLine p.line { s.lineOf p.line with rts := n }) := State.keepsMemory_putLine h (h p.line) rfl
  refine ⟨rfl, h1.keep (State.keepsMemory_countBacking h1.calm ag p), fun lk => ?_⟩
  dsimp only
  unfold State.lineOf
  rw [State.countBacking_lines]
  show ∃ m, State.lineOf (State.putLine _ _ _) lk = _
  rw [State.lineOf_putLine]
  split
  next e => exact ⟨n, by rw [← e]⟩
  next => exact ⟨_, rfl⟩

theorem State.walked_walkLoads {s : State} (h : s.linesCalm) (ag : Agent) (va : Nat) : s.Walked (s.walkLoads ag va) := by
  unfold State.walkLoads
  refine List.foldlRecOn _ _ (motive := s.Walked) ⟨rfl, State.keepsMemory_refl h, s.leasesOnly_refl⟩ fun r hr p _ => hr.trans ?_
  dsimp only
  rw [State.merge_calm (hr.keeps.calm _), State.readCheck_calm (hr.keeps.calm _), hr.err]
  exact State.walked_entry hr.keeps.calm ag p _ _

/-- The walks of a lane's access in a calm device: no error is found, and but for the lane's stamp the state is as `Walked` has it. -/
theorem State.laneWalks_calm {s : State} (h : s.linesCalm) {k : Nat} {f : Fibre} (hf : s.fibre k = some f) (kind : Nat) (l : List Spot) :
    ∃ (u : State) (ts : Nat), s.KeepsMemory u ∧ s.leasesOnly u ∧ s.laneWalks k kind l = (u.setStamp k ts, false) := by
  unfold State.laneWalks
  rw [hf]
  dsimp only
  generalize hfold : List.foldl _ _ l = r
  have hr : s.Walked r := by
    rw [← hfold]
    refine List.foldlRecOn _ _ (motive := s.Walked) ⟨rfl, State.keepsMemory_refl h, s.leasesOnly_refl⟩ fun r hr x _ => hr.trans ?_
    obtain ⟨herr, hkeeps, hleases⟩ := State.walked_walkLoads hr.keeps.calm { f.agent kind with ts := r.ts } x.va
    exact ⟨by rw [hr.err, herr]; rfl, hkeeps, hleases⟩
  rw [hr.err]
  exact ⟨r.s, r.ts, hr.keeps, hr.leases, rfl⟩

theorem State.setStamp_eq {s : State} {k : Nat} {f : Fibre} (hf : s.fibre k = some f) (ts : Nat) :
    s.setStamp k ts = s.putFibre { f with stamp := max f.stamp ts } := by
  unfold State.setStamp State.modFibre
  rw [hf]

/-! ### Registers that an access fills (R50, R71) -/

/-- Data of a load reach the frame that issued it as one fill, and memory stays. -/
theorem loadInto_fills {f : Fibre} {m : MemLane} {op : Nat} {loc2 : Bool} {r : Acc} {vals : List Byte → List Word} (he : r.err = false)
    (hf : r.s.fibre f.key = some f) :
    (loadInto f m op loc2 r vals).fills = r.s.fills ++
        [{ fibre := f.key, frame := m.frame, reg := m.reg, n := (vals r.data).length, vals := vals r.data, producer := op, loc2 := loc2 }] ∧
      ∀ q, (loadInto f m op loc2 r vals).rawByte q = r.s.rawByte q := by
  unfold loadInto
  rw [he, if_neg Bool.false_ne_true, State.setStamp_eq hf]
  unfold State.fillInto
  rw [State.fibre_putFibre, if_pos rfl]
  dsimp only
  split
  next hframe =>
    unfold State.fillFor
    rw [State.fibre_putFibre, if_pos rfl, ← hframe]
    exact ⟨rfl, fun _ => rfl⟩
  next => exact ⟨rfl, fun _ => rfl⟩

/-- The sentence's going on changes neither the fills on their way nor memory. -/
theorem State.goOn_memory (s : State) (g : Group) : (s.goOn g).fills = s.fills ∧ ∀ q, (s.goOn g).rawByte q = s.rawByte q := by
  have hc : (s.counted g).fills = s.fills ∧ ∀ q, (s.counted g).rawByte q = s.rawByte q := by
    unfold State.counted
    split
    · exact ⟨rfl, s.rawByte_bump _ _ _ _⟩
    · exact ⟨rfl, fun _ => rfl⟩
  unfold State.goOn
  dsimp only
  rw [State.putFibres_eq]
  exact hc

/-- The end of an instruction of one lane whose access answers data: one fill more is on its way, and memory is as the access leaves it. -/
theorem loadInto_goOn {s : State} {f : Fibre} {m : MemLane} {op : Nat} {loc2 : Bool} {r : Acc} {vals : List Byte → List Word} {mem : PA → Byte}
    (he : r.err = false) (hf : s.fibre f.key = some f) (ha : s.AfterAccess r.s mem) (g : Group) :
    ((loadInto f m op loc2 r vals).goOn g).fills = s.fills ++
        [{ fibre := f.key, frame := m.frame, reg := m.reg, n := (vals r.data).length, vals := vals r.data, producer := op, loc2 := loc2 }] ∧
      ∀ q, ((loadInto f m op loc2 r vals).goOn g).rawByte q = mem q := by
  have hr : r.s.fibre f.key = some f := by rw [State.fibre, ha.fibres]; exact hf
  obtain ⟨hfills, hbytes⟩ := loadInto_fills (m := m) (op := op) (loc2 := loc2) (vals := vals) he hr
  obtain ⟨hgfills, hgbytes⟩ := (loadInto f m op loc2 r vals).goOn_memory g
  exact ⟨by rw [hgfills, hfills, ha.fills], fun q => by rw [hgbytes, hbytes, ha.bytes]⟩

theorem rawRead_length (s : State) (p : PA) (n : Nat) : (s.rawRead p n).length = n := by
  simp [State.rawRead]

theorem wordsOf_length (bs : List Byte) (h : bs.length % 4 = 0) : (wordsOf bs).length = bs.length / 4 := by
  induction bs using wordsOf.induct with
  | case1 a b c d r ih =>
    simp only [List.length_cons] at h ⊢
    rw [wordsOf, List.length_cons, ih (by omega)]
    omega
  | case2 => rfl
  | case3 r hlong hshort =>
    match r with
    | [] => exact absurd rfl hshort
    | [_] | [_, _] | [_, _, _] => simp at h
    | a :: b :: c :: d :: r => exact absurd rfl (hlong a b c d r)

/-- A load of a width fills the registers of its width (R277). -/
theorem loadWords_length (m : BitVec 6) (signExt : Bool) (bs : List Byte) (h : bs.length = widthBytes m) :
    (loadWords (widthBytes m) signExt bs).length = max 1 (widthBytes m / 4) := by
  unfold loadWords
  by_cases hw : widthBytes m < 4
  · rw [if_pos hw, Nat.div_eq_of_lt hw]
    rfl
  · rw [if_neg hw]
    have hm : widthBytes m % 4 = 0 := by
      unfold widthBytes at hw ⊢
      obtain ⟨k, hk⟩ : ∃ k, modBits m 0 3 = k + 2 := Nat.exists_eq_add_of_le' (by
        by_contra hlt
        have : modBits m 0 3 = 0 ∨ modBits m 0 3 = 1 := by omega
        rcases this with e | e <;> simp [e] at hw)
      rw [hk, pow_add]
      omega
    rw [wordsOf_length bs (h ▸ hm), h]
    omega

theorem State.rawRead_congr {s t : State} (h : ∀ q, t.rawByte q = s.rawByte q) (p : PA) (n : Nat) : t.rawRead p n = s.rawRead p n :=
  List.map_congr_left fun _ _ => h _

/-! ### One lane's access -/

theorem State.onFibre_some {s : State} {m : MemLane} {k : Nat} {f : Fibre} (hk : m.key = k) (h : s.fibre k = some f) (act : Fibre → State) :
    s.onFibre m act = some (act f) := by
  unfold State.onFibre
  rw [hk, h]

/-- A memory instruction of one lane, its walks and its access made. -/
theorem accessesThrough_single {op : Nat} {i : Instr} {o : GOp} {keepsOut : Bool} {check : State → Fibre → Plan} {joint : List MemLane → Prop}
    {far : State → MemLane → Bool} {perform : List MemLane → State → MemLane → Option State} {after : State → Group → List MemLane → State}
    (hx : accessesThrough op i o keepsOut check joint far perform after) {s t u : State} {g : Group} {f : Fibre} {m : MemLane}
    (hreach : g.reaches s op o keepsOut check fun _ => m) (hfs : g.fs = [f]) (hgd : f.guard o.guard = true) (hin : (f.helper && keepsOut) = false)
    (hj : joint [m]) (hkey : m.key = f.key) (hw : s.laneWalks f.key 0 m.spots = (t, false)) (hp : perform [m] t m = some u) :
    exec i s = .next ((after u g [m]).goOn g) := by
  have hms : g.reaching o.guard keepsOut = [f] := by
    unfold Group.reaching
    rw [hfs, List.filter_cons_of_pos (by rw [hgd, hin]; rfl), List.filter_nil]
  have := hx s g (fun _ => m) u hreach
  rw [hms, hfs, List.filter_cons_of_neg (by simp [hin]), List.filter_nil] at this
  refine this hj ?_
  simp [State.putFibres, accessesInOrder, hkey, hw, hp]

/-- The walks of a lane's access in a calm device leave the lane with a later stamp, and memory and lines as they were but for leases. -/
theorem State.laneWalks_fibre {s : State} (h : s.linesCalm) {f : Fibre} (hf : s.fibre f.key = some f) (l : List Spot) :
    ∃ (t : State) (ts : Nat), s.laneWalks f.key 0 l = (t, false) ∧ t.fibre f.key = some { f with stamp := ts } ∧ t.linesCalm ∧ s.leasesOnly t ∧
      t.fills = s.fills ∧ (∀ ctx, t.unwatched ctx = s.unwatched ctx) ∧ ∀ q, t.rawByte q = s.rawByte q := by
  obtain ⟨u, ts, hkeep, hleases, hw⟩ := State.laneWalks_calm h hf 0 l
  have hu : u.fibre f.key = some f := by rw [State.fibre, hkeep.fibres]; exact hf
  rw [State.setStamp_eq hu] at hw
  exact ⟨_, _, hw, (State.fibre_putFibre _ _ _).trans (if_pos rfl), hkeep.calm, hleases, hkeep.fills, hkeep.unwatched, hkeep.bytes⟩

/-! ### Loads read memory (O31) -/

/-- A load at one place of memory (R137, R147). -/
theorem State.loadSpots_mem {s : State} (h : s.linesCalm) (w : Who) {ag : Agent} {p : PA} (loc va n : Nat) (hu : s.unwatched ag.ctx = true)
    (hc : (s.lineOf p.line).copies = []) :
    (s.loadSpots w ag [⟨.mem p loc, va, n⟩]).err = false ∧ (s.loadSpots w ag [⟨.mem p loc, va, n⟩]).data = s.rawRead p n ∧
      s.KeepsMemory (s.loadSpots w ag [⟨.mem p loc, va, n⟩]).s := by
  unfold State.loadSpots State.loadSpot
  simp only [List.foldl_cons, List.foldl_nil, List.nil_append, Bool.false_or]
  split
  · exact ⟨rfl, rfl, State.keepsMemory_refl h⟩
  · exact State.readAt_calm h va n hu hc

/-- A load's lane, its checks passed. The check is taken apart as a constant first: the kernel, given it applied, would compute the address's checks. -/
theorem ldCheck_act {s : State} {o : GOp} {f : Fibre} {m : MemLane} (h : ldCheck s o f = .act m) :
    m.key = f.key ∧ m.frame = f.top.addr ∧ m.reg = o.dst.num := by
  obtain ⟨check, hcheck⟩ : ∃ check, check = ldCheck := ⟨_, rfl⟩
  rw [← hcheck] at h
  delta ldCheck at hcheck
  subst hcheck
  dsimp only at h
  generalize s.laneAccess f (effAddr f o) (widthBytes o.mod) (min (widthBytes o.mod) 4) false = x at h
  cases x with
  | error e => cases h
  | ok l =>
    dsimp only at h
    generalize (if anyView l then viewFault (effAddr f o).toNat (widthBytes o.mod) else none) = y at h
    cases y with
    | some e => cases h
    | none =>
      obtain rfl := Plan.act.inj h
      exact ⟨rfl, rfl, rfl⟩

theorem accessesThrough_ld (o : GOp) : accessesThrough 0x280 (.ld o) o false (fun s f => ldCheck s o f) (fun _ => True) noFar
    (fun _ s m => ldPerform o s m none) (fun s _ _ => s) :=
  accessesThrough_runMem (a := ldAct o) (fun _ => rfl) rfl (fun _ _ _ => rfl) rfl (fun _ _ _ => rfl) fun _ _ _ => rfl

/-- What a lane of a group of one that reaches its access has passed. -/
theorem Group.reaches_single {g : Group} {s : State} {op : Nat} {o : GOp} {keepsOut : Bool} {check : State → Fibre → Plan} {m : MemLane} {f : Fibre}
    (h : g.reaches s op o keepsOut check fun _ => m) (hfs : g.fs = [f]) (hgd : f.guard o.guard = true) (hin : (f.helper && keepsOut) = false) :
    check s f = .act m := by
  obtain ⟨-, -, -, -, hlane, -⟩ := h
  obtain ⟨-, hcheck, -⟩ := hlane f (List.mem_filter.mpr ⟨by rw [hfs]; exact List.mem_singleton_self f, by rw [hgd, hin]; rfl⟩)
  exact hcheck

/-- Settles O31: the walks leave memory and the line's copies, none being there the load reads memory, and its words are the one new fill. -/
theorem loadReadsMemory : Obligations.LoadReadsMemory := by
  intro o s g f p loc va m hreach hfs hgd hf hspots hcalm _ hunwatched hcopies
  obtain ⟨hkey, hframe, hreg⟩ := ldCheck_act (Group.reaches_single hreach hfs hgd (Bool.and_false _))
  obtain ⟨t, ts, hwalks, htf, htcalm, hleases, htfills, htunwatched, htbytes⟩ :=
    State.laneWalks_fibre (State.linesCalm_of_calm hcalm) hf m.spots
  have htcopies : (t.lineOf p.line).copies = [] := by
    obtain ⟨n, hline⟩ := hleases p.line
    rw [hline]
    exact hcopies
  obtain ⟨herr, hdata, hkeeps⟩ := State.loadSpots_mem htcalm (t.who { f with stamp := ts }) (ag := Fibre.agent { f with stamp := ts } 0) loc va
    (widthBytes o.mod) ((htunwatched f.ctx).trans hunwatched) htcopies
  rw [← hspots] at herr hdata hkeeps
  have hperform := (ldPerform_here o t m).trans (State.onFibre_some hkey htf _)
  obtain ⟨hfills, hbytes⟩ := loadInto_goOn (f := { f with stamp := ts }) (m := m) (op := 0x280) (loc2 := anyLoc2 m.spots)
    (vals := loadWords (widthBytes o.mod) (bitOf o.mod.toNat 3)) herr htf hkeeps g
  refine ⟨_, accessesThrough_single (accessesThrough_ld o) hreach hfs hgd (Bool.and_false _) trivial hkey hwalks hperform, hfills.trans ?_,
    fun q => (hbytes q).trans (htbytes q)⟩
  rw [htfills, hdata, State.rawRead_congr htbytes, loadWords_length _ _ _ (rawRead_length s p _), hframe, hreg, hspots]
  simp only [anyLoc2, List.any_cons, List.any_nil, Bool.or_false]

/-! ### Read-modify-writes (O34) -/

/-- The plans of a group that reaches its accesses: each lane that passes makes its own, a helper kept out is zeroed. -/
theorem Group.reaches_plan {g : Group} {s : State} {op : Nat} {o : GOp} {keepsOut : Bool} {check : State → Fibre → Plan} {m : Fibre → MemLane}
    {r : GRow} (h : g.reaches s op o keepsOut check m) (hr : gRow op = some r) {f : Fibre} (hf : f ∈ g.fs) :
    memPlan s o keepsOut (fun f => s.preG f op o r .go) (check s) f = reachPlan o.guard keepsOut m f := by
  obtain ⟨-, -, -, -, hlane, -⟩ := h
  refine memPlan_reaching fun hgd hk => ?_
  obtain ⟨hclear, hcheck, -⟩ := hlane f (List.mem_filter.mpr ⟨hf, by simp [hgd, hk]⟩)
  exact ⟨State.clearLane_go hclear hr, hcheck⟩

/-- A memory instruction run in a group that reaches its accesses makes them in order and goes on, by whatever instruction it is run: `exec` of an
ATOMX runs it in the state that its registration check leaves. -/
theorem runMem_reached {op : Nat} {i : Instr} {o : GOp} {keepsOut : Bool} {check : State → Fibre → Plan}
    {jointF : State → List MemLane → List (Nat × FaultInfo)} {a : MemAct} {after : State → Group → List MemLane → State} {s t : State} {g : Group}
    {m : Fibre → MemLane} (hrow : (gRow op).isSome = true) (h : g.reaches s op o keepsOut check m)
    (hj : jointF s ((g.reaching o.guard keepsOut).map m) = [])
    (hacc : accessesInOrder a.far (fun s x => a.perform s ((g.reaching o.guard keepsOut).map m) x none) ((g.reaching o.guard keepsOut).map m) false
      (s.putFibres ((g.fs.filter fun f => f.guard o.guard && (f.helper && keepsOut)).map (zeroOf op o))) = some t) :
    runMem op o s i keepsOut check jointF a after = .next ((after t g ((g.reaching o.guard keepsOut).map m)).goOn g) := by
  obtain ⟨r, hr⟩ := Option.isSome_iff_exists.mp hrow
  have hplan : ∀ f ∈ g.fs, _ := fun f hf => Group.reaches_plan h hr hf
  have hzero : (fun f => Fibre.zeroDst f o r) = zeroOf op o := funext fun f => (zeroOf_row hr f).symm
  obtain ⟨hg, hd, hw, hn, hlane, hfree⟩ := h
  have hlanes : ∀ x ∈ (g.reaching o.guard keepsOut).map m, s.laneBusy x = false ∧ x.spots.any Spot.isPeer = false := fun x hx => by
    obtain ⟨f, hf, rfl⟩ := List.mem_map.mp hx
    obtain ⟨-, -, -, -, hbusy, hhere⟩ := hlane f hf
    exact ⟨hbusy, hhere⟩
  unfold runMem
  rw [hg, hr]
  dsimp only
  rw [hzero]
  rw [State.memRun_through (acts := (g.reaching o.guard keepsOut).map m)
    (zeros := (g.fs.filter fun f => f.guard o.guard && (f.helper && keepsOut)).map (zeroOf op o)) hw hd hn ?plans ?acts ?zeros hj]
  case plans =>
    intro f hf
    dsimp only
    rw [hplan f hf]
    unfold reachPlan
    cases hgd : f.guard o.guard <;> cases hk : f.helper && keepsOut
    case true.false =>
      obtain ⟨-, -, -, hhold, -, hhere⟩ := hlane f (List.mem_filter.mpr ⟨hf, by simp [hgd, hk]⟩)
      exact .inr (.inr ⟨_, rfl, hhold, hhere⟩)
    case true.true =>
      rw [Bool.and_eq_true] at hk
      exact .inr (.inl ⟨rfl, by simpa [helperHolds, hgd, hk.1] using List.all_eq_true.mp (hfree hk.2) f hf⟩)
    all_goals exact .inl rfl
  case acts =>
    refine Eq.trans (List.filterMap_congr fun f hf => ?_) filterMap_reaching
    dsimp only
    rw [hplan f hf]
    unfold reachPlan
    cases f.guard o.guard <;> cases f.helper && keepsOut <;> rfl
  case zeros =>
    refine Eq.trans (List.filterMap_congr fun f hf => ?_) filterMap_keptOut
    dsimp only
    rw [hplan f hf]
    unfold reachPlan
    cases f.guard o.guard <;> cases f.helper && keepsOut <;> rfl
  dsimp only
  rw [State.runIssue_all (fun x hx => (State.laneBusy_putFibres s _ x).trans (hlanes x hx).1) (fun x hx => (hlanes x hx).2) hacc]

/-- ATOM, ATOM64 and CAS2 share one shape (R154, R285, R286). -/
theorem accessesThrough_atomAct {op : Nat} {i : Instr} {o : GOp} {check : State → Fibre → Plan}
    (hx : ∀ s, exec i s = runMem op o s i true check noJoint (atomAct op i) noAfter) (hrow : (gRow op).isSome = true) :
    accessesThrough op i o true check (fun _ => True) atomFar (fun _ s m => atomPerform op i s m none) (fun s _ _ => s) :=
  accessesThrough_runMem hx hrow (fun _ _ _ => rfl) rfl (fun _ _ _ => rfl) fun _ _ _ => rfl

/-- One lane's ATOMX on this device: a request to the banker of its line's home (R287). -/
def atomxHere (o : GOp) (s : State) (m : MemLane) : Option State := match s.fibre m.key, m.acc, firstPlace m.spots with
  | some f, .rmw r, .mem p _ => s.goFar (.atomx o) f m p r
  | _, _, _ => some s

theorem atomxAct_perform (o : GOp) (s : State) (ms : List MemLane) (m : MemLane) : (atomxAct o).perform s ms m none = atomxHere o s m := by
  unfold atomxAct atomxHere
  dsimp only
  cases s.fibre m.key with
  | none => rfl
  | some f => cases m.acc with
    | rmw r => cases firstPlace m.spots <;> rfl
    | _ => rfl

/-- Settles O34: the first four are memory instructions with no joint fault; ATOMX is one in the state that its registration check leaves. -/
theorem readModifyWritesComplete : Obligations.ReadModifyWritesComplete := by
  intro o none? atomics
  refine ⟨accessesThrough_atomAct (fun _ => rfl) rfl, accessesThrough_atomAct (fun _ => rfl) rfl, accessesThrough_atomAct (fun _ => rfl) rfl,
    accessesThrough_runMem (a := redAct o) (fun _ => rfl) rfl (fun _ _ _ => rfl) rfl (fun _ _ _ => rfl) fun _ _ _ => rfl,
    fun s u g m t hxop hreach hacc => ?_⟩
  have hexec : exec (.atomx o) s = runMem 0x30B o u (.atomx o) true (fun s f => atomxCheck s o f) noJoint (atomxAct o) noAfter := by
    show execAtomx o s = _
    unfold execAtomx
    rw [hxop]
  rw [hexec]
  refine runMem_reached rfl hreach rfl ?_
  simp only [atomxAct_perform]
  exact hacc

/-! ### Bytes written in memory -/

theorem leBytes_length (n x : Nat) : (leBytes n x).length = n := by
  induction n generalizing x with
  | zero => rfl
  | succ n ih => rw [leBytes, List.length_cons, ih]

theorem ofBytes_leBytes (n x : Nat) : ofBytes (leBytes n x) = x % 256 ^ n := by
  induction n generalizing x with
  | zero => simp [leBytes, ofBytes, Nat.mod_one]
  | succ n ih =>
    rw [leBytes, ofBytes, ih, BitVec.toNat_ofNat, pow_succ' 256 n]
    exact Nat.mod_mul.symm

theorem ofBytes_lt (bs : List Byte) : ofBytes bs < 256 ^ bs.length := by
  induction bs with
  | nil => exact Nat.one_pos
  | cons b r ih =>
    have hb := b.isLt
    rw [ofBytes, List.length_cons, pow_succ']
    omega

theorem Tab.get_tabWrite (m : Tab Byte) (a j : Nat) (bs : List Byte) :
    Tab.get (tabWrite m a bs) j = if a ≤ j ∧ j < a + bs.length then some (bs.getD (j - a) 0) else Tab.get m j := by
  induction bs generalizing m a with
  | nil => simp [tabWrite]
  | cons b r ih =>
    rw [tabWrite, ih, Tab.get_set]
    by_cases h1 : a = j
    · subst h1
      simp
    · rw [if_neg h1, List.length_cons]
      by_cases h2 : a + 1 ≤ j ∧ j < a + 1 + r.length
      · rw [if_pos h2, if_pos (by omega), show j - a = j - (a + 1) + 1 by omega, List.getD_cons_succ]
      · rw [if_neg h2, if_neg (by omega)]

/-- Memory with bytes written at a place. -/
def State.overwritten (s : State) (p : PA) (bs : List Byte) (q : PA) : Byte :=
  if q.among p bs.length then bs.getD (q.a - p.a) 0 else s.rawByte q

theorem PA.among_iff (q p : PA) (n : Nat) : q.among p n = true ↔ q.sp = p.sp ∧ p.a ≤ q.a ∧ q.a < p.a + n := by
  simp [PA.among, and_assoc]

theorem PA.line_host {q p : PA} (hq : q.sp = .host) (hp : p.sp = .host) : q.line = p.line ↔ q.a / 128 = p.a / 128 := by
  unfold PA.line
  rw [hq, hp]
  dsimp only
  omega

/-- Bytes put into a line's 128: they read back at their place, and the others stand (R469). -/
theorem getD_splice (old bs : List Byte) (off i : Nat) (hold : old.length = 128) (hfit : off + bs.length ≤ 128) :
    (old.take off ++ bs ++ old.drop (off + bs.length)).getD i 0 = if off ≤ i ∧ i < off + bs.length then bs.getD (i - off) 0 else old.getD i 0 := by
  simp only [List.getD_eq_getElem?_getD, List.getElem?_append, List.length_append, List.length_take, hold, min_eq_left (show off ≤ 128 by omega)]
  by_cases h1 : i < off
  · rw [if_pos (by omega), if_pos h1, if_neg (by omega), List.getElem?_take_of_lt h1]
  · by_cases h2 : i < off + bs.length
    · rw [if_pos h2, if_neg h1, if_pos (by omega)]
    · rw [if_neg h2, if_neg (by omega), List.getElem?_drop, show off + bs.length + (i - (off + bs.length)) = i by omega]

theorem rawRead_getD (s : State) (p : PA) (n i : Nat) (hi : i < n) : (s.rawRead p n).getD i 0 = s.rawByte { p with a := p.a + i } := by
  simp [State.rawRead, List.getD_eq_getElem?_getD, hi]

theorem State.overwritten_same {s : State} {p q : PA} (bs : List Byte) (h : q.sp = p.sp) :
    s.overwritten p bs q = if p.a ≤ q.a ∧ q.a < p.a + bs.length then bs.getD (q.a - p.a) 0 else s.rawByte q := by
  simp only [State.overwritten, PA.among_iff, h, true_and]

theorem State.rawByte_rawWrite_of_sp (s : State) {p q : PA} (bs : List Byte) (h : q.sp ≠ p.sp) : (s.rawWrite p bs).rawByte q = s.rawByte q := by
  unfold State.rawWrite State.rawByte
  cases hp : p.sp <;> cases hq : q.sp
  case dev.dev | host.host | sram.sram => exact absurd (hq.trans hp.symm) h
  all_goals rfl

theorem State.rawByte_rawWrite_dev (s : State) {p q : PA} (hp : p.sp = .dev) (hq : q.sp = .dev) (bs : List Byte) :
    (s.rawWrite p bs).rawByte q = if p.a ≤ q.a ∧ q.a < p.a + bs.length then bs.getD (q.a - p.a) 0 else s.rawByte q := by
  unfold State.rawWrite State.rawByte
  rw [hp, hq]
  exact cellRead_cellsWrite _ _ _ _

theorem State.rawByte_rawWrite_sram (s : State) {p q : PA} (hp : p.sp = .sram) (hq : q.sp = .sram) (bs : List Byte) :
    (s.rawWrite p bs).rawByte q = if p.a ≤ q.a ∧ q.a < p.a + bs.length then bs.getD (q.a - p.a) 0 else s.rawByte q := by
  unfold State.rawWrite State.rawByte State.sramByte
  rw [hp, hq]
  dsimp only
  rw [Tab.get_tabWrite]
  split <;> rfl

theorem State.rawByte_rawWrite_host (s : State) {p q : PA} (hp : p.sp = .host) (hq : q.sp = .host) {bs : List Byte}
    (hfit : p.a % 128 + bs.length ≤ 128) :
    (s.rawWrite p bs).rawByte q = if p.a ≤ q.a ∧ q.a < p.a + bs.length then bs.getD (q.a - p.a) 0 else s.rawByte q := by
  unfold State.rawWrite
  rw [hp, State.rawByte, hq]
  dsimp only
  rw [State.lineOf_putLine]
  by_cases hl : p.a / 128 = q.a / 128
  · have hbase : ({ sp := .host, a := p.a / 128 * 128 + q.a % 128 } : PA) = q := by rw [← hq, hl, Nat.div_add_mod']
    rw [if_pos ((PA.line_host hp hq).mpr hl)]
    dsimp only
    rw [getD_splice _ bs _ _ (rawRead_length _ _ _) hfit, rawRead_getD _ _ _ _ (Nat.mod_lt _ (by decide)), hbase]
    by_cases hin : p.a ≤ q.a ∧ q.a < p.a + bs.length
    · rw [if_pos (by omega), if_pos hin, show q.a % 128 - p.a % 128 = q.a - p.a by omega]
    · rw [if_neg (by omega), if_neg hin]
  · rw [if_neg fun e => hl ((PA.line_host hp hq).mp e), if_neg (by omega), State.rawByte, hq]
    rfl

/-- Bytes written within a line read back, and every other byte stands. -/
theorem State.rawByte_rawWrite (s : State) {p : PA} {bs : List Byte} (hfit : p.a % 128 + bs.length ≤ 128) (q : PA) :
    (s.rawWrite p bs).rawByte q = s.overwritten p bs q := by
  by_cases hsp : q.sp = p.sp
  case neg => rw [State.rawByte_rawWrite_of_sp s bs hsp, State.overwritten, if_neg fun hin => hsp ((PA.among_iff _ _ _).mp hin).1]
  rw [State.overwritten_same bs hsp]
  cases hp : p.sp with
  | dev => exact s.rawByte_rawWrite_dev hp (hsp.trans hp) bs
  | sram => exact s.rawByte_rawWrite_sram hp (hsp.trans hp) bs
  | host => exact s.rawByte_rawWrite_host hp (hsp.trans hp) hfit

theorem State.overwritten_congr {s t : State} {p : PA} {bs : List Byte} (h : ∀ q, t.rawByte q = s.rawByte q) :
    t.overwritten p bs = s.overwritten p bs := by
  funext q
  rw [State.overwritten, h]
  rfl

theorem State.rawRead_overwritten {s t : State} {p : PA} {bs : List Byte} (h : ∀ q, t.rawByte q = s.overwritten p bs q) :
    t.rawRead p bs.length = bs := by
  refine List.ext_getElem (rawRead_length _ _ _) fun i hi hi' => ?_
  simp [State.rawRead, h, State.overwritten_same, hi']

/-! ### Writes and read-modify-writes in a calm device (R139, R154) -/

section
variable {s : State} (h : s.linesCalm)
include h

theorem State.afterAccess_rawWrite {p : PA} {bs : List Byte} (hfit : p.a % 128 + bs.length ≤ 128) :
    s.AfterAccess (s.rawWrite p bs) (s.overwritten p bs) := by
  refine ⟨s.rawByte_rawWrite hfit, ?_, ?_, fun ctx => ?_, fun lk => ?_⟩
  all_goals unfold State.rawWrite
  · cases p.sp <;> rfl
  · cases p.sp <;> rfl
  · cases p.sp <;> rfl
  · cases p.sp
    case host =>
      dsimp only
      rw [State.lineOf_putLine]
      split
      · exact h p.line
      · exact h lk
    all_goals exact h lk

theorem State.keepsMemory_wake (lk : Nat) : s.KeepsMemory (s.wake lk) := by
  unfold State.wake
  split
  · exact State.keepsMemory_queues h _
  · exact State.keepsMemory_refl h

/-- Every context changes, and keeps its number and its descriptor. -/
theorem State.keepsMemory_mapCtxs {g : Nat × Ctx → Nat × Ctx} (hg : ∀ x, (g x).1 = x.1 ∧ (g x).2.d = x.2.d) :
    s.KeepsMemory { s with ctxs := s.ctxs.map g } := State.keepsMemory_ctxs h fun k => by
  induction s.ctxs with
  | nil => rfl
  | cons x r ih =>
    rw [List.map_cons, Tab.get, Tab.get, (hg x).1]
    split
    · exact congrArg some (hg x).2
    · exact ih

theorem State.keepsMemory_leafWritten (p : PA) (n : Nat) : s.KeepsMemory (s.leafWritten p n) := by
  unfold State.leafWritten
  split
  · exact State.keepsMemory_mapCtxs h fun _ => ⟨rfl, rfl⟩
  · exact State.keepsMemory_refl h

theorem State.keepsMemory_areaWrite (p : PA) : s.KeepsMemory (s.areaWrite p) := by
  unfold State.areaWrite
  split
  · exact State.keepsMemory_mapCtxs h fun _ => ⟨rfl, rfl⟩
  · exact State.keepsMemory_refl h

/-- The write of bytes within a line at its home. -/
theorem State.afterAccess_writeLine (ag : Agent) {p : PA} {bs : List Byte} (ts : Nat) (hfit : p.a % 128 + bs.length ≤ 128) :
    s.AfterAccess (s.writeLine ag p ts bs) (s.overwritten p bs) := by
  unfold State.writeLine
  extract_lets l there full s1 l1 w s2 s3
  have hs1 : s1 = s := if_neg fun hidden => hidden.1 (h p.line).2.1
  have hl1 : l1.isCalm := by
    unfold l1
    rw [hs1]
    exact h p.line
  have h2 : s.KeepsMemory s2 := by
    unfold s2
    rw [hs1]
    refine State.keepsMemory_putLine h ⟨hl1.1, ?_, ?_⟩ ?_
    · exact (congrArg (ite _ _) hl1.2.1).trans (ite_self 0)
    · unfold w Line.written
      simp [hl1.2.2]
    · unfold w l1
      rw [hs1]
      rfl
  have h3 : s.AfterAccess s3 (s.overwritten p bs) := by
    rw [← State.overwritten_congr h2.bytes]
    have hwritten := h2.trans (State.afterAccess_rawWrite h2.calm hfit)
    have hwoken := hwritten.keep (State.keepsMemory_wake hwritten.calm p.line)
    have hleaf := hwoken.keep (State.keepsMemory_leafWritten hwoken.calm p bs.length)
    exact hleaf.keep (State.keepsMemory_areaWrite hleaf.calm p)
  clear_value s3
  split
  · split
    · exact h3.keep (State.keepsMemory_install h3.calm _ _ _ _ _ _)
    · exact h3
  · exact h3

theorem State.afterAccess_writeHome {ag : Agent} (va : Nat) {p : PA} {bs : List Byte} (ts : Nat) (hu : s.unwatched ag.ctx = true)
    (hfit : p.a % 128 + bs.length ≤ 128) : s.AfterAccess (s.writeHome ag va p ts bs) (s.overwritten p bs) := by
  have hline := State.afterAccess_writeLine h ag ts hfit
  exact hline.keep (State.keepsMemory_noted hline.calm ((hline.unwatched _).trans hu) _ _ _ _)

/-- A read-modify-write within a line answers the bytes that it finds and leaves its result in their place. -/
theorem State.rmwAt_calm {ag : Agent} {p : PA} (va n : Nat) {k : List Byte → List Byte} (hu : s.unwatched ag.ctx = true)
    (hfit : p.a % 128 + (k (s.rawRead p n)).length ≤ 128) :
    (s.rmwAt ag va p n k).err = false ∧ (s.rmwAt ag va p n k).data = s.rawRead p n ∧
      s.AfterAccess (s.rmwAt ag va p n k).s (s.overwritten p (k (s.rawRead p n))) := by
  have h1 : s.KeepsMemory { s with accesses := s.accesses + 1 } := State.keepsMemory_accesses h _
  unfold State.rmwAt
  dsimp only
  rw [State.merge_calm (h1.calm p.line), State.readCheck_calm (h1.calm p.line)]
  exact ⟨rfl, rfl, h1.trans (State.afterAccess_writeHome h1.calm va _ hu hfit)⟩

end

/-! ### A 32-bit atomic on a line that its core holds (O35) -/

/-- A read-modify-write's lane, its checks passed. The check is taken apart as a constant first: the kernel, given it applied, would compute the
address's checks. -/
theorem rmwCheck_act {s : State} {d : Dst} {r : Rmw} {a : DWord} {f : Fibre} {m : MemLane} (h : rmwCheck s d r a f = .act m) :
    ∃ l, m = s.rmwLane f d a l r := by
  obtain ⟨check, hcheck⟩ : ∃ check, check = rmwCheck := ⟨_, rfl⟩
  rw [← hcheck] at h
  delta rmwCheck at hcheck
  subst hcheck
  dsimp only at h
  generalize s.laneAccess f a (rmwSize r) (rmwSize r) true = x at h
  cases x with
  | error e => cases h
  | ok l =>
    refine ⟨l, ?_⟩
    dsimp only at h
    generalize firstPlace l = q at h
    cases q with
    | mem p loc =>
      dsimp only at h
      split at h
      · cases h
      · exact (Plan.act.inj h).symm
    | view v base size off loc => cases h
    | _ => exact (Plan.act.inj h).symm

/-- An atomic on device memory whose line its core holds is made there (R154). -/
theorem atomPerform_near {op : Nat} {i : Instr} {s : State} {m : MemLane} {f : Fibre} {r : Rmw} {p : PA} {k : Nat} (hk : m.key = k)
    (hf : s.fibre k = some f) (hacc : m.acc = .rmw r) (hp : firstPlace m.spots = .mem p 0) (hx : (s.lineOf p.line).excl = some f.core) (hcnt : m.cnt ≠ 0) :
    atomPerform op i s m none = some (loadInto f m op false (s.rmwAt (f.agent 2) m.va.toNat p (rmwSize r) (rmwApply r)) wordsOf) := by
  unfold atomPerform
  rw [hk, hf, hacc, hp]
  dsimp only
  rw [if_neg (by decide), if_neg (by simp [hx]), rmwInto, if_neg hcnt]

theorem signed_toInt (x : Nat) : signed 32 x = (BitVec.ofNat 32 x).toInt := by
  rw [BitVec.toInt_eq_toNat_cond, BitVec.toNat_ofNat, signed]
  split <;> split <;> omega

/-- A 32-bit atomic leaves a 32-bit number (R285). -/
theorem atomStep_lt {op : Nat} {uns : Bool} {old b c : Nat} (ho : old < 2 ^ 32) (hb : b < 2 ^ 32) (hc : c < 2 ^ 32) :
    atomStep op uns 4 old b c < 2 ^ 32 := by
  unfold atomStep
  split
  · exact Nat.mod_lt _ (by decide)
  · exact iteInduction (motive := (· < 2 ^ 32)) (fun _ => hb) fun _ => ho
  · exact iteInduction (motive := (· < 2 ^ 32)) (fun _ => hb) fun _ => ho
  · exact Nat.and_lt_two_pow _ hb
  · exact Nat.or_lt_two_pow ho hb
  · exact Nat.xor_lt_two_pow ho hb
  · exact hb
  · exact iteInduction (motive := (· < 2 ^ 32)) (fun _ => hc) fun _ => ho

theorem atomStep_min (uns : Bool) (old b c : Nat) : atomStep 1 uns 4 old b c =
    if uns then min old b else if (BitVec.ofNat 32 b).toInt < (BitVec.ofNat 32 old).toInt then b else old := by
  unfold atomStep
  rw [← signed_toInt, ← signed_toInt]
  cases uns with
  | true =>
    simp only [if_true, decide_eq_true_eq]
    split <;> omega
  | false => simp

theorem atomStep_max (uns : Bool) (old b c : Nat) : atomStep 2 uns 4 old b c =
    if uns then max old b else if (BitVec.ofNat 32 old).toInt < (BitVec.ofNat 32 b).toInt then b else old := by
  unfold atomStep
  rw [← signed_toInt, ← signed_toInt]
  cases uns with
  | true =>
    simp only [if_true, decide_eq_true_eq]
    split <;> omega
  | false => simp

/-- What ATOM leaves of the four bytes that it finds, as a number (R285): C is read by the last operation only. -/
theorem ofBytes_rmwApply_atomOf (s : State) (o : GOp) (f : Fibre) {bs : List Byte} (hbs : bs.length = 4) :
    ofBytes (rmwApply (atomOf s o false f) bs) = atomStep (o.mod.toNat % 8) (bitOf o.mod.toNat 3) 4 (ofBytes bs) (s.src f .int o.imm o.b).toNat
      (if o.mod.toNat % 8 = 7 then (s.src f .int o.imm o.c).toNat else 0) := by
  have hold : ofBytes bs < 2 ^ 32 := by simpa [hbs] using ofBytes_lt bs
  have hb := (s.src f .int o.imm o.b).isLt
  have hc := (s.src f .int o.imm o.c).isLt
  have hop : (BitVec.ofNat 3 o.mod.toNat).toNat = o.mod.toNat % 8 := BitVec.toNat_ofNat _ _
  have hC : (if modBits o.mod 0 3 = 7 then (s.src f .int o.imm o.c).setWidth 64 else 0).toNat % 2 ^ 32 =
      if o.mod.toNat % 8 = 7 then (s.src f .int o.imm o.c).toNat else 0 := by
    rw [show modBits o.mod 0 3 = o.mod.toNat % 8 by simp [modBits]]
    split
    · rw [BitVec.toNat_setWidth_of_le (by decide), Nat.mod_eq_of_lt hc]
    · rfl
  have hB : ((s.src f .int o.imm o.b).setWidth 64).toNat % 2 ^ 32 = (s.src f .int o.imm o.b).toNat := by
    rw [BitVec.toNat_setWidth_of_le (by decide), Nat.mod_eq_of_lt hb]
  show ofBytes (leBytes 4 (atomStep _ _ 4 _ (_ % 2 ^ 32) (_ % 2 ^ 32))) = _
  rw [ofBytes_leBytes, hop]
  simp only [Bool.false_eq_true, if_false]
  rw [hB, hC]
  exact Nat.mod_eq_of_lt (atomStep_lt hold hb (by split <;> omega))

theorem rmwApply_length (r : Rmw) (bs : List Byte) : (rmwApply r bs).length = rmwSize r := leBytes_length _ _

theorem wordsOf_word (bs : List Byte) (h : bs.length = 4) : wordsOf bs = [BitVec.ofNat 32 (ofBytes bs)] := by
  match bs, h with
  | [a, b, c, d], _ => rfl

/-- Settles O35: the walks leave the line with its core, so the atomic is made there; it answers the bytes that it finds, and leaves its result. -/
theorem nearAtomicResult : Obligations.NearAtomicResult := by
  intro o s g f p va m r hreach hfs hgd hhelper hf hspots halign hcalm _ hunwatched hexcl hdst old b c i new
  have hin : (f.helper && true) = false := by rw [hhelper]; rfl
  obtain ⟨l, hm⟩ := rmwCheck_act (Group.reaches_single hreach hfs hgd hin)
  rw [hdst] at hm
  have hkey : m.key = f.key := by rw [hm]; rfl
  have hacc : m.acc = .rmw (atomOf s o false f) := by rw [hm]; rfl
  have hframe : m.frame = f.top.addr := by rw [hm]; rfl
  have hcnt : m.cnt = 1 := by rw [hm]; simp [State.rmwLane, State.laneOf, atomOf, rmwSize]
  have hreg : m.reg = r.toNat := by
    rw [hm]
    exact BitVec.toNat_setWidth_of_le (by decide)
  obtain ⟨t, ts, hwalks, htf, htcalm, hleases, htfills, htunwatched, htbytes⟩ :=
    State.laneWalks_fibre (State.linesCalm_of_calm hcalm) hf m.spots
  have htexcl : (t.lineOf p.line).excl = some f.core := by
    obtain ⟨n, hline⟩ := hleases p.line
    rw [hline]
    exact hexcl
  have hperform := atomPerform_near (op := 0x285) (i := .atom o) (m := m) (p := p) hkey htf hacc (by rw [hspots]; rfl) htexcl (by rw [hcnt]; decide)
  obtain ⟨herr, hdata, hafter⟩ := State.rmwAt_calm htcalm (ag := Fibre.agent { f with stamp := ts } 2) (p := p) m.va.toNat
    (rmwSize (atomOf s o false f)) (k := rmwApply (atomOf s o false f)) ((htunwatched f.ctx).trans hunwatched) (by
      rw [rmwApply_length]
      show p.a % 128 + 4 ≤ 128
      omega)
  obtain ⟨hfills, hbytes⟩ := loadInto_goOn (f := { f with stamp := ts }) (m := m) (op := 0x285) (loc2 := false) (vals := wordsOf) herr htf hafter g
  have hread : t.rawRead p (rmwSize (atomOf s o false f)) = s.rawRead p 4 := State.rawRead_congr htbytes p 4
  have hlen : (rmwApply (atomOf s o false f) (s.rawRead p 4)).length = 4 := rmwApply_length _ _
  rw [hread] at hbytes hdata
  refine ⟨_, accessesThrough_single (accessesThrough_atomAct (i := .atom o) (fun _ => rfl) rfl) hreach hfs hgd hin trivial hkey hwalks hperform, ?_,
    hfills.trans ?_, fun q hq => ?_⟩
  · rw [← hlen, State.rawRead_overwritten hbytes, ofBytes_rmwApply_atomOf s o f (rawRead_length s p 4)]
    have hop : o.mod.toNat % 8 < 8 := Nat.mod_lt _ (by decide)
    unfold new
    generalize o.mod.toNat % 8 = k at hop ⊢
    match k, hop with
    | 0, _ | 3, _ | 4, _ | 5, _ | 6, _ | 7, _ => rfl
    | 1, _ => exact atomStep_min _ _ _ _
    | 2, _ => exact atomStep_max _ _ _ _
  · rw [htfills, hdata, wordsOf_word _ (rawRead_length s p 4), hframe, hreg]
    rfl
  · rw [hbytes, State.overwritten, hlen, hq]
    exact htbytes q

end Sys2Proof.Machine
end

section
namespace Sys2Proof.Machine

/-! ## Number formats: FREDUX and rounding -/

/-! ### FREDUX (O18) -/

/-- Flags joined from a start are the start joined with the flags joined from none. -/
theorem foldl_or_start {α : Type} (k : α → Nat) (l : List α) (n : Nat) :
    l.foldl (fun a x => a ||| k x) n = n ||| l.foldl (fun a x => a ||| k x) 0 := by
  induction l generalizing n with
  | nil => simp
  | cons x l ih => rw [List.foldl_cons, List.foldl_cons, ih, ih (0 ||| k x), Nat.zero_or, Nat.or_assoc]

/-- The contributing lanes are those that pass and are no helpers (R251). -/
theorem contributing_eq_passing (g : Group) (o : GOp) : g.contributing o = (g.passing o).filter fun f => !f.helper := by
  simp [Group.contributing, Group.passing, List.filter_filter, Bool.and_comm]

/-- With no lane that faults apart, the whole group goes on. -/
theorem State.faultApart_nil (s : State) (g : Group) : s.faultApart g [] = s.goOn g := rfl

/-- What FREDUX leaves of a lane whose guard passes and that does not trap: the sum written, the flags set where the lane contributes (R183, R254). -/
def freduxLane (o : GOp) (v : Nat × Nat) (f : Fibre) : Fibre :=
  (if f.helper then f else f.raise v.2).setDst o.dst (BitVec.ofNat 32 v.1)

/-- The values that FREDUX adds: a contributing lane's source, and −0.0 in every other position (R183). -/
def freduxStart (o : GOp) (s : State) (g : Group) : List Nat := (List.range 32).map fun l =>
  match ((g.passing o).filter fun f => !f.helper).find? fun f => f.lane == l with
  | some f => (s.src f .f32 o.imm o.a).toNat
  | none => 0x80000000

/-- FREDUX in a group whose passing lanes are clear at issue and whose contributing lanes trap no flag of the sum. -/
theorem execFredux_next {o : GOp} {s : State} {g : Group} (hg : s.group = some g)
    (hclear : ∀ f ∈ g.fs, f.guard o.guard = true → s.clearLane 0x185 o f = true)
    (htrap : ∀ f ∈ g.fs, f.guard o.guard = true → f.helper = false → f.trapped (freduxVal (freduxStart o s g)).2 = 0) :
    execFredux o s = .next ((s.putFibres (g.fs.map fun f =>
      if f.guard o.guard then freduxLane o (freduxVal (freduxStart o s g)) f else f)).goOn g) := by
  obtain ⟨r, hr⟩ : ∃ r, gRow 0x185 = some r := ⟨_, rfl⟩
  unfold execFredux
  rw [hg, hr]
  dsimp only
  rw [contributing_eq_passing]
  generalize hsum : freduxVal _ = v
  replace hsum : freduxVal (freduxStart o s g) = v := hsum
  rw [hsum] at htrap ⊢
  have hbad : (((g.passing o).filter fun f => !f.helper).filter fun f => f.trapped v.2 != 0) = [] :=
    List.filter_eq_nil_iff.mpr fun f hf => by
      obtain ⟨hpass, hhelper⟩ := List.mem_filter.mp hf
      obtain ⟨hmem, hguard⟩ := List.mem_filter.mp hpass
      simp [htrap f hmem hguard (by simpa using hhelper)]
  rw [hbad, List.any_nil, Bool.and_false, if_neg Bool.false_ne_true]
  simp only [List.map_nil, State.faultApart_nil]
  congr 1
  refine State.settleLanes_ok s g _ _ _ (fun f => if f.guard o.guard then freduxLane o v f else f) fun f hf =>
    laneStep_go (fun hguard => State.clearLane_go (hclear f hf hguard) hr) fun hguard => ?_
  unfold freduxLane
  cases hhelper : f.helper with
  | true => rfl
  | false => simp [htrap f hf hguard hhelper]

theorem freduxLane_same (o : GOp) (v : Nat × Nat) (f : Fibre) :
    (freduxLane o v f).key = f.key ∧ (freduxLane o v f).ctx = f.ctx ∧ (freduxLane o v f).pc = f.pc := by
  unfold freduxLane
  split <;> simp

/-- Settles O18: the flags of a round join those of the rounds before it, and with no lane trapped the group goes on whole. -/
theorem freduxResult : Obligations.FreduxResult := by
  intro o con start plus round sum
  have hsum (s : State) (g : Group) : freduxVal (freduxStart o s g) = ((sum s g).1.getD 0 0, (sum s g).2) := by
    have hround : (fun (a : List Nat × Nat) d => ((freduxRound a.1 d).1, a.2 ||| (freduxRound a.1 d).2)) = round := by
      funext a d
      simp only [freduxRound, round, List.map_map, List.foldl_map]
      rw [foldl_or_start _ _ a.2]
      rfl
    simp only [freduxVal, hround]
    rfl
  intro s g hg hsound hready
  have hclear (f : Fibre) (hf : f ∈ g.fs) (hguard : f.guard o.guard = true) := Bool.and_eq_true_iff.mp ((hready f hf).2 hguard)
  rw [show exec (.fredux o) s = execFredux o s from rfl, execFredux_next hg (fun f hf hguard => (hclear f hf hguard).1)
    fun f hf hguard hhelper => by simpa [hhelper, hsum] using (hclear f hf hguard).2]
  rw [hsum]
  exact ⟨_, rfl, goOn_groupStep hg hsound _ fun f _ => guarded_same (freduxLane_same o _ f)⟩

/-! ### Rounding to whole units (R170) -/

/-- Whether a mode takes d units u and a rest r on to d + 1 units: to nearest where r is more than half a unit, or half a unit and d odd; directed
where there is a rest and the mode's side is the one away from zero. -/
def takesUp (mode : Nat) (neg : Bool) (d : Nat) (r u : ℚ) : Prop :=
  match mode with
  | 0 => u < 2 * r ∨ (2 * r = u ∧ d % 2 = 1)
  | 1 => False
  | 2 => r ≠ 0 ∧ neg = false
  | _ => r ≠ 0 ∧ neg = true

/-- The magnitude X is d whole units u and a rest r; the rounding gives k units, and `inex` says whether there is a rest. -/
structure Rounds (mode : Nat) (neg : Bool) (u X : ℚ) (d : Nat) (r : ℚ) (k : Nat) (inex : Bool) : Prop where
  value : X = d * u + r
  nonneg : 0 ≤ r
  lt_unit : r < u
  inexact : inex = true ↔ r ≠ 0
  up : takesUp mode neg d r u → k = d + 1
  down : ¬ takesUp mode neg d r u → k = d

theorem not_takesUp_zero {u : ℚ} (hu : 0 < u) (mode : Nat) (neg : Bool) (d : Nat) : ¬ takesUp mode neg d 0 u := by
  unfold takesUp
  split
  · rintro (h | ⟨h, -⟩) <;> linarith
  · exact id
  · simp
  · simp

/-- The model's test of a remainder is the mode's, at any scale c. -/
theorem roundsUp_iff {c : ℚ} (hc : 0 < c) (mode : Nat) (neg : Bool) (d r n : Nat) :
    roundsUp mode neg d r n = true ↔ takesUp mode neg d (r * c) (2 ^ n * c) := by
  unfold roundsUp takesUp
  split
  · have htwice : 2 * ((r : ℚ) * c) = (2 * r : Nat) * c := by push_cast; ring
    have hunit : (2 : ℚ) ^ n * c = (2 ^ n : Nat) * c := by push_cast; rfl
    rw [htwice, hunit, mul_lt_mul_iff_left₀ hc, mul_left_inj' hc.ne']
    norm_cast
    simp
  · simp
  · simp [hc.ne']
  · simp [hc.ne']

theorem two_zpow_split {a b : Int} (h : b ≤ a) : (2 : ℚ) ^ a = 2 ^ (a - b).toNat * 2 ^ b := by
  rw [← zpow_natCast, ← zpow_add₀ two_ne_zero]
  congr 1; omega

theorem roundUnits_rounds (mode : Nat) (neg : Bool) (m : Nat) (e q : Int) :
    ∃ d r, Rounds mode neg (2 ^ q) (m * 2 ^ e) d r (roundUnits mode neg m e q).1 (roundUnits mode neg m e q).2 := by
  unfold roundUnits
  split
  next hqe =>
    have hu : (0 : ℚ) < 2 ^ q := by positivity
    exact ⟨_, 0, by rw [two_zpow_split hqe]; push_cast; ring, le_rfl, hu, by simp, fun h => absurd h (not_takesUp_zero hu _ _ _), fun _ => rfl⟩
  next hqe =>
    generalize hn : (q - e).toNat = n
    have hpow : (2 : ℚ) ^ q = 2 ^ n * 2 ^ e := hn ▸ two_zpow_split (not_le.mp hqe).le
    have he : (0 : ℚ) < 2 ^ e := by positivity
    have hdiv : (m : ℚ) = 2 ^ n * (m / 2 ^ n : Nat) + (m % 2 ^ n : Nat) := by exact_mod_cast (Nat.div_add_mod m (2 ^ n)).symm
    have hlt : ((m % 2 ^ n : Nat) : ℚ) < 2 ^ n := by exact_mod_cast Nat.mod_lt m (by positivity)
    rw [hpow]
    refine ⟨m / 2 ^ n, (m % 2 ^ n : Nat) * 2 ^ e, ?_, by positivity, mul_lt_mul_of_pos_right hlt he, ?_, fun h => if_pos ?_, fun h => if_neg ?_⟩
    · nth_rw 1 [hdiv]; ring
    · simp [he.ne']
    · exact (roundsUp_iff he _ _ _ _ _).mpr h
    · exact fun hup => h ((roundsUp_iff he _ _ _ _ _).mp hup)

/-! ### The words of a format (R167) -/

/-- The sign bit of a format. -/
def FloatFmt.signBit (f : FloatFmt) (neg : Bool) : Nat := if neg then 2 ^ (f.fb + f.eb) else 0

theorem abs_exactVal (neg : Bool) (m : Nat) (e : Int) : |exactVal neg m e| = m * 2 ^ e := by
  have h : (0 : ℚ) ≤ m * 2 ^ e := by positivity
  cases neg <;> simp [exactVal, abs_mul, abs_of_nonneg]

/-- A finite word's magnitude is a number of fb + 1 bits at an exponent no less than that of the subnormals. -/
theorem FloatFmt.holds_magnitude {f : FloatFmt} {x : Nat} {w : ℚ} (h : f.holds x w) :
    ∃ (j : Nat) (a : Int), |w| = j * 2 ^ a ∧ j < 2 ^ (f.fb + 1) ∧ f.emin - f.fb ≤ a := by
  obtain ⟨neg, m, e, hdec, rfl⟩ := h
  have hfrac : x % 2 ^ f.fb < 2 ^ f.fb := Nat.mod_lt _ (by positivity)
  refine ⟨m, e, abs_exactVal neg m e, ?_⟩
  rw [pow_succ]
  unfold FloatFmt.decode at hdec
  dsimp only at hdec
  split at hdec
  · split at hdec <;> cases hdec
  · split at hdec <;> cases hdec
    · omega
    · simp only [FloatFmt.emin]
      omega

/-- A word made of a sign and a magnitude below infinity's has the fields of the magnitude. -/
theorem FloatFmt.decode_sign_add (f : FloatFmt) (neg : Bool) {b : Nat} (h : b < f.infBits) :
    f.decode (f.signBit neg + b) = if b / 2 ^ f.fb = 0 then .fin neg (b % 2 ^ f.fb) (f.emin - f.fb)
      else .fin neg (2 ^ f.fb + b % 2 ^ f.fb) ((b / 2 ^ f.fb : Nat) - f.bias - f.fb) := by
  have hexp : b / 2 ^ f.fb < 2 ^ f.eb - 1 := Nat.div_lt_of_lt_mul (by rwa [mul_comm])
  have hwidth : b < 2 ^ (f.fb + f.eb) := by
    rw [pow_add, mul_comm]
    exact (Nat.div_lt_iff_lt_mul (by positivity)).mp (hexp.trans_le (Nat.sub_le _ _))
  have hsign : f.signBit neg + b = b + 2 ^ (f.fb + f.eb) * neg.toNat := by cases neg <;> simp [FloatFmt.signBit, add_comm]
  have hfrac : (f.signBit neg + b) % 2 ^ f.fb = b % 2 ^ f.fb := by
    rw [hsign, pow_add, mul_assoc, Nat.add_mul_mod_self_left]
  have hfield : (f.signBit neg + b) / 2 ^ f.fb % 2 ^ f.eb = b / 2 ^ f.fb := by
    rw [hsign, pow_add, mul_assoc, Nat.add_mul_div_left _ _ (by positivity), Nat.add_mul_mod_self_left,
      Nat.mod_eq_of_lt (hexp.trans_le (Nat.sub_le _ _))]
  have hneg : ((f.signBit neg + b) / 2 ^ (f.fb + f.eb) % 2 == 1) = neg := by
    rw [hsign, Nat.add_mul_div_left _ _ (by positivity), Nat.div_eq_of_lt hwidth]
    cases neg <;> rfl
  unfold FloatFmt.decode
  dsimp only
  rw [hfrac, hfield, hneg, if_neg hexp.ne]

/-- The word whose exponent field counts n steps above the least, and whose fraction counts k units, holds k units of 2^n times the least. -/
theorem FloatFmt.holds_units (f : FloatFmt) (neg : Bool) {n k : Nat} (hk : k ≤ 2 ^ (f.fb + 1)) (hnormal : n ≠ 0 → 2 ^ f.fb ≤ k)
    (hfin : n * 2 ^ f.fb + k < f.infBits) : f.holds (f.signBit neg + (n * 2 ^ f.fb + k)) (exactVal neg k (n + (f.emin - f.fb))) := by
  have hpos : 0 < 2 ^ f.fb := by positivity
  have hdiv : (n * 2 ^ f.fb + k) / 2 ^ f.fb = n + k / 2 ^ f.fb := by rw [add_comm, Nat.add_mul_div_right _ _ hpos, add_comm]
  have hmod : (n * 2 ^ f.fb + k) % 2 ^ f.fb = k % 2 ^ f.fb := by rw [add_comm, Nat.add_mul_mod_self_right]
  have hdec := f.decode_sign_add neg hfin
  rw [hdiv, hmod] at hdec
  rw [pow_succ] at hk
  obtain hsub | hnorm := Nat.lt_or_ge k (2 ^ f.fb)
  · -- a subnormal value
    have hn : n = 0 := by by_contra hn; exact absurd (hnormal hn) (by omega)
    rw [Nat.div_eq_of_lt hsub, Nat.mod_eq_of_lt hsub, hn, if_pos rfl] at hdec
    exact ⟨_, _, _, hn ▸ hdec, by simp [hn]⟩
  · have hquot : 0 < k / 2 ^ f.fb := Nat.div_pos hnorm hpos
    rw [if_neg (by omega)] at hdec
    refine ⟨_, _, _, hdec, ?_⟩
    obtain hlt | heq := hk.lt_or_eq
    · -- a normal value with k's lower bits as its fraction
      have hone : k / 2 ^ f.fb = 1 := Nat.div_eq_of_lt_le (by omega) (by omega)
      have hsum : 2 ^ f.fb + k % 2 ^ f.fb = k := by have := Nat.div_add_mod k (2 ^ f.fb); rw [hone] at this; omega
      rw [hone, hsum]
      congr 1
      simp only [FloatFmt.emin]; push_cast; ring
    · -- the carry into the next exponent
      rw [heq, Nat.mul_mod_right, Nat.mul_div_cancel_left _ hpos]
      have hexp : ((n + 2 : Nat) : Int) - f.bias - f.fb = 1 + (n + (f.emin - f.fb)) := by simp only [FloatFmt.emin]; push_cast; ring
      unfold exactVal
      rw [hexp, zpow_add₀ two_ne_zero 1]
      push_cast; ring

/-! ### The neighbours of a value (R170) -/

/-- The exponent of the last place of a magnitude whose highest bit is at `top`. -/
def FloatFmt.lastPlace (f : FloatFmt) (top : Int) : Int := max top f.emin - f.fb

/-- Of a value no less than the least normal one, the highest bit is fb places above the last place. -/
theorem FloatFmt.units_of_normal (f : FloatFmt) {top : Int} {X r : ℚ} {d : Nat} (htop : (2 : ℚ) ^ top ≤ X)
    (hX : X = d * 2 ^ f.lastPlace top + r) (hr : r < 2 ^ f.lastPlace top) (hnormal : f.emin - f.fb < f.lastPlace top) :
    (2 : ℚ) ^ top = (2 ^ f.fb : Nat) * 2 ^ f.lastPlace top ∧ 2 ^ f.fb ≤ d := by
  have hu : (0 : ℚ) < 2 ^ f.lastPlace top := by positivity
  have htopbit : (2 : ℚ) ^ top = (2 ^ f.fb : Nat) * 2 ^ f.lastPlace top := by
    have hplaces : (top - f.lastPlace top).toNat = f.fb := by unfold FloatFmt.lastPlace at hnormal ⊢; omega
    have hsplit := two_zpow_split (show f.lastPlace top ≤ top by unfold FloatFmt.lastPlace at hnormal ⊢; omega)
    rw [hplaces] at hsplit
    exact_mod_cast hsplit
  have hlt : ((2 ^ f.fb : Nat) : ℚ) * 2 ^ f.lastPlace top < (d + 1 : Nat) * 2 ^ f.lastPlace top := by push_cast at htopbit ⊢; linarith
  exact ⟨htopbit, Nat.lt_succ_iff.mp (by exact_mod_cast lt_of_mul_lt_mul_right hlt hu.le)⟩

/-- No word's magnitude lies strictly between the two whole numbers of last places around X. -/
theorem FloatFmt.holds_outside {f : FloatFmt} {top : Int} {X r : ℚ} {d : Nat} (htop : (2 : ℚ) ^ top ≤ X)
    (hX : X = d * 2 ^ f.lastPlace top + r) (hr : r < 2 ^ f.lastPlace top) {x : Nat} {w : ℚ} (h : f.holds x w) :
    |w| ≤ d * 2 ^ f.lastPlace top ∨ (d + 1) * 2 ^ f.lastPlace top ≤ |w| := by
  obtain ⟨j, a, hw, hj, ha⟩ := holds_magnitude h
  have hu : (0 : ℚ) < 2 ^ f.lastPlace top := by positivity
  rw [hw]
  obtain hqa | haq := le_or_gt (f.lastPlace top) a
  · -- the word is a whole number of last places
    have hunits : (j : ℚ) * 2 ^ a = (j * 2 ^ (a - f.lastPlace top).toNat : Nat) * 2 ^ f.lastPlace top := by
      rw [two_zpow_split hqa]; push_cast; ring
    rw [hunits, mul_le_mul_iff_left₀ hu, mul_le_mul_iff_left₀ hu]
    norm_cast
    omega
  · -- the word lies below the power of two at X's highest bit, which is a whole number of last places
    left
    obtain ⟨hbits, hd⟩ := f.units_of_normal htop hX hr (ha.trans_lt haq)
    calc (j : ℚ) * 2 ^ a ≤ 2 ^ (f.fb + 1) * 2 ^ (f.lastPlace top - 1) := by
          gcongr
          · exact_mod_cast hj.le
          · norm_num
          · omega
      _ = 2 ^ top := by
          rw [hbits, zpow_sub_one₀ two_ne_zero, pow_succ]
          push_cast; ring
      _ ≤ d * 2 ^ f.lastPlace top := by rw [hbits]; gcongr

section
variable {mode : Nat} {neg inex : Bool} {u X r W : ℚ} {d k : Nat}

theorem Rounds.le_units (h : Rounds mode neg u X d r k inex) : k ≤ d + 1 ∧ d ≤ k := by
  by_cases hup : takesUp mode neg d r u
  · have := h.up hup; omega
  · have := h.down hup; omega

/-- A value that is a whole number of units is that number of units, with no rest. -/
theorem Rounds.exact_of_whole (h : Rounds mode neg u X d r k inex) (hX : X ≤ d * u ∨ (d + 1) * u ≤ X) : k * u = X ∧ inex = false := by
  obtain ⟨hvalue, hnonneg, hlt, hinexact, -, hdown⟩ := h
  have hr : r = 0 := by rcases hX with hX | hX <;> linarith
  have hk := hdown (hr ▸ not_takesUp_zero (hnonneg.trans_lt hlt) _ _ _)
  exact ⟨by rw [hk, hvalue, hr, add_zero], by simpa [hr] using hinexact⟩

/-- A rounding that never goes up gives the greatest number of units not above the value. -/
theorem Rounds.greatest_below (h : Rounds mode neg u X d r k inex) (hmode : ¬ takesUp mode neg d r u) (hW : W ≤ d * u ∨ (d + 1) * u ≤ W) :
    k * u ≤ X ∧ (W ≤ X → W ≤ k * u) := by
  obtain ⟨hvalue, hnonneg, hlt, -, -, hdown⟩ := h
  rw [hdown hmode]
  refine ⟨by linarith, fun hWX => ?_⟩
  rcases hW with hW | hW <;> linarith

/-- A rounding that goes up from every rest gives the least number of units not below the value. -/
theorem Rounds.least_above (h : Rounds mode neg u X d r k inex) (hmode : takesUp mode neg d r u ↔ r ≠ 0) (hW : W ≤ d * u ∨ (d + 1) * u ≤ W) :
    X ≤ k * u ∧ (X ≤ W → k * u ≤ W) := by
  obtain ⟨hvalue, hnonneg, hlt, -, hup, hdown⟩ := h
  by_cases hr : r = 0
  · rw [hdown fun hx => hmode.mp hx hr]
    exact ⟨by linarith, fun hXW => by linarith⟩
  · have hpos : 0 < r := lt_of_le_of_ne hnonneg (Ne.symm hr)
    rw [hup (hmode.mpr hr)]
    push_cast
    refine ⟨by linarith, fun hXW => ?_⟩
    rcases hW with hW | hW <;> linarith

/-- RNE gives a nearest whole number of units, and an even one of two (R170). -/
theorem Rounds.nearest (h : Rounds 0 neg u X d r k inex) (hW : W ≤ d * u ∨ (d + 1) * u ≤ W) :
    |k * u - X| ≤ |W - X| ∧ (|k * u - X| = |W - X| → W ≠ k * u → k % 2 = 0) := by
  obtain ⟨hvalue, hnonneg, hlt, -, hup, hdown⟩ := h
  -- W is at least the rest away on the lower side, and the rest of the unit on the upper side
  have haway : (W - X ≤ 0 ∧ |W - X| = X - W ∧ W ≤ d * u) ∨ (0 ≤ W - X ∧ |W - X| = W - X ∧ (d + 1) * u ≤ W) := by
    rcases hW with hW | hW
    · have hneg : W - X ≤ 0 := by linarith
      exact .inl ⟨hneg, by rw [abs_of_nonpos hneg]; ring, hW⟩
    · have hpos : 0 ≤ W - X := by linarith
      exact .inr ⟨hpos, abs_of_nonneg hpos, hW⟩
  by_cases htake : takesUp 0 neg d r u
  · have hdist : |((d + 1 : Nat) : ℚ) * u - X| = u - r := by rw [abs_of_nonneg] <;> push_cast <;> linarith
    rw [hup htake, hdist]
    push_cast
    rcases haway with ⟨-, habs, hle⟩ | ⟨-, habs, hle⟩ <;> rw [habs]
    · rcases htake with hmore | ⟨hhalf, hodd⟩
      · exact ⟨by linarith, fun _ _ => by linarith⟩
      · exact ⟨by linarith, fun _ _ => by omega⟩
    · exact ⟨by linarith, fun heq hne => absurd (by linarith) hne⟩
  · have hdist : |(d : ℚ) * u - X| = r := by rw [abs_of_nonpos] <;> linarith
    obtain ⟨hmore, hodd⟩ := not_or.mp htake
    rw [hdown htake, hdist]
    rcases haway with ⟨-, habs, hle⟩ | ⟨-, habs, hle⟩ <;> rw [habs]
    · exact ⟨by linarith, fun heq hne => absurd (by linarith) hne⟩
    · refine ⟨by linarith, fun heq _ => ?_⟩
      have hhalf : 2 * r = u := by linarith
      have heven : ¬ d % 2 = 1 := fun hone => hodd ⟨hhalf, hone⟩
      omega

end

/-! ### Rounding once to a format (O14) -/

/-- A number whose magnitude lies outside a range of magnitudes lies outside that range. -/
theorem outside_of_abs {w a b : ℚ} (ha : 0 ≤ a) (hab : a ≤ b) (h : |w| ≤ a ∨ b ≤ |w|) : w ≤ a ∨ b ≤ w := by
  rcases h with h | h
  · exact .inl ((le_abs_self w).trans h)
  · rcases le_abs.mp h with h | h
    · exact .inr h
    · exact .inl (by linarith)

/-- The exponent of the highest bit of m · 2^e. -/
def topBit (m : Nat) (e : Int) : Int := e + (Nat.log2 m : Int)

theorem zpow_topBit_le {m : Nat} (hm : m ≠ 0) (e : Int) : (2 : ℚ) ^ topBit m e ≤ m * 2 ^ e := by
  rw [topBit, add_comm, zpow_add₀ two_ne_zero, zpow_natCast]
  gcongr
  exact_mod_cast Nat.log2_self_le hm

theorem lt_zpow_topBit_succ (m : Nat) (e : Int) : (m : ℚ) * 2 ^ e < 2 ^ (topBit m e + 1) := by
  rw [topBit, add_assoc, add_comm, zpow_add₀ two_ne_zero]
  gcongr
  exact_mod_cast Nat.lt_log2_self

/-- A rounding that does not overflow gives the sign, the exponent of the last place and the units, and no flag where it is exact. -/
theorem FloatFmt.roundExact_inRange (f : FloatFmt) {mode : Nat} {neg : Bool} {m : Nat} {e : Int} (hm : m ≠ 0)
    (hflag : (f.roundExact mode neg m e).flags &&& flagOF = 0) :
    let k := roundUnits mode neg m e (f.lastPlace (topBit m e))
    let b := (f.lastPlace (topBit m e) - (f.emin - f.fb)).toNat * 2 ^ f.fb + k.1
    b < f.infBits ∧ (f.roundExact mode neg m e).bits = f.signBit neg + b ∧ (k.2 = false → (f.roundExact mode neg m e).flags = 0) := by
  intro k b
  unfold FloatFmt.roundExact at hflag ⊢
  dsimp only at hflag ⊢
  rw [if_neg hm] at hflag ⊢
  split at hflag
  · exact absurd hflag (by decide : (flagOF + flagNX) &&& flagOF ≠ 0)
  next hfin =>
    rw [if_neg hfin]
    exact ⟨not_le.mp hfin, rfl, fun hexact => if_neg (Bool.eq_false_iff.mp hexact)⟩

theorem exactVal_false (m : Nat) (e : Int) : exactVal false m e = m * 2 ^ e := by simp [exactVal]

theorem exactVal_true (m : Nat) (e : Int) : exactVal true m e = -(m * 2 ^ e) := by simp [exactVal]

/-- The word that a rounding without overflow gives: it holds its units with its sign, and the last bit of the units is its own. -/
theorem FloatFmt.holds_roundExact (f : FloatFmt) (hfb : 0 < f.fb) {mode : Nat} {neg : Bool} {m : Nat} {e : Int} (hm : m ≠ 0)
    (hflag : (f.roundExact mode neg m e).flags &&& flagOF = 0) :
    let k := (roundUnits mode neg m e (f.lastPlace (topBit m e))).1
    f.holds (f.roundExact mode neg m e).bits (exactVal neg k (f.lastPlace (topBit m e))) ∧
      (f.roundExact mode neg m e).bits % 2 = k % 2 := by
  intro k
  obtain ⟨hfin, hbits, -⟩ := f.roundExact_inRange hm hflag
  obtain ⟨d, r, hround⟩ := roundUnits_rounds mode neg m e (f.lastPlace (topBit m e))
  obtain ⟨hkd, hdk⟩ := hround.le_units
  obtain ⟨hvalue, hnonneg, hlt, -, -, -⟩ := hround
  have hu : (0 : ℚ) < 2 ^ f.lastPlace (topBit m e) := by positivity
  have hsteps : ((f.lastPlace (topBit m e) - (f.emin - f.fb)).toNat : Int) + (f.emin - f.fb) = f.lastPlace (topBit m e) := by
    unfold FloatFmt.lastPlace; omega
  have hkle : k ≤ 2 ^ (f.fb + 1) := by
    have hX : (d : ℚ) * 2 ^ f.lastPlace (topBit m e) < (2 ^ (f.fb + 1) : Nat) * 2 ^ f.lastPlace (topBit m e) := calc
      (d : ℚ) * 2 ^ f.lastPlace (topBit m e) ≤ m * 2 ^ e := by linarith
      _ < 2 ^ (topBit m e + 1) := lt_zpow_topBit_succ m e
      _ ≤ 2 ^ (((f.fb + 1 : Nat) : Int) + f.lastPlace (topBit m e)) :=
        zpow_le_zpow_right₀ (by norm_num) (by unfold FloatFmt.lastPlace; push_cast; omega)
      _ = (2 ^ (f.fb + 1) : Nat) * 2 ^ f.lastPlace (topBit m e) := by
        rw [zpow_add₀ two_ne_zero, zpow_natCast]; push_cast; rfl
    have hd : d < 2 ^ (f.fb + 1) := by exact_mod_cast lt_of_mul_lt_mul_right hX hu.le
    exact hkd.trans hd
  have hnormal : (f.lastPlace (topBit m e) - (f.emin - f.fb)).toNat ≠ 0 → 2 ^ f.fb ≤ k := fun hne =>
    (f.units_of_normal (zpow_topBit_le hm e) hvalue hlt (by omega)).2.trans hdk
  rw [hbits]
  refine ⟨by simpa only [hsteps] using f.holds_units neg hkle hnormal hfin, ?_⟩
  have hfrac : 2 ∣ 2 ^ f.fb := dvd_pow_self 2 hfb.ne'
  have hplaces : 2 ∣ (f.lastPlace (topBit m e) - (f.emin - f.fb)).toNat * 2 ^ f.fb := hfrac.mul_left _
  have hsign : 2 ∣ f.signBit neg := by
    unfold FloatFmt.signBit
    split
    · exact dvd_pow_self 2 (by omega)
    · exact dvd_zero 2
  omega

theorem fraction_pos {f : FloatFmt} (h : f ∈ [fp32, fp64, fp16, bf16]) : 0 < f.fb := by
  have hall : ∀ f ∈ [fp32, fp64, fp16, bf16], 0 < f.fb := by decide
  exact hall f h

/-- Settles O14: every word of the format lies outside the two numbers of last places around the value, one of which the rounding gives. -/
theorem roundingModes : Obligations.RoundingModes := by
  intro f hf mode neg m e hm x res hflag _
  obtain ⟨hholds, hlast⟩ := f.holds_roundExact (fraction_pos hf) hm hflag
  obtain ⟨-, -, hexact⟩ := f.roundExact_inRange hm hflag
  obtain ⟨d, r, h⟩ := roundUnits_rounds mode neg m e (f.lastPlace (topBit m e))
  obtain ⟨k, hk⟩ : ∃ k, k = roundUnits mode neg m e (f.lastPlace (topBit m e)) := ⟨_, rfl⟩
  rw [← hk] at h hexact hlast hholds
  refine ⟨_, hholds, fun y w hw => ?_⟩
  have habs := f.holds_outside (zpow_topBit_le hm e) h.value h.lt_unit hw
  have hstep : (d : ℚ) * 2 ^ f.lastPlace (topBit m e) ≤ (d + 1) * 2 ^ f.lastPlace (topBit m e) := by gcongr; simp
  have hsigned := outside_of_abs (by positivity) hstep habs
  have hmirrored := outside_of_abs (w := -w) (by positivity) hstep (by rwa [abs_neg])
  refine ⟨fun hwx => ?_, fun hmode => ?_, fun hmode => ?_, fun hmode => ?_, fun hmode => ?_⟩
  · -- a representable value is a whole number of last places
    rw [hwx, abs_exactVal] at habs
    obtain ⟨hunits, hinexact⟩ := h.exact_of_whole habs
    exact ⟨by cases neg <;> simp [x, exactVal_false, exactVal_true, hunits], hexact hinexact⟩
  · subst hmode
    rw [hlast]
    cases neg with
    | false => simpa only [x, exactVal_false] using h.nearest hsigned
    | true =>
      have hdist (a b : ℚ) : |a - -b| = |-a - b| := by rw [← abs_neg]; congr 1; ring
      obtain ⟨hnear, heven⟩ := h.nearest hmirrored
      simp only [x, exactVal_true, hdist, neg_neg]
      exact ⟨hnear, fun heq hne => heven heq fun hw => hne (by rw [← hw, neg_neg])⟩
  · subst hmode
    simpa only [x, abs_exactVal] using h.greatest_below id habs
  · subst hmode
    cases neg with
    | false => simpa only [x, exactVal_false] using h.least_above (by simp [takesUp]) hsigned
    | true =>
      obtain ⟨hbelow, hgreatest⟩ := h.greatest_below (by simp [takesUp]) hmirrored
      simp only [x, exactVal_true]
      exact ⟨neg_le_neg hbelow, fun hxw => neg_le.mp (hgreatest (neg_le.mp hxw))⟩
  · subst hmode
    cases neg with
    | false => simpa only [x, exactVal_false] using h.greatest_below (by simp [takesUp]) hsigned
    | true =>
      obtain ⟨habove, hleast⟩ := h.least_above (by simp [takesUp]) hmirrored
      simp only [x, exactVal_true]
      exact ⟨neg_le_neg habove, fun hwx => le_neg.mp (hleast (le_neg.mp hwx))⟩

end Sys2Proof.Machine
end


section
namespace Sys2Proof

/-! ## Instruction formats and assembly

### Fields laid side by side -/

/-- As many values as widths, each below 2 to its width. -/
abbrev FieldsFit (ws vs : List Nat) : Prop := List.Forall₂ (fun w v => v < 2 ^ w) ws vs

theorem unpackFields_packFields {ws vs : List Nat} (h : FieldsFit ws vs) : unpackFields ws (packFields (ws.zip vs)) = vs := by
  induction h with
  | nil => rfl
  | cons hv _ ih =>
    simp only [List.zip_cons_cons, packFields, unpackFields, Nat.add_mul_mod_self_left, Nat.mod_eq_of_lt hv,
      Nat.add_mul_div_left _ _ (Nat.two_pow_pos _), Nat.div_eq_of_lt hv, Nat.zero_add, ih]

theorem packFields_lt {ws vs : List Nat} (h : FieldsFit ws vs) : packFields (ws.zip vs) < 2 ^ ws.sum := by
  induction h with
  | nil => exact Nat.one_pos
  | @cons w v ws vs hv _ ih =>
    simp only [List.zip_cons_cons, packFields, List.sum_cons, pow_add]
    calc v + 2 ^ w * packFields (ws.zip vs) < 2 ^ w * (packFields (ws.zip vs) + 1) := by rw [Nat.mul_succ]; omega
      _ ≤ 2 ^ w * 2 ^ ws.sum := Nat.mul_le_mul_left _ ih

theorem fieldsFit_unpackFields (ws : List Nat) (x : Nat) : FieldsFit ws (unpackFields ws x) := by
  induction ws generalizing x with
  | nil => exact .nil
  | cons w ws ih => exact .cons (Nat.mod_lt _ (Nat.two_pow_pos w)) (ih _)

theorem packFields_unpackFields {ws : List Nat} {x : Nat} (hx : x < 2 ^ ws.sum) : packFields (ws.zip (unpackFields ws x)) = x := by
  induction ws generalizing x with
  | nil => simpa [packFields, eq_comm] using hx
  | cons w ws ih =>
    have hdiv : x / 2 ^ w < 2 ^ ws.sum := Nat.div_lt_of_lt_mul (by rwa [← pow_add, ← List.sum_cons])
    simp only [unpackFields, List.zip_cons_cons, packFields, ih hdiv, Nat.mod_add_div]

/-- A word in its range is the packing of the fields it is cut into. -/
theorem unpackFields_eq {ws vs : List Nat} {x : Nat} (hx : x < 2 ^ ws.sum) (h : unpackFields ws x = vs) :
    FieldsFit ws vs ∧ packFields (ws.zip vs) = x :=
  h ▸ ⟨fieldsFit_unpackFields ws x, packFields_unpackFields hx⟩

theorem mod_of_unpackFields {ws vs : List Nat} {x op : Nat} (h : unpackFields (10 :: ws) x = op :: vs) : x % 1024 = op :=
  (List.cons.inj h).1

/-! ### Operands and their fields (R195, R196, R197, R202) -/

@[simp] theorem toNat_beq_one (b : Bool) : (b.toNat == 1) = b := by cases b <;> rfl

theorem toNat_beq_one_of_lt {n : Nat} (h : n < 2) : (n == 1).toNat = n := by
  obtain rfl | rfl : n = 0 ∨ n = 1 := by omega
  all_goals rfl

theorem Dst.fields_lt (d : Dst) : d.fields.1 < 2 ^ 11 ∧ d.fields.2 < 2 ^ 2 := by
  cases d <;> simp only [Dst.fields] <;> omega

theorem Dst.ofFields_fields (d : Dst) : Dst.ofFields d.fields.1 d.fields.2 = some d := by
  cases d with
  | v n => simp [Dst.fields, Dst.ofFields]
  | p n => simpa [Dst.fields, Dst.ofFields] using n.isLt
  | q n => simpa [Dst.fields, Dst.ofFields] using n.isLt
  | none => rfl

theorem Dst.fields_of_ofFields {d dk : Nat} {x : Dst} (hd : d < 2 ^ 11) (hk : dk < 2 ^ 2) (h : Dst.ofFields d dk = some x) :
    x.fields = (d, dk) := by
  obtain rfl | rfl | rfl | rfl : dk = 0 ∨ dk = 1 ∨ dk = 2 ∨ dk = 3 := by omega
  all_goals simp only [Dst.ofFields] at h
  · cases h; simpa [Dst.fields] using hd
  · split_ifs at h with hn; cases h; simp [Dst.fields, Nat.mod_eq_of_lt hn]
  · split_ifs at h with hn; cases h; simp [Dst.fields, Nat.mod_eq_of_lt hn]
  · split_ifs at h with hn; cases h; simp [Dst.fields, hn]

theorem Src.fields_lt (s : Src) : s.fields.1 < 2 ^ 11 ∧ s.fields.2.1 < 2 ^ 2 ∧ s.fields.2.2 < 2 := by
  cases s with
  | v n w => exact ⟨n.isLt, Nat.zero_lt_succ 3, Bool.toNat_lt w⟩
  | lit s w nx => have hnx := Bool.toNat_lt nx; simp only [Src.fields, packFields]; omega
  | _ => simp only [Src.fields]; omega

theorem Src.ofFields_fields (s : Src) : Src.ofFields s.fields.1 s.fields.2.1 s.fields.2.2 = some s := by
  cases s with
  | v n w => simp [Src.fields, Src.ofFields]
  | p n => simpa [Src.fields, Src.ofFields] using n.isLt
  | c n => simp [Src.fields, Src.ofFields]
  | imm => rfl
  | lit s w nx =>
    have hfit : FieldsFit [3, 2, 1] [s.toNat, w.toNat, nx.toNat] := by simp [s.isLt, w.isLt, Bool.toNat_lt nx]
    have hlt := packFields_lt hfit
    have hparts := unpackFields_packFields hfit
    simp only [List.zip_cons_cons, List.zip_nil_right] at hlt hparts
    have hlit : 1024 + packFields [(3, s.toNat), (2, w.toNat), (1, nx.toNat)] < 1088 := Nat.add_lt_add_left hlt 1024
    simp [Src.fields, Src.ofFields, hlit, hparts]

theorem Src.fields_of_ofFields {f k w : Nat} {x : Src} (hf : f < 2 ^ 11) (hk : k < 2 ^ 2) (hw : w < 2) (h : Src.ofFields f k w = some x) :
    x.fields = (f, k, w) := by
  obtain rfl | rfl | rfl | rfl : k = 0 ∨ k = 1 ∨ k = 2 ∨ k = 3 := by omega
  all_goals simp only [Src.ofFields] at h
  · cases h; simpa [Src.fields, toNat_beq_one_of_lt hw] using hf
  · split_ifs at h with hn; cases h; simp [Src.fields, Nat.mod_eq_of_lt hn.1, hn.2]
  · split_ifs at h with hn; cases h; simpa [Src.fields, hn] using hf
  · split_ifs at h with hw0 himm hzero hlit
    · cases h; simp_all [Src.fields]
    · have hrange : f - 1024 < 2 ^ [3, 2, 1].sum := by simp; omega
      split at h
      case h_2 => cases h
      next s wd nx hparts =>
        cases h
        obtain ⟨hfit, hpack⟩ := unpackFields_eq hrange hparts
        simp only [List.forall₂_cons] at hfit
        obtain ⟨hs, hwd, hnx, -⟩ := hfit
        simp only [List.zip_cons_cons, List.zip_nil_right] at hpack
        simp only [Src.fields, BitVec.toNat_ofNat, Nat.mod_eq_of_lt hs, Nat.mod_eq_of_lt hwd, toNat_beq_one_of_lt hnx, hpack, Prod.mk.injEq]
        exact ⟨Nat.add_sub_cancel' (Nat.not_lt.mp himm), trivial, by omega⟩

theorem Src.noWait_iff (s : Src) : s.noWait = true ↔ s.fields.2.2 = 0 := by
  cases s <;> simp [Src.noWait, Src.fields]

theorem Src.ofFields_fields_of_noWait {s : Src} (h : s.noWait = true) : Src.ofFields s.fields.1 s.fields.2.1 0 = some s := by
  rw [← s.noWait_iff.mp h]; exact s.ofFields_fields

theorem Guard.fields_lt (g : Guard) : g.fields.1 < 2 ^ 3 ∧ g.fields.2.1 < 2 ^ 1 ∧ g.fields.2.2 < 2 ^ 1 :=
  ⟨g.q.isLt, Bool.toNat_lt _, Bool.toNat_lt _⟩

theorem Guard.ofFields_fields {g : Guard} (h : g.wf = true) : Guard.ofFields g.fields.1 g.fields.2.1 g.fields.2.2 = some g := by
  obtain ⟨en, q, neg⟩ := g
  cases en with
  | false =>
    simp only [Guard.wf, Bool.false_or, Bool.and_eq_true, beq_iff_eq, Bool.not_eq_true'] at h
    obtain ⟨rfl, rfl⟩ := h; rfl
  | true => simp [Guard.fields, Guard.ofFields]

theorem Guard.fields_of_ofFields {q n e : Nat} {g : Guard} (hq : q < 2 ^ 3) (hn : n < 2 ^ 1) (he : e < 2 ^ 1) (h : Guard.ofFields q n e = some g) :
    g.fields = (q, n, e) := by
  unfold Guard.ofFields at h
  split_ifs at h
  cases h
  simpa [Guard.fields, toNat_beq_one_of_lt hn, toNat_beq_one_of_lt he] using hq

theorem awaitFields_lt (a : Option (BitVec 11)) : (awaitFields a).1 < 2 ^ 11 ∧ (awaitFields a).2 < 2 ^ 2 := by
  cases a <;> simp only [awaitFields] <;> omega

theorem awaitOfFields_fields (a : Option (BitVec 11)) : awaitOfFields (awaitFields a).1 (awaitFields a).2 = some a := by
  cases a <;> simp [awaitFields, awaitOfFields]

theorem awaitFields_kind (a : Option (BitVec 11)) : (awaitFields a).2 = 0 ∨ (awaitFields a).2 = 3 := by
  cases a <;> simp [awaitFields]

theorem awaitFields_of_ofFields {f k : Nat} {a : Option (BitVec 11)} (hf : f < 2 ^ 11) (h : awaitOfFields f k = some a) :
    awaitFields a = (f, k) := by
  unfold awaitOfFields at h
  split_ifs at h with h0 h3
  · cases h; simpa [awaitFields, h0] using hf
  · cases h; simp [awaitFields, h3]

/-! ### Format G (R195) -/

/-- The values that format G lays side by side. -/
def GOp.values (op : Nat) (o : GOp) : List Nat :=
  [op, o.mod.toNat, o.dst.fields.1, o.dst.fields.2, o.a.fields.1, o.a.fields.2.1, o.b.fields.1, o.b.fields.2.1,
    o.c.fields.1, o.c.fields.2.1, o.a.fields.2.2 + 2 * o.b.fields.2.2 + 4 * o.c.fields.2.2,
    o.guard.fields.1, o.guard.fields.2.1, o.guard.fields.2.2, o.imm.toNat]

theorem GOp.encode_eq (op : Nat) (o : GOp) : GOp.encode op o = packFields (gWidths.zip (o.values op)) := rfl

theorem GOp.values_fit {op : Nat} (hop : op < 1024) (o : GOp) : FieldsFit gWidths (o.values op) := by
  obtain ⟨hd, hdk⟩ := o.dst.fields_lt
  obtain ⟨ha, hak, haw⟩ := o.a.fields_lt
  obtain ⟨hb, hbk, hbw⟩ := o.b.fields_lt
  obtain ⟨hc, hck, hcw⟩ := o.c.fields_lt
  obtain ⟨hq, hn, he⟩ := o.guard.fields_lt
  have hwb : o.a.fields.2.2 + 2 * o.b.fields.2.2 + 4 * o.c.fields.2.2 < 2 ^ 3 := by omega
  simp only [gWidths, GOp.values, List.forall₂_cons, List.forall₂_nil_left_iff, and_true]
  exact ⟨hop, o.mod.isLt, hd, hdk, ha, hak, hb, hbk, hc, hck, hwb, hq, hn, he, o.imm.isLt⟩

theorem GOp.encode_lt {op : Nat} (hop : op < 1024) (o : GOp) : GOp.encode op o < 2 ^ 96 := by
  rw [GOp.encode_eq]; exact packFields_lt (o.values_fit hop)

theorem GOp.unpackFields_encode {op : Nat} (hop : op < 1024) (o : GOp) : unpackFields gWidths (GOp.encode op o) = o.values op := by
  rw [GOp.encode_eq, unpackFields_packFields (o.values_fit hop)]

theorem GOp.ofBits_encode {op : Nat} (hop : op < 1024) {o : GOp} (hg : o.guard.wf = true) : GOp.ofBits (GOp.encode op o) = some o := by
  obtain ⟨-, -, haw⟩ := o.a.fields_lt
  obtain ⟨-, -, hbw⟩ := o.b.fields_lt
  obtain ⟨wb, hwb⟩ : ∃ wb, wb = o.a.fields.2.2 + 2 * o.b.fields.2.2 + 4 * o.c.fields.2.2 := ⟨_, rfl⟩
  have ha : wb % 2 = o.a.fields.2.2 := by omega
  have hb : wb / 2 % 2 = o.b.fields.2.2 := by omega
  have hc : wb / 4 = o.c.fields.2.2 := by omega
  rw [GOp.ofBits, o.unpackFields_encode hop]
  simp only [GOp.values, ← hwb, ha, hb, hc, Dst.ofFields_fields, Src.ofFields_fields, Guard.ofFields_fields hg,
    BitVec.ofNat_toNat, BitVec.setWidth_eq]

theorem GOp.encode_ofBits {x : Nat} {o : GOp} (hx : x < 2 ^ 96) (h : GOp.ofBits x = some o) : GOp.encode (x % 1024) o = x := by
  unfold GOp.ofBits at h
  split at h
  case h_2 => cases h
  next op m d dk a ak b bk c ck wb g gn ge imm hv =>
  obtain ⟨hfit, hpack⟩ := unpackFields_eq hx hv
  simp only [gWidths, List.forall₂_cons] at hfit
  obtain ⟨-, hm, hd, hdk, ha, hak, hb, hbk, hc, hck, hwb, hg, hgn, hge, himm, -⟩ := hfit
  split at h
  case h_2 => cases h
  next dst sa sb sc gd hdst hsa hsb hsc hgd =>
  cases h
  have hop : x % 1024 = op := mod_of_unpackFields hv
  have hwait : wb % 2 + 2 * (wb / 2 % 2) + 4 * (wb / 4) = wb := by omega
  rw [GOp.encode_eq, hop, ← hpack]
  simp only [GOp.values, Dst.fields_of_ofFields hd hdk hdst, Src.fields_of_ofFields ha hak (Nat.mod_lt _ Nat.two_pos) hsa,
    Src.fields_of_ofFields hb hbk (Nat.mod_lt _ Nat.two_pos) hsb, Src.fields_of_ofFields hc hck (by omega) hsc,
    Guard.fields_of_ofFields hg hgn hge hgd, BitVec.toNat_ofNat, Nat.mod_eq_of_lt hm, Nat.mod_eq_of_lt himm, hwait]

/-! ### Format J (R201) -/

/-- The values that format J lays side by side. -/
def JOp.values (op : Nat) (o : JOp) : List Nat :=
  [op, o.mod.toNat, o.dst.fields.1, o.dst.fields.2, o.a.fields.1, o.a.fields.2.1, o.tslot.toNat, o.off.toNat,
    o.guard.fields.1, o.guard.fields.2.1, o.guard.fields.2.2, o.imm.toNat]

theorem JOp.encode_eq (op : Nat) (o : JOp) : JOp.encode op o = packFields (jWidths.zip (o.values op)) := rfl

theorem JOp.values_fit {op : Nat} (hop : op < 1024) (o : JOp) : FieldsFit jWidths (o.values op) := by
  obtain ⟨hd, hdk⟩ := o.dst.fields_lt
  obtain ⟨ha, hak, -⟩ := o.a.fields_lt
  obtain ⟨hq, hn, he⟩ := o.guard.fields_lt
  simp only [jWidths, JOp.values, List.forall₂_cons, List.forall₂_nil_left_iff, and_true]
  exact ⟨hop, o.mod.isLt, hd, hdk, ha, hak, o.tslot.isLt, o.off.isLt, hq, hn, he, o.imm.isLt⟩

theorem JOp.encode_lt {op : Nat} (hop : op < 1024) (o : JOp) : JOp.encode op o < 2 ^ 96 := by
  rw [JOp.encode_eq]; exact packFields_lt (o.values_fit hop)

theorem JOp.unpackFields_encode {op : Nat} (hop : op < 1024) (o : JOp) : unpackFields jWidths (JOp.encode op o) = o.values op := by
  rw [JOp.encode_eq, unpackFields_packFields (o.values_fit hop)]

theorem JOp.ofBits_encode {op : Nat} (hop : op < 1024) {o : JOp} (hg : o.guard.wf = true) (ha : o.a.noWait = true) :
    JOp.ofBits (JOp.encode op o) = some o := by
  rw [JOp.ofBits, o.unpackFields_encode hop]
  simp only [JOp.values, Dst.ofFields_fields, Src.ofFields_fields_of_noWait ha, Guard.ofFields_fields hg, BitVec.ofNat_toNat,
    BitVec.setWidth_eq]

theorem JOp.encode_ofBits {x : Nat} {o : JOp} (hx : x < 2 ^ 96) (h : JOp.ofBits x = some o) :
    JOp.encode (x % 1024) o = x ∧ o.a.noWait = true := by
  unfold JOp.ofBits at h
  split at h
  case h_2 => cases h
  next op m d dk a ak ts off g gn ge imm hv =>
  obtain ⟨hfit, hpack⟩ := unpackFields_eq hx hv
  simp only [jWidths, List.forall₂_cons] at hfit
  obtain ⟨-, hm, hd, hdk, ha, hak, hts, hoff, hg, hgn, hge, himm, -⟩ := hfit
  split at h
  case h_2 => cases h
  next dst sa gd hdst hsa hgd =>
  cases h
  have hop : x % 1024 = op := mod_of_unpackFields hv
  have hsrc := Src.fields_of_ofFields ha hak Nat.two_pos hsa
  refine ⟨?_, by rw [Src.noWait_iff, hsrc]⟩
  rw [JOp.encode_eq, hop, ← hpack]
  simp only [JOp.values, Dst.fields_of_ofFields hd hdk hdst, hsrc, Guard.fields_of_ofFields hg hgn hge hgd, BitVec.toNat_ofNat,
    Nat.mod_eq_of_lt hm, Nat.mod_eq_of_lt hts, Nat.mod_eq_of_lt hoff, Nat.mod_eq_of_lt himm]

/-! ### Format S (R202) -/

/-- The values that STOP lays side by side: format G with its awaits alone. -/
def SOp.values (o : SOp) : List Nat :=
  [0x206, 0, (awaitFields o.d).1, (awaitFields o.d).2, (awaitFields o.a).1, (awaitFields o.a).2, (awaitFields o.b).1, (awaitFields o.b).2,
    (awaitFields o.c).1, (awaitFields o.c).2, 0, 0, 0, 0, 0]

theorem SOp.encode_eq (o : SOp) : SOp.encode o = packFields (gWidths.zip o.values) := rfl

theorem SOp.values_fit (o : SOp) : FieldsFit gWidths o.values := by
  obtain ⟨hd, hdk⟩ := awaitFields_lt o.d
  obtain ⟨ha, hak⟩ := awaitFields_lt o.a
  obtain ⟨hb, hbk⟩ := awaitFields_lt o.b
  obtain ⟨hc, hck⟩ := awaitFields_lt o.c
  simpa [gWidths, SOp.values] using ⟨hd, hdk, ha, hak, hb, hbk, hc, hck⟩

theorem SOp.encode_lt (o : SOp) : SOp.encode o < 2 ^ 96 := by
  rw [SOp.encode_eq]; exact packFields_lt o.values_fit

theorem SOp.unpackFields_encode (o : SOp) : unpackFields gWidths (SOp.encode o) = o.values := by
  rw [SOp.encode_eq, unpackFields_packFields o.values_fit]

theorem SOp.ofBits_encode (o : SOp) : SOp.ofBits (SOp.encode o) = .ok o := by
  have hkind (a : Option (BitVec 11)) : (awaitFields a).2 ≠ 1 ∧ (awaitFields a).2 ≠ 2 := by
    obtain h | h := awaitFields_kind a <;> omega
  rw [SOp.ofBits, o.unpackFields_encode]
  simp [SOp.values, hkind, awaitOfFields_fields]

theorem SOp.encode_ofBits {x : Nat} {o : SOp} (hx : x < 2 ^ 96) (hop : x % 1024 = 0x206) (h : SOp.ofBits x = .ok o) : SOp.encode o = x := by
  unfold SOp.ofBits at h
  split at h
  case h_2 => cases h
  next op m d dk a ak b bk c ck wb g gn ge imm hv =>
  obtain ⟨hfit, hpack⟩ := unpackFields_eq hx hv
  simp only [gWidths, List.forall₂_cons] at hfit
  obtain ⟨-, hm, hd, hdk, ha, hak, hb, hbk, hc, hck, -⟩ := hfit
  split_ifs at h with hkind hzero
  split at h
  case h_2 => cases h
  next sd sa sb sc hsd hsa hsb hsc =>
  cases h
  have hop : 0x206 = op := hop ▸ mod_of_unpackFields hv
  obtain ⟨rfl, rfl, rfl, rfl, rfl, rfl⟩ : m = 0 ∧ wb = 0 ∧ g = 0 ∧ gn = 0 ∧ ge = 0 ∧ imm = 0 := by omega
  rw [SOp.encode_eq, ← hpack, ← hop]
  simp only [SOp.values, awaitFields_of_ofFields hd hsd, awaitFields_of_ofFields ha hsa, awaitFields_of_ofFields hb hsb,
    awaitFields_of_ofFields hc hsc]

/-! ### Group 7 (R316) -/

theorem ofNat_toNat_add_mul {w m : Nat} (a : BitVec w) (n : Nat) (hm : m = 2 ^ w) : BitVec.ofNat w (a.toNat + m * n) = a := by
  subst hm
  exact BitVec.eq_of_toNat_eq (by simp [Nat.mod_eq_of_lt a.isLt])

theorem toNat_add_mul_div {w m : Nat} (a : BitVec w) (n : Nat) (hm : m = 2 ^ w) : (a.toNat + m * n) / m = n := by
  subst hm
  rw [Nat.add_mul_div_left _ _ (Nat.two_pow_pos w), Nat.div_eq_of_lt a.isLt, Nat.zero_add]

theorem toNat_mod_two (b : Bool) : b.toNat % 2 = b.toNat := Nat.mod_eq_of_lt (Bool.toNat_lt b)

/-- The values that a group 7 instruction lays side by side in format G, `sat` the SAT bit of XDRAIN. -/
def XFields.values (f : XFields) (sat : Nat) : List Nat := [f.op, f.mod, f.d, 0, f.a, f.ak, f.b, f.bk, sat, 0, 0, 0, 0, 0, f.imm]

theorem encodeX_eq_some {i : Instr} {x : Nat} :
    encodeX i = some x ↔ ∃ f, xParts i = some f ∧ packFields (gWidths.zip (f.values (xSat i))) = x :=
  Option.map_eq_some_iff

theorem xParts_op {i : Instr} {f : XFields} (h : xParts i = some f) : ¬ (f.op < 0x380 ∨ 0x391 < f.op) := by
  cases i <;> cases h
  all_goals exact of_decide_eq_true rfl

theorem parts_of_xParts {i : Instr} {f : XFields} (h : xParts i = some f) : gParts i = none ∧ jParts i = none ∧ dyInRange i = true := by
  cases i <;> cases h
  all_goals exact ⟨rfl, rfl, rfl⟩

theorem xParts_fit {i : Instr} {f : XFields} (h : xParts i = some f) : FieldsFit gWidths (f.values (xSat i)) := by
  cases i <;> cases h
  all_goals simp only [XFields.values, gWidths, xSat, packFields, List.forall₂_cons, List.forall₂_nil_left_iff, and_true]
  case xload.refl c _ _ _ _ => have hc := Bool.toNat_lt c; omega
  case xdrain.refl sat _ _ _ _ => have hsat := Bool.toNat_lt sat; omega
  case xset.refl a _ => have ha := a.fields_lt; omega
  case xaddg.refl b _ => have hb := b.fields_lt; omega
  all_goals omega

/-- The sources that XSET and XADDG take carry no wait bit. -/
theorem noWait_of_not_isV {s : Src} (h : s.isV = false) : s.noWait = true := by
  cases s with
  | v n w => cases h
  | _ => rfl

theorem causeIf_eq_none {op c : Nat} {b : Bool} : causeIf op c b = none ↔ b = false := by cases b <;> simp [causeIf]

theorem xCandidate_of_xParts {i : Instr} {f : XFields} {x : Nat} (h : xParts i = some f) (hc : chkX i = none)
    (hv : unpackFields gWidths x = f.values (xSat i)) : xCandidate x = some i := by
  cases i <;> cases h
  case xset.refl d a imm =>
    simp only [chkX, Option.or_eq_none_iff, causeIf_eq_none, Bool.or_eq_false_iff] at hc
    obtain ⟨-, ⟨ha, -⟩, -⟩ := hc
    simp [xCandidate, hv, XFields.values, Src.ofFields_fields_of_noWait (noWait_of_not_isV ha)]
  case xaddg.refl d ga b imm =>
    simp only [chkX, Option.or_eq_none_iff, causeIf_eq_none, Bool.or_eq_false_iff] at hc
    obtain ⟨⟨hb, -⟩, -⟩ := hc
    simp [xCandidate, hv, XFields.values, Src.ofFields_fields_of_noWait (noWait_of_not_isV hb)]
  case xsub.refl fmt st base count window =>
    have hcount (n : Nat) : n / 128 = n / 8 / 16 := (Nat.div_div_eq_div_mul n 8 16).symm
    have hwindow (n : Nat) : n / 4096 = n / 8 / 16 / 32 := by rw [Nat.div_div_eq_div_mul, Nat.div_div_eq_div_mul]
    simp [xCandidate, hv, XFields.values, packFields, hcount, hwindow, ofNat_toNat_add_mul, toNat_add_mul_div]
  all_goals simp [xCandidate, hv, XFields.values, xSat, ofNat_toNat_add_mul, toNat_add_mul_div, toNat_mod_two]

/-! ### Dyzil words (R346) -/

/-- The values that a Dyzil word lays side by side. -/
def dyValues (p : Nat × Nat × Nat × Nat) : List Nat := [p.1, p.2.1, p.2.2.1, p.2.2.2]

theorem encodeDyzil_eq_some {i : Instr} {w : Nat} :
    encodeDyzil i = some w ↔ ∃ p, dyParts i = some p ∧ packFields (dyWidths.zip (dyValues p)) = w :=
  Option.map_eq_some_iff

theorem dyParts_fit {i : Instr} {p : Nat × Nat × Nat × Nat} (h : dyParts i = some p) : FieldsFit dyWidths (dyValues p) := by
  cases i <;> cases h
  all_goals simp only [dyValues, dyWidths, List.forall₂_cons, List.forall₂_nil_left_iff, and_true]
  all_goals omega

theorem dyCandidate_of_dyParts {i : Instr} {p : Nat × Nat × Nat × Nat} {w : Nat} (h : dyParts i = some p)
    (hv : unpackFields dyWidths w = dyValues p) : dyCandidate w = some i := by
  cases i <;> cases h
  all_goals simp [dyCandidate, hv, dyValues, ofNat_toNat_add_mul, toNat_add_mul_div]

theorem decodeDyzil_encodeDyzil {i : Instr} {w : Nat} (h : encodeDyzil i = some w) : w < 2 ^ 32 ∧ decodeDyzil w = some i := by
  obtain ⟨p, hp, rfl⟩ := encodeDyzil_eq_some.mp h
  have hfit := dyParts_fit hp
  refine ⟨packFields_lt hfit, ?_⟩
  simp only [decodeDyzil, dyCandidate_of_dyParts hp (unpackFields_packFields hfit), h, if_true]

theorem encodeDyzil_decodeDyzil {i : Instr} {w : Nat} (h : decodeDyzil w = some i) : encodeDyzil i = some w := by
  unfold decodeDyzil at h
  split at h
  · cases h
  · split_ifs at h with he
    cases h
    exact he

/-! ### Operation codes (R203) -/

theorem gParts_of_gInstr {op : Nat} {o : GOp} {i : Instr} (h : gInstr op o = some i) : gParts i = some (op, o) := by
  unfold gInstr at h
  split at h <;> cases h <;> rfl

theorem jParts_of_jInstr {op : Nat} {o : JOp} {i : Instr} (h : jInstr op o = some i) : jParts i = some (op, o) := by
  unfold jInstr at h
  split at h <;> cases h <;> rfl

theorem gParts_eq_none_of_jInstr {op : Nat} {o : JOp} {i : Instr} (h : jInstr op o = some i) : gParts i = none := by
  unfold jInstr at h
  split at h <;> cases h <;> rfl

theorem gParts_statement {i : Instr} {p : Nat × GOp} (h : gParts i = some p) : Laws.Parts.Statement i := by
  cases i <;> cases h
  all_goals exact Laws.Parts.of_g rfl rfl rfl rfl rfl rfl

theorem jParts_statement {i : Instr} {p : Nat × JOp} (h : jParts i = some p) : Laws.Parts.Statement i := by
  cases i <;> cases h
  all_goals exact Laws.Parts.of_j rfl rfl rfl rfl rfl

/-! ### Decoding what was encoded -/

theorem guard_wf_of_chkG {op : Nat} {o : GOp} (h : chkG op o = none) : o.guard.wf = true := by
  by_contra hg
  rw [Bool.not_eq_true] at hg
  unfold chkG at h
  split at h <;> simp [hg] at h

theorem guard_wf_of_chkJ {op : Nat} {o : JOp} (h : chkJ op o = none) : o.guard.wf = true := by
  by_contra hg
  rw [Bool.not_eq_true] at hg
  simp [chkJ, hg] at h

theorem decodeSlot_formatG {op : Nat} {o : GOp} {i : Instr} (hp : gParts i = some (op, o)) (hc : chkG op o = none) :
    GOp.encode op o < 2 ^ 96 ∧ decodeSlot (GOp.encode op o) = .ok i := by
  obtain ⟨hi, hrow, hlt, hother⟩ := (gParts_statement hp).1 op o hp
  obtain ⟨hstop, hj⟩ := List.ne_and_not_mem_of_not_mem_cons hother
  have hop : op < 1024 := by omega
  have hx : GOp.encode op o % 1024 = op := mod_of_unpackFields (o.unpackFields_encode hop)
  refine ⟨o.encode_lt hop, ?_⟩
  simp only [decodeSlot, hx, if_neg hstop, if_neg hj, if_neg (Nat.not_le.mpr hlt), Option.isNone_eq_false_iff.mpr hrow, Bool.false_eq_true,
    if_false, GOp.ofBits_encode hop (guard_wf_of_chkG hc), hc, hi]

theorem decodeSlot_formatJ {op : Nat} {o : JOp} {i : Instr} (hp : jParts i = some (op, o)) (hc : chkJ op o = none) (ha : o.a.noWait = true) :
    JOp.encode op o < 2 ^ 96 ∧ decodeSlot (JOp.encode op o) = .ok i := by
  obtain ⟨hi, hmem⟩ := (jParts_statement hp).2.1 op o hp
  have hstop : op ≠ 0x206 := by rintro rfl; exact absurd hmem (by decide)
  have hop : op < 1024 := by simp at hmem; omega
  have hx : JOp.encode op o % 1024 = op := mod_of_unpackFields (o.unpackFields_encode hop)
  refine ⟨o.encode_lt hop, ?_⟩
  simp only [decodeSlot, hx, if_neg hstop, if_pos hmem, JOp.ofBits_encode hop (guard_wf_of_chkJ hc) ha, hc, hi]

theorem decodeSlot_formatS (o : SOp) : SOp.encode o < 2 ^ 96 ∧ decodeSlot (SOp.encode o) = .ok (.stop o) := by
  have hx : SOp.encode o % 1024 = 0x206 := mod_of_unpackFields o.unpackFields_encode
  refine ⟨o.encode_lt, ?_⟩
  simp only [decodeSlot, hx, if_true, SOp.ofBits_encode]
  rfl

theorem decodeSlot_group7 {i : Instr} {x : Nat} (hc : chkX i = none) (h : encodeX i = some x) : x < 2 ^ 96 ∧ decodeSlot x = .ok i := by
  obtain ⟨f, hf, hx⟩ := encodeX_eq_some.mp h
  have hfit := xParts_fit hf
  have hv : unpackFields gWidths x = f.values (xSat i) := hx ▸ unpackFields_packFields hfit
  have hop : x % 1024 = f.op := mod_of_unpackFields hv
  have hrange := xParts_op hf
  have hstop : f.op ≠ 0x206 := by omega
  have hj : f.op ∉ [0x200, 0x201, 0x203, 0x209, 0x20F] := by simp; omega
  refine ⟨hx ▸ packFields_lt hfit, ?_⟩
  simp only [decodeSlot, decodeX, hop, if_neg hstop, if_neg hj, if_pos (Nat.not_lt.mp (not_or.mp hrange).1), if_neg hrange,
    xCandidate_of_xParts hf hc hv, h, ne_eq, not_true, if_false, hc]

theorem decodeSlot_encodeSlot {i : Instr} {x : Nat} (hw : i.wellFormed = true) (h : encodeSlot i = some x) :
    x < 2 ^ 96 ∧ decodeSlot x = .ok i := by
  unfold Instr.wellFormed at hw
  unfold encodeSlot at h
  cases hg : gParts i with
  | some p =>
    simp only [hg, Option.isNone_iff_eq_none, Option.some.injEq] at hw h
    exact h ▸ decodeSlot_formatG hg hw
  | none =>
    cases hj : jParts i with
    | some p =>
      simp only [hg, hj, Bool.and_eq_true, Option.isNone_iff_eq_none, Option.some.injEq] at hw h
      obtain ⟨hc, ha⟩ := hw
      exact h ▸ decodeSlot_formatJ hj hc ha
    | none =>
      simp only [hg, hj, Bool.and_eq_true, Option.isNone_iff_eq_none] at hw h
      obtain ⟨hc, -⟩ := hw
      split at h
      next o => exact Option.some.inj h ▸ decodeSlot_formatS o
      next => exact decodeSlot_group7 hc h

/-! ### Encoding what was decoded -/

theorem decodeX_eq_ok {x : Nat} {i : Instr} (h : decodeX x = .ok i) : encodeX i = some x ∧ chkX i = none := by
  simp only [decodeX] at h
  split_ifs at h
  split at h
  · cases h
  split_ifs at h with he
  split at h
  · cases h
  · cases h; exact ⟨not_not.mp he, ‹_›⟩

/-- What a slot that decodes is: STOP, or an instruction of format J, group 7 or format G that passes its field checks. -/
theorem decodeSlot_cases {x : Nat} {i : Instr} (h : decodeSlot x = .ok i) :
    (∃ o, x % 1024 = 0x206 ∧ SOp.ofBits x = .ok o ∧ i = .stop o) ∨
    (∃ o, JOp.ofBits x = some o ∧ chkJ (x % 1024) o = none ∧ jInstr (x % 1024) o = some i) ∨
    (encodeX i = some x ∧ chkX i = none) ∨
    (∃ o, GOp.ofBits x = some o ∧ chkG (x % 1024) o = none ∧ gInstr (x % 1024) o = some i) := by
  simp only [decodeSlot] at h
  split_ifs at h with hstop hj hx
  · cases ho : SOp.ofBits x with
    | error e => rw [ho] at h; cases h
    | ok o => rw [ho] at h; cases h; exact .inl ⟨o, hstop, rfl, rfl⟩
  · split at h
    · cases h
    next o ho =>
    split at h
    · cases h
    next hc =>
    split at h
    · next hi => cases h; exact .inr (.inl ⟨o, ho, hc, hi⟩)
    · cases h
  · exact .inr (.inr (.inl (decodeX_eq_ok h)))
  · split at h
    · cases h
    next o ho =>
    split at h
    · cases h
    next hc =>
    split at h
    · next hi => cases h; exact .inr (.inr (.inr ⟨o, ho, hc, hi⟩))
    · cases h

theorem encodeSlot_decodeSlot {x : Nat} {i : Instr} (hx : x < 2 ^ 96) (h : decodeSlot x = .ok i) :
    i.wellFormed = true ∧ encodeSlot i = some x := by
  obtain ⟨o, hop, ho, rfl⟩ | ⟨o, ho, hc, hi⟩ | ⟨he, hc⟩ | ⟨o, ho, hc, hi⟩ := decodeSlot_cases h
  · exact ⟨rfl, congrArg some (SOp.encode_ofBits hx hop ho)⟩
  · obtain ⟨henc, ha⟩ := JOp.encode_ofBits hx ho
    simp [Instr.wellFormed, encodeSlot, gParts_eq_none_of_jInstr hi, jParts_of_jInstr hi, hc, ha, henc]
  · obtain ⟨f, hf, -⟩ := encodeX_eq_some.mp he
    obtain ⟨hg, hj, hrange⟩ := parts_of_xParts hf
    refine ⟨by simp [Instr.wellFormed, hg, hj, hc, hrange], ?_⟩
    simp only [encodeSlot, hg, hj]
    split
    · cases he
    · exact he
  · simp [Instr.wellFormed, encodeSlot, gParts_of_gInstr hi, hc, GOp.encode_ofBits hx ho]

/-- Settles O56: packing and cutting of fields are inverse, each operand is the one its fields name, each operation code names the instruction
that bears it, and the decoder's field checks are those of well-formedness. -/
theorem decodeAndEncodeAgree : Obligations.DecodeAndEncodeAgree :=
  ⟨fun _ _ => decodeSlot_encodeSlot, fun _ _ => encodeSlot_decodeSlot, fun _ _ => decodeDyzil_encodeDyzil, fun _ _ => encodeDyzil_decodeDyzil⟩

/-- Settles O60: the decoder evaluates each word to its instruction, and refuses the unassigned operation code. -/
theorem wordsDecode : Obligations.WordsDecode :=
  ⟨rfl, rfl, rfl, rfl, rfl, rfl, rfl, rfl, rfl, _, rfl⟩

end Sys2Proof
end

section
namespace Sys2Proof.Machine

/-! ## Integer instructions -/

/-! ### Words as integers (R6, R217) -/

/-- A word of n bits read as a signed number is its value in two's complement. -/
theorem signed_toNat {n : Nat} (x : BitVec n) : signed n x.toNat = x.toInt := by
  rw [BitVec.toInt_eq_toNat_cond, signed, Nat.mod_eq_of_lt x.isLt]
  cases n with
  | zero => simp [BitVec.of_length_zero]
  | succ n => rw [Nat.add_sub_cancel, pow_succ']; congr 1; simp

@[simp] theorem sg_eq_toInt (x : Word) : sg x = x.toInt := signed_toNat x

@[simp] theorem un_eq_toNat (x : Word) : un x = x.toNat := rfl

theorem ofNat_wrap (n : Nat) (x : Int) : BitVec.ofNat n (wrap n x) = BitVec.ofInt n x := by
  have hpos : (0 : Int) < (2 ^ n : Nat) := by positivity
  apply BitVec.eq_of_toNat_eq
  rw [BitVec.toNat_ofNat, BitVec.toNat_ofInt, wrap, Nat.mod_eq_of_lt]
  have := Int.emod_lt_of_pos x hpos
  have := Int.emod_nonneg x hpos.ne'
  omega

@[simp] theorem wordOf_eq_ofInt (x : Int) : wordOf x = BitVec.ofInt 32 x := ofNat_wrap 32 x
@[simp] theorem dwordOf_eq_ofInt (x : Int) : dwordOf x = BitVec.ofInt 64 x := ofNat_wrap 64 x

/-- The three modes of R217 are those of the statement. -/
theorem satWord_eq_underMode (mod : Nat) (s u : Int) : satWord mod s u = underMode mod s u := by
  unfold satWord underMode
  split <;> simp [clampS, clampU]

/-- A MOD of one bit chooses between wrapping and signed clamping. -/
theorem satWord_oneBit (mod : Nat) (s u : Int) : satWord (mod % 2) s u = if bitOf mod 0 then clampS s else BitVec.ofInt 32 s := by
  rw [satWord_eq_underMode]
  obtain h | h := Nat.mod_two_eq_zero_or_one mod <;> simp [underMode, bitOf, h]

theorem imulVal_eq (a b : Word) : imulVal a b = a * b := by
  rw [imulVal, BitVec.ofNat_mul, BitVec.ofNat_toNat, BitVec.ofNat_toNat, BitVec.setWidth_eq, BitVec.setWidth_eq]

/-- IMULH (R217): bits 63 to 32 of the exact product modulo 2^64 are those of its quotient by 2^32. -/
theorem ofNat_wrap64_div (x : Int) : BitVec.ofNat 32 (wrap 64 x / 2 ^ 32) = BitVec.ofInt 32 (x / 2 ^ 32) := by
  apply BitVec.eq_of_toNat_eq
  simp only [BitVec.toNat_ofNat, BitVec.toNat_ofInt, wrap]
  omega

theorem imulhVal_eq (mod : Nat) (a b : Word) : imulhVal mod a b =
    if bitOf mod 0 then BitVec.ofNat 32 (a.toNat * b.toNat / 2 ^ 32) else BitVec.ofInt 32 (a.toInt * b.toInt / 2 ^ 32) := by
  rw [imulhVal, ofNat_wrap64_div]
  split
  · rw [← BitVec.ofInt_natCast]; simp
  · simp

theorem inegVal_eq (mod : Nat) (a : Word) : inegVal mod a = if bitOf mod 0 then clampS (-a.toInt) else -a := by
  rw [inegVal, satWord_oneBit, sg_eq_toInt, BitVec.ofInt_neg, BitVec.ofInt_toInt]

theorem iabsVal_eq (mod : Nat) (a : Word) : iabsVal mod a =
    if bitOf mod 0 then clampS (max a.toInt (-a.toInt)) else if a.toInt < 0 then -a else a := by
  have habs : (a.toInt.natAbs : Int) = max a.toInt (-a.toInt) := by omega
  have hwrap : BitVec.ofInt 32 (max a.toInt (-a.toInt)) = if a.toInt < 0 then -a else a := by
    split
    · rw [max_eq_right (by omega), BitVec.ofInt_neg, BitVec.ofInt_toInt]
    · rw [max_eq_left (by omega), BitVec.ofInt_toInt]
  rw [iabsVal, satWord_oneBit, sg_eq_toInt, habs, hwrap]

/-- ISETP's order on unsigned (MOD 10) and on signed (MOD 2) operands. -/
theorem isetpCond_lt (u : Bool) (a b : Word) :
    isetpCond (if u then 10 else 2) a b = if u then decide (a.toNat < b.toNat) else decide (a.toInt < b.toInt) := by
  cases u <;> simp [isetpCond, bitOf, intCond, ← sg_eq_toInt, sg]

theorem iminVal_eq (mod : Nat) (a b : Word) : iminVal mod a b =
    if bitOf mod 0 then (if b.toNat < a.toNat then b else a) else (if b.toInt < a.toInt then b else a) := by
  rw [iminVal, isetpCond_lt]
  split <;> simp

theorem imaxVal_eq (mod : Nat) (a b : Word) : imaxVal mod a b =
    if bitOf mod 0 then (if a.toNat < b.toNat then b else a) else (if a.toInt < b.toInt then b else a) := by
  rw [imaxVal, isetpCond_lt]
  split <;> simp

/-- Settles O1: each entry writes its value by its law, and the value is the exact result under its mode. -/
theorem integerArithmeticResults : Obligations.IntegerArithmeticResults := fun o =>
  ⟨goesThrough_lane32 (fun _ => rfl) fun _ _ _ => by rw [iaddVal, satWord_eq_underMode]; simp,
   goesThrough_lane32 (fun _ => rfl) fun _ _ _ => by rw [isubVal, satWord_eq_underMode]; simp,
   goesThrough_lane32 (fun _ => rfl) fun a b _ => imulVal_eq a b,
   goesThrough_lane32 (fun _ => rfl) fun a b _ => imulhVal_eq _ a b,
   goesThrough_lane32 (fun _ => rfl) fun _ _ _ => by rw [imadVal, satWord_eq_underMode]; simp,
   goesThrough_lane32 (fun _ => rfl) fun a _ _ => inegVal_eq _ a,
   goesThrough_lane32 (fun _ => rfl) fun a _ _ => iabsVal_eq _ a,
   goesThrough_lane32 (fun _ => rfl) fun a b _ => iminVal_eq _ a b,
   goesThrough_lane32 (fun _ => rfl) fun a b _ => imaxVal_eq _ a b⟩

/-! ### 64-bit results (R221, R223) -/

theorem ofInt_toNat {n : Nat} (x : BitVec n) : BitVec.ofInt n x.toNat = x := by
  rw [BitVec.ofInt_natCast, BitVec.ofNat_toNat, BitVec.setWidth_eq]

theorem ofInt_mul_two_pow (n k : Nat) (x : Int) : BitVec.ofInt n (x * 2 ^ k) = BitVec.ofInt n x <<< k := by
  have hpow : BitVec.ofInt n (2 ^ k) = BitVec.twoPow n k := by
    apply BitVec.eq_of_toNat_eq
    rw [BitVec.toNat_twoPow, ← BitVec.toNat_ofNat, ← BitVec.ofInt_natCast, Nat.cast_pow, Nat.cast_ofNat]
  rw [BitVec.ofInt_mul, hpow, BitVec.shiftLeft_eq_mul_twoPow]

theorem imad64Val_eq (mod : Nat) (a b : Word) (c : DWord) : imad64Val mod a b c =
    (if bitOf mod 0 then BitVec.ofNat 64 (a.toNat * b.toNat) else BitVec.ofInt 64 (a.toInt * b.toInt)) + c := by
  rw [imad64Val, dwordOf_eq_ofInt, BitVec.ofInt_add, ofInt_toNat]
  congr 1
  split
  · rw [← BitVec.ofInt_natCast]; simp
  · simp

/-- LEA (R221): each part of the exact sum modulo 2^64. -/
theorem leaVal_eq (mod : Nat) (base : DWord) (b : Word) (imm : BitVec 20) : leaVal mod base b imm =
    base + ((if bitOf mod 3 then b.setWidth 64 else b.signExtend 64) <<< (mod % 8)) + imm.signExtend 64 := by
  have hindex : BitVec.ofInt 64 (if bitOf mod 3 then un b else sg b) = if bitOf mod 3 then b.setWidth 64 else b.signExtend 64 := by
    split
    · rw [un_eq_toNat, BitVec.ofInt_natCast, BitVec.ofNat_toNat]
    · rw [sg_eq_toInt]; rfl
  rw [leaVal, dwordOf_eq_ofInt, BitVec.ofInt_add, BitVec.ofInt_add, ofInt_toNat, ofInt_mul_two_pow, hindex, signed_toNat]
  rfl

/-- Settles O2: each entry writes its pair by its law, and the value is the sum of its parts modulo 2^64. -/
theorem wideIntegerResults : Obligations.WideIntegerResults := fun _ =>
  ⟨goesThrough_lane64 (fun _ => rfl) fun _ _ => imad64Val_eq _ _ _ _,
   goesThrough_lane64 (fun _ => rfl) fun _ _ => rfl,
   goesThrough_lane64 (fun _ => rfl) fun _ _ => leaVal_eq _ _ _ _⟩

/-! ### Bits of words (R217) -/

/-- The numbers of a mask are its bits. -/
theorem testBit_maskOf (l : List Nat) (i : Nat) : (maskOf l).testBit i = decide (i ∈ l) := by
  have hfold (m : Nat) : (l.foldl (fun m i => m ||| 2 ^ i) m).testBit i = (m.testBit i || decide (i ∈ l)) := by
    induction l generalizing m with
    | nil => simp
    | cons j l ih => simp [ih, Nat.testBit_two_pow, Bool.or_assoc, eq_comm]
  rw [maskOf, hfold, Nat.zero_testBit, Bool.false_or]

/-- The word of the bits below 32 that meet p. -/
theorem getLsbD_ofNat_maskOf (p : Nat → Bool) (i : Nat) :
    (BitVec.ofNat 32 (maskOf ((List.range 32).filter p))).getLsbD i = (decide (i < 32) && p i) := by
  rw [BitVec.getLsbD_ofNat, testBit_maskOf]
  by_cases h : i < 32 <;> simp [h]

/-- A count kept in a fold is the number of members that are counted. -/
theorem popcount_eq_countP (x : Nat) : popcount x = (List.range 32).countP fun i => bitOf x i := by
  have hfold (l : List Nat) (n : Nat) : l.foldl (fun n i => n + (bitOf x i).toNat) n = n + l.countP fun i => bitOf x i := by
    induction l generalizing n with
    | nil => simp
    | cons i l ih => rw [List.foldl_cons, ih, List.countP_cons]; cases bitOf x i <;> simp; omega
  rw [popcount, hfold, Nat.zero_add]

theorem popcVal_eq (a : Word) : popcVal a = BitVec.ofNat 32 ((List.range 32).countP fun i => a.getLsbD i) := by
  simp only [popcVal, popcount_eq_countP, bitOf_toNat]

theorem brevVal_eq (a : Word) : brevVal a = a.reverse := by
  apply BitVec.eq_of_getLsbD_eq
  intro i hi
  rw [brevVal, getLsbD_ofNat_maskOf, BitVec.getLsbD_reverse, BitVec.getMsbD, bitOf_toNat]

/-- CLZ (R217): above the highest bit of a word that is not 0 no bit is set. -/
theorem clzVal_eq (a : Word) : clzVal a = BitVec.ofNat 32 ((List.range 32).findIdx fun i => a.getLsbD (31 - i)) := by
  rw [clzVal]
  split
  next hzero =>
    subst hzero
    decide
  next hne =>
    have hpos : a.toNat ≠ 0 := fun h => hne (BitVec.eq_of_toNat_eq h)
    have htop : a.toNat.log2 < 32 := (Nat.log2_lt hpos).mpr a.isLt
    congr 1
    symm
    rw [List.findIdx_eq (by simp; omega)]
    simp only [List.getElem_range]
    refine ⟨?_, fun j hj => ?_⟩
    · rw [Nat.sub_sub_self (by omega)]
      exact Nat.testBit_log2 hpos
    · exact Nat.testBit_lt_two_pow ((Nat.log2_lt hpos).mp (by omega : a.toNat.log2 < 31 - j))

/-- Settles O3: the bitwise entries are the operations themselves, and the counts and BREV are those of the word's bits. -/
theorem bitwiseResults : Obligations.BitwiseResults := fun _ =>
  ⟨goesThrough_lane32 (fun _ => rfl) fun _ _ _ => rfl,
   goesThrough_lane32 (fun _ => rfl) fun _ _ _ => rfl,
   goesThrough_lane32 (fun _ => rfl) fun _ _ _ => rfl,
   goesThrough_lane32 (fun _ => rfl) fun _ _ _ => rfl,
   goesThrough_lane32 (fun _ => rfl) fun _ _ _ => rfl,
   goesThrough_lane32 (fun _ => rfl) fun a _ _ => popcVal_eq a,
   goesThrough_lane32 (fun _ => rfl) fun a _ _ => clzVal_eq a,
   goesThrough_lane32 (fun _ => rfl) fun a _ _ => brevVal_eq a⟩

/-! ### Shifts (R218) -/

/-- SAR by 32 or more gives copies of the sign bit. -/
theorem sarVal_eq (a b : Word) : sarVal a b = if 32 ≤ b.toNat then (if a.msb then 0xFFFFFFFF else 0) else a.sshiftRight b.toNat := by
  rw [sarVal]
  split
  next hb =>
    rw [min_eq_right hb]
    have hcopies : (if a.msb then 0xFFFFFFFF else 0 : Word) = BitVec.fill 32 a.msb := by cases a.msb <;> rfl
    rw [hcopies]
    apply BitVec.eq_of_getLsbD_eq
    intro i hi
    rw [BitVec.getLsbD_sshiftRight, if_neg (by omega), BitVec.getLsbD_fill]
    simp [hi]
  next hb => rw [min_eq_left (by omega)]

/-- The funnel shift's 64-bit operand. -/
theorem toNat_word_append (a b : Word) : (b ++ a).toNat = b.toNat * 2 ^ 32 + a.toNat := by
  rw [BitVec.toNat_append, Nat.shiftLeft_eq, mul_comm, Nat.two_pow_add_eq_or_of_lt a.isLt]

theorem funshfVal_eq (mod : Nat) (a b c : Word) : funshfVal mod a b c =
    if bitOf mod 0 then ((b ++ a : BitVec 64) <<< (c.toNat % 32)).extractLsb' 32 32
    else ((b ++ a : BitVec 64) >>> (c.toNat % 32)).extractLsb' 0 32 := by
  rw [funshfVal, ← toNat_word_append]
  generalize (b ++ a : BitVec 64) = x
  split <;> apply BitVec.eq_of_toNat_eq
  · rw [BitVec.extractLsb'_toNat, BitVec.toNat_shiftLeft, BitVec.toNat_ofNat, Nat.shiftLeft_eq, Nat.shiftRight_eq_div_pow]
    generalize x.toNat * 2 ^ (c.toNat % 32) = y
    omega
  · rw [BitVec.extractLsb'_toNat, BitVec.toNat_ushiftRight, BitVec.toNat_ofNat, Nat.shiftRight_eq_div_pow, Nat.shiftRight_eq_div_pow,
      Nat.pow_zero, Nat.div_one]

/-- Settles O4: SHL and SHR are the statement's, and SAR and FUNSHF their laws. -/
theorem shiftResults : Obligations.ShiftResults := fun _ =>
  ⟨goesThrough_lane32 (fun _ => rfl) fun _ _ _ => rfl,
   goesThrough_lane32 (fun _ => rfl) fun _ _ _ => rfl,
   goesThrough_lane32 (fun _ => rfl) fun a b _ => sarVal_eq a b,
   goesThrough_lane32 (fun _ => rfl) fun a b c => funshfVal_eq _ a b c⟩

/-! ### Bit fields (R219) -/

/-- Bit i of a word above which stand zeros, or copies of its sign bit. -/
def bitExtended (sx : Bool) (a : Word) (i : Nat) : Bool := if i < 32 then a.getLsbD i else sx && a.getLsbD 31

/-- The signed field is the shifted word sign-extended from the field's width. -/
theorem wordOf_signedField (a : Word) (pos len : Nat) :
    wordOf (signed len (wrap len (a.toInt / (2 ^ pos : Nat)))) = ((a.sshiftRight pos).signExtend len).signExtend 32 := by
  have hshift : a.toInt / (2 ^ pos : Nat) = (a.sshiftRight pos).toInt := by
    rw [BitVec.toInt_sshiftRight, Int.shiftRight_eq_div_pow]
  have hfield (x : Int) : wrap len x = (BitVec.ofInt len x).toNat := by
    rw [BitVec.toNat_ofInt, wrap]
  rw [hshift, hfield, signed_toNat, wordOf_eq_ofInt]
  rfl

theorem bitExtended_false (a : Word) (i : Nat) : bitExtended false a i = a.getLsbD i := by
  rw [bitExtended]
  split
  next => rfl
  next h => rw [BitVec.getLsbD_of_ge a i (by omega)]; rfl

theorem bitExtended_true (a : Word) (i : Nat) : bitExtended true a i = if i < 32 then a.getLsbD i else a.msb := by
  rw [bitExtended, BitVec.msb_eq_getLsbD_last, Bool.true_and]

/-- The bits of a shifted word sign-extended are those of the word sign-extended. -/
theorem getLsbD_signExtend_sshiftRight (a : Word) {pos len i : Nat} (hi : i < len) :
    ((a.sshiftRight pos).signExtend len).getLsbD i = bitExtended true a (pos + i) := by
  rw [BitVec.getLsbD_signExtend, BitVec.getLsbD_sshiftRight, BitVec.msb_sshiftRight, bitExtended_true, decide_eq_true hi, Bool.true_and]
  by_cases hword : i < 32
  · rw [if_pos hword, decide_eq_false (by omega), Bool.not_false, Bool.true_and]
  · rw [if_neg hword, if_neg (by omega)]

/-- BFE (R219), bit by bit. -/
theorem getLsbD_bfeVal (mod : Nat) (a b : Word) (i : Nat) (hi : i < 32) :
    let pos := b.toNat % 256
    let len := b.toNat / 256 % 256
    (bfeVal mod a b).getLsbD i =
      if i < len then bitExtended (bitOf mod 0) a (pos + i)
      else bitOf mod 0 && decide (len ≠ 0) && bitExtended (bitOf mod 0) a (pos + len - 1) := by
  intro pos len
  have hval : bfeVal mod a b = if len = 0 then 0 else if bitOf mod 0 then ((a.sshiftRight pos).signExtend len).signExtend 32
      else BitVec.ofNat 32 (a.toNat / 2 ^ pos % 2 ^ len) := by
    rw [← wordOf_signedField, ← sg_eq_toInt]; rfl
  rw [hval]
  by_cases hlen : len = 0
  · simp [hlen]
  rw [if_neg hlen]
  cases bitOf mod 0 with
  | false =>
    rw [if_neg Bool.false_ne_true, BitVec.getLsbD_ofNat, Nat.testBit_mod_two_pow, Nat.testBit_div_two_pow, bitExtended_false, Nat.add_comm pos]
    by_cases hin : i < len <;> simp [hin, hi, BitVec.getLsbD]
  | true =>
    rw [if_pos rfl, BitVec.getLsbD_signExtend, decide_eq_true hi, Bool.true_and]
    by_cases hin : i < len
    · rw [if_pos hin, if_pos hin, getLsbD_signExtend_sshiftRight a hin]
    · rw [if_neg hin, if_neg hin, BitVec.msb_eq_getLsbD_last, getLsbD_signExtend_sshiftRight a (by omega), decide_eq_true hlen,
        Nat.add_sub_assoc (by omega)]
      rfl

/-- Settles O5: both words have the bits of the statement. -/
theorem bitFieldResults : Obligations.BitFieldResults := fun _ => by
  refine ⟨goesThrough_lane32 (fun _ => rfl) fun a b _ => ?_, goesThrough_lane32 (fun _ => rfl) fun a b c => ?_⟩
  · apply BitVec.eq_of_getLsbD_eq
    intro i hi
    rw [getLsbD_bfeVal _ _ _ _ hi, getLsbD_ofNat_maskOf, decide_eq_true hi, Bool.true_and]
    rfl
  · simp only [bfiVal, bitOf_toNat]

/-! ### Compares, selects, moves and system values (R217, R220, R222, R224) -/

/-- ISETP compares its operands as signed or as unsigned numbers. -/
theorem isetpCond_eq (mod : Nat) (a b : Word) : isetpCond mod a b =
    intCond (mod % 8) (if bitOf mod 3 then (a.toNat : Int) else a.toInt) (if bitOf mod 3 then (b.toNat : Int) else b.toInt) := by
  rw [isetpCond, signed_toNat, signed_toNat]
  split <;> rfl

/-- MOVI's immediate is the upper 20 bits of the word (R220). -/
theorem immWord_f32_eq (imm : BitVec 20) : immWord .f32 imm = imm ++ 0#12 := by
  have hlt := imm.isLt
  apply BitVec.eq_of_toNat_eq
  rw [BitVec.toNat_append, BitVec.toNat_ofNat, Nat.or_zero, Nat.shiftLeft_eq]
  exact Nat.mod_eq_of_lt (by omega)

theorem goesThrough_movs {o : GOp} (htime : o.imm.toNat % 32 ≠ 13) (hcycle : o.imm.toNat % 32 ≠ 14) :
    goesThrough 0x01E (.movs o) o (fun s f => if o.imm.toNat % 32 = 9 ∨ o.imm.toNat % 32 = 10
      then f.setPair o.dst.num (s.sysValue f (o.imm.toNat % 32)) else f.setDst o.dst (loWord (s.sysValue f (o.imm.toNat % 32)))) := by
  have hexec (s : State) : exec (.movs o) s = execMovs o s := rfl
  simp only [execMovs, htime, hcycle, or_self, if_false] at hexec
  by_cases hpair : o.imm.toNat % 32 = 9 ∨ o.imm.toNat % 32 = 10
  · simp only [if_pos hpair] at hexec ⊢
    exact goesThrough_runG hexec (fun _ _ => rfl) fun _ _ => ⟨rfl, rfl, rfl⟩
  · simp only [if_neg hpair] at hexec ⊢
    exact goesThrough_runG hexec (fun _ _ => rfl) fun _ _ => by simp

theorem goesThrough_mov (o : GOp) : goesThrough 0x01C (.mov o) o fun s f =>
    if bitOf o.mod.toNat 0 then f.setPair o.dst.num (s.src64 f .int o.imm o.a) else f.setDst o.dst (s.src f .int o.imm o.a) := by
  refine goesThrough_runG (fun _ => rfl) (fun s f => ?_) (fun s f => ?_) <;> cases bitOf o.mod.toNat 0
  · rfl
  · rfl
  · simp
  · simp

/-- Settles O6: ISETP's condition, MOVI's word, and for the others the choice that the model makes. -/
theorem moveAndCompareResults : Obligations.MoveAndCompareResults := fun o =>
  ⟨goesThrough_lane32 (fun _ => rfl) fun a b _ => by rw [isetpCond_eq]; rfl,
   goesThrough_runG (fun _ => rfl) (fun s f => by simp [lane32]) fun s f => by simp,
   goesThrough_mov o,
   goesThrough_lane32 (fun _ => rfl) fun _ _ _ => immWord_f32_eq o.imm,
   goesThrough_movs⟩

/-! ### Division and clocks (R224, R225) -/

theorem wordOf_tdiv (a b : Word) : wordOf (a.toInt.tdiv b.toInt) = a.sdiv b := by
  rw [wordOf_eq_ofInt]
  exact BitVec.eq_of_toInt_eq (by rw [BitVec.toInt_ofInt, BitVec.toInt_sdiv])

theorem wordOf_tmod (a b : Word) : wordOf (a.toInt.tmod b.toInt) = a.srem b := by
  rw [wordOf_eq_ofInt, ← BitVec.toInt_srem, BitVec.ofInt_toInt]

/-- IDIVQ's quotient and remainder (R225). -/
theorem idivqVal_eq (mod : Nat) (a b : Word) : [(idivqVal mod a b).1, (idivqVal mod a b).2] =
    if b = 0 then [0xFFFFFFFF, a] else if bitOf mod 0 then [a / b, a % b] else [a.sdiv b, a.srem b] := by
  rw [idivqVal, sg_eq_toInt, sg_eq_toInt, wordOf_tdiv, wordOf_tmod]
  have hdiv : BitVec.ofNat 32 (a.toNat / b.toNat) = a / b := by
    rw [← BitVec.toNat_udiv, BitVec.ofNat_toNat, BitVec.setWidth_eq]
  have hmod : BitVec.ofNat 32 (a.toNat % b.toNat) = a % b := by
    rw [← BitVec.toNat_umod, BitVec.ofNat_toNat, BitVec.setWidth_eq]
  rw [hdiv, hmod]
  split
  · rfl
  · split <;> rfl

theorem loWord_ofNat (x : Nat) : loWord (BitVec.ofNat 64 x) = BitVec.ofNat 32 x := by
  apply BitVec.eq_of_toNat_eq
  simp only [loWord, BitVec.toNat_ofNat]
  omega

theorem hiWord_ofNat (x : Nat) : hiWord (BitVec.ofNat 64 x) = BitVec.ofNat 32 (x / 2 ^ 32) := by
  apply BitVec.eq_of_toNat_eq
  simp only [hiWord, BitVec.toNat_ofNat]
  omega

/-- MOVS of TIME and of CYCLE sends the two words of the value (R224). -/
theorem fillsThrough_movs {o : GOp} {v : State → Nat} (hsel : o.imm.toNat % 32 = 13 ∨ o.imm.toNat % 32 = 14)
    (hv : ∀ s f, s.sysValue f (o.imm.toNat % 32) = BitVec.ofNat 64 (v s)) :
    fillsThrough 0x01E (.movs o) o 2 fun s _ => [BitVec.ofNat 32 (v s), BitVec.ofNat 32 (v s / 2 ^ 32)] :=
  fillsThrough_runFill fun s => by
    rw [show exec (.movs o) s = execMovs o s from rfl, execMovs]
    simp only [if_pos hsel, hv, loWord_ofNat, hiWord_ofNat]

/-- Settles O7: the values on their way are IDIVQ's two results, and the two words of the clock. -/
theorem divisionAndClockFills : Obligations.DivisionAndClockFills := fun o =>
  ⟨fillsThrough_runFill fun s => by
      rw [show exec (.idivq o) s = execIdivq o s from rfl, execIdivq]
      congr 1
      funext s f
      exact idivqVal_eq _ _ _,
   fun hsel => fillsThrough_movs (.inl hsel) fun s f => by rw [hsel]; rfl,
   fun hsel => fillsThrough_movs (.inr hsel) fun s f => by rw [hsel]; rfl⟩

end Sys2Proof.Machine
end

section
namespace Sys2Proof.Machine

/-! ## Floating-point instructions, special functions and conversions -/

/-! ### Completion of an operation whose value is known by an equation -/

theorem roundsThrough_congr {op : Nat} {i : Instr} {o : GOp} {k r : State → Fibre → FRes} {write : Nat → Fibre → Fibre}
    (h : roundsThrough op i o k write) (hk : ∀ s f, k s f = r s f) : roundsThrough op i o r write := by
  have heq : k = r := by funext s f; exact hk s f
  rwa [← heq]

/-! ### Rounding far above and far below a format's range (R170, R172) -/

/-- Whether an overflow gives infinity (R170). -/
def overflowsToInf (mode : Nat) (neg : Bool) : Bool := mode == 0 || (mode == 2 && !neg) || (mode == 3 && neg)

/-- Whether a magnitude below half the least one is rounded up to it (R170). -/
def liftsTiny (mode : Nat) (neg : Bool) : Bool :=
  match mode with
  | 0 => false
  | 1 => false
  | 2 => !neg
  | _ => neg

theorem FloatFmt.roundExact_zero (f : FloatFmt) (mode : Nat) (neg : Bool) (e : Int) : f.roundExact mode neg 0 e = ⟨f.signBit neg, 0⟩ := by
  rw [FloatFmt.roundExact, if_pos rfl]; rfl

/-- A value whose highest bit stands above every finite one's overflows, whatever its bits. -/
theorem FloatFmt.roundExact_of_huge (f : FloatFmt) (mode : Nat) (neg : Bool) {m : Nat} {e : Int} (hm : m ≠ 0)
    (htop : f.emin + (2 ^ f.eb - 1 : Nat) ≤ topBit m e) : f.roundExact mode neg m e =
      ⟨f.signBit neg + (if overflowsToInf mode neg then f.infBits else f.infBits - 1), flagOF + flagNX⟩ := by
  have hsteps : 2 ^ f.eb - 1 ≤ (max (topBit m e) f.emin - f.fb - (f.emin - f.fb)).toNat := by omega
  unfold FloatFmt.roundExact
  dsimp only
  rw [if_neg hm, if_pos]
  · rfl
  · exact (Nat.mul_le_mul_right _ hsteps).trans (Nat.le_add_right _ _)

/-- A remainder of less than half a unit, and no whole unit. -/
theorem roundsUp_of_small (mode : Nat) (neg : Bool) {m sh : Nat} (hm : m ≠ 0) (hsmall : 2 * m < 2 ^ sh) :
    roundsUp mode neg 0 m sh = liftsTiny mode neg := by
  unfold roundsUp liftsTiny
  split
  · simp [hsmall.le.not_gt]
  · rfl
  · simp [hm]
  · simp [hm]

theorem roundUnits_of_small (mode : Nat) (neg : Bool) {m : Nat} {e q : Int} (hm : m ≠ 0) (hsmall : 2 * m < 2 ^ (q - e).toNat) :
    roundUnits mode neg m e q = ((liftsTiny mode neg).toNat, true) := by
  have hqe : ¬ q ≤ e := fun h => by
    rw [Int.toNat_eq_zero.mpr (by omega)] at hsmall
    omega
  rw [roundUnits, if_neg hqe]
  dsimp only
  rw [Nat.div_eq_of_lt (by omega), Nat.mod_eq_of_lt (by omega), roundsUp_of_small mode neg hm hsmall, decide_eq_true hm]
  cases liftsTiny mode neg <;> rfl

/-- Rounded to fb + 1 bits with no least exponent, a value of that many bits stays below the next power of two. -/
theorem roundUnits_lt_of_bits (mode : Nat) (neg : Bool) {m n : Nat} (e : Int) (hm : m ≠ 0) (hlt : m < 2 ^ (n + 1)) :
    (roundUnits mode neg m e (topBit m e - n)).1 < 2 ^ (n + 1) := by
  have hlog : m.log2 < n + 1 := (Nat.log2_lt hm).mpr hlt
  have hshift : (e - (topBit m e - n)).toNat = n - m.log2 := by unfold topBit; omega
  rw [roundUnits, if_pos (by unfold topBit; omega), hshift]
  calc m * 2 ^ (n - m.log2) < 2 ^ (m.log2 + 1) * 2 ^ (n - m.log2) := by gcongr; exact Nat.lt_log2_self
    _ = 2 ^ (n + 1) := by rw [← pow_add]; congr 1; omega

/-- A value of less than half the least magnitude rounds to zero or to that magnitude, whatever its bits. -/
theorem FloatFmt.roundExact_of_tiny (f : FloatFmt) (mode : Nat) (neg : Bool) {m : Nat} {e : Int} (hinf : 1 < f.infBits) (hm : m ≠ 0)
    (hlt : m < 2 ^ (f.fb + 1)) (he : e + f.fb + 2 ≤ f.emin - f.fb) : f.roundExact mode neg m e =
      ⟨f.signBit neg + (liftsTiny mode neg).toNat, flagUF + flagNX⟩ := by
  have hlog : m.log2 < f.fb + 1 := (Nat.log2_lt hm).mpr hlt
  have htop : topBit m e < f.emin := by unfold topBit; omega
  have hsmall : 2 * m < 2 ^ (f.emin - f.fb - e).toNat := calc
    2 * m < 2 ^ (f.fb + 2) := by rw [pow_succ]; omega
    _ ≤ 2 ^ (f.emin - f.fb - e).toNat := Nat.pow_le_pow_right (by decide) (by omega)
  have hunit : ((roundUnits mode neg m e (topBit m e - f.fb)).1 : Int) < 2 ^ (f.emin - (topBit m e - f.fb)).toNat := by
    have hle : 2 ^ (f.fb + 1) ≤ 2 ^ (f.emin - (topBit m e - f.fb)).toNat := Nat.pow_le_pow_right (by decide) (by omega)
    exact_mod_cast (roundUnits_lt_of_bits mode neg e hm hlt).trans_le hle
  have hbits : (liftsTiny mode neg).toNat ≤ 1 := Bool.toNat_le _
  rw [topBit] at htop hunit
  unfold FloatFmt.roundExact
  dsimp only
  rw [if_neg hm, max_eq_right htop.le, roundUnits_of_small mode neg hm hsmall, decide_eq_true htop, decide_eq_true hunit]
  dsimp only
  rw [sub_self, Int.toNat_zero, Nat.zero_mul, Nat.zero_add, if_neg (by omega)]
  rfl

/-! ### FP32 arithmetic (R228, R232) -/

/-- The mantissa and the exponent of a finite word (R167). -/
theorem FloatFmt.decode_fin_bounds {f : FloatFmt} {x m : Nat} {neg : Bool} {e : Int} (h : f.decode x = .fin neg m e) :
    m < 2 ^ (f.fb + 1) ∧ f.emin - f.fb ≤ e ∧ e < (2 ^ f.eb : Nat) - f.bias - f.fb := by
  have hfrac : x % 2 ^ f.fb < 2 ^ f.fb := Nat.mod_lt _ (by positivity)
  have hfield : x / 2 ^ f.fb % 2 ^ f.eb < 2 ^ f.eb := Nat.mod_lt _ (by positivity)
  rw [pow_succ]
  unfold FloatFmt.decode at h
  dsimp only at h
  split at h
  · split at h <;> cases h
  · split at h <;> cases h
    · simp only [FloatFmt.emin]
      omega
    · simp only [FloatFmt.emin]
      omega

/-- FSCALE (R228): a thousand binades beyond a finite operand every further one gives the same rounding. -/
theorem fp32_roundExact_clamp {x m : Nat} {neg : Bool} {e : Int} (hdec : fp32.decode x = .fin neg m e) (mode : Nat) (b : Int) :
    fp32.roundExact mode neg m (e + max (-1000) (min b 1000)) = fp32.roundExact mode neg m (e + b) := by
  obtain ⟨hbits, hmin, hmax⟩ := FloatFmt.decode_fin_bounds hdec
  rw [show fp32.emin - fp32.fb = (-149 : Int) from rfl] at hmin
  rw [show ((2 ^ fp32.eb : Nat) - fp32.bias - fp32.fb : Int) = 106 by norm_num [fp32, FloatFmt.bias]] at hmax
  by_cases hm : m = 0
  · rw [hm, FloatFmt.roundExact_zero, FloatFmt.roundExact_zero]
  have huge (k : Int) (hk : 1000 ≤ k) := fp32.roundExact_of_huge mode neg hm (e := e + k) (by
    rw [show fp32.emin + (2 ^ fp32.eb - 1 : Nat) = (129 : Int) from rfl, topBit]; omega)
  have tiny (k : Int) (hk : k ≤ -1000) := fp32.roundExact_of_tiny mode neg (by norm_num [FloatFmt.infBits, fp32]) hm (e := e + k) hbits (by
    rw [show fp32.emin - fp32.fb = (-149 : Int) from rfl, show fp32.fb = 23 from rfl]; omega)
  obtain hb | hb | hb : 1000 ≤ b ∨ b ≤ -1000 ∨ (-1000 < b ∧ b < 1000) := by omega
  · rw [huge b hb, huge _ (by omega)]
  · rw [tiny b hb, tiny _ (by omega)]
  · congr 2; omega

/-- The value of FSCALE, without the model's bound on the scale. -/
theorem fscaleVal_eq (mod a : Nat) (b : Int) : fscaleVal mod a b =
    match fp32.decode a with
    | .nan sig => fp32.nan sig
    | .inf neg => fp32.inf neg
    | .fin neg m e => fp32.roundExact (mod % 4) neg m (e + b) := by
  rw [fscaleVal]
  cases hdec : fp32.decode a with
  | nan sig => rfl
  | inf neg => rfl
  | fin neg m e => exact fp32_roundExact_clamp hdec _ b

theorem roundsThrough_fscale (o : GOp) : roundsThrough 0x08B (.fscale o) o
    (fun s f => fscaleVal o.mod.toNat (s.src f .f32 o.imm o.a).toNat (s.src f .int o.imm o.b).toInt) (to32 o) :=
  roundsThrough_runG (fun _ => rfl) (fun s f => by rw [← sg_eq_toInt]; rfl) (to32_same o)

theorem frndVal_eq (mod a : Nat) : frndVal mod a =
    match fp32.decode a with
    | .nan sig => fp32.nan sig
    | .inf neg => fp32.inf neg
    | .fin neg x e => ⟨(fp32.roundExact 0 neg (roundUnits (mod % 4) neg x e 0).1 0).bits,
        if bitOf mod 2 ∧ (roundUnits (mod % 4) neg x e 0).2 then flagNX else 0⟩ := by
  rw [frndVal]
  cases fp32.decode a with
  | nan sig => rfl
  | inf neg => rfl
  | fin neg x e => simp only [Bool.and_eq_true, and_comm]

/-- Settles O8: the sums, products and FCPYSGN are the model's own, FSCALE's bound changes no rounding, and FRND's flag is one condition. -/
theorem fp32Results : Obligations.Fp32Results := fun o =>
  ⟨roundsThrough_laneF (fun _ => rfl) fun _ _ _ => rfl,
   roundsThrough_laneF (fun _ => rfl) fun _ _ _ => rfl,
   roundsThrough_laneF (fun _ => rfl) fun _ _ _ => rfl,
   roundsThrough_laneF (fun _ => rfl) fun _ _ _ => rfl,
   roundsThrough_congr (roundsThrough_fscale o) fun _ _ => fscaleVal_eq _ _ _,
   roundsThrough_laneF (fun _ => rfl) fun _ _ _ => rfl,
   roundsThrough_laneF (fun _ => rfl) fun a _ _ => frndVal_eq _ a⟩

/-! ### Minima and maxima (R229) -/

theorem redMinMax_eq (isMax : Bool) (a b : Nat) : redMinMax isMax a b =
    if (fp32.decode a).isNan && (fp32.decode b).isNan then fp32.nanBits
    else if (fp32.decode a).isNan then b else if (fp32.decode b).isNan then a
    else if (if isMax then (fp32.decode a).below (fp32.decode b) else (fp32.decode b).below (fp32.decode a)) then b else a := by
  cases isMax <;> rfl

/-- FMINNUM and FMAXNUM: one number wins over one NaN. -/
theorem fminmaxVal_number (isMax : Bool) (a b : Nat) : fminmaxVal isMax true a b =
    ⟨redMinMax isMax a b, if (fp32.decode a).isSig || (fp32.decode b).isSig then flagNV else 0⟩ := rfl

/-- FMIN and FMAX: any NaN gives the default one. -/
theorem fminmaxVal_strict (isMax : Bool) (a b : Nat) : fminmaxVal isMax false a b =
    ⟨if (fp32.decode a).isNan || (fp32.decode b).isNan then fp32.nanBits
      else if (if isMax then (fp32.decode a).below (fp32.decode b) else (fp32.decode b).below (fp32.decode a)) then b else a,
     if (fp32.decode a).isSig || (fp32.decode b).isSig then flagNV else 0⟩ := by
  rw [fminmaxVal, redMinMax_eq]
  cases (fp32.decode a).isNan <;> cases (fp32.decode b).isNan <;> rfl

/-- Settles O9, by the two laws of NaNs. -/
theorem minimumAndMaximumResults : Obligations.MinimumAndMaximumResults := fun o =>
  ⟨roundsThrough_laneF (fun _ => rfl) fun a b _ => fminmaxVal_strict false a b,
   roundsThrough_laneF (fun _ => rfl) fun a b _ => fminmaxVal_strict true a b,
   roundsThrough_laneF (fun _ => rfl) fun a b _ => by rw [fminmaxVal_number, redMinMax_eq],
   roundsThrough_laneF (fun _ => rfl) fun a b _ => by rw [fminmaxVal_number, redMinMax_eq]⟩

/-! ### Compares, classes and FSTATW (R230, R231, R235) -/

/-- A NaN has no order, and numbers have one. -/
theorem FVal.cmp_eq_none (a b : FVal) : a.cmp b = none ↔ (a.isNan || b.isNan) = true := by
  cases a <;> cases b <;> simp [FVal.cmp, FVal.isNan]

theorem FVal.isSig_eq_false {a : FVal} (h : a.isNan = false) : a.isSig = false := by
  cases a with
  | nan sig => cases h
  | inf neg => rfl
  | fin neg m e => rfl

/-- What FSETP and DSETP answer: the condition as a predicate, and NV. -/
def setpRes (cc : Nat) (a b : FVal) : FRes := ⟨(floatCond cc a b).1.toNat, if (floatCond cc a b).2 then flagNV else 0⟩

theorem roundsThrough_fsetp (o : GOp) : roundsThrough 0x088 (.fsetp o) o (fun s f => setpRes (o.mod.toNat / 4)
    (fp32.decode (s.src f .f32 o.imm o.a).toNat) (fp32.decode (s.src f .f32 o.imm o.b).toNat)) (to32 o) :=
  roundsThrough_runG (fun _ => rfl) (fun _ _ => rfl) (to32_same o)

theorem roundsThrough_dsetp (o : GOp) : roundsThrough 0x090 (.dsetp o) o (fun s f => setpRes (o.mod.toNat / 4)
    (fp64.decode (s.src64 f .f64 o.imm o.a).toNat) (fp64.decode (s.src64 f .f64 o.imm o.b).toNat)) (to32 o) :=
  roundsThrough_runG (fun _ => rfl) (fun _ _ => rfl) (to32_same o)

/-- The table of conditions on two numbers (R230), by the low three bits: those from 8 on hold as the ones 8 below, but for 14. -/
def condHolds (cc : Nat) (r : Ordering) : Bool :=
  match cc % 8 with
  | 0 => decide (r = Ordering.eq)
  | 1 => decide (r = Ordering.lt)
  | 2 => decide (r ≠ Ordering.gt)
  | 3 => decide (r = Ordering.gt)
  | 4 => decide (r ≠ Ordering.lt)
  | 5 => decide (r ≠ Ordering.eq)
  | 6 => decide (cc < 8)
  | _ => false

theorem floatCond_some {a b : FVal} {r : Ordering} (h : a.cmp b = some r) {cc : Nat} (hcc : cc < 16) (h7 : cc ≠ 7) (h15 : cc ≠ 15) :
    floatCond cc a b = (condHolds cc r, false) := by
  rw [floatCond, h]
  dsimp only
  congr 1
  cases r <;> revert cc <;> decide

theorem floatCond_none {a b : FVal} (h : a.cmp b = none) (cc : Nat) :
    floatCond cc a b = (decide (8 ≤ cc), a.isSig || b.isSig || decide (cc ∈ [1, 2, 3, 4])) := by
  have hmem : (decide (1 ≤ cc) && decide (cc ≤ 4)) = decide (cc ∈ [1, 2, 3, 4]) := by
    rw [← Bool.decide_and, decide_eq_decide]
    simp only [List.mem_cons, List.not_mem_nil, or_false]
    omega
  rw [floatCond, h, hmem]

/-- FCLASS's classes (R231), spelt out. -/
def classTable (fm : FloatFmt) (x : Nat) : Nat :=
  match fm.decode x with
  | .inf true => 0
  | .fin true m _ => if m = 0 then 3 else if m < 2 ^ fm.fb then 2 else 1
  | .fin false m _ => if m = 0 then 4 else if m < 2 ^ fm.fb then 5 else 6
  | .inf false => 7
  | .nan true => 8
  | .nan false => 9

theorem FloatFmt.classOf_eq (fm : FloatFmt) (x : Nat) : fm.classOf x = classTable fm x := by
  rw [FloatFmt.classOf, classTable]
  cases fm.decode x with
  | nan sig => cases sig <;> rfl
  | inf neg => cases neg <;> rfl
  | fin neg m e =>
    cases neg with
    | true => rfl
    | false =>
      dsimp only
      rw [if_neg Bool.false_ne_true]
      split
      · rfl
      · split <;> rfl

theorem ofNat_two_pow (k : Nat) : BitVec.ofNat 32 (2 ^ k) = 1#32 <<< k := by
  rw [← BitVec.twoPow_eq]
  exact BitVec.eq_of_toNat_eq (by rw [BitVec.toNat_ofNat, BitVec.toNat_twoPow])

/-- Settles O10: with no order the condition is one that holds on a NaN, with one it is the table's; a class is one bit of FCLASS's word. -/
theorem compareClassAndStatusResults : Obligations.CompareClassAndStatusResults := by
  intro o cc cond
  have hcc : cc < 16 := Nat.div_lt_of_lt_mul o.mod.isLt
  have hcond (h7 : cc ≠ 7) (h15 : cc ≠ 15) (a b : FVal) : setpRes cc a b = cond a b := by
    cases hcmp : a.cmp b with
    | none =>
      have hnan := (FVal.cmp_eq_none a b).mp hcmp
      simp only [setpRes, floatCond_none hcmp, cond, hcmp, hnan, Bool.true_and]
    | some r =>
      have hnan : (a.isNan || b.isNan) = false := by
        rw [← Bool.not_eq_true, ← FVal.cmp_eq_none, hcmp]; exact Option.some_ne_none r
      obtain ⟨ha, hb⟩ := Bool.or_eq_false_iff.mp hnan
      simp only [setpRes, floatCond_some hcmp hcc h7 h15, cond, hcmp, hnan, FVal.isSig_eq_false ha, FVal.isSig_eq_false hb, Bool.false_and,
        Bool.or_self]
      rfl
  refine ⟨fun h7 h15 => ⟨roundsThrough_congr (roundsThrough_fsetp o) fun _ _ => hcond h7 h15 _ _,
    roundsThrough_congr (roundsThrough_dsetp o) fun _ _ => hcond h7 h15 _ _⟩, ?_, ?_⟩
  · refine goesThrough_runG (fun _ => rfl) (fun s f => ?_) fun _ _ => by simp
    rw [ofNat_two_pow, FloatFmt.classOf_eq, FloatFmt.classOf_eq]
    rfl
  · exact goesThrough_runG (fun _ => rfl) (fun _ _ => rfl) fun _ _ => by simp

/-! ### FP64, packed arithmetic and special functions (R233, R234, R240) -/

/-- The packed forms are the scalar one on both halves (R168). -/
theorem FloatFmt.arith2_eq_bothHalves (fm : FloatFmt) (k mod a b c : Nat) : fm.arith2 k mod a b c = bothHalves (fm.arith k mod) a b c := by
  simp [FloatFmt.arith2, bothHalves, bitsOf]

/-- Settles O11: the scalar forms are the model's sums and products, and a packed form is its scalar one on both halves. -/
theorem fp64AndPackedResults : Obligations.Fp64AndPackedResults := fun _ =>
  ⟨roundsThrough_laneD (fun _ => rfl) fun _ _ _ => rfl,
   roundsThrough_laneD (fun _ => rfl) fun _ _ _ => rfl,
   roundsThrough_laneD (fun _ => rfl) fun _ _ _ => rfl,
   roundsThrough_laneF (fun _ => rfl) (fp16.arith2_eq_bothHalves 0 _),
   roundsThrough_laneF (fun _ => rfl) (fp16.arith2_eq_bothHalves 2 _),
   roundsThrough_laneF (fun _ => rfl) (fp16.arith2_eq_bothHalves 3 _),
   roundsThrough_laneF (fun _ => rfl) (bf16.arith2_eq_bothHalves 0 _),
   roundsThrough_laneF (fun _ => rfl) (bf16.arith2_eq_bothHalves 2 _),
   roundsThrough_laneF (fun _ => rfl) (bf16.arith2_eq_bothHalves 3 _)⟩

/-- A special function's instruction, from the value of its function. -/
theorem roundsThrough_special {op : Nat} {i : Instr} {o : GOp} {v : Nat → FRes}
    (hx : ∀ s, exec i s = runG op o s (laneF .f32 o fun a _ _ => v a)) : roundsThrough op i o (from32 .f32 o fun a _ _ => v a) (to32 o) :=
  roundsThrough_laneF hx fun _ _ _ => rfl

/-- Settles O12: each instruction rounds through with its own function. -/
theorem specialFunctionResults : Obligations.SpecialFunctionResults := fun _ =>
  ⟨roundsThrough_special (v := rcpVal) fun _ => rfl,
   roundsThrough_special (v := rsqVal) fun _ => rfl,
   roundsThrough_special (v := sqrtVal) fun _ => rfl,
   roundsThrough_special (v := ex2Val) fun _ => rfl,
   roundsThrough_special (v := lg2Val) fun _ => rfl,
   roundsThrough_special (v := tanhVal) fun _ => rfl,
   roundsThrough_special (v := sinpiVal) fun _ => rfl,
   roundsThrough_special (v := cospiVal) fun _ => rfl⟩

/-! ### Conversions (R236 to R239) -/

theorem toNat_dwordOf (x : Int) : (dwordOf x).toNat = (x % 2 ^ 64).toNat := by
  rw [dwordOf_eq_ofInt, BitVec.toNat_ofInt]
  rfl

/-- A conversion's result is a pair or a register. -/
theorem toEither_apply (o : GOp) (p : Prop) [Decidable p] (x : Nat) : (if p then to64 o else to32 o) x =
    fun f => if p then f.setPair o.dst.num (BitVec.ofNat 64 x) else f.setDst o.dst (BitVec.ofNat 32 x) := by
  split <;> rfl

theorem toEither_same (o : GOp) (p : Prop) [Decidable p] (x : Nat) (f : Fibre) : ((if p then to64 o else to32 o) x f).key = f.key ∧
    ((if p then to64 o else to32 o) x f).ctx = f.ctx ∧ ((if p then to64 o else to32 o) x f).pc = f.pc := by
  split
  · exact to64_same o x f
  · exact to32_same o x f

/-- What FTOI answers: the bits of `ftoiVal`'s integer, and its flags. -/
def ftoiRes (mod : Nat) (v : FVal) : FRes := ⟨(ftoiVal mod v).1.toNat, (ftoiVal mod v).2⟩

theorem roundsThrough_ftoi (o : GOp) : roundsThrough 0x108 (.ftoi o) o (fun s f =>
    ftoiRes o.mod.toNat (if bitOf o.mod.toNat 3 then fp64.decode (s.src64 f .f64 o.imm o.a).toNat
      else fp32.decode (s.src f .f32 o.imm o.a).toNat)) (if bitOf o.mod.toNat 4 then to64 o else to32 o) := by
  refine roundsThrough_runG (fun _ => rfl) (fun s f => ?_) (toEither_same o _)
  rw [toEither_apply]
  simp only [ftoiRes, BitVec.ofNat_toNat, BitVec.setWidth_eq, loWord]

theorem roundsThrough_itof (o : GOp) : roundsThrough 0x109 (.itof o) o (fun s f =>
    itofVal o.mod.toNat (if bitOf o.mod.toNat 4 then s.src64 f .int o.imm o.a else (s.src f .int o.imm o.a).setWidth 64))
    (if bitOf o.mod.toNat 3 then to64 o else to32 o) := by
  refine roundsThrough_runG (fun _ => rfl) (fun s f => ?_) (toEither_same o _)
  rw [toEither_apply]

/-- The least and the greatest integer of FTOI's destination (R237). -/
def ftoiMin (mod : Nat) : Int := if bitOf mod 2 then 0 else if bitOf mod 4 then -(2 ^ 63) else -(2 ^ 31)
def ftoiMax (mod : Nat) : Int :=
  if bitOf mod 2 then (if bitOf mod 4 then 2 ^ 64 - 1 else 2 ^ 32 - 1) else (if bitOf mod 4 then 2 ^ 63 - 1 else 2 ^ 31 - 1)

/-- FTOI (R237): the rounded integer, or the end of the range beyond which it lies. -/
theorem ftoiRes_eq (mod : Nat) (v : FVal) : ftoiRes mod v =
    match v with
    | .nan _ => ⟨0, flagNV⟩
    | .inf neg => ⟨((if neg then ftoiMin mod else ftoiMax mod) % 2 ^ 64).toNat, flagNV⟩
    | .fin neg k e =>
      let u := roundUnits (mod % 4) neg k e 0
      let x : Int := if neg then -(u.1 : Int) else u.1
      if ftoiMax mod < x then ⟨(ftoiMax mod % 2 ^ 64).toNat, flagNV⟩
      else if x < ftoiMin mod then ⟨(ftoiMin mod % 2 ^ 64).toNat, flagNV⟩
      else ⟨(x % 2 ^ 64).toNat, if u.2 then flagNX else 0⟩ := by
  have hmin : (if bitOf mod 2 then 0 else -(2 ^ ((if bitOf mod 4 then 64 else 32) - 1) : Nat) : Int) = ftoiMin mod := by
    rw [ftoiMin]
    cases bitOf mod 4 <;> rfl
  have hmax : (if bitOf mod 2 then (2 ^ (if bitOf mod 4 then 64 else 32) : Nat) - 1
      else (2 ^ ((if bitOf mod 4 then 64 else 32) - 1) : Nat) - 1 : Int) = ftoiMax mod := by
    rw [ftoiMax]
    cases bitOf mod 4 <;> rfl
  cases v with
  | nan sig => rfl
  | inf neg => simp only [ftoiRes, ftoiVal, hmin, hmax, toNat_dwordOf]
  | fin neg k e =>
    simp only [ftoiRes, ftoiVal, hmin, hmax]
    split_ifs <;> simp only [toNat_dwordOf]

/-- ITOF (R238): a 32-bit operand stands in the low half of 64 bits. -/
theorem itofVal_eq (mod : Nat) (x : DWord) (y : Word) : itofVal mod (if bitOf mod 4 then x else y.setWidth 64) =
    let z : Int := if bitOf mod 4 then (if bitOf mod 2 then (x.toNat : Int) else x.toInt)
      else if bitOf mod 2 then (y.toNat : Int) else y.toInt
    (if bitOf mod 3 then fp64 else fp32).roundExact (mod % 4) (decide (z < 0)) z.natAbs 0 := by
  have hlow : (y.setWidth 64).toNat = y.toNat := by
    rw [BitVec.toNat_setWidth, Nat.mod_eq_of_lt (y.isLt.trans (by decide))]
  rw [itofVal]
  cases bitOf mod 4 with
  | false => simp only [Bool.false_eq_true, if_false, hlow, signed_toNat, Nat.mod_eq_of_lt y.isLt]
  | true => simp only [if_true, signed_toNat, Nat.mod_eq_of_lt x.isLt]

theorem fcvtDst_eq (m : BitVec 6) : fcvtDst m = m.toNat / 16 := by
  have := m.isLt
  simp only [fcvtDst, modBits]
  omega

/-- Settles O15: FTOI clamps to its range's ends, ITOF's operand is an integer of its width, and FCVT's formats are the fields of MOD. -/
theorem conversionResults : Obligations.ConversionResults := by
  intro o m wide lo hi bits toInteger fmt sc dc cv two src
  refine ⟨roundsThrough_congr (roundsThrough_ftoi o) fun _ _ => ftoiRes_eq _ _,
    roundsThrough_congr (roundsThrough_itof o) fun _ _ => itofVal_eq _ _ _,
    roundsThrough_runG (fun _ => rfl) (fun s f => ?_) (toEither_same o _)⟩
  have hlow (x : Nat) : bitsOf x 0 16 = x % 2 ^ 16 := by simp [bitsOf]
  rw [toEither_apply]
  simp only [hlow, fcvtDst_eq]
  rfl

end Sys2Proof.Machine
end

section
namespace Sys2Proof.Machine

/-! ## Lane exchanges, votes, branches, calls and frame marks -/

/-! ### Lane exchanges (O16) -/

/-- A crew instruction that writes its lanes' results and at most one mask register (R248, R258). -/
theorem crewThrough_written {i : Instr} {op n : Nat} {o : GOp} {ready : State → Group → Fibre → Bool} {res : State → Group → Fibre → Fibre}
    {pre : State → Group → GRow → Fibre → Pre} {lane : State → Group → Fibre → LaneOut} {after : State → State → Group → State}
    {base : State → Group → State} (hx : ∀ s, exec i s = runCrew op o s pre lane (after s)) (hrow : (gRow op).isSome = true)
    (hp : ∀ s g r f, gRow op = some r → ready s g f = true → pre s g r f = .go) (hl : ∀ s g f, lane s g f = .ok (res s g f))
    (hs : ∀ s g f, (res s g f).key = f.key ∧ (res s g f).ctx = f.ctx ∧ (res s g f).pc = f.pc) (hc : ∀ s g f, (res s g f).conds = f.conds)
    (ha : writesMask n after base) : crewThrough i o ready res base := fun s g hg hsound h => by
  obtain ⟨r, hr⟩ := Option.isSome_iff_exists.mp hrow
  rw [hx, runCrew_next (res s g) hg hr (fun f hf hgd => hp s g r f hr ((h f hf).2 hgd)) fun f _ _ => hl s g f]
  refine ⟨_, rfl, ?_⟩
  obtain ⟨hbase, hafter⟩ | ⟨w, hbase, hafter⟩ := ha s g
  · rw [hbase, hafter]
    exact goOn_groupStep hg hsound _ fun f _ => guarded_same (hs s g f)
  · rw [hbase, hafter]
    refine masked_groupStep hg hsound (fun f hf => ⟨(h f hf).1, ?_⟩) fun f _ => guarded_same (hs s g f)
    rw [apply_ite Fibre.conds, hc, ite_self, (h f hf).1]

theorem Fibre.setDst_same (f : Fibre) (d : Dst) (x : Word) :
    (f.setDst d x).key = f.key ∧ (f.setDst d x).ctx = f.ctx ∧ (f.setDst d x).pc = f.pc := by simp

theorem Fibre.setDst_conds (f : Fibre) (d : Dst) (x : Word) : (f.setDst d x).conds = f.conds := by cases d <;> rfl

/-- A lane exchange finds nothing at issue where its own source, if it asks for it, is full, and the value it is supplied has come (R249). -/
theorem preExchange_go {op : Nat} {o : GOp} {src : State → Fibre → Option Nat} {s : State} {g : Group} {r : GRow} {f : Fibre}
    (hclear : s.preG f op o r .go = .go) (hfull : ∀ n, o.a = .v n true → f.full n.toNat = true)
    (hcome : s.supplyPending g o.a ((src s f).getD f.lane) = false) : preExchange op o src s g r f = .go := by
  have hsupplied : ((s.preG f op o r .go).andThen fun _ => if s.supplyPending g o.a ((src s f).getD f.lane) then .hold else .go) = .go := by
    rw [hclear, hcome]
    rfl
  unfold preExchange
  split
  next n ha => rwa [if_pos (hfull n ha)]
  next => exact hsupplied

/-- Writing fibres leaves the crews. -/
theorem State.crew_putFibres (s : State) (fs : List Fibre) (k : Nat) : (s.putFibres fs).crew k = s.crew k := by simp [State.crew]

/-- The lanes of a SHFL's group begin at a multiple of its width (R248). -/
theorem shflSource_eq (mod l n : Nat) : shflSource mod l n =
    let w := 4 * 2 ^ (mod / 4 % 4)
    let first := l / w * w
    match mod % 4 with
    | 0 => some (first + n % w)
    | 1 => if first + n ≤ l then some (l - n) else none
    | 2 => if l + n < first + w then some (l + n) else none
    | _ => some (l ^^^ (n % w)) := by
  have hfirst (w : Nat) : l - l % w = l / w * w := by rw [← Nat.div_mul_self_eq_mod_sub_self]
  simp only [shflSource, hfirst] <;> rfl

/-- Settles O16: the three are crew instructions that write their lanes' results and, with MOD[4], one mask register, in which a
helper lane's bit is written as any other's (log 72). -/
theorem laneExchangeResults : Obligations.LaneExchangeResults := by
  intro o m shfl through
  have hthrough {op : Nat} {i : Instr} {src : State → Fibre → Option Nat} (hx : ∀ s, exec i s = runExchange op o s src)
      (hrow : (gRow op).isSome = true) : through op i src := by
    refine crewThrough_written (n := o.c.num % 16) hx hrow (fun s g r f hr h => ?_) (fun _ _ _ => rfl)
      (fun _ _ f => f.setDst_same _ _) (fun _ _ f => f.setDst_conds _ _) fun s g => ?_
    · rw [Bool.and_eq_true, Bool.and_eq_true, Bool.not_eq_true'] at h
      obtain ⟨⟨hclear, hfull⟩, hcome⟩ := h
      exact preExchange_go (State.clearLane_go hclear hr) (fun n ha => by rwa [ha] at hfull) hcome
    · dsimp only [m]
      cases bitOf o.mod.toNat 4 with
      | false => exact .inl ⟨rfl, fun _ => rfl⟩
      | true =>
        refine .inr ⟨_, rfl, fun fs => ?_⟩
        rw [if_pos rfl, State.masked, State.crew_putFibres]
        cases s.crew g.run.crew <;> rfl
  refine ⟨hthrough (fun s => ?_) rfl, hthrough (fun _ => rfl) rfl, hthrough (fun s => ?_) rfl⟩
  · show execShfl o s = _
    simp only [execShfl, shflSource_eq]
    rfl
  · show execQbcast o s = _
    simp only [execQbcast, qbcastSource, Nat.mul_comm 4]
    rfl

/-! ### Votes, reductions and masks read (O17) -/

/-- VOTE (R252): with MOD[5] the predicate counts inverted. -/
theorem voteVal_eq (mod : Nat) (fs : List Fibre) : voteVal mod fs =
    let v (f : Fibre) : Bool := f.pred (BitVec.ofNat 3 (mod / 4)) ^^ bitOf mod 5
    match mod % 4 with
    | 0 => if ∀ f ∈ fs, v f then 1 else 0
    | 1 => if ∃ f ∈ fs, v f then 1 else 0
    | _ => laneMask (fs.filter v) := by
  have hbit (b : Bool) : BitVec.ofNat 32 b.toNat = if b then 1 else 0 := by cases b <;> rfl
  simp only [voteVal, hbit, List.all_eq_true, List.any_eq_true, Bool.bne_eq_xor] <;> rfl

/-- A reduction whose step and identity are those of words (R158, R253). -/
theorem reduxVal_eq_foldl {k : Nat} {step : Word → Word → Word} {start : Word} (xs : List Word)
    (hstart : redIdentity (reduxTag k) = start.toNat) (hstep : ∀ a x : Word, redStep (reduxTag k) a.toNat x.toNat = (step a x).toNat) :
    reduxVal k xs = xs.foldl step start := by
  rw [reduxVal, hstart, List.foldl_hom BitVec.toNat hstep, BitVec.ofNat_toNat, BitVec.setWidth_eq]

/-- REDUX's eight operators (R253). -/
theorem reduxVal_eq (mod : Nat) (xs : List Word) : reduxVal (mod % 8) xs =
    match mod % 8 with
    | 0 => xs.foldl (· + ·) 0
    | 1 => xs.foldl (fun a x => if x.toInt < a.toInt then x else a) 0x7FFFFFFF
    | 2 => xs.foldl (fun a x => if x.toNat < a.toNat then x else a) 0xFFFFFFFF
    | 3 => xs.foldl (fun a x => if a.toInt < x.toInt then x else a) 0x80000000
    | 4 => xs.foldl (fun a x => if a.toNat < x.toNat then x else a) 0
    | 5 => xs.foldl (· &&& ·) 0xFFFFFFFF
    | 6 => xs.foldl (· ||| ·) 0
    | _ => xs.foldl (· ^^^ ·) 0 := by
  have hmin (a x : Word) : min a.toNat x.toNat = (if x.toNat < a.toNat then x else a).toNat := by split <;> omega
  have hmax (a x : Word) : max a.toNat x.toNat = (if a.toNat < x.toNat then x else a).toNat := by split <;> omega
  have hsmin (a x : Word) : redStep 4 a.toNat x.toNat = (if x.toInt < a.toInt then x else a).toNat := by
    simp only [redStep, signed_toNat]; split <;> rfl
  have hsmax (a x : Word) : redStep 7 a.toNat x.toNat = (if a.toInt < x.toInt then x else a).toNat := by
    simp only [redStep, signed_toNat]; split <;> rfl
  have hk : mod % 8 < 8 := Nat.mod_lt _ (by decide)
  generalize mod % 8 = k at hk
  match k, hk with
  | 0, _ => exact reduxVal_eq_foldl xs rfl fun a x => (BitVec.toNat_add a x).symm
  | 1, _ => exact reduxVal_eq_foldl xs rfl hsmin
  | 2, _ => exact reduxVal_eq_foldl xs rfl hmin
  | 3, _ => exact reduxVal_eq_foldl xs rfl hsmax
  | 4, _ => exact reduxVal_eq_foldl xs rfl hmax
  | 5, _ => exact reduxVal_eq_foldl xs rfl fun a x => (BitVec.toNat_and a x).symm
  | 6, _ => exact reduxVal_eq_foldl xs rfl fun a x => (BitVec.toNat_or a x).symm
  | 7, _ => exact reduxVal_eq_foldl xs rfl fun a x => (BitVec.toNat_xor a x).symm

/-- Words that are equal in 64 bits are equal (R255). -/
theorem setWidth64_inj {a b : Word} : a.setWidth 64 = b.setWidth 64 ↔ a = b :=
  ⟨fun h => by simpa using congrArg (BitVec.setWidth 32) h, congrArg _⟩

/-- A crew instruction whose lanes are clear at issue and write one value. -/
theorem crewThrough_gives {i : Instr} {op : Nat} {o : GOp} {k val : State → Group → Fibre → Word}
    (hx : ∀ s, exec i s = runCrew op o s (preOwn op o) (fun s g f => .ok (f.setDst o.dst (k s g f))) fun t _ => t)
    (hrow : (gRow op).isSome = true) (hk : ∀ s g f, k s g f = val s g f) :
    crewThrough i o (fun s _ f => s.clearLane op o f) (fun s g f => f.setDst o.dst (val s g f)) fun s _ => s :=
  crewThrough_plain hx hrow (fun _ _ _ _ hr h => State.clearLane_go h hr) (fun s g f => by rw [hk]) fun _ _ f => f.setDst_same _ _

/-- Settles O17: each lane's value is that of the contributing lanes, of the mask named, or of the group. -/
theorem voteAndReductionResults : Obligations.VoteAndReductionResults := by
  intro o m con gives
  refine ⟨crewThrough_gives (fun _ => rfl) rfl fun s g f => ?_, crewThrough_gives (fun _ => rfl) rfl fun s g f => ?_,
    crewThrough_gives (fun _ => rfl) rfl fun s g f => ?_, crewThrough_gives (fun _ => rfl) rfl fun s g f => ?_,
    crewThrough_gives (fun _ => rfl) rfl fun _ _ _ => rfl⟩
  · rw [contributing_eq_passing]
    exact voteVal_eq m (con g)
  · rw [contributing_eq_passing]
    exact reduxVal_eq m _
  · rw [contributing_eq_passing]
    congr 1
    refine List.filter_congr fun x _ => ?_
    dsimp only [m]
    cases bitOf o.mod.toNat 0 <;> simp [Bool.beq_eq_decide_eq, setWidth64_inj]
  · rw [maskNo_zero]
    rfl

/-! ### Branches (O20) -/

theorem brcHolds_eq (cc : Nat) (x : Word) : brcHolds cc x =
    match cc with
    | 0 => decide (x.toInt = 0)
    | 1 => decide (x.toInt ≠ 0)
    | 2 => decide (x.toInt < 0)
    | 3 => decide (x.toInt ≥ 0)
    | 4 => decide (x.toInt > 0)
    | _ => decide (x.toInt ≤ 0) := by
  have hzero : x.toInt = 0 ↔ x = 0 := by rw [← BitVec.toInt_inj]; rfl
  simp only [brcHolds, signed_toNat]
  split <;> simp [hzero, bne, Bool.beq_eq_decide_eq]

/-- A trailer of format G whose lanes act alone. -/
theorem trailThrough_runTrailer {i : Instr} {op : Nat} {o : GOp} {lane : State → Fibre → LaneOut} {ready : State → Fibre → Bool}
    {res : State → Fibre → Fibre} (hx : ∀ s, exec i s = runTrailer op o s lane) (hrow : (gRow op).isSome = true)
    (hclear : ∀ s f, ready s f = true → f.guard o.guard = true → s.clearLane op o f = true ∧ lane s f = .ok (res s f))
    (hskip : ∀ s f, f.guard o.guard = false → res s f = s.onward f) : trailThrough i ready res := fun s g hg _ h => by
  obtain ⟨r, hr⟩ := Option.isSome_iff_exists.mp hrow
  rw [hx, runTrailer, hg, hr]
  dsimp only
  rw [State.withLate_none _ fun f hf => ⟨(h f hf).1, (h f hf).2.1⟩, State.settleTrailer_ok _ _ _ _ (res s)]
  intro f hf
  obtain ⟨-, -, hready⟩ := h f hf
  cases hgd : f.guard o.guard with
  | false => rw [if_neg Bool.false_ne_true, hskip s f hgd]; rfl
  | true =>
    obtain ⟨hlane, hok⟩ := hclear s f hready hgd
    rw [if_pos rfl, if_pos rfl, laneStep_go (fun _ => State.clearLane_go hlane hr) fun _ => hok]
    rfl

/-- Settles O20: a lane that takes its branch has its target checked, and every other lane goes on. -/
theorem branchesCompleteAtTheirTargets : Obligations.BranchesCompleteAtTheirTargets := by
  refine ⟨fun o => trailThrough_branchJ (fun _ => rfl) (fun s f h hgd => ?_) fun s f => by simp, fun o => ?_,
    fun o => trailThrough_runTrailer (fun _ => rfl) rfl (fun s f h hgd => ?_) fun s f hgd => ?_⟩
  · rw [hgd] at h
    obtain ⟨hpre, htarget⟩ := of_decide_eq_true h
    exact ⟨hpre, fun _ => htarget⟩
  · intro takes
    have htakes : (fun s f => brcHolds (modBits o.mod 0 3) (s.src f .int o.imm o.a)) = takes := by
      funext s f
      rw [brcHolds_eq, modBits, pow_zero, Nat.div_one]
      rfl
    refine trailThrough_branchJ (op := 0x201) (span := 1) (takes := takes) (fun s => ?_) (fun s f h hgd => ?_) fun s f => rfl
    · rw [← htakes]; rfl
    · rw [hgd] at h
      exact of_decide_eq_true h
  · obtain ⟨hclear, htarget⟩ : s.clearLane 0x202 o f = true ∧ s.checkTarget f.ctx (s.src64 f .int o.imm o.a) = none := by
      simpa [hgd] using h
    exact ⟨hclear, by simp only [htarget, hgd, if_true]; rfl⟩
  · rw [hgd]; rfl

/-! ### Marks of frames (O22) -/

theorem setTop_unless_helper_same (f : Fibre) (x : Frame) :
    (if f.helper then f else f.setTop x).key = f.key ∧ (if f.helper then f else f.setTop x).ctx = f.ctx ∧
      (if f.helper then f else f.setTop x).pc = f.pc := by
  split <;> exact ⟨rfl, rfl, rfl⟩

/-- HINST in a group whose acting lanes have the delivery registers and whose target passes its check (R75). -/
theorem execHinst_next {o : JOp} {s : State} {g : Group} (hg : s.group = some g)
    (h : ∀ f ∈ g.acting o.guard, o.dst.num + 4 ≤ f.top.f ∧ s.checkTarget f.ctx (jumpTarget o f.pc) = none) :
    execHinst o s = .next ((s.putFibres (g.fs.map fun f => if f.guard o.guard && !f.helper then
      f.setTop (f.top.install (o.imm.toNat % 2 ^ 16) (o.a.num + 2 ^ 11 * modBits o.mod 0 5) (jumpTarget o f.pc) o.dst.num) else f)).goOn g) := by
  unfold execHinst
  rw [hg]
  dsimp only
  rw [State.settleLanes_ok]
  intro f hf
  refine laneStep_go (fun hacts => ?_) fun hacts => ?_
  all_goals obtain ⟨hregs, htarget⟩ := h f (List.mem_filter.mpr ⟨hf, hacts⟩)
  · exact if_neg (by omega)
  · rw [htarget]

theorem Frame.install_eq (fr : Frame) (tag mask : Nat) (entry : DWord) (base : Nat) : fr.install (tag % 2 ^ 16) mask entry base =
    { fr with handler := true, htag := BitVec.ofNat 16 tag, hmask := BitVec.ofNat 16 mask, hslot := BitVec.ofNat 3 entry.toNat,
              hline := BitVec.ofNat 64 (entry.toNat / 64 * 64), hbase := BitVec.ofNat 11 base } := by
  have htag : BitVec.ofNat 16 (tag % 2 ^ 16) = BitVec.ofNat 16 tag := BitVec.eq_of_toNat_eq (by simp)
  rw [Frame.install, htag]

/-- Settles O22: NOP and the marks act on each lane alone; HINST's acting lanes have room for delivery and a good target. -/
theorem frameMarksComplete : Obligations.FrameMarksComplete := by
  refine ⟨fun o => ⟨goesThrough_runG (fun _ => rfl) (fun _ _ => rfl) fun _ _ => ⟨rfl, rfl, rfl⟩,
    goesThrough_runG (fun _ => rfl) (fun _ _ => rfl) fun _ f => setTop_unless_helper_same f _,
    goesThrough_runG (fun _ => rfl) (fun _ _ => rfl) fun _ f => setTop_unless_helper_same f _,
    goesThrough_runG (fun _ => rfl) (fun _ _ => rfl) fun _ f => setTop_unless_helper_same f _⟩, fun o s g hg hsound h => ?_⟩
  refine ⟨_, execHinst_next hg h, ?_⟩
  simp only [Frame.install_eq, modBits, pow_zero, Nat.div_one, Bool.and_eq_true, Bool.not_eq_true']
  exact goOn_groupStep hg hsound _ fun f _ => by split <;> exact ⟨rfl, rfl, rfl⟩

/-! ### Calls, returns and exits (O23) -/

/-- A trailer whose lanes all act in their turn ends its sentence. What RET's lanes do depends on their whole group, so the state is fixed here. -/
theorem runFold_next {s t : State} {g : Group} {guard : Guard} {pre : State → Fibre → Pre} {act : State → Fibre → Except FaultInfo State}
    (hg : s.group = some g) (hlate : ∀ f ∈ g.fs, f.late = none ∧ f.refs = []) (h : lanesInOrder guard pre act g.fs s = some t) :
    runFold s guard pre act = .next (t.endSentence g []) := by
  obtain ⟨hact, hwell⟩ := foldLane_all g.fs s t [] h (by simp)
  rw [runFold, hg]
  dsimp only
  rw [State.withLate_none _ hlate, if_neg, State.holdIf_none _ _ fun x hx => (hwell x hx).2, hact]
  simp only [List.any_eq_true, not_exists, not_and]
  exact fun x hx => by simp [(hwell x hx).1]

/-- A RET's lanes take their number FRAG once, after the last lane that delivers RETURN, and only where some lane delivers it (R79). -/
theorem ite_retDone (p : Prop) [Decidable p] (s : State) (performed : Word) :
    (if p then s.retDone performed else s) = if p ∧ performed ≠ 0 then { s with frag := s.frag + 1 } else s := by
  by_cases hp : p <;> by_cases hw : performed = 0 <;> simp [State.retDone, hp, hw]

/-- Settles O23: the lanes of each act in order; CALLX and RET have their rows, and the device's one FRAG counter (log 11)
rises once for a RET's RETURNs. Where a return writes is read out of the call's slot (log 29). -/
theorem callsReturnsAndExitsComplete : Obligations.CallsReturnsAndExitsComplete := by
  refine ⟨fun o => ordersThrough_runFold fun _ => rfl, fun o r hr => ordersThrough_runFold fun s => ?_, ?_,
    fun o => ordersThrough_runFold fun _ => rfl⟩
  · show execCallx o s = _
    rw [execCallx, hr]
  · intro o r s g t hr hg hlate toRoot performed h
    show execRet o s = _
    rw [execRet, hg, hr]
    refine runFold_next hg hlate ?_
    have hperformed : performed = laneMask (g.fs.filter fun f => f.guard o.guard && f.returnsToRoot && !s.dueReclaim f) :=
      congrArg laneMask (List.filter_filter.trans (List.filter_congr fun _ _ => Bool.and_comm _ _))
    simp only [ite_retDone, ← hperformed]
    exact h

end Sys2Proof.Machine
end

section
namespace Sys2Proof.Machine

/-! ## Frame-local accesses, team barriers and the link -/

/-! ### Accesses to a frame's local bytes (O33) -/

/-- The frame-relative load of one lane (R279). -/
def State.loadLocal (t : State) (o : GOp) (f : Fibre) : State :=
  (t.segTouch f.ctx f.core (f.top.local o.imm.toNat).toNat).fillFor f.key 0x282 o.dst.num
    (loadWords (widthBytes o.mod) (bitOf o.mod.toNat 3) (f.top.bytes o.imm.toNat (widthBytes o.mod)))

theorem ldFrame_through (o : GOp) : groupThrough (.ldFrame o) o
    (fun s _ f => s.clearLane 0x282 o f && (frameFault f.top o.imm.toNat (widthBytes o.mod)).isNone) (fun _ _ f => f)
    (fun _ g t => (g.passing o).foldl (fun t f => t.loadLocal o f) t) := fun s g hg h => by
  obtain ⟨r, hr⟩ : ∃ r, gRow 0x282 = some r := ⟨_, rfl⟩
  have hready : ∀ f ∈ g.fs, f.guard o.guard = true →
      s.clearLane 0x282 o f = true ∧ frameFault f.top o.imm.toNat (widthBytes o.mod) = none := fun f hf hgd => by
    simpa using h f hf hgd
  show execLdFrame o s = _
  unfold execLdFrame
  rw [runCrew_next id hg hr (fun f hf hgd => ?_) fun _ _ _ => rfl]
  · congr 2
    refine List.foldl_ext _ _ _ fun t f hf => if_neg ?_
    obtain ⟨hmem, hgd⟩ := List.mem_filter.mp hf
    simp [(hready f hmem hgd).2]
  · obtain ⟨hclear, hplace⟩ := hready f hf hgd
    rw [State.clearLane_go hclear hr, Pre.andThen_go, hplace]

theorem stFrame_through (o : GOp) : groupThrough (.stFrame o) o
    (fun s _ f => f.helper || s.clearLane 0x283 o f && (frameFault f.top o.imm.toNat (widthBytes o.mod)).isNone)
    (fun s g f => if f.helper then f else f.setTop (f.top.setBytes o.imm.toNat
      (stBytes o (stFmt o.c) (s.gen f.ctx g.core g.p).toNat f.lane (s.stWords f o (stRegs o.mod (stFmt o.c))))))
    (fun _ g t =>
      let t := (g.acting o.guard).foldl (fun t f => t.segTouch f.ctx f.core (f.top.local o.imm.toNat).toNat) t
      match g.acting o.guard with
      | f :: _ => if stRnd o.c = 2 ∧ 2 ≤ stFmt o.c then t.setGen f.ctx g.core g.p (genStep (t.gen f.ctx g.core g.p)) else t
      | [] => t) := by
  refine groupThrough_runCrew (op := 0x283) (fun s g hg h => rfl) rfl (fun s g r f hr h => ?_) fun s g t => rfl
  cases hh : f.helper with
  | true => rfl
  | false =>
    rw [hh, Bool.false_or, Bool.and_eq_true, Option.isNone_iff_eq_none] at h
    obtain ⟨hclear, hplace⟩ := h
    rw [if_neg Bool.false_ne_true, State.clearLane_go hclear hr, Pre.andThen_go, hplace]

/-- Settles O33: a lane that is ready has its bytes in its frame, whatever the store's format and the generator's state (R279, R283). -/
theorem frameRelativeAccessesComplete : Obligations.FrameRelativeAccessesComplete := fun o => ⟨ldFrame_through o, stFrame_through o⟩

/-! ### Barriers (O39) -/

/-- A team of crew 0 alone, with barrier 0 set for that crew. -/
def barrierTeam : Team :=
  { ctx := 0, launch := 0, core := 0, band := 0, index := 0, ofBand := false, crews := [0], seqNo := 0, seqr := Seqr.fresh 0 0,
    barriers := [(0, { expect := 32, count := 0, phase := 0, broken := false, init := true, crews := 1, flags := [], joins := [], cur := 0 })],
    rings := [], phases := [], phaseStamp := 0 }
/-- A group of two fibres of that team that bear the same number, the first kept under another one: it has q0 clear and a value on its way to its v0
(R50), and the second has q0 set. -/
def sharedArrival : State := { State.reset with
  actor := .port 0 0
  ports := [(0, PortRun.fresh 0 [1, 5])]
  crews := [(0, Crew.fresh 0 0 0 0 [] (some 3) 0 0 0)]
  teams := [(3, barrierTeam)]
  fibres := [(1, Fibre.make 5 0 false 0 0 0 0 0 [Frame.none.markEmpty 0] [] 0 0 0 0),
    (5, { Fibre.make 5 0 false 0 0 0 1 0 [Frame.none] [] 0 0 0 0 with qbits := 1 })] }
/-- The operands of a BARA of barrier 0 under q0 that leaves its token in v0. -/
def baraUnderQ0 : GOp := { GOp.bare with guard := ⟨true, 0, false⟩, dst := .v 0 }

/-- A sentence that goes on has issued one instruction more. -/
theorem Out.issued_goOn (s : State) (g : Group) : Out.issued g.core g.p (.next (s.goOn g)) = some (g.run.count + 1) := by
  simp [Out.issued, State.goOn]

/-- Refutes O39, by its clause on BARA: in the model a lane takes part that has the number of a lane whose guard passes, where the statement looks at the
lane's own guard. The statement asks for no sound group (`Group.sound`), so the two may differ: here the first lane, whose guard fails, holds the port
for its destination in the model, and the statement has the sentence go on. -/
theorem not_teamInstructionsComplete : ¬ Obligations.TeamInstructionsComplete := by
  intro h
  obtain ⟨-, hbara, -⟩ := h baraUnderQ0
  have hmodel : Out.issued 0 0 (exec (.bara baraUnderQ0) sharedArrival) = some 0 := by decide +kernel
  have hnone := Option.eq_none_iff_forall_ne_some.mpr fun u hu => by
    have hsame := congrArg (Out.issued 0 0)
      (hbara sharedArrival u _ 3 barrierTeam _ rfl rfl rfl rfl (by decide +kernel) (by decide +kernel) hu)
    exact absurd (hmodel.symm.trans (hsame.trans (Out.issued_goOn u _))) (by decide)
  exact absurd hnone (by decide +kernel)

/-! ### Link commands and arrivals (O48) -/

section
variable {s t u v : State} {c : Cmd}

/-- A send's next piece of payload has been read (R306). -/
theorem execLinkSend_piece {bs : List Byte} {ts : Nat} (hc : s.linkHead 0 = some c) (hd : s.link.unreach.contains c.dev = false)
    (hlen : c.buf.length < c.field 32 32)
    (hp : s.fetchPiece { c with began := true } State.putLinkHead c.stamp 16 (2 ^ 64) ((c.src + c.buf.length) % 2 ^ 64)
      (c.field 32 32 - c.buf.length) = .bytes u bs ts) :
    execLinkSend s = .next (u.putLinkHead { c with began := true, req := none, buf := c.buf ++ bs, stamp := max c.stamp ts }) := by
  unfold execLinkSend
  rw [hc]
  dsimp only
  rw [hd, if_neg Bool.false_ne_true, if_neg (Nat.not_le.mpr hlen), hp]

/-- A send whose payload has been read is sent (R306). -/
theorem execLinkSend_whole (hc : s.linkHead 0 = some c) (hd : s.link.unreach.contains c.dev = false) (hlen : c.field 32 32 ≤ c.buf.length) :
    execLinkSend s = .next ((s.sendMsg (c.msg (.send (BitVec.ofNat 16 (c.field 208 16)) (c.buf.take (c.field 32 32))))).linkSent
      { c with buf := [] } none) := by
  unfold execLinkSend
  rw [hc]
  dsimp only
  rw [hd, if_neg Bool.false_ne_true, if_pos hlen]

theorem execLinkReceivePost_next (hc : s.linkHead 1 = some c) : execLinkReceivePost s = .next { s with link := { s.link with
    queue := s.link.queue.drop 1,
    posts := s.link.posts ++ [{ cmd := c, ctx := c.ctx, dev := c.dev, key := BitVec.ofNat 16 (c.field 208 16), len := c.field 32 32, addr := c.src }] } } := by
  unfold execLinkReceivePost
  rw [hc]

theorem execLinkRemoteRed_next (hc : s.linkHead 2 = some c) (hd : s.link.unreach.contains c.dev = false) : execLinkRemoteRed s = .next
    ((s.sendMsg (c.msg (.rred s.device (BitVec.ofNat 4 (c.field 32 4)) (BitVec.ofNat 64 c.dst) (BitVec.ofNat 64 (c.field 256 64))))).linkSent c none) := by
  unfold execLinkRemoteRed
  rw [hc]
  dsimp only
  rw [hd, if_neg Bool.false_ne_true]

/-- A remote call whose record was read at the PUSH is sent (R374). -/
theorem execLinkRemoteCall_next (hc : s.linkHead 3 = some c) (hd : s.link.unreach.contains c.dev = false) (hbad : c.bad = none)
    (hreq : c.req = none) : execLinkRemoteCall s = .next
      ((s.sendMsg (c.msg (.rcall (c.field 199 3) (c.field 224 16) (BitVec.ofNat 64 c.dst) c.record))).linkSent c none) := by
  unfold execLinkRemoteCall
  rw [hc]
  dsimp only
  rw [hbad, hreq]
  dsimp only
  rw [hd, if_neg Bool.false_ne_true]

/-- The copies of a continuation that passes its check are sent (R376 step 1). -/
theorem execContinuationTransfer_start (hc : s.linkHead 4 = some c) (hd : s.link.unreach.contains c.dev = false)
    (hx : s.xferCheck c = (none, u)) :
    let h := BitVec.ofNat 64 c.src
    let id := u.link.nextId
    let v := u.sendMsg (c.msg (.xfer id (c.field 199 3) (c.field 224 16) (BitVec.ofNat 32 (c.field 256 32)) ((u.heap c.ctx).block (handleAddr h))))
    execContinuationTransfer none s = .next { v with link := { v.link with
      nextId := id + 1, queue := v.link.queue.drop 1, xfers := v.link.xfers ++ [{ id := id, cmd := c, handle := h, committed := false }] } } := by
  unfold execContinuationTransfer
  dsimp only
  rw [hc]
  dsimp only
  rw [hd, if_neg Bool.false_ne_true, hx]

/-- The copies stand at the other device: the source checks its block again, consumes it and commits (R376 step 4). -/
theorem execContinuationTransfer_commit {id : Nat} {x : Xfer} (hx : s.link.xfers.find? (fun x => x.id == id && !x.committed) = some x)
    (hc : s.xferCheck x.cmd = (none, v)) :
    let u := (v.consume x.cmd.ctx (handleAddr x.handle)).tell x.cmd.dev x.cmd.ctx x.cmd.stamp (.xferCommit id) x.cmd.tc
    execContinuationTransfer (some (id, 0)) s = .next { u with link := { u.link with
      xfers := u.link.xfers.map fun y => if y.id = id then { y with committed := true } else y } } := by
  unfold execContinuationTransfer
  dsimp only
  rw [hx]
  dsimp only
  rw [if_neg (by simp), hc]

theorem execTransferFilingAck_next {id : Nat} {x : Xfer} (hx : s.link.xfers.find? (fun x => x.id == id && x.committed) = some x) :
    let a := handleAddr x.handle
    let h := s.heap x.cmd.ctx
    execTransferFilingAck id s = .next ((s.putHeap x.cmd.ctx ((h.freeSegs (h.block a).segs).freeBlock a)).xferEnd x none) := by
  unfold execTransferFilingAck
  rw [hx]

theorem execTransferCommitTimeout_next {id : Nat} {x : XferIn} (hx : s.link.xfersIn.find? (fun x => x.id == id) = some x)
    (hlate : x.since + linkWait ≤ s.cycle) :
    let a := handleAddr x.handle
    let h := s.heap x.ctx
    execTransferCommitTimeout id s = .next ((s.putHeap x.ctx ((h.freeSegs (h.block a).segs).freeBlock a)).dropXferIn id) := by
  unfold execTransferCommitTimeout
  rw [hx]
  dsimp only
  rw [if_neg (Nat.not_lt.mpr hlate)]

theorem execRemoteRedArrival_next {src ctx : Nat} {op : BitVec 4} {addr value : DWord} {ts : Stamped (BitVec 2)} {l : List Spot}
    (hctx : (s.ctx ctx).isSome = true) (hop : op.toNat ≤ 12) (hl : s.ownerCheck ctx addr (.rmw (.red op value)) = .ok l)
    (hhere : ∀ k v, firstPlace l ≠ .peer k v) (hwait : s.ownerWaits src ctx addr.toNat (.rmw (.red op value)) l = false) :
    let w := s.walkLoads (linkAgent ts.ts ctx src) addr.toNat
    let q := w.s.ownerPerform (linkAgent w.ts ctx src) src ctx addr (.rmw (.red op value)) l
    q.err = false → w.err = false →
    execRemoteRedArrival src ctx op addr value ts s = .next (q.s.doneIn.tell src ctx q.ts (.ack 0) ts.val.toNat) := by
  intro w q hq hw
  unfold execRemoteRedArrival
  dsimp only
  rw [if_neg (by simpa [hop] using Option.isSome_iff_ne_none.mp hctx), hl]
  dsimp only
  cases hp : firstPlace l with
  | peer k v => exact absurd hp (hhere k v)
  | _ =>
    dsimp only
    rw [hwait, if_neg Bool.false_ne_true, if_neg (by simpa using hw), if_neg (by simpa using hq)]

theorem execRemoteCallArrival_next {src ctx cl launch : Nat} {entry : DWord} {args : List Word} {ts : Stamped (BitVec 2)} {l : Launch}
    (hl : s.launch ctx launch = some l) (ht : s.checkTarget ctx entry = none) (hcl : cl < 8) :
    execRemoteCallArrival src ctx cl launch entry args ts s = .next ((((s.newKey.2.arrive cl
      { id := s.newKey.1, pc := entry, ctx := ctx, launch := launch, fid := BitVec.ofNat 32 (Config.fibreId s.newKey.1 % 2 ^ 31),
        stamp := max ts.ts l.stamp, timer := l.gather, f := l.ef, l := l.el, args := args.take 16, handle := none }).doneIn).doneCode linkCode).tell
          src ctx ts.ts (.ack 0) ts.val.toNat) := by
  unfold execRemoteCallArrival
  dsimp only
  rw [hl]
  dsimp only
  rw [ht]
  dsimp only
  rw [if_neg (Nat.not_le.mpr hcl)]

/-- A peer's load is made at a place of this device, and answered (R371). -/
theorem execPeerAccessRequest_load {src id ctx n ts hops : Nat} {va : DWord} {l : List Spot} (hctx : (s.ctx ctx).isSome = true)
    (hl : s.ownerCheck ctx va (.load n) = .ok l) (hhere : ∀ k v, firstPlace l ≠ .peer k v)
    (hwait : s.ownerWaits src ctx va.toNat (.load n) l = false) :
    let w := s.walkLoads { linkAgent ts ctx src with peer := none } va.toNat
    let q := w.s.ownerPerform (linkAgent w.ts ctx src) src ctx va (.load n) l
    q.err = false → w.err = false →
    execPeerAccessRequest src id ctx va (.load n) ts hops s = .next (q.s.doneIn.tell src ctx q.ts (.reply id (.done q.data))) := by
  intro w q hq hw
  have hneeds : s.ownerNeeds ctx (.load n) = none := rfl
  unfold execPeerAccessRequest
  dsimp only
  rw [if_neg (by simpa using Option.isSome_iff_ne_none.mp hctx), hneeds, hl]
  dsimp only
  cases hp : firstPlace l with
  | peer k v => exact absurd hp (hhere k v)
  | _ =>
    dsimp only
    rw [hwait, if_neg Bool.false_ne_true, if_neg (by simpa using hw), if_neg (by simpa using hq)]

/-- A send meets a post that is not begun, finds its lines, and fills it (R306). -/
theorem execSendArrival_done {src ctx : Nat} {key : BitVec 16} {data : List Byte} {ts : Stamped (BitVec 2)} {p : Post} {l : List Tgt} {d : Cmd} {t : Nat}
    (hctx : (s.ctx ctx).isSome = true)
    (hfirst : s.earlierIn (fun i => match i with
      | .sendArrival a b k _ _ => a == src && b == ctx && k == key
      | _ => false) = false)
    (hpost : s.postFor src ctx key = some p) (hidx : p.cmd.idx = none) :
    let bs := data.take p.len
    s.claimAll p.cmd.who (engAgent (max ts.ts p.cmd.stamp) p.cmd.ctx 16) ((linePieces (bs.length / 128 + 2) p.addr bs.length).map fun x => [x]) [] = .got v t l →
    let q := { p with cmd := { p.cmd with tgts := l, buf := bs, stamp := t, idx := some v.inboxNo } }
    (v.putPost p q).fillPost (l.length + 1) q.cmd = .done u d →
    execSendArrival src ctx key data ts s = .next (({ u with link := { u.link with
      posts := removeFirst (fun x => x == q) u.link.posts,
      sent := u.link.sent ++ [({ d with idx := none, req := none }, some (BitVec.ofNat 64 (bs.length % 2 ^ 32 + src % 128 * 2 ^ 32)))] } }
        : State).doneIn.tell src ctx d.stamp (.ack 0) ts.val.toNat) := by
  intro bs hclaim q hfill
  have hbranch : ∀ {o o' : Out}, (if s.earlierIn (fun i => match i with
      | .sendArrival a b k _ _ => a == src && b == ctx && k == key
      | _ => false) = true then o else o') = o' := fun {_ _} => if_neg (by rw [hfirst]; exact Bool.false_ne_true)
  unfold execSendArrival
  dsimp only
  rw [if_neg (by simpa using Option.isSome_iff_ne_none.mp hctx)]
  refine hbranch.trans ?_
  rw [hpost]
  dsimp only
  rw [hidx, if_neg (by simp), hclaim]
  dsimp only
  rw [hfill]

end

/-- Settles O48, by the law of each happening; the FID of a task that a remote call files is free (log 41). -/
theorem linkHappeningsComplete : Obligations.LinkHappeningsComplete := fun s c => by
  refine ⟨fun hc hd => ⟨fun u bs ts => execLinkSend_piece hc hd, execLinkSend_whole hc hd⟩, execLinkReceivePost_next, execLinkRemoteRed_next,
    execLinkRemoteCall_next, fun u hc hd hx => execContinuationTransfer_start hc hd hx, fun id x v hx hv => execContinuationTransfer_commit hx hv,
    fun id x => execTransferFilingAck_next, fun id x hx => ⟨?_, execTransferCommitTimeout_next hx⟩, ?_, ?_, ?_, ?_, fun id reply ts => rfl⟩
  · show execTransferCommitArrival id s = _
    unfold execTransferCommitArrival
    rw [hx]
  · intro src ctx key data ts p l t v u d hctx hfirst hpost hidx
    exact execSendArrival_done hctx hfirst hpost hidx
  · intro src ctx op addr value ts l hctx hop acc hl hhere hwait
    exact execRemoteRedArrival_next hctx hop hl hhere hwait
  · intro src ctx cl launch entry args ts l
    exact execRemoteCallArrival_next
  · intro src id ctx va n ts hops l hctx hl hhere hwait
    exact execPeerAccessRequest_load hctx hl hhere hwait

end Sys2Proof.Machine
end

section
namespace Sys2Proof.Machine

/-! ## Stores -/

/-! ### What a store changes, step by step

A store is made line by line: at the line's home (R139), or posted through CXL.io to host memory (R147, R469). `StoreStep` is one such step, or what is noted
beside it; what every step keeps, the store keeps. -/

/-- Whether the first of n bytes at p, and each of them, is a named one. -/
def PA.within (named : PA → Prop) (p : PA) (n : Nat) : Prop := named p ∧ ∀ q : PA, q.among p n = true → named q

theorem PA.within_mono {named : PA → Prop} {p : PA} {m n : Nat} (h : p.within named n) (hm : m ≤ n) : p.within named m := by
  obtain ⟨hfirst, hall⟩ := h
  refine ⟨hfirst, fun q hq => hall q ?_⟩
  obtain ⟨hsp, hlo, hhi⟩ := (PA.among_iff _ _ _).mp hq
  exact (PA.among_iff _ _ _).mpr ⟨hsp, hlo, by omega⟩

/-- A host line's newer data, which the device holds, written back (R469). -/
def State.cleaned (s : State) (a : Nat) : State :=
  let lk := PA.line ⟨.host, a⟩
  match (s.lineOf lk).dirtyHost with
  | some d => { s.putLine lk { s.lineOf lk with dirtyHost := none } with host := cellsWrite s.host (a / 128 * 128) d }
  | none => s
/-- Bytes posted to one line of host memory (R147). -/
def State.postLine (s : State) (a : Nat) (bs : List Byte) : State :=
  ({ s.cleaned a with host := cellsWrite (s.cleaned a).host a bs }).wake (PA.line ⟨.host, a⟩)

theorem State.hostWrite_postLines (s : State) (a : Nat) (bs : List Byte) :
    s.hostWrite a bs = (pieces a (min bs.length 128)).foldl (fun s x => s.postLine x.1 ((bs.drop (x.1 - a)).take x.2)) s := rfl

/-- One step of a store that writes named bytes only, for a context that `acts` names. -/
inductive State.StoreStep (named : PA → Prop) (acts : Nat → Prop) : State → State → Prop
  | fibre (s : State) (f : Fibre) (hf : acts f.ctx) : StoreStep named acts s (s.putFibre f)
  | numbered (s : State) (n : Nat) : StoreStep named acts s { s with accesses := n }
  | merged (s : State) (lk found : Nat) : StoreStep named acts s (s.merge lk found)
  | line (s : State) (ag : Agent) (p : PA) (ts : Nat) (bs : List Byte) (hp : p.within named bs.length) (hfit : p.a % 128 + bs.length ≤ 128) :
      StoreStep named acts s (s.writeLine ag p ts bs)
  | posted (s : State) (a : Nat) (bs : List Byte) (hp : PA.within named ⟨.host, a⟩ bs.length) (hfit : a % 128 + bs.length ≤ 128) :
      StoreStep named acts s (s.postLine a bs)
  | noted (s : State) (ag : Agent) (ts va n : Nat) (p : PA) (hc : acts ag.ctx) : StoreStep named acts s ((s.logAccess ag ts va n).countAccess ag va p)
/-- The steps of a store. -/
abbrev State.Stores (named : PA → Prop) (acts : Nat → Prop) : State → State → Prop := Relation.ReflTransGen (State.StoreStep named acts)

/-- The pieces of at most a line's length of bytes. -/
theorem pieces_bounds {a n : Nat} {x : Nat × Nat} (hn : n ≤ 128) (hx : x ∈ pieces a n) :
    a ≤ x.1 ∧ x.1 + x.2 ≤ a + n ∧ x.1 % 128 + x.2 ≤ 128 ∧ (x.1 = a ∨ x.1 < a + n) := by
  unfold pieces at hx
  split at hx
  · obtain rfl := List.mem_singleton.mp hx
    dsimp only
    omega
  · rcases List.mem_cons.mp hx with rfl | hx
    · dsimp only
      omega
    · obtain rfl := List.mem_singleton.mp hx
      dsimp only
      omega

/-- A piece of named bytes is one of named bytes. -/
theorem PA.within_piece {named : PA → Prop} {p : PA} {n m : Nat} {x : Nat × Nat} (h : p.within named n) (hn : n ≤ 128) (hx : x ∈ pieces p.a n)
    (hm : m ≤ x.2) : PA.within named { p with a := x.1 } m := by
  obtain ⟨hfirst, hall⟩ := h
  obtain ⟨hlo, hhi, -, hin⟩ := pieces_bounds hn hx
  refine ⟨?_, fun q hq => hall q ?_⟩
  · rcases hin with he | hlt
    · rw [he]
      exact hfirst
    · exact hall _ ((PA.among_iff _ _ _).mpr ⟨rfl, hlo, hlt⟩)
  · obtain ⟨hsp, hge, hlt⟩ := (PA.among_iff _ _ _).mp hq
    dsimp only at hsp hge hlt
    exact (PA.among_iff _ _ _).mpr ⟨hsp, by omega, by omega⟩

section
variable {named : PA → Prop} {acts : Nat → Prop} {s : State} {ag : Agent} {p : PA} {bs : List Byte}

theorem State.stores_writeAt (hc : acts ag.ctx) (hp : p.within named bs.length) (hfit : p.a % 128 + bs.length ≤ 128) (va : Nat) :
    State.Stores named acts s (s.writeAt ag va p bs).s :=
  .head (.numbered s _) (.head (.merged _ _ _) (.head (.line _ ag p _ bs hp hfit) (.single (.noted _ ag _ va bs.length p hc))))

theorem State.stores_fold {α : Type} {f : State → α → State} {l : List α} (hf : ∀ t, ∀ x ∈ l, State.Stores named acts t (f t x)) (s : State) :
    State.Stores named acts s (l.foldl f s) :=
  List.foldlRecOn l f (motive := State.Stores named acts s) .refl fun t ht x hx => ht.trans (hf t x hx)

/-- Bytes within at most two lines, at their homes (R139, R284). -/
theorem State.stores_writeSpan (hc : acts ag.ctx) (hp : p.within named bs.length) (hlen : bs.length ≤ 128) (va : Nat) :
    State.Stores named acts s (s.writeSpan ag va p bs).s := by
  have hpiece : ∀ x ∈ pieces p.a bs.length, ∀ t ts,
      State.StoreStep named acts t (t.writeLine ag { p with a := x.1 } ts ((bs.drop (x.1 - p.a)).take x.2)) := fun x hx t ts => by
    have hle : ((bs.drop (x.1 - p.a)).take x.2).length ≤ x.2 := List.length_take_le _ _
    have := (pieces_bounds hlen hx).2.2.1
    exact .line t ag _ ts _ (PA.within_piece hp hlen hx hle) (by dsimp only; omega)
  unfold State.writeSpan
  split
  next x hx =>
    refine State.stores_writeAt hc hp ?_ va
    unfold pieces at hx
    split at hx
    · assumption
    · cases hx
  · exact .head (.numbered s _) (((State.stores_fold (fun t x _ => .single (.merged t _ _)) _).trans
      (State.stores_fold (fun t x hx => .single (hpiece x hx t _)) _)).tail (.noted _ ag _ va bs.length p hc))

/-- Bytes posted to at most two lines of host memory (R147). -/
theorem State.stores_hostWrite {a : Nat} (hp : PA.within named ⟨.host, a⟩ bs.length) (hlen : bs.length ≤ 128) :
    State.Stores named acts s (s.hostWrite a bs) := by
  rw [State.hostWrite_postLines, min_eq_left hlen]
  refine State.stores_fold (fun t x hx => .single ?_) s
  have hle : ((bs.drop (x.1 - a)).take x.2).length ≤ x.2 := List.length_take_le _ _
  have := (pieces_bounds hlen hx).2.2.1
  exact .posted t x.1 _ (PA.within_piece hp hlen hx hle) (by omega)

theorem State.stores_storeView {loc : Nat} (hc : acts ag.ctx) (hp : p.within named bs.length) (hlen : bs.length ≤ 128) (hloc : loc = 2 → p.sp = .host)
    (va : Nat) : State.Stores named acts s (s.storeView ag va p loc bs).s := by
  unfold State.storeView
  split
  next h2 =>
    refine State.stores_hostWrite ?_ hlen
    rw [← hloc h2]
    exact hp
  · exact State.stores_writeSpan hc hp hlen va

end

/-! #### What each step keeps -/

theorem State.wake_lines (s : State) (lk : Nat) : (s.wake lk).lines = s.lines := by
  unfold State.wake
  split <;> rfl

theorem State.cleaned_line (s : State) (a lk : Nat) :
    (s.cleaned a).lineOf lk = if PA.line ⟨.host, a⟩ = lk then { s.lineOf lk with dirtyHost := none } else s.lineOf lk := by
  unfold State.cleaned
  dsimp only
  split
  next d hd =>
    show State.lineOf (State.putLine _ _ _) lk = _
    rw [State.lineOf_putLine]
    split
    next e => rw [e]
    next => rfl
  next hd =>
    split
    next e =>
      rw [← e]
      generalize s.lineOf _ = l at hd ⊢
      cases l
      simp_all
    next => rfl

theorem State.postLine_line (s : State) (a : Nat) (bs : List Byte) (lk : Nat) : (s.postLine a bs).lineOf lk = (s.cleaned a).lineOf lk := by
  unfold State.postLine State.lineOf
  rw [State.wake_lines]

/-- A record of an access log leaves the lines as they are, but a poisoned one of the log's ring (R417, R456). -/
theorem State.linesCalm_logRecord {s : State} (h : s.linesCalm) (ks ts va kind mon req : Nat) : (s.logRecord ks ts va kind mon req).linesCalm := by
  unfold State.logRecord
  dsimp only
  split
  · exact h
  · split
    · exact h
    · split
      next hpoison => exact absurd ((h _).2.2.symm.trans hpoison) Bool.false_ne_true
      next => exact h

theorem State.linesCalm_logAccess {s : State} (h : s.linesCalm) (ag : Agent) (ts va n : Nat) : (s.logAccess ag ts va n).linesCalm := by
  unfold State.logAccess
  cases s.ctx ag.ctx with
  | none => exact h
  | some c =>
    dsimp only
    split
    · exact State.linesCalm_logRecord h _ _ _ _ _ _
    · exact h

theorem State.linesCalm_countAccess {s : State} (h : s.linesCalm) (ag : Agent) (va : Nat) (p : PA) : (s.countAccess ag va p).linesCalm :=
  fun lk => by
    unfold State.lineOf
    rw [State.countAccess_lines]
    exact h lk

/-- Each step of a store leaves a calm device calm. -/
theorem State.StoreStep.calm {named : PA → Prop} {acts : Nat → Prop} {s t : State} (hst : State.StoreStep named acts s t) (h : s.linesCalm) :
    t.linesCalm := by
  cases hst with
  | fibre f => exact h
  | numbered n => exact h
  | merged lk found => rwa [State.merge_calm (h lk)]
  | line ag p ts bs hp hfit => exact (State.afterAccess_writeLine h ag ts hfit).calm
  | posted a bs hp hfit =>
    intro lk
    rw [State.postLine_line, State.cleaned_line]
    split
    · exact h lk
    · exact h lk
  | noted ag ts va n p hc => exact State.linesCalm_countAccess (State.linesCalm_logAccess h _ _ _ _) _ _ _

theorem State.Stores.calm {named : PA → Prop} {acts : Nat → Prop} {s t : State} (hst : State.Stores named acts s t) (h : s.linesCalm) :
    t.linesCalm := by
  induction hst with
  | refl => exact h
  | tail _ hstep ih => exact hstep.calm ih

/-! ### The places of a store that passes its checks -/

/-- What the checks of a page-table entry leave of a leaf: a page and its base begin with a line, and a view has a format to store (R113, R114). -/
structure Leaf.Sound (lf : Leaf) : Prop where
  size : lf.size % 128 = 0
  base : lf.loc ≠ 3 → lf.base % 128 = 0
  view : ∀ v, lf.view = some v → 2 ≤ v.fmt

/-- A list of causes that finds none: the first does not hold, nor any other. -/
theorem firstCause_none {c : Prop} [Decidable c] {n : Nat} {x : Option Nat} (h : (if c then some n else x) = none) : ¬c ∧ x = none := by
  split at h
  · cases h
  · exact ⟨‹_›, h⟩

theorem pteCause_view {lvl e size : Nat} (h : pteCause lvl e size = none) (hv : bitOf e 8 = true) : 2 ≤ bitsOf e 9 4 := by
  by_contra hlt
  unfold pteCause at h
  extract_lets at h
  iterate 8 replace h := (firstCause_none h).2
  exact (firstCause_none h).1 ⟨hv, .inl (by omega)⟩

theorem State.walkFrom_sound {s : State} {ctx va : Nat} {ls : List (Nat × Nat × Nat)} (hls : ∀ x ∈ ls, 7 ≤ x.2.1) {tab : PA} {lf : Leaf}
    (h : s.walkFrom ctx va ls tab = .ok lf) : lf.Sound := by
  induction ls generalizing tab with
  | nil => cases h
  | cons x r ih =>
    obtain ⟨lvl, sh, bits⟩ := x
    rw [State.walkFrom] at h
    extract_lets e addr at h
    split at h
    · cases h
    cases hp : pteCause lvl e (2 ^ sh) with
    | some c =>
      rw [hp] at h
      cases h
    | none =>
      rw [hp] at h
      dsimp only at h
      by_cases hleaf : bitOf e 1 = true
      · rw [if_pos hleaf] at h
        obtain rfl := Except.ok.inj h
        refine ⟨?_, fun hloc => ?_, fun v hv => ?_⟩
        · exact Nat.mod_eq_zero_of_dvd (pow_dvd_pow 2 (hls _ List.mem_cons_self) : 2 ^ 7 ∣ 2 ^ sh)
        · dsimp only at hloc ⊢
          rw [if_neg hloc]
          show bitsOf e 20 44 * 256 % 128 = 0
          omega
        · dsimp only at hv
          split_ifs at hv with hbit
          obtain rfl := Option.some.inj hv
          exact pteCause_view hp hbit
      · rw [if_neg hleaf] at h
        exact ih (fun x hx => hls x (List.mem_cons_of_mem _ hx)) h

theorem State.walk_sound {s : State} {ctx va : Nat} {lf : Leaf} (h : s.walk ctx va = .ok lf) : lf.Sound := by
  unfold State.walk at h
  split at h
  · cases h
  · exact State.walkFrom_sound (by decide) h

theorem State.resolveLeaf_sound {s : State} {w : Who} {va : Nat} {wr inReg : Bool} {lf : Leaf} (h : s.resolveLeaf w va wr = .ok (lf, inReg)) :
    lf.Sound := by
  cases hw : s.walk w.ctx va with
  | error e =>
    rw [State.resolveLeaf_error hw] at h
    cases h
  | ok x =>
    unfold State.resolveLeaf at h
    rw [hw] at h
    dsimp only at h
    split_ifs at h
    obtain ⟨rfl, -⟩ := Prod.mk.inj (Except.ok.inj h)
    exact State.walk_sound hw

/-- Whether a place has the address's offset in a line, host memory under LOC 2, and a format to store in a view. -/
def Place.fits (va : Nat) : Place → Prop
  | .mem p loc => p.a % 128 = va % 128 ∧ (loc = 2 → p.sp = .host)
  | .view v _ _ _ _ => 2 ≤ v.fmt
  | _ => True

theorem State.window_fits {s : State} {w : Who} {va n : Nat} {wr : Bool} {q : Place} (hva : winBase ≤ va) (h : s.window w va n wr = .ok q) :
    q.fits va := by
  have hscratch : ∀ core off, off % 128 = va % 128 → s.scratch w core off va n = .ok q → q.fits va := fun core off hoff hs => by
    rw [State.scratch_ok hs]
    refine ⟨?_, nofun⟩
    unfold sramBase
    dsimp only
    omega
  have hbase : winBase % 128 = 0 := by decide
  unfold State.window at h
  dsimp only at h
  split_ifs at h
  · exact hscratch _ _ (by omega) h
  · cases ht : w.team with
    | none => rw [ht] at h; cases h
    | some t =>
      rw [ht] at h
      dsimp only at h
      split_ifs at h
      exact hscratch _ _ (by omega) h
  · obtain rfl := Except.ok.inj h
    trivial

/-- What an address that passes comes to (R109 to R115). -/
theorem State.resolve_fits {s : State} {w : Who} {a : DWord} {n al : Nat} {wr : Bool} {q : Place} (h : s.resolve w a n al wr = .ok q) :
    q.fits a.toNat := by
  by_cases hh : 2 ^ 57 ≤ a.toNat
  case pos => rw [State.resolve_high hh] at h; cases h
  by_cases hb : a.toNat < winBase
  case neg =>
    unfold State.resolve at h
    dsimp only at h
    rw [if_neg hh, if_pos (by omega)] at h
    exact State.window_fits (by omega) h
  by_cases hal : a.toNat % al = 0
  case neg => rw [State.resolve_unaligned hb hal] at h; cases h
  cases hl : s.resolveLeaf w a.toNat wr with
  | error e => rw [State.resolve_leafError hb hal hl] at h; cases h
  | ok x =>
    obtain ⟨lf, inReg⟩ := x
    obtain ⟨hsize, hbase, hview⟩ := State.resolveLeaf_sound hl
    by_cases hloc : lf.loc = 3
    · rw [State.resolve_peer hb hal hl hloc] at h
      obtain rfl := Except.ok.inj h
      trivial
    cases hv : lf.view with
    | some v =>
      rw [State.resolve_view hb hal hl hloc hv] at h
      dsimp only at h
      split_ifs at h
      obtain rfl := Except.ok.inj h
      exact hview v hv
    | none =>
      rw [State.resolve_page hb hal hl hloc hv] at h
      dsimp only at h
      by_cases hown : lf.loc = 0 ∧ s.granOwner ((lf.base + a.toNat % lf.size) / 65536) ≠ some w.ctx
      · rw [if_pos hown] at h
        cases h
      rw [if_neg hown] at h
      split at h
      · obtain rfl := Except.ok.inj h
        trivial
      · obtain rfl := Except.ok.inj h
        refine ⟨?_, fun h2 => by simp [h2]⟩
        have hmod : a.toNat % lf.size % 128 = a.toNat % 128 := Nat.mod_mod_of_dvd _ (Nat.dvd_of_mod_eq_zero hsize)
        have := hbase hloc
        dsimp only
        omega

/-- A spot of plain memory lies within one line, and of a view has a format to store. -/
def Spot.fits (x : Spot) : Prop := match x.place with
  | .mem p loc => p.a % 128 + x.n ≤ 128 ∧ 0 < x.n ∧ (loc = 2 → p.sp = .host)
  | .view v _ _ _ _ => 2 ≤ v.fmt
  | _ => True

theorem Place.fits.spot {q : Place} {va n : Nat} (h : q.fits va) (hn : 0 < n) (hfit : va % 128 + n ≤ 128) : Spot.fits ⟨q, va, n⟩ := by
  cases q with
  | mem p loc =>
    obtain ⟨hoff, hloc⟩ := h
    exact ⟨by dsimp only; omega, hn, hloc⟩
  | view => exact h
  | _ => trivial

theorem Place.fits.congr {q : Place} {va va' : Nat} (h : q.fits va) (hva : va % 128 = va' % 128) : q.fits va' := by
  cases q with
  | mem p loc => exact ⟨h.1.trans hva, h.2⟩
  | view => exact h
  | _ => trivial

/-- The spots of an access that passes its checks; a view's is one (R139, R275). -/
theorem State.checkAccess_fits {s : State} {w : Who} {a : DWord} {n al : Nat} {wr : Bool} {l : List Spot} (hn : 0 < n)
    (hmax : n ≤ 128) (h : s.checkAccess w a n al wr = .ok l) :
    (∀ x ∈ l, x.fits) ∧ ∀ v base size off loc, firstPlace l = .view v base size off loc → l = [⟨.view v base size off loc, a.toNat, n⟩] := by
  unfold State.checkAccess at h
  cases hr : s.resolve w a n al wr with
  | error e => rw [hr] at h; cases h
  | ok p =>
    rw [hr] at h
    have hp := State.resolve_fits hr
    dsimp only at h
    by_cases hfit : a.toNat % 128 + n ≤ 128
    · rw [pieces, if_pos hfit] at h
      obtain rfl := Except.ok.inj h
      refine ⟨fun x hx => ?_, fun v base size off loc hv => ?_⟩
      · obtain rfl := List.mem_singleton.mp hx
        exact hp.spot hn hfit
      · rw [show p = _ from hv]
    · rw [pieces, if_neg hfit] at h
      cases p with
      | view v base size off loc =>
        obtain rfl := Except.ok.inj h
        refine ⟨fun x hx => ?_, fun v' base' size' off' loc' hv => ?_⟩
        · obtain rfl := List.mem_singleton.mp hx
          exact hp
        · rw [← show Place.view v base size off loc = _ from hv]
      | const off =>
        obtain rfl := Except.ok.inj h
        refine ⟨fun x hx => ?_, nofun⟩
        obtain rfl := List.mem_singleton.mp hx
        trivial
      | mem _ _ | region _ _ | peer _ _ =>
        dsimp only at h
        cases hr' : s.resolve w (BitVec.ofNat 64 (a.toNat + (128 - a.toNat % 128))) (n - (128 - a.toNat % 128)) 1 wr with
        | error e => rw [hr'] at h; cases h
        | ok q =>
          rw [hr'] at h
          obtain rfl := Except.ok.inj h
          exact ⟨List.forall_mem_cons.mpr ⟨hp.spot (by omega) (by omega),
            fun x hx => by
              obtain rfl := List.mem_singleton.mp hx
              exact ((State.resolve_fits hr').congr (by rw [BitVec.toNat_ofNat]; omega)).spot (by omega) (by omega)⟩, nofun⟩

theorem State.knowSpot_here {s : State} {k : Nat} {x y : Spot} (h : s.knowSpot k x = .ok y) (hy : y.isPeer = false) : y = x := by
  unfold State.knowSpot at h
  split at h
  next hx =>
    split at h
    · cases h
    · obtain rfl := Except.ok.inj h
      cases hy
    · obtain rfl := Except.ok.inj h
      rfl
  next => exact (Except.ok.inj h).symm

theorem State.mapM_knowSpot_here {s : State} {k : Nat} {l l' : List Spot} (h : l.mapM (s.knowSpot k) = .ok l') (hl : l'.any Spot.isPeer = false) :
    l' = l := by
  induction l generalizing l' with
  | nil => exact (Except.ok.inj h).symm
  | cons x r ih =>
    rw [List.mapM_cons] at h
    cases hx : s.knowSpot k x with
    | error e => rw [hx] at h; cases h
    | ok y =>
      cases hr : r.mapM (s.knowSpot k) with
      | error e => rw [hx, hr] at h; cases h
      | ok ys =>
        rw [hx, hr] at h
        obtain rfl := Except.ok.inj h
        obtain ⟨hy, hys⟩ := Bool.or_eq_false_iff.mp (List.any_cons ▸ hl)
        rw [State.knowSpot_here hx hy, ih hr hys]

/-- An access whose places are all this device's has passed its own checks. -/
theorem State.laneAccess_here {s : State} {f : Fibre} {a : DWord} {n al : Nat} {wr : Bool} {l : List Spot} (h : s.laneAccess f a n al wr = .ok l)
    (hl : l.any Spot.isPeer = false) : s.checkAccess (s.who f) a n al wr = .ok l := by
  unfold State.laneAccess at h
  split at h
  · cases h
  next hc => rw [hc, State.mapM_knowSpot_here h hl]

theorem State.stWords_length (s : State) (f : Fibre) (o : GOp) {cnt : Nat} (hb : 1 < cnt → ∃ n b, o.b = .v n b) (hc : 0 < cnt) :
    (s.stWords f o cnt).length = cnt := by
  unfold State.stWords
  split
  · exact (List.length_map _).trans List.length_range
  next hv =>
    by_cases h1 : 1 < cnt
    · obtain ⟨n, b, he⟩ := hb h1
      exact absurd he (hv n b)
    · show 1 = cnt
      omega

theorem stMore_act {s : State} {o : GOp} {f : Fibre} {cnt : Nat} {mk : List Word → MemLane} {m : MemLane} (h : stMore s o f cnt mk = .act m) :
    m = mk (s.stWords f o cnt) ∧ (1 < cnt → ∃ n b, o.b = .v n b) := by
  unfold stMore at h
  split at h
  next n b hb =>
    split_ifs at h
    exact ⟨(Plan.act.inj h).symm, fun _ => ⟨n, b, hb⟩⟩
  next =>
    split_ifs at h with hcnt
    exact ⟨(Plan.act.inj h).symm, fun hc => absurd hc hcnt⟩

/-- The lane of a store of this device, its checks passed at spots l. -/
def State.stLane (s : State) (o : GOp) (f : Fibre) (l : List Spot) : MemLane :=
  let g := (s.gen f.ctx f.core s.actorPort).toNat
  let ws := s.stWords f o (stCount o l)
  { s.laneOf f (effAddr f o) l (.store (stBytes o (stFormat o l) g f.lane ws)) 0 0 with words := ws, gen := g }

/-- The check and the lane's access are taken apart as constants first: the kernel, given them applied, would compute the address's checks. -/
theorem stCheck_act {s : State} {o : GOp} {f : Fibre} {m : MemLane} (h : stCheck s o f = .act m) (hm : m.spots.any Spot.isPeer = false) :
    ∃ l, m = s.stLane o f l ∧ s.checkAccess (s.who f) (effAddr f o) (widthBytes o.mod) (min (widthBytes o.mod) 4) true = .ok l ∧
      stBad o (effAddr f o) l = none ∧ (1 < stCount o l → ∃ n b, o.b = .v n b) := by
  obtain ⟨check, hcheck⟩ : ∃ check, check = stCheck := ⟨_, rfl⟩
  rw [← hcheck] at h
  obtain ⟨access, haccess⟩ : ∃ access, access = State.laneAccess := ⟨_, rfl⟩
  delta stCheck at hcheck
  rw [← haccess] at hcheck
  subst hcheck
  dsimp only at h
  generalize hx : access s f (effAddr f o) (widthBytes o.mod) (min (widthBytes o.mod) 4) true = x at h
  rw [haccess] at hx
  cases x with
  | error e => cases h
  | ok l =>
    dsimp only at h
    by_cases hu : (s.unknown f.key l).isEmpty = true
    · rw [hu, if_neg (by decide)] at h
      generalize hb : stBad o (effAddr f o) l = y at h
      cases y with
      | some e => cases h
      | none =>
        obtain ⟨rfl, hcnt⟩ := stMore_act h
        exact ⟨l, rfl, State.laneAccess_here hx hm, hb, hcnt⟩
    · rw [Bool.eq_false_iff.mpr hu, if_pos (show (!false) = true from rfl)] at h
      obtain rfl := Plan.act.inj h
      exact absurd (List.isEmpty_iff.mpr (State.unknown_none (l := l) hm)) hu

/-- A store's lane whose spots fit, and whose registers and bytes are those that its view page's places take (R281, R282). -/
structure MemLane.Fits (m : MemLane) : Prop where
  spots : ∀ x ∈ m.spots, x.fits
  view : ∀ v base size off loc, firstPlace m.spots = .view v base size off loc → ∃ a n, m.spots = [⟨.view v base size off loc, a, n⟩] ∧ n ≤ 128 ∧
    m.words.length = max 1 (n / 4) ∧ (v.fmt ≤ 5 → m.bytes.length = m.words.length * v.unit)

theorem stBytes_length (o : GOp) {fmt g lane : Nat} (ws : List Word) (h2 : 2 ≤ fmt) :
    (stBytes o fmt g lane ws).length = ws.length * if fmt ≤ 3 then 2 else 1 := by
  unfold stBytes
  rw [if_neg (by omega), if_neg (by omega)]
  simp [List.length_flatMap, leBytes_length]

theorem widthBytes_bounds (m : BitVec 6) : 0 < widthBytes m ∧ widthBytes m ≤ 128 := by
  unfold widthBytes
  have : modBits m 0 3 ≤ 7 := by
    unfold modBits
    omega
  exact ⟨Nat.two_pow_pos _, (Nat.pow_le_pow_right (by decide) this : _ ≤ 2 ^ 7)⟩

theorem stCheck_fits {s : State} {o : GOp} {f : Fibre} {m : MemLane} (h : stCheck s o f = .act m) (hm : m.spots.any Spot.isPeer = false) :
    m.Fits := by
  obtain ⟨l, rfl, hl, hbad, hcnt⟩ := stCheck_act h hm
  obtain ⟨hpos, hmax⟩ := widthBytes_bounds o.mod
  obtain ⟨hspots, hview⟩ := State.checkAccess_fits hpos hmax hl
  refine ⟨hspots, fun v base size off loc hv => ?_⟩
  have hl1 := hview v base size off loc hv
  have hfmt : 2 ≤ v.fmt := hspots ⟨.view v base size off loc, _, _⟩ (by rw [hl1]; exact List.mem_singleton_self _)
  have hsv : spotView l = some (v, off) := by rw [hl1]; rfl
  have hany : anyView l = true := by rw [hl1]; rfl
  have hcount : stCount o l = max 1 (widthBytes o.mod / 4) := by rw [stCount, if_pos hany]
  have hwords : (s.stWords f o (stCount o l)).length = max 1 (widthBytes o.mod / 4) := by
    rw [s.stWords_length f o hcnt (by omega), hcount]
  refine ⟨_, _, hl1, hmax, hwords, fun h5 => ?_⟩
  show (stBytes o (stFormat o l) _ f.lane (s.stWords f o (stCount o l))).length = (s.stWords f o (stCount o l)).length * v.unit
  have hform : stFormat o l = v.fmt := by rw [stFormat, hsv]
  rw [hform, stBytes_length o _ hfmt, View.unit, if_pos h5]

/-! ### A lane's stores as steps -/

/-- Whether the fibres kept under the numbers that `keys` names are of contexts that `acts` names, and name such numbers as their own. -/
def State.actsOn (keys acts : Nat → Prop) (s : State) : Prop := ∀ k f, keys k → s.fibre k = some f → keys f.key ∧ acts f.ctx

theorem State.logAccess_fibres (s : State) (ag : Agent) (ts va n : Nat) : (s.logAccess ag ts va n).fibres = s.fibres := by
  unfold State.logAccess
  split
  · rfl
  · split
    · unfold State.logRecord
      extract_lets k g r a s1 lk s2
      split
      · rfl
      · split
        · rfl
        · show s2.fibres = s.fibres
          unfold s2
          split <;> rfl
    · rfl

theorem State.countAccess_fibres (s : State) (ag : Agent) (va : Nat) (p : PA) : (s.countAccess ag va p).fibres = s.fibres := by
  unfold State.countAccess
  split
  · rfl
  · split <;> rfl

theorem State.postLine_fibres (s : State) (a : Nat) (bs : List Byte) : (s.postLine a bs).fibres = s.fibres := by
  unfold State.postLine State.wake
  have hclean : (s.cleaned a).fibres = s.fibres := by
    unfold State.cleaned
    dsimp only
    split <;> rfl
  split
  · exact hclean
  · exact hclean

section
variable {named : PA → Prop} {keys acts : Nat → Prop} {s t : State} {k : Nat}

theorem State.actsOn_of_fibres (h : s.actsOn keys acts) (hf : t.fibres = s.fibres) : t.actsOn keys acts := fun k f hk ht =>
  h k f hk (by rw [← ht, State.fibre, State.fibre, hf])

theorem State.actsOn_putFibre {f : Fibre} (h : s.actsOn keys acts) (hf : acts f.ctx) : (s.putFibre f).actsOn keys acts := fun k f' hk ht => by
  rw [State.fibre_putFibre] at ht
  split at ht
  next e =>
    obtain rfl := Option.some.inj ht
    exact ⟨e ▸ hk, hf⟩
  next => exact h k f' hk ht

theorem State.StoreStep.actsOn (hst : State.StoreStep named acts s t) (hs : s.linesCalm) (h : s.actsOn keys acts) : t.actsOn keys acts := by
  cases hst with
  | fibre f hf => exact State.actsOn_putFibre h hf
  | numbered n => exact State.actsOn_of_fibres h rfl
  | merged lk found => rwa [State.merge_calm (hs lk)]
  | line ag p ts bs hp hfit => exact State.actsOn_of_fibres h (State.afterAccess_writeLine hs ag ts hfit).fibres
  | posted a bs hp hfit => exact State.actsOn_of_fibres h (s.postLine_fibres a bs)
  | noted ag ts va n p hc => exact State.actsOn_of_fibres h ((State.countAccess_fibres _ _ _ _).trans (s.logAccess_fibres _ _ _ _))

theorem State.Stores.actsOn (hst : State.Stores named acts s t) (hs : s.linesCalm) (h : s.actsOn keys acts) : t.actsOn keys acts := by
  induction hst with
  | refl => exact h
  | tail hsteps hstep ih => exact hstep.actsOn (State.Stores.calm hsteps hs) ih

/-- A fibre's own notes of its store. -/
theorem State.stores_modFibre {g : Fibre → Fibre} (h : s.actsOn keys acts) (hk : keys k) (hg : ∀ f, (g f).ctx = f.ctx) :
    State.Stores named acts s (s.modFibre k g) := by
  unfold State.modFibre
  split
  next f hf => exact .single (.fibre s _ ((hg f).symm ▸ (h k f hk hf).2))
  · exact .refl

/-- An access, and the stamp that it leaves. -/
theorem State.Stores.stamped (hst : State.Stores named acts s t) (hs : s.linesCalm) (h : s.actsOn keys acts) (hk : keys k) (ts : Nat) :
    State.Stores named acts s (t.setStamp k ts) := hst.trans (State.stores_modFibre (hst.actsOn hs h) hk fun _ => rfl)
/-- Stores to LOC 2 pages counted (R149). -/
theorem State.Stores.counted (hst : State.Stores named acts s t) (hs : s.linesCalm) (h : s.actsOn keys acts) (hk : keys k) (l : List Spot) :
    State.Stores named acts s (t.countLoc2 k l) := by
  unfold State.countLoc2
  split
  · exact hst.trans (State.stores_modFibre (hst.actsOn hs h) hk fun _ => rfl)
  · exact hst

end

/-! #### The bytes of a lane's spots -/

section
variable {named : PA → Prop} {m : MemLane} (hnamed : ∀ q, m.fills q = true → named q)
include hnamed

theorem MemLane.named_of_stored {x : Spot} (hx : x ∈ m.spots) {y : PA × Nat} (hy : y ∈ x.stored) {q : PA} (hq : q.among y.1 y.2 = true) : named q :=
  hnamed q (List.any_eq_true.mpr ⟨x, hx, List.any_eq_true.mpr ⟨y, hy, hq⟩⟩)

theorem MemLane.within_of_stored {x : Spot} (hx : x ∈ m.spots) {y : PA × Nat} (hy : y ∈ x.stored) (hpos : 0 < y.2) : y.1.within named y.2 :=
  ⟨m.named_of_stored hnamed hx hy ((PA.among_iff _ _ _).mpr ⟨rfl, le_rfl, by omega⟩), fun _ hq => m.named_of_stored hnamed hx hy hq⟩

theorem MemLane.within_mem {x : Spot} (hx : x ∈ m.spots) {p : PA} {loc : Nat} (hp : x.place = .mem p loc) (hpos : 0 < x.n) : p.within named x.n :=
  m.within_of_stored hnamed hx (y := (p, x.n)) (by rw [Spot.stored, hp]; exact List.mem_singleton_self _) hpos

omit hnamed in
theorem View.unit_bounds (v : View) : 0 < v.unit ∧ v.unit ≤ 18 := by
  unfold View.unit sxBytes sxK
  split_ifs <;> omega

theorem MemLane.within_view {v : View} {base size off loc a n j : Nat} (hx : ⟨.view v base size off loc, a, n⟩ ∈ m.spots) (hj : j < max 1 (n / 4)) :
    PA.within named ⟨locSpace loc, base + (v.place (off + 4 * j)).1⟩ v.unit :=
  m.within_of_stored hnamed hx (y := (⟨locSpace loc, base + (v.place (off + 4 * j)).1⟩, v.unit))
    (List.mem_map.mpr ⟨j, List.mem_range.mpr hj, rfl⟩) v.unit_bounds.1

omit hnamed in
/-- Elements off the block formats lie side by side (R133). -/
theorem View.place_elem {v : View} (h5 : v.fmt ≤ 5) (off j : Nat) : (v.place (off + 4 * j)).1 = (v.place off).1 + j * v.unit := by
  unfold View.place View.unit
  split_ifs <;> (dsimp only; omega)

theorem MemLane.within_elems {v : View} {base size off loc a n : Nat} (h5 : v.fmt ≤ 5) (hx : ⟨.view v base size off loc, a, n⟩ ∈ m.spots) :
    PA.within named ⟨locSpace loc, base + (v.place off).1⟩ (max 1 (n / 4) * v.unit) := by
  obtain ⟨hpos, -⟩ := v.unit_bounds
  refine ⟨(m.within_view hnamed hx (j := 0) (by omega)).1, fun q hq => ?_⟩
  obtain ⟨hsp, hlo, hhi⟩ := (PA.among_iff _ _ _).mp hq
  dsimp only at hsp hlo hhi
  have hdiv := Nat.div_add_mod (q.a - (base + (v.place off).1)) v.unit
  have hmod := Nat.mod_lt (q.a - (base + (v.place off).1)) hpos
  have hj : (q.a - (base + (v.place off).1)) / v.unit < max 1 (n / 4) := (Nat.div_lt_iff_lt_mul hpos).mpr (by omega)
  refine (m.within_view hnamed hx hj).2 q ((PA.among_iff _ _ _).mpr ⟨hsp, ?_, ?_⟩)
  all_goals
    dsimp only
    rw [View.place_elem h5, Nat.mul_comm]
    omega

end

/-! #### A lane's turn -/

section
variable {named : PA → Prop} {keys acts : Nat → Prop}

theorem State.stores_storeSpots {s : State} {ag : Agent} {l : List Spot} {bs : List Byte} (hc : acts ag.ctx) (hl : ∀ x ∈ l, x.fits)
    (hnamed : ∀ x ∈ l, ∀ p loc, x.place = .mem p loc → p.within named x.n) : State.Stores named acts s (s.storeSpots ag l bs).s := by
  unfold State.storeSpots
  refine List.foldlRecOn l _ (motive := fun r : Acc × List Byte => State.Stores named acts s r.1.s) .refl fun r hr x hx => hr.trans ?_
  dsimp only
  split
  next p loc hp =>
    have hfits := hl x hx
    rw [Spot.fits, hp] at hfits
    obtain ⟨hfit, -, hloc⟩ := hfits
    have hlen : (r.2.take x.n).length ≤ x.n := List.length_take_le _ _
    have hin := PA.within_mono (hnamed x hx p loc hp) hlen
    split
    next h2 =>
      refine State.stores_hostWrite ?_ (by omega)
      rw [← hloc h2]
      exact hin
    · exact State.stores_writeAt (ag := { ag with ts := r.1.ts }) hc hin (by omega) _
  · exact .refl

/-- An element of a block comes of a lane whose access is to a view page of a block format. -/
theorem sxElems_mem {ms : List MemLane} {e : SxElem} (hms : ∀ x ∈ ms, x.spots.any Spot.isPeer = false) (he : e ∈ sxElems ms) :
    ∃ x ∈ ms, ∃ v base size off loc, firstPlace x.spots = .view v base size off loc ∧ 5 < v.fmt ∧ e.fmt = v.fmt ∧
      ∃ j < x.words.length, e.home = ⟨none, locSpace loc, loc, base + (v.place (off + 4 * j)).1⟩ := by
  unfold sxElems at he
  dsimp only at he
  obtain ⟨x, hx, he⟩ := List.mem_flatMap.mp he
  refine ⟨x, hx, ?_⟩
  split at he
  next v base size off loc hp =>
    split at he
    · cases he
    next h5 =>
      obtain ⟨j, hj, rfl⟩ := List.mem_map.mp he
      exact ⟨v, base, size, off, loc, hp, by omega, rfl, j, List.mem_range.mp hj, rfl⟩
  next owner v off hp =>
    have := hms x hx
    unfold firstPlace at hp
    split at hp
    next y r hy =>
      rw [hy, List.any_cons, Spot.isPeer, hp] at this
      cases this
    · cases hp
  · cases he

theorem sxWrites_head {ms : List MemLane} {m : MemLane} {b : List SxElem} (hb : b ∈ sxWrites ms m) : b.headD SxElem.zero ∈ sxElems ms := by
  unfold sxWrites at hb
  obtain ⟨e, he, rfl⟩ := List.mem_map.mp hb
  have he : e ∈ sxElems ms := (List.mem_filter.mp (List.mem_filter.mp he).1).1
  have hself : e ∈ sxBlock (sxElems ms) e.home := List.mem_filter.mpr ⟨he, beq_self_eq_true _⟩
  have hsub : ∀ x ∈ sxBlock (sxElems ms) e.home, x ∈ sxElems ms := fun x hx => (List.mem_filter.mp hx).1
  generalize sxBlock (sxElems ms) e.home = b at hself hsub
  cases b with
  | nil => cases hself
  | cons x r => exact hsub x List.mem_cons_self

theorem sxBytesOf_length (o : GOp) (g : Nat) (b : List SxElem) : (sxBytesOf o g b).length = sxBytes (b.headD SxElem.zero).fmt := by
  unfold sxBytesOf
  rw [leBytes_length]
  cases b <;> rfl

variable {s : State} {ms : List MemLane} (hs : s.linesCalm) (hfits : ∀ x ∈ ms, x.Fits) (hms : ∀ x ∈ ms, x.spots.any Spot.isPeer = false)
  (hnamed : ∀ x ∈ ms, ∀ q, x.fills q = true → named q)
include hfits hms hnamed

/-- A block that a lane writes lies in what some lane's store fills (R284). -/
theorem sxWrites_within {m : MemLane} {b : List SxElem} (hb : b ∈ sxWrites ms m) (o : GOp) (g : Nat) :
    let e := b.headD SxElem.zero
    PA.within named ⟨e.home.sp, e.home.a⟩ (sxBytesOf o g b).length ∧ (sxBytesOf o g b).length ≤ 128 ∧ (e.home.loc = 2 → e.home.sp = .host) := by
  intro e
  obtain ⟨x, hx, v, base, size, off, loc, hp, h5, hfmt, j, hj, hhome⟩ := sxElems_mem hms (sxWrites_head hb)
  obtain ⟨a, n, hspots, -, hwords, -⟩ := (hfits x hx).view _ _ _ _ _ hp
  have hunit : (sxBytesOf o g b).length = v.unit := by
    rw [sxBytesOf_length, hfmt, View.unit, if_neg (by omega), if_neg (by omega)]
  obtain ⟨-, hmax⟩ := v.unit_bounds
  rw [hunit, show e.home = _ from hhome]
  exact ⟨x.within_view (hnamed x hx) (by rw [hspots]; exact List.mem_singleton_self _) (hwords ▸ hj), by omega, fun h2 => by
    dsimp only at h2 ⊢
    rw [h2]
    rfl⟩

include hs

/-- A lane's store, its places all this device's, is made, in steps that write what the lanes' stores fill. -/
theorem stPerform_stores (o : GOp) {m : MemLane} (hm : m ∈ ms) (hacts : s.actsOn keys acts) (hkey : keys m.key) :
    ∃ u, stPerform o s ms m none = some u ∧ State.Stores named acts s u := by
  unfold stPerform
  cases hf : s.fibre m.key with
  | none => exact ⟨s, rfl, .refl⟩
  | some f =>
    obtain ⟨hk, hc⟩ := hacts _ f hkey hf
    dsimp only
    split
    next v base size off loc hp =>
      obtain ⟨a, n, hspots, hn, hwords, hbytes⟩ := (hfits m hm).view _ _ _ _ _ hp
      have hhost : loc = 2 → locSpace loc = .host := fun h2 => by rw [h2]; rfl
      split
      next h5 =>
        refine ⟨_, rfl, ((State.stores_storeView ?_ ?_ ?_ ?_ _).stamped hs hacts hk _).counted hs hacts hk _⟩
        · exact hc
        · rw [hbytes h5, hwords]
          exact m.within_elems (hnamed m hm) h5 (by rw [hspots]; exact List.mem_singleton_self _)
        · have hunit : v.unit ≤ 2 := by
            unfold View.unit
            split_ifs <;> omega
          rw [hbytes h5, hwords]
          exact (Nat.mul_le_mul_left _ hunit).trans (by omega)
        · exact hhost
      next h5 =>
        refine ⟨_, rfl, State.Stores.counted ?_ hs hacts hk _⟩
        refine List.foldlRecOn _ _ (motive := fun t => State.Stores named acts s t) .refl fun t ht b hb => ht.trans ?_
        have hacts' := State.Stores.actsOn ht hs hacts
        split
        · exact .refl
        next f' hf' =>
          obtain ⟨hin, hlen, hloc⟩ := sxWrites_within hfits hms hnamed hb o m.gen
          exact (State.stores_storeView (hacts' _ f' hkey hf').2 hin hlen hloc _).stamped (State.Stores.calm ht hs) hacts' (hacts' _ f' hkey hf').1 _
    next hp =>
      refine ⟨_, rfl, ((State.stores_storeSpots hc (hfits m hm).spots fun x hx p loc hp => ?_).stamped hs hacts hk _).counted hs hacts hk _⟩
      have hfit := (hfits m hm).spots x hx
      rw [Spot.fits, hp] at hfit
      exact m.within_mem (hnamed m hm) hx hp hfit.2.1

end

/-! ### Stores complete (O29) -/

/-- Accesses that an invariant lets each lane make, walks and all, are made in order, and keep it. -/
theorem accessesInOrder_keeps {inv : State → Prop} {perform : State → MemLane → Option State} {ms : List MemLane}
    (hlane : ∀ m ∈ ms, ∀ s, inv s → ∃ t, s.laneWalks m.key 0 m.spots = (t, false) ∧ ∃ u, perform t m = some u ∧ inv u) {s : State} (hs : inv s) :
    ∃ u, accessesInOrder noFar perform ms false s = some u ∧ inv u := by
  induction ms generalizing s with
  | nil => exact ⟨s, rfl, hs⟩
  | cons m r ih =>
    obtain ⟨t, hwalks, u, hperform, hu⟩ := hlane m List.mem_cons_self s hs
    obtain ⟨v, hrest, hv⟩ := ih (fun x hx => hlane x (List.mem_cons_of_mem _ hx)) hu
    refine ⟨v, ?_, hv⟩
    rw [accessesInOrder, hwalks]
    dsimp only
    rw [Bool.false_and, if_neg Bool.false_ne_true, hperform]
    exact hrest

/-- The walks of a lane in a calm device: no error, but for leases no line changed, and the lane's stamp. -/
theorem State.laneWalks_quiet {s : State} (h : s.linesCalm) (k : Nat) (l : List Spot) :
    ∃ t u : State, s.laneWalks k 0 l = (t, false) ∧ s.KeepsMemory u ∧ s.leasesOnly u ∧ (t = u ∨ ∃ ts, t = u.setStamp k ts) := by
  cases hf : s.fibre k with
  | none => exact ⟨s, s, by rw [State.laneWalks, hf], State.keepsMemory_refl h, s.leasesOnly_refl, .inl rfl⟩
  | some f =>
    obtain ⟨u, ts, hkeep, hleases, hw⟩ := State.laneWalks_calm h hf 0 l
    exact ⟨_, u, hw, hkeep, hleases, .inr ⟨ts, rfl⟩⟩

/-- Nothing is asked of the fibres that step, nor of the bytes. -/
theorem State.actsOn_trivial (s : State) : s.actsOn (fun _ => True) fun _ => True := fun _ _ _ _ => ⟨trivial, trivial⟩

theorem State.laneWalks_stays {s : State} (h : s.linesCalm) (k : Nat) (l : List Spot) : ∃ t, s.laneWalks k 0 l = (t, false) ∧ t.linesCalm := by
  obtain ⟨t, u, hw, hkeep, -, rfl | ⟨ts, rfl⟩⟩ := s.laneWalks_quiet h k l
  · exact ⟨_, hw, hkeep.calm⟩
  · exact ⟨_, hw, State.Stores.calm (named := fun _ => True) (State.stores_modFibre u.actsOn_trivial trivial fun _ => rfl) hkeep.calm⟩

/-- No block being supplied in part, no lane finds FORMAT cause 5 (R284). -/
theorem stJoint_whole {ms : List MemLane} (h : ∀ e ∈ sxElems ms, sxWhole (sxBlock (sxElems ms) e.home) = true) (s : State) : stJoint s ms = [] := by
  refine List.filterMap_eq_nil_iff.mpr fun m _ => if_neg fun hany => ?_
  obtain ⟨e, he, hbad⟩ := List.any_eq_true.mp hany
  rw [h e he] at hbad
  simp at hbad

theorem accessesThrough_st (o : GOp) : accessesThrough 0x281 (.st o) o true (fun s f => stCheck s o f)
    (fun ms => ∀ e ∈ sxElems ms, sxWhole (sxBlock (sxElems ms) e.home) = true) noFar (fun ms s m => stPerform o s ms m none) (stAfter o) :=
  accessesThrough_runMem (a := stAct o) (fun _ => rfl) rfl (fun s _ h => stJoint_whole h s) rfl (fun _ _ _ => rfl) fun _ _ _ => rfl

/-- The lanes of a store that reach it have places of this device only, and fit them. -/
theorem Group.reaches_fits {g : Group} {s : State} {o : GOp} {m : Fibre → MemLane} (h : g.reaches s 0x281 o true (fun s f => stCheck s o f) m) :
    ∀ x ∈ (g.reaching o.guard true).map m, x.Fits ∧ x.spots.any Spot.isPeer = false := fun x hx => by
  obtain ⟨-, -, -, -, hlane, -⟩ := h
  obtain ⟨f, hf, rfl⟩ := List.mem_map.mp hx
  obtain ⟨-, hcheck, -, -, -, hhere⟩ := hlane f hf
  exact ⟨stCheck_fits hcheck hhere, hhere⟩

theorem State.linesCalm_putFibres {s : State} (h : s.linesCalm) (fs : List Fibre) : (s.putFibres fs).linesCalm := by
  rw [State.putFibres_eq]
  exact h

/-- Settles O29: the group's issue makes the accesses in lane order; in a calm device each lane's walks find no error, its store is made, and the device
stays calm. -/
theorem storesComplete : Obligations.StoresComplete := by
  intro o whole
  refine ⟨accessesThrough_st o, fun s g m hreach hcalm => ?_⟩
  intro ms hwhole
  have hlane : ∀ x ∈ ms, ∀ t : State, t.linesCalm → ∃ u, t.laneWalks x.key 0 x.spots = (u, false) ∧
      ∃ v, stPerform o u ms x none = some v ∧ v.linesCalm := fun x hx t ht => by
    obtain ⟨u, hwalks, hu⟩ := t.laneWalks_stays ht x.key x.spots
    obtain ⟨v, hperform, hstores⟩ := stPerform_stores hu (fun y hy => (Group.reaches_fits hreach y hy).1) (fun y hy => (Group.reaches_fits hreach y hy).2)
      (named := fun _ => True) (fun _ _ _ _ => trivial) o hx u.actsOn_trivial trivial
    exact ⟨u, hwalks, v, hperform, hstores.calm hu⟩
  obtain ⟨t, hacc, -⟩ := accessesInOrder_keeps hlane (State.linesCalm_putFibres (State.linesCalm_of_calm hcalm) _)
  refine ⟨t, ?_, accessesThrough_st o s g m t hreach hwhole ?_⟩
  · exact hacc
  · simpa only [Bool.and_true] using hacc

/-! ### The bytes that a store leaves -/

/-- Newer data of a host line that waits in the device are a line's (R469). -/
def State.wholeAt (s : State) (lk : Nat) : Prop := ∀ d, (s.lineOf lk).dirtyHost = some d → d.length = 128

section
variable {s : State} {a : Nat} {bs : List Byte}

theorem PA.line_host_base (a : Nat) (q : PA) (hq : q.sp = .host) : PA.line ⟨.host, a⟩ = q.line ↔ q.a / 128 = a / 128 :=
  eq_comm.trans (PA.line_host hq rfl)

/-- A written-back line reads as it did. -/
theorem State.keepsMemory_cleaned (h : s.linesCalm) (hw : s.wholeAt (PA.line ⟨.host, a⟩)) : s.KeepsMemory (s.cleaned a) := by
  have hlines := fun lk => s.cleaned_line a lk
  unfold State.wholeAt at hw
  unfold State.cleaned at hlines ⊢
  dsimp only at hlines ⊢
  cases hd : (s.lineOf (PA.line ⟨.host, a⟩)).dirtyHost with
  | none => exact State.keepsMemory_refl h
  | some d =>
    have hlen := hw d hd
    rw [hd] at hlines
    dsimp only at hlines ⊢
    refine ⟨fun q => ?_, rfl, rfl, fun _ => rfl, fun lk => ?_⟩
    · unfold State.rawByte
      cases hq : q.sp with
      | host =>
        dsimp only
        rw [hlines, cellRead_cellsWrite, hlen]
        by_cases hl : q.a / 128 = a / 128
        · have he := (PA.line_host_base a q hq).mpr hl
          rw [if_pos he, ← he, hd, if_pos (by omega)]
          dsimp only
          rw [show q.a - a / 128 * 128 = q.a % 128 by omega]
        · rw [if_neg fun e => hl ((PA.line_host_base a q hq).mp e), if_neg (by omega)]
      | _ => rfl
    · rw [hlines]
      split
      · exact h lk
      · exact h lk

/-- Bytes posted within a line of host memory (R147). -/
theorem State.afterAccess_postLine (h : s.linesCalm) (hw : s.wholeAt (PA.line ⟨.host, a⟩)) (hfit : a % 128 + bs.length ≤ 128) :
    s.AfterAccess (s.postLine a bs) (s.overwritten ⟨.host, a⟩ bs) := by
  have hclean := State.keepsMemory_cleaned h hw
  have hnone : ((s.cleaned a).lineOf (PA.line ⟨.host, a⟩)).dirtyHost = none := by rw [State.cleaned_line, if_pos rfl]
  rw [← State.overwritten_congr hclean.bytes]
  unfold State.postLine
  generalize s.cleaned a = t at hclean hnone ⊢
  have hwritten : s.AfterAccess { t with host := cellsWrite t.host a bs } (t.overwritten ⟨.host, a⟩ bs) := by
    refine ⟨fun q => ?_, hclean.fibres, hclean.fills, hclean.unwatched, hclean.calm⟩
    cases hq : q.sp with
    | host =>
      rw [State.overwritten_same bs hq, State.rawByte, State.rawByte, hq]
      dsimp only
      rw [cellRead_cellsWrite, show State.lineOf { t with host := cellsWrite t.host a bs } q.line = t.lineOf q.line from rfl]
      by_cases hl : q.a / 128 = a / 128
      · rw [← (PA.line_host_base a q hq).mpr hl, hnone]
      · rw [if_neg (by omega), if_neg (by omega)]
    | _ =>
      have hout : ¬ q.among ⟨.host, a⟩ bs.length = true := fun hin => by
        have := ((PA.among_iff _ _ _).mp hin).1
        rw [hq] at this
        cases this
      obtain ⟨sp, b⟩ := q
      obtain rfl : sp = _ := hq
      rw [State.overwritten, if_neg hout]
      rfl
  exact hwritten.keep (State.keepsMemory_wake hwritten.calm _)

theorem State.afterAccess_writeAt (h : s.linesCalm) {ag : Agent} {p : PA} (va : Nat) (hu : s.unwatched ag.ctx = true)
    (hfit : p.a % 128 + bs.length ≤ 128) : s.AfterAccess (s.writeAt ag va p bs).s (s.overwritten p bs) := by
  have h1 : s.KeepsMemory { s with accesses := s.accesses + 1 } := State.keepsMemory_accesses h _
  unfold State.writeAt
  dsimp only
  rw [State.merge_calm (h1.calm p.line)]
  exact h1.trans (State.afterAccess_writeHome h1.calm va _ hu hfit)

theorem State.hostWrite_line (hfit : a % 128 + bs.length ≤ 128) : s.hostWrite a bs = s.postLine a bs := by
  rw [State.hostWrite_postLines, min_eq_left (by omega), pieces, if_pos hfit, List.foldl_cons, List.foldl_nil, Nat.sub_self, List.drop_zero,
    List.take_length]

/-- A store of bytes to one place of memory (R147, R281). -/
theorem State.afterAccess_storeSpots (h : s.linesCalm) {ag : Agent} {p : PA} {loc : Nat} (va : Nat) (hu : s.unwatched ag.ctx = true)
    (hw : s.wholeAt p.line) (hloc : loc = 2 → p.sp = .host) (hfit : p.a % 128 + bs.length ≤ 128) :
    s.AfterAccess (s.storeSpots ag [⟨.mem p loc, va, bs.length⟩] bs).s (s.overwritten p bs) := by
  unfold State.storeSpots
  dsimp only [List.foldl_cons, List.foldl_nil]
  rw [List.take_length]
  split
  next h2 =>
    obtain ⟨sp, pa⟩ := p
    obtain rfl : sp = .host := hloc h2
    rw [State.hostWrite_line hfit]
    exact State.afterAccess_postLine h hw hfit
  · exact State.afterAccess_writeAt (ag := { ag with ts := ag.ts }) h va hu hfit

/-! #### What follows a store leaves memory -/

theorem State.rawByte_modFibre (s : State) (k : Nat) (g : Fibre → Fibre) (q : PA) : (s.modFibre k g).rawByte q = s.rawByte q := by
  unfold State.modFibre
  split <;> rfl

theorem State.rawByte_countLoc2 (s : State) (k : Nat) (l : List Spot) (q : PA) : (s.countLoc2 k l).rawByte q = s.rawByte q := by
  unfold State.countLoc2
  split
  · exact s.rawByte_modFibre _ _ _
  · rfl

/-- The seeds of what scratchpads held stay when a generator steps (R119). -/
theorem State.rawByte_setGen (s : State) (ctx core p : Nat) (x : Word) (q : PA) : (s.setGen ctx core p x).rawByte q = s.rawByte q := by
  unfold State.rawByte
  cases q.sp with
  | sram =>
    dsimp only
    unfold State.sramByte State.setGen State.putCC State.cc
    congr 2
    rw [Tab.get_set]
    by_cases hk : ctx * 384 + core = q.a / 2 ^ 21
    · rw [if_pos hk, hk]
      cases Tab.get s.coreCtx (q.a / 2 ^ 21) <;> rfl
    · rw [if_neg hk]
  | _ => rfl

theorem rawByte_stAfter (o : GOp) (s : State) (g : Group) (ms : List MemLane) (q : PA) : (stAfter o s g ms).rawByte q = s.rawByte q := by
  unfold stAfter
  split
  · split
    · exact s.rawByte_setGen _ _ _ _ _
    · rfl
  · rfl

end

/-! ### A store writes its registers (O32) -/

theorem bytesOfWords_length (ws : List Word) : (bytesOfWords ws).length = 4 * ws.length := by
  simp [bytesOfWords, List.length_flatMap, leBytes_length, Nat.mul_comm]

/-- A width's bytes are those of its registers. -/
theorem widthBytes_le_words (m : BitVec 6) : widthBytes m ≤ 4 * max 1 (widthBytes m / 4) := by
  unfold widthBytes
  generalize modBits m 0 3 = k
  match k with
  | 0 => decide
  | 1 => decide
  | k + 2 =>
    rw [pow_add]
    omega

/-- The bytes that a store of registers carries at one place of memory. -/
theorem State.stLane_registers {s : State} {o : GOp} {f : Fibre} {p : PA} {loc va : Nat} (hfmt : stFmt o.c = 0)
    (hcnt : 1 < stCount o [⟨.mem p loc, va, widthBytes o.mod⟩] → ∃ n b, o.b = .v n b) :
    let bs := (bytesOfWords (s.stWords f o (max 1 (widthBytes o.mod / 4)))).take (widthBytes o.mod)
    (s.stLane o f [⟨.mem p loc, va, widthBytes o.mod⟩]).bytes = bs ∧ bs.length = widthBytes o.mod := by
  intro bs
  have hcount : stCount o [⟨.mem p loc, va, widthBytes o.mod⟩] = max 1 (widthBytes o.mod / 4) := by
    rw [stCount, if_neg (by simp [anyView, Place.view?]), hfmt]
    rfl
  refine ⟨?_, ?_⟩
  · show stBytes o (stFmt o.c) _ f.lane (s.stWords f o (stCount o [⟨.mem p loc, va, widthBytes o.mod⟩])) = bs
    rw [hcount, stBytes, if_pos hfmt]
  · rw [List.length_take, bytesOfWords_length, s.stWords_length f o (hcount ▸ hcnt) (by omega)]
    exact min_eq_left (widthBytes_le_words o.mod)

theorem State.wholeAt_of_plain {s : State} {m : MemLane} (h : s.plain m = true) {x : Spot} (hx : x ∈ m.spots) {y : PA × Nat} (hy : y ∈ x.stored) :
    s.wholeAt y.1.line ∧ s.wholeAt (PA.line { y.1 with a := y.1.a + y.2 - 1 }) := by
  have hlines := List.all_eq_true.mp (List.all_eq_true.mp (List.all_eq_true.mp h x hx) y hy)
  have hone : ∀ lk ∈ [y.1.line, PA.line { y.1 with a := y.1.a + y.2 - 1 }], s.wholeAt lk := fun lk hlk d hd => by
    have := hlines lk hlk
    dsimp only at this
    rw [hd] at this
    exact beq_iff_eq.mp (Bool.and_eq_true_iff.mp this).2
  exact ⟨hone _ (by simp), hone _ (by simp)⟩

/-- A store at one place of memory that a fibre makes. -/
theorem stPerform_mem {o : GOp} {s : State} {m : MemLane} {f : Fibre} {p : PA} {loc va n : Nat} (hf : s.fibre m.key = some f)
    (hspots : m.spots = [⟨.mem p loc, va, n⟩]) : ∃ ts, stPerform o s [m] m none =
      some (((s.storeSpots (f.agent 1) [⟨.mem p loc, va, n⟩] m.bytes).s.setStamp f.key ts).countLoc2 f.key m.spots) := by
  unfold stPerform
  rw [hf, hspots]
  exact ⟨_, rfl⟩

/-- Settles O32: the walks leave memory, the store leaves its bytes there, and what follows leaves them. -/
theorem storeWritesItsRegisters : Obligations.StoreWritesItsRegisters := by
  intro o s g f p loc va m hreach hfs hgd hhelper hf hfmt hspots hfit hcalm hplain hunwatched
  have hpeer : m.spots.any Spot.isPeer = false := by rw [hspots]; rfl
  have hin : (f.helper && true) = false := by rw [hhelper]; rfl
  have hcheck := Group.reaches_single hreach hfs hgd hin
  obtain ⟨l, hm, -, -, hcnt⟩ := stCheck_act hcheck hpeer
  obtain rfl : l = [⟨.mem p loc, va, widthBytes o.mod⟩] := by rw [← hspots, hm]; rfl
  obtain ⟨hbytes, hlen⟩ := s.stLane_registers (f := f) hfmt hcnt
  rw [← hm] at hbytes
  generalize (bytesOfWords (s.stWords f o (max 1 (widthBytes o.mod / 4)))).take (widthBytes o.mod) = bs at hbytes hlen ⊢
  have hkey : m.key = f.key := by rw [hm]; rfl
  have hx : (⟨.mem p loc, va, widthBytes o.mod⟩ : Spot) ∈ m.spots := by rw [hspots]; exact List.mem_singleton_self _
  have hloc : loc = 2 → p.sp = .host := ((stCheck_fits hcheck hpeer).spots _ hx).2.2
  have hwhole : s.wholeAt p.line := (State.wholeAt_of_plain hplain hx (y := (p, widthBytes o.mod)) (List.mem_singleton_self _)).1
  obtain ⟨t, ts, hwalks, htf, htcalm, hleases, -, htunwatched, htbytes⟩ := State.laneWalks_fibre (State.linesCalm_of_calm hcalm) hf m.spots
  have htwhole : t.wholeAt p.line := fun d hd => by
    obtain ⟨n, hline⟩ := hleases p.line
    rw [hline] at hd
    exact hwhole d hd
  obtain ⟨ts', hperform⟩ := stPerform_mem (o := o) ((congrArg t.fibre hkey).trans htf) hspots
  have hstore : t.AfterAccess (t.storeSpots (Fibre.agent { f with stamp := ts } 1) [⟨.mem p loc, va, bs.length⟩] bs).s (t.overwritten p bs) :=
    State.afterAccess_storeSpots htcalm va ((htunwatched f.ctx).trans hunwatched) htwhole hloc (hlen ▸ hfit)
  refine ⟨_, accessesThrough_single (accessesThrough_st o) hreach hfs hgd hin (fun e he => ?_) hkey hwalks hperform, ?_⟩
  · have hnone : sxElems [m] = [] := by
      unfold sxElems
      simp [hspots, firstPlace]
    rw [hnone] at he
    cases he
  · rw [← hlen]
    refine State.rawRead_overwritten (s := t) fun q => ?_
    rw [(State.goOn_memory _ _).2, rawByte_stAfter, State.rawByte_countLoc2, State.setStamp, State.rawByte_modFibre, hbytes]
    exact hstore.bytes q

/-! ### A store fills only its bytes (O30) -/

/-! #### Lines of newer host data stay whole (R469) -/

/-- No line's newer data changed. -/
def State.keepsDirty (s t : State) : Prop := ∀ lk, (t.lineOf lk).dirtyHost = (s.lineOf lk).dirtyHost

theorem State.keepsDirty.trans {s t u : State} (h1 : s.keepsDirty t) (h2 : t.keepsDirty u) : s.keepsDirty u := fun lk => (h2 lk).trans (h1 lk)
theorem State.keepsDirty.wholeAt {s t : State} (h : s.keepsDirty t) {lk : Nat} (hw : s.wholeAt lk) : t.wholeAt lk := fun d hd => hw d (by rw [← h lk, hd])
theorem State.keepsDirty_of_lines {s t : State} (h : t.lines = s.lines) : s.keepsDirty t := fun lk => by rw [State.lineOf, State.lineOf, h]

theorem State.keepsDirty_putLine (s : State) {lk : Nat} {l : Line} (hl : l.dirtyHost = (s.lineOf lk).dirtyHost) : s.keepsDirty (s.putLine lk l) :=
  fun k => by
    rw [State.lineOf_putLine]
    split
    next e => rw [hl, e]
    next => rfl

theorem State.leasesOnly.keepsDirty {s t : State} (h : s.leasesOnly t) : s.keepsDirty t := fun lk => by
  obtain ⟨n, hn⟩ := h lk
  rw [hn]

section
variable {s : State} (h : s.linesCalm)
include h

theorem State.keepsDirty_makeRoom (ctx core : Nat) : s.keepsDirty (s.makeRoom ctx core).2 := by
  have hrefl : s.keepsDirty s := fun _ => rfl
  unfold State.makeRoom
  dsimp only
  split
  · unfold State.evictOne
    dsimp only
    split
    · unfold State.evictLine
      rw [State.evictPartial_calm h]
      exact s.keepsDirty_putLine rfl
    · exact State.keepsDirty_of_lines rfl
  · exact hrefl

theorem State.keepsDirty_install (ctx core lk till : Nat) (ok counts : Bool) : s.keepsDirty (s.install ctx core lk till ok counts) := by
  unfold State.install
  extract_lets s1 _ s2
  have h1 : s.keepsDirty s1 ∧ s1.linesCalm := by
    show s.keepsDirty (if _ then _ else _) ∧ State.linesCalm (if _ then _ else _)
    split
    · exact ⟨State.keepsDirty_of_lines rfl, h⟩
    · exact ⟨fun _ => rfl, h⟩
  obtain ⟨hkeep, hcalm⟩ := h1
  have h2 : s.keepsDirty s2 := hkeep.trans (s1.keepsDirty_putLine rfl)
  have hput : s1.KeepsMemory s2 := State.keepsMemory_putLine hcalm (hcalm lk) rfl
  split
  · exact hkeep
  · exact (h2.trans (State.keepsDirty_makeRoom hput.calm ctx core)).trans (State.keepsDirty_putLine _ rfl)

omit h in
/-- Bytes written within a line leave it a line. -/
theorem State.wholeAt_rawWrite {p : PA} {bs : List Byte} (hfit : p.a % 128 + bs.length ≤ 128) {lk : Nat} (hw : s.wholeAt lk) :
    (s.rawWrite p bs).wholeAt lk := by
  unfold State.rawWrite State.wholeAt
  cases p.sp with
  | host =>
    dsimp only
    rw [State.lineOf_putLine]
    split
    · rintro d ⟨rfl⟩
      rw [List.length_append, List.length_append, List.length_take, List.length_drop, rawRead_length]
      omega
    · exact hw
  | _ => exact hw

omit h in
/-- What a write does beside its bytes leaves the lines (R344, R407, R473). -/
theorem State.lines_afterWrite (p : PA) (n : Nat) : (((s.wake p.line).leafWritten p n).areaWrite p).lines = s.lines := by
  have hleaf : ((s.wake p.line).leafWritten p n).lines = s.lines := by
    rw [← s.wake_lines p.line]
    unfold State.leafWritten
    split <;> rfl
  rw [← hleaf]
  unfold State.areaWrite
  split <;> rfl

theorem State.wholeAt_writeLine (ag : Agent) {p : PA} {bs : List Byte} (ts : Nat) (hfit : p.a % 128 + bs.length ≤ 128) {lk : Nat} (hw : s.wholeAt lk) :
    (s.writeLine ag p ts bs).wholeAt lk := by
  unfold State.writeLine
  extract_lets l there full s1 l1 w s2 s3
  have hs1 : s1 = s := if_neg fun hidden => hidden.1 (h p.line).2.1
  have hl1 : l1 = s.lineOf p.line := congrArg (fun t : State => t.lineOf p.line) hs1
  have h2 : s.keepsDirty s2 := by
    unfold s2 w
    rw [hs1, hl1]
    exact s.keepsDirty_putLine rfl
  have h3 : s3.wholeAt lk := (State.keepsDirty_of_lines (State.lines_afterWrite p bs.length)).wholeAt (State.wholeAt_rawWrite hfit (h2.wholeAt hw))
  have hput : s.KeepsMemory s2 := by
    unfold s2 w
    rw [hs1, hl1]
    obtain ⟨hupd, hhidden, hpoison⟩ := h p.line
    exact State.keepsMemory_putLine h ⟨hupd, (congrArg (ite _ _) hhidden).trans (ite_self 0), by simp [Line.written, hpoison]⟩ rfl
  have hcalm : s3.linesCalm := fun k => by
    rw [State.lineOf, State.lines_afterWrite]
    exact (State.afterAccess_rawWrite hput.calm hfit).calm k
  clear_value s3
  split
  · split
    · exact (State.keepsDirty_install hcalm _ _ _ _ _ _).wholeAt h3
    · exact h3
  · exact h3

end

/-! #### Every step leaves the other bytes -/

/-- Memory but for named bytes is that of s, in a calm device whose contexts that act are not watched and whose lines of named bytes are whole. -/
structure State.Untouched (named : PA → Prop) (acts : Nat → Prop) (s t : State) : Prop where
  calm : t.linesCalm
  quiet : ∀ c, acts c → t.unwatched c = true
  whole : ∀ q, named q → t.wholeAt q.line
  bytes : ∀ q, ¬named q → t.rawByte q = s.rawByte q

section
variable {named : PA → Prop} {acts : Nat → Prop} {s t u : State}

/-- A change after which every byte but named ones reads as before, and the lines of named bytes are whole. -/
theorem State.Untouched.after {mem : PA → Byte} (h : s.Untouched named acts t) (ha : t.AfterAccess u mem) (hmem : ∀ q, ¬named q → mem q = t.rawByte q)
    (hw : ∀ q, named q → u.wholeAt q.line) : s.Untouched named acts u where
  calm := ha.calm
  quiet c hc := (ha.unwatched c).trans (h.quiet c hc)
  whole := hw
  bytes q hq := (ha.bytes q).trans ((hmem q hq).trans (h.bytes q hq))

theorem State.Untouched.keep (h : s.Untouched named acts t) (ha : t.KeepsMemory u) (hd : t.keepsDirty u) : s.Untouched named acts u :=
  h.after ha (fun _ _ => rfl) fun q hq => hd.wholeAt (h.whole q hq)

theorem State.overwritten_outside {p q : PA} {bs : List Byte} (hp : p.within named bs.length) (hq : ¬named q) : s.overwritten p bs q = s.rawByte q :=
  if_neg fun hin => hq (hp.2 q hin)

theorem State.StoreStep.untouched (hst : State.StoreStep named acts t u) (h : s.Untouched named acts t) : s.Untouched named acts u := by
  cases hst with
  | fibre f hf => exact ⟨h.calm, h.quiet, h.whole, h.bytes⟩
  | numbered n => exact h.keep (State.keepsMemory_accesses h.calm n) fun _ => rfl
  | merged lk found => rwa [State.merge_calm (h.calm lk)]
  | line ag p ts bs hp hfit =>
    exact h.after (State.afterAccess_writeLine h.calm ag ts hfit) (fun q hq => State.overwritten_outside hp hq)
      fun q hq => State.wholeAt_writeLine h.calm ag ts hfit (h.whole q hq)
  | posted a bs hp hfit =>
    refine h.after (State.afterAccess_postLine h.calm (h.whole _ hp.1) hfit) (fun q hq => State.overwritten_outside hp hq) fun q hq d hd => ?_
    rw [State.postLine_line, State.cleaned_line] at hd
    split at hd
    · cases hd
    · exact h.whole q hq d hd
  | noted ag ts va n p hc =>
    refine h.keep (State.keepsMemory_noted h.calm (h.quiet _ hc) ts va n p) ?_
    rw [State.logAccess_unwatched (h.quiet _ hc)]
    exact State.keepsDirty_of_lines (State.countAccess_lines _ _ _ _)

theorem State.Stores.untouched (hst : State.Stores named acts t u) (h : s.Untouched named acts t) : s.Untouched named acts u := by
  induction hst with
  | refl => exact h
  | tail _ hstep ih => exact hstep.untouched ih

/-- The walks of a lane leave every byte. -/
theorem State.laneWalks_untouched {keys : Nat → Prop} {k : Nat} (h : s.Untouched named acts t) (ha : t.actsOn keys acts) (hk : keys k) (l : List Spot) :
    ∃ u, t.laneWalks k 0 l = (u, false) ∧ s.Untouched named acts u ∧ u.actsOn keys acts := by
  obtain ⟨u, v, hw, hkeep, hleases, hu⟩ := t.laneWalks_quiet h.calm k l
  have hv := h.keep hkeep hleases.keepsDirty
  have hva := State.actsOn_of_fibres ha hkeep.fibres
  refine ⟨u, hw, ?_⟩
  obtain rfl | ⟨ts, rfl⟩ := hu
  · exact ⟨hv, hva⟩
  · have hst : State.Stores named acts v (v.setStamp k ts) := State.stores_modFibre hva hk fun _ => rfl
    exact ⟨hst.untouched hv, hst.actsOn hv.calm hva⟩

end

/-! #### The bytes of a store, and the fibres that make it -/

/-- A byte among at most 128 lies in the line of the first of them or of the last. -/
theorem PA.line_among {p q : PA} {n : Nat} (h : q.among p n = true) (hn : n ≤ 128) : q.line = p.line ∨ q.line = PA.line { p with a := p.a + n - 1 } := by
  obtain ⟨hsp, hlo, hhi⟩ := (PA.among_iff _ _ _).mp h
  unfold PA.line
  rw [hsp]
  by_cases he : q.a / 128 = p.a / 128
  · exact .inl (by rw [he])
  · exact .inr (by rw [show q.a / 128 = (p.a + n - 1) / 128 by omega])

theorem Spot.stored_le {x : Spot} (h : x.fits) {y : PA × Nat} (hy : y ∈ x.stored) : y.2 ≤ 128 := by
  unfold Spot.stored at hy
  unfold Spot.fits at h
  split at hy
  next p loc hp =>
    obtain rfl := List.mem_singleton.mp hy
    rw [hp] at h
    dsimp only at h ⊢
    omega
  next v base size off loc hp =>
    obtain ⟨i, -, rfl⟩ := List.mem_map.mp hy
    have := v.unit_bounds
    dsimp only
    omega
  · cases hy

/-- The lines of the bytes that a plain lane's store fills are whole. -/
theorem State.wholeAt_filled {s : State} {m : MemLane} (hp : s.plain m = true) (hm : m.Fits) {q : PA} (hq : m.fills q = true) : s.wholeAt q.line := by
  obtain ⟨x, hx, hstored⟩ := List.any_eq_true.mp hq
  obtain ⟨y, hy, hin⟩ := List.any_eq_true.mp hstored
  obtain ⟨hfirst, hlast⟩ := State.wholeAt_of_plain hp hx hy
  rcases PA.line_among hin (Spot.stored_le (hm.spots x hx) hy) with he | he
  · rwa [he]
  · rwa [he]

theorem zeroOf_key (op : Nat) (o : GOp) (f : Fibre) : (zeroOf op o f).key = f.key := by
  unfold zeroOf
  split
  · unfold Fibre.zeroDst
    cases o.dst with
    | v n => dsimp only; split <;> rfl
    | _ => rfl
  · rfl

/-- The fibres that reach their stores are there when helpers kept out hold 0: the lanes of a sound group are different fibres. -/
theorem Group.reaching_fibre {g : Group} {s : State} (hg : s.group = some g) (hs : g.sound s = true) (op : Nat) (o : GOp) {f : Fibre}
    (hf : f ∈ g.reaching o.guard true) :
    (s.putFibres ((g.fs.filter fun f => f.guard o.guard && (f.helper && true)).map (zeroOf op o))).fibre f.key = some f := by
  obtain ⟨hmem, hact⟩ := List.mem_filter.mp hf
  rw [State.fibre_putFibres_of_not_mem]
  · exact (Group.sound_mem hg hs hmem).1
  · intro z hz hkey
    obtain ⟨f', hf', rfl⟩ := List.mem_map.mp hz
    obtain ⟨hmem', hkept⟩ := List.mem_filter.mp hf'
    rw [zeroOf_key] at hkey
    obtain rfl := List.inj_on_of_nodup_map (Group.sound_nodup hg hs) hmem' hmem hkey
    rw [Bool.and_true] at hact hkept
    rw [(Bool.and_eq_true_iff.mp hkept).2, Bool.not_true, Bool.and_false] at hact
    cases hact

/-- Whether some access of a group fills a byte. -/
def filledBy (ms : List MemLane) (q : PA) : Prop := ∃ x ∈ ms, x.fills q = true
/-- What stands between the lanes' stores: no other byte of s is touched, and the lanes are of contexts that no access log watches. -/
def State.storing (s : State) (fs : List Fibre) (m : Fibre → MemLane) (t : State) : Prop :=
  s.Untouched (filledBy (fs.map m)) (fun c => s.unwatched c = true) t ∧ t.actsOn (· ∈ fs.map Fibre.key) fun c => s.unwatched c = true

section
variable {s : State} {g : Group} {o : GOp} {m : Fibre → MemLane} (hreach : g.reaches s 0x281 o true (fun s f => stCheck s o f) m)
include hreach

theorem State.storing_start (hsound : g.sound s = true) (hcalm : s.calm = true)
    (hlanes : ∀ f ∈ g.reaching o.guard true, s.plain (m f) = true ∧ s.unwatched f.ctx = true) :
    s.storing (g.reaching o.guard true) m (s.putFibres ((g.fs.filter fun f => f.guard o.guard && (f.helper && true)).map (zeroOf 0x281 o))) := by
  obtain ⟨hg, -⟩ := id hreach
  refine ⟨?_, fun k f hk hkf => ?_⟩
  · rw [State.putFibres_eq]
    refine ⟨State.linesCalm_of_calm hcalm, fun _ hc => hc, fun q hq => ?_, fun _ _ => rfl⟩
    obtain ⟨x, hx, hq⟩ := hq
    obtain ⟨f, hf, rfl⟩ := List.mem_map.mp hx
    exact State.wholeAt_filled (hlanes f hf).1 (Group.reaches_fits hreach _ hx).1 hq
  · obtain ⟨f', hf', rfl⟩ := List.mem_map.mp hk
    rw [Group.reaching_fibre hg hsound 0x281 o hf'] at hkf
    obtain rfl := Option.some.inj hkf
    exact ⟨hk, (hlanes f' hf').2⟩

/-- A lane's turn: its walks and its store. -/
theorem State.storing_lane {x : MemLane} (hx : x ∈ (g.reaching o.guard true).map m) {t : State} (ht : s.storing (g.reaching o.guard true) m t) :
    ∃ u, t.laneWalks x.key 0 x.spots = (u, false) ∧
      ∃ v, stPerform o u ((g.reaching o.guard true).map m) x none = some v ∧ s.storing (g.reaching o.guard true) m v := by
  have hms := Group.reaches_fits hreach
  obtain ⟨f, hf, rfl⟩ := List.mem_map.mp hx
  obtain ⟨-, -, -, -, hlane, -⟩ := hreach
  obtain ⟨-, -, hkey, -⟩ := hlane f hf
  have hmem : (m f).key ∈ (g.reaching o.guard true).map Fibre.key := List.mem_map.mpr ⟨f, hf, hkey.symm⟩
  obtain ⟨u, hwalks, hu, hacts⟩ := State.laneWalks_untouched ht.1 ht.2 hmem (m f).spots
  obtain ⟨v, hperform, hstores⟩ := stPerform_stores hu.calm (fun y hy => (hms y hy).1) (fun y hy => (hms y hy).2)
    (named := filledBy ((g.reaching o.guard true).map m)) (fun y hy q hq => ⟨y, hy, hq⟩) o hx hacts hmem
  exact ⟨u, hwalks, v, hperform, hstores.untouched hu, hstores.actsOn hu.calm hacts⟩

end

/-- Settles O30: a store of a plain group is made in steps that write the bytes it fills, and each step leaves the other bytes. -/
theorem storesFillOnlyTheirBytes : Obligations.StoresFillOnlyTheirBytes := by
  intro o s g m hreach hsound hcalm hlanes hwhole
  obtain ⟨t, hacc, ht, -⟩ := accessesInOrder_keeps (fun x hx t ht => State.storing_lane hreach hx ht) (State.storing_start hreach hsound hcalm hlanes)
  refine ⟨_, accessesThrough_st o s g m t hreach hwhole hacc, fun q hq => ?_⟩
  rw [(State.goOn_memory _ _).2, rawByte_stAfter]
  refine ht.bytes q ?_
  rintro ⟨x, hx, hfills⟩
  obtain ⟨f, hf, rfl⟩ := List.mem_map.mp hx
  exact Bool.false_ne_true ((hq f hf).symm.trans hfills)

end Sys2Proof.Machine
end

section
namespace Sys2Proof.Machine

/-! ## Queue programs (O42) -/

/-- The model's next instruction is the statement's: the end of a LOOP body passed from its last instruction starts the next pass (R346). -/
theorem Queue.goTo_eq_movesTo (x : Queue) (k : Nat) : x.goTo k = x.movesTo k := by
  unfold Queue.goTo Queue.movesTo
  cases x.loop with
  | none => rfl
  | some l =>
    obtain ⟨first, last, left⟩ := l
    simp only [← Nat.not_lt, ite_not]

theorem Queue.advance_eq_movesTo (x : Queue) : x.advance = x.movesTo (x.pc + 1) := x.goTo_eq_movesTo _

theorem Queue.advance_setD (x : Queue) (a : BitVec 4) (v : DWord) : (x.setD a v).advance = x.gives a v := Queue.advance_eq_movesTo _

section
variable {s : State} {q : Nat} {x : Queue} {i : Instr}

/-- An operation of the engine that runs a packet acts on the queue with its step counted (R348). -/
theorem runD_runsPacket (h : s.runsPacket q x) (go : State → Nat → Queue → State) : runD s go = .next (go s q x.stepped) := by
  obtain ⟨hactor, hqueue, hpkt⟩ := h
  unfold runD
  rw [hactor]
  dsimp only
  rw [hqueue]
  exact if_pos hpkt

theorem dyzilThrough_regD {g : Queue → Queue} (hx : ∀ s, exec i s = regD s g) : dyzilThrough i fun x => (g x).movesTo ((g x).pc + 1) :=
  fun s q x h => by rw [hx, regD, runD_runsPacket h, Queue.advance_eq_movesTo]

theorem dyzilThrough_gives {a : BitVec 4} {v : Queue → DWord} (hx : ∀ s, exec i s = regD s fun x => x.setD a (v x)) :
    dyzilThrough i fun x => x.gives a (v x) :=
  fun s q x h => by rw [hx, regD, runD_runsPacket h, Queue.advance_setD]

theorem dyzilThrough_branchD {k : BitVec 16} {c : Queue → Bool} (hx : ∀ s, exec i s = branchD s k c) :
    dyzilThrough i fun x => x.movesTo (x.pc + if c x then k.toNat else 1) := fun s q x h => by
  rw [hx, branchD, runD_runsPacket h]
  dsimp only
  rw [Queue.advance_eq_movesTo, Queue.goTo_eq_movesTo, apply_ite (fun k => x.stepped.movesTo (x.stepped.pc + k))]

end

/-! ### The values of the table as bit vectors -/

theorem ofNat_toNat_add (v w : DWord) : BitVec.ofNat 64 (v.toNat + w.toNat) = v + w := by simp [BitVec.ofNat_add]

theorem ofInt_toInt_add (v : DWord) (w : BitVec 16) : BitVec.ofInt 64 (v.toInt + w.toInt) = v + w.signExtend 64 := by
  rw [BitVec.ofInt_add, BitVec.ofInt_toInt]
  rfl

theorem ofInt_toInt_sub (v w : DWord) : BitVec.ofInt 64 (v.toInt - w.toInt) = v - w := by
  rw [Int.sub_eq_add_neg, BitVec.ofInt_add, BitVec.ofInt_neg, BitVec.ofInt_toInt, BitVec.ofInt_toInt, BitVec.sub_eq_add_neg]

theorem ofNat_toNat_mul_two_pow (v : DWord) (n : Nat) : BitVec.ofNat 64 (v.toNat * 2 ^ n) = v <<< n :=
  BitVec.eq_of_toNat_eq (by simp [Nat.shiftLeft_eq])

theorem ofNat_toNat_div_two_pow (v : DWord) (n : Nat) : BitVec.ofNat 64 (v.toNat / 2 ^ n) = v >>> n := by
  rw [← Nat.shiftRight_eq_div_pow, ← BitVec.toNat_ushiftRight, BitVec.ofNat_toNat, BitVec.setWidth_eq]

theorem ushiftRight_and_two_pow_sub_one (v : DWord) (pos len : Nat) :
    (v >>> pos) &&& BitVec.ofNat 64 (2 ^ len - 1) = BitVec.ofNat 64 (v.toNat / 2 ^ pos % 2 ^ len) := by
  apply BitVec.eq_of_getLsbD_eq
  intro i hi
  simp only [BitVec.getLsbD_and, BitVec.getLsbD_ofNat, BitVec.getLsbD_ushiftRight, hi, decide_true, Bool.true_and, Nat.testBit_two_pow_sub_one,
    Nat.testBit_mod_two_pow, Nat.testBit_div_two_pow, BitVec.testBit_toNat, Nat.add_comm, Bool.and_comm]

/-- Settles O42: an instruction on the registers gives its value, and a branch moves by its condition. -/
theorem dyzilProgramsComplete : Obligations.DyzilProgramsComplete := by
  intro a b imm
  simp only [ofNat_toNat_add, ofInt_toInt_add, ofInt_toInt_sub, ofNat_toNat_mul_two_pow, ofNat_toNat_div_two_pow, ushiftRight_and_two_pow_sub_one]
  refine ⟨dyzilThrough_gives fun _ => rfl, dyzilThrough_gives fun _ => rfl, dyzilThrough_regD fun _ => rfl, dyzilThrough_gives fun _ => rfl,
    dyzilThrough_gives fun _ => rfl, dyzilThrough_gives fun _ => rfl, dyzilThrough_gives fun _ => rfl, dyzilThrough_gives fun _ => rfl,
    dyzilThrough_gives fun _ => rfl, dyzilThrough_gives fun _ => rfl, fun n => dyzilThrough_gives fun _ => rfl,
    fun n => dyzilThrough_gives fun _ => rfl, fun pos len => dyzilThrough_gives fun _ => rfl,
    dyzilThrough_branchD (c := fun _ => true) fun _ => rfl, dyzilThrough_branchD fun _ => rfl, dyzilThrough_branchD fun _ => rfl,
    dyzilThrough_branchD fun _ => rfl, fun c n s q x h => ?_⟩
  exact show execDyzilLoop c n s = _ from runD_runsPacket h _

end Sys2Proof.Machine
end

section
namespace Sys2Proof.Machine

/-! ## Emissions of queue programs (O43) -/

/-- Of two writes under one number the second stays. -/
theorem Tab.set_set {α : Type} (t : Tab α) (k : Nat) (a b : α) : Tab.set (Tab.set t k a) k b = Tab.set t k b := by
  induction t with
  | nil => simp [Tab.set]
  | cons x r ih =>
    obtain ⟨i, c⟩ := x
    by_cases hik : i = k
    · simp [Tab.set, hik]
    · by_cases hlt : k < i <;> simp [Tab.set, hik, hlt, ih]

theorem State.putQueue_putQueue (s : State) (q : Nat) (x y : Queue) : (s.putQueue q x).putQueue q y = s.putQueue q y :=
  congrArg (fun t => ({ s with queues := t } : State)) (Tab.set_set ..)

/-- Counting a step leaves the program counter. -/
theorem Queue.pc_stepped (x : Queue) : x.stepped.pc = x.pc := by
  unfold Queue.stepped
  split <;> rfl

/-- A target that the check passes needs no line of a peer's. -/
theorem State.targetNeeds_none {s : State} {ctx : Nat} {pc : DWord} (h : (s.checkTarget ctx pc).isNone = true) : s.targetNeeds ctx pc = none := by
  unfold State.targetNeeds
  rw [Option.isNone_iff_eq_none.mp h]

/-- Entries that meet R190 ask for no line. -/
theorem State.entriesNeed_none {s : State} {l : Launch} (h : s.entriesOk l = true) : s.entriesNeed l = none := by
  unfold State.entriesOk at h
  rw [Bool.and_eq_true, Bool.and_eq_true, Bool.or_eq_true, Bool.or_eq_true, Bool.not_eq_true'] at h
  obtain ⟨⟨hentry, hroot⟩, hstream⟩ := h
  unfold State.entriesNeed
  rw [State.targetNeeds_none hentry, State.targetNeeds_none hroot]
  obtain (hteam | hzero) | hgood := hstream
  · rw [hteam]
    rfl
  · rw [bne, hzero, Bool.not_true, Bool.and_false]
    rfl
  · rw [State.targetNeeds_none hgood, ite_self]
    rfl

theorem State.ctx_doneCode (s : State) (agent c : Nat) : (s.doneCode agent).ctx c = s.ctx c := by
  unfold State.doneCode
  split <;> rfl

/-- The engine of queue q runs a packet of it, x being the queue with the step counted. -/
def State.stepsPacket (s : State) (q : Nat) (x : Queue) : Prop := ∃ x0, s.runsPacket q x0 ∧ x0.stepped = x

theorem State.runsPacket.steps {s : State} {q : Nat} {x0 : Queue} (h : s.runsPacket q x0) : s.stepsPacket q x0.stepped := ⟨x0, h, rfl⟩

/-- WAITV's comparison, as R346 lists its conditions. -/
theorem waitvMet_iff (cc m v : Nat) : waitvMet cc m v = true ↔ (match cc with
    | 0 => m = v
    | 1 => m ≠ v
    | 2 => v ≤ m
    | _ => m < v) := by
  unfold waitvMet
  split <;> simp

section
variable {s e u : State} {q ts : Nat} {x : Queue} {bs : List Byte}

theorem runD_stepsPacket (h : s.stepsPacket q x) (go : State → Nat → Queue → State) : runD s go = .next (go s q x) := by
  obtain ⟨x0, hruns, rfl⟩ := h
  exact runD_runsPacket hruns go

/-- LAUNCH of what can be held, its bank read (R351). -/
theorem execDyzilLaunch_next {a : BitVec 4} {t : BitVec 16} {l : Launch} {c c' : Ctx} {n : Nat} (h : s.stepsPacket q x) (he : s.putQueue q x = e)
    (hlaunch : Launch.ofDesc 0 x.ctx q false (x.grant t.toNat) [] x.args x.stamp = l) (hctx : s.ctx x.ctx = some c)
    (hhold : e.canHold c.d l = true) (hok : e.entriesOk l = true) (hfree : e.freeNumber x.ctx c.nextLaunch = some n)
    (hread : e.feRead x.ctx q x.stamp l.cbankAt (4 * l.cwords) = .ok u ts bs) (hc' : u.ctx x.ctx = some c') :
    let v := u.doneCode q
    let m : Launch := { l with num := n, cbank := wordsOf bs, stamp := ts }
    execDyzilLaunch a t s = .next
      (({ v.putCtx x.ctx { c' with nextLaunch := if n = 65535 then 16 else n + 1,
                                    order := c'.order ++ (List.range m.bands).map fun b => { launch := n, band := b, since := v.cycle } } with
          launches := v.launches ++ [m] } : State).putQueue q
        (({ x with stamp := ts, launches := x.launches ++ [n] } : Queue).gives a (BitVec.ofNat 64 n))) := by
  intro v m
  refine (runD_stepsPacket h _).trans (congrArg Host.Outcome.next ?_)
  rw [hctx]
  dsimp -zeta only
  extract_lets +onlyGivenNames l1 e1
  obtain rfl : l1 = l := hlaunch
  obtain rfl : e1 = e := he
  clear_value l1 e1
  -- The innermost result comes first, so that the kernel never computes a search on open terms.
  rw [hread, hfree, State.entriesNeed_none hok, hok, hhold, if_neg (by simp)]
  dsimp -zeta only
  rw [if_neg (by simp), Queue.advance_setD]
  extract_lets +onlyGivenNames units s2
  have hs2 : s2 = v.putCtx x.ctx { c' with nextLaunch := if n = 65535 then 16 else n + 1, order := c'.order ++ units } := by
    simp only [s2, v, State.ctx_doneCode]
    rw [hc']
  clear_value s2
  subst hs2
  rfl

/-- REC to a node whose entries meet R190: a cancelled one takes no task (R352, R355). -/
theorem execDyzilRec_next {t : BitVec 16} {l : Launch} (h : s.stepsPacket q x) (he : s.putQueue q x = e) (hl : e.launch x.ctx t.toNat = some l)
    (hok : e.entriesOk l = true) :
    let v := e.doneCode q
    execDyzilRec t s = .next (if l.cancel then v.putQueue q (x.movesTo (x.pc + 1)) else
      let u := v.newKey.2
      ((u.putLaunch { l with nextCluster := l.nextCluster + 1 }).arrive (l.dealer (u.cdesc x.ctx))
        { id := v.newKey.1, pc := l.entry, ctx := x.ctx, launch := l.num, fid := BitVec.ofNat 32 (Config.fibreId v.newKey.1 % 2 ^ 31),
          stamp := x.stamp, timer := l.gather, f := l.ef, l := l.el, args := x.args, handle := none }).putQueue q
        (({ x with tasks := x.tasks ++ [v.newKey.1] } : Queue).movesTo (x.pc + 1))) := by
  have hnone := State.entriesNeed_none hok
  intro v
  refine (runD_stepsPacket h _).trans (congrArg Host.Outcome.next ?_)
  extract_lets +onlyGivenNames e1
  obtain rfl : e1 = e := he
  clear_value e1
  obtain ⟨need, hneed⟩ := exists_eq (a' := State.entriesNeed e1)
  rw [← hneed] at hnone ⊢
  dsimp only
  rw [hl]
  dsimp only
  rw [hnone]
  dsimp only
  rw [hok, if_neg (by simp), Queue.advance_eq_movesTo, Queue.advance_eq_movesTo]

/-- SIGNAL with no mask stores at once (R353). -/
theorem execDyzilSignal_store {a b : BitVec 4} (h : s.stepsPacket q x) (hwin : x.inWindow (x.dreg a) = true)
    (hstore : (s.putQueue q x).feStore x.ctx q x.stamp (x.dreg a) (leBytes 8 (x.dreg b).toNat) true = .ok u ts bs) :
    execDyzilSignal a b 0 s = .next (u.modQueue q fun y => ({ x with stamp := ts, woken := y.woken } : Queue).movesTo (x.pc + 1)) := by
  refine (runD_stepsPacket h _).trans (congrArg Host.Outcome.next ?_)
  dsimp only
  rw [hstore, hwin, if_neg (by simp), if_pos rfl]
  exact congrArg (u.modQueue q) (funext fun y => Queue.advance_eq_movesTo _)

/-- SIGNAL with a mask waits behind what the packet has emitted, where fewer than 64 wait (R353). -/
theorem execDyzilSignal_defer {a b : BitVec 4} {m : BitVec 16} (h : s.stepsPacket q x) (hm : m ≠ 0) (hwin : x.inWindow (x.dreg a) = true)
    (hroom : x.deferred.length < 64) :
    execDyzilSignal a b m s = .next (s.putQueue q (({ x with deferred := x.deferred ++
      [{ addr := (x.dreg a).toNat, value := x.dreg b, launches := x.launches, tasks := x.tasks }] } : Queue).movesTo (x.pc + 1))) := by
  refine (runD_stepsPacket h _).trans (congrArg Host.Outcome.next ?_)
  dsimp only
  rw [hwin, if_neg (by simp), if_neg hm, if_neg (Nat.not_le.mpr hroom), Queue.advance_eq_movesTo, State.putQueue_putQueue]

/-- WAITV whose word meets its condition goes on (R353). -/
theorem execDyzilWaitv_met {a b : BitVec 4} {cc : BitVec 16} {p : PA} (h : s.stepsPacket q x) (hwin : x.inWindow (x.dreg a) = true)
    (hload : (s.putQueue q x).feLoad x.ctx q x.stamp (x.dreg a) 8 true = .ok u ts bs)
    (hplace : (s.putQueue q x).fePlace x.ctx (x.dreg a) 8 false true = .ok p)
    (hmet : waitvMet cc.toNat (ofBytes bs) (x.dreg b).toNat = true) :
    execDyzilWaitv a b cc s = .next (u.putQueue q (({ x with stamp := ts } : Queue).movesTo (x.pc + 1))) := by
  refine (runD_stepsPacket h _).trans (congrArg Host.Outcome.next ?_)
  dsimp only
  rw [hload, hplace, hwin, if_neg (by simp)]
  dsimp only
  exact (if_pos hmet).trans (congrArg (u.putQueue q) (Queue.advance_eq_movesTo _))

/-- DONE whose status line can be written (R348). -/
theorem execDyzilDone_next (h : s.stepsPacket q x)
    (hstore : (s.putQueue q x).feStore x.ctx q x.stamp (BitVec.ofNat 64 x.status) (leBytes 8 (x.ridx + 1)) false = .ok u ts bs) :
    execDyzilDone s = .next ((u.modQueue q fun y =>
      { x with stamp := ts, ridx := x.ridx + 1, pkt := none, loop := none, wait := .none, woken := y.woken }).tidyQueue q) := by
  refine (runD_stepsPacket h _).trans (congrArg Host.Outcome.next ?_)
  dsimp only
  rw [hstore]

end

/-- Settles O43, by the law of each emission; the number that a task gets, and what a faulting access of the front end does, are the model's (log 18,
log 41). -/
theorem dyzilEmissionsComplete : Obligations.DyzilEmissionsComplete := by
  refine ⟨?_, ?_, ?_, ?_, ?_, ?_, ?_, ?_⟩
  · intro a t s u q x0 c c' n ts bs h x l e hctx hhold hok hfree hread hc'
    exact execDyzilLaunch_next h.steps rfl rfl hctx hhold hok hfree hread hc'
  · intro t s q x0 l h x e hl hok
    exact execDyzilRec_next h.steps rfl hl hok
  · intro a b s u q x0 ts bs h x e hwin hstore
    exact execDyzilSignal_store h.steps hwin hstore
  · intro a b m s q x0 h hm x hwin hroom
    exact execDyzilSignal_defer h.steps hm hwin hroom
  · intro a b cc s u q x0 ts bs p h x e v w hwin hload hplace hmet
    exact execDyzilWaitv_met h.steps hwin hload hplace ((waitvMet_iff _ _ _).mpr hmet)
  · intro a s q x0 h
    show execDyzilCancel a s = _
    rw [execDyzilCancel, runD_runsPacket h, Queue.advance_eq_movesTo]
  · intro code s q x0 h
    show execDyzilErr code s = _
    rw [execDyzilErr, runD_runsPacket h, Queue.pc_stepped]
  · intro s u q x0 ts bs h x e hstore
    exact execDyzilDone_next h.steps hstore

end Sys2Proof.Machine
end

section
namespace Sys2Proof.Machine

/-! ## The queue front end (O44) -/

section
variable {s u v e : State} {q ts ts' : Nat} {x y : Queue} {bs bs' : List Byte}

/-- A packet that is there, and whose header is fresh, starts (R343, R345). -/
theorem execPacketStart_fresh {p : PA} (hq : q < 256) (hx : s.queue q = some x) (hnext : s.nextQueue = some q) (hready : s.queueReady q x = true)
    (hidx : s.feLoad x.ctx q x.stamp (BitVec.ofNat 64 x.widx) 8 false = .ok u ts bs) (hbehind : x.ridx < ofBytes bs)
    (he : (u.modQueue q fun y => { y with stamp := ts }) = e) (hslot : e.feLoad x.ctx q ts (x.slotAddr x.ridx) 64 false = .ok v ts' bs')
    (hplace : e.fePlace x.ctx (x.slotAddr x.ridx) 64 false false = .ok p) (hfresh : x.fresh x.ridx (ofBytes (bs'.take 8)) = true) :
    execPacketStart q s = .next (({ v with lastQueue := q } : State).modQueue q fun y =>
      { y with stamp := ts', pkt := some (dwordsOf bs'), d := List.replicate 16 0, pc := 0, steps := 0, loop := none }) := by
  obtain ⟨load, hload⟩ := exists_eq (a' := State.feLoad)
  obtain ⟨place, hplace'⟩ := exists_eq (a' := State.fePlace)
  rw [← hload] at hidx hslot
  rw [← hplace'] at hplace
  unfold execPacketStart
  rw [if_neg (Nat.not_le.mpr hq), hx, ← hload, ← hplace']
  dsimp only
  rw [if_neg (by simp [hnext, hready]), hidx]
  dsimp only
  rw [if_neg (Nat.not_le.mpr hbehind), he, hslot, hplace]
  dsimp only
  rw [if_pos hfresh]

theorem wakeIndex_read (h : e.feLoad y.ctx q y.stamp (BitVec.ofNat 64 y.widx) 8 false = .ok u ts bs) :
    e.wakeIndex q y = u.putQueue q { y with stamp := ts } := by
  unfold State.wakeIndex
  rw [h]

theorem wakeStale_fresh (h : e.feLoad y.ctx q y.stamp (y.slotAddr y.ridx) 64 false = .ok u ts bs)
    (hfresh : y.fresh y.ridx (ofBytes (bs.take 8)) = true) :
    e.wakeStale q y = u.putQueue q { y with stamp := ts, wait := .none, watch := y.watch.take 1 } := by
  unfold State.wakeStale
  rw [h]
  exact if_pos hfresh

theorem wakeError_restart {p : PA} (h : e.feLoad y.ctx q y.stamp (BitVec.ofNat 64 y.status + 16) 16 false = .ok u ts bs)
    (hp : e.fePlace y.ctx (BitVec.ofNat 64 y.status) 8 true false = .ok p) (hbit : bitOf (ofBytes (bs.drop 8)) 0 = true) :
    e.wakeError q y = u.queueRestart q y ts (ofBytes (bs.take 8)) p := by
  unfold State.wakeError
  dsimp only
  rw [h, hp]
  exact if_pos hbit

section
variable (hq : q < 256) (hx : s.queue q = some x) (hwoken : x.woken = true) (hckpt : s.mgmt.ckpt = false) (hfree : s.wakeWaits q x = false)
  (hy : ({ x with woken := false } : Queue) = y) (he : s.putQueue q y = e)
include hq hx hwoken hckpt hfree hy he

/-- A wake that is due, with nothing that holds it back, goes by the queue's state (R344). -/
theorem execMonitorWake_due : execMonitorWake q s = if (s.qreg q).state = 2 then .next (match x.errorInfo with
        | some (t, c) => e.queueError q (s.qreg q).ecode (s.qreg q).epc t c
        | none => e.wakeError q y)
      else match x.wait, x.pkt with
        | .stale, _ => .next (e.wakeStale q y)
        | .word _, some _ => e.wakeWord q y
        | .none, none => .next (e.wakeIndex q y)
        | _, _ => .next e := by
  subst hy he
  unfold execMonitorWake
  rw [if_neg (Nat.not_le.mpr hq), hx]
  dsimp only
  rw [hwoken, hckpt, hfree, if_neg (by simp)]
  rfl

/-- The wake of the write index's entry reads the index again. -/
theorem execMonitorWake_index (hstate : (s.qreg q).state ≠ 2) (hwait : x.wait = .none) (hpkt : x.pkt = none)
    (h : e.feLoad y.ctx q y.stamp (BitVec.ofNat 64 y.widx) 8 false = .ok u ts bs) :
    execMonitorWake q s = .next (u.putQueue q { y with stamp := ts }) := by
  rw [execMonitorWake_due hq hx hwoken hckpt hfree hy he, if_neg hstate, hwait, hpkt]
  exact congrArg Host.Outcome.next (wakeIndex_read h)

/-- The wake of a stale slot's entry ends the wait once the header is fresh (R343). -/
theorem execMonitorWake_stale (hstate : (s.qreg q).state ≠ 2) (hwait : x.wait = .stale)
    (h : e.feLoad y.ctx q y.stamp (y.slotAddr y.ridx) 64 false = .ok u ts bs) (hfresh : y.fresh y.ridx (ofBytes (bs.take 8)) = true) :
    execMonitorWake q s = .next (u.putQueue q { y with stamp := ts, wait := .none, watch := y.watch.take 1 }) := by
  rw [execMonitorWake_due hq hx hwoken hckpt hfree hy he, if_neg hstate, hwait]
  exact congrArg Host.Outcome.next (wakeStale_fresh h hfresh)

/-- The wake of the status line's entry restarts a queue in error (R349). -/
theorem execMonitorWake_restart {p : PA} (hstate : (s.qreg q).state = 2) (hinfo : x.errorInfo = none)
    (h : e.feLoad y.ctx q y.stamp (BitVec.ofNat 64 y.status + 16) 16 false = .ok u ts bs)
    (hp : e.fePlace y.ctx (BitVec.ofNat 64 y.status) 8 true false = .ok p) (hbit : bitOf (ofBytes (bs.drop 8)) 0 = true) :
    execMonitorWake q s = .next (u.queueRestart q y ts (ofBytes (bs.take 8)) p) := by
  rw [execMonitorWake_due hq hx hwoken hckpt hfree hy he, if_pos hstate, hinfo]
  exact congrArg Host.Outcome.next (wakeError_restart h hp hbit)

end

/-- The oldest deferred signal that is due is written (R353, R354). -/
theorem execDeferredSignalWrite_due {d : Deferred} {r : List Deferred} (hq : q < 256) (hx : s.queue q = some x) (hd : x.deferred = d :: r)
    (hdue : s.deferredDue q x = true)
    (hstore : (s.putQueue q { x with deferred := r }).feStore x.ctx q (max x.stamp s.afterAll) (BitVec.ofNat 64 d.addr) (leBytes 8 d.value.toNat) true
      = .ok u ts bs) :
    execDeferredSignalWrite q s = .next ((u.modQueue q fun y => { y with stamp := ts }).tidyQueue q) := by
  unfold execDeferredSignalWrite
  rw [if_neg (Nat.not_le.mpr hq), hx]
  dsimp only
  rw [hd]
  dsimp only
  rw [hdue, if_neg (by simp)]
  exact congrArg Host.Outcome.next (by
   rw [show (State.putQueue s q _).afterAll = s.afterAll from rfl, hstore])

/-- A creation that every check passes leaves the queue running (R340, R489). -/
theorem execQueueCreate_built {mgmt : Bool} {nodes : List Launch} (hq : q < 256) (hnone : s.queue q = none)
    (hfirst : (s.qreg q).create = false ∨ s.fromInbox = true) (hboot : s.mgmt.booted = true) (hrec : s.mgmt.recovery = false)
    (hbuild : s.buildQueue q mgmt = (u, .ok (x, nodes))) (hv : u.doneIn.doneCode q = v) :
    execQueueCreate q mgmt s = .next
      ((({ v with launches := v.launches.filter (fun y => !(y.ctx == x.ctx && nodes.any fun n => n.num == y.num)) ++ nodes } : State).putQueue
        q x).putQreg q { v.qreg q with create := false, state := 1, ecode := 0, epc := 0, report := 0 }) := by
  have hgo : ¬((s.queue q).isSome ∨ ((s.qreg q).create ∧ !s.fromInbox) ∨ !(s.mgmt.booted && !s.mgmt.recovery)) := by
    obtain h | h := hfirst <;> simp [hnone, hboot, hrec, h]
  unfold execQueueCreate
  rw [if_neg (Nat.not_le.mpr hq), if_neg hgo, hbuild]
  dsimp only
  rw [if_neg (by simp), hv]
  rfl

/-- A destruction begins (R349). -/
theorem execQueueDestroy_live (hq : q < 256) (hx : s.queue q = some x) :
    execQueueDestroy q s = .next (((s.putQueue q
        (if x.pkt.isNone then { x with stopping := true, wait := .none, watch := x.watch.take 1 } else { x with stopping := true })).putQreg
      q { s.qreg q with state := 3, ecode := 0, epc := 0, destroy := true }).tidyQueue q) := by
  unfold execQueueDestroy
  rw [if_neg (Nat.not_le.mpr hq), hx]
  dsimp only
  cases x.pkt <;> rfl

/-- A packet's 257th step (R348, R491). -/
theorem execDyzilBudget_spent (hq : q < 256) (hx : s.queue q = some x) (hpkt : x.pkt.isSome = true) (hsteps : x.steps = 256) (hwait : x.wait = .none) :
    execDyzilBudget q s = .next (s.queueError q 0x8001 x.pc 0 0) := by
  unfold execDyzilBudget
  rw [if_neg (Nat.not_le.mpr hq), hx]
  dsimp only
  rw [hpkt, hsteps, hwait]
  rfl

end

/-- Settles O44, by the law of each happening; node numbers at a creation, and the stamp of a deferred signal, are the model's (log 5, log 18). -/
theorem queueHappeningsComplete : Obligations.QueueHappeningsComplete := by
  intro q s x hq word
  refine ⟨?_, ?_, ?_, ?_, execQueueDestroy_live hq, execDyzilBudget_spent hq⟩
  · intro u v ts ts' bs bs' p hx hnext hready hidx hbehind e hslot hplace hfresh
    exact execPacketStart_fresh hq hx hnext hready hidx hbehind rfl hslot hplace hfresh
  · intro hx hwoken hckpt hfree y e
    exact ⟨fun u ts bs hstate hwait hpkt hload => execMonitorWake_index (y := y) hq hx hwoken hckpt hfree rfl rfl hstate hwait hpkt hload,
      fun u ts bs hstate hwait hload hfresh => execMonitorWake_stale (y := y) hq hx hwoken hckpt hfree rfl rfl hstate hwait hload hfresh,
      fun u ts bs p hstate hinfo hload hplace hbit => execMonitorWake_restart (y := y) hq hx hwoken hckpt hfree rfl rfl hstate hinfo hload hplace hbit⟩
  · intro d r u ts bs hx hd hdue hstore
    exact execDeferredSignalWrite_due hq hx hd hdue hstore
  · intro mgmt u nodes hnone hfirst hboot hrec hbuild
    exact execQueueCreate_built hq hnone hfirst hboot hrec hbuild rfl

end Sys2Proof.Machine
end

section
namespace Sys2Proof.Machine

/-! ## Page ownership, routes and the clock (O49) -/

/-- One line of a page takes the stamp and the poison mark that came with its data (R137, R456, R473). -/
def State.installLine (base ts : Nat) (poison : List (Nat × Nat)) (s : State) (j : Nat) : State :=
  let l := s.lineOf (PA.line ⟨.dev, base + 128 * j⟩)
  let bad := (poison.find? fun x => x.1 == j).map Prod.snd
  s.putLine (PA.line ⟨.dev, base + 128 * j⟩) { l with
    wts := max l.wts ts, rts := max l.rts ts, poison := bad.isSome, hidden := 0, sectors := BitVec.ofNat 8 (bad.getD 0), upd := none, copies := [], excl := none }

section
variable {s u w : State} {ctx peer ts i : Nat} {va : DWord} {c : Ctx} {r : MigRange} {lf : Leaf} {h : Hand}

/-- Lifts one of a page's lines, gathering its data and what its poison mark covers, as a hand-over does line by line (R373, R460). -/
def State.liftNext (ctx : Nat) (y : State × Nat × List (List Byte) × List (Nat × Nat)) (p : PA × Nat) :
    State × Nat × List (List Byte) × List (Nat × Nat) :=
  let q := y.1.liftLine y.2.1 ctx p.1
  (q.1.s, q.1.ts, q.1.data :: y.2.2.1, (q.2.map fun k => (p.2, k)).toList ++ y.2.2.2)

/-- A page whose count has reached its threshold is claimed, and its data is sent to the peer (R373). -/
theorem execOwnershipHandover_sent {v : Nat} {x : State × Nat} {y : State × Nat × List (List Byte) × List (Nat × Nat)} (hv : va.toNat / 65536 * 65536 = v)
    (hctx : s.ctx ctx = some c) (hrange : c.rangeOf v = some (r, i))
    (hwalk : s.walk ctx v = .ok lf) (hreached : Tab.get r.reached i = some peer) (hloc : lf.loc = 0) (hbase : lf.base = r.dback + 65536 * i)
    (hmay : s.migratable ctx v r i lf = true) (hfree : (pageLines .dev lf.base).any s.claimed = false)
    (hone : (s.link.hands.any fun h => h.ctx == ctx && h.va == v) = false) (hroute : s.link.unreach.contains peer = false)
    (hx : s.claimLines (handKey ctx v) 0 (pageLines .dev lf.base) = x)
    (hy : (pageLines .dev lf.base).zipIdx.foldl (State.liftNext ctx) (x.1, x.2, [], []) = y)
    (hw : y.1.sendMsg { dst := peer, tc := 0, ctx := ctx, stamp := y.2.1, body := .handData (BitVec.ofNat 64 v) y.2.2.1.reverse.flatten y.2.2.2 } = w) :
    execOwnershipHandover ctx va peer s = .next { w with link := { w.link with
      hands := w.link.hands ++ [{ ctx := ctx, va := v, peer := peer, pending := false, since := w.cycle }] } } := by
  unfold execOwnershipHandover
  rw [hv]
  obtain ⟨walk, hwalk'⟩ := exists_eq (a' := State.walk)
  obtain ⟨lines, hlines⟩ := exists_eq (a' := pageLines)
  obtain ⟨claim, hclaim⟩ := exists_eq (a' := State.claimLines)
  rw [← hwalk'] at hwalk ⊢
  rw [← hlines] at hfree hx hy ⊢
  rw [← hclaim] at hx ⊢
  dsimp only
  rw [hctx, Option.bind_some, hrange, hwalk]
  dsimp only
  rw [if_neg (by rw [hreached, hloc, hmay, hfree, hone, hroute]; simp [hbase])]
  subst hx hy hw
  rfl

/-- A page's data is installed and held until the commit, and its receipt is sent (R473). -/
theorem execHandoverData_installed {v : Nat} {x : State × Nat} {data : List Byte} {poison : List (Nat × Nat)} (hv : va.toNat / 65536 * 65536 = v)
    (hctx : s.ctx ctx = some c) (hrange : c.rangeOf v = some (r, i)) (hwalk : s.walk ctx v = .ok lf) (hmay : s.migratable ctx v r i lf = true)
    (hu : (List.range 512).foldl (State.installLine (r.dback + 65536 * i) ts poison)
      ({ s with dev := cellsWrite s.dev (r.dback + 65536 * i) (data.take 65536) } : State) = u)
    (hx : u.claimLines (handKey ctx v) ts (pageLines .dev (r.dback + 65536 * i)) = x)
    (hw : (x.1.writeLeaf ctx x.2 lf.pte 0 ((r.dback + 65536 * i) / 256)).sendMsg
      { dst := peer, tc := 0, ctx := ctx, stamp := 0, body := .handReceipt va } = w) :
    execHandoverData peer ctx va ⟨data, ts⟩ poison s = .next { w with link := { w.link with
      hands := w.link.hands ++ [{ ctx := ctx, va := v, peer := peer, pending := true, since := w.cycle }] } } := by
  unfold execHandoverData
  rw [hv]
  obtain ⟨walk, hwalk'⟩ := exists_eq (a' := State.walk)
  obtain ⟨claim, hclaim⟩ := exists_eq (a' := State.claimLines)
  obtain ⟨lines, hlines⟩ := exists_eq (a' := List.range 512)
  rw [← hwalk'] at hwalk ⊢
  rw [← hclaim] at hx ⊢
  rw [← hlines] at hu ⊢
  dsimp only
  rw [hctx, Option.bind_some, hrange, hwalk]
  dsimp only
  rw [if_neg (by simp [hmay])]
  subst hu hx hw
  rfl

/-- The old owner's leaf names the new one, which is told to serve the page (R473). -/
theorem execHandoverReceipt_next (hh : s.handOf ctx va.toNat false = some h) (hwalk : s.walk ctx va.toNat = .ok lf) :
    execHandoverReceipt ctx va h.peer s = .next
        (((((s.writeLeaf ctx 0 lf.pte 3 h.peer).releaseClaims (handKey ctx h.va)).dropHand ctx h.va).clearPeers ctx h.va).sendMsg
          { dst := h.peer, tc := 0, ctx := ctx, stamp := 0, body := .handCommit va }) := by
  unfold execHandoverReceipt
  rw [hh, hwalk]
  exact if_neg (by simp)

theorem execHandoverCommit_next (hh : s.handOf ctx va.toNat true = some h) : execHandoverCommit ctx va s =
    .next (((s.releaseClaims (handKey ctx h.va)).dropHand ctx h.va).clearPeers ctx h.va) := by
  unfold execHandoverCommit
  rw [hh]

theorem execHandoverReceiptTimeout_late (hh : s.handOf ctx va.toNat false = some h) (hlate : h.since + linkWait ≤ s.cycle) :
    execHandoverReceiptTimeout ctx va s = .next (((s.releaseClaims (handKey ctx h.va)).dropHand ctx h.va).clearPeers ctx h.va) := by
  unfold execHandoverReceiptTimeout
  rw [hh]
  exact if_neg (Nat.not_lt.mpr hlate)

/-- With no commit for 100 ms, the new owner asks an old owner that it reaches (R473). -/
theorem execHandoverCommitTimeout_asks (hh : s.handOf ctx va.toNat true = some h) (hroute : s.link.unreach.contains h.peer = false)
    (hlate : h.since + linkWait ≤ s.cycle) :
    execHandoverCommitTimeout ctx va s = .next (({ s with link := { s.link with
      hands := s.link.hands.map fun y => if y = h then { y with since := s.cycle } else y } } : State).sendMsg
        { dst := h.peer, tc := 0, ctx := ctx, stamp := 0, body := .handAsk va }) := by
  unfold execHandoverCommitTimeout
  rw [hh]
  dsimp only
  rw [if_neg (Nat.not_lt.mpr hlate), hroute]
  exact if_neg Bool.false_ne_true

end

/-- What waits for a destination fails once it has had no route for 100 ms (R471, R472). -/
theorem execDestinationUnreachable_fails {s : State} {dev : Nat} (hdev : dev < 127) (hnew : s.link.unreach.contains dev = false)
    (hgone : s.routeGone dev = true) :
    let u : State := { s with link := { s.link with
      unreach := dev :: s.link.unreach
      sent := s.link.sent.map fun x => if x.1.dev = dev ∧ x.2.isNone then ({ x.1 with fail := some 5 }, some (reasonValue 5)) else x } }
    let w := (u.link.xfers.filter fun x => x.cmd.dev == dev).foldl State.loseXfer u
    execDestinationUnreachable dev s = .next
      ((w.openAsks.filter fun i => w.askedOf i == some dev).foldl (fun s i => s.answerAll i (.fault 0x10 9 0) 0) w) := by
  intro u w
  unfold execDestinationUnreachable
  rw [if_neg (Nat.not_le.mpr hdev), hnew, hgone]
  rfl

/-- Settles O49, by the law of each happening; the routes at reset and what is counted are the model's (log 14, log 50). -/
theorem gangHappeningsComplete : Obligations.GangHappeningsComplete := by
  intro s
  refine ⟨?_, ?_, ?_, ?_, ?_, ?_, ?_, ?_⟩
  · intro ctx va peer c r i lf v hctx hrange hwalk
    refine ⟨?_, ?_⟩
    · intro hreached hloc hbase hmay hfree hone hroute x lift y data w
      show execOwnershipHandover ctx va peer s = _
      exact execOwnershipHandover_sent (v := v) (x := x) (y := y) (w := w) rfl hctx hrange hwalk hreached hloc hbase hmay hfree hone hroute rfl rfl rfl
    · intro data poison ts hmay base u x w
      have hu : (List.range 512).foldl (State.installLine base ts poison) ({ s with dev := cellsWrite s.dev base (data.take 65536) } : State) = u := rfl
      show execHandoverData peer ctx va ⟨data, ts⟩ poison s = _
      exact execHandoverData_installed (v := v) (u := u) (x := x) (w := w) rfl hctx hrange hwalk hmay hu rfl rfl
  · intro ctx va h served
    exact ⟨fun lf => execHandoverReceipt_next, execHandoverCommit_next, execHandoverReceiptTimeout_late, execHandoverCommitTimeout_asks⟩
  · intro dev hdev hnew hgone
    exact execDestinationUnreachable_fails hdev hnew hgone
  · intro dev hdev
    exact ⟨_, if_neg (Nat.not_le.mpr hdev), rfl, rfl⟩
  · intro port hport
    refine ⟨_, if_neg (Nat.not_le.mpr hport), fun p => ?_, rfl⟩
    dsimp only
    split
    next hin => exact (or_iff_right_of_imp fun hp => hp ▸ List.contains_iff_mem.mp hin).symm
    next => exact List.mem_cons
  · intro offset
    refine ⟨_, rfl, rfl, rfl, rfl, rfl, ?_⟩
    simp only [Bool.or_eq_true, decide_eq_true_eq, or_assoc]
    rfl
  · intro h
    exact if_pos h
  · intro hoff hgood hlast
    exact if_pos ⟨hoff, hgood, hlast⟩

end Sys2Proof.Machine
end

section
namespace Sys2Proof.Machine

/-! ## Partitions, the host port, homes and errors (O50) -/

section
variable {s : State} {p : Nat}

/-! ### Partitions -/

/-- A switch that is under way ends, once the partition's ports are free, when what the outgoing context has begun has ended (R360, R434). -/
theorem execTurnSwitch_portsFree (hp : p < 8) (hpart : s.isPart p = true) (hswitch : ((s.part p).current s.time).switching = true)
    (hfree : s.busyPorts p = []) : execTurnSwitch p s = .next (match ((s.part p).current s.time).cur with
      | none => s.endSwitch p
      | some o =>
        let t := (List.range (2 ^ s.psz p)).foldl (fun s i => s.stopChans o (p + i)) s
        if t.leaving p o then t else t.endSwitch p) := by
  unfold execTurnSwitch
  rw [if_neg (Nat.not_le.mpr hp), hpart, if_neg (by simp)]
  dsimp only
  rw [if_pos hswitch, hfree]
  unfold State.trySwitch
  rewrite [show List.foldl State.cutPort s _ = s from rfl, hfree, if_neg (by simp)]
  cases ((s.part p).current s.time).cur <;> rfl

/-- A schedule whose turns are long enough and name the partition's own contexts is pending until its first boundary (R358). -/
theorem execTurnScheduleWrite_valid {epoch : BitVec 64} {turns : List Turn} (hp : p < 8) (hpart : s.isPart p = true) (hlen : turns.length ≤ 16)
    (hvalid : ∀ t ∈ turns, t.valid = true → 10 ≤ t.len.toNat ∧ ∃ y, s.ctx t.ctx.toNat = some y ∧ y.d.pfirst = p ∧ y.d.psize = 2 ^ s.psz p) :
    execTurnScheduleWrite p epoch turns s = .next (s.putPart p { (s.part p).current s.time with
      pend := some (firstBoundary epoch.toNat turns s.time, epoch.toNat, turns) }) := by
  unfold execTurnScheduleWrite
  rw [if_neg (Nat.not_le.mpr hp)]
  refine if_neg ?_
  rw [hpart, decide_eq_false (Nat.not_lt.mpr hlen), Bool.not_true, Bool.false_or, Bool.false_or, Bool.not_eq_true', Bool.not_eq_false, List.all_eq_true]
  intro t ht
  cases hv : t.valid with
  | false => rfl
  | true =>
    obtain ⟨hlong, y, hy, hfirst, hsize⟩ := hvalid t ht hv
    simp [hlong, hy, hfirst, hsize]

end

/-- A valid layout that keeps every partition a live context names is taken (R409). -/
theorem execPartitionLayoutWrite_valid {s : State} {word : BitVec 64} {w : Nat} (hw : word.toNat % 2 ^ 32 = w) (hok : layoutOk w = true)
    (hkeeps : ∀ c ∈ s.ctxs, 2 ^ bitsOf w (4 * c.2.d.pfirst) 4 = c.2.d.psize) : execPartitionLayoutWrite word s = .next { s with
      parts := s.parts.filter fun x => bitsOf w (4 * x.1) 4 == s.psz x.1
      mgmt := { s.mgmt with layout := BitVec.ofNat 64 w } } := by
  unfold execPartitionLayoutWrite
  rw [hw]
  exact if_neg (by simpa [hok] using hkeeps)

/-! ### The host's accesses -/

section
variable {s : State} {pa n : Nat} {req : BitVec 25} {data : List Byte}

theorem execHostCxlMemAccess_load (hn : n ≤ 128) (hfree : ∀ x ∈ pieces pa n, s.hostWaits x.1 x.2 = false) :
    let r := s.doneIn.hostRead req (pieces pa n)
    execHostCxlMemAccess pa (.load req n) s = .next { r.1 with hostData := r.2.1, hostPoison := r.2.2 } := by
  unfold execHostCxlMemAccess hostLines
  rw [if_neg (by simpa [Nat.min_eq_left hn] using hfree)]
  dsimp only
  rw [Nat.min_eq_left hn]

theorem execHostCxlMemAccess_store (hn : data.length ≤ 128) (hfree : ∀ x ∈ pieces pa data.length, s.hostWaits x.1 x.2 = false) :
    execHostCxlMemAccess pa (.store req data) s = .next (s.doneIn.hostStoreAt req pa data (pieces pa data.length)) := by
  unfold execHostCxlMemAccess hostLines
  rw [if_neg (by simpa [Nat.min_eq_left hn] using hfree)]
  dsimp only
  rw [Nat.min_eq_left hn]

/-- Bytes within one line are one piece. -/
theorem linePieces_withinLine {m : Nat} (hpos : 0 < n) (hfit : pa % 128 + n ≤ 128) : linePieces (m + 2) pa n = [(pa, n)] := by
  have hmin : min n (128 - pa % 128) = n := by omega
  unfold linePieces
  rw [if_neg hpos.ne', hmin]
  dsimp only
  rw [Nat.sub_self]
  unfold linePieces
  rw [if_pos rfl]

/-- A posted write within one line, nothing before it and no claimed line in its way, is one access (R150). -/
theorem execHostCxlIoWrite_oneLine (hpos : 0 < data.length) (hfit : pa % 128 + data.length ≤ 128) (hwait : s.hostWaits pa data.length = false)
    (hfirst : s.earlierIn isIoWrite = false) : execHostCxlIoWrite pa ⟨req, data⟩ s =
      .next (s.hostAccess req pa data.length fun s ag _ a => s.hostWriteSpan ag (2 ^ 57) a data).1.doneIn := by
  unfold execHostCxlIoWrite
  rw [hfirst, if_neg Bool.false_ne_true, linePieces_withinLine hpos hfit]
  unfold State.ioPieces
  rw [hwait, if_neg Bool.false_ne_true, Nat.sub_self, List.drop_zero, List.take_length]
  rfl

theorem State.hostAccess_reached (hreach : s.hostReaches pa = true) (hup : s.hostUp = true) (go : State → Agent → Nat → PA → Acc) :
    let ctx := (s.granOwner (pa / 65536)).getD 0
    let x := s.hostSpot ctx pa
    let ag := s.hostAgent ctx req.toNat
    let r := go s ag x.2 x.1
    s.hostAccess req pa n go = ({ r.s.logHost { ag with ts := r.ts } pa x.2 n with hostStamp := r.ts },
      if r.err then (List.range n).map (Config.undefByte (s.accesses + 2 ^ 50)) else r.data, r.err) := by
  intro ctx x ag r
  unfold State.hostAccess
  rw [hreach, hup]
  rfl

/-- Outside what the host reaches, or with its link down, an access reads zeros and changes nothing (R408). -/
theorem State.hostAccess_unreached (h : s.hostReaches pa = false ∨ s.hostUp = false) (go : State → Agent → Nat → PA → Acc) :
    s.hostAccess req pa n go = (s, List.replicate n 0, false) := by
  unfold State.hostAccess
  exact if_pos (by simpa using h)

/-- A store of the host to its own memory has the device let go of the line (R165, R344). -/
theorem execHostSnoop_next (hup : s.hostUp = true) (hfree : s.claimed ⟨.host, pa⟩ = false) :
    execHostSnoop pa s = .next (s.doneIn.letGo (PA.line ⟨.host, pa⟩)) := by
  unfold execHostSnoop
  rw [hfree, if_neg (by simp), if_pos hup]

theorem execHostLinkDown_next (hup : s.hostUp = true) : execHostLinkDown s = .next { s with
    hostUp := false
    hostDownAt := s.cycle
    stops := s.stops ++ (s.ctxs.map fun c => (c.1, 4)).filter fun x => x.1 != 0
    lines := s.lines.map fun l => (l.1, { l.2 with
      hostCopy := none, copies := if l.1 % 3 = 1 then [] else l.2.copies, excl := if l.1 % 3 = 1 then none else l.2.excl }) } :=
  if_neg (by simp [hup])

/-- The host link comes up: the dirty lines kept are written back within 2 s, and dropped later (R470). -/
theorem execHostLinkUp_next (hdown : s.hostUp = false) : execHostLinkUp s = .next (if s.hostCache = true ∧ s.cycle < s.hostDownAt + 1600000000 then
    s.dirtyLines.foldl (fun s lk => s.writeBack lk) { s with hostUp := true } else State.dropDirty { s with hostUp := true }) := by
  have hkept : (s.hostCache && !s.holdOver) = true ↔ s.hostCache = true ∧ s.cycle < s.hostDownAt + 1600000000 := by
    show (s.hostCache && !decide (s.hostDownAt + 1600000000 ≤ s.cycle)) = true ↔ _
    simp
  unfold execHostLinkUp
  rw [if_neg (by simp [hdown]), ite_out_next]
  simp only [hkept]

theorem execDirtyHoldExpire_next (hdown : s.hostUp = false) (hlate : s.hostDownAt + 1600000000 ≤ s.cycle) :
    execDirtyHoldExpire s = .next s.dropDirty := by
  have hover : s.holdOver = true := decide_eq_true hlate
  unfold execDirtyHoldExpire
  rw [hdown, hover]
  rfl

/-! ### Page moves and bankers -/

/-- The copy of a page line by line, from the claims on (R366). -/
def State.movePage (ctx : Nat) (s : State) (src dst : PA) : State × Nat :=
  (List.range 512).foldl (fun (x : State × Nat) j => State.moveLine ctx x { src with a := src.a + 128 * j } { dst with a := dst.a + 128 * j })
    ((List.range 512).foldl (fun (x : State × Nat) j => x.1.placeClaim x.2 { src with a := src.a + 128 * j }) (s, 0))

/-- A page that is due moves to its other backing, and its counter begins anew (R365, R366). -/
theorem execPageMove_moves {ctx v i : Nat} {va : DWord} {c : Ctx} {r : MigRange} {lf : Leaf} {d h src dst : PA} {u : State × Nat}
    (hv : va.toNat / 65536 * 65536 = v) (hd : (⟨.dev, r.dback + 65536 * i⟩ : PA) = d) (hh : (⟨.host, r.hback + 65536 * i⟩ : PA) = h)
    (hctx : s.ctx ctx = some c) (hrange : c.rangeOf v = some (r, i)) (hwalk : s.walk ctx v = .ok lf) (hdue : r.due.contains i = true)
    (hmay : s.migratable ctx v r i lf = true) (hside : lf.loc = 0 ∧ lf.base = d.a ∨ lf.loc = 1 ∧ lf.base = h.a) (hup : s.hostUp = true)
    (hcache : s.hostCache = true) (hpte : s.claimed lf.pte = false)
    (hfree : ∀ j < 512, s.claimed { d with a := d.a + 128 * j } = false ∧ s.claimed { h with a := h.a + 128 * j } = false)
    (hsrc : (if lf.loc = 0 then d else h) = src) (hdst : (if lf.loc = 0 then h else d) = dst) (hu : State.movePage ctx s src dst = u) :
    execPageMove ctx va s = .next (((u.1.writeLeaf ctx u.2 lf.pte (if lf.loc = 0 then 1 else 0) (dst.a / 256)).moveWatches src dst).modRange
      ctx v fun r i => { r with counters := Tab.erase r.counters i, due := r.due.filter (· != i) }) := by
  have hclear : (List.range 512).any (fun j => s.claimed { src with a := src.a + 128 * j } || s.claimed { dst with a := dst.a + 128 * j }) = false := by
    rw [List.any_eq_false]
    intro j hj
    obtain ⟨hdev, hhost⟩ := hfree j (List.mem_range.mp hj)
    subst hsrc hdst
    by_cases hloc : lf.loc = 0 <;> simp [hloc, hdev, hhost]
  have hgo : (decide (lf.loc = 0 ∧ lf.base = d.a) || decide (lf.loc = 1 ∧ lf.base = h.a)) = true := by simpa using hside
  unfold execPageMove
  rw [hv]
  obtain ⟨walk, hwalk'⟩ := exists_eq (a' := State.walk)
  obtain ⟨lines, hlines⟩ := exists_eq (a' := List.range 512)
  rw [← hwalk'] at hwalk ⊢
  unfold State.movePage at hu
  rw [← hlines] at hclear hu ⊢
  dsimp only
  rw [hctx, Option.bind_some, hrange, hwalk]
  dsimp only
  subst hd hh hsrc hdst hu
  refine (if_neg ?_).trans ((if_neg ?_).trans (if_neg ?_))
  · rw [hdue]
    exact Bool.false_ne_true
  · rw [hmay, hup, hcache, show (decide _ || decide _) = true from hgo]
    exact Bool.false_ne_true
  · rw [hpte, Bool.false_or]
    exact ne_true_of_eq_false hclear

end

/-- A banker takes up to 32 requests, and those that waited enter its queue (R466). -/
theorem execBankerRequest_next {s : State} {cl : Nat} (hcl : cl < 8) :
    let r := s.farTake cl (s.cluster cl).farBuf 32 (s.cluster cl).banker []
    let c := r.1.cluster cl
    execBankerRequest cl s = .next ((s.cluster cl).banker.foldl (fun s x => s.landed x.fibre x.ctx x.launch x.task) (r.1.putCluster cl { c with
      banker := r.2 ++ c.farBuf.take (512 - r.2.length), farBuf := c.farBuf.drop (512 - r.2.length) })) := by
  intro r c
  exact if_neg (Nat.not_le.mpr hcl)

/-- A thermal trip stops every context, CTXID 0 too (R421, R492). -/
theorem execThermalTrip_next (s : State) : execThermalTrip s = .next { s with stops := s.stops ++ s.ctxs.map fun c => (c.1, 4) } := by
  unfold execThermalTrip State.stopAll
  rw [List.map_map]
  rfl

/-- Settles O50, by the law of each happening; when a schedule takes effect, how errors are classed and how host accesses are logged are the model's
(log 21, log 48, log 51). -/
theorem deviceHappeningsComplete : Obligations.DeviceHappeningsComplete := by
  intro s
  refine ⟨?_, ?_, ?_, ?_, ?_, rfl, ?_, ?_, ?_, ?_, ?_, ?_, ?_, ?_, ?_, execThermalTrip_next s⟩
  · intro p hp hpart hswitch hfree
    have hend := execTurnSwitch_portsFree hp hpart hswitch hfree
    refine ⟨fun hcur => ?_, fun o hcur => ?_⟩
    all_goals
      rw [hcur] at hend
      exact hend
  · intro p epoch turns
    exact execTurnScheduleWrite_valid
  · intro word w
    exact execPartitionLayoutWrite_valid rfl
  · intro pa n req data free
    exact ⟨execHostCxlMemAccess_load, execHostCxlMemAccess_store, execHostCxlIoWrite_oneLine, State.hostAccess_reached, State.hostAccess_unreached⟩
  · intro ctx va c r i lf v d h hctx hrange hwalk hdue hmay hside hup hcache hpte hfree src dst c' u
    exact execPageMove_moves (v := v) (d := d) (h := h) (src := src) (dst := dst) (u := u) rfl rfl rfl hctx hrange hwalk hdue hmay hside hup hcache hpte
      hfree rfl rfl rfl
  · intro pa hup hfree
    exact execHostSnoop_next hup hfree
  · exact execHostLinkDown_next
  · intro hdown dropped
    exact ⟨execHostLinkUp_next hdown, execDirtyHoldExpire_next hdown⟩
  · intro cl hcl
    exact execBankerRequest_next hcl
  · exact fun lk => rfl
  · exact fun hbm => rfl
  · intro pa tag hpa
    exact congrArg Host.Outcome.next (if_pos hpa)
  · intro k f hf
    show execHardwareError (.regCache k) s = _
    unfold execHardwareError
    dsimp only
    rw [hf]
  · intro core hcore
    exact if_neg (Nat.not_le.mpr hcore)

end Sys2Proof.Machine
end

section
namespace Sys2Proof.Machine

/-! ## Tenancy: the mailbox, the debug interface, keys, firmware and checkpoints (O51) -/

section
variable {s : State}

/-! ### Contexts -/

/-- A descriptor whose tests all pass names a slot that holds keys (R406). -/
theorem imported_of_descTests {v : Nat} (h : ∀ t ∈ s.descTests v, t.2 = false) : (s.key (CtxDesc.ofBits v).kslot).imported = true := by
  have hslot := h (16, !(s.key (CtxDesc.ofBits v).kslot).imported || (s.key (CtxDesc.ofBits v).kslot).ctx.isSome) (by simp [State.descTests])
  simp only [Bool.or_eq_false_iff, Bool.not_eq_false'] at hslot
  exact hslot.1

/-- A descriptor that passes every check gives a context (R406, R410). -/
theorem execContextCreate_passed {v : Nat} (hv : s.mgmt.descBits = v) (hcreate : s.mgmt.create = false) (hdestroy : s.mgmt.destroy = false)
    (hserves : s.serves = true) (h : ∀ t ∈ s.descTests v, t.2 = false) :
    let d := CtxDesc.ofBits v
    execContextCreate s = .next { (s.putKey d.kslot { s.key d.kslot with ctx := some d.ctxid, monitors := [], log := LogRing.empty, summary := Summary.empty }).putCtx
      d.ctxid (s.newCtx v d) with mgmt := { s.mgmt with fail := false, ffield := 0 } } := by
  have hnone : (s.descTests v).find? (fun t => t.2) = none := List.find?_eq_none.mpr fun t ht => by simp [h t ht]
  intro d
  unfold execContextCreate
  rw [hcreate, hdestroy, hserves, if_neg (by simp), if_neg (by simp), hv]
  dsimp only
  rw [hnone]

theorem execContextDestroy_live (hcreate : s.mgmt.create = false) (hdestroy : s.mgmt.destroy = false) (hctx : (s.ctx s.mgmt.dctx).isSome = true) :
    execContextDestroy s = .next { s with
      stops := s.stops ++ [(s.mgmt.dctx, 5)]
      mgmt := { s.mgmt with destroy := true, fail := false, ffield := 0, tstart := s.time, receipt := [], rpieces := 0,
                            scrubbing := s.mgmt.scrubbing ++ s.granulesOf s.mgmt.dctx } } := by
  unfold execContextDestroy
  rw [hcreate, hdestroy, if_neg (by simp), if_neg (by rw [Option.isNone_iff_eq_none, ← Option.not_isSome_iff_eq_none, not_not]; exact hctx)]
  rfl

/-! ### The debug interface -/

/-- A command begun while none runs goes by its operation (R411). -/
theorem State.debugGo_idle {op : BitVec 3} (hidle : s.mgmt.dbg.go = false) : s.debugGo op = s.debugRun { s.mgmt.dbg with op := op } :=
  if_neg (by rw [hidle]; exact Bool.false_ne_true)
theorem State.debugWait_idle {op : BitVec 3} (hidle : s.mgmt.dbg.go = false) : s.debugWait op = s.debugRun { s.mgmt.dbg with op := op } := by
  unfold State.debugWait
  rw [hidle, Bool.false_and, if_neg Bool.false_ne_true, State.debugGo_idle hidle]

section
variable {d : Debug} {f : Fibre} {fr : Frame} (ht : s.debugTarget d = .ok (f, fr))
include ht

theorem State.debugRun_halt (hop : d.op = 1) : s.debugRun d = (s.putFibre { f with halted := true }).debugEnd d 0 := by
  unfold State.debugRun
  dsimp only
  rw [ht, hop]
  rfl

theorem State.debugRun_release (hop : d.op = 2) : s.debugRun d = (s.putFibre { f with halted := false, since := s.cycle }).debugEnd d 0 := by
  unfold State.debugRun
  dsimp only
  rw [ht, hop]
  rfl

section
variable (hhalted : f.halted = true) (hport : s.onPort f.key = false) (hreg : d.reg.toNat < fr.f)
include hhalted hport hreg

/-- A command on a register of a halted fibre's frame that need not wait reads the register, or writes it (R411). -/
theorem State.debugRun_register {op : BitVec 3} (hop : d.op = op) (hlo : 3 ≤ op.toNat) (hhi : op.toNat ≤ 6)
    (hfull : 5 ≤ op.toNat → fr.full d.reg.toNat = true) :
    s.debugRun d = if op.toNat = 3 ∨ op.toNat = 5 then s.debugEnd { d with value := fr.reg d.reg.toNat, full := fr.full d.reg.toNat } 0
      else ((s.putFibre (f.putFrame (fr.setReg d.reg.toNat d.value))).settleAwaits).debugEnd d 0 := by
  subst hop
  unfold State.debugRun
  dsimp only
  rw [if_neg (by omega), ht]
  dsimp only
  rw [if_neg (by omega), if_neg (by omega), hhalted, hport, if_neg (by simp), if_neg (Nat.not_le.mpr hreg), if_neg]
  rintro ⟨hwait, hempty⟩
  rw [hfull hwait] at hempty
  exact Bool.false_ne_true hempty

end
end

theorem execDebugTimeout_late (hgo : s.mgmt.dbg.go = true) (hlate : s.mgmt.dbg.since + 800000000 ≤ s.cycle) :
    execDebugTimeout s = .next { s with mgmt := { s.mgmt with dbg := { s.mgmt.dbg with go := false, status := 2 } } } := by
  have hdue : (s.mgmt.dbg.go && decide (s.mgmt.dbg.since + cyclesPerSecond ≤ s.cycle)) = true := by
    rw [hgo, Bool.true_and]
    exact decide_eq_true hlate
  unfold execDebugTimeout
  dsimp only
  rw [if_pos hdue]
  rfl

/-! ### Registers -/

/-- A log ring in granules that the slot's context owns begins anew there (R419). -/
theorem execLogRingConfigure_owned {k ctx : Nat} {gr n : BitVec 24} (hk : k < 64) (hctx : (s.key k).ctx = some ctx)
    (howns : s.ownsGranules ctx gr.toNat n.toNat = true) :
    execLogRingConfigure k gr n s = .next (s.putKey k { s.key k with log := { LogRing.empty with gr := gr.toNat, n := n.toNat } }) := by
  unfold execLogRingConfigure
  rw [if_neg (Nat.not_le.mpr hk)]
  simp only [State.setRing, hctx, howns, if_true]

/-- A byte of BAR 0 below the control word starts nothing (R8, R410). -/
theorem State.startBar0_descriptor {off : Nat} (b : Byte) (busy : Bool) (hoff : off < 0x40) : s.startBar0 off [b] busy = s := by
  have hno {a m : Nat} (ha : 0x40 ≤ a) : writesOne off [b] a m = false := by
    unfold writesOne
    rw [List.getElem?_eq_none (by simp; omega)]
    exact Bool.and_false _
  unfold State.startBar0
  rw [hno le_rfl, hno (by decide), hno (by decide)]
  dsimp only
  rw [if_neg Bool.false_ne_true, if_neg Bool.false_ne_true, Bool.false_and, if_neg Bool.false_ne_true]
  refine List.foldlRecOn (motive := fun t => t = s) _ _ rfl fun t ht i _ => ?_
  rw [if_neg, ht]
  simp
  omega

/-- A byte of the context descriptor is taken where no creation or destroy runs (R410). -/
theorem execRegisterWrite_context {off : Nat} (b : Byte) (hcreate : s.mgmt.create = false) (hdestroy : s.mgmt.destroy = false) (hoff : off < 0x40) :
    execRegisterWrite 0 off [b] s = .next { s with mgmt := { s.mgmt with desc := Tab.set s.mgmt.desc off b } } := by
  have hbyte : s.writeBar0 off b = { s with mgmt := { s.mgmt with desc := Tab.set s.mgmt.desc off b } } := by
    unfold State.writeBar0
    dsimp only
    rw [if_pos hoff, hcreate, hdestroy]
    rfl
  unfold execRegisterWrite
  rw [if_pos rfl, writeBytes, writeBytes, State.startBar0_descriptor b _ hoff, hbyte]

theorem execRegisterWrite_queue {off : Nat} (b : Byte) (hoff : off < 0x10000) : execRegisterWrite 2 off [b] s = .next (s.putQreg (off / 256)
    { s.qreg (off / 256) with desc := Tab.set (s.qreg (off / 256)).desc (off % 256) b }) := by
  unfold execRegisterWrite
  rw [if_neg (by decide), if_pos rfl, writeBytes, writeBytes]
  unfold State.writeBar2
  rw [if_pos hoff]

/-! ### Attestation and keys -/

theorem State.useKey_eq (s : State) : s.useKey = { s with mgmt := { s.mgmt with
    keyIndex := s.mgmt.keyIndex + 1
    replace := if s.mgmt.keyIndex + 1 = 2 ^ 40 then true else s.mgmt.replace
    rcause := if s.mgmt.keyIndex + 1 = 2 ^ 40 then s.mgmt.rcause ||| (1#4 <<< 1) else s.mgmt.rcause } } := by
  unfold State.useKey
  dsimp only
  by_cases h : s.mgmt.keyIndex + 1 = 2 ^ 40
  · simp only [if_pos h]
    rfl
  · simp only [if_neg h]

/-- A report takes the one-time key that is next (R414, R415). -/
theorem execAttestationReportRequest_next {nonce : BitVec 256} (hkey : s.mgmt.keyIndex < 2 ^ 40) (hserves : s.serves = true) :
    execAttestationReportRequest nonce s = .next (State.useKey { s with mgmt := { s.mgmt with
      nonce := some nonce, kek := none, report := some (s.reportOn nonce), reports := s.mgmt.reports + 1 } }) := by
  unfold execAttestationReportRequest
  rw [hserves]
  exact if_neg (by simpa using hkey)

theorem execHostPublicKey_next {nonce : BitVec 256} {key : List Byte} (h : s.mgmt.nonce = some nonce) :
    execHostPublicKey key s = .next { s with mgmt := { s.mgmt with
      kek := (ecShared (Config.deviceKey (s.mgmt.reports - 1)) key).map fun z => deriveKek z nonce } } := by
  unfold execHostPublicKey
  rw [h]

/-- A slot that no context holds takes what an import unwraps, and the exchange is over (R414). -/
theorem execWrappedKeyImport_free {slot : Nat} {wrapped : List Byte} {kek : BitVec 256} (hslot : slot < 64) (hkek : s.mgmt.kek = some kek)
    (hfree : (s.key slot).ctx = none) : execWrappedKeyImport slot wrapped s =
      .next (({ s with mgmt := { s.mgmt with nonce := none, kek := none } } : State).putKey slot ((s.key slot).withKeys (unwrapKeys kek wrapped))) := by
  unfold execWrappedKeyImport
  rw [if_neg (Nat.not_le.mpr hslot), hkek]
  refine if_neg ?_
  show ¬(s.key slot).ctx.isSome = true
  rw [hfree]
  exact Bool.false_ne_true

/-! ### Firmware and checkpoints -/

theorem State.imageOk_of {image : Firmware} (hsig : image.sigOk = true) (hver : s.mgmt.fuseVer ≤ image.secVer) : s.imageOk image = true := by
  unfold State.imageOk
  rw [hsig, decide_eq_true hver]
  rfl

theorem execFirmwareBoot_verified {image : Firmware} (h : s.imageOk image = true) : execFirmwareBoot image s = .next { s with mgmt := { s.mgmt with
    booted := true, recovery := false, secVer := image.secVer, measurement := image.measurement } } :=
  if_pos h

theorem execFirmwareRecoveryImage_verified {image : Firmware} (h : s.imageOk image = true) (hrec : s.mgmt.recovery = true) :
    execFirmwareRecoveryImage image s = .next (State.afterReset { s with mgmt := { s.mgmt with
      recovery := false, booted := true, secVer := image.secVer, measurement := image.measurement } }) :=
  if_pos (by rw [hrec, h]; rfl)

theorem execCheckpoint_begins (h : s.mgmt.ckpt = false) : execCheckpoint s = .next { s with
    stops := s.stops ++ s.ctxs.map fun c => (c.1, 6)
    mgmt := { s.mgmt with ckpt := true, ckptGrans := [], ckptSlots := [] } } :=
  if_neg (by rw [h]; exact Bool.false_ne_true)

/-- A checkpoint is restored with its granule table and with every owner's key in its slot (R497). -/
theorem execCheckpointRestore_accepted {granules : List SavedGranule} (hidle : s.mgmt.ckpt = false) (hnil : s.mgmt.ckptGrans ≠ [])
    (htable : s.mgmt.ckptGrans = s.mgmt.grans) (hkeys : ∀ x ∈ s.mgmt.ckptSlots, (s.key x.2).imported = true) :
    execCheckpointRestore granules s = .next ((granules.filter fun g => (s.granOwner g.gran).isSome).foldl State.restoreGranule s) := by
  refine if_neg ?_
  rw [hidle, List.all_eq_true.mpr hkeys, ← htable]
  simp [hnil]

end

/-- Settles O51, by the law of each happening; the order of the checks, the statuses of the debug interface and what module reset keeps are the model's
(log 13, log 45, log 46). -/
theorem tenancyHappeningsComplete : Obligations.TenancyHappeningsComplete := by
  intro s
  refine ⟨?_, execContextDestroy_live, ?_, execDebugTimeout_late, fun k ctx gr n => execLogRingConfigure_owned, fun off b => execRegisterWrite_context b,
    fun off b => execRegisterWrite_queue b, ?_, fun nonce key => execHostPublicKey_next, ?_, ?_,
    ⟨_, rfl, rfl, rfl, rfl, rfl, rfl, rfl, rfl, rfl, rfl⟩, execCheckpoint_begins, fun granules => execCheckpointRestore_accepted⟩
  · intro hcreate hdestroy hserves htests v d u
    exact ⟨imported_of_descTests htests, execContextCreate_passed (v := v) rfl hcreate hdestroy hserves htests⟩
  · intro f fr hidle d reg ht ends
    have hgo {i : Instr} {op : BitVec 3} (hx : exec i s = .next (s.debugGo op)) : exec i s = .next (s.debugRun { d with op := op }) := by
      rw [hx, State.debugGo_idle hidle]
    have hwait {i : Instr} {op : BitVec 3} (hx : exec i s = .next (s.debugWait op)) : exec i s = .next (s.debugRun { d with op := op }) := by
      rw [hx, State.debugWait_idle hidle]
    refine ⟨?_, ?_, fun hhalted hport hreg => ⟨?_, ?_, fun hfull => ⟨?_, ?_⟩⟩⟩
    · rw [hgo (op := 1) rfl, State.debugRun_halt (ht 1) rfl]
      rfl
    · rw [hgo (op := 2) rfl, State.debugRun_release (ht 2) rfl]
      rfl
    · rw [hgo (op := 3) rfl, State.debugRun_register (op := 3) (ht 3) hhalted hport hreg rfl (by decide) (by decide) (fun h => absurd h (by decide)), if_pos (by decide)]
      rfl
    · rw [hgo (op := 4) rfl, State.debugRun_register (op := 4) (ht 4) hhalted hport hreg rfl (by decide) (by decide) (fun h => absurd h (by decide)), if_neg (by decide)]
      rfl
    · rw [hwait (op := 5) rfl, State.debugRun_register (op := 5) (ht 5) hhalted hport hreg rfl (by decide) (by decide) (fun _ => hfull), if_pos (by decide)]
      exact congrArg (fun b => Host.Outcome.next (s.debugEnd { d with op := 5, value := fr.reg reg, full := b } 0)) hfull
    · rw [hwait (op := 6) rfl, State.debugRun_register (op := 6) (ht 6) hhalted hport hreg rfl (by decide) (by decide) (fun _ => hfull), if_neg (by decide)]
      rfl
  · intro nonce hkey hserves
    refine ⟨_, execAttestationReportRequest_next hkey hserves, ?_⟩
    rw [State.useKey_eq]
    exact ⟨rfl, rfl, rfl, fun hlast => if_pos hlast, rfl, s.reportOn nonce, rfl, rfl, rfl, rfl, rfl, rfl, rfl⟩
  · intro slot wrapped kek hslot hkek hfree
    refine ⟨_, execWrappedKeyImport_free hslot hkek hfree, rfl, rfl, ?_⟩
    rw [State.key_putKey, if_pos rfl]
    cases unwrapKeys kek wrapped with
    | none => exact ⟨rfl, rfl, rfl, rfl⟩
    | some b => rfl
  · intro image hsig hver
    have hok := State.imageOk_of hsig hver
    exact ⟨execFirmwareBoot_verified hok, fun hrec => ⟨_, execFirmwareRecoveryImage_verified hok hrec, rfl, rfl, rfl, rfl, rfl, rfl⟩⟩

end Sys2Proof.Machine
end

section
namespace Sys2Proof.Machine

/-! ## The sequencers (O40, O41)

### Control of a sequencer (O40) -/

/-- The sequencer of team 3 at an XLOOP to the next line, whose slot 0 is a target; its counter 0 is 1. -/
def loopScene : State :=
  let s := State.reset.placeSlot ((encodeSlot (.xloop 0 0 1)).getD 0)
  ({ s with actor := .seqr 0 0, dev := cellsWrite s.dev 0x2007C (leBytes 4 0x80000001) } : State).modSeqr 3 fun q => { q with l := [1, 0, 0, 0] }
/-- The same, number 3 being listed once more, before: for a team of core 1 whose counter 0 is 7. -/
def twiceListed : State := { loopScene with
  teams := (loopScene.teams.map fun x => (x.1, { x.2 with core := 1, seqr := { x.2.seqr with l := [7, 0, 0, 0] } })) ++ loopScene.teams }
theorem twiceListed_seqTeam : (twiceListed.seqTeam 0 0).isSome = true := by decide +kernel
/-- The team whose sequencer acts there, and its number. -/
def loopTeam : Nat × Team := (twiceListed.seqTeam 0 0).get twiceListed_seqTeam
/-- Counter 0 of the team that number 3 leads to, in an outcome's state. -/
def Out.counter : Out → Option Word
  | .next s => (s.team 3).map fun t => t.seqr.l.getD 0 0
  | _ => none

/-- Refutes O40, by its clause on an XLOOP that jumps: the model leaves one less than the counter of the team whose sequencer acts, where the statement
has the counter that its number leads to lowered. They are the same wherever a number is listed once; the statement ranges over all states, and in this
one number 3 stands twice, so the model leaves 0 and the statement 6. -/
theorem not_sequencerControlCompletes : ¬ Obligations.SequencerControlCompletes := by
  intro h
  obtain ⟨-, -, -, -, -, -, -, -, -, -, hloop, -⟩ := h
  have hsame := congrArg Out.counter (hloop 0 0 1 twiceListed 0 0 loopTeam.1 loopTeam.2 rfl
    (Option.some_get twiceListed_seqTeam).symm (by decide +kernel) (by decide +kernel))
  have hmodel : Out.counter (exec (.xloop 0 0 1) twiceListed) = some 0 := by decide +kernel
  exact absurd (hmodel.symm.trans hsame) (by decide +kernel)

end Sys2Proof.Machine
end

section
namespace Sys2Proof.Machine

/-! ### Loads, products and drains (O41) -/

section
variable {op core n tk : Nat} {s u v : State} {t : Team} {go : State → Nat → Team → SeqOut}

/-- A sequencer instruction that proceeds leaves its sequencer at the next slot. -/
theorem runX_go (ha : s.actor = .seqr core n) (ht : s.seqTeam core n = some (tk, t)) (hh : t.seqr.halt = false) (hgo : go s tk t = .go u) :
    runX op s go = .next (u.seqNext tk) := by
  unfold runX
  rw [ha]
  dsimp only
  rw [ht]
  dsimp only
  rw [hh, if_neg Bool.false_ne_true, hgo]

/-- Places none of which is a peer's have no owner to ask. -/
theorem far_atHome {f : Spot → Option (Nat × Nat × PeerAcc)} {l : List (List Spot)} (hf : ∀ y, y.isPeer = false → f y = none)
    (hl : (l.all fun x => x.all fun y => !y.isPeer) = true) : (l.flatMap fun x => x.filterMap f) = [] := by
  rw [List.flatMap_eq_nil_iff]
  intro x hx
  rw [List.filterMap_eq_nil_iff]
  intro y hy
  have hy' := List.all_eq_true.mp (List.all_eq_true.mp hl x hx) y hy
  exact hf y (by simpa using hy')

/-- Accesses at home that are all made, the first of them first. -/
theorem seqMem_all {wr : Bool} {l : List (List Spot)} {start : State → State × List Byte} {fin : State → Nat → List Byte → State}
    {ts : Nat} {b bytes : List Byte} (hl : (l.all fun x => x.all fun y => !y.isPeer) = true) (hmem : t.seqr.mem = none)
    (hstart : start s = (u, b))
    (hrun : seqRun tk t wr (u.modSeqr tk fun q => { q with reqs := [], probed := true }) t.seqr.sstamp 0 l b none = .all v ts bytes) :
    seqMem tk t wr s l start fin = .go (fin (v.modSeqr tk fun q => { q with sstamp := ts }) ts bytes) := by
  unfold seqMem
  rw [far_atHome ?_ hl]
  · dsimp only
    rw [List.isEmpty_nil, if_pos rfl, hmem]
    dsimp only
    rw [hstart]
    dsimp only
    rw [List.drop_zero, hrun]
  · rintro ⟨p, va, k⟩ hy
    cases p with
    | peer o x => cases hy
    | _ => rfl

section
variable (ha : s.actor = .seqr core n) (ht : s.seqTeam core n = some (tk, t)) (hh : t.seqr.halt = false)
include ha ht hh

/-- A load into a slot of the team's own that no job uses and no subscription holds, its places at home (R322). -/
theorem execXload_all {fmt slot : BitVec 4} {cols : Bool} {ga gb : BitVec 3} {off : BitVec 20} {l : List (List Spot)} {ts : Nat} {bytes : List Byte}
    (hslot : s.hasSlot tk t slot.toNat = true) (hsub : s.inSub tk t slot.toNat = false)
    (hjobs : ∀ j ∈ t.seqr.jobs, j.readsSlot slot.toNat = false ∧ j.usesSlot slot.toNat = false)
    (halign : seqAlign (seqBase t.seqr ga off) (seqPitch t.seqr gb) 2 (loadPieces fmt.toNat cols (seqBase t.seqr ga off) (seqPitch t.seqr gb)) = none)
    (hplaces : seqPlaces s (t.who tk) false (loadPieces fmt.toNat cols (seqBase t.seqr ga off) (seqPitch t.seqr gb)) [] = .ok l)
    (hl : (l.all fun x => x.all fun y => !y.isPeer) = true) (hmem : t.seqr.mem = none)
    (hrun : seqRun tk t false (s.modSeqr tk fun q => { q with reqs := [], probed := true }) t.seqr.sstamp 0 l [] none = .all u ts bytes)
    (hv : (u.modSeqr tk fun q => { q with sstamp := ts }) = v) :
    execXload fmt cols slot ga off gb s = .next
      (((v.newSeed.2.putSlot t.ctx t.core slot.toNat
        { owner := some tk, fmt := some fmt, seed := v.newSeed.1, data := tabOf bytes, filling := true }).addJob tk (.xload slot.toNat)).seqNext tk) := by
  have hbusy : (t.seqr.jobs.any fun j => j.readsSlot slot.toNat || j.usesSlot slot.toNat) = false :=
    List.any_eq_false.mpr fun j hj => by simp [hjobs j hj]
  refine runX_go ha ht hh ?_
  dsimp only
  rw [hslot, hsub, if_neg (by decide), hbusy, if_neg Bool.false_ne_true, halign, hplaces]
  dsimp only
  rw [seqMem_all hl hmem rfl hrun, hv]

/-- A product of two filled slots of the team's own into its tile, no drain of the tile and no other product of the core on its way (R324). -/
theorem runXmma_go {keep : Bool} {tile : BitVec 3} {sa sb fa fb : BitVec 4}
    (hsa : s.hasSlot tk t sa.toNat = true) (hsb : s.hasSlot tk t sb.toNat = true) (htile : s.hasTile tk t tile.toNat = true)
    (hoka : s.subOk tk t sa.toNat = true) (hokb : s.subOk tk t sb.toNat = true)
    (hfa : (s.slotOf t sa.toNat).fmt = some fa) (hfb : (s.slotOf t sb.toNat).fmt = some fb) (hk : opK fa.toNat = opK fb.toNat)
    (hfilla : (s.slotOf t sa.toNat).filling = false) (hfillb : (s.slotOf t sb.toNat).filling = false)
    (hdrain : ∀ j ∈ t.seqr.jobs, (j.isDrain && j.usesTile tile.toNat) = false)
    (hmma : ∀ x ∈ s.teams, x.2.ctx = t.ctx → x.2.core = t.core → x.2.seqr.jobs.any SeqJob.isMma = false) :
    runXmma op keep tile sa sb s = .next (((s.putTile t.ctx t.core tile.toNat { s.tileOf t tile.toNat with
      data := tabOf (product fa.toNat fb.toNat (s.slotOf t sa.toNat) (s.slotOf t sb.toNat) (if keep then some (s.tileOf t tile.toNat) else none)) }).addJob
        tk (.xmma tile.toNat sa.toNat sb.toNat)).seqNext tk) := by
  have hnodrain : (t.seqr.jobs.any fun x => x.isDrain && x.usesTile tile.toNat) = false :=
    List.any_eq_false.mpr fun j hj => by simp only [hdrain j hj, Bool.false_eq_true, not_false_eq_true]
  have hnomma : (s.teams.any fun x => x.2.ctx == t.ctx && x.2.core == t.core && x.2.seqr.jobs.any SeqJob.isMma) = false := by
    refine List.any_eq_false.mpr fun x hx hbusy => ?_
    simp only [Bool.and_eq_true, beq_iff_eq] at hbusy
    obtain ⟨⟨hctx, hcore⟩, hjob⟩ := hbusy
    exact Bool.false_ne_true ((hmma x hx hctx hcore).symm.trans hjob)
  refine runX_go ha ht hh ?_
  dsimp only
  rw [hsa, hsb, htile, hoka, hokb, if_neg (by decide), hfa, hfb]
  dsimp only
  rw [if_neg (not_not.mpr hk), hfilla, hfillb, hnodrain, hnomma, if_neg (by decide)]

/-- A drain of a tile of the team's own that no product is on its way to and no drain runs beside, its places at home (R326). -/
theorem execXdrain_all {fmt : BitVec 4} {rnd : BitVec 2} {sat : Bool} {tile ga gb : BitVec 3} {off : BitVec 20} {l : List (List Spot)} {ts : Nat}
    {bytes rest : List Byte} (htile : s.hasTile tk t tile.toNat = true)
    (hjobs : ∀ j ∈ t.seqr.jobs, (j.isMma && j.usesTile tile.toNat) = false ∧ j.isDrain = false)
    (halign : seqAlign (seqBase t.seqr ga off) (seqPitch t.seqr gb) 4
      (rowPieces (seqBase t.seqr ga off) (seqPitch t.seqr gb) (drainRow fmt.toNat)) = none)
    (hplaces : seqPlaces s (t.who tk) true (rowPieces (seqBase t.seqr ga off) (seqPitch t.seqr gb) (drainRow fmt.toNat)) [] = .ok l)
    (hl : (l.all fun x => x.all fun y => !y.isPeer) = true) (hmem : t.seqr.mem = none)
    (hbytes : s.drainBytes t fmt.toNat rnd.toNat sat tile.toNat = (u, bytes))
    (hrun : seqRun tk t true (u.modSeqr tk fun q => { q with reqs := [], probed := true }) t.seqr.sstamp 0 l bytes none = .all v ts rest) :
    execXdrain fmt rnd sat tile ga off gb s = .next
      (((v.modSeqr tk fun q => { q with sstamp := ts }).addJob tk (.xdrain tile.toNat)).seqNext tk) := by
  have hbusy : (t.seqr.jobs.any fun j => (j.isMma && j.usesTile tile.toNat) || j.isDrain) = false :=
    List.any_eq_false.mpr fun j hj => by simp only [hjobs j hj, Bool.or_false, Bool.false_eq_true, not_false_eq_true]
  refine runX_go ha ht hh ?_
  dsimp only
  rw [htile, if_neg (by decide), hbusy, if_neg Bool.false_ne_true, halign, hplaces]
  dsimp only
  rw [seqMem_all hl hmem hbytes hrun]

/-- A drain of a tile into a part of a slot, both the team's own and free of jobs that hinder it (R327). -/
theorem execXdraina_go {fmt slot : BitVec 4} {part : BitVec 2} {tile : BitVec 3} (hslot : s.hasSlot tk t slot.toNat = true)
    (hsub : s.inSub tk t slot.toNat = false) (htile : s.hasTile tk t tile.toNat = true) (hpart : part.toNat < opK fmt.toNat / 64)
    (hjobs : ∀ j ∈ t.seqr.jobs, (j.isMma && j.usesTile tile.toNat) = false ∧ j.isDrain = false ∧ j.readsSlot slot.toNat = false ∧
      j.usesSlot slot.toNat = false) :
    let o := s.slotOf t slot.toNat
    let base : OpSlot := if o.fmt = some fmt then o else { o with fmt := some fmt, seed := s.newSeed.1, data := [] }
    execXdraina fmt part slot tile s = .next (((s.newSeed.2.putSlot t.ctx t.core slot.toNat { base with
      data := (List.range 64).foldl (fun m r => tabWrite m (r * opRow fmt.toNat + part.toNat * drainRow fmt.toNat)
        (rowBytes fmt.toNat 0 false 0 r ((s.tileOf t tile.toNat).row r))) base.data,
      filling := true }).addJob tk (.xdraina slot.toNat tile.toNat)).seqNext tk) := by
  have hbusy : (t.seqr.jobs.any fun j => (j.isMma && j.usesTile tile.toNat) || j.isDrain || j.readsSlot slot.toNat || j.usesSlot slot.toNat) = false :=
    List.any_eq_false.mpr fun j hj => by simp only [hjobs j hj, Bool.or_false, Bool.false_eq_true, not_false_eq_true]
  refine runX_go ha ht hh ?_
  dsimp only
  rw [hslot, hsub, htile, decide_eq_false (Nat.not_le.mpr hpart), if_neg (by decide), hbusy, if_neg Bool.false_ne_true]
  rfl

end

end

/-- Settles O41, by the law of each instruction. -/
theorem matrixInstructionsComplete : Obligations.MatrixInstructionsComplete := by
  unfold Obligations.MatrixInstructionsComplete
  refine ⟨?_, ?_, ?_, ?_⟩
  · intro fmt cols slot ga off gb s u core n tk ts t l bytes ha ht hh hslot hsub hjobs a p ps halign hplaces hl hmem hrun v
    exact execXload_all ha ht hh hslot hsub hjobs halign hplaces hl hmem hrun rfl
  · intro keep tile sa sb fa fb s core n tk t ha ht hh hsa hsb htile hoka hokb hfa hfb hk hfilla hfillb hdrain hmma d word
    have hgo (op : Nat) := runXmma_go (op := op) (keep := keep) ha ht hh hsa hsb htile hoka hokb hfa hfb hk hfilla hfillb hdrain hmma
    cases keep
    case true => exact hgo 0x383
    case false => exact hgo 0x384
  · intro fmt rnd sat tile ga off gb s v core n tk ts t l rest ha ht hh htile hjobs a p ps halign hplaces hl hmem g bytes u hrun
    exact execXdrain_all ha ht hh htile hjobs halign hplaces hl hmem rfl hrun
  · intro fmt part slot tile s core n tk t ha ht hh hcan
    simp only [Bool.and_eq_true, Bool.not_eq_true', decide_eq_true_eq, List.all_eq_true] at hcan
    obtain ⟨⟨⟨⟨hslot, hsub⟩, htile⟩, hpart⟩, hjobs⟩ := hcan
    exact execXdraina_go ha ht hh hslot hsub htile hpart fun j hj => by
      obtain ⟨⟨⟨hmma, hdrain⟩, hreads⟩, huses⟩ := hjobs j hj
      exact ⟨hmma, hdrain, hreads, huses⟩

end Sys2Proof.Machine
end
